-- ==== Sys2Proof/Word.lean ====
section
/-! DEFINITION. The word types of the Ikidun package and the sparse table that holds every large or
numbered piece of state. Values are 64 bits (R118 of spec/07); bytes are little-endian (R2 of spec/00). -/

namespace Sys2Proof

/-- A general register's width (R118 of spec/07). -/
abbrev Word := BitVec 64

/-- One byte of memory. -/
abbrev Byte := BitVec 8

/-- A sparse table: pairs of a key and a value, keys strictly rising; an absent key reads as the table's default.
Its operations stand in Machine/Table.lean. -/
abbrev Table (α : Type) := List (Nat × α)

end Sys2Proof
end

