-- ==== Sys2Proof/Syntax/Operand.lean ====
section
/-! DEFINITION. The operand forms an instruction's fields decode to (R54 to R58 of spec/03, R105 of spec/06,
R137 of spec/07), and the flit, as data. -/

namespace Sys2Proof

/-- A general operand (R55 of spec/03): a general register, a queue register or a mailbox. -/
inductive Opnd where
  | g (n : Fin 32)
  | q (n : Fin 8)
  | mb (n : Fin 4)
  deriving DecidableEq, Repr

/-- A source operand with its synchronised-read bit SB or SC (R58 of spec/03). -/
structure Src where
  op : Opnd
  sync : Bool
  deriving DecidableEq, Repr

/-- A guard (R54 of spec/03): the sense GD[4] and the predicate number GD[3:0]. -/
structure Guard where
  sense : Bool
  pred : Fin 16
  deriving DecidableEq, Repr

/-- The guard "always", GD = 0b10000 (R54 of spec/03). -/
def Guard.always : Guard := ⟨true, 0⟩

/-- The scopes of R105 of spec/06; codes 6 and 7 are reserved. -/
inductive Scope where
  | slot | core | tile | die | pkg | sys
  deriving DecidableEq, Repr

/-- The kinds of SHI and of the vector shift (R124 of spec/07). -/
inductive ShiftKind where
  | shl | shr | sar | ror
  deriving DecidableEq, Repr

/-- The conditions of CMP (R137 of spec/07). -/
inductive CmpCond where
  | eq | ne | lt | ge
  deriving DecidableEq, Repr

/-- The conditions of CMPU (R137 of spec/07). -/
inductive CmpuCond where
  | ltu | geu | tstz | tstnz
  deriving DecidableEq, Repr

/-- The conditions of CMPI: those of CMP, then those of CMPU (R137 of spec/07). -/
inductive CmpiCond where
  | signed (c : CmpCond)
  | unsigned (c : CmpuCond)
  deriving DecidableEq, Repr

/-- The element types of a gather or scatter (R133 of spec/08). -/
inductive GatherType where
  | int32 | int64 | fp32 | w19
  deriving DecidableEq, Repr

/-- The selector kinds of PTSYNC (R326 of spec/21). -/
inductive SyncKind where
  | page | asid | all
  deriving DecidableEq, Repr

/-- The element types of R64 of spec/04 (codes 0x0 to 0x9). -/
inductive ElemType where
  | int8 | int16 | int32 | int64 | fp16 | bf16 | fp32 | w19 | c8 | mxfp4
  deriving DecidableEq, Repr

/-- The rounding modes of R70 of spec/04 (codes 0 to 5). -/
inductive RoundMode where
  | rne | rz | rup | rdn | sr | rna
  deriving DecidableEq, Repr

/-- Access sizes of the addressing layout (R125 of spec/07). -/
inductive MemSize where
  | b | h | w | d | q
  deriving DecidableEq, Repr

/-- An address of the addressing layout (R125 of spec/07). -/
structure Addr where
  b : Src
  c : Src
  ss : Fin 4
  disp : BitVec 18
  deriving DecidableEq, Repr

/-- Ordering modifiers of the atomic layout (R127 of spec/07), each with its scope. -/
inductive AmoOrd where
  | none | acq (s : Scope) | rel (s : Scope) | ar (s : Scope)
  deriving DecidableEq, Repr

/-- Atomic operations (R127 of spec/07). -/
inductive AmoOp where
  | add | and | or | xor | min | max | minu | maxu | swap
  deriving DecidableEq, Repr

/-- Kinds of FENCE (R366 of spec/06). -/
inductive FenceKind where
  | acq | rel | ar
  deriving DecidableEq, Repr

/-- The C operand of a vector instruction: a vector register, or a general operand broadcast (CG of R131 of spec/08). -/
inductive VSrc where
  | v (n : Fin 16)
  | g (s : Src)
  deriving DecidableEq, Repr

/-- The control field of a vector instruction (R131 of spec/08): guard, type, mask, ZM, rounding, table selector. -/
structure VCtl where
  gd : Guard
  ty : ElemType
  mask : Option (Fin 4)
  zm : Bool
  rm : RoundMode
  tsel : Fin 5
  deriving DecidableEq, Repr

/-- The two-operand arithmetic of R384 of spec/08. -/
inductive VArith where
  | add | sub | mul | fma | min | max
  deriving DecidableEq, Repr

/-- Bitwise operations of R385 of spec/08 and of VMASK (R388 of spec/08). -/
inductive BitOp where
  | and | or | xor | andn
  deriving DecidableEq, Repr

/-- VCMP conditions (R386 of spec/08). -/
inductive VCond where
  | eq | ne | lt | le | gt | ge | unord
  deriving DecidableEq, Repr

/-- Reductions of R390 of spec/08. -/
inductive RedOp where
  | sum | min | max
  deriving DecidableEq, Repr

/-- The functions of R397 of spec/08. -/
inductive ApproxFn where
  | exp2 | rcp | rsq | log2
  deriving DecidableEq, Repr

end Sys2Proof
end

