-- ==== Sys2Proof/Syntax.lean ====
section
/-! DEFINITION. The instructions and events of spec/opcode_table.json: one constructor a row, in the table's order.
The rows up to PTSYNC, and RESERVED_MAJOR_OPCODE, are heads a slot issues; the others are steps of the engines, of time,
of the host, of the links and of the test port. The instructions of the opcode map (R59 of spec/03) that have no row
stand in Syntax/Unlisted.lean. -/

namespace Sys2Proof

/-- One constructor per row of spec/opcode_table.json. -/
inductive Instr where
  /-- BR: R120 of spec/07. -/
  | br (gd : Guard) (target : BitVec 20)
  /-- CALL: R120 of spec/07. -/
  | call (gd : Guard) (a : Opnd) (target : BitVec 20)
  /-- LOOP: R123 of spec/07; A is the count, a plain source. -/
  | loop (gd : Guard) (a : Opnd) (target : BitVec 20)
  /-- TRAP: R126 of spec/07. -/
  | trap (gd : Guard) (imm : BitVec 20)
  /-- TRET: R126 of spec/07, R346 of spec/23. -/
  | tret
  /-- CRD: R127 of spec/07, R41 of spec/02. -/
  | crd (gd : Guard) (a : Opnd) (num : BitVec 12)
  /-- CWR: R127 of spec/07, R41 of spec/02. -/
  | cwr (gd : Guard) (num : BitVec 12) (b : Src)
  /-- RETIRE: R129 of spec/07. -/
  | retire
  /-- BRK: R126 of spec/07. -/
  | brk
  /-- ADD: R122 of spec/07. -/
  | add (a : Opnd) (b c : Src)
  /-- SUB: R122 of spec/07. -/
  | sub (a : Opnd) (b c : Src)
  /-- MUL: R122 of spec/07. -/
  | mul (a : Opnd) (b c : Src)
  /-- MULH: R122 of spec/07. -/
  | mulh (a : Opnd) (b c : Src)
  /-- MULHU: R122 of spec/07. -/
  | mulhu (a : Opnd) (b c : Src)
  /-- DIV: R122 and R123 of spec/07. -/
  | div (a : Opnd) (b c : Src)
  /-- DIVU: R122 and R123 of spec/07. -/
  | divu (a : Opnd) (b c : Src)
  /-- REM: R122 and R123 of spec/07. -/
  | rem (a : Opnd) (b c : Src)
  /-- REMU: R122 and R123 of spec/07. -/
  | remu (a : Opnd) (b c : Src)
  /-- AND: R122 of spec/07. -/
  | and (a : Opnd) (b c : Src)
  /-- OR: R122 of spec/07. -/
  | or (a : Opnd) (b c : Src)
  /-- XOR: R122 of spec/07. -/
  | xor (a : Opnd) (b c : Src)
  /-- SHL: R122 of spec/07. -/
  | shl (a : Opnd) (b c : Src)
  /-- SHR: R122 of spec/07. -/
  | shr (a : Opnd) (b c : Src)
  /-- SAR: R122 of spec/07. -/
  | sar (a : Opnd) (b c : Src)
  /-- ROR: R122 of spec/07. -/
  | ror (a : Opnd) (b c : Src)
  /-- MIN: R122 of spec/07. -/
  | min (a : Opnd) (b c : Src)
  /-- MAX: R122 of spec/07. -/
  | max (a : Opnd) (b c : Src)
  /-- MINU: R122 of spec/07. -/
  | minu (a : Opnd) (b c : Src)
  /-- MAXU: R122 of spec/07. -/
  | maxu (a : Opnd) (b c : Src)
  /-- CLZ: R122 of spec/07. -/
  | clz (a : Opnd) (b : Src)
  /-- POPC: R122 of spec/07. -/
  | popc (a : Opnd) (b : Src)
  /-- CTZ: R122 of spec/07. -/
  | ctz (a : Opnd) (b : Src)
  /-- ADDI: R124 of spec/07. -/
  | addi (gd : Guard) (a : Opnd) (b : Src) (imm : BitVec 20)
  /-- ANDI: R124 of spec/07. -/
  | andi (gd : Guard) (a : Opnd) (b : Src) (imm : BitVec 20)
  /-- ORI: R124 of spec/07. -/
  | ori (gd : Guard) (a : Opnd) (b : Src) (imm : BitVec 20)
  /-- XORI: R124 of spec/07. -/
  | xori (gd : Guard) (a : Opnd) (b : Src) (imm : BitVec 20)
  /-- SHI: R124 of spec/07. -/
  | shi (gd : Guard) (a : Opnd) (b : Src) (kind : ShiftKind) (amount : Fin 64)
  /-- CMP: R137 of spec/07. -/
  | cmp (p : Fin 16) (cc : CmpCond) (b c : Src)
  /-- CMPU: R137 of spec/07. -/
  | cmpu (p : Fin 16) (cc : CmpuCond) (b c : Src)
  /-- CMPI: R137 of spec/07. -/
  | cmpi (gd : Guard) (p : Fin 16) (cc : CmpiCond) (b : Src) (imm : BitVec 16)
  /-- VGATH: R152 of spec/08. -/
  | vgath (gd : Guard) (ty : GatherType) (a : Fin 16) (b : Src) (c : Fin 16) (mask : Option (Fin 4)) (scale : Fin 4)
  /-- VSCAT: R152 of spec/08. -/
  | vscat (gd : Guard) (ty : GatherType) (a : Fin 16) (b : Src) (c : Fin 16) (mask : Option (Fin 4)) (scale : Fin 4)
  /-- MLEASE: R142 of spec/09. -/
  | mlease (gd : Guard)
  /-- MFREE: R142 of spec/09. -/
  | mfree
  /-- MPROG: R149 and R151 of spec/09. -/
  | mprog (gd : Guard) (b : Src) (n : Fin 5)
  /-- MWLD: R151 of spec/09; k and n hold K - 1 and N - 1. -/
  | mwld (gd : Guard) (s24 : Bool) (e : Fin 64) (b c : Src) (k n : Fin 128)
  /-- MMA: R151 of spec/09; m holds M - 1. -/
  | mma (gd : Guard) (e : Fin 64) (b c : Src) (row0 m : Fin 128)
  /-- MRD: R151 of spec/09; m and n hold M - 1 and N - 1. -/
  | mrd (gd : Guard) (clr : Bool) (b c : Src) (row0 m n : Fin 128)
  /-- MCLR: R151 of spec/09; rows holds rows - 1. -/
  | mclr (gd : Guard) (b : Src) (row0 rows : Fin 128)
  /-- MCFG: R151 of spec/09. -/
  | mcfg (gd : Guard) (ta osat : Bool)
  /-- MSTAT: R151 of spec/09. -/
  | mstat (gd : Guard) (a : Fin 32)
  /-- DWIN: R403 and R164 of spec/10. -/
  | dwin (gd : Guard) (ch : Fin 16) (a : Opnd) (b c : Src) (ty tx : Fin 16) (p0 : BitVec 16)
  /-- DCAN: R170 of spec/10. -/
  | dcan (gd : Guard) (ch : Fin 16) (b : Src)
  /-- DCAN_RESUME: R170 of spec/10. -/
  | dcanResume (gd : Guard) (ch : Fin 16)
  /-- HINIT: R260 and R261 of spec/16. -/
  | hinit (gd : Guard) (scope : Scope) (b c : Src) (disp : BitVec 24)
  /-- HARR: R260 and R261 of spec/16. -/
  | harr (gd : Guard) (a : Fin 32) (b : Src) (disp : BitVec 24)
  /-- HWAIT: R260 and R261 of spec/16. -/
  | hwait (gd : Guard) (a : Fin 32) (b : Src) (disp : BitVec 20)
  /-- RREL: R281 of spec/17. -/
  | rrel (gd : Guard) (scope : Scope)
  /-- RMARK: R282 of spec/17. -/
  | rmark (gd : Guard) (a : Fin 32) (f : Fin 4)
  /-- RPERT: R283 of spec/17. -/
  | rpert (gd : Guard) (b : Src)
  /-- RREWIND: R284 of spec/17. -/
  | rrewind
  /-- FOPEN: R282 and R289 of spec/18. -/
  | fopen (gd : Guard) (w : Fin 256) (b : Src)
  /-- FOPEN_CLOSE: R282 of spec/18: FOPEN whose B names g0, which reads 0 (an FOPEN whose B reads 0 closes too). -/
  | fopenClose (gd : Guard) (w : Fin 256) (sync : Bool)
  /-- FSHORT: R289 to R291 of spec/18. -/
  | fshort (gd : Guard) (reset nb : Bool) (a : Fin 32) (w : Fin 256) (b c : Src)
  /-- FPICK: R287 to R292 of spec/18. -/
  | fpick (gd : Guard) (reset nb : Bool) (a : Fin 32) (w : Fin 256) (b c : Src)
  /-- RAND: R293 of spec/18. -/
  | rand (gd : Guard) (f : Bool) (a : Fin 32)
  /-- KVTRUNC: R296 of spec/18. -/
  | kvtrunc (gd : Guard) (commit : Bool) (a : Fin 32) (b c : Src)
  /-- QWAIT: R328 of spec/21. -/
  | qwait (gd : Guard) (a : Fin 32) (b : Src)
  /-- QWAIT_NOW: R328 of spec/21. -/
  | qwaitNow (gd : Guard) (a : Fin 32)
  /-- PTSYNC: R327 of spec/21. -/
  | ptsync (gd : Guard) (kind : SyncKind) (a : Fin 32) (b : Src)
  /-- PARKED_SLOT_WAKES: R30 of spec/02. -/
  | parkedSlotWakes (slot : Nat)
  /-- MEMORY_ANSWER_ARRIVES: R39 of spec/02, for a thread (State.nextTid); failed: a completion error (R332 of spec/22). -/
  | memoryAnswerArrives (tid : Nat) (failed : Bool)
  /-- TAKE_PENDING_TRAP: R345 of spec/23. -/
  | takePendingTrap (slot : Nat)
  /-- DROVER_RESTART: R154 of spec/10. -/
  | droverRestart (core : Nat)
  /-- MUSTER_ARBITRATION: R220 of spec/13. -/
  | musterArbitration (core : Nat)
  /-- PEN_MESSAGE_ARRIVES: R218 of spec/13; the sender whose attempt reaches the pen. -/
  | penMessageArrives (slot : Nat)
  /-- PSEND_RETRY: R223 of spec/13. -/
  | psendRetry (slot : Nat)
  /-- LEASE_CYCLE_BOUND: R142 of spec/09. -/
  | leaseCycleBound (tile : Nat)
  /-- MATRIX_COMMAND_COMPLETES: R144 of spec/09. -/
  | matrixCommandCompletes (tile : Nat)
  /-- TRANSFER_DONE: R158 of spec/10. -/
  | transferDone (tile ch : Nat)
  /-- STREAM_FAULT: R165 of spec/10. -/
  | streamFault (tile ch : Nat)
  /-- SOURCE_ERROR: R166 of spec/10. -/
  | sourceError (tile ch : Nat)
  /-- LANE_COMMAND_COMPLETES: R179 of spec/11; lane = 8 x core + local lane. -/
  | laneCommandCompletes (lane : Nat)
  /-- LOFT_FILL_ARRIVES: R190 of spec/11. -/
  | loftFillArrives (tile page : Nat)
  /-- DDE_OPERATION_COMPLETES: R207 of spec/12. -/
  | ddeOperationCompletes (die asid : Nat)
  /-- FILTER_OPERATION_COMPLETES: R292 of spec/18; index in the window's pending list. -/
  | filterOperationCompletes (w index : Nat)
  /-- VOTE: R273 of spec/17. -/
  | vote (asid launch group : Nat)
  /-- VOTE_TIMEOUT: R276 of spec/17. -/
  | voteTimeout (asid launch group : Nat)
  /-- PAGE_WALK_COMPLETES: R321 of spec/21. -/
  | pageWalkCompletes (die asid vpage : Nat)
  /-- GROUP_AGE_LIMIT: R254 of spec/15; the number of a group record. -/
  | groupAgeLimit (group : Nat)
  /-- RESERVATION_EXPIRES: R255 of spec/15. -/
  | reservationExpires (group : Nat)
  /-- COPY_NODE_DONE: R310 of spec/20. -/
  | copyNodeDone (asid graph node : Nat)
  /-- SLICE_EXPIRES: R300 of spec/19. -/
  | sliceExpires (asid : Nat)
  /-- HALT_COMPLETE: R305 of spec/19. -/
  | haltComplete (asid : Nat)
  /-- SWAP_COMPLETE: R307 of spec/19. -/
  | swapComplete (asid : Nat)
  /-- QWP_WRITE: R308 of spec/20. -/
  | qwpWrite (queue : Nat) (v : BitVec 32)
  /-- EVRP_WRITE: R308 of spec/20. -/
  | evrpWrite (queue : Nat) (v : BitVec 32)
  /-- QUEUE_RECORD_ACCEPT: R311 of spec/20. -/
  | queueRecordAccept (queue : Nat)
  /-- QUEUE_NOP: R309 of spec/20; the accepted command record and its journal number. -/
  | queueNop (queue seq : Nat) (cmd : BitVec 512)
  /-- CREATE: R297 to R299 of spec/19; the accepted command record and its journal number. -/
  | create (queue seq : Nat) (cmd : BitVec 512)
  /-- DESTROY: R307 of spec/19; the accepted command record and its journal number. -/
  | destroy (queue seq : Nat) (cmd : BitVec 512)
  /-- BIND: R309 of spec/20; the accepted command record and its journal number. -/
  | bind (queue seq : Nat) (cmd : BitVec 512)
  /-- JOB: R309 of spec/20; the accepted command record and its journal number. -/
  | job (queue seq : Nat) (cmd : BitVec 512)
  /-- PHASE: R309 of spec/20; the accepted command record and its journal number. -/
  | phase (queue seq : Nat) (cmd : BitVec 512)
  /-- GRAPH: R310 of spec/20; the accepted command record and its journal number. -/
  | graph (queue seq : Nat) (cmd : BitVec 512)
  /-- CLOSE: R309 of spec/20; the accepted command record and its journal number. -/
  | close (queue seq : Nat) (cmd : BitVec 512)
  /-- QUEUE_CANCEL: R309 of spec/20; the accepted command record and its journal number. -/
  | queueCancel (queue seq : Nat) (cmd : BitVec 512)
  /-- PORTSTAT_WRITE: R337 of spec/22. -/
  | portstatWrite (port : Nat) (v : BitVec 64)
  /-- BAR_REGISTER_WRITE: R328 of spec/22. -/
  | barRegisterWrite (offset size : Nat) (v : BitVec 64)
  /-- HOST_APERTURE_ACCESS: R328 of spec/22. -/
  | hostApertureAccess (write : Bool) (offset size : Nat) (v : BitVec 4096)
  /-- HOST_COMPLETION_TIMEOUT: R332 of spec/22, for a thread. -/
  | hostCompletionTimeout (tid : Nat)
  /-- HOT_RESET: R327 of spec/22. -/
  | hotReset
  /-- LINK_DOWN_TIMEOUT: R327 of spec/22. -/
  | linkDownTimeout
  /-- PORT_ENABLE: R338 of spec/22. -/
  | portEnable (port : Nat)
  /-- TRAINING_SUCCEEDS: R338 of spec/22. -/
  | trainingSucceeds (port : Nat) (peer : BitVec 6)
  /-- TRAINING_FAILS: R338 of spec/22. -/
  | trainingFails (port : Nat)
  /-- LOSS_OF_SIGNAL: R338 of spec/22. -/
  | lossOfSignal (port : Nat)
  /-- FLIT_RECEIVED: R334 and R336 of spec/22. -/
  | flitReceived (port : Nat) (flit : BitVec 2048)
  /-- ACK_TIMEOUT: R338 of spec/22. -/
  | ackTimeout (port : Nat)
  /-- PAUSE_EXPIRES: R335 of spec/22. -/
  | pauseExpires (port vl : Nat)
  /-- REMOTE_REQUEST_TIMEOUT: R339 of spec/22, for a thread. -/
  | remoteRequestTimeout (tid : Nat)
  /-- FREEZE_N: R349 of spec/23. -/
  | freezeN
  /-- IDCODE: R351 of spec/23. -/
  | idcode
  /-- FRZ: R349 and R351 of spec/23. -/
  | frz (resumable : Bool)
  /-- RESUME: R350 of spec/23. -/
  | resume
  /-- JTAG_SEL: R351 of spec/23. -/
  | jtagSel (sel : BitVec 64)
  /-- RDST: R351 of spec/23. -/
  | rdst
  /-- STAT: R351 of spec/23. -/
  | stat
  /-- BYPASS: R351 of spec/23. -/
  | bypass (tdi : Bool)
  /-- RESERVED_MAJOR_OPCODE: R61 of spec/03: a reserved major opcode, or a TS that is not the opcode's. -/
  | reservedMajorOpcode (head : BitVec 16)
  deriving DecidableEq, Repr

end Sys2Proof
end

