-- ==== Sys2Proof/Syntax/Unlisted.lean ====
section
/-! DEFINITION. The instructions of the opcode map (R59 of spec/03) that spec/opcode_table.json gives no row, and Insn, what
a head decodes to: a row of the table or one of these. The step gives both their meaning. -/

namespace Sys2Proof

/-- The instructions of R59 of spec/03 without a row in spec/opcode_table.json. -/
inductive Unlisted where
  -- control (spec/07, FENCE spec/06)
  | nop | isync | lbrk
  | jr (a : Opnd) (b : Src)
  | spawn (gd : Guard) (b : Src) (target : BitVec 24)
  | fence (gd : Guard) (kind : FenceKind) (scope : Scope)
  | marm (m : Fin 4) (b c : Src)
  | mwait (gd : Guard) (a : Opnd) (rot : BitVec 20)
  -- integer and predicate (spec/07)
  | movi (a : Opnd) (imm : BitVec 48)
  | movhi (gd : Guard) (a : Fin 32) (imm : BitVec 16)
  | plog (op : BitOp) (a b c : Fin 16)
  | pmovSet (p : Fin 16) (b : Src)
  | pmovGet (a : Opnd)
  | pmovPut (b : Src)
  | pmovNot (a b : Fin 16)
  | sel (gd : Guard) (a : Opnd) (m : Fin 16) (b c : Src)
  | bfx (gd : Guard) (signed : Bool) (a : Opnd) (b : Src) (pos width1 : Fin 64)
  | bfi (gd : Guard) (a : Opnd) (b c : Src) (pos width1 : Fin 64)
  | lea (gd : Guard) (a : Opnd) (addr : Addr)
  | mula (gd : Guard) (a : Fin 32) (b c : Src)
  -- memory (spec/07)
  | ld (gd : Guard) (sz : MemSize) (sx : Bool) (acq : Option Scope) (a : Opnd) (addr : Addr)
  | st (gd : Guard) (sz : MemSize) (rel : Option Scope) (a : Opnd) (addr : Addr)
  | ldfe (gd : Guard) (scope : Scope) (a : Opnd) (addr : Addr)
  | stfe (gd : Guard) (scope : Scope) (a : Opnd) (addr : Addr)
  | feset (gd : Guard) (full : Bool) (scope : Scope) (a : Opnd) (addr : Addr)
  | amo (gd : Guard) (op : AmoOp) (sz : MemSize) (ord : AmoOrd) (a : Opnd) (b c : Src) (disp : BitVec 17)
  | cas (gd : Guard) (sz : MemSize) (ord : AmoOrd) (a : Opnd) (b c : Src) (disp : BitVec 17)
  | rupd (gd : Guard) (op : AmoOp) (sz : MemSize) (b c : Src) (disp : BitVec 17)
  | pref (gd : Guard) (hint : Fin 3) (b : Src) (disp : BitVec 20)
  -- vector (spec/08)
  | varith (op : VArith) (x : VCtl) (sat u : Bool) (a b : Fin 16) (c : VSrc)
  | vlogic (op : BitOp) (x : VCtl) (a b : Fin 16) (c : VSrc)
  | vsh (kind : ShiftKind) (x : VCtl) (a b : Fin 16) (c : VSrc)
  | vcmp (cc : VCond) (u : Bool) (x : VCtl) (a : Fin 4) (b : Fin 16) (c : VSrc)
  | vsel (x : VCtl) (a b c : Fin 16)
  | vcvt (x : VCtl) (src : ElemType) (part : Fin 16) (us ud : Bool) (a b : Fin 16) (scales : Option Src)
  | vred (op : RedOp) (u : Bool) (x : VCtl) (a b : Fin 16) (scales : Option Src)
  | vscan (op : RedOp) (u : Bool) (x : VCtl) (a b : Fin 16)
  | vperm (x : VCtl) (a b : Fin 16) (c : VSrc)
  | vcomp (x : VCtl) (a b : Fin 16) (c : Opnd)
  | vapprox (fn : ApproxFn) (x : VCtl) (a b : Fin 16)
  | vbcast (x : VCtl) (a : Fin 16) (b : Src)
  | vmovg (x : VCtl) (sx : Bool) (a : Opnd) (b : Fin 16) (idx : Fin 128)
  | vld (x : VCtl) (a : Fin 16) (b c : Src) (ss : Fin 4) (disp : BitVec 12)
  | vst (x : VCtl) (a : Fin 16) (b c : Src) (ss : Fin 4) (disp : BitVec 12)
  | vtblQ (gd : Guard) (q : Fin 4) (b : Fin 16)
  | vtblPre (gd : Guard) (p : Fin 4)
  | vtblNan (gd : Guard) (n : Fin 128)
  | vmxs (x : VCtl) (src : ElemType) (part : Fin 16) (a b : Fin 16) (c : Fin 32) (sync : Bool)
  | vmaskOp (gd : Guard) (op : BitOp) (a b c : Fin 4)
  | vmaskNot (gd : Guard) (a b : Fin 4)
  | vmaskPut (gd : Guard) (h : Bool) (a : Fin 4) (b : Src)
  | vmaskGet (gd : Guard) (h : Bool) (a : Opnd) (b : Fin 4)
  | vmaskPopc (gd : Guard) (ty : ElemType) (a : Opnd) (b : Fin 4)
  | viota (x : VCtl) (a : Fin 16) (b : Src) (step : BitVec 8)
  | viotaCnt (x : VCtl) (a : Fin 16) (b : Src)
  | vclip (u : Bool) (x : VCtl) (a b : Fin 16) (c : Src)
  -- drover (spec/10)
  | dcopy (gd : Guard) (ch : Fin 16) (a : Opnd) (b c : Src) (len : BitVec 24)
  | dtile (gd : Guard) (ch : Fin 16) (a : Opnd) (b c : Src)
  | dfill (gd : Guard) (ch : Fin 16) (a : Opnd) (b c : Src) (len : BitVec 24)
  | dwait (gd : Guard) (ch : Fin 16) (a : Opnd) (b : Src)
  | dstat (gd : Guard) (ch : Fin 16) (f : Fin 4) (a : Opnd)
  | mbsend (gd : Guard) (nb : Bool) (m : Fin 4) (a : Opnd) (b : Src)
  | mbrecv (gd : Guard) (nb : Bool) (mask : Fin 16) (a b : Opnd)
  -- automata (spec/11)
  | abind (gd : Guard) (mask : BitVec 8) (b : Src)
  | areset (gd : Guard) (mask : BitVec 8)
  | astep (gd : Guard) (mask : BitVec 8) (a : Fin 32) (b : Src)
  | amap (gd : Guard) (lane : Fin 8) (a : Fin 32) (b c : Src)
  | acomp (gd : Guard) (a : Fin 32) (b c : Src)
  | acompApply (gd : Guard) (a : Fin 32) (b c : Src)
  | aallow (gd : Guard) (lane : Fin 8) (a : Fin 32) (b : Src)
  | aget (gd : Guard) (lane : Fin 8) (f : Fin 9) (i : Fin 64) (a : Fin 32)
  | aset (gd : Guard) (lane : Fin 8) (f : Fin 9) (b : Src)
  | afeed (gd : Guard) (lane : Fin 8) (a : Fin 32) (b : Src)
  | asave (gd : Guard) (lane : Fin 8) (b : Src)
  | aload (gd : Guard) (lane : Fin 8) (a : Fin 32) (b : Src)
  | apage (gd : Guard) (op : Fin 4) (n1 : Fin 128) (a : Fin 32) (b : Src)
  -- decision diagrams (spec/12); v and L as written, checked against 4,095 at issue (0x24A)
  | ddvarGet (gd : Guard) (v : BitVec 13) (a : Fin 32)
  | ddvarSet (gd : Guard) (v : BitVec 13) (b : Src)
  | ddvarAt (gd : Guard) (l : BitVec 13) (a : Fin 32)
  | ddmk (gd : Guard) (v : BitVec 12) (a : Fin 32) (b c : Src)
  | ddapp (gd : Guard) (t : BitVec 4) (a : Fin 32) (b c : Src)
  | ddite (gd : Guard) (a : Fin 32) (b c : Src)
  | ddres (gd : Guard) (v : BitVec 12) (val : Bool) (a : Fin 32) (b : Src)
  | ddex (gd : Guard) (all : Bool) (a : Fin 32) (b c : Src)
  | ddwc (gd : Guard) (a : Fin 32) (b c : Src)
  | ddrefInc (b : Src)
  | ddrefDec (b : Src)
  | ddrefGet (a : Fin 32) (b : Src)
  | ddgc (gd : Guard) (abort : Bool) (a : Fin 32)
  | ddsat (gd : Guard) (a : Fin 32) (b c : Src)
  | ddstat (gd : Guard) (f : Fin 6) (a : Fin 32)
  | ddclr (gd : Guard) (n : BitVec 13)
  | ddexp (gd : Guard) (nvoc : BitVec 18) (a : Fin 32) (b c : Src)
  -- pens (spec/13)
  | psend (gd : Guard) (a : Fin 32) (b : Src) (nb : Option Opnd)
  | pdef (gd : Guard) (m : Fin 16) (prio : Fin 16) (b : Src) (target : BitVec 24)
  | pen (gd : Guard) (nb : Bool) (p : Fin 32) (a : Fin 32) (b : Opnd)
  | pcfgMode (gd : Guard) (fault ext : Bool) (p : Fin 32)
  | pcfgDrain (gd : Guard) (p : Fin 32) (a : Opnd)
  | ppeek (gd : Guard) (f : Fin 6) (p : Fin 32) (a : Opnd)
  -- work (spec/14) and streams (spec/18)
  | launch (gd : Guard) (a : Fin 32) (b : Src) (cnt : Option Src)
  | gsel (gd : Guard) (node : Fin 1024) (a : Fin 32) (b c : Src)
  | cancel (gd : Guard) (b : Src)
  | cntrd (gd : Guard) (f : Fin 4) (a : Fin 32) (b : Src)
  | sfork (gd : Guard) (a : Fin 32) (b c : Src)
  deriving DecidableEq, Repr

/-- What a head decodes to: a row of spec/opcode_table.json, or an instruction of the map without one. -/
inductive Insn where
  | listed (i : Instr)
  | unlisted (u : Unlisted)
  deriving DecidableEq, Repr

end Sys2Proof
end

