-- ==== Sys2Proof/WellFormed.lean ====
section
/-! DEFINITION. Which terms of Instr a head can decode to in a given slot: the operand, value and role limits of the
entries (R53 to R62 of spec/03) that the types of Syntax.lean do not carry. -/

namespace Sys2Proof

/-- Control words of R41 of spec/02 below 0x500. -/
def userControlWord (n : Nat) : Bool :=
  n ≤ 0x00A || (0x100 ≤ n && n ≤ 0x105) || (0x200 ≤ n && n ≤ 0x20B) || (0x300 ≤ n && n ≤ 0x302) ||
    (0x310 ≤ n && n ≤ 0x330) || (0x400 ≤ n && n ≤ 0x403)

/-- Supervisor words of R41 of spec/02 and R342 of spec/23. -/
def supervisorControlWord (n : Nat) : Bool := 0x500 ≤ n && n ≤ 0x508

/-- The 0x045 check of R61 and R62 of spec/03: at user level every number in 0x500-0x5FF passes (R41 of spec/02). -/
def controlWordOk (sup : Bool) (n : Nat) : Bool :=
  userControlWord n || (if sup then supervisorControlWord n else 0x500 ≤ n && n ≤ 0x5FF)

/-- A source operand that slot `slot` may name: mailboxes are sources of S7 alone (R23 of spec/02). -/
def Opnd.srcOk (slot : Fin 8) : Opnd → Bool
  | .g _ => true
  | .q _ => true
  | .mb _ => slot == 7

/-- A destination operand that slot `slot` may name: mailboxes are destinations of S0 to S6 (R23 of spec/02). -/
def Opnd.dstOk (slot : Fin 8) : Opnd → Bool
  | .g _ => true
  | .q _ => true
  | .mb _ => slot != 7

/-- The source check on a source field. -/
def Src.ok (slot : Fin 8) (s : Src) : Bool := s.op.srcOk slot

/-- The scopes an HINIT may name, 1 to 4 (R260 of spec/16). -/
def Scope.hurdle : Scope → Bool
  | .core | .tile | .die | .pkg => true
  | .slot | .sys => false

/-- The scopes an RREL may name, 1 to 5 (R280 of spec/17). -/
def Scope.release : Scope → Bool
  | .slot => false
  | _ => true

/-- The formats of R51 of spec/03. -/
inductive Fmt where
  | h | r | i | x | w
  deriving DecidableEq, Repr

/-- The tail-size field of a format (R51 of spec/03). -/
def Fmt.ts : Fmt → Nat
  | .h => 0 | .r => 1 | .i => 2 | .x => 3 | .w => 3

/-- The format of each major opcode, none where it is reserved (R59 of spec/03). -/
def formatOf (op : Nat) : Option Fmt :=
  if op ∈ [0x00, 0x05, 0x07, 0x0A, 0x0C, 0x10, 0x91, 0xE3] then some .h
  else if op ∈ [0x03, 0x0E, 0x3E, 0x3F, 0x41, 0x42, 0xC7] || (0x20 ≤ op && op ≤ 0x36) then some .r
  else if op = 0x3C then some .w
  else if op ∈ [0x0B, 0x43, 0x45, 0x46, 0x47, 0x93, 0x94, 0x95, 0xA7, 0xB0, 0xB2, 0xB3, 0xB4, 0xB5, 0xB7, 0xB8, 0xB9,
      0xBA, 0xC9, 0xCC, 0xD0, 0xD1, 0xD5, 0xD6, 0xD8, 0xD9, 0xE4, 0xE5, 0xE6, 0xE8, 0xE9] ||
      (0x50 ≤ op && op ≤ 0x57) || (0x70 ≤ op && op ≤ 0x8F) || (0xA0 ≤ op && op ≤ 0xA3) ||
      (0xC1 ≤ op && op ≤ 0xC6) then some .x
  else if (op ≤ 0x0F) || (0x37 ≤ op && op ≤ 0x44) || op = 0x58 || (0x90 ≤ op && op ≤ 0x98) ||
      (0xA4 ≤ op && op ≤ 0xA8) || (0xB0 ≤ op && op ≤ 0xBB) || (0xC0 ≤ op && op ≤ 0xCC) || (0xD0 ≤ op && op ≤ 0xDB) ||
      (0xE0 ≤ op && op ≤ 0xEB) then some .i
  else none

/-- A head that R61 of spec/03 makes 0x043 or 0x044: a reserved opcode, or a TS other than its format's. -/
def headReserved (head : Nat) : Bool :=
  match formatOf (head / 64 % 256) with
  | none => true
  | some f => head / 16384 % 4 != f.ts

/-- The limits of a row's operands in slot `slot` at supervisor level `sup`: exactly the terms a head can decode to.
Events are issued by no slot, so none is well-formed as a head. -/
def Instr.wellFormed (slot : Fin 8) (sup : Bool) : Instr → Bool
  | .br _ _ | .trap _ _ | .tret | .retire | .brk | .rrewind | .rmark _ _ _ | .rand _ _ _ | .qwaitNow _ _ => true
  | .call _ a _ => a.dstOk slot
  | .loop _ a t => a.srcOk slot && t.toNat % 32 != 0
  | .crd _ a n => a.dstOk slot && controlWordOk sup n.toNat
  | .cwr _ n b => b.ok slot && controlWordOk sup n.toNat
  | .add a b c | .sub a b c | .mul a b c | .mulh a b c | .mulhu a b c | .div a b c | .divu a b c | .rem a b c
  | .remu a b c | .and a b c | .or a b c | .xor a b c | .shl a b c | .shr a b c | .sar a b c | .ror a b c
  | .min a b c | .max a b c | .minu a b c | .maxu a b c => a.dstOk slot && b.ok slot && c.ok slot
  | .clz a b | .popc a b | .ctz a b => a.dstOk slot && b.ok slot
  | .addi _ a b _ | .andi _ a b _ | .ori _ a b _ | .xori _ a b _ | .shi _ a b _ _ => a.dstOk slot && b.ok slot
  | .cmp _ _ b c | .cmpu _ _ b c => b.ok slot && c.ok slot
  | .cmpi _ _ _ b _ => b.ok slot
  | .vgath _ _ _ b _ _ _ | .vscat _ _ _ b _ _ _ => b.ok slot
  | .mlease _ | .mfree | .mcfg _ _ _ | .mstat _ _ => slot != 7
  | .mprog _ b _ => slot != 7 && b.ok slot
  | .mclr _ b r n => slot != 7 && b.ok slot && r.val + n.val < 128
  | .mwld _ _ _ b c _ _ => slot != 7 && b.ok slot && c.ok slot
  | .mma _ _ b c r m | .mrd _ _ b c r m _ => slot != 7 && b.ok slot && c.ok slot && r.val + m.val < 128
  | .dwin _ _ a b c _ _ _ => slot == 7 && a.dstOk slot && b.ok slot && c.ok slot
  | .dcan _ _ b => slot == 7 && b.ok slot
  | .dcanResume _ _ => slot == 7
  | .hinit _ sc b c _ => sc.hurdle && b.ok slot && c.ok slot
  | .harr _ _ b _ | .hwait _ _ b _ => b.ok slot
  | .rrel _ sc => sc.release
  | .rpert _ b => b.ok slot
  | .fopen _ _ b => b.ok slot && b.op != .g 0
  | .fopenClose _ _ _ => true
  | .fshort _ _ _ _ _ b c | .fpick _ _ _ _ _ b c | .kvtrunc _ _ _ b c => b.ok slot && c.ok slot
  | .qwait _ _ b | .ptsync _ _ _ b => b.ok slot
  | .reservedMajorOpcode h => headReserved h.toNat
  | .parkedSlotWakes _ | .memoryAnswerArrives _ _ | .takePendingTrap _ | .droverRestart _ | .musterArbitration _
  | .penMessageArrives _ | .psendRetry _ | .leaseCycleBound _ | .matrixCommandCompletes _ | .transferDone _ _
  | .streamFault _ _ | .sourceError _ _ | .laneCommandCompletes _ | .loftFillArrives _ _
  | .ddeOperationCompletes _ _ | .filterOperationCompletes _ _ | .vote _ _ _ | .voteTimeout _ _ _
  | .pageWalkCompletes _ _ _ | .groupAgeLimit _ | .reservationExpires _ | .copyNodeDone _ _ _ | .sliceExpires _
  | .haltComplete _ | .swapComplete _ | .qwpWrite _ _ | .evrpWrite _ _ | .queueRecordAccept _ | .queueNop _ _ _
  | .create _ _ _ | .destroy _ _ _ | .bind _ _ _ | .job _ _ _ | .phase _ _ _ | .graph _ _ _ | .close _ _ _
  | .queueCancel _ _ _ | .portstatWrite _ _ | .barRegisterWrite _ _ _ | .hostApertureAccess _ _ _ _
  | .hostCompletionTimeout _ | .hotReset | .linkDownTimeout | .portEnable _ | .trainingSucceeds _ _
  | .trainingFails _ | .lossOfSignal _ | .flitReceived _ _ | .ackTimeout _ | .pauseExpires _ _
  | .remoteRequestTimeout _ | .freezeN | .idcode | .frz _ | .resume | .jtagSel _ | .rdst | .stat | .bypass _ => false

end Sys2Proof
end

