-- ==== Sys2Proof/Decode.lean ====
section
/-! DEFINITION. The decoder of heads (R50 to R62 of spec/03, and the encoding entry of each instruction) and, after it, the
encoder of the rows of spec/opcode_table.json. Words are natural numbers, so a field is a quotient and a remainder. -/

namespace Sys2Proof

/-! ## Fields -/

/-- Bits `[lo + len - 1 : lo]` of a word. -/
def bitsOf (w lo len : Nat) : Nat := w / 2 ^ lo % 2 ^ len

/-- One bit of a word. -/
def bitOf (w i : Nat) : Bool := w / 2 ^ i % 2 == 1

/-- The general operand of a six-bit code (R55 of spec/03); a reserved code reads as g0 and is caught by the 0x046 check. -/
def opndOf (n : Nat) : Opnd :=
  if n < 32 then .g (Fin.ofNat 32 n)
  else if n < 40 then .q (Fin.ofNat 8 (n - 32))
  else if n < 44 then .mb (Fin.ofNat 4 (n - 40))
  else .g 0

/-- The guard of a five-bit code (R54 of spec/03). -/
def guardOf (n : Nat) : Guard := ⟨n / 16 % 2 == 1, Fin.ofNat 16 n⟩

/-- The scope of a code 0 to 5 (R105 of spec/06); 6 and 7 are caught by the 0x049 check. -/
def scopeOf (n : Nat) : Scope :=
  match n with
  | 0 => .slot | 1 => .core | 2 => .tile | 3 => .die | 4 => .pkg | _ => .sys

/-- The element type of a code 0 to 9 (R64 of spec/04). -/
def elemTypeOf (n : Nat) : ElemType :=
  match n with
  | 0 => .int8 | 1 => .int16 | 2 => .int32 | 3 => .int64 | 4 => .fp16 | 5 => .bf16 | 6 => .fp32 | 7 => .w19 | 8 => .c8
  | _ => .mxfp4

/-- The rounding mode of a code 0 to 5 (R70 of spec/04). -/
def roundModeOf (n : Nat) : RoundMode :=
  match n with
  | 0 => .rne | 1 => .rz | 2 => .rup | 3 => .rdn | 4 => .sr | _ => .rna

/-- The shift kind of a two-bit code (R124 of spec/07). -/
def shiftKindOf (n : Nat) : ShiftKind :=
  match n with
  | 0 => .shl | 1 => .shr | 2 => .sar | _ => .ror

/-- A source code the slot may not name: reserved, or a mailbox outside S7 (R23 of spec/02, R55 of spec/03). -/
def srcBad (slot : Fin 8) (n : Nat) : Bool := 44 ≤ n || (40 ≤ n && slot != 7)

/-- A destination code the slot may not name: reserved, or a mailbox in S7. -/
def dstBad (slot : Fin 8) (n : Nat) : Bool := 44 ≤ n || (40 ≤ n && slot == 7)

/-- The fields of a head and its tail, whatever the format (R50, R52 of spec/03): fields a format lacks are 0. -/
structure Fields where
  slot : Fin 8
  sup : Bool
  a : Nat
  b : Nat
  c : Nat
  sb : Bool
  sc : Bool
  gd : Guard
  f : Nat
  imm : Nat
  deriving DecidableEq, Repr

/-- The fields of a head and tail under a format (R52 of spec/03). `f` is F of an R tail and F5 of an X tail. -/
def fieldsOf (slot : Fin 8) (sup : Bool) (fmt : Fmt) (head tail : Nat) : Fields :=
  match fmt with
  | .h => ⟨slot, sup, head % 64, 0, 0, false, false, .always, 0, 0⟩
  | .r => ⟨slot, sup, head % 64, bitsOf tail 10 6, bitsOf tail 4 6, bitOf tail 3, bitOf tail 2, .always, bitsOf tail 0 2, 0⟩
  | .i => ⟨slot, sup, head % 64, bitsOf tail 26 6, 0, bitOf tail 25, false, guardOf (bitsOf tail 20 5), 0, bitsOf tail 0 20⟩
  | .x => ⟨slot, sup, head % 64, bitsOf tail 42 6, bitsOf tail 36 6, bitOf tail 35, bitOf tail 34, guardOf (bitsOf tail 29 5),
      bitsOf tail 24 5, bitsOf tail 0 24⟩
  | .w => ⟨slot, sup, head % 64, 0, 0, false, false, .always, 0, bitsOf tail 0 48⟩

/-- What decoding one opcode yields: the outcome of the class 1 checks that depend on its entry (R61 of spec/03), each true
where the check fails, and the instruction meant if none does. -/
structure Draft where
  insn : Insn
  opnd : Bool := false
  field : Bool := false
  value : Bool := false
  role : Bool := false
  cw : Bool := false
  deriving DecidableEq, Repr

/-- The checks in the order of R62 of spec/03: 0x046, 0x048, 0x049, 0x04A, and 0x045 last (0x043 and 0x044 come before
them, 0x047 belongs to the transfer that reached the head). -/
def Draft.finish (d : Draft) : Except Nat Insn :=
  if d.opnd then .error 0x046
  else if d.field then .error 0x048
  else if d.value then .error 0x049
  else if d.role then .error 0x04A
  else if d.cw then .error 0x045
  else .ok d.insn

namespace Fields

def srcB (x : Fields) : Src := ⟨opndOf x.b, x.sb⟩
def srcC (x : Fields) : Src := ⟨opndOf x.c, x.sc⟩
def opA (x : Fields) : Opnd := opndOf x.a
def regA (x : Fields) : Fin 32 := Fin.ofNat 32 x.a
def vA (x : Fields) : Fin 16 := Fin.ofNat 16 x.a
def vB (x : Fields) : Fin 16 := Fin.ofNat 16 x.b
def vC (x : Fields) : Fin 16 := Fin.ofNat 16 x.c
/-- A is a destination the slot may not name. -/
def dA (x : Fields) : Bool := dstBad x.slot x.a
def sA (x : Fields) : Bool := srcBad x.slot x.a
def sB (x : Fields) : Bool := srcBad x.slot x.b
def sC (x : Fields) : Bool := srcBad x.slot x.c
/-- A must name g0 to g31. -/
def rA (x : Fields) : Bool := 32 ≤ x.a
/-- Field B, or C, or A used though its entry leaves it unused (R53, R58 of spec/03). -/
def uA (x : Fields) : Bool := x.a != 0
def uB (x : Fields) : Bool := x.b != 0 || x.sb
def uC (x : Fields) : Bool := x.c != 0 || x.sc
def uF (x : Fields) : Bool := x.f != 0
def uImm (x : Fields) : Bool := x.imm != 0
/-- Immediate bits from `lo` up. -/
def immFrom (x : Fields) (lo : Nat) : Bool := x.imm / 2 ^ lo != 0
def imm20 (x : Fields) : BitVec 20 := BitVec.ofNat 20 x.imm
def imm24 (x : Fields) : BitVec 24 := BitVec.ofNat 24 x.imm
/-- S7 may not issue the matrix chapter's instructions (R142 of spec/09). -/
def isS7 (x : Fields) : Bool := x.slot == 7
/-- Only S7 issues the copy commands (R60 of spec/03). -/
def notS7 (x : Fields) : Bool := x.slot != 7

end Fields

/-! ## Rows of the opcode map (R59 of spec/03) -/

/-- Opcodes 0x00 to 0x1F: control (spec/07, FENCE in spec/06). -/
def decodeControl (op : Nat) (x : Fields) : Option Draft :=
  match op with
  | 0x00 => some { insn := .unlisted .nop, field := x.uA }
  | 0x01 => some { insn := .listed (.br x.gd x.imm20), field := x.uA || x.uB }
  | 0x02 => some { insn := .listed (.call x.gd x.opA x.imm20), opnd := x.dA, field := x.uB }
  | 0x03 => some { insn := .unlisted (.jr x.opA x.srcB), opnd := x.dA || x.sB, field := x.uC || x.uF }
  | 0x04 => some { insn := .listed (.loop x.gd x.opA x.imm20), opnd := x.sA, field := x.uB, value := x.imm % 32 == 0 }
  | 0x05 => some { insn := .unlisted .lbrk, field := x.uA }
  | 0x06 => some { insn := .listed (.trap x.gd x.imm20), field := x.uA || x.uB }
  | 0x07 => some { insn := .listed .tret, field := x.uA }
  | 0x08 => some { insn := .listed (.crd x.gd x.opA (BitVec.ofNat 12 x.imm)), opnd := x.dA, field := x.uB || x.immFrom 12,
                   cw := !controlWordOk x.sup (x.imm % 4096) }
  | 0x09 => some { insn := .listed (.cwr x.gd (BitVec.ofNat 12 x.imm) x.srcB), opnd := x.sB, field := x.uA || x.immFrom 12,
                   cw := !controlWordOk x.sup (x.imm % 4096) }
  | 0x0A => some { insn := .listed .retire, field := x.uA }
  | 0x0B => some { insn := .unlisted (.spawn x.gd x.srcB x.imm24), opnd := x.sB, field := x.uA || x.uC || x.uF,
                   value := x.imm % 32 == 0, role := 6 ≤ x.slot.val }
  | 0x0C => some { insn := .listed .brk, field := x.uA }
  | 0x0D => some { insn := .unlisted (.fence x.gd (match bitsOf x.imm 3 2 with | 1 => .acq | 2 => .rel | _ => .ar)
                     (scopeOf (x.imm % 8))), field := x.uA || x.uB || x.immFrom 5,
                   value := bitsOf x.imm 3 2 == 0 || 6 ≤ x.imm % 8 }
  | 0x0E => some { insn := .unlisted (.marm (Fin.ofNat 4 x.f) x.srcB x.srcC), opnd := x.sB || x.sC, field := x.uA }
  | 0x0F => some { insn := .unlisted (.mwait x.gd x.opA x.imm20), opnd := x.dA, field := x.uB }
  | 0x10 => some { insn := .unlisted .isync, field := x.uA }
  | _ => none

/-- A three-operand R-format operation (R122 of spec/07). -/
def draftAlu3 (mk : Opnd → Src → Src → Instr) (x : Fields) : Draft :=
  { insn := .listed (mk x.opA x.srcB x.srcC), opnd := x.dA || x.sB || x.sC, field := x.uF }

/-- A unary R-format operation (R122 of spec/07). -/
def draftAlu1 (mk : Opnd → Src → Instr) (x : Fields) : Draft :=
  { insn := .listed (mk x.opA x.srcB), opnd := x.dA || x.sB, field := x.uC || x.uF }

/-- An I-format operation (R124 of spec/07). -/
def draftImm (mk : Guard → Opnd → Src → BitVec 20 → Instr) (x : Fields) : Draft :=
  { insn := .listed (mk x.gd x.opA x.srcB x.imm20), opnd := x.dA || x.sB }

/-- The condition of CMPI (R137 of spec/07), by IMM20[18:16]. -/
def cmpiCondOf (n : Nat) : CmpiCond :=
  match n with
  | 0 => .signed .eq | 1 => .signed .ne | 2 => .signed .lt | 3 => .signed .ge
  | 4 => .unsigned .ltu | 5 => .unsigned .geu | 6 => .unsigned .tstz | _ => .unsigned .tstnz

/-- The condition of CMP (R137 of spec/07), by F. -/
def cmpCondOf (n : Nat) : CmpCond :=
  match n with
  | 0 => .eq | 1 => .ne | 2 => .lt | _ => .ge

/-- The condition of CMPU (R137 of spec/07), by F. -/
def cmpuCondOf (n : Nat) : CmpuCond :=
  match n with
  | 0 => .ltu | 1 => .geu | 2 => .tstz | _ => .tstnz

/-- The bit operation of PLOG and VMASK, by code. -/
def bitOpOf (n : Nat) : BitOp :=
  match n with
  | 0 => .and | 1 => .or | 2 => .xor | _ => .andn

/-- PMOV (R374 of spec/07): four variants by F. -/
def decodePmov (x : Fields) : Draft :=
  match x.f with
  | 0 => { insn := .unlisted (.pmovSet (Fin.ofNat 16 x.a) x.srcB), opnd := x.sB, field := x.uC, value := 16 ≤ x.a }
  | 1 => { insn := .unlisted (.pmovGet x.opA), opnd := x.dA, field := x.uB || x.uC }
  | 2 => { insn := .unlisted (.pmovPut x.srcB), opnd := x.sB, field := x.uA || x.uC }
  | _ => { insn := .unlisted (.pmovNot (Fin.ofNat 16 x.a) (Fin.ofNat 16 x.b)), field := x.sb || x.uC,
           value := 16 ≤ x.a || 16 ≤ x.b }

/-- The addressing layout of R125 of spec/07. -/
def Fields.addr (x : Fields) : Addr := ⟨x.srcB, x.srcC, Fin.ofNat 4 x.f, BitVec.ofNat 18 x.imm⟩
/-- SZ of R125 and R127 of spec/07. -/
def Fields.sz (x : Fields) : Nat := x.f / 4
/-- The access size of a code 0 to 4. -/
def memSizeOf (n : Nat) : MemSize :=
  match n with
  | 0 => .b | 1 => .h | 2 => .w | 3 => .d | _ => .q

/-- Opcodes 0x20 to 0x4F: integer, predicate and bit-field operations (spec/07). -/
def decodeInteger (op : Nat) (x : Fields) : Option Draft :=
  match op with
  | 0x20 => some (draftAlu3 .add x)
  | 0x21 => some (draftAlu3 .sub x)
  | 0x22 => some (draftAlu3 .mul x)
  | 0x23 => some (draftAlu3 .mulh x)
  | 0x24 => some (draftAlu3 .mulhu x)
  | 0x25 => some (draftAlu3 .div x)
  | 0x26 => some (draftAlu3 .divu x)
  | 0x27 => some (draftAlu3 .rem x)
  | 0x28 => some (draftAlu3 .remu x)
  | 0x29 => some (draftAlu3 .and x)
  | 0x2A => some (draftAlu3 .or x)
  | 0x2B => some (draftAlu3 .xor x)
  | 0x2C => some (draftAlu3 .shl x)
  | 0x2D => some (draftAlu3 .shr x)
  | 0x2E => some (draftAlu3 .sar x)
  | 0x2F => some (draftAlu3 .ror x)
  | 0x30 => some (draftAlu3 .min x)
  | 0x31 => some (draftAlu3 .max x)
  | 0x32 => some (draftAlu3 .minu x)
  | 0x33 => some (draftAlu3 .maxu x)
  | 0x34 => some (draftAlu1 .clz x)
  | 0x35 => some (draftAlu1 .popc x)
  | 0x36 => some (draftAlu1 .ctz x)
  | 0x37 => some (draftImm .addi x)
  | 0x38 => some (draftImm .andi x)
  | 0x39 => some (draftImm .ori x)
  | 0x3A => some (draftImm .xori x)
  | 0x3B => some { insn := .listed (.shi x.gd x.opA x.srcB (shiftKindOf (bitsOf x.imm 6 2)) (Fin.ofNat 64 x.imm)),
                   opnd := x.dA || x.sB, field := x.immFrom 8 }
  | 0x3C => some { insn := .unlisted (.movi x.opA (BitVec.ofNat 48 x.imm)), opnd := x.dA }
  | 0x3D => some { insn := .unlisted (.movhi x.gd x.regA (BitVec.ofNat 16 x.imm)), opnd := x.rA, field := x.uB || x.immFrom 16 }
  | 0x3E => some { insn := .listed (.cmp (Fin.ofNat 16 x.a) (cmpCondOf x.f) x.srcB x.srcC), opnd := x.sB || x.sC,
                   value := 16 ≤ x.a }
  | 0x3F => some { insn := .listed (.cmpu (Fin.ofNat 16 x.a) (cmpuCondOf x.f) x.srcB x.srcC), opnd := x.sB || x.sC,
                   value := 16 ≤ x.a }
  | 0x40 => some { insn := .listed (.cmpi x.gd (Fin.ofNat 16 x.a) (cmpiCondOf (bitsOf x.imm 16 3)) x.srcB (BitVec.ofNat 16 x.imm)),
                   opnd := x.sB, value := 16 ≤ x.a || x.immFrom 19 }
  | 0x41 => some { insn := .unlisted (.plog (bitOpOf x.f) (Fin.ofNat 16 x.a) (Fin.ofNat 16 x.b) (Fin.ofNat 16 x.c)),
                   field := x.sb || x.sc, value := 16 ≤ x.a || 16 ≤ x.b || 16 ≤ x.c }
  | 0x42 => some (decodePmov x)
  | 0x43 => some { insn := .unlisted (.sel x.gd x.opA (Fin.ofNat 16 x.f) x.srcB x.srcC), opnd := x.dA || x.sB || x.sC,
                   field := 16 ≤ x.f || x.uImm }
  | 0x44 => some { insn := .unlisted (.bfx x.gd (bitOf x.imm 12) x.opA x.srcB (Fin.ofNat 64 x.imm) (Fin.ofNat 64 (bitsOf x.imm 6 6))),
                   opnd := x.dA || x.sB, field := x.immFrom 13, value := 64 ≤ x.imm % 64 + bitsOf x.imm 6 6 }
  | 0x45 => some { insn := .unlisted (.bfi x.gd x.opA x.srcB x.srcC (Fin.ofNat 64 x.imm) (Fin.ofNat 64 (bitsOf x.imm 6 6))),
                   opnd := x.dA || x.sB || x.sC, field := x.uF || x.immFrom 12, value := 64 ≤ x.imm % 64 + bitsOf x.imm 6 6 }
  | 0x46 => some { insn := .unlisted (.lea x.gd x.opA x.addr), opnd := x.dA || x.sB || x.sC, field := x.sz != 0 || x.immFrom 18 }
  | 0x47 => some { insn := .unlisted (.mula x.gd x.regA x.srcB x.srcC), opnd := x.rA || x.sB || x.sC, field := x.uF || x.uImm }
  | _ => none

/-- LD and ST (R125, R380 of spec/07). -/
def decodeLoadStore (store : Bool) (x : Fields) : Draft :=
  let sz := x.sz
  let ord := bitsOf x.imm 21 2
  let scope := bitsOf x.imm 18 3
  let sx := bitOf x.imm 23
  let quad := sz == 4
  { insn := if store then .unlisted (.st x.gd (memSizeOf sz) (if ord == 2 then some (scopeOf scope) else none) x.opA x.addr)
            else .unlisted (.ld x.gd (memSizeOf sz) sx (if ord == 1 then some (scopeOf scope) else none) x.opA x.addr),
    opnd := (if store then x.sA else x.dA) || x.sB || x.sC || (quad && 32 ≤ x.a),
    field := (ord == 0 && scope != 0) || (store && sx),
    value := 5 ≤ sz || (ord != 0 && ord != (if store then 2 else 1)) || 6 ≤ scope || (!store && sx && 3 ≤ sz) ||
      (quad && x.a % 2 == 1) }

/-- LDFE, STFE and FESET (R381 of spec/07): `which` 0, 1, 2. -/
def decodeFullEmpty (which : Nat) (x : Fields) : Draft :=
  let scope := bitsOf x.imm 18 3
  let sx := bitOf x.imm 23
  { insn := match which with
      | 0 => .unlisted (.ldfe x.gd (scopeOf scope) x.opA x.addr)
      | 1 => .unlisted (.stfe x.gd (scopeOf scope) x.opA x.addr)
      | _ => .unlisted (.feset x.gd sx (scopeOf scope) x.opA x.addr),
    opnd := (if which == 1 then x.sA else x.dA) || x.sB || x.sC,
    field := which != 2 && sx,
    value := x.sz != 3 || bitsOf x.imm 21 2 != 0 || 6 ≤ scope }

/-- The ordering modifier of the atomic layout (R127 of spec/07). -/
def amoOrdOf (ord scope : Nat) : AmoOrd :=
  match ord with
  | 0 => .none | 1 => .acq (scopeOf scope) | 2 => .rel (scopeOf scope) | _ => .ar (scopeOf scope)

/-- The operation of the atomic layout (R127 of spec/07), codes 0 to 8. -/
def amoOpOf (n : Nat) : AmoOp :=
  match n with
  | 0 => .add | 1 => .and | 2 => .or | 3 => .xor | 4 => .min | 5 => .max | 6 => .minu | 7 => .maxu | _ => .swap

/-- AMO, CAS and RUPD (R127, R382 of spec/07): `which` 0, 1, 2. -/
def decodeAtomic (which : Nat) (x : Fields) : Draft :=
  let sz := x.sz
  let ord := x.f % 4
  let aop := bitsOf x.imm 20 4
  let scope := bitsOf x.imm 17 3
  let disp := BitVec.ofNat 17 x.imm
  let quad := which == 1 && sz == 4
  { insn := match which with
      | 0 => .unlisted (.amo x.gd (amoOpOf aop) (memSizeOf sz) (amoOrdOf ord scope) x.opA x.srcB x.srcC disp)
      | 1 => .unlisted (.cas x.gd (memSizeOf sz) (amoOrdOf ord scope) x.opA x.srcB x.srcC disp)
      | _ => .unlisted (.rupd x.gd (amoOpOf aop) (memSizeOf sz) x.srcB x.srcC disp),
    opnd := (which != 2 && x.dA) || (which == 1 && x.sA) || x.sB || x.sC || (quad && (32 ≤ x.a || 32 ≤ x.c)),
    field := (which == 2 && x.uA) || (which == 1 && aop != 0) || (ord == 0 && scope != 0) || (which == 2 && ord != 0),
    value := !(sz == 2 || sz == 3 || quad) || (which != 1 && 9 ≤ aop) || 6 ≤ scope ||
      (quad && (x.a % 2 == 1 || x.c % 2 == 1)) }

/-- Opcodes 0x50 to 0x5F: loads, stores, full/empty, atomics, prefetch (spec/07). -/
def decodeMemory (op : Nat) (x : Fields) : Option Draft :=
  match op with
  | 0x50 => some (decodeLoadStore false x)
  | 0x51 => some (decodeLoadStore true x)
  | 0x52 => some (decodeFullEmpty 0 x)
  | 0x53 => some (decodeFullEmpty 1 x)
  | 0x54 => some (decodeFullEmpty 2 x)
  | 0x55 => some (decodeAtomic 0 x)
  | 0x56 => some (decodeAtomic 1 x)
  | 0x57 => some (decodeAtomic 2 x)
  | 0x58 => some { insn := .unlisted (.pref x.gd (Fin.ofNat 3 x.a) x.srcB x.imm20), opnd := x.sB, value := 3 ≤ x.a }
  | _ => none

/-! ## Vector instructions (R131 to R134 of spec/08) -/

namespace Fields

def ty (x : Fields) : Nat := x.f % 16
def cg (x : Fields) : Bool := x.f / 16 % 2 == 1
def men (x : Fields) : Bool := bitOf x.imm 23
def kr (x : Fields) : Nat := bitsOf x.imm 21 2
def zmf (x : Fields) : Bool := bitOf x.imm 20
def rmf (x : Fields) : Nat := bitsOf x.imm 17 3
def ts (x : Fields) : Nat := bitsOf x.imm 14 3
def fn (x : Fields) : Nat := bitsOf x.imm 0 14
def vctl (x : Fields) : VCtl :=
  ⟨x.gd, elemTypeOf x.ty, if x.men then some (Fin.ofNat 4 x.kr) else none, x.zmf, roundModeOf x.rmf, Fin.ofNat 5 x.ts⟩
def isInt (x : Fields) : Bool := x.ty ≤ 3
def isFloat (x : Fields) : Bool := 4 ≤ x.ty && x.ty ≤ 7
def isC8 (x : Fields) : Bool := x.ty == 8
/-- C of kind v/g: a vector register, or a general operand when CG is 1 (R133 of spec/08). -/
def vgC (x : Fields) : VSrc := if x.cg then .g x.srcC else .v x.vC
def vgCBad (x : Fields) : Bool := if x.cg then x.sC else 16 ≤ x.c
/-- SC on a vector C is an unused field (R58 of spec/03). -/
def vgCField (x : Fields) : Bool := !x.cg && x.sc

end Fields

/-- What an entry of R133 of spec/08 uses of the control field. -/
structure VUse where
  types : Bool
  men : Bool := true
  menReq : Bool := false
  zm : Bool := true
  rm : Bool := false
  tsel : Bool := false
  /-- FN bits the entry uses. -/
  fnMask : Nat := 0
  cg : Bool := false
  deriving DecidableEq, Repr

/-- The unused-field part of R134 of spec/08. -/
def vField (x : Fields) (u : VUse) : Bool :=
  (!u.cg && x.cg) ||
  (if u.men || u.menReq then !x.men && (x.kr != 0 || x.zmf) else x.men || x.kr != 0 || x.zmf) ||
  (!u.zm && x.zmf) || (!u.rm && x.rmf != 0) || (!u.tsel && x.ts != 0) ||
  (x.fn &&& (0x3FFF ^^^ u.fnMask)) != 0

/-- The reserved-value part of R134 of spec/08. -/
def vValue (x : Fields) (u : VUse) : Bool :=
  !u.types || (u.menReq && !x.men) || (u.rm && 6 ≤ x.rmf) || (u.tsel && 5 ≤ x.ts)

/-- Elements of a 1,024-bit register by type code (R130 of spec/08). -/
def elemCountOf (ty : Nat) : Nat :=
  match ty with
  | 0 => 128 | 1 => 64 | 2 => 32 | 3 => 16 | 4 => 64 | 5 => 64 | 6 => 32 | 7 => 32 | 8 => 128 | _ => 256

/-- VADD to VMAX (R384 of spec/08), by opcode. -/
def decodeVArith (op : VArith) (x : Fields) : Draft :=
  let mm := op == .min || op == .max
  let u : VUse := { types := x.isInt || x.isFloat, rm := x.isFloat && !mm, cg := true,
                    fnMask := if x.isInt then (if mm then 2 else 3) else 0 }
  { insn := .unlisted (.varith op x.vctl (bitOf x.fn 0) (bitOf x.fn 1) x.vA x.vB x.vgC),
    opnd := 16 ≤ x.a || 16 ≤ x.b || x.vgCBad,
    field := x.sb || x.vgCField || vField x u,
    value := vValue x u || (x.isInt && !mm && x.fn % 4 == 2) }

/-- VAND, VOR, VXOR (R385 of spec/08). -/
def decodeVLogic (op : BitOp) (x : Fields) : Draft :=
  let u : VUse := { types := x.ty ≤ 9, cg := true }
  { insn := .unlisted (.vlogic op x.vctl x.vA x.vB x.vgC), opnd := 16 ≤ x.a || 16 ≤ x.b || x.vgCBad,
    field := x.sb || x.vgCField || vField x u, value := vValue x u }

/-- VCMP (R386 of spec/08). -/
def decodeVCmp (x : Fields) : Draft :=
  let u : VUse := { types := x.isInt || x.isFloat, cg := true, fnMask := 15 }
  let cc := x.fn % 8
  { insn := .unlisted (.vcmp (match cc with | 0 => .eq | 1 => .ne | 2 => .lt | 3 => .le | 4 => .gt | 5 => .ge | _ => .unord)
      (bitOf x.fn 3) x.vctl (Fin.ofNat 4 x.a) x.vB x.vgC),
    opnd := 4 ≤ x.a || 16 ≤ x.b || x.vgCBad, field := x.sb || x.vgCField || vField x u,
    value := vValue x u || cc == 7 || (x.isInt && cc == 6) || (x.isFloat && bitOf x.fn 3) }

/-- VCVT (R389 of spec/08). -/
def decodeVCvt (x : Fields) : Draft :=
  let src := x.fn % 16
  let p := bitsOf x.fn 4 4
  let us := bitOf x.fn 8
  let ud := bitOf x.fn 9
  let mx := src == 9
  let ii := x.isInt && src ≤ 3
  let u : VUse := { types := x.ty ≤ 8, rm := !ii, tsel := x.isC8 || src == 8, fnMask := 0x3FF }
  let ns := elemCountOf src
  let nd := elemCountOf x.ty
  { insn := .unlisted (.vcvt x.vctl (elemTypeOf src) (Fin.ofNat 16 p) us ud x.vA x.vB (if mx then some x.srcC else none)),
    opnd := 16 ≤ x.a || 16 ≤ x.b || (mx && x.sC), field := x.sb || (!mx && x.uC) || vField x u,
    value := vValue x u || 10 ≤ src || (us && 4 ≤ src) || (ud && !x.isInt) ||
      (if nd ≤ ns then ns / nd ≤ p else nd / ns ≤ p) }

/-- VRED and VSCAN (R390, R391 of spec/08). DESIGN CHOICE (log 84): R390 gives U a meaning for integer MIN and MAX and forbids it for
types that are not integers; an integer SUM with U is accepted, and U has no effect on it. -/
def decodeVRed (scan : Bool) (x : Fields) : Draft :=
  let mx := x.ty == 9
  let o := x.fn % 4
  let u : VUse := { types := if scan then x.isInt || x.isFloat else x.ty ≤ 9, zm := false, rm := !x.isInt,
                    tsel := !scan && x.isC8, fnMask := if x.isInt then 7 else 3 }
  let rop : RedOp := match o with | 0 => .sum | 1 => .min | _ => .max
  { insn := if scan then .unlisted (.vscan rop (bitOf x.fn 2) x.vctl x.vA x.vB)
            else .unlisted (.vred rop (bitOf x.fn 2) x.vctl x.vA x.vB (if mx then some x.srcC else none)),
    opnd := 16 ≤ x.a || 16 ≤ x.b || (!scan && mx && x.sC), field := x.sb || ((scan || !mx) && x.uC) || vField x u,
    value := vValue x u || o == 3 || (scan && x.rmf == 4) }

/-- VEXP2, VRCP, VRSQ, VLOG2 (R397 of spec/08). -/
def decodeVApprox (fn : ApproxFn) (x : Fields) : Draft :=
  let u : VUse := { types := x.isFloat, rm := true }
  { insn := .unlisted (.vapprox fn x.vctl x.vA x.vB), opnd := 16 ≤ x.a || 16 ≤ x.b, field := x.sb || x.uC || vField x u,
    value := vValue x u }

/-- VLD and VST (R398 of spec/08). -/
def decodeVMem (store : Bool) (x : Fields) : Draft :=
  let u : VUse := { types := x.ty ≤ 9, zm := !store, fnMask := 0x3FFF }
  let ss := Fin.ofNat 4 (bitsOf x.fn 12 2)
  let d := BitVec.ofNat 12 x.fn
  { insn := if store then .unlisted (.vst x.vctl x.vA x.srcB x.srcC ss d) else .unlisted (.vld x.vctl x.vA x.srcB x.srcC ss d),
    opnd := 16 ≤ x.a || x.sB || x.sC, field := vField x u, value := vValue x u }

/-- The element type of a gather or scatter by code 2, 3, 6, 7. -/
def gatherTypeOf (n : Nat) : GatherType :=
  match n with
  | 2 => .int32 | 3 => .int64 | 6 => .fp32 | _ => .w19

/-- VGATH and VSCAT (R152 of spec/08). -/
def decodeGather (scatter : Bool) (x : Fields) : Draft :=
  let u : VUse := { types := x.ty == 2 || x.ty == 3 || x.ty == 6 || x.ty == 7, zm := false, fnMask := 3 }
  let m : Option (Fin 4) := if x.men then some (Fin.ofNat 4 x.kr) else none
  { insn := if scatter then .listed (.vscat x.gd (gatherTypeOf x.ty) x.vA x.srcB x.vC m (Fin.ofNat 4 x.fn))
            else .listed (.vgath x.gd (gatherTypeOf x.ty) x.vA x.srcB x.vC m (Fin.ofNat 4 x.fn)),
    opnd := 16 ≤ x.a || x.sB || 16 ≤ x.c, field := x.sc || vField x u, value := vValue x u }

/-- VTBL (R399 of spec/08): three modes by FN[13:12]. DESIGN CHOICE (log 69): the reserved mode 3 uses the fields of mode 2 and
raises 0x049 after the checks of these. -/
def decodeVTbl (x : Fields) : Draft :=
  let mode := bitsOf x.fn 12 2
  let u : VUse := { types := x.isC8, men := false, zm := false, fnMask := 0x3000 ||| (match mode with | 0 => 3 | 1 => 3 | _ => 0x7F) }
  { insn := match mode with
      | 0 => .unlisted (.vtblQ x.gd (Fin.ofNat 4 x.fn) x.vB)
      | 1 => .unlisted (.vtblPre x.gd (Fin.ofNat 4 x.fn))
      | _ => .unlisted (.vtblNan x.gd (Fin.ofNat 128 x.fn)),
    opnd := mode == 0 && 16 ≤ x.b, field := x.uA || (if mode == 0 then x.sb else x.uB) || x.uC || vField x u,
    value := vValue x u || mode == 3 }

/-- VMXS (R400 of spec/08). -/
def decodeVMxs (x : Fields) : Draft :=
  let src := x.fn % 16
  let p := bitsOf x.fn 4 4
  let u : VUse := { types := x.ty == 8 || x.ty == 9, zm := false, rm := true, tsel := x.isC8, fnMask := 0xFF }
  { insn := .unlisted (.vmxs x.vctl (elemTypeOf src) (Fin.ofNat 16 p) x.vA x.vB (Fin.ofNat 32 x.c) x.sc),
    opnd := 16 ≤ x.a || 16 ≤ x.b || 32 ≤ x.c, field := x.sb || vField x u,
    value := vValue x u || !(4 ≤ src && src ≤ 7) || elemCountOf x.ty / elemCountOf src ≤ p }

/-- VMASK (R388 of spec/08): the operation by FN[2:0], the half by FN[3]. DESIGN CHOICE (log 69): TYPE is an unused field of
operations 0 to 6, so one that is not 0 raises 0x048. -/
def decodeVMask (x : Fields) : Draft :=
  let o := x.fn % 8
  let h := bitOf x.fn 3
  let u : VUse := { types := true, men := false, zm := false, fnMask := if o == 5 || o == 6 then 15 else 7 }
  let tyField := o != 7 && x.ty != 0
  let k (n : Nat) : Fin 4 := Fin.ofNat 4 n
  match o with
  | 4 => { insn := .unlisted (.vmaskNot x.gd (k x.a) (k x.b)), opnd := 4 ≤ x.a || 4 ≤ x.b,
           field := x.sb || x.uC || tyField || vField x u }
  | 5 => { insn := .unlisted (.vmaskPut x.gd h (k x.a) x.srcB), opnd := 4 ≤ x.a || x.sB, field := x.uC || tyField || vField x u }
  | 6 => { insn := .unlisted (.vmaskGet x.gd h x.opA (k x.b)), opnd := x.dA || 4 ≤ x.b,
           field := x.sb || x.uC || tyField || vField x u }
  | 7 => { insn := .unlisted (.vmaskPopc x.gd (elemTypeOf x.ty) x.opA (k x.b)), opnd := x.dA || 4 ≤ x.b,
           field := x.sb || x.uC || vField x u, value := 10 ≤ x.ty }
  | _ => { insn := .unlisted (.vmaskOp x.gd (bitOpOf o) (k x.a) (k x.b) (k x.c)), opnd := 4 ≤ x.a || 4 ≤ x.b || 4 ≤ x.c,
           field := x.sb || x.sc || tyField || vField x u }

/-- VIOTA (R395 of spec/08). DESIGN CHOICE (log 69): FN[7:0] is an unused field of VIOTA.CNT, so one that is not 0 raises
0x048. -/
def decodeVIota (x : Fields) : Draft :=
  let cnt := bitOf x.fn 8
  let u : VUse := { types := x.isInt, menReq := cnt, fnMask := if cnt then 0x100 else 0x1FF }
  { insn := if cnt then .unlisted (.viotaCnt x.vctl x.vA x.srcB) else .unlisted (.viota x.vctl x.vA x.srcB (BitVec.ofNat 8 x.fn)),
    opnd := 16 ≤ x.a || x.sB, field := x.uC || vField x u, value := vValue x u }

/-- Opcodes 0x70 to 0x8F: vector (spec/08). -/
def decodeVector (op : Nat) (x : Fields) : Option Draft :=
  match op with
  | 0x70 => some (decodeVArith .add x)
  | 0x71 => some (decodeVArith .sub x)
  | 0x72 => some (decodeVArith .mul x)
  | 0x73 => some (decodeVArith .fma x)
  | 0x74 => some (decodeVArith .min x)
  | 0x75 => some (decodeVArith .max x)
  | 0x76 => some (decodeVLogic .and x)
  | 0x77 => some (decodeVLogic .or x)
  | 0x78 => some (decodeVLogic .xor x)
  | 0x79 =>
    let u : VUse := { types := x.isInt, cg := true, fnMask := 3 }
    some { insn := .unlisted (.vsh (shiftKindOf (x.fn % 4)) x.vctl x.vA x.vB x.vgC), opnd := 16 ≤ x.a || 16 ≤ x.b || x.vgCBad,
           field := x.sb || x.vgCField || vField x u, value := vValue x u }
  | 0x7A => some (decodeVCmp x)
  | 0x7B =>
    let u : VUse := { types := x.ty ≤ 9, menReq := true, zm := false }
    some { insn := .unlisted (.vsel x.vctl x.vA x.vB x.vC), opnd := 16 ≤ x.a || 16 ≤ x.b || 16 ≤ x.c,
           field := x.sb || x.sc || vField x u, value := vValue x u }
  | 0x7C => some (decodeVCvt x)
  | 0x7D => some (decodeVRed false x)
  | 0x7E => some (decodeVRed true x)
  | 0x7F =>
    let u : VUse := { types := x.ty ≤ 8, cg := true }
    some { insn := .unlisted (.vperm x.vctl x.vA x.vB x.vgC), opnd := 16 ≤ x.a || 16 ≤ x.b || x.vgCBad,
           field := x.sb || x.vgCField || vField x u, value := vValue x u }
  | 0x80 =>
    let u : VUse := { types := x.ty ≤ 8, menReq := true }
    some { insn := .unlisted (.vcomp x.vctl x.vA x.vB (opndOf x.c)), opnd := 16 ≤ x.a || 16 ≤ x.b || dstBad x.slot x.c,
           field := x.sb || x.sc || vField x u, value := vValue x u }
  | 0x81 => some (decodeVApprox .exp2 x)
  | 0x82 => some (decodeVApprox .rcp x)
  | 0x83 => some (decodeVApprox .rsq x)
  | 0x84 => some (decodeVApprox .log2 x)
  | 0x85 =>
    let u : VUse := { types := x.ty ≤ 8 }
    some { insn := .unlisted (.vbcast x.vctl x.vA x.srcB), opnd := 16 ≤ x.a || x.sB, field := x.uC || vField x u,
           value := vValue x u }
  | 0x86 =>
    let u : VUse := { types := x.ty ≤ 8, men := false, zm := false, fnMask := 0xFF }
    some { insn := .unlisted (.vmovg x.vctl (bitOf x.fn 7) x.opA x.vB (Fin.ofNat 128 x.fn)), opnd := x.dA || 16 ≤ x.b,
           field := x.sb || x.uC || vField x u, value := vValue x u || elemCountOf x.ty ≤ x.fn % 128 }
  | 0x87 => some (decodeVMem false x)
  | 0x88 => some (decodeVMem true x)
  | 0x89 => some (decodeGather false x)
  | 0x8A => some (decodeGather true x)
  | 0x8B => some (decodeVTbl x)
  | 0x8C => some (decodeVMxs x)
  | 0x8D => some (decodeVMask x)
  | 0x8E => some (decodeVIota x)
  | 0x8F =>
    let u : VUse := { types := x.isInt || x.isFloat, rm := x.isFloat, fnMask := if x.isInt then 1 else 0 }
    some { insn := .unlisted (.vclip (bitOf x.fn 0) x.vctl x.vA x.vB x.srcC), opnd := 16 ≤ x.a || 16 ≤ x.b || x.sC,
           field := x.sb || vField x u, value := vValue x u }
  | _ => none

/-! ## Engines -/

/-- Opcodes 0x90 to 0x9F: the matrix array (R151 of spec/09). -/
def decodeMatrix (op : Nat) (x : Fields) : Option Draft :=
  let i7 (lo : Nat) : Fin 128 := Fin.ofNat 128 (bitsOf x.imm lo 7)
  match op with
  | 0x90 => some { insn := .listed (.mlease x.gd), field := x.uA || x.uB || x.uImm, role := x.isS7 }
  | 0x91 => some { insn := .listed .mfree, field := x.uA, role := x.isS7 }
  | 0x92 => some { insn := .listed (.mprog x.gd x.srcB (Fin.ofNat 5 (x.imm % 8))), opnd := x.sB, field := x.uA || x.immFrom 3,
                   value := 5 ≤ x.imm % 8, role := x.isS7 }
  | 0x93 => some { insn := .listed (.mwld x.gd (x.f % 4 == 1) (Fin.ofNat 64 x.imm) x.srcB x.srcC (i7 6) (i7 13)), opnd := x.sB || x.sC,
                   field := x.uA || x.immFrom 20 || 4 ≤ x.f, value := 2 ≤ x.f % 4, role := x.isS7 }
  | 0x94 => some { insn := .listed (.mma x.gd (Fin.ofNat 64 x.imm) x.srcB x.srcC (i7 13) (i7 6)), opnd := x.sB || x.sC,
                   field := x.uA || x.immFrom 20 || x.uF, value := 128 ≤ bitsOf x.imm 13 7 + bitsOf x.imm 6 7, role := x.isS7 }
  | 0x95 => some { insn := .listed (.mrd x.gd (x.f % 2 == 1) x.srcB x.srcC (i7 0) (i7 7) (i7 14)), opnd := x.sB || x.sC,
                   field := x.uA || x.immFrom 21 || 2 ≤ x.f, value := 128 ≤ bitsOf x.imm 0 7 + bitsOf x.imm 7 7, role := x.isS7 }
  | 0x96 => some { insn := .listed (.mclr x.gd x.srcB (i7 0) (i7 7)), opnd := x.sB, field := x.uA || x.immFrom 14,
                   value := 128 ≤ bitsOf x.imm 0 7 + bitsOf x.imm 7 7, role := x.isS7 }
  | 0x97 => some { insn := .listed (.mcfg x.gd (bitOf x.imm 0) (bitOf x.imm 1)), field := x.uA || x.uB || x.immFrom 2,
                   role := x.isS7 }
  | 0x98 => some { insn := .listed (.mstat x.gd x.regA), opnd := x.rA, field := x.uB || x.uImm, role := x.isS7 }
  | _ => none

/-- Opcodes 0xA0 to 0xAF: the drover (spec/10). -/
def decodeDrover (op : Nat) (x : Fields) : Option Draft :=
  let ch : Fin 16 := Fin.ofNat 16 x.f
  let ich : Fin 16 := Fin.ofNat 16 x.imm
  let abc := x.dA || x.sB || x.sC
  match op with
  | 0xA0 => some { insn := .unlisted (.dcopy x.gd ch x.opA x.srcB x.srcC x.imm24), opnd := abc, field := 16 ≤ x.f, role := x.notS7 }
  | 0xA1 => some { insn := .unlisted (.dtile x.gd ch x.opA x.srcB x.srcC), opnd := abc, field := 16 ≤ x.f || x.uImm, role := x.notS7 }
  | 0xA2 => some { insn := .listed (.dwin x.gd ch x.opA x.srcB x.srcC (Fin.ofNat 16 x.imm) (Fin.ofNat 16 (bitsOf x.imm 4 4))
                     (BitVec.ofNat 16 (bitsOf x.imm 8 16))), opnd := abc, field := 16 ≤ x.f, role := x.notS7 }
  | 0xA3 => some { insn := .unlisted (.dfill x.gd ch x.opA x.srcB x.srcC x.imm24), opnd := abc, field := 16 ≤ x.f, role := x.notS7 }
  | 0xA4 => some { insn := .unlisted (.dwait x.gd ich x.opA x.srcB), opnd := x.dA || x.sB, field := x.immFrom 4, role := x.notS7 }
  | 0xA5 => some { insn := .unlisted (.dstat x.gd ich (Fin.ofNat 4 (bitsOf x.imm 4 2)) x.opA), opnd := x.dA,
                   field := x.uB || x.immFrom 6, role := x.notS7 }
  | 0xA6 =>
    let res := bitOf x.imm 4
    some { insn := if res then .listed (.dcanResume x.gd ich) else .listed (.dcan x.gd ich x.srcB), opnd := !res && x.sB,
           field := x.uA || x.immFrom 5 || (res && x.uB), role := x.notS7 }
  | 0xA7 => some { insn := .unlisted (.mbsend x.gd (bitOf x.f 2) (Fin.ofNat 4 x.f) x.opA x.srcB), opnd := x.dA || x.sB,
                   field := x.uC || 8 ≤ x.f || x.uImm, role := x.isS7 }
  | 0xA8 => some { insn := .unlisted (.mbrecv x.gd (bitOf x.imm 4) ich x.opA (opndOf x.b)), opnd := x.dA || dstBad x.slot x.b,
                   field := x.sb || x.immFrom 5, value := x.imm % 16 == 0, role := x.notS7 }
  | _ => none

/-- Opcodes 0xB0 to 0xBF: automata (R196 of spec/11). -/
def decodeAutomata (op : Nat) (x : Fields) : Option Draft :=
  let mask := BitVec.ofNat 8 x.imm
  let noMask := x.imm % 256 == 0
  let lane : Fin 8 := Fin.ofNat 8 x.f
  let laneF := 8 ≤ x.f
  match op with
  | 0xB0 => some { insn := .unlisted (.abind x.gd mask x.srcB), opnd := x.sB, field := x.uA || x.uC || x.uF || x.immFrom 8, value := noMask }
  | 0xB1 => some { insn := .unlisted (.areset x.gd mask), field := x.uA || x.uB || x.immFrom 8, value := noMask }
  | 0xB2 => some { insn := .unlisted (.astep x.gd mask x.regA x.srcB), opnd := x.rA || x.sB, field := x.uC || x.uF || x.immFrom 8,
                   value := noMask }
  | 0xB3 => some { insn := .unlisted (.amap x.gd lane x.regA x.srcB x.srcC), opnd := x.rA || x.sB || x.sC, field := laneF || x.uImm }
  | 0xB4 => some { insn := if x.f % 2 == 1 then .unlisted (.acompApply x.gd x.regA x.srcB x.srcC)
                           else .unlisted (.acomp x.gd x.regA x.srcB x.srcC),
                   opnd := x.rA || x.sB || x.sC, field := 2 ≤ x.f || x.uImm }
  | 0xB5 => some { insn := .unlisted (.aallow x.gd lane x.regA x.srcB), opnd := x.rA || x.sB, field := x.uC || laneF || x.uImm }
  | 0xB6 =>
    let f := bitsOf x.imm 4 4
    some { insn := .unlisted (.aget x.gd (Fin.ofNat 8 x.imm) (Fin.ofNat 9 f) (Fin.ofNat 64 (bitsOf x.imm 8 6)) x.regA), opnd := x.rA,
           field := x.uB || bitOf x.imm 3 || x.immFrom 14 || (f != 7 && bitsOf x.imm 8 6 != 0), value := 9 ≤ f }
  | 0xB7 =>
    let f := x.imm % 16
    some { insn := .unlisted (.aset x.gd lane (Fin.ofNat 9 f) x.srcB), opnd := x.sB,
           field := x.uA || x.uC || laneF || x.immFrom 4 || (f == 6 && x.uB), value := 9 ≤ f }
  | 0xB8 => some { insn := .unlisted (.afeed x.gd lane x.regA x.srcB), opnd := x.rA || x.sB, field := x.uC || laneF || x.uImm }
  | 0xB9 => some { insn := .unlisted (.asave x.gd lane x.srcB), opnd := x.sB, field := x.uA || x.uC || laneF || x.uImm }
  | 0xBA => some { insn := .unlisted (.aload x.gd lane x.regA x.srcB), opnd := x.rA || x.sB, field := x.uC || laneF || x.uImm }
  | 0xBB => some { insn := .unlisted (.apage x.gd (Fin.ofNat 4 x.imm) (Fin.ofNat 128 (bitsOf x.imm 2 7)) x.regA x.srcB),
                   opnd := x.rA || x.sB, field := x.immFrom 9 }
  | _ => none

/-- Opcodes 0xC0 to 0xCF: decision diagrams (R214 of spec/12). DESIGN CHOICE (log 69): the reserved kinds of DDVAR (3) and DDREF
(F = 3) use the fields of AT and of GET, and raise 0x049 after the checks of these. -/
def decodeDiagram (op : Nat) (x : Fields) : Option Draft :=
  let v13 := BitVec.ofNat 13 x.imm
  let v12 := BitVec.ofNat 12 x.imm
  let rbc := x.rA || x.sB || x.sC
  match op with
  | 0xC0 =>
    let k := bitsOf x.imm 13 2
    let d : Draft := match k with
      | 0 => { insn := .unlisted (.ddvarGet x.gd v13 x.regA), opnd := x.rA, field := x.uB || x.immFrom 15 }
      | 1 => { insn := .unlisted (.ddvarSet x.gd v13 x.srcB), opnd := x.sB, field := x.uA || x.immFrom 15 }
      | _ => { insn := .unlisted (.ddvarAt x.gd v13 x.regA), opnd := x.rA, field := x.uB || x.immFrom 15 }
    some { d with value := k == 3 }
  | 0xC1 => some { insn := .unlisted (.ddmk x.gd v12 x.regA x.srcB x.srcC), opnd := rbc, field := x.uF || x.immFrom 12 }
  | 0xC2 => some { insn := .unlisted (.ddapp x.gd (BitVec.ofNat 4 x.f) x.regA x.srcB x.srcC), opnd := rbc,
                   field := 16 ≤ x.f || x.uImm }
  | 0xC3 => some { insn := .unlisted (.ddite x.gd x.regA x.srcB x.srcC), opnd := rbc, field := x.uF || x.uImm }
  | 0xC4 => some { insn := .unlisted (.ddres x.gd v12 (bitOf x.imm 12) x.regA x.srcB), opnd := x.rA || x.sB,
                   field := x.uC || x.uF || x.immFrom 13 }
  | 0xC5 => some { insn := .unlisted (.ddex x.gd (x.f % 2 == 1) x.regA x.srcB x.srcC), opnd := rbc, field := 2 ≤ x.f || x.uImm }
  | 0xC6 => some { insn := .unlisted (.ddwc x.gd x.regA x.srcB x.srcC), opnd := rbc, field := x.uF || x.uImm }
  | 0xC7 => some (match x.f with
      | 0 => { insn := .unlisted (.ddrefInc x.srcB), opnd := x.sB, field := x.uA || x.uC }
      | 1 => { insn := .unlisted (.ddrefDec x.srcB), opnd := x.sB, field := x.uA || x.uC }
      | _ => { insn := .unlisted (.ddrefGet x.regA x.srcB), opnd := x.rA || x.sB, field := x.uC, value := x.f == 3 })
  | 0xC8 => some { insn := .unlisted (.ddgc x.gd (bitOf x.imm 0) x.regA), opnd := x.rA, field := x.uB || x.immFrom 1 }
  | 0xC9 => some { insn := .unlisted (.ddsat x.gd x.regA x.srcB x.srcC), opnd := rbc, field := x.uF || x.uImm }
  | 0xCA => some { insn := .unlisted (.ddstat x.gd (Fin.ofNat 6 (x.imm % 16)) x.regA), opnd := x.rA, field := x.uB || x.immFrom 4,
                   value := 6 ≤ x.imm % 16 }
  | 0xCB => some { insn := .unlisted (.ddclr x.gd v13), field := x.uA || x.uB || x.immFrom 13 }
  | 0xCC => some { insn := .unlisted (.ddexp x.gd (BitVec.ofNat 18 x.imm) x.regA x.srcB x.srcC), opnd := rbc,
                   field := x.uF || x.immFrom 18 }
  | _ => none

/-- Opcodes 0xD0 to 0xDF: pens, hurdles, work (R231 of spec/13, R260 of spec/16, R246 of spec/14). DESIGN CHOICE (log 69): the
reserved operation 3 of PCFG raises 0x049 after the checks of its fields, of which A and EXT count as used. -/
def decodePens (op : Nat) (x : Fields) : Option Draft :=
  match op with
  | 0xD0 =>
    let nb := x.f % 2 == 1
    some { insn := .unlisted (.psend x.gd x.regA x.srcB (if nb then some (opndOf x.c) else none)),
           opnd := 32 ≤ x.a || x.sB || (nb && dstBad x.slot x.c), field := 2 ≤ x.f || x.sc || (!nb && x.c != 0) || x.uImm,
           value := 29 ≤ x.a && x.a < 32 }
  | 0xD1 => some { insn := .unlisted (.pdef x.gd (Fin.ofNat 16 x.a) (Fin.ofNat 16 x.f) x.srcB x.imm24), opnd := x.sB,
                   field := x.uC || 16 ≤ x.f, value := 16 ≤ x.a || x.imm % 32 == 0 }
  | 0xD2 => some { insn := .unlisted (.pen x.gd (bitOf x.imm 5) (Fin.ofNat 32 x.imm) x.regA (opndOf x.b)),
                   opnd := 32 ≤ x.a || dstBad x.slot x.b, field := x.sb || x.immFrom 6, value := 29 ≤ x.a && x.a < 32 }
  | 0xD3 =>
    let o := bitsOf x.imm 5 2
    let ext := bitOf x.imm 7
    let p : Fin 32 := Fin.ofNat 32 x.imm
    some { insn := if o == 2 then .unlisted (.pcfgDrain x.gd p x.opA) else .unlisted (.pcfgMode x.gd (o == 1) ext p),
           opnd := o == 2 && x.dA, field := x.uB || x.immFrom 8 || (o == 2 && ext) || (o ≤ 1 && x.uA), value := o == 3 }
  | 0xD4 => some { insn := .unlisted (.ppeek x.gd (Fin.ofNat 6 (bitsOf x.imm 5 3)) (Fin.ofNat 32 x.imm) x.opA), opnd := x.dA,
                   field := x.uB || x.immFrom 8, value := 6 ≤ bitsOf x.imm 5 3 }
  | 0xD5 => some { insn := .listed (.hinit x.gd (scopeOf (x.f % 8)) x.srcB x.srcC x.imm24), opnd := x.sB || x.sC,
                   field := x.uA || 8 ≤ x.f, value := !(1 ≤ x.f % 8 && x.f % 8 ≤ 4) }
  | 0xD6 => some { insn := .listed (.harr x.gd x.regA x.srcB x.imm24), opnd := x.rA || x.sB, field := x.uC || x.uF }
  | 0xD7 => some { insn := .listed (.hwait x.gd x.regA x.srcB x.imm20), opnd := x.rA || x.sB }
  | 0xD8 =>
    let cnt := x.f % 2 == 1
    some { insn := .unlisted (.launch x.gd x.regA x.srcB (if cnt then some x.srcC else none)),
           opnd := x.rA || x.sB || (cnt && x.sC), field := 2 ≤ x.f || (!cnt && x.uC) || x.uImm }
  | 0xD9 => some { insn := .unlisted (.gsel x.gd (Fin.ofNat 1024 x.imm) x.regA x.srcB x.srcC), opnd := x.rA || x.sB || x.sC,
                   field := x.uF || x.immFrom 10 }
  | 0xDA => some { insn := .unlisted (.cancel x.gd x.srcB), opnd := x.sB, field := x.uA || x.uImm }
  | 0xDB => some { insn := .unlisted (.cntrd x.gd (Fin.ofNat 4 x.imm) x.regA x.srcB), opnd := x.rA || x.sB, field := x.immFrom 2 }
  | _ => none

/-- FSHORT and FPICK (R289 of spec/18). -/
def decodeFilter (pick : Bool) (x : Fields) : Draft :=
  let w : Fin 256 := Fin.ofNat 256 x.imm
  let nb := bitOf x.imm 8
  let reset := x.f % 2 == 1
  { insn := if pick then .listed (.fpick x.gd reset nb x.regA w x.srcB x.srcC) else .listed (.fshort x.gd reset nb x.regA w x.srcB x.srcC),
    opnd := x.rA || x.sB || x.sC, field := 2 ≤ x.f || x.immFrom 9 }

/-- Opcodes 0xE0 to 0xEF: replication, sampling, pages (R280 of spec/17, R289 of spec/18, R326 of spec/21). -/
def decodeSystem (op : Nat) (x : Fields) : Option Draft :=
  match op with
  | 0xE0 => some { insn := .listed (.rrel x.gd (scopeOf (x.imm % 8))), field := x.uA || x.uB || x.immFrom 3,
                   value := !(1 ≤ x.imm % 8 && x.imm % 8 ≤ 5) }
  | 0xE1 => some { insn := .listed (.rmark x.gd x.regA (Fin.ofNat 4 x.imm)), opnd := x.rA, field := x.uB || x.immFrom 2 }
  | 0xE2 => some { insn := .listed (.rpert x.gd x.srcB), opnd := x.sB, field := x.uA || x.uImm }
  | 0xE3 => some { insn := .listed .rrewind, field := x.uA }
  | 0xE4 =>
    let w : Fin 256 := Fin.ofNat 256 x.imm
    some { insn := if x.b == 0 then .listed (.fopenClose x.gd w x.sb) else .listed (.fopen x.gd w x.srcB), opnd := x.sB,
           field := x.uA || x.uC || x.uF || x.immFrom 8 }
  | 0xE5 => some (decodeFilter false x)
  | 0xE6 => some (decodeFilter true x)
  | 0xE7 => some { insn := .listed (.rand x.gd (bitOf x.imm 0) x.regA), opnd := x.rA, field := x.uB || x.immFrom 1 }
  | 0xE8 => some { insn := .listed (.kvtrunc x.gd (x.f % 2 == 1) x.regA x.srcB x.srcC), opnd := x.rA || x.sB || x.sC,
                   field := 2 ≤ x.f || x.uImm }
  | 0xE9 => some { insn := .unlisted (.sfork x.gd x.regA x.srcB x.srcC), opnd := x.rA || x.sB || x.sC, field := x.uF || x.uImm }
  | 0xEA =>
    let now := bitOf x.imm 0
    some { insn := if now then .listed (.qwaitNow x.gd x.regA) else .listed (.qwait x.gd x.regA x.srcB),
           opnd := x.rA || (!now && x.sB), field := x.immFrom 1 || (now && x.uB) }
  | 0xEB => some { insn := .listed (.ptsync x.gd (match x.imm % 4 with | 0 => .page | 1 => .asid | _ => .all) x.regA x.srcB),
                   opnd := x.rA || x.sB, field := x.immFrom 2, value := x.imm % 4 == 3 }
  | _ => none

/-- The draft of an opcode, by the row of the map it stands in. -/
def decodeOp (op : Nat) (x : Fields) : Option Draft :=
  match op / 16 with
  | 0 | 1 => decodeControl op x
  | 2 | 3 | 4 => decodeInteger op x
  | 5 => decodeMemory op x
  | 7 | 8 => decodeVector op x
  | 9 => decodeMatrix op x
  | 0xA => decodeDrover op x
  | 0xB => decodeAutomata op x
  | 0xC => decodeDiagram op x
  | 0xD => decodePens op x
  | 0xE => decodeSystem op x
  | _ => none

/-- Decode a head and its tail in a slot at a privilege level: the instruction, or the class 1 code raised. A reserved
opcode or a TS that is not the opcode's decodes to RESERVED_MAJOR_OPCODE, which traps with 0x043 or 0x044 (R61). -/
def decode (slot : Fin 8) (sup : Bool) (head tail : Nat) : Except Nat Insn :=
  match formatOf (head / 64 % 256) with
  | none => .ok (.listed (.reservedMajorOpcode (BitVec.ofNat 16 head)))
  | some fmt =>
    if head / 16384 % 4 != fmt.ts then .ok (.listed (.reservedMajorOpcode (BitVec.ofNat 16 head)))
    else match decodeOp (head / 64 % 256) (fieldsOf slot sup fmt head tail) with
      | some d => d.finish
      | none => .ok (.listed (.reservedMajorOpcode (BitVec.ofNat 16 head)))

/-! ## Lines (R42 to R46 of spec/03) -/

/-- Halfword `n` of a line (R42 of spec/03); a line is its 64 bytes as one little-endian number. -/
def lineHalf (line n : Nat) : Nat := bitsOf line (16 * n) 16

/-- NH of a line's header. -/
def lineNH (line : Nat) : Nat := lineHalf line 0 % 32

/-- The tail size of head `h` (R43 of spec/03). -/
def lineTS (line h : Nat) : Nat := lineHalf line h / 16384

/-- The sum of the tail sizes of heads 1 to `h` (R43 of spec/03). -/
def lineT (line : Nat) : Nat → Nat
  | 0 => 0
  | h + 1 => lineT line h + lineTS line (h + 1)

/-- The entry checks of R44 of spec/03: 0x041, 0x042, or none. -/
def lineCheck (line : Nat) : Option Nat :=
  if lineHalf line 0 / 32 != 0 || lineNH line == 0 then some 0x041
  else if 32 < 1 + lineNH line + lineT line (lineNH line) then some 0x042
  else none

/-- The tail of head `h` (R43 of spec/03): the halfword at the lowest address carries bits [15:0]. -/
def lineTail (line h : Nat) : Nat :=
  bitsOf line (16 * (32 - lineT line h)) (16 * lineTS line h)

/-- The sequential successor of the head at `pc` in a line of `nh` heads (R46 of spec/03). -/
def succPc (pc : Word) (nh : Nat) : Word :=
  if pc.toNat / 2 % 32 < nh then pc + 2 else BitVec.ofNat 64 (pc.toNat / 64 * 64 + 66)

/-- A line of one head with its tail (for placing one instruction): NH is 1, the tail stands at the top. -/
def lineOf (head tail : Nat) : Nat :=
  1 + head * 2 ^ 16 + tail * 2 ^ (16 * (32 - head / 16384 % 4))

/-! ## The table's words -/

/-- The head and tail of a word numbered as spec/opcode_table.json numbers it: 16 bits are a head, 32 bits a head in the
high half and its R tail in the low half. -/
def tableParts (nbits w : Nat) : Nat × Nat :=
  if nbits ≤ 16 then (w % 65536, 0) else (w / 2 ^ (nbits - 16) % 65536, w % 2 ^ (nbits - 16))

/-- The slot a table word is issued from: S7 for the drover's opcodes (R60 of spec/03), else S0. -/
def tableSlot (head : Nat) : Fin 8 :=
  if 0xA0 ≤ head / 64 % 256 && head / 64 % 256 ≤ 0xA8 && head / 64 % 256 != 0xA7 then 7 else 0

/-- The row of spec/opcode_table.json that the decoder reads from a word. The word's line is laid out as the hardware
stores it and its head and tail are taken back from the line. -/
def decodeTableWord (nbits w : Nat) : Option Instr :=
  let line := lineOf (tableParts nbits w).1 (tableParts nbits w).2
  match lineCheck line with
  | some _ => none
  | none =>
    match decode (tableSlot (lineHalf line 1)) false (lineHalf line 1) (lineTail line 1) with
    | .ok (.listed i) => some i
    | _ => none

/-! ## The encoder -/

/-- The six-bit code of a general operand (R55 of spec/03). -/
def Opnd.code : Opnd → Nat
  | .g n => n.val
  | .q n => 32 + n.val
  | .mb n => 40 + n.val

/-- The five-bit code of a guard (R54 of spec/03). -/
def Guard.code (g : Guard) : Nat := (if g.sense then 16 else 0) + g.pred.val

def bitCode (b : Bool) : Nat := if b then 1 else 0

def Scope.code : Scope → Nat
  | .slot => 0 | .core => 1 | .tile => 2 | .die => 3 | .pkg => 4 | .sys => 5

def ShiftKind.code : ShiftKind → Nat
  | .shl => 0 | .shr => 1 | .sar => 2 | .ror => 3

def CmpCond.code : CmpCond → Nat
  | .eq => 0 | .ne => 1 | .lt => 2 | .ge => 3

def CmpuCond.code : CmpuCond → Nat
  | .ltu => 0 | .geu => 1 | .tstz => 2 | .tstnz => 3

def CmpiCond.code : CmpiCond → Nat
  | .signed c => c.code
  | .unsigned c => 4 + c.code

def GatherType.code : GatherType → Nat
  | .int32 => 2 | .int64 => 3 | .fp32 => 6 | .w19 => 7

def SyncKind.code : SyncKind → Nat
  | .page => 0 | .asid => 1 | .all => 2

/-- A head (R50 of spec/03). -/
def headWord (fmt : Fmt) (op a : Nat) : Nat := fmt.ts * 16384 + op * 64 + a

/-- An R tail (R52 of spec/03). -/
def rTail (b c : Nat) (sb sc : Bool) (f : Nat) : Nat := b * 1024 + c * 16 + bitCode sb * 8 + bitCode sc * 4 + f

/-- An I tail (R52 of spec/03). -/
def iTail (b : Nat) (sb : Bool) (gd : Guard) (imm : Nat) : Nat :=
  b * 2 ^ 26 + bitCode sb * 2 ^ 25 + gd.code * 2 ^ 20 + imm

/-- An X tail (R52 of spec/03). -/
def xTail (b c : Nat) (sb sc : Bool) (gd : Guard) (f5 imm : Nat) : Nat :=
  b * 2 ^ 42 + c * 2 ^ 36 + bitCode sb * 2 ^ 35 + bitCode sc * 2 ^ 34 + gd.code * 2 ^ 29 + f5 * 2 ^ 24 + imm

def encR3 (op : Nat) (a : Opnd) (b c : Src) (f : Nat) : Option (Nat × Nat) :=
  some (headWord .r op a.code, rTail b.op.code c.op.code b.sync c.sync f)

def encR1 (op : Nat) (a : Opnd) (b : Src) : Option (Nat × Nat) :=
  some (headWord .r op a.code, rTail b.op.code 0 b.sync false 0)

def encI (op a : Nat) (gd : Guard) (b : Src) (imm : Nat) : Option (Nat × Nat) :=
  some (headWord .i op a, iTail b.op.code b.sync gd imm)

def encI0 (op a : Nat) (gd : Guard) (imm : Nat) : Option (Nat × Nat) :=
  some (headWord .i op a, iTail 0 false gd imm)

def encX (op a : Nat) (gd : Guard) (b c : Src) (f5 imm : Nat) : Option (Nat × Nat) :=
  some (headWord .x op a, xTail b.op.code c.op.code b.sync c.sync gd f5 imm)

def encX1 (op a : Nat) (gd : Guard) (b : Src) (f5 imm : Nat) : Option (Nat × Nat) :=
  some (headWord .x op a, xTail b.op.code 0 b.sync false gd f5 imm)

/-- The X tail of a gather or scatter (R131, R152 of spec/08). -/
def encGather (op : Nat) (gd : Guard) (ty : GatherType) (a : Fin 16) (b : Src) (c : Fin 16) (mask : Option (Fin 4)) (scale : Fin 4) :
    Option (Nat × Nat) :=
  some (headWord .x op a.val, xTail b.op.code c.val b.sync false gd ty.code
    ((match mask with | some k => 2 ^ 23 + k.val * 2 ^ 21 | none => 0) + scale.val))

/-- The head and tail of a row's instruction, from the encoding tables of the spec; an event has none. -/
def encode : Instr → Option (Nat × Nat)
  | .br gd t => encI0 0x01 0 gd t.toNat
  | .call gd a t => encI0 0x02 a.code gd t.toNat
  | .loop gd a t => encI0 0x04 a.code gd t.toNat
  | .trap gd i => encI0 0x06 0 gd i.toNat
  | .tret => some (headWord .h 0x07 0, 0)
  | .crd gd a n => encI0 0x08 a.code gd n.toNat
  | .cwr gd n b => encI 0x09 0 gd b n.toNat
  | .retire => some (headWord .h 0x0A 0, 0)
  | .brk => some (headWord .h 0x0C 0, 0)
  | .add a b c => encR3 0x20 a b c 0
  | .sub a b c => encR3 0x21 a b c 0
  | .mul a b c => encR3 0x22 a b c 0
  | .mulh a b c => encR3 0x23 a b c 0
  | .mulhu a b c => encR3 0x24 a b c 0
  | .div a b c => encR3 0x25 a b c 0
  | .divu a b c => encR3 0x26 a b c 0
  | .rem a b c => encR3 0x27 a b c 0
  | .remu a b c => encR3 0x28 a b c 0
  | .and a b c => encR3 0x29 a b c 0
  | .or a b c => encR3 0x2A a b c 0
  | .xor a b c => encR3 0x2B a b c 0
  | .shl a b c => encR3 0x2C a b c 0
  | .shr a b c => encR3 0x2D a b c 0
  | .sar a b c => encR3 0x2E a b c 0
  | .ror a b c => encR3 0x2F a b c 0
  | .min a b c => encR3 0x30 a b c 0
  | .max a b c => encR3 0x31 a b c 0
  | .minu a b c => encR3 0x32 a b c 0
  | .maxu a b c => encR3 0x33 a b c 0
  | .clz a b => encR1 0x34 a b
  | .popc a b => encR1 0x35 a b
  | .ctz a b => encR1 0x36 a b
  | .addi gd a b i => encI 0x37 a.code gd b i.toNat
  | .andi gd a b i => encI 0x38 a.code gd b i.toNat
  | .ori gd a b i => encI 0x39 a.code gd b i.toNat
  | .xori gd a b i => encI 0x3A a.code gd b i.toNat
  | .shi gd a b k n => encI 0x3B a.code gd b (k.code * 64 + n.val)
  | .cmp p cc b c => some (headWord .r 0x3E p.val, rTail b.op.code c.op.code b.sync c.sync cc.code)
  | .cmpu p cc b c => some (headWord .r 0x3F p.val, rTail b.op.code c.op.code b.sync c.sync cc.code)
  | .cmpi gd p cc b i => encI 0x40 p.val gd b (cc.code * 65536 + i.toNat)
  | .vgath gd ty a b c m s => encGather 0x89 gd ty a b c m s
  | .vscat gd ty a b c m s => encGather 0x8A gd ty a b c m s
  | .mlease gd => encI0 0x90 0 gd 0
  | .mfree => some (headWord .h 0x91 0, 0)
  | .mprog gd b n => encI 0x92 0 gd b n.val
  | .mwld gd s e b c k n => encX 0x93 0 gd b c (bitCode s) (e.val + k.val * 64 + n.val * 8192)
  | .mma gd e b c r m => encX 0x94 0 gd b c 0 (e.val + m.val * 64 + r.val * 8192)
  | .mrd gd clr b c r m n => encX 0x95 0 gd b c (bitCode clr) (r.val + m.val * 128 + n.val * 16384)
  | .mclr gd b r n => encI 0x96 0 gd b (r.val + n.val * 128)
  | .mcfg gd ta os => encI0 0x97 0 gd (bitCode ta + bitCode os * 2)
  | .mstat gd a => encI0 0x98 a.val gd 0
  | .dwin gd ch a b c ty tx p0 => encX 0xA2 a.code gd b c ch.val (ty.val + tx.val * 16 + p0.toNat * 256)
  | .dcan gd ch b => encI 0xA6 0 gd b ch.val
  | .dcanResume gd ch => encI0 0xA6 0 gd (ch.val + 16)
  | .hinit gd sc b c d => encX 0xD5 0 gd b c sc.code d.toNat
  | .harr gd a b d => encX1 0xD6 a.val gd b 0 d.toNat
  | .hwait gd a b d => encI 0xD7 a.val gd b d.toNat
  | .rrel gd sc => encI0 0xE0 0 gd sc.code
  | .rmark gd a f => encI0 0xE1 a.val gd f.val
  | .rpert gd b => encI 0xE2 0 gd b 0
  | .rrewind => some (headWord .h 0xE3 0, 0)
  | .fopen gd w b => encX1 0xE4 0 gd b 0 w.val
  | .fopenClose gd w s => encX1 0xE4 0 gd ⟨.g 0, s⟩ 0 w.val
  | .fshort gd r nb a w b c => encX 0xE5 a.val gd b c (bitCode r) (w.val + bitCode nb * 256)
  | .fpick gd r nb a w b c => encX 0xE6 a.val gd b c (bitCode r) (w.val + bitCode nb * 256)
  | .rand gd f a => encI0 0xE7 a.val gd (bitCode f)
  | .kvtrunc gd cm a b c => encX 0xE8 a.val gd b c (bitCode cm) 0
  | .qwait gd a b => encI 0xEA a.val gd b 0
  | .qwaitNow gd a => encI0 0xEA a.val gd 1
  | .ptsync gd k a b => encI 0xEB a.val gd b k.code
  | .reservedMajorOpcode h => some (h.toNat, 0)
  | .parkedSlotWakes _ | .memoryAnswerArrives _ _ | .takePendingTrap _ | .droverRestart _ | .musterArbitration _ | .penMessageArrives _ | .psendRetry _ | .leaseCycleBound _ | .matrixCommandCompletes _ | .transferDone _ _ | .streamFault _ _ | .sourceError _ _ | .laneCommandCompletes _ | .loftFillArrives _ _ | .ddeOperationCompletes _ _ | .filterOperationCompletes _ _ | .vote _ _ _ | .voteTimeout _ _ _ | .pageWalkCompletes _ _ _ | .groupAgeLimit _ | .reservationExpires _ | .copyNodeDone _ _ _ | .sliceExpires _ | .haltComplete _ | .swapComplete _ | .qwpWrite _ _ | .evrpWrite _ _ | .queueRecordAccept _ | .queueNop _ _ _ | .create _ _ _ | .destroy _ _ _ | .bind _ _ _ | .job _ _ _ | .phase _ _ _ | .graph _ _ _ | .close _ _ _ | .queueCancel _ _ _ | .portstatWrite _ _ | .barRegisterWrite _ _ _ | .hostApertureAccess _ _ _ _ | .hostCompletionTimeout _ | .hotReset | .linkDownTimeout | .portEnable _ | .trainingSucceeds _ _ | .trainingFails _ | .lossOfSignal _ | .flitReceived _ _ | .ackTimeout _ | .pauseExpires _ _ | .remoteRequestTimeout _ | .freezeN | .idcode | .frz _ | .resume | .jtagSel _ | .rdst | .stat | .bypass _ => none

end Sys2Proof
end

