-- ==== Sys2Proof/Config.lean ====
section
/-! DEFINITION. What the spec leaves open as a value or a choice (free values, without a body), and the constants of the
package (R10 and R11 of spec/01). -/

namespace Sys2Proof.Config

/-- A free choice among `n` outcomes that the spec leaves to the device, drawn with the counter State.freeCtr: the tile,
cores and slots of a placement (R249 of spec/15), an overlapping copy's bytes (R168 of spec/10). Nothing constrains it. -/
opaque freeNat : Nat → Nat

/-- A byte the spec gives no value: of a mask that cannot be read when its row completes (R284 of spec/18), by cycle and
address. -/
opaque freeByte : Nat → Nat → Byte

/-- COUNT and TOTAL, which are equal, of a unit whose record the device has dropped (R436 of spec/14), by context and
handle: the spec says only that they are equal. -/
opaque droppedCount : Nat → Nat → BitVec 32

/-- CANCELLED and, for a job, CLOSED in the STATUS of a unit whose record has been dropped, by context and handle (log 46). -/
opaque droppedFlags : Nat → Nat → Bool × Bool

/-- What the KIND field of a flit on virtual lane 3 says (R334 and R335 of spec/22 name no values): 1 an ACK, 2 a NAK, 3 a
pause, anything else training. -/
opaque flitKind : BitVec 8 → Nat

/-- The number a control flit carries, in a place the spec does not give (R335, R336 of spec/22): the SEQ of an ACK or NAK,
or the virtual lane and time of a pause (lane + 4 x units). -/
opaque flitArg : BitVec 2048 → Nat

/-- What a flit of virtual lane 2 answers, if it is the answer to a message (R335 of spec/22 gives it no layout): the sending
slot and the answer, 0 accepted, 1 full in BLOCK mode, 2 full in FAULT mode, 3 closed, else absent. -/
opaque flitAnswer : BitVec 2048 → Option (Nat × Nat)

/-- A request of one package to another's memory (R335 and R339 of spec/22): a read, a write, an atomic of `n` bytes with its
operand, a RUPD, a compare-and-swap. -/
inductive Request where
  | read (pa len : Nat)
  | write (pa : Nat) (bs : List Byte)
  | atomic (op : AmoOp) (pa n v : Nat)
  /-- A RUPD, which gives no value back (R382 of spec/07). -/
  | update (op : AmoOp) (pa n v : Nat)
  | cas (pa n cmp new : Nat)
  deriving DecidableEq, Repr

/-- What comes back on virtual lane 1 (R335 of spec/22): the data of a thread's request, or the acknowledgements of the oldest `n`
writes. -/
inductive Answer where
  | data (tid : Nat) (bs : List Byte)
  | acks (n : Nat)

/-- The request that a flit of virtual lane 0 carries, and the answer that one of lane 1 does (R334 of spec/22 gives neither a
layout). -/
opaque flitRequest : BitVec 2048 → Option Request
opaque flitResult : BitVec 2048 → Option Answer

/-- The ASID that a RUPD of another package acts for (R347 of spec/23; R334 of spec/22 gives no flit a place for it), by package and
address. -/
opaque freeAsid : Nat → Nat → Nat

/-- KIND of a PSEND flit (R334 of spec/22). -/
opaque psendKind : BitVec 8

/-- What RDST reads for a selection of a kind or slot that R351 of spec/23 does not define, and what a host read gets where
memory has an uncorrectable error: by selection or address, and word. -/
opaque freeWord : Word → Nat → Word

/-- Entries T[0x7D] to T[0x7F] of preset 1, which R77 of spec/04 does not give; they show where VTBL.NAN has moved N. -/
opaque presetGap : Nat → BitVec 32

/-- In how many 64-byte sectors a line of HBM is stored compressed; the spec names no method (R99 of spec/05). -/
opaque compressedSectors : List Byte → Nat

/-- Whether a 64-byte sector of HBM that is not dirty is in the L2, which the spec leaves to its retention (R97 of spec/05): by
sector and time. -/
opaque cached : Nat → Nat → Bool

/-- CHAIN of a node's record in HBM (R200 of spec/12, which does not give the hash), by index and time. It affects only time
(R204). -/
opaque freeChain : Nat → Nat → BitVec 32

/-- Dies, tiles, cores and slots of a package (R10 of spec/01). -/
def dies : Nat := 4
def tiles : Nat := 96
def cores : Nat := 768
def slots : Nat := 6144

/-- Bytes of package HBM: 768 GiB (R15 of spec/01). -/
def hbmBytes : Nat := 768 * 2 ^ 30

/-- TCM 128 KiB, paddock 4 MiB, common 64 MiB (R89 of spec/05). -/
def tcmBytes : Nat := 2 ^ 17
def paddockBytes : Nat := 2 ^ 22
def commonBytes : Nat := 2 ^ 26

/-! One flat map names every byte of every memory (MODEL: the spec gives each memory its own offsets, R89 and R91 of
spec/05): package HBM from 0, then the others at bases that do not meet. -/

def tcmBase (core : Nat) : Nat := 2 ^ 60 + core * 2 ^ 17
def paddockBase (tile : Nat) : Nat := 2 ^ 61 + tile * 2 ^ 22
def commonBase (die : Nat) : Nat := 2 ^ 62 + die * 2 ^ 26
def hostBase : Nat := 2 ^ 63
def remoteBase (pkg : Nat) : Nat := 2 ^ 65 + pkg * 2 ^ 52

end Sys2Proof.Config
end

