-- ==== Sys2Proof/Machine/State.lean ====
section
/-! DEFINITION. The state of the package as plain data: every piece of state the spec names, each under the rule that
names it, and the model's own bookkeeping (marked MODEL). Large or numbered state is a sparse table whose default is the
value after reset. -/

namespace Sys2Proof.Machine

open Sys2Proof

/-- Why the machine stops (no trap of the spec). -/
inductive Fault where
  /-- Raised by the test port's RDST when its memory selection names a physical address at or above 768 GiB, where the
  package has no memory (R15 of spec/01, R351 of spec/23). Safe: the spec gives no word there. -/
  | noMemory
  deriving DecidableEq, Repr

/-- Why an instruction has no meaning here. -/
inductive Refusal where
  /-- The dispatcher's: the instruction is not modelled yet. Safe. -/
  | notModelled (mnemonic : String)
  deriving DecidableEq, Repr

/-! ## Slots -/

/-- The slot states of R30 of spec/02. -/
inductive Status where
  | free | running | parked | halted
  deriving DecidableEq, Repr

/-- Where an access goes (R91 of spec/05, R318 of spec/21). -/
inductive Home where
  | tcm | ownPaddock | tilePaddock | common | hbm | host | remote | format
  deriving DecidableEq, Repr

/-- A park condition: what a parked slot waits for (R8 of spec/00, R30 of spec/02). -/
inductive Wait where
  /-- The operand step of R438 of spec/02: every source available, every destination queue with room. -/
  | operands (srcs : List Src) (dsts : List Opnd)
  /-- A mailbox destination until it is empty (R23 of spec/02). -/
  | mailboxEmpty (m : Fin 4)
  /-- MBRECV until a mailbox of the mask is full (R402 of spec/10). -/
  | mailboxFull (mask : Nat)
  /-- A page walk (R321 of spec/21) for the access at `va`. -/
  | walk (die asid vpage : Nat) (va : Word)
  /-- A request that has left the slot (R39 of spec/02): only its answer event ends the park. -/
  | answer (va : Word) (home : Home)
  /-- A system-scope release, until no remote write waits behind a pause (R108 of spec/06, R335 and R339 of spec/22). -/
  | writesLeave
  /-- A page walk whose result, a fault among them, the instruction itself takes (R321 of spec/21). -/
  | walker (die asid vpage : Nat)
  /-- A full/empty bit of the word at a flat address (R381 of spec/07). -/
  | fullEmpty (pa : Nat) (full : Bool)
  /-- MWAIT (R372 of spec/07), with its deadline. -/
  | monitor (deadline : Option Word)
  /-- SPAWN at depth 8 until a slot of the core frees (R36 of spec/02). -/
  | spawnSlot (core : Nat)
  /-- No engine operation of the slot is in flight (R129 of spec/07, R271 of spec/17). -/
  | enginesDone
  /-- MLEASE, or a command of a Waiting or Lapsed slot, until the grant (R142 of spec/09). -/
  | crook
  /-- A matrix command until the holder's queue has room (R144 of spec/09). -/
  | matrixRoom
  /-- A copy command until its channel's queue has room (R155 of spec/10). -/
  | channelRoom (ch : Fin 16)
  /-- DWAIT for a transfer id (R404 of spec/10). -/
  | transfer (ch : Fin 16) (id : Nat)
  /-- Lanes of the core until each is Idle or Unbound (R169 of spec/11). -/
  | lanes (mask : Nat)
  /-- A fifth DDE operation (R214 of spec/12). -/
  | ddeRoom
  /-- PEN until the pen holds a message (R430 of spec/13). -/
  | pen (p : Fin 32)
  /-- A PSEND refused by a full local BLOCK pen (R218 of spec/13). -/
  | penRoom (core : Nat) (p : Nat)
  /-- A PSEND whose attempt has left (R223 of spec/13). -/
  | penAnswer
  /-- A refused PSEND until its retry time (R223 of spec/13). -/
  | penRetry (at_ : Word) (interval : Nat)
  /-- LAUNCH while 4,096 launches are not Complete (R433 of spec/14). -/
  | launchRoom
  /-- HWAIT until the hurdle is written so that its phase is not `phase` (R261 of spec/16). -/
  | hurdle (pa : Nat) (phase : Nat)
  /-- A vote point (R271 of spec/17). -/
  | vote
  /-- Another replica's bellwether performs the operation (R272 of spec/17). -/
  | bellwether
  /-- A replica's read of CLOCK until every live replica has issued it (R272 of spec/17). -/
  | clockRead
  /-- QWAIT until QDONE reaches an epoch (R328 of spec/21). -/
  | quiet (epoch : Word)
  deriving DecidableEq, Repr

/-- A result waiting for its destination, a mailbox until it is empty, and where control then goes (R438 of spec/02); or
what a bellwether's operation gave for a queue destination of its mirror (R272 of spec/17). -/
structure MailOut where
  dst : Opnd
  v : Word
  jump : Option Word
  /-- The instruction has taken effect, or its request has been answered: a cancel waits for its end (R39 of spec/02). -/
  done : Bool := false
  deriving DecidableEq, Repr

/-- Operands taken and kept with the slot (R438 of spec/02): for the handler level and PC that will reissue them. -/
structure Kept where
  level : Nat
  pc : Word
  vals : List Word
  out : Option MailOut
  /-- Its vote has agreed (R274 of spec/17): the reissue is no new vote point. -/
  voted : Bool := false
  deriving DecidableEq, Repr

/-- The attributes of a translation: an installed leaf (R318, R320 of spec/21), tagged with its ASID, page and size. -/
structure Leaf where
  asid : Nat
  vbase : Nat
  bytes : Nat
  pte : Word
  deriving DecidableEq, Repr

/-- How far the parked instruction has come. -/
structure Park where
  insn : Option Insn := none
  vals : Option (List Word) := none
  /-- The sources `vals` were taken from; none when an earlier issue took them (R438 of spec/02). -/
  took : Option (List Src) := none
  wait : Option Wait := none
  /-- R39 of spec/02: its request has left the slot. -/
  left : Bool := false
  /-- The answer has arrived: the instruction performs and completes. -/
  answered : Bool := false
  /-- Translations the request carries, and the epoch they hold (R323 of spec/21). -/
  trans : List Leaf := []
  epoch : Option Word := none
  since : Word := 0
  tries : Nat := 0
  out : Option MailOut := none
  /-- R273 of spec/17: the vote of this vote point has agreed. -/
  voted : Bool := false
  /-- R275 of spec/17: an implicit vote has agreed in this instruction, whose completion leaves a checkpoint too. -/
  due : Bool := false
  /-- R339 of spec/22: the agreed release met a lost remote write (its address): the release takes 0x10C. -/
  lostAt : Option Word := none
  /-- R272 of spec/17: this slot is the bellwether's and its result goes to every live replica. -/
  once : Bool := false
  /-- MODEL: the slot its request has left, where the answer of a halted thread is completed (R39 of spec/02). -/
  origin : Nat := 0
  /-- R339 of spec/22: the Margon ports its request left by. -/
  ports : List Nat := []
  /-- R339 of spec/22: no answer can come: a package was unreachable at issue, or such a port has gone Down. -/
  dead : Bool := false
  /-- R335 of spec/22: the request waits behind a pause of its port. -/
  behind : Bool := false
  /-- What it asks of other packages and has no answer to yet (R335 of spec/22). -/
  asked : List Config.Request := []
  /-- The bytes that its requests found in other packages' memory, by address (R106, R112 of spec/06). -/
  data : List Host.Cell := []
  /-- R106 of spec/06: bytes of other packages that this package has written since the request left. -/
  newer : List (Nat × Nat) := []
  /-- R372 of spec/07: when the MWAIT's timeout expires, if it has one. -/
  deadline : Option (Option Word) := none
  /-- R321 of spec/21: pages whose walks for this instruction have ended in a fault, with its code. -/
  missed : List (Nat × Nat) := []
  deriving DecidableEq, Repr

/-- The six loop words (R120 of spec/07, R41 of spec/02). -/
structure Loop where
  lc0 : Word := 0
  lb0 : Word := 0
  le0 : Word := 0
  lc1 : Word := 0
  lb1 : Word := 0
  le1 : Word := 0
  deriving DecidableEq, Repr

/-- One entry of the inline stack (R36 of spec/02, R75 of spec/04). -/
structure Inline where
  pc : Word
  sr : Word
  rng : Word
  deriving DecidableEq, Repr

/-- The context's trap words (R41 of spec/02, R341 of spec/23). -/
structure CtxTrap where
  tcause : BitVec 10 := 0
  tpc : Word := 0
  taddr : Word := 0
  tvec : Word := 0
  tscratch : Word := 0
  async : Bool := false
  inh : Bool := false
  deriving DecidableEq, Repr

/-- What the supervisor last wrote for a slot, or the context record gave it (R304 of spec/19): a thread that starts there
takes these words, whatever a thread moved here from another slot has brought. -/
structure SlotWords where
  deleg : BitVec 16 := 4
  ptroot : Word := 0
  asid : BitVec 12 := 0
  deriving DecidableEq, Repr

/-- The supervisor's words of a slot (R41 of spec/02, R342 of spec/23). -/
structure SupTrap where
  deleg : BitVec 16 := 4
  ptroot : Word := 0
  asid : BitVec 12 := 0
  svscratch : Word := 0
  scause : BitVec 10 := 0
  spc : Word := 0
  saddr : Word := 0
  async : Bool := false
  nest : Bool := false
  sinh : Bool := false
  deriving DecidableEq, Repr

/-- A monitor (R103 of spec/05, R371 of spec/07): the flat address of its 64-byte granule, and its written bit. -/
structure Monitor where
  granule : Nat
  written : Bool
  deriving DecidableEq, Repr

/-- Who a slot's thread is (R33, R34, R41 of spec/02; R219 and R222 of spec/13; R440 of spec/10). -/
structure Ident where
  lcn : BitVec 32 := 0
  jobseed : Word := 0
  groupId : BitVec 32 := 0
  gshape : BitVec 13 := 0
  launch : BitVec 32 := 0
  cls : Fin 4 := 0
  karg : Word := 0
  logical : Nat := 0
  /-- MODEL: the group record the thread belongs to (none: S6, S7, or no thread). -/
  group : Option Nat := none
  /-- MODEL: spawned remotely, so it runs outside its group's placed slots (R439 of spec/15). -/
  child : Bool := false
  /-- The graph, phase and job of the launch (R31 of spec/02), which stand when the records have been dropped (R233 of
  spec/14); 0: none. A handler in S6 takes those of its muster (R222, R228 of spec/13). -/
  graph : Nat := 0
  phase : Nat := 0
  job : Nat := 0
  deriving DecidableEq, Repr

/-- The lease states of R142 of spec/09. -/
inductive Lease where
  | none | waiting | holding | lapsed
  deriving DecidableEq, Repr

/-- What a write takes from its translation: CMP and whether the page is uncached (R318 of spec/21, R97 and R99 of spec/05). -/
structure Attr where
  cmp : Bool := false
  uncached : Bool := false
  deriving DecidableEq, Repr

/-- A held store of a replica (R270 of spec/17): its flat address and bytes, whether its target is replica-local, the epoch
of its translation, its address as the instruction formed it, and the attributes of that translation. -/
structure Held where
  pa : Nat
  bytes : List Byte
  isLocal : Bool
  epoch : Option Word
  va : Word
  attr : Attr
  /-- R111 of spec/06: it belongs to one granule of a vector store with the one before it. -/
  tied : Bool := false
  deriving DecidableEq, Repr

/-- The register checkpoint of R275 of spec/17. -/
structure Checkpoint where
  g : Table Word
  full : BitVec 32
  p : BitVec 16
  v : Table (BitVec 1024)
  k : Table (BitVec 128)
  loop : Loop
  sr : Word
  rng : Word
  inl : List Inline
  pc : Word
  votes : Nat
  deriving DecidableEq, Repr

/-- Vote kinds (R271 of spec/17). -/
inductive VoteKind where
  | release | releaseOnce | operands | buffer
  deriving DecidableEq, Repr

/-- A vote point a slot waits at: its kind, whether one replica performs the operation (a shared target), and when the
wait began and for how many cycles it has counted (R276 of spec/17). -/
structure VoteAt where
  kind : VoteKind
  once : Bool
  /-- The earmark before the vote point folded its record, taken back if the park is abandoned (R278). -/
  before : Word
  /-- How many held stores it found (R278). -/
  heldBefore : Nat
  waited : Nat
  /-- A releasing store's own bytes, performed after the held ones (R108 of spec/06, R273), and whether its release is at
  system scope. -/
  own : List Held := []
  sys : Bool := false
  deriving DecidableEq, Repr

/-- A slot's replica state (R266 to R282 of spec/17). -/
structure Replica where
  count : Nat := 0
  index : Nat := 0
  earmark : Word := 0
  /-- Oldest first. -/
  held : List Held := []
  /-- Engine writes that the quota of R270 keeps out of `held` until an implicit vote has agreed, oldest first, each as its pieces. -/
  spill : List (List Held) := []
  /-- Votes agreed since thread start. -/
  votes : Nat := 0
  last : Word := 0
  ckpt : Option Checkpoint := none
  vote : Option VoteAt := none
  /-- R276: an absent replica takes 0x2C1 at its next vote point. -/
  mismatch : Bool := false
  /-- R276: what a wait that a trap or a cancel has broken off had counted towards its vote. -/
  waited : Nat := 0
  deriving DecidableEq, Repr

/-- A result of ACOMP on its way (R409 of spec/11): the cycle it arrives, its register and value, and the lane trap it
leaves, with its address (R185 and R182 of spec/11). -/
structure CompResult where
  time : Word
  reg : Nat
  v : Word
  trap : Option (Nat × Word)
  deriving DecidableEq, Repr

/-- A thread slot. -/
structure Slot where
  status : Status := .free
  /-- MODEL: the thread's number, by which an engine result finds its thread (R29 of spec/02). -/
  tid : Nat := 0
  pc : Word := 0
  /-- MODEL: the PC of the instruction that transferred control here, 0 for none (R47 of spec/03). -/
  via : Word := 0
  /-- MODEL: NH of the line control stands in (R46 of spec/03). -/
  nh : Nat := 1
  g : Table Word := []
  full : BitVec 32 := BitVec.allOnes 32
  p : BitVec 16 := 1
  v : Table (BitVec 1024) := []
  k : Table (BitVec 128) := []
  loop : Loop := {}
  feretry : BitVec 8 := 16
  rngCtr : Word := 0
  srCtr : Word := 0
  inl : List Inline := []
  trap : CtxTrap := {}
  sup : SupTrap := {}
  /-- The words that stay with the slot (R304 of spec/19). -/
  base : SlotWords := {}
  /-- Pending deferred and notice traps, oldest first: code and TADDR (R345 of spec/23). -/
  pend : List (Nat × Word) := []
  cpend : Bool := false
  mon : Table Monitor := []
  id : Ident := {}
  rep : Replica := {}
  park : Park := {}
  kept : List Kept := []
  lease : Lease := .none
  /-- R142 of spec/09: commands of the slot were kept at its halt, so it is Waiting again once it has been restored. -/
  relet : Bool := false
  /-- Engine operations in flight: DDE operations (R214 of spec/12), and the others (R129 of spec/07). -/
  dde : Nat := 0
  eng : Nat := 0
  /-- ACOMP results that have not arrived. -/
  comps : List CompResult := []
  /-- R339 of spec/22: a remote write of the slot was lost and its next system-scope release raises 0x10C (the address). -/
  lost : Option Word := none
  /-- R306 and R30: a halt has been requested. -/
  haltReq : Bool := false
  deriving DecidableEq, Repr

/-! ## Engines of a core -/

/-- A pen (R216 of spec/13). A message is four words and its scope is the pair scope of its PSEND (R226). -/
structure Pen where
  msgs : List (List Word) := []
  fault : Bool := false
  ext : Bool := false
  deriving DecidableEq, Repr

/-- A muster (R219 of spec/13). -/
structure Muster where
  mask : BitVec 32 := 0
  prio : Fin 16 := 0
  pc : Word := 0
  jobseed : Word := 0
  lcn : BitVec 32 := 0
  launch : BitVec 32 := 0
  cls : Fin 4 := 0
  karg : Word := 0
  fcnt : BitVec 32 := 0
  /-- The graph, phase and job of the slot that defined it (R222, R228 of spec/13); 0: none. -/
  graph : Nat := 0
  phase : Nat := 0
  job : Nat := 0
  deriving DecidableEq, Repr

/-- A decode table T[0..127] with its NaN code N (R76 of spec/04). -/
structure CodeTable where
  t : List (BitVec 32)
  nan : Nat
  deriving DecidableEq, Repr

/-- A core's matrix configuration (R138 of spec/09). -/
structure MatrixCfg where
  ta : Bool := false
  osat : Bool := false
  plen : Nat := 0
  prog : Word := 0
  deriving DecidableEq, Repr

/-- A descriptor's fields (R174 of spec/11). -/
structure AutoDesc where
  tbase : Nat := 0
  cmap : Nat := 0
  abase : Nat := 0
  hint : Nat := 0
  nstate : Nat := 0
  start : Nat := 0
  ncls : Nat := 0
  nstk : Nat := 0
  slim : Nat := 0
  smode : Bool := false
  kind : Bool := false
  nvoc : Nat := 0
  sync : Nat := 0
  cen : Bool := false
  repl : Nat := 0
  deriving DecidableEq, Repr

/-- How far an AMAP has come (R184 of spec/11): the paths it tracks, the symbols it has read, and each live path. -/
structure MapAt where
  tracked : Nat
  read : Nat
  paths : List (Nat × Nat)
  deriving DecidableEq, Repr

/-- How far an AALLOW has come (R187 to R189 of spec/11): its index entry, the ranges it has read, and the least token that the
next may begin with. -/
structure AllowAt where
  entry : Nat
  ranges : List (Nat × Nat)
  least : Nat
  deriving DecidableEq, Repr

/-- The command a lane runs (R406 to R410 of spec/11). -/
inductive LaneCmd where
  | step (budget done : Nat) (mask : Nat)
  | feed (sym : Word)
  | map (dst hintIx : Word) (at_ : Option MapAt)
  | allow (dst : Word) (at_ : Option AllowAt)
  deriving DecidableEq, Repr

/-- The lane states of R173 of spec/11; a parked lane waits for a loft page. -/
inductive LaneMode where
  | idle | running | parked (page : Nat) | suspended
  deriving DecidableEq, Repr

/-- A command in a lane with its issuer: thread, result register, and core (R28, R29 of spec/02). -/
structure LaneWork where
  cmd : LaneCmd
  tid : Nat
  reg : Nat
  /-- It was issued at supervisor level (R319 of spec/21). -/
  sup : Bool := false
  deriving DecidableEq, Repr

/-- A lane (R170 of spec/11). -/
structure Lane where
  bound : Bool := false
  descAddr : Word := 0
  desc : AutoDesc := {}
  state : Nat := 0
  stack : List Nat := []
  iptr : Word := 0
  iend : Word := 0
  optr : Word := 0
  oend : Word := 0
  consumed : BitVec 32 := 0
  firstrej : BitVec 32 := 0
  skip : Bool := false
  concealed : Bool := false
  fault : Nat := 0
  status : Nat := 0
  mode : LaneMode := .idle
  work : Option LaneWork := none
  deriving DecidableEq, Repr

/-- An ASTEP whose lanes have not all stopped (R407 of spec/11): named lanes still running, and the statuses so far. -/
structure Batch where
  tid : Nat
  reg : Nat
  mask : Nat
  left : Nat
  result : Nat
  /-- Lane traps of the lanes that have stopped, which arrive with the result (R182). -/
  traps : List (Nat × Word) := []
  deriving DecidableEq, Repr

/-- A core. -/
structure Core where
  mb : Table Word := []
  /-- Which mailboxes are full: bit m (R23 of spec/02). -/
  mbFull : BitVec 4 := 0
  q : Table (List Word) := []
  pens : Table Pen := []
  musters : Table Muster := []
  rr : Nat := 0
  code : Option CodeTable := none
  acc : Table (BitVec 32) := []
  mcfg : MatrixCfg := {}
  lanes : Table Lane := []
  batches : List Batch := []
  /-- S7 restarts at this cycle (R154 of spec/10). -/
  restart : Option Word := none
  deriving DecidableEq, Repr

/-! ## Engines of a tile -/

/-- A bank's format (R94 of spec/05). -/
structure Format where
  ty : Nat := 5
  table : Nat := 0
  rnd : Nat := 0
  scix : Nat := 0
  deriving DecidableEq, Repr

/-- A paddock operand as a command reads it: the address as given, its offset in the paddock, its bank's format, and the C8
table it uses. -/
structure MatOpnd where
  va : Word
  base : Nat
  stride : Nat
  fmt : Format
  tab : Option CodeTable
  deriving DecidableEq, Repr

/-- A matrix command as it was accepted (R151 of spec/09). -/
inductive MatCmd where
  | prog (len : Nat) (word : Word)
  | cfg (ta osat : Bool)
  | clr (fill : BitVec 32) (row0 rows : Nat)
  | wld (s24 : Bool) (e : Nat) (b : MatOpnd) (k n : Nat)
  /-- With the configuration that stands at its acceptance (R144): TA and the microprogram. -/
  | mma (e : Nat) (a : MatOpnd) (row0 m : Nat) (cfg : MatrixCfg)
  | rd (clr : Bool) (d : MatOpnd) (row0 m n : Nat) (sr : Word)
  deriving DecidableEq, Repr

/-- A queued matrix command: issuing thread and core, the instruction kept for its checks, when it may start, how long it
runs. -/
structure MatWork where
  cmd : MatCmd
  tid : Nat
  core : Nat
  logical : Nat
  lcn : BitVec 32
  seed : Word
  ready : Word
  deriving DecidableEq, Repr

/-- A weight-buffer entry (R138, R140, R141 of spec/09): the tag and the element codes, k-major in a column; of the S24 form, only
elements that are not zero. -/
structure Weight where
  ty : Nat
  tab : Option CodeTable
  s24 : Bool
  k : Nat
  n : Nat
  data : Table Nat
  /-- Element scales of MXFP4 blocks, by element position. -/
  scale : Table Nat
  /-- The core whose command wrote it: it follows that core's core position (R138). -/
  core : Nat
  deriving DecidableEq, Repr

/-- An MSTAT that waits (R151 of spec/09): its thread and register, how many of the commands queued at its issue have not ended, and,
once all have, when it delivers. -/
structure StatWait where
  tid : Nat
  reg : Nat
  left : Nat
  due : Option Word
  /-- The kind of a deferred error met while it was pending: its status says so although the error itself may have been reported
  since (R146). -/
  err : Option Nat := none
  deriving DecidableEq, Repr

/-- The crook of a tile (R142 to R146 of spec/09). -/
structure Crook where
  /-- The holder's slot number; `draining` while it has let go and its queue has not drained. -/
  holder : Option Nat := none
  draining : Bool := false
  holderTid : Nat := 0
  last : Nat := 7
  cmdsLeft : Nat := 0
  grantAt : Word := 0
  queue : List MatWork := []
  /-- The running command is the head of the queue; it began at this cycle. -/
  started : Word := 0
  /-- MSTATs waiting (R151). -/
  mstat : List StatWait := []
  /-- Commands kept at a halt, with their thread (R142, R145). -/
  kept : List MatWork := []
  /-- Deferred error of a thread (R146): thread, EKIND, address. -/
  err : List (Nat × Nat × Word) := []
  deriving DecidableEq, Repr

/-- The element plan of a transfer: where its elements come from and go (R403, R161, R164 of spec/10). -/
inductive CopyKind where
  | raw | convert | expand | fill (pattern : Word)
  deriving DecidableEq, Repr

/-- One end of a transfer: address of row 0, stride, and format; `paddock` when a bank's format governs. -/
structure CopyEnd where
  base : Nat
  stride : Nat
  fmt : Format
  scales : Nat
  tab : Option CodeTable
  deriving DecidableEq, Repr

/-- The image geometry of a DWIN (R162, R164 of spec/10). -/
structure WinGeom where
  ch : Nat
  px : Nat
  py : Nat
  sx : Nat
  sy : Nat
  ow : Nat
  oh : Nat
  iw : Nat
  ih : Nat
  ty : Nat
  tx : Nat
  p0 : Nat
  deriving DecidableEq, Repr

/-- A transfer in a channel's queue (R155 to R157 of spec/10). -/
structure Transfer where
  id : Nat
  core : Nat
  asid : Nat
  kind : CopyKind
  src : CopyEnd
  dst : CopyEnd
  rows : Nat
  cols : Nat
  win : Option WinGeom
  /-- How far it advances the channel's SR counter (R161). -/
  draws : Word
  /-- Its source record requests expansion, so that every source page needs DQ (R101 of spec/05). -/
  dq : Bool
  /-- Destination bytes already written in delivery order. -/
  done : Nat
  /-- The tile and the channel that hold it. -/
  tile : Nat := 0
  ch : Nat := 0
  /-- It was issued at supervisor level (R319 of spec/21). -/
  sup : Bool := false
  /-- Its command has made a release at system scope (R113 of spec/06). -/
  sys : Bool := false
  deriving DecidableEq, Repr

/-- The channel states of R158 of spec/10; Idle is Busy with an empty queue. -/
inductive ChanMode where
  | busy | parked | failed
  deriving DecidableEq, Repr

/-- A copy channel (R155 to R170 of spec/10). -/
structure Channel where
  next : BitVec 48 := 1
  cdone : BitVec 48 := 1
  wptr : Word := 0
  queue : List Transfer := []
  mode : ChanMode := .busy
  failId : Nat := 0
  failCause : Nat := 0
  faddr : Word := 0
  paddr : Word := 0
  /-- Last cancelled range. -/
  can : Option (Nat × Nat) := none
  sr : Word := 0
  deriving DecidableEq, Repr

/-- A loft page (R190 of spec/11): its tag (page address, core for own-TCM pages), its contents as filled, and the
translation it was filled through. -/
structure LoftPage where
  tag : Nat
  pinned : Bool
  data : List Host.Cell
  leaf : Option Leaf := none
  deriving DecidableEq, Repr

/-- A tile. -/
structure Tile where
  /-- The ASID of the context that owns it (R300 of spec/19). -/
  owner : Option Nat := none
  /-- The context that last occupied it (R303). -/
  lastOwner : Option Nat := none
  crook : Crook := {}
  weights : Table Weight := []
  formats : Table Format := []
  chans : Table Channel := []
  loft : List LoftPage := []
  /-- The group record that holds the tile's reservation (R254 of spec/15). -/
  reserved : Option Nat := none
  /-- The general slots that have been free since the tile was reserved, which R252 of spec/15 does not hold. -/
  unheld : List Nat := []
  deriving DecidableEq, Repr

/-! ## Decision diagrams -/

/-- A node (R200 of spec/12); an absent index is free. Its record stands in HBM too, with CHAIN (State.putNodes). -/
structure Node where
  var : Nat
  low : Nat
  high : Nat
  ref : Nat
  deriving DecidableEq, Repr

/-- What an interrupted recursion still has to do (R206, R210 of spec/12), innermost first. -/
inductive DdFrame where
  /-- Make the node again: MK found no free index. -/
  | mk (v lo hi : Nat)
  /-- The low branch of App is being computed; then the high branch. -/
  | appLow (t f1 g1 v : Nat)
  | appHigh (lo v : Nat)
  | iteLow (f1 g1 h1 v : Nat)
  | resLow (v : Nat) (val : Bool) (f1 top : Nat)
  | exLow (f1 c top : Nat) (quant : Bool)
  | exHigh (lo : Nat) (top : Nat) (quant : Bool)
  /-- Complement the result (an odd MK, DDEX.ALL). -/
  | flip
  deriving DecidableEq, Repr

/-- A DDE operation with its operands (R415 to R427 of spec/12). -/
inductive DdOp where
  | varGet (v : Nat) | varSet (v : Nat) (lvl : Word) | varAt (l : Nat)
  | mk (v : Nat) (lo hi : Word)
  | app (t : Nat) (f g : Word)
  | ite (f g h : Word)
  | res (v : Nat) (val : Bool) (f : Word)
  | ex (all : Bool) (f c : Word)
  | wc (f table : Word)
  | refInc (e : Word) | refDec (e : Word) | refGet (e : Word)
  | gc (abort : Bool)
  | sat (f dst : Word)
  | clr (n : Nat)
  | exp (f dst : Word) (nvoc : Nat)
  deriving DecidableEq, Repr

/-- A queued operation and its issuer: thread, slot's core (for its windows), result register; `now` when it reached the DDE in
Suspended and is one that runs at once there (R207). -/
structure DdWork where
  op : DdOp
  tid : Nat
  core : Nat
  reg : Option Nat
  now : Bool
  /-- It was issued at supervisor level (R319 of spec/21). -/
  sup : Bool := false
  deriving DecidableEq, Repr

/-- The states of a configured space (R207 of spec/12): Idle is Busy with an empty queue. -/
inductive DdMode where
  | busy | suspended | halted
  deriving DecidableEq, Repr

/-- A diagram space (R198 of spec/12). -/
structure Space where
  cap : Nat
  nvar : Nat
  /-- Variable to level: a permutation, the identity where a variable has no entry. -/
  order : Table Nat
  nodes : Table Node
  queue : List DdWork
  susp : Option (DdWork × List DdFrame)
  mode : DdMode
  wasSuspended : Bool
  fault : Nat
  tbase : Nat
  savea : Nat
  deriving DecidableEq, Repr

/-! ## Work (spec/14, spec/15) -/

/-- Unit states (R239 of spec/14). -/
inductive UState where
  | pending | active | cancelling | complete
  deriving DecidableEq, Repr

/-- Node kinds (R236 of spec/14). -/
inductive NodeKind where
  | launch | copy | hostEvent | conditional
  deriving DecidableEq, Repr

/-- Node states: waiting for edges, started, completed normally, completed by cancel, pruned (R237 of spec/14). -/
inductive NodeState where
  | waiting | running | done | cancelled | pruned
  deriving DecidableEq, Repr

/-- What the start of a copy node has read of its copy record (R310 of spec/20): the record, or the fault it met. -/
inductive CopyRec where
  | read (v : Nat)
  | bad (code : Nat) (addr : Word)
  deriving DecidableEq, Repr

/-- A graph node: its record (R236 of spec/14), what its incoming edges resolved to, its recorded branch (R238). -/
structure GNode where
  kind : NodeKind
  body : Word
  succ : List Nat
  dflt : Nat
  launch : Nat
  /-- Incoming edges unresolved, and satisfied. -/
  open_ : Nat
  sat : Nat
  branch : Option Nat
  state : NodeState
  copy : Option CopyRec := none
  deriving DecidableEq, Repr

/-- A launch's kernel and descriptor (R234, R235 of spec/14). -/
structure Kernel where
  entry : Word := 0
  cpg : Nat := 0
  spc : Nat := 0
  repl : Nat := 0
  cls : Fin 4 := 0
  karg : Word := 0
  groups : Nat := 0
  deriving DecidableEq, Repr

/-- A launch, graph, phase or job (R233, R239, R240 of spec/14). -/
structure WorkUnit where
  level : Nat
  parent : Nat
  /-- Creation order in the context, for the 65,536-record limit of R233. -/
  born : Nat
  state : UState := .pending
  cancelled : Bool := false
  closed : Bool := false
  count : Nat := 0
  total : Nat := 0
  pruned : Nat := 0
  kernel : Kernel := {}
  /-- A launch's node in its graph. -/
  node : Nat := 0
  nodes : List GNode := []
  /-- Children in order: a job's phases, a phase's graphs. -/
  kids : List Nat := []
  jobseed : Word := 0
  /-- The journal record that follows the unit: its ring's base and its sequence number (R312 of spec/20). -/
  journal : Option (Nat × Nat) := none
  deriving DecidableEq, Repr

/-- Group states (R257 of spec/15). -/
inductive GState where
  | queued | placed | complete | discarded
  deriving DecidableEq, Repr

/-- A group (or one replica of it), or a child waiting alone for its core (R439 of spec/15). -/
structure Group where
  asid : Nat
  launch : Nat
  index : Nat
  replica : Nat := 0
  die : Nat
  cls : Fin 4
  entry : Word
  state : GState := .queued
  /-- The tile it has been placed on last (R249). -/
  placedOn : Option Nat := none
  /-- R254: the reserved tile and when it was reserved; R255: its expiry has been handled. -/
  reserve : Option (Nat × Word) := none
  stalled : Bool := false
  /-- Threads of the group that have not retired, spawned children included. -/
  threads : Nat := 0
  /-- Saved thread images: core position (or core, for a child), and slot. -/
  saved : List (Nat × Slot) := []
  /-- R255: its threads have been asked to halt and will be saved. -/
  preempt : Bool := false
  /-- A cancel came after the pre-emption (R439): once its threads have halted the group is discarded. -/
  doomed : Bool := false
  /-- What follows a core position to another core (R138 of spec/09): position, accumulators, matrix configuration, and the
  weight-buffer entries the core wrote. -/
  savedAcc : List (Nat × Table (BitVec 32) × MatrixCfg × Table Weight) := []
  /-- Saved children, each with the core it was spawned on (R439). -/
  kids : List (Nat × Slot) := []
  /-- A lone child waits for this core (R439); its own group is `parent`. -/
  loneCore : Option Nat := none
  parent : Option Nat := none
  deriving DecidableEq, Repr

/-- A replica set (R281 of spec/17): the group records of its replicas, which are live, the bellwether. -/
structure RepSet where
  asid : Nat
  launch : Nat
  index : Nat
  count : Nat
  members : List Nat
  live : List Bool
  bell : Nat
  /-- Every replica has been placed: the set has left Forming (R281). -/
  formed : Bool := false
  deriving DecidableEq, Repr

/-! ## Contexts (spec/19) -/

/-- Context states (R307 of spec/19). -/
inductive CState where
  | idle | swappingIn | resident | halting | swappingOut | tearingDown
  deriving DecidableEq, Repr

/-- A context record's fields (R297 of spec/19). -/
structure CtxRec where
  save : Nat := 0
  ddsp : Nat := 0
  drover : Word := 0
  ptroot : Word := 0
  tiles : BitVec 96 := 0
  l2ways : BitVec 16 := 0
  placeAge : Nat := 0
  deleg : BitVec 16 := 0
  slice : Nat := 0
  classMin : Fin 4 := 0
  dqg : Bool := false
  rtest : Bool := false
  deriving DecidableEq, Repr

/-- A tile's saved image (R305 of spec/19). -/
structure Image where
  slots : Table Slot
  cores : Table Core
  tile : Tile
  mem : List Host.Cell
  feEmpty : List Nat
  deriving DecidableEq, Repr

/-- A live context. -/
structure Ctx where
  state : CState := .idle
  record : CtxRec := {}
  /-- Marked for teardown (R307), or for a halt after the swap-in. -/
  doomed : Bool := false
  haltAfter : Bool := false
  /-- The supervisor has halted it (R300): a spatial context stays Idle until the supervisor has it assigned again. -/
  stopped : Bool := false
  /-- Has been assigned before (R304). -/
  assigned : Bool := false
  images : Table Image := []
  /-- Cycles of its slice already used, and when it became resident (R300, R301). -/
  sliceUsed : Nat := 0
  sliceFrom : Word := 0
  units : Table WorkUnit := []
  /-- Next launch, graph, phase and job numbers, and the next birth number (R233 of spec/14). -/
  nextNum : List Nat := [1, 1, 1, 1]
  nextBorn : Nat := 0
  /-- Handles of dropped records are those given and absent (R233). -/
  jhead : Word := 0
  spaces : Table (Option Space) := []
  deriving DecidableEq, Repr

/-! ## Host side (spec/18, spec/20, spec/22) -/

/-- Queue states (R315 of spec/20). -/
inductive QState where
  | unbound | active | waiting | error
  deriving DecidableEq, Repr

/-- A GRAPH that its queue has accepted and that waits for a page walk: its number and command, and the context and journal it was
accepted for (R311 of spec/20). -/
structure Carry where
  seq : Nat
  cmd : BitVec 512
  asid : Nat
  base : Nat
  deriving DecidableEq, Repr

/-- A host queue (R308, R315). -/
structure HQueue where
  state : QState := .unbound
  cause : Nat := 0
  qrp : BitVec 32 := 0
  qwp : BitVec 32 := 0
  evwp : BitVec 32 := 0
  evrp : BitVec 32 := 0
  evlost : BitVec 32 := 0
  asid : Nat := 0
  qbase : Nat := 0
  qsize : Nat := 0
  evbase : Nat := 0
  evsize : Nat := 0
  /-- MODEL: the queue carries out a GRAPH that waits for a page walk (R311 of spec/20, R321 of spec/21). -/
  carry : Option Carry := none
  deriving DecidableEq, Repr

/-- Row states of a filter window (R284 of spec/18). -/
inductive RowMode where
  | empty | filling | complete | spoiled
  deriving DecidableEq, Repr

/-- A row: elements written (as a list of tokens), and once Complete the candidates of R285 of spec/18. -/
structure Row where
  mode : RowMode := .empty
  written : List Nat := []
  cands : List (Nat × BitVec 32) := []
  nnan : Nat := 0
  nninf : Nat := 0
  deriving DecidableEq, Repr

/-- A pending FSHORT or FPICK (R292 of spec/18); `stream` when C names a stream record (R289), and `full` the result register's
full bit before the issue cleared it. -/
structure FilterOp where
  pick : Bool
  stream : Bool
  full : Bool
  reset : Bool
  nb : Bool
  row : Nat
  addr : Word
  tid : Nat
  core : Nat
  reg : Nat
  /-- MODEL: its number among the operations of its window, by which a page walk that it waits for finds it (R321 of spec/21). -/
  num : Nat := 0
  /-- The context of its thread, and the replicas besides that await a pick's result (R295 of spec/18). -/
  asid : Nat := 0
  others : List Nat := []
  /-- It was issued at supervisor level (R319 of spec/21). -/
  sup : Bool := false
  deriving DecidableEq, Repr

/-- An open filter window (R282 of spec/18): its record and the flat address of each 64 KiB page of its region. -/
structure Window where
  owner : Nat
  mstride : Nat
  topp : BitVec 32
  temp : BitVec 32
  mask : Word
  rstride : Nat
  rows : Nat
  k : Nat
  bf16 : Bool
  vocab : Nat
  laddr : Nat
  core : Nat
  region : List Nat
  row : Table Row
  deriving DecidableEq, Repr

/-- A filter window's number with its pending operations in arrival order; they outlive a close (R289). -/
structure WinSlot where
  win : Option Window := none
  ops : List (FilterOp × Bool) := []
  /-- MODEL: the number of its next operation. -/
  nextOp : Nat := 0
  deriving DecidableEq, Repr

/-- Margon port states (R338 of spec/22). -/
inductive PState where
  | down | training | up | retrain
  deriving DecidableEq, Repr

/-- What a port sends: a flit of lane 2, or a request, an answer or a control flit whose layout the spec does not give (log 27): a
request to a package, an ACK or NAK of a SEQ, a pause of a lane in units of 256 cycles, the answer to a message, the answer to a
request with the bytes it reads (R335, R336 of spec/22). -/
inductive Sent where
  | data (f : BitVec 2048)
  | request (pkg : Nat) (r : Config.Request)
  | ack (seq : BitVec 32)
  | nak (seq : BitVec 32)
  | pause (vl units : Nat)
  | reply (pkg : Nat) (adr : Word) (code : Nat)
  | result (pkg : Nat) (bs : List Byte)
  deriving DecidableEq, Repr

/-- What starts as a flit of a port and waits while its lane is paused (R335 of spec/22): a remote write or RUPD, by its address as
formed and its request with a flat address, the epoch of its translation (R323 of spec/21), and whether it is one with the write
before it (R111 of spec/06); another request of a thread; the answer to a request of another package; a thread's message; the answer
to a message. -/
inductive Outgoing where
  | write (tids : List Nat) (va : Word) (r : Config.Request) (epoch : Option Word) (tied : Bool)
  | request (tid : Nat) (r : Config.Request)
  | result (pkg : Nat) (bs : List Byte)
  | message (tid : Nat) (pkg : Nat) (adr : Word) (words : List Word)
  | reply (pkg : Nat) (adr : Word) (code : Nat)
  deriving DecidableEq, Repr

/-- A remote write that has not been acknowledged (R339 of spec/22): its thread, or the replicas of an agreed one, its address
as formed and flat, what it wrote over and what it wrote. -/
structure RemoteWrite where
  tids : List Nat
  va : Word
  pa : Nat
  old : List Byte
  new : List Byte
  /-- The epoch it holds until it has certainly been performed (R323 of spec/21). -/
  epoch : Option Word := none
  /-- It has been performed: an access in order after it has been answered, or a release covers it (R106, R108 of spec/06). -/
  done : Bool := false
  /-- R111 of spec/06: it belongs to one granule of a vector store with the one before it, and both are performed or neither is. -/
  tied : Bool := false
  /-- When it left (R339). -/
  left : Word := 0
  deriving DecidableEq, Repr

/-- A Margon port (R335 to R338 of spec/22). -/
structure Port where
  state : PState := .down
  peer : BitVec 6 := 0
  replays : BitVec 16 := 0
  /-- Next SEQ to send and next SEQ to accept. -/
  txSeq : BitVec 32 := 0
  rxSeq : BitVec 32 := 0
  /-- The last 256 flits sent that are not acknowledged, oldest first, each with its SEQ. -/
  sent : List (BitVec 32 × Sent) := []
  /-- When the wait for an ACK began (R338). -/
  ackAt : Word := 0
  /-- NAKs in a row of one flit, and its SEQ. -/
  naks : Nat := 0
  nakSeq : BitVec 32 := 0
  /-- When each paused virtual lane may send again. -/
  pause : Table Word := []
  /-- What pauses hold back, oldest first. -/
  waiting : List Outgoing := []
  /-- The receive buffer of each virtual lane, oldest first. -/
  buf : Table (List (BitVec 2048)) := []
  /-- All that has gone out on the wire, newest first (MODEL: what the far end can see). -/
  out : List (BitVec 32 × Sent) := []
  /-- Remote writes of this package on their way (R339). -/
  writes : List RemoteWrite := []
  deriving DecidableEq, Repr

/-- How the host's last access to a BAR ended (R328 of spec/22, R350 of spec/23). -/
inductive BarEnd where
  | ok | unsupported | abort
  deriving DecidableEq, Repr

/-- Host-side registers (R328 to R330, R339 of spec/22). -/
structure HostRegs where
  hostatom : BitVec 2 := 0
  apbase : BitVec 10 := 0
  route : Table (BitVec 12) := []
  msixTable : Table (BitVec 32) := []
  msixPend : Table Bool := []
  /-- MSI-X messages sent, newest first: the vectors (R330). -/
  msixSent : List Nat := []
  /-- The data of the last host read through a BAR, and how the last access that has a completion ended. -/
  answer : BitVec 4096 := 0
  barEnd : BarEnd := .ok
  deriving DecidableEq, Repr

/-- A freeze (R349 of spec/23). -/
inductive Freeze where
  | off | on (resumable : Bool) (source : BitVec 2)
  deriving DecidableEq, Repr

/-- The test port (R351 of spec/23): instruction, selection, words of it already read, the captured data register. -/
structure TestPort where
  ir : BitVec 8 := 1
  sel : Word := 0
  index : Nat := 0
  dr : Word := 0
  deriving DecidableEq, Repr

/-- What the environment does that spec/opcode_table.json gives no row (log 62). -/
inductive EnvEv where
  /-- The supervisor requests a halt of a context (R305, R307 of spec/19). -/
  | haltContext (asid : Nat)
  /-- The supervisor has a halted context assigned again (R300, R306, R307 of spec/19). -/
  | restoreContext (asid : Nat)
  /-- The supervisor binds queue 0 at bring-up: both rings, their sizes as powers of 2, and queue 0's journal (R308, R311 of
  spec/20). -/
  | bindQueue0 (qbase qlog evbase evlog journal : Nat)
  /-- The supervisor assigns the package number at bring-up (R17 of spec/01). -/
  | assignPackage (pkg : BitVec 6)
  /-- The device's read of a queue's ring fails at the host (R315 of spec/20, R332 of spec/22). -/
  | ringReadFails (queue : Nat)
  /-- The host reads BAR0 (R328 of spec/22). -/
  | barRead (offset size : Nat)
  /-- The host sends an AtomicOp to a BAR (R327 of spec/22). -/
  | barAtomic
  /-- The host stores to its own memory (R333 of spec/22). -/
  | hostStore (addr size : Nat) (v : Word)
  /-- From now on the host answers the reads of one byte of its memory with an error or not at all, or of none (R332 of
  spec/22). -/
  | hostFails (addr : Option Nat)
  /-- The environment does nothing in the next step: the machine goes on by itself. -/
  | ownStep
  /-- A copy stream's access to host or remote memory fails (R332, R339 of spec/22). -/
  | copyLinkError (tile ch : Nat)
  /-- The oldest remote writes that left by a port are acknowledged (R335, R339 of spec/22). -/
  | writesAcked (port n : Nat)
  /-- The L2 writes a dirty line of HBM back (R99 of spec/05). -/
  | writeBack (line : Nat)
  deriving DecidableEq, Repr

/-- One entry of the environment's schedule: an event of the table, or one without a row. -/
inductive Input where
  | event (i : Instr)
  | other (e : EnvEv)
  deriving DecidableEq, Repr

/-- A dirty line of the L2: its dirty 64-byte sectors (R97 of spec/05) and its compress-allowed bit (R99). -/
structure L2Line where
  sectors : BitVec 8 := 0
  allowed : Bool := false
  deriving DecidableEq, Repr

/-- What works for a thread: its own slot, a lane, the diagram engine, operation `n` of a filter window. -/
inductive EngPart where
  | slot
  | lane (l : Nat)
  | diagram
  | window (w n : Nat)
  deriving DecidableEq, Repr

/-- An engine that works for a thread, at the level at which its instruction was issued (R319 of spec/21). -/
structure Eng where
  tid : Nat
  part : EngPart := .slot
  sup : Bool := false
  deriving DecidableEq, Repr

/-- A unit whose access misses, and which takes the result of its walk (R321 of spec/21): an engine that works for a thread, a transfer
of a copy channel (and its level), the host-interface unit of a die for one node or queue of a context, the base die for a row of a
window, the loft of a tile for one page. -/
inductive Asker where
  | engine (e : Eng)
  | copy (tile ch id : Nat) (sup : Bool)
  | unit (die asid handle node : Nat)
  | window (w row : Nat)
  | loft (tile tag : Nat)
  deriving DecidableEq, Repr

/-- The level of its accesses. -/
def Asker.sup : Asker → Bool
  | .engine e => e.sup
  | .copy _ _ _ sup => sup
  | .unit _ _ _ _ | .window _ _ | .loft _ _ => false

/-- A page walk in progress or waiting for a walker (R321 of spec/21), with the engines whose misses it serves. -/
structure Walk where
  die : Nat
  asid : Nat
  vpage : Nat
  root : Word
  askers : List Asker := []
  deriving DecidableEq, Repr

/-- A walk has ended in a fault, which an engine that it served has still to take (R321 of spec/21). -/
structure WalkFault where
  who : Asker
  asid : Nat
  vpage : Nat
  code : Nat
  deriving DecidableEq, Repr

/-- A journal record, by base and number, whose unit is Complete and whose final state `st` is still to be written (R312 of spec/20). -/
structure DueRecord where
  base : Nat
  seq : Nat
  st : Nat
  asid : Nat
  unit : Nat
  deriving DecidableEq, Repr

/-! ## The package -/

/-- The package. -/
structure State where
  clock : Word
  /-- MODEL: the core whose turn of the current cycle comes next. -/
  turn : Nat
  /-- MODEL: the slot that issues the instruction being executed. -/
  agent : Nat
  /-- MODEL: the events the environment will deliver, oldest first. -/
  inputs : List Input
  /-- MODEL: free choices drawn so far (Config.freeNat). -/
  freeCtr : Nat
  /-- MODEL: the next thread number. -/
  nextTid : Nat
  freeze : Freeze
  pkg : BitVec 6
  svec : Word
  qepoch : Word
  mem : List Host.Cell
  feEmpty : List Nat
  badData : List Nat
  /-- Lines of HBM whose metadata state is 9 to 15 (R98 of spec/05). -/
  badMeta : List Nat
  /-- The metadata state of the other lines of HBM: 0 all zero, 1 to 7 compressed, 8 uncompressed (R98). DESIGN CHOICE
(log 67): the spec does not say where the metadata region of a stack lies or how a line's state stands in it, so the states
are kept here and not among the bytes of HBM. -/
  lines : Table Nat
  /-- Lines of HBM that are dirty in the L2 (R97, R99). -/
  dirty : Table L2Line
  tlb : List Leaf
  walks : List Walk
  /-- R321 of spec/21: faults of walks that engines have still to take. -/
  faulted : List WalkFault
  slots : Table Slot
  cores : Table Core
  tiles : Table Tile
  ctxs : Table (Option Ctx)
  groups : Table (Option Group)
  nextGroup : Nat
  sets : List RepSet
  queues : Table HQueue
  q0journal : Nat
  q0jhead : Word
  /-- MODEL: journal records whose final state waits for their unit's writes (R312 of spec/20). -/
  journalDue : List DueRecord
  windows : Table WinSlot
  ports : Table Port
  host : HostRegs
  tap : TestPort
  /-- MODEL: the host byte whose reads fail at present (R332 of spec/22, log 62). -/
  hostFail : Option Nat
  deriving DecidableEq, Repr

/-- The package right after reset (R41 of spec/02, R94 of spec/05, R102 of spec/05, R154 to R156 of spec/10, R308 of
spec/20, R323 of spec/21, R337 of spec/22): every table is empty, so every slot is Free with its reset registers, every
word is full, every queue Unbound, every port Down; QEPOCH is 1. The values the spec does not give are those of the
assumption log (entries 5 to 11). -/
def State.reset : State where
  clock := 0
  turn := 0
  agent := 0
  inputs := []
  freeCtr := 0
  nextTid := 1
  freeze := .off
  pkg := 0
  svec := 0
  qepoch := 1
  mem := []
  feEmpty := []
  badData := []
  badMeta := []
  lines := []
  dirty := []
  tlb := []
  walks := []
  faulted := []
  slots := []
  cores := []
  tiles := []
  ctxs := []
  groups := []
  nextGroup := 0
  sets := []
  queues := []
  q0journal := 0
  q0jhead := 0
  journalDue := []
  windows := []
  ports := []
  host := {}
  tap := {}
  hostFail := none

end Sys2Proof.Machine
end

