-- ==== Sys2Proof/Machine/Table.lean ====
section
/-! DEFINITION. The operations on sparse tables, on byte memory in its canonical form, and on little-endian words. -/

namespace Sys2Proof

/-- The value at key `k`, `d` where there is none. -/
def Table.val {α : Type} (d : α) (k : Nat) : Table α → α
  | [] => d
  | (k', v) :: t => if k' = k then v else Table.val d k t

/-- Set key `k` to `v`, keeping the keys rising. -/
def Table.put {α : Type} (k : Nat) (v : α) : Table α → Table α
  | [] => [(k, v)]
  | (k', v') :: t =>
    if k < k' then (k, v) :: (k', v') :: t
    else if k' = k then (k, v) :: t
    else (k', v') :: Table.put k v t

/-- Remove key `k`. -/
def Table.del {α : Type} (k : Nat) (t : Table α) : Table α := t.filter fun e => e.1 != k

end Sys2Proof

namespace Sys2Proof.Machine

open Sys2Proof

/-! ## Memory: a byte that nothing has written reads 0 (log 6). -/

/-- One byte of memory at a flat address. -/
def memByte (m : List Host.Cell) (a : Nat) : Byte := Table.val (α := Byte) 0 a m

/-- Write one byte: writing 0 removes the entry, so equal memories are equal lists. -/
def memSet (m : List Host.Cell) (a : Nat) (b : Byte) : List Host.Cell :=
  if b = 0 then Table.del (α := Byte) a m else Table.put (α := Byte) a b m

/-- The canonical form: addresses strictly rising, no entry 0. -/
abbrev Memory.wf (m : List Host.Cell) : Prop :=
  m.Pairwise (fun a b => a.1 < b.1) ∧ ∀ c ∈ m, c.2 ≠ 0

/-- Bytes from `a` up, lowest address first. -/
def memRead (m : List Host.Cell) (a : Nat) : Nat → List Byte
  | 0 => []
  | n + 1 => memByte m a :: memRead m (a + 1) n

/-- Write bytes from `a` up. -/
def memWrite (m : List Host.Cell) (a : Nat) : List Byte → List Host.Cell
  | [] => m
  | b :: bs => memWrite (memSet m a b) (a + 1) bs

/-- Little-endian (R2 of spec/00): the number a list of bytes holds. -/
def leNat : List Byte → Nat
  | [] => 0
  | b :: bs => b.toNat + 256 * leNat bs

/-- The low `len` bytes of a number, little-endian. -/
def leBytes (v : Nat) : Nat → List Byte
  | 0 => []
  | n + 1 => BitVec.ofNat 8 v :: leBytes (v / 256) n

/-- CRC-64/ECMA-182 (R268 of spec/17): one bit step. -/
def crcBit (c : Word) : Word := if c.msb then (c <<< 1) ^^^ 0x42F0E1EBA9EA3693#64 else c <<< 1

def crcBits (c : Word) : Nat → Word
  | 0 => c
  | n + 1 => crcBits (crcBit c) n

def crcByte (c : Word) (b : Byte) : Word := crcBits (c ^^^ (b.setWidth 64 <<< 56)) 8

/-- The CRC continued over bytes in order. -/
def crcFold (c : Word) (bs : List Byte) : Word := bs.foldl crcByte c

/-- Insert a number in a strictly rising list; remove one. -/
def setInsert (n : Nat) : List Nat → List Nat
  | [] => [n]
  | m :: t => if n < m then n :: m :: t else if n = m then m :: t else m :: setInsert n t

def setRemove (n : Nat) (t : List Nat) : List Nat := t.filter (· != n)

/-- Bits [lo+len-1 : lo] of a number. -/
def bitsAt (w lo len : Nat) : Nat := w / 2 ^ lo % 2 ^ len

/-- Sign-extend the low `n` bits of a field to a word (R118 of spec/07). -/
def sextWord {n : Nat} (v : BitVec n) : Word := v.signExtend 64

end Sys2Proof.Machine
end

