-- ==== Sys2Proof/Machine/Ops.lean ====
section
/-! DEFINITION. The shared operations: numbering, registers, completion and the loop step, trap entry and return, windows
and translation, memory with its observers, the operand step, parking, and engine results. -/

namespace Sys2Proof.Machine

open Sys2Proof

/-- What a meaning answers. -/
abbrev Out := Host.Outcome State Fault Refusal

/-! ## Numbering (R4 of spec/00, R11 of spec/01) -/

def slotCore (n : Nat) : Nat := n / 8
def slotIx (n : Nat) : Nat := n % 8
def coreTile (c : Nat) : Nat := c / 8
def tileDie (t : Nat) : Nat := t / 24
def slotTile (n : Nat) : Nat := n / 64
def slotDie (n : Nat) : Nat := n / 64 / 24

def State.slot (s : State) (n : Nat) : Slot := Table.val {} n s.slots
def State.setSlot (s : State) (n : Nat) (x : Slot) : State := { s with slots := Table.put n x s.slots }
def State.onSlot (s : State) (n : Nat) (f : Slot → Slot) : State := s.setSlot n (f (s.slot n))
/-- The issuing slot. -/
def State.me (s : State) : Slot := s.slot s.agent
def State.onMe (s : State) (f : Slot → Slot) : State := s.onSlot s.agent f

def State.core (s : State) (c : Nat) : Core := Table.val {} c s.cores
def State.onCore (s : State) (c : Nat) (f : Core → Core) : State := { s with cores := Table.put c (f (s.core c)) s.cores }
def State.myCoreNum (s : State) : Nat := slotCore s.agent
def State.myCore (s : State) : Core := s.core s.myCoreNum
def State.onMyCore (s : State) (f : Core → Core) : State := s.onCore s.myCoreNum f

def State.tile (s : State) (t : Nat) : Tile := Table.val {} t s.tiles
def State.onTile (s : State) (t : Nat) (f : Tile → Tile) : State := { s with tiles := Table.put t (f (s.tile t)) s.tiles }
def State.myTileNum (s : State) : Nat := slotTile s.agent

def State.ctx (s : State) (a : Nat) : Option Ctx := Table.val none a s.ctxs
def State.setCtx (s : State) (a : Nat) (c : Option Ctx) : State := { s with ctxs := Table.put a c s.ctxs }
def State.onCtx (s : State) (a : Nat) (f : Ctx → Ctx) : State :=
  match s.ctx a with
  | none => s
  | some c => s.setCtx a (some (f c))

def State.group (s : State) (g : Nat) : Option Group := Table.val none g s.groups
def State.onGroup (s : State) (g : Nat) (f : Group → Group) : State :=
  match s.group g with
  | none => s
  | some x => { s with groups := Table.put g (some (f x)) s.groups }

/-- The context a slot runs for: the owner of its tile (R22 of spec/02), else its ASID word. -/
def State.asidOf (s : State) (n : Nat) : Nat :=
  match (s.tile (slotTile n)).owner with
  | some a => a
  | none => (s.slot n).sup.asid.toNat

/-- A choice among `n` that the spec leaves to the device: free, and drawn only where there is more than one. -/
def State.pick (s : State) (n : Nat) : Nat × State :=
  if n ≤ 1 then (0, s) else (Config.freeNat s.freeCtr % n, { s with freeCtr := s.freeCtr + 1 })

/-! ## Registers (R27 of spec/02, R54 of spec/03) -/

/-- g0 reads zero. -/
def Slot.reg (x : Slot) (n : Nat) : Word := if n = 0 then 0 else Table.val 0 n x.g

/-- Writing a general register sets its full bit; a write to g0 is discarded. -/
def Slot.setReg (x : Slot) (n : Nat) (v : Word) : Slot :=
  if n = 0 then x else { x with g := Table.put n v x.g, full := x.full ||| (1#32 <<< n) }

/-- The full bit of g`n`; g0's always reads 1. -/
def Slot.isFull (x : Slot) (n : Nat) : Bool := n == 0 || x.full.getLsbD n

/-- A synchronised read, or an engine issue (R28 of spec/02), clears the full bit; g0's stays 1. -/
def Slot.clearFull (x : Slot) (n : Nat) : Slot :=
  if n = 0 then x else { x with full := x.full &&& ~~~(1#32 <<< n) }

/-- P[0] always reads 1. -/
def Slot.pred (x : Slot) (n : Nat) : Bool := n == 0 || x.p.getLsbD n

/-- A write to P[0] is discarded. -/
def Slot.setPred (x : Slot) (n : Nat) (b : Bool) : Slot :=
  if n = 0 then x
  else { x with p := if b then x.p ||| (1#16 <<< n) else x.p &&& ~~~(1#16 <<< n) }

/-- A guard holds when P[n] is its sense (R54 of spec/03). -/
def Slot.guardOk (x : Slot) (g : Guard) : Bool := x.pred g.pred.val == g.sense

def Slot.vreg (x : Slot) (n : Nat) : BitVec 1024 := Table.val 0 n x.v
def Slot.setV (x : Slot) (n : Nat) (v : BitVec 1024) : Slot := { x with v := Table.put n v x.v }
def Slot.kreg (x : Slot) (n : Nat) : BitVec 128 := Table.val 0 n x.k
def Slot.setK (x : Slot) (n : Nat) (v : BitVec 128) : Slot := { x with k := Table.put n v x.k }

/-- A slot is in a trap handler while INH or SINH is 1 (R340 of spec/23). -/
def Slot.inHandler (x : Slot) : Bool := x.trap.inh || x.sup.sinh

/-- The handler level of kept operands: 0 the thread, 1 its handler, 2 the supervisor's. -/
def Slot.level (x : Slot) : Nat := if x.sup.sinh then 2 else if x.trap.inh then 1 else 0

/-! ## Threads wherever they are (R29 of spec/02) -/

def onTidIn (tid : Nat) (f : Slot → Slot) (t : Table Slot) : Table Slot :=
  t.map fun e => (e.1, if e.2.tid = tid && e.2.status != .free then f e.2 else e.2)

/-- Apply `f` to the thread's slot, live or in a saved image. -/
def State.onTid (s : State) (tid : Nat) (f : Slot → Slot) : State :=
  { s with
    slots := onTidIn tid f s.slots
    groups := s.groups.map fun e => (e.1, e.2.map fun g => { g with saved := onTidIn tid f g.saved, kids := onTidIn tid f g.kids })
    ctxs := s.ctxs.map fun e => (e.1, e.2.map fun c =>
      { c with images := c.images.map fun i => (i.1, { i.2 with slots := onTidIn tid f i.2.slots }) }) }

/-- Every slot of the package with its number, live or saved in a context's image. -/
def State.allSlots (s : State) : List (Nat × Slot) :=
  s.slots ++ (s.groups.flatMap fun e => match e.2 with | none => [] | some g => g.saved ++ g.kids)
    ++ (s.ctxs.flatMap fun e => match e.2 with | none => [] | some c => c.images.flatMap fun i => i.2.slots)

def State.findTid (s : State) (tid : Nat) : Option Slot :=
  (s.allSlots.find? fun e => e.2.tid = tid && e.2.status != .free).map (·.2)

/-- The physical slot a live thread stands in. -/
def State.slotOfTid (s : State) (tid : Nat) : Option Nat :=
  (s.slots.find? fun e => e.2.tid = tid && e.2.status != .free).map (·.1)

/-- The threads that await an operation of a filter window. -/
def FilterOp.receivers (op : FilterOp) : List Nat := op.tid :: op.others

/-- A deferred or notice trap becomes pending in the thread (R345 of spec/23). -/
def State.pendTid (s : State) (tid code : Nat) (taddr : Word) : State :=
  s.onTid tid fun x => { x with pend := x.pend ++ [(code, taddr)] }

/-- An engine result arrives (R28 of spec/02): the register and its full bit, one operation fewer in flight. -/
def State.deliver (s : State) (tid reg : Nat) (v : Word) : State :=
  s.onTid tid fun x => { x.setReg reg v with eng := x.eng - 1 }

/-! ## Margon ports: what goes out, and a port that goes Down (R334 to R336 and R339 of spec/22) -/

def State.port (s : State) (p : Nat) : Port := Table.val {} p s.ports
def State.onPort (s : State) (p : Nat) (f : Port → Port) : State := { s with ports := Table.put p (f (s.port p)) s.ports }

/-- A field of a flit. -/
def flitField (f : BitVec 2048) (lo len : Nat) : Nat := bitsAt f.toNat lo len

/-- The CRC over bytes 0 to 247. -/
def flitCrc (f : Nat) : Nat := (crcFold 0 (leBytes f 248)).toNat

def flitCrcOk (f : BitVec 2048) : Bool := flitField f 1984 64 == flitCrc f.toNat

/-- A flit from its fields. -/
def mkFlit (kind : BitVec 8) (vl dst src len seq adr payload : Nat) : BitVec 2048 :=
  let w := kind.toNat + vl * 2 ^ 10 + dst * 2 ^ 12 + src * 2 ^ 18 + len * 2 ^ 24 + seq * 2 ^ 32 + adr * 2 ^ 64
    + payload * 2 ^ 128
  BitVec.ofNat 2048 (w + flitCrc w * 2 ^ 1984)

/-- Put a flit on the wire: the port numbers it and keeps its last 256; with nothing unacknowledged the wait for an ACK
begins. -/
def Port.emit (x : Port) (now : Word) (b : Sent) : Port :=
  { x with txSeq := x.txSeq + 1, sent := (x.sent ++ [(x.txSeq, b)]).drop (x.sent.length + 1 - 256)
           out := (x.txSeq, b) :: x.out, ackAt := if x.sent.isEmpty then now else x.ackAt }

/-- The flit of a message (R335: one flit). -/
def messageFlit (src pkg : Nat) (adr : Word) (m : List Word) (seq : BitVec 32) : BitVec 2048 :=
  mkFlit Config.psendKind 2 pkg src 32 seq.toNat adr.toNat (leNat (m.flatMap fun v => leBytes v.toNat 8))

/-- The virtual lane of what goes out (R335). -/
def Outgoing.lane : Outgoing → Nat
  | .write _ _ _ _ _ | .request _ _ => 0
  | .result _ _ => 1
  | .message _ _ _ _ | .reply _ _ _ => 2

/-- A lane starts no new flit (R335): it is paused, or earlier ones still wait. -/
def Port.blocked (x : Port) (now : Word) (vl : Nat) : Bool :=
  now < Table.val now vl x.pause || x.waiting.any (·.lane == vl)

/-- Apply `f` to every slot, live or saved. -/
def State.onAllSlots (s : State) (f : Slot → Slot) : State :=
  let go := fun (t : Table Slot) => t.map fun e => (e.1, f e.2)
  { s with
    slots := go s.slots
    groups := s.groups.map fun e => (e.1, e.2.map fun g => { g with saved := go g.saved, kids := go g.kids })
    ctxs := s.ctxs.map fun e => (e.1, e.2.map fun c =>
      { c with images := c.images.map fun i => (i.1, { i.2 with slots := go i.2.slots }) }) }

/-- A slot whose request left by a port: no answer can come. -/
def Slot.cutOff (p : Nat) (x : Slot) : Slot :=
  if x.park.ports.contains p && !x.park.answered then { x with park := { x.park with dead := true } } else x

/-- The next system-scope release of some threads has lost a remote write (R339). -/
def State.loseWrite (s : State) (tids : List Nat) (va : Word) : State :=
  tids.foldl (fun s t => s.onTid t fun x => { x with lost := some va }) s

/-- Take back a remote write that did not arrive, unless its bytes have been written again. -/
def State.unsent (s : State) (w : RemoteWrite) : State :=
  if memRead s.mem w.pa w.new.length = w.new then { s with mem := memWrite s.mem w.pa w.old } else s

/-- How many of a port's remote writes have certainly been performed: the lane keeps their order (R336). -/
def settledCount (ws : List RemoteWrite) : Nat := ws.length - (ws.reverse.takeWhile fun w => !w.done).length

/-- The first `n` remote writes of a port, with what is one with the last of them (R111 of spec/06). -/
def wholeWrites (ws : List RemoteWrite) (n : Nat) : Nat := n + ((ws.drop n).takeWhile (·.tied)).length

/-! ## Completion and the loop step -/

/-- Succ(PC) of R46 of spec/03. -/
def Slot.succ (x : Slot) : Word := succPc x.pc x.nh

/-- R121 of spec/07: the loop words and the next PC after an instruction completes at PC without a transfer. -/
def Slot.loopNext (x : Slot) : Loop × Word :=
  let l := x.loop
  if x.inHandler then (l, x.succ)
  else if l.lc0 != 0 && x.pc == l.le0 then
    let l' := { l with lc0 := l.lc0 - 1 }
    if l'.lc0 != 0 then (l', l.lb0)
    else if l.lc1 != 0 && x.pc == l.le1 then
      let l'' := { l' with lc1 := l.lc1 - 1 }
      (l'', if l''.lc1 != 0 then l.lb1 else x.succ)
    else (l', x.succ)
  else if l.lc1 != 0 && x.pc == l.le1 then
    let l' := { l with lc1 := l.lc1 - 1 }
    (l', if l'.lc1 != 0 then l.lb1 else x.succ)
  else (l, x.succ)

/-- The register checkpoint of R275 of spec/17. -/
def Slot.checkpoint (x : Slot) : Checkpoint :=
  { g := x.g, full := x.full, p := x.p, v := x.v, k := x.k, loop := x.loop, sr := x.srCtr, rng := x.rngCtr,
    inl := x.inl, pc := x.pc, votes := x.rep.votes }

/-- The end of an instruction: nothing is parked any more, a halt that waited for it takes place (R39 of spec/02), and a vote
that agreed in it leaves its checkpoint (R275 of spec/17). -/
def Slot.ended (x : Slot) : Slot :=
  let stop := x.haltReq || x.status == .halted
  let y := { x with park := {}, haltReq := false, status := if stop then .halted else .running }
  if x.park.voted || x.park.due then { y with rep := { y.rep with ckpt := some y.checkpoint } } else y

/-- Complete without a transfer (R121 of spec/07). -/
def Slot.complete (x : Slot) : Slot :=
  ({ x with loop := x.loopNext.1, pc := x.loopNext.2, via := x.pc } : Slot).ended

/-- Complete with a transfer of control to `t` (R47 of spec/03). -/
def Slot.jump (x : Slot) (t : Word) : Slot := ({ x with pc := t, via := x.pc } : Slot).ended

/-! ## Traps (R340 to R346 of spec/23) -/

/-- The operands among the words a slot keeps: of a LAUNCH not those of a descriptor, which its reissue reads again from its
start (R30 of spec/02, R243 of spec/14). -/
def Park.operands (p : Park) (vs : List Word) : List Word :=
  match p.insn with
  | some (.unlisted (.launch _ _ _ cnt)) => vs.take (1 + cnt.toList.length)
  | _ => vs

/-- Operands once taken stand and are kept for the reissue (R438 of spec/02); with `voted` the vote of the instruction stands
too. -/
def Slot.keep (x : Slot) (voted : Bool) : Slot :=
  match x.park.vals with
  | none => x
  | some vs => { x with
      kept := ⟨x.level, x.pc, x.park.operands vs, x.park.out, voted⟩ :: x.kept.filter (·.level != x.level) }

/-- The full bits with those that this issue's synchronised reads cleared set again: the instruction has had no effect. -/
def Slot.fullBack (x : Slot) : BitVec 32 :=
  (x.park.took.getD []).foldl (fun f a => match a.op with
    | .g n => if a.sync then f ||| (1#32 <<< n.val) else f
    | .q _ | .mb _ => f) x.full

/-- The checkpoint of a vote at the instruction itself, which has had no effect (R272, R275 of spec/17). -/
def Slot.here (x : Slot) : Checkpoint := { x.checkpoint with full := x.fullBack }

/-- A trap in a replica whose vote has agreed leaves the vote's checkpoint at the instruction itself (R272 of spec/17). -/
def Slot.checkpointHere (x : Slot) : Slot :=
  if x.park.voted then { x with rep := { x.rep with ckpt := some x.here } } else x

/-- Leave a vote that has not agreed (R278 of spec/17); the count of its wait goes on when it is cast again (R276). -/
def Replica.unvote (r : Replica) : Replica :=
  match r.vote with
  | none => r
  | some v => { r with vote := none, waited := v.waited, earmark := v.before, held := r.held.take v.heldBefore }

/-- Abandon the parked instruction (R30 of spec/02): it has performed nothing and reissues from its start. -/
def Slot.abandon (x : Slot) : Slot :=
  let y := x.keep x.park.voted
  { y with park := {}, rep := y.rep.unvote, status := if y.status = .parked then .running else y.status }

/-- The access that a parked instruction waited for has been performed: it holds no translation and no epoch any longer (R323 of
spec/21), and the next one is a request of its own. -/
def Slot.unasked (x : Slot) : Slot :=
  { x with park := { x.park with
      left := false, answered := false, data := [], trans := [], epoch := none, ports := [], dead := false, behind := false } }

/-- The slot is parked on the descriptor reads of a LAUNCH, which a halt abandons although they have left (R243 of spec/14). -/
def Slot.launching (x : Slot) : Bool :=
  match x.park.insn with
  | some (.unlisted (.launch _ _ _ _)) => true
  | _ => false

/-- A LAUNCH whose vote has agreed gives up its descriptor reads at a halt: it reads both again on restore, without a new vote (R243 of
spec/14, R273 of spec/17). -/
def Slot.unread (x : Slot) : Slot :=
  let y := x.unasked
  { y with park := { y.park with wait := none, tries := 0, vals := y.park.vals.map y.park.operands } }

/-- Does a park outlive a halt: its request has left (R39 of spec/02; a vector load's too, log 85), or it is at a vote point, whose
vote may complete in the saved image, or past it (R274, R278 of spec/17)? -/
def Slot.outlives (x : Slot) : Bool :=
  (x.park.left && x.park.insn.isSome && !x.launching) || x.park.voted || x.rep.vote.isSome

/-- A halt request reaches a slot (R30, R38, R39 of spec/02): a running one halts at its boundary; a park is abandoned, or
stays with the halted slot where it outlives the halt (a fetch does not); a request to memory of the package is answered first. A
vector load whose request has left is such a request (DEDUCED, log 85: R39 and the last sentence of R30 against R136 and R152 of
spec/08). -/
def Slot.halt (x : Slot) : Slot :=
  let away := match x.park.wait with
    | some (.answer _ .host) | some (.answer _ .remote) => true
    | _ => !x.park.left
  match x.status with
  | .running => { (if x.outlives then x else x.abandon) with status := .halted }
  | .parked =>
    if x.launching && x.park.left && x.park.voted then { x.unread with status := .halted }
    else if !x.outlives then { x.abandon with status := .halted }
    else if away then { x with status := .halted }
    else { x with haltReq := true }
  | _ => x

/-- The slot parks. A request that has been answered is outstanding no longer, and a halt that waited for its answer takes
place now. -/
def Slot.parkOn (x : Slot) (w : Wait) : Slot :=
  let sent := match w with
    | .answer _ _ => true
    | _ => false
  let y := { x with
    status := .parked
    park := { x.park with wait := some w, left := x.park.left && (sent || !x.park.answered) } }
  if x.haltReq then ({ y with haltReq := false } : Slot).halt else y

/-- Enter of R343 of spec/23; none: SINH was 1, and the package freezes. -/
def Slot.enter (svec : Word) (code : Nat) (tpc taddr : Word) (async : Bool) (x : Slot) : Option Slot :=
  if x.sup.sinh then none
  else
    let c := code / 64 % 16
    let stop := x.haltReq || x.status == Status.halted
    let y := { x.keep (async && x.park.voted) with
      park := {}, via := 0, haltReq := false, rep := x.rep.unvote
      status := if stop then Status.halted else Status.running }
    if c == 2 || y.sup.deleg.getLsbD c || y.trap.tvec == 0 || y.trap.inh then
      some { y with
        sup := { y.sup with scause := BitVec.ofNat 10 code, spc := tpc, saddr := taddr, async := async,
                            nest := y.trap.inh, sinh := true }
        pc := svec }
    else
      some { y with
        trap := { y.trap with tcause := BitVec.ofNat 10 code, tpc := tpc, taddr := taddr, async := async, inh := true }
        pc := y.trap.tvec }

/-! ## Replica sets: who mirrors the agent (R272 of spec/17) -/

def State.setOf (s : State) (x : Slot) : Option RepSet :=
  match x.id.group with
  | none => none
  | some g => s.sets.find? fun r => r.members.contains g

/-- Is the group record of slot `x` a live replica of `r`? -/
def RepSet.liveMember (r : RepSet) (x : Slot) : Bool :=
  match x.id.group with
  | none => false
  | some g => (r.members.zip r.live).any fun e => e.1 == g && e.2

/-- The same thread in the live replicas of the set, `x` itself among them: group index, core position and logical slot
agree (R266). -/
def State.twins (s : State) (x : Slot) : List Slot :=
  match s.setOf x with
  | none => [x]
  | some r => (s.allSlots.map (·.2)).filter fun y =>
      r.liveMember y && y.status != .free && y.id.gshape == x.id.gshape && y.id.logical == x.id.logical

def RepSet.liveCount (r : RepSet) : Nat := (r.live.filter id).length

/-- How many live replicas the set of a thread has. -/
def State.liveReplicas (s : State) (x : Slot) : Nat :=
  match s.setOf x with
  | none => 1
  | some r => r.liveCount

/-- x's replica is the set's bellwether (R266, R277). -/
def State.isBell (s : State) (x : Slot) : Bool :=
  match s.setOf x with
  | none => true
  | some r => x.rep.index == r.bell

/-- The threads that receive what an operation of `x` gives: the live twins that wait for the bellwether. -/
def State.mirrorsOf (s : State) (x : Slot) : List Nat :=
  if x.park.once then ((s.twins x).filter fun y => y.tid != x.tid && y.park.wait == some .bellwether).map (·.tid) else []

def State.mirrors (s : State) : List Nat := s.mirrorsOf s.me

/-- Apply `f` to the agent and to its mirrors. -/
def State.onUs (s : State) (f : Slot → Slot) : State :=
  s.mirrors.foldl (fun t tid => t.onTid tid f) (s.onMe f)

/-! ## Windows (R91, R92 of spec/05) -/

/-- What an address names before translation: bytes at a flat address, a virtual address, or a trap. -/
inductive Place where
  | ok (pa : Nat) (home : Home)
  | virt
  | bad (code : Nat)
  deriving DecidableEq, Repr

/-- The window check for `size` bytes at `va` issued by a core for context `asid`. -/
def State.place (s : State) (core asid : Nat) (va : Word) (size : Nat) : Place :=
  let hi := va.toNat / 2 ^ 40
  let off := va.toNat % 2 ^ 40
  if hi = 0xFFFFFF then
    if off + size ≤ Config.tcmBytes then .ok (Config.tcmBase core + off) .tcm else .bad 0x102
  else if hi = 0xFFFFFE then
    if off + size ≤ Config.paddockBytes then .ok (Config.paddockBase (coreTile core) + off) .ownPaddock
    else if 0x1000000 ≤ off && off + size ≤ 0x1000080 then .ok (off - 0x1000000) .format
    else .bad 0x102
  else if hi = 0xFFFFFD then
    if off + size ≤ Config.commonBytes then .ok (Config.commonBase (tileDie (coreTile core)) + off) .common
    else .bad 0x102
  else if hi = 0xFFFFFC then
    let t := off / Config.paddockBytes
    let o := off % Config.paddockBytes
    if Config.tiles ≤ t || Config.paddockBytes < o + size then .bad 0x102
    else if (s.tile t).owner != some asid then .bad 0x103
    else .ok (Config.paddockBase t + o) (if t = coreTile core then .ownPaddock else .tilePaddock)
  else if va.toNat / 2 ^ 57 != 0 then .bad 0x104
  else .virt

/-! ## Translation (R317 to R320 of spec/21) -/

/-- An uncorrectable error at a byte: 0x182 for its line's metadata, 0x181 for its sector (R100 of spec/05). -/
def State.badAt (s : State) (pa : Nat) : Option Nat :=
  if s.badMeta.contains (pa / 512) then some 0x182
  else if s.badData.contains (pa / 64) then some 0x181
  else none

/-- The first error of `len` bytes at `pa`, with its address. -/
def State.badIn (s : State) (pa : Nat) : Nat → Option (Nat × Nat)
  | 0 => none
  | n + 1 => match s.badAt pa with
    | some c => some (c, pa)
    | none => s.badIn (pa + 1) n

/-- One level of the walk: lowest index bit, index bits, and the size a leaf maps (R317). -/
structure Level where
  shift : Nat
  bits : Nat
  leaf : Option Nat

def levels : List Level :=
  [⟨48, 9, none⟩, ⟨39, 9, none⟩, ⟨30, 9, some (2 ^ 30)⟩, ⟨21, 9, some (2 ^ 21)⟩, ⟨16, 5, some (2 ^ 16)⟩]

/-- A malformed leaf (R318, R319). -/
def leafBad (pte bytes : Nat) : Bool :=
  let loc := bitsAt pte 9 3
  let ppn := bitsAt pte 16 36 * 2 ^ 16
  bitsAt pte 52 6 != 0 || bitsAt pte 12 4 != 0 || 4 ≤ loc || ppn % bytes != 0
    || (loc ≤ 1 && Config.hbmBytes ≤ ppn)
    || (loc != 3 && bitsAt pte 58 6 != 0)
    || ((loc == 2 || loc == 3) && (bitsAt pte 7 2 != 2 || bitsAt pte 6 1 != 0))

/-- The walk from a table down; a fault is its code (R319, rows 1 to 3). A pointer with reserved bits set (`bad`) still names
its table, so that an entry below it can meet row 1 or 2 first. -/
def State.walkLevels (s : State) (asid va : Nat) : List Level → Nat → Bool → Except Nat Leaf
  | [], _, _ => .error 0x0C6
  | l :: rest, table, bad =>
    let a := table + 8 * (va / 2 ^ l.shift % 2 ^ l.bits)
    if Config.hbmBytes < table + 8 * 2 ^ l.bits then .error 0x0C6
    else if (s.badAt a).isSome then .error 0x0C7
    else
      let e := leNat (memRead s.mem a 8)
      if e % 2 = 0 then .error 0x0C1
      else if bitsAt e 1 3 = 0 then
        let next := bitsAt e 12 40 * 2 ^ 12
        if rest.isEmpty then .error 0x0C6 else s.walkLevels asid va rest next (bad || e != 1 + next)
      else match l.leaf with
        | none => .error 0x0C6
        | some b => if bad || leafBad e b then .error 0x0C6
            else .ok ⟨asid, va / b * b, b, BitVec.ofNat 64 e⟩

/-- A walk from PTROOT (R317): a malformed root faults before any entry is read. -/
def State.walkRoot (s : State) (root : Word) (asid va : Nat) : Except Nat Leaf :=
  if root.toNat % 4096 != 0 then .error 0x0C6 else s.walkLevels asid va levels root.toNat false

def Leaf.covers (l : Leaf) (asid va : Nat) : Bool := l.asid == asid && l.vbase ≤ va && va < l.vbase + l.bytes

def findLeaf (ls : List Leaf) (asid va : Nat) : Option Leaf := ls.find? fun l => l.covers asid va

/-- What an access needs of a page, and whether it is made at supervisor level. -/
structure Need where
  r : Bool
  w : Bool
  x : Bool
  sup : Bool

/-- The permission rows 4 to 7 of R319. -/
def Leaf.denied (l : Leaf) (n : Need) : Option Nat :=
  if l.pte.getLsbD 4 && !n.sup then some 0x0C5
  else if n.r && !l.pte.getLsbD 1 then some 0x0C2
  else if n.w && !l.pte.getLsbD 2 then some 0x0C3
  else if n.x && !l.pte.getLsbD 3 then some 0x0C4
  else none

def Leaf.loc (l : Leaf) : Nat := bitsAt l.pte.toNat 9 3
def Leaf.cache (l : Leaf) : Nat := bitsAt l.pte.toNat 7 2
def Leaf.dq (l : Leaf) : Bool := l.pte.getLsbD 6
def Leaf.rpkg (l : Leaf) : Nat := bitsAt l.pte.toNat 58 6

/-- The flat address a virtual address has under a leaf. -/
def Leaf.pa (l : Leaf) (va : Nat) : Nat :=
  let p := bitsAt l.pte.toNat 16 36 * 2 ^ 16 + (va - l.vbase)
  if l.loc = 2 then Config.hostBase + p else if l.loc = 3 then Config.remoteBase l.rpkg + p else p

def Leaf.home (l : Leaf) : Home := if l.loc = 2 then .host else if l.loc = 3 then .remote else .hbm

/-- A piece of an access within one page or window object. -/
structure Piece where
  pa : Nat
  len : Nat
  home : Home
  leaf : Option Leaf
  deriving DecidableEq, Repr

/-- Where the bytes of an access lie, or the first check that failed, with its address. -/
inductive Acc where
  | ok (ps : List Piece)
  | trap (code : Nat) (va : Word)
  | walk (va : Word)
  deriving DecidableEq, Repr

/-- Translate one virtual piece with the given translations (R319). -/
def pieceOf (ls : List Leaf) (asid : Nat) (va len : Nat) (n : Need) : Acc :=
  match findLeaf ls asid va with
  | none => .walk (BitVec.ofNat 64 va)
  | some l => match l.denied n with
    | some c => .trap c (BitVec.ofNat 64 va)
    | none => .ok [⟨l.pa va, len, l.home, some l⟩]

/-- Join the pieces of a virtual access, split at 64 KiB: `fuel` bounds the pieces. -/
def piecesOf (ls : List Leaf) (asid : Nat) (n : Need) : Nat → Nat → Nat → Acc
  | 0, _, _ => .ok []
  | fuel + 1, va, size =>
    let len := Nat.min size (65536 - va % 65536)
    if 2 ^ 57 ≤ va then .trap 0x104 (BitVec.ofNat 64 va)
    else match pieceOf ls asid va len n with
      | .ok ps =>
        if size ≤ len then .ok ps
        else match piecesOf ls asid n fuel (va + len) (size - len) with
          | .ok qs => .ok (ps ++ qs)
          | a => a
      | a => a

/-- The window and translation steps of R126 of spec/07 for a slot's access. -/
def State.access (s : State) (n : Nat) (va : Word) (size : Nat) (need : Need) : Acc :=
  match s.place (slotCore n) (s.asidOf n) va size with
  | .bad c => .trap c va
  | .ok pa h => .ok [⟨pa, size, h, none⟩]
  | .virt => piecesOf ((s.slot n).park.trans ++ s.tlb) (s.slot n).sup.asid.toNat need (size / 65536 + 2) va.toNat size

/-- The root a unit that acts for a context walks from: its record's, else that of the core's slots (log 15). -/
def State.ctxRoot (s : State) (core asid : Nat) : Word :=
  match s.ctx asid with
  | some c => c.record.ptroot
  | none => (s.slot (8 * core)).sup.ptroot

/-- The root an engine walks from: PTROOT of the slot whose command it runs (R317), of the context where that thread is gone
(log 15). -/
def State.threadRoot (s : State) (tid core asid : Nat) : Word :=
  match s.findTid tid with
  | some x => x.sup.ptroot
  | none => s.ctxRoot core asid

/-- The faults of walks that a unit has still to take, by page: those of its own misses, and for an instruction that a slot performs
itself those that it is parked at. -/
def State.known (s : State) (who : Asker) (asid : Nat) : List (Nat × Nat) :=
  ((s.faulted.filter fun f => f.who == who && f.asid == asid).map fun f => (f.vpage, f.code))
    ++ match who with
      | .engine ⟨tid, .slot, _⟩ => (match s.findTid tid with | some x => x.park.missed | none => [])
      | .engine _ | .copy _ _ _ _ | .unit _ _ _ _ | .window _ _ | .loft _ _ => []

/-- A unit translates by a hit, or takes the fault of a walk that has ended; otherwise it waits for a walk (R321). -/
def State.enginePieces (s : State) (known : List (Nat × Nat)) (asid : Nat) (need : Need) : Nat → Nat → Nat → Acc
  | 0, _, _ => .ok []
  | fuel + 1, va, size =>
    let len := Nat.min size (65536 - va % 65536)
    if 2 ^ 57 ≤ va then .trap 0x104 (BitVec.ofNat 64 va)
    else match findLeaf s.tlb asid va with
      | none => match known.find? (·.1 == va / 65536) with
        | some f => .trap f.2 (BitVec.ofNat 64 va)
        | none => .walk (BitVec.ofNat 64 va)
      | some l => match l.denied need with
        | some c => .trap c (BitVec.ofNat 64 va)
        | none =>
          if size ≤ len then .ok [⟨l.pa va, len, l.home, some l⟩]
          else match s.enginePieces known asid need fuel (va + len) (size - len) with
            | .ok qs => .ok (⟨l.pa va, len, l.home, some l⟩ :: qs)
            | a => a

/-- An access from the windows of core `core`, with the walks' faults that its unit knows, at a level. -/
def State.accessFrom (s : State) (known : List (Nat × Nat)) (core asid : Nat) (va : Word) (size : Nat) (r w : Bool)
    (sup : Bool := false) : Acc :=
  match s.place core asid va size with
  | .bad c => .trap c va
  | .ok _ .format => .trap 0x102 va
  | .ok pa h => .ok [⟨pa, size, h, none⟩]
  | .virt => s.enginePieces known asid ⟨r, w, false, sup⟩ (size / 65536 + 2) va.toNat size

/-- The access of a unit (R91: "issuing" is the core whose slot issued the command). -/
def State.engineAccess (s : State) (who : Asker) (core asid : Nat) (va : Word) (size : Nat) (r w : Bool) : Acc :=
  s.accessFrom (s.known who asid) core asid va size r w who.sup

/-- The code by which an access says that it waits, for a page walk (R321 of spec/21) or behind a pause (R335 of spec/22): no trap
of the spec, and no effect. -/
def walkWait : Nat := 0

/-- A walk of a page by a die. -/
def Walk.of (w : Walk) (die asid vpage : Nat) : Bool := w.die == die && w.asid == asid && w.vpage == vpage

/-- A miss joins the walk of its page that is in progress or waits, or one that will read from `root` starts in its place in the
order of arrival (R321). -/
def State.startWalk (s : State) (die asid vpage : Nat) (root : Word) (who : List Asker) : State :=
  { s with walks :=
      if s.walks.any (·.of die asid vpage) then
        s.walks.map fun w => if w.of die asid vpage then { w with askers := w.askers ++ who.filter (!w.askers.contains ·) } else w
      else s.walks ++ [⟨die, asid, vpage, root, who⟩] }

/-- The access of a unit at `va` waits: where no translation covers the address, its walk is asked for. -/
def State.miss (s : State) (who : Asker) (die asid : Nat) (root va : Word) : State :=
  if 2 ^ 57 ≤ va.toNat || (findLeaf s.tlb asid va.toNat).isSome then s else s.startWalk die asid (va.toNat / 65536) root [who]

/-- Some units await no walk any more: they have made the accesses that they waited for, taken the faults of their walks or need them
no longer, and their next access of a page walks again (R320). -/
def State.forgetAll (s : State) (p : Asker → Bool) : State :=
  { s with
    faulted := s.faulted.filter fun f => !p f.who
    walks := s.walks.map fun w => { w with askers := w.askers.filter (!p ·) } }

/-- One unit awaits no walk any more. -/
def State.forget (s : State) (who : Asker) : State := s.forgetAll (· == who)

/-- The access of an engine that works for a thread waits, and it is what the engine now waits for. -/
def State.engineMiss (s : State) (e : Eng) (core asid : Nat) (va : Word) : State :=
  (s.forget (.engine e)).miss (.engine e) (tileDie (coreTile core)) asid (s.threadRoot e.tid core asid) va

/-- The first memory error of an access's pieces. -/
def State.badPieces (s : State) : List Piece → Option (Nat × Nat)
  | [] => none
  | p :: ps => match (if p.home = .format then none else s.badIn p.pa p.len) with
    | some e => some e
    | none => s.badPieces ps

/-! ## Filter windows observe every write (R284 of spec/18) -/

/-- The memory that a context's address of TCM or of its own paddock names: the tile's, or its image while the context is away
(R29 of spec/02, R305 of spec/19). -/
def State.tileMem (s : State) (asid tile : Nat) : List Host.Cell :=
  if (s.tile tile).owner == some asid then s.mem
  else match s.ctx asid with
    | some c => (match c.images.find? fun i => i.1 == tile with | some i => i.2.mem | none => s.mem)
    | none => s.mem

/-- One byte of a window's mask as its row completes: what an engine of the owner reads at `va`, else, with a memory error too, open
(R284; log 40). -/
def State.maskByte (s : State) (core asid : Nat) (va : Nat) : Byte :=
  match s.accessFrom [] core asid (BitVec.ofNat 64 va) 1 true false with
  | .ok [p] =>
    if (s.badIn p.pa 1).isSome then Config.freeByte s.clock.toNat va
    else memByte (if p.home == .tcm || p.home == .ownPaddock then s.tileMem asid (coreTile core) else s.mem) p.pa
  | _ => Config.freeByte s.clock.toNat va

/-- The mask's bit for token `t` in row `j` (R189 of spec/11, R282 of spec/18). -/
def State.maskBit (s : State) (w : Window) (j t : Nat) : Bool :=
  w.mask == 0 || (s.maskByte w.core w.owner (w.mask.toNat + j * w.mstride + t / 8)).getLsbD (t % 8)

/-- The first page of the mask of row `j` for which a walk must be waited for; one whose walk has ended in a fault is none (R321 of
spec/21). -/
def State.maskWait (s : State) (known : List (Nat × Nat)) (w : Window) (j : Nat) : Option Word :=
  if w.mask = 0 then none
  else
    let a := w.mask.toNat + j * w.mstride
    ((List.range ((a % 65536 + (w.vocab + 8) / 8 + 65535) / 65536)).map fun i => BitVec.ofNat 64 (Nat.max a (a / 65536 * 65536 + 65536 * i))).find? fun va =>
      match s.accessFrom known w.core w.owner va 1 true false with
      | .walk _ => true
      | .ok _ | .trap _ _ => false

/-- FP32 NaN and minus infinity. -/
def isNan32 (v : BitVec 32) : Bool := (v &&& 0x7F800000) == 0x7F800000 && (v &&& 0x007FFFFF) != 0
def isNegInf32 (v : BitVec 32) : Bool := v == 0xFF800000#32

/-- The flat address of byte `off` of a window's region. -/
def Window.flat (w : Window) (off : Nat) : Nat :=
  let o := w.laddr % 65536 + off
  (w.region.getD (o / 65536) 0) + o % 65536

/-- A logit as FP32, BF16 widened (R285 of spec/18). -/
def State.logit (s : State) (w : Window) (j t : Nat) : BitVec 32 :=
  let a := w.flat (j * w.rstride + t * (if w.bf16 then 2 else 4))
  if w.bf16 then BitVec.ofNat 32 (leNat (memRead s.mem a 2) * 65536) else BitVec.ofNat 32 (leNat (memRead s.mem a 4))

/-- What the base die keeps of a row that completes: its candidates, ascending, and the two counts (R285). -/
def State.rowDone (s : State) (w : Window) (j : Nat) (r : Row) : Row :=
  let all := (List.range (w.vocab + 1)).map fun t => (t, s.logit w j t)
  let ok := all.filter fun e => s.maskBit w j e.1
  { r with
    mode := .complete
    cands := ok.filter fun e => !isNan32 e.2 && !isNegInf32 e.2
    nnan := (all.filter fun e => isNan32 e.2).length
    nninf := (ok.filter fun e => isNegInf32 e.2).length }

/-- One element of a row is written, whole or in part. -/
def Row.note (r : Row) (t : Nat) (whole : Bool) : Row :=
  match r.mode with
  | .spoiled => r
  | .complete => { r with mode := .spoiled }
  | _ => if whole && !r.written.contains t then { r with mode := .filling, written := t :: r.written }
         else { r with mode := .spoiled }

/-- Every element of a row has been written, and it is not yet Complete. -/
def Row.full (r : Row) (w : Window) : Bool := r.mode == .filling && r.written.length == w.vocab + 1

/-- A write of bytes [o, o + len) of row `j` (offsets in the row). The row that it fills is Complete once its mask can be read. -/
def State.noteRow (s : State) (w : Window) (j o len : Nat) : Window :=
  let z := if w.bf16 then 2 else 4
  let last := Nat.min (o + len) ((w.vocab + 1) * z)
  if last ≤ o then w
  else
    let r0 := Table.val ({} : Row) j w.row
    let els := (List.range ((last - 1) / z + 1 - o / z)).map (· + o / z)
    let r1 := els.foldl (fun r t => r.note t (decide (o ≤ t * z) && decide (t * z + z ≤ o + len))) r0
    let r2 := if r1.full w && (s.maskWait [] w j).isNone then s.rowDone w j r1 else r1
    { w with row := Table.put j r2 w.row }

/-- The rows that region bytes [off, off + len) touch. -/
def State.noteRows (s : State) (len off : Nat) (w : Window) : Window :=
  let a := off / w.rstride
  let b := (off + len - 1) / w.rstride
  ((List.range (b + 1 - a)).map (· + a)).foldl (fun w j =>
    if w.rows < j then w
    else
      let lo := Nat.max off (j * w.rstride)
      let hi := Nat.min (off + len) ((j + 1) * w.rstride)
      s.noteRow w j (lo - j * w.rstride) (hi - lo)) w

/-- The part of a flat write that falls on page `i` of a window's region, as region offsets. -/
def State.notePage (s : State) (pa len : Nat) (w : Window) (e : Nat × Nat) : Window :=
  let lo := Nat.max pa e.2
  let hi := Nat.min (pa + len) (e.2 + 65536)
  let skip := w.laddr % 65536
  let o := e.1 * 65536 + (lo - e.2)
  let o' := e.1 * 65536 + (hi - e.2)
  if hi ≤ lo || o' ≤ skip then w else s.noteRows (o' - Nat.max o skip) (Nat.max o skip - skip) w

/-- A write of `len` bytes at `pa` as the base die sees it. -/
def State.observe (s : State) (pa len : Nat) : State :=
  { s with windows := s.windows.map fun e =>
      (e.1, match e.2.win with
        | none => e.2
        | some w => { e.2 with
            win := some ((w.region.zipIdx.map fun p => (p.2, p.1)).foldl (fun w p => s.notePage pa len w p) w) }) }

/-! ## Monitors (R103 of spec/05) and stores -/

/-- A write to [pa, pa + len) sets the written bit of every monitor whose granule it touches. -/
def Slot.touched (pa len : Nat) (x : Slot) : Slot :=
  { x with mon := x.mon.map fun m =>
      (m.1, if m.2.granule < pa + len && pa < m.2.granule + 64 then { m.2 with written := true } else m.2) }

def State.touch (s : State) (pa len : Nat) : State :=
  { s with slots := s.slots.map fun e => (e.1, e.2.touched pa len) }

/-- The 64-byte sectors of HBM that [pa, pa + len) touches. -/
def hbmSectors (pa len : Nat) : List Nat :=
  ((List.range ((pa + len + 63) / 64 - pa / 64)).map (· + pa / 64)).filter fun e => 0 < len && 64 * e < Config.hbmBytes

/-- The state a line is stored in (R98, R99): an all-zero line 0, one that may be compressed and fits 1 to 7, any other 8. -/
def lineState (allowed : Bool) (bs : List Byte) : Nat :=
  let n := Config.compressedSectors bs
  if bs.all (· == 0) then 0 else if allowed && 1 ≤ n && n ≤ 7 then n else 8

/-- A sector is in the L2 (R97): a dirty one is; what else the cache holds is its own affair. -/
def State.cached (s : State) (line k : Nat) : Bool :=
  (Table.val ({} : L2Line) line s.dirty).sectors.getLsbD k || Config.cached (8 * line + k) s.clock.toNat

/-- A write to sector `k` of a line dirties it in the L2 and sets the line's compress-allowed bit (R97, R99 of spec/05). A write
through an uncached page does so where the sector is present; else it goes to HBM, and the line is stored as a write-back of it
would be (DESIGN CHOICE, log 67). -/
def State.dirtySector (s : State) (a : Attr) (line k : Nat) : State :=
  if a.uncached && !s.cached line k then
    { s with lines := Table.put line (lineState a.cmp (memRead s.mem (512 * line) 512)) s.lines }
  else
    let x := Table.val ({} : L2Line) line s.dirty
    { s with dirty := Table.put line { sectors := x.sectors ||| (1#8 <<< k), allowed := a.cmp } s.dirty }

/-- A write of [pa, pa + len) as the L2 sees it. -/
def State.dirtied (s : State) (pa len : Nat) (a : Attr) : State :=
  (hbmSectors pa len).foldl (fun s e => s.dirtySector a (e / 8) (e % 8)) s

/-- Perform a write of bytes at a flat address. A write without a translation does not allow compression (DESIGN CHOICE,
log 67), and a write leaves a bad sector or line bad (DESIGN CHOICE, log 7: R100 names nothing that makes it good). -/
def State.store (s : State) (pa : Nat) (bs : List Byte) (a : Attr := {}) : State :=
  ((({ s with mem := memWrite s.mem pa bs } : State).observe pa bs.length).touch pa bs.length).dirtied pa bs.length a

/-- The write-back of a dirty line. Reads decode by the state alone, so it changes no value read. -/
def State.writeBack (s : State) (line : Nat) : State :=
  match Table.val none line (s.dirty.map fun e => (e.1, some e.2)) with
  | none => s
  | some x => { s with
      dirty := Table.del line s.dirty
      lines := Table.put line (lineState x.allowed (memRead s.mem (512 * line) 512)) s.lines }

/-! ## Node tables in HBM (R200 of spec/12) -/

def State.space (s : State) (die asid : Nat) : Option Space :=
  match s.ctx asid with
  | none => none
  | some c => Table.val none die c.spaces

/-- Where the record of index `i` stands. -/
def Space.nodeAt (x : Space) (i : Nat) : Nat := x.tbase + 16 * i

/-- The table lies in the package's HBM (log 60). -/
def Space.inHbm (x : Space) : Bool := x.tbase + 16 * x.cap ≤ Config.hbmBytes

/-- A node's record (R200 of spec/12). -/
def Node.record (n : Node) (chain : BitVec 32) : List Byte :=
  leBytes (n.var + n.ref * 2 ^ 16 + n.low * 2 ^ 32 + n.high * 2 ^ 64 + chain.toNat * 2 ^ 96) 16

/-- The node a record holds; none when it is free. -/
def nodeOf (v : Nat) : Option Node :=
  if bitsAt v 0 16 = 0xFFFF then none
  else some { var := bitsAt v 0 16, ref := bitsAt v 16 16, low := bitsAt v 32 32, high := bitsAt v 64 32 }

/-- The records in HBM follow a change of the nodes: new and changed ones are written, freed ones get VAR 0xFFFF (R200, R206 of
spec/12). -/
def State.putNodes (s : State) (old new : Space) : State :=
  if !new.inHbm then s
  else
    let t := (old.nodes.filter fun e => new.nodes.all fun f => f.1 != e.1).foldl
      (fun s e => s.store (new.nodeAt e.1) [0xFF, 0xFF]) s
    (new.nodes.filter fun e => !old.nodes.contains e).foldl
      (fun s e => s.store (new.nodeAt e.1) (e.2.record (Config.freeChain e.1 s.clock.toNat))) t

/-- The VAR marks of a live space's table that no operation has written (R200): 0xFFFE at index 0, 0xFFFF at a free index. They
are read over the bytes of memory and not stored there (log 60). -/
def Space.mark (x : Space) (pa : Nat) : Option Byte :=
  let i := (pa - x.tbase) / 16
  let k := (pa - x.tbase) % 16
  if !x.inHbm || pa < x.tbase || x.cap ≤ i || 2 ≤ k || (x.nodes.any fun e => e.1 == i) then none
  else some (if i = 0 && k = 0 then 0xFE else 0xFF)

/-- Every diagram space of the package. -/
def State.allSpaces (s : State) : List Space :=
  s.ctxs.flatMap fun e => match e.2 with | none => [] | some c => c.spaces.filterMap (·.2)

/-- A byte of a live node's record; CHAIN stands in memory alone. -/
def Space.nodeByte (x : Space) (pa : Nat) : Option Byte :=
  let k := (pa - x.tbase) % 16
  if !x.inHbm || pa < x.tbase || 12 ≤ k then none
  else match x.nodes.find? fun e => e.1 == (pa - x.tbase) / 16 with
    | some e => (e.2.record 0)[k]?
    | none => none

/-- A byte of HBM as an access to its physical address reads it: node tables with their records and marks. -/
def State.supByte (s : State) (pa : Nat) : Byte :=
  (s.allSpaces.findSome? fun x => match x.nodeByte pa with | some b => some b | none => x.mark pa).getD (memByte s.mem pa)

def State.supBytes (s : State) (pa len : Nat) : List Byte := (List.range len).map fun i => s.supByte (pa + i)

/-- After a write of [pa, pa + len): the records of a space that it touches are read again, each as the written bytes over what
stood there, and the nodes follow. -/
def State.rereadSpace (s old : State) (die asid : Nat) (x : Space) (pa len : Nat) : State :=
  let first := (pa - x.tbase) / 16
  let touched := ((List.range (len / 16 + 2)).map (· + first)).filter fun i =>
    x.inHbm && 0 < i && i < x.cap && decide (pa < x.nodeAt i + 16) && decide (x.nodeAt i < pa + len)
  touched.foldl (fun s i =>
    let bs := (List.range 16).map fun k =>
      if pa ≤ x.nodeAt i + k && x.nodeAt i + k < pa + len then memByte s.mem (x.nodeAt i + k) else old.supByte (x.nodeAt i + k)
    s.onCtx asid fun c => { c with spaces := Table.put die ((Table.val none die c.spaces).map fun y =>
      { y with nodes := match nodeOf (leNat bs) with | some n => Table.put i n y.nodes | none => Table.del i y.nodes }) c.spaces }) s

/-- Perform a write at a flat address of any memory: every space whose node table it touches sees it (R200 of spec/12). -/
def State.write (s : State) (pa : Nat) (bs : List Byte) (a : Attr := {}) : State :=
  (s.ctxs.flatMap fun e => match e.2 with
    | none => []
    | some c => c.spaces.filterMap fun p => p.2.map fun x => (e.1, p.1, x)).foldl
    (fun t e => t.rereadSpace s e.2.1 e.1 e.2.2 pa bs.length) (s.store pa bs a)

def State.setSpace (s : State) (die asid : Nat) (x : Space) : State :=
  let t := match s.space die asid with
    | some old => s.putNodes old x
    | none => s
  t.onCtx asid fun c => { c with spaces := Table.put die (some x) c.spaces }

/-- What a write takes from the translation of a piece (R318 of spec/21). -/
def Piece.attr (p : Piece) : Attr :=
  match p.leaf with | some l => ⟨l.pte.getLsbD 5, l.cache == 2⟩ | none => {}

/-- The bytes at a piece are written: an answer still to come to a request that has left for another package is older there (R106 of
spec/06). -/
def Slot.overtaken (p : Piece) (x : Slot) : Slot :=
  match x.park.wait with
  | some (.answer _ _) =>
    if x.park.left && !x.park.behind && !x.park.answered && x.park.trans.any (·.loc == 3) then
      { x with park := { x.park with newer := x.park.newer ++ [(p.pa, p.len)] } } else x
  | _ => x

def State.overtake (s : State) (p : Piece) : State := if p.home == .remote then s.onAllSlots (Slot.overtaken p) else s

/-- Perform a write over the pieces of an access. -/
def State.storePieces (s : State) : List Piece → List Byte → State
  | [], _ => s
  | p :: ps, bs => ((s.overtake p).write p.pa (bs.take p.len) p.attr).storePieces ps (bs.drop p.len)

/-! ## Full/empty bits (R102 of spec/05) -/

def State.feFull (s : State) (pa : Nat) : Bool := !s.feEmpty.contains (pa / 8)

/-- Set or clear a full/empty bit: a change counts as a write to a monitored granule. -/
def State.setFe (s : State) (pa : Nat) (full : Bool) : State :=
  let t := { s with feEmpty := if full then setRemove (pa / 8) s.feEmpty else setInsert (pa / 8) s.feEmpty }
  if s.feFull pa = full then t else t.touch (pa / 8 * 8) 8

/-! ## Bank formats (R94 of spec/05) -/

def Format.word (f : Format) : Word := BitVec.ofNat 64 (f.ty + f.table * 2 ^ 6 + f.rnd * 2 ^ 9 + f.scix * 2 ^ 32)

def formatOfWord (v : Word) : Format :=
  ⟨bitsAt v.toNat 0 4, bitsAt v.toNat 6 3, bitsAt v.toNat 9 3, bitsAt v.toNat 32 8⟩

def Format.reserved (f : Format) : Bool := 0xA ≤ f.ty || 5 ≤ f.table || 6 ≤ f.rnd

def Tile.format (t : Tile) (bank : Nat) : Format := Table.val {} bank t.formats

/-! ## Remote packages (R339 of spec/22) -/

/-- The lowest-numbered Up port of a package's mask. -/
def State.portTo (s : State) (pkg : Nat) : Option Nat :=
  let m := Table.val (0 : BitVec 12) pkg s.host.route
  (List.range 12).find? fun p => m.getLsbD p && (s.port p).state == .up

/-- A package is reachable when its mask holds an Up port. -/
def State.reachable (s : State) (pkg : Nat) : Bool := (s.portTo pkg).isSome

/-- The package whose memory a flat address names. -/
def remotePkg (pa : Nat) : Nat := (pa - Config.remoteBase 0) / 2 ^ 52

/-- The piece a request names, by its flat address. -/
def reqPiece : Config.Request → Piece
  | .read pa len => ⟨pa, len, .remote, none⟩
  | .write pa bs => ⟨pa, bs.length, .remote, none⟩
  | .atomic _ pa n _ | .update _ pa n _ | .cas pa n _ _ => ⟨pa, n, .remote, none⟩

/-- A request as its flit says it, with the address in the other package's memory. -/
def reqThere : Config.Request → Config.Request
  | .read pa len => .read (pa % 2 ^ 52) len
  | .write pa bs => .write (pa % 2 ^ 52) bs
  | .atomic op pa n v => .atomic op (pa % 2 ^ 52) n v
  | .update op pa n v => .update op (pa % 2 ^ 52) n v
  | .cas pa n cmp new => .cas (pa % 2 ^ 52) n cmp new

/-- The operation F of an atomic on `n`-bit values (R127 of spec/07). -/
def amoFn {n : Nat} (op : AmoOp) (old c : BitVec n) : BitVec n :=
  match op with
  | .add => old + c
  | .and => old &&& c
  | .or => old ||| c
  | .xor => old ^^^ c
  | .min => if c.slt old then c else old
  | .max => if old.slt c then c else old
  | .minu => if c.ult old then c else old
  | .maxu => if old.ult c then c else old
  | .swap => c

/-- F on the low `n` bytes. -/
def amoNew (op : AmoOp) (n old c : Nat) : Nat :=
  (amoFn op (BitVec.ofNat (8 * n) old) (BitVec.ofNat (8 * n) c)).toNat

/-- What a request leaves where it finds the bytes `old`: it reads and writes indivisibly (R112 of spec/06). -/
def reqLeaves (old : List Byte) : Config.Request → List Byte
  | .read _ _ => old
  | .write _ bs => bs
  | .atomic op _ n v | .update op _ n v => leBytes (amoNew op n (leNat old) v) n
  | .cas _ n cmp new => if leNat old = cmp then leBytes new n else old

/-- What a write or a RUPD leaves at its place. -/
def State.written (s : State) (r : Config.Request) : List Byte :=
  let p := reqPiece r
  reqLeaves (memRead s.mem p.pa p.len) r

/-- Does a remote write touch one of the pieces? -/
def RemoteWrite.meets (w : RemoteWrite) (ps : List Piece) : Bool :=
  ps.any fun p => w.pa < p.pa + p.len && p.pa < w.pa + w.new.length

/-- A read has returned the bytes at its pieces: a remote write among them stays performed, with all that left before it by the
same port (R106 of spec/06, R336 of spec/22). -/
def settleWrites (ps : List Piece) (ws : List RemoteWrite) : List RemoteWrite :=
  let n := ws.length - (ws.reverse.takeWhile fun w => !w.meets ps).length
  let n := if n = 0 then 0 else wholeWrites ws n
  ws.zipIdx.map fun e => if e.2 < n then { e.1 with done := true } else e.1

def State.settle (s : State) (ps : List Piece) : State :=
  if ps.any (·.home == .remote) then
    { s with ports := s.ports.map fun e => (e.1, { e.2 with writes := settleWrites ps e.2.writes }) }
  else s

/-- Every remote write that has left is performed (log 79). -/
def State.settleAll (s : State) : State :=
  { s with ports := s.ports.map fun e => (e.1, { e.2 with writes := e.2.writes.map fun w => { w with done := true } }) }

/-- A remote write takes place over others that have left by other ports: those have been performed (log 79). -/
def State.settleElse (s : State) (p : Nat) (q : Piece) : State :=
  { s with ports := s.ports.map fun e => if e.1 = p then e else (e.1, { e.2 with writes := settleWrites [q] e.2.writes }) }

/-- The thread whose request or message it is. -/
def Outgoing.thread : Outgoing → Option Nat
  | .request tid _ | .message tid _ _ _ => some tid
  | .write _ _ _ _ _ | .result _ _ | .reply _ _ _ => none

/-- What has waited behind a pause has left: the request of its thread is under way once none of it waits. -/
def State.underWay (s : State) (o : Outgoing) : State :=
  match o.thread with
  | none => s
  | some tid =>
    if s.ports.any fun e => e.2.waiting.any (·.thread == some tid) then s
    else s.onTid tid fun x => if x.park.behind then { x with park := { x.park with behind := false, since := s.clock } } else x

/-- A remote write or RUPD is performed as it leaves, and waits for its acknowledgement. -/
def State.departWrite (s : State) (p : Nat) (tids : List Nat) (va : Word) (r : Config.Request) (epoch : Option Word)
    (tied : Bool := false) : State :=
  let q := reqPiece r
  let s := match r with
    | .update _ _ _ _ => s.settle [q]
    | .read _ _ | .write _ _ | .atomic _ _ _ _ | .cas _ _ _ _ => s.settleElse p q
  let bs := s.written r
  let w : RemoteWrite :=
    { tids, va, pa := q.pa, old := memRead s.mem q.pa bs.length, new := bs, epoch, tied, left := s.clock }
  ((s.overtake q).store q.pa bs).onPort p fun x =>
    ({ x with writes := x.writes ++ [w] } : Port).emit s.clock (.request (remotePkg q.pa) (reqThere r))

/-- What leaves a port goes on the wire (R335, R336). -/
def State.depart (s : State) (p : Nat) (o : Outgoing) : State :=
  match o with
  | .write tids va r epoch tied => s.departWrite p tids va r epoch tied
  | .request _ r => s.onPort p fun x => x.emit s.clock (.request (remotePkg (reqPiece r).pa) (reqThere r))
  | .result pkg bs => s.onPort p fun x => x.emit s.clock (.result pkg bs)
  | .message _ pkg adr m => s.onPort p fun x => x.emit s.clock (.data (messageFlit s.pkg.toNat pkg adr m x.txSeq))
  | .reply pkg adr code => s.onPort p fun x => x.emit s.clock (.reply pkg adr code)

/-- Something goes out by a port, or waits while its lane may start nothing (R335). -/
def State.post (s : State) (p : Nat) (o : Outgoing) : State :=
  if (s.port p).blocked s.clock o.lane then s.onPort p fun x => { x with waiting := x.waiting ++ [o] } else s.depart p o

/-- What a pause of a lane held back leaves once it has ended, in order. -/
def State.pump (s : State) (p vl : Nat) : State :=
  if s.clock < Table.val s.clock vl (s.port p).pause then s
  else
    let out := (s.port p).waiting.filter (·.lane == vl)
    let s := s.onPort p fun x => { x with waiting := x.waiting.filter (·.lane != vl) }
    out.foldl (fun s o => (s.depart p o).underWay o) s

/-- What waits of the package's own requests and messages has a destination, for which a port is taken; an answer goes back by the
port its request came by. -/
def Outgoing.dest : Outgoing → Option Nat
  | .write _ _ r _ _ | .request _ r => some (remotePkg (reqPiece r).pa)
  | .message _ pkg _ _ => some pkg
  | .result _ _ | .reply _ _ _ => none

/-- One that waits by port `p` takes port `q`. -/
def State.takePort (s : State) (p q : Nat) (o : Outgoing) : State :=
  let move := fun (x : Slot) => { x with park := { x.park with ports := x.park.ports.map fun i => if i = p then q else i } }
  let s := match o with
    | .request tid _ | .message tid _ _ _ => s.onTid tid move
    | .write _ _ _ _ _ | .result _ _ | .reply _ _ _ => s
  (s.post q o).underWay o

/-- Another port than `p` is now the one to take for it. -/
def State.goesBy (s : State) (p : Nat) (o : Outgoing) : Option Nat :=
  (o.dest.bind s.portTo).filter (· != p)

/-- What waits behind a pause has not started as a flit, and takes its port when it does (R335, R339): where the ports that are Up
have changed, it waits by, or leaves by, the lowest-numbered one (log 79). -/
def State.reroute (s : State) : State :=
  (s.ports.map (·.1)).foldl (fun s p =>
    let out := (s.port p).waiting
    let s := s.onPort p fun x => { x with waiting := x.waiting.filter fun o => (s.goesBy p o).isNone }
    out.foldl (fun s o => match s.goesBy p o with | some q => s.takePort p q o | none => s) s) s

/-- A remote write of a thread, or of the replicas that agreed on it, goes to the port that takes it (R339). With no port it is
lost. -/
def State.sendWrite (s : State) (tids : List Nat) (va : Word) (r : Config.Request) (epoch : Option Word)
    (tied : Bool := false) : State :=
  match s.portTo (remotePkg (reqPiece r).pa) with
  | none => s.loseWrite tids va
  | some p => s.post p (.write tids va r epoch tied)

/-- A remote write waits behind a pause (R335). -/
def State.writesHeld (s : State) : Bool :=
  s.ports.any fun e => e.2.waiting.any fun o => match o with
    | .write _ _ _ _ _ => true
    | .request _ _ | .result _ _ | .message _ _ _ _ | .reply _ _ _ => false

/-- A request of a unit, which has no park of its own: it goes on the wire by the port that takes it. -/
def State.ask (s : State) (r : Config.Request) : State :=
  let pkg := remotePkg (reqPiece r).pa
  match s.portTo pkg with
  | none => s
  | some p => s.onPort p fun x => x.emit s.clock (.request pkg (reqThere r))

/-- What a unit has read of other packages at some pieces was asked for, and stays performed (R106 of spec/06). -/
def State.haveRead (s : State) (ps : List Piece) : State :=
  (ps.filter (·.home == .remote)).foldl (fun s p => s.ask (.read p.pa p.len)) (s.settle ps)

/-- A write of a copy: one to another package goes out as a copy write (R335 of spec/22), and the copy goes on when it has been
acknowledged (log 79). -/
def State.copyWrite (s : State) (p : Piece) (bs : List Byte) : State :=
  if p.home == .remote then (((s.settle [p]).ask (.write p.pa bs)).overtake p).write p.pa bs p.attr else s.write p.pa bs p.attr

/-- A system-scope release of some threads has been performed: their remote writes have been acknowledged, and every other
that has left is performed before it (R108 of spec/06, cumulative; log 79). -/
def State.acked (s : State) (tids : List Nat) : State :=
  { s with ports := s.ports.map fun e => (e.1, { e.2 with
      writes := (e.2.writes.filter fun w => !w.tids.any tids.contains).map fun w => { w with done := true } }) }

/-- The target is a package that cannot be reached: the access is not sent (R339 of spec/22). -/
def State.lostPieces (s : State) (ps : List Piece) : Bool :=
  ps.any fun p => p.home == .remote && (match p.leaf with | some l => !s.reachable l.rpkg | none => false)

/-- The host fails a read of these pieces in the event being performed (R332 of spec/22). -/
def State.hostFails (s : State) (ps : List Piece) : Bool :=
  match s.hostFail with
  | some a => ps.any fun p => p.home == .host && p.pa ≤ Config.hostBase + a && Config.hostBase + a < p.pa + p.len
  | none => false

/-- A request to these pieces would wait behind a pause of its port (R335 of spec/22). -/
def State.requestWaits (s : State) (ps : List Piece) : Bool :=
  ps.any fun p => p.home == .remote && (match p.leaf with
    | some l => (s.portTo l.rpkg).any fun q => (s.port q).blocked s.clock 0
    | none => false)

/-! ## A port goes Down; freezes and traps (R339 of spec/22, R343 and R349 of spec/23) -/

/-- A port goes Down with requests unanswered (R339): what waits goes by another port where one is Up (log 79), its requests fail,
its unacknowledged writes are lost to their threads' next release, and how many of those not yet certain were still performed is a
free choice (log 3). -/
def State.portDown (s : State) (p : Nat) : State :=
  let s := (s.onPort p fun x => { x with state := .down }).reroute
  let x := s.port p
  let k := settledCount x.writes
  let r := s.pick (x.writes.length - k + 1)
  let s := (x.writes.drop (wholeWrites x.writes (k + r.1))).reverse.foldl (fun s w => s.unsent w) r.2
  let s := x.writes.foldl (fun s w => s.loseWrite w.tids w.va) s
  let s := x.waiting.foldl (fun s o => match o with
    | .write tids va _ _ _ => s.loseWrite tids va
    | .request _ _ | .result _ _ | .message _ _ _ _ | .reply _ _ _ => s) s
  (s.onAllSlots (Slot.cutOff p)).onPort p fun x =>
    { x with state := .down, sent := [], waiting := [], buf := [], writes := [], naks := 0, pause := [] }

/-- Every Margon port goes Down at once (R350 of spec/23). -/
def State.portsDown (s : State) : State :=
  (s.ports.map (·.1)).foldl (fun s p => s.portDown p)
    { s with ports := s.ports.map fun e => (e.1, { e.2 with state := .down }) }

/-- A freeze request (R349, R350 of spec/23): a terminal freeze stays; the Margon ports go Down. -/
def State.freezeBy (s : State) (resumable : Bool) (src : BitVec 2) : State :=
  match s.freeze with
  | .off => { s.portsDown with freeze := .on resumable src }
  | .on true _ => if resumable then s else { s with freeze := .on false src }
  | .on false _ => s

/-- Slot `n` enters a trap; with SINH = 1 the package freezes terminally, source 3. -/
def State.trapSlot (s : State) (n code : Nat) (tpc taddr : Word) (async : Bool) : State :=
  match (s.slot n).enter s.svec code tpc taddr async with
  | some x => s.setSlot n x
  | none => s.freezeBy false 3

/-! ## The operand step (R24, R25 of spec/02, R57 of spec/03, R438 of spec/02) -/

def Core.queue (c : Core) (n : Nat) : List Word := Table.val [] n c.q

def countQ (n : Nat) (os : List Opnd) : Nat :=
  (os.filter fun o => match o with | .q m => m.val == n | _ => false).length

/-- Every source can be taken and every destination queue then has room. -/
def State.operandsReady (s : State) (srcs : List Src) (dsts : List Opnd) : Bool :=
  let so := srcs.map (·.op)
  (srcs.all fun a => match a.op with
    | .g n => !a.sync || s.me.isFull n.val
    | .q n => countQ n.val so ≤ (s.myCore.queue n.val).length
    | .mb m => s.myCore.mbFull.getLsbD m.val)
  && dsts.all fun o => match o with
    | .q n => (s.myCore.queue n.val).length - countQ n.val so + countQ n.val dsts ≤ 8
    | _ => true

/-- Take one source: its value, and the pop or the cleared bit. -/
def State.takeOne (s : State) (a : Src) : Word × State :=
  match a.op with
  | .g n => (s.me.reg n.val, if a.sync then s.onMe (·.clearFull n.val) else s)
  | .q n => ((s.myCore.queue n.val).headD 0,
      s.onMyCore fun c => { c with q := Table.put n.val (c.queue n.val).tail c.q })
  | .mb m => (Table.val 0 m.val s.myCore.mb,
      s.onMyCore fun c => { c with mbFull := c.mbFull &&& ~~~(1#4 <<< m.val) })

/-- Take the sources in operand order. -/
def State.takeAll (s : State) : List Src → List Word × State
  | [] => ([], s)
  | a :: as =>
    let r := s.takeOne a
    let t := r.2.takeAll as
    (r.1 :: t.1, t.2)

/-- Write a register or push a queue; a mailbox is written and becomes full (R23). -/
def State.writeOpnd (s : State) (o : Opnd) (v : Word) : State :=
  match o with
  | .g n => s.onMe (·.setReg n.val v)
  | .q n => s.onMyCore fun c => { c with q := Table.put n.val (c.queue n.val ++ [v]) c.q }
  | .mb m => s.onMyCore fun c =>
      { c with mb := Table.put m.val v c.mb, mbFull := c.mbFull ||| (1#4 <<< m.val) }

/-! ## Parking and ending -/

/-- Park the agent on a condition; operands already taken stay kept in the slot. -/
def State.park (s : State) (w : Wait) : Out :=
  .next (s.onMe (·.parkOn w))

/-- The sources an instruction took can be given back: its queues have room and its mailboxes are empty. -/
def Core.hasRoom (c : Core) (srcs : List Src) : Bool :=
  srcs.all fun a => match a.op with
    | .g _ => true
    | .q n => (c.queue n.val).length + countQ n.val (srcs.map (·.op)) ≤ 8
    | .mb m => !c.mbFull.getLsbD m.val

/-- Give one source back: the full bit, the queue's head or the mailbox. -/
def State.giveOne (s : State) (n : Nat) (e : Src × Word) : State :=
  match e.1.op with
  | .g r => if e.1.sync then s.onSlot n fun x => { x with full := x.full ||| (1#32 <<< r.val) } else s
  | .q q => s.onCore (slotCore n) fun c => { c with q := Table.put q.val (e.2 :: c.queue q.val) c.q }
  | .mb m => s.onCore (slotCore n) fun c =>
      { c with mb := Table.put m.val e.2 c.mb, mbFull := c.mbFull ||| (1#4 <<< m.val) }

/-- A precise trap leaves no pop, no cleared full bit and no mailbox transfer (R63 of spec/03): what this issue of the
instruction took is given back, the last source first. Operands that an earlier issue took, or that no longer fit, stand
(R438 of spec/02). -/
def State.giveBack (s : State) (n : Nat) : State :=
  let x := s.slot n
  match x.park.took, x.park.vals with
  | some srcs, some vs =>
    if (s.core (slotCore n)).hasRoom srcs then
      (((srcs.zip vs).reverse.foldl (fun s e => s.giveOne n e) s)).onSlot n fun x => { x with park := { x.park with vals := none } }
    else s
  | _, _ => s

/-- Take the trap at the agent, precisely (R63 of spec/03); every mirror takes it too (R272 of spec/17). -/
def State.trapTo (s : State) (n code : Nat) (taddr : Word) : State :=
  ((s.giveBack n).onSlot n Slot.checkpointHere).trapSlot n code (s.slot n).pc taddr false

/-- What the issue of a saved thread took from registers is given back; what it took from queues and mailboxes stands. -/
def Slot.giveRegs (x : Slot) : Slot :=
  match x.park.took with
  | some srcs => if srcs.all fun a => match a.op with | .g _ => true | .q _ | .mb _ => false then
      { x with full := x.fullBack, park := { x.park with vals := none } } else x
  | none => x

/-- A thread takes a trap precisely, wherever it stands. -/
def State.trapTid (s : State) (tid code : Nat) (taddr : Word) : State :=
  match s.slotOfTid tid with
  | some n => s.trapTo n code taddr
  | none => match s.findTid tid with
    | none => s
    | some x => match x.giveRegs.checkpointHere.enter s.svec code x.pc taddr false with
      | some y => s.onTid tid fun _ => y
      | none => s.freezeBy false 3

def State.trap (s : State) (code : Nat) (taddr : Word) : Out :=
  .next (s.mirrors.foldl (fun t tid => t.trapTid tid code taddr) (s.trapTo s.agent code taddr))

/-- Complete without a result. -/
def State.done (s : State) : Out := .next (s.onUs Slot.complete)

/-- Complete with a transfer. -/
def State.goto (s : State) (t : Word) : Out := .next (s.onUs (·.jump t))

/-- Write results into general registers of the agent and its mirrors, and complete. -/
def State.doneRegs (s : State) (ws : List (Nat × Word)) : Out :=
  .next (s.onUs fun x => (ws.foldl (fun x w => x.setReg w.1 w.2) x).complete)

/-- A mirror receives the agent's result at its own destination (R272 of spec/17). -/
def State.giveMirrors (s : State) (o : Opnd) (v : Word) (jump : Option Word) : State :=
  s.mirrors.foldl (fun t tid => t.onTid tid fun x =>
    { x with park := { x.park with wait := none, out := some ⟨o, v, jump, true⟩ }
             status := if x.status = .parked then .running else x.status }) s

/-- The agent's result goes to its queue or mailbox, and to the mirrors. -/
def State.give (s : State) (o : Opnd) (v : Word) (jump : Option Word) : State := (s.writeOpnd o v).giveMirrors o v jump

/-- A result waits for its destination. The access it came from is performed and holds its translations no longer (R323 of
spec/21). A cancel that found the request on its way comes after the instruction (R39 of spec/02), a later one abandons it (R30). -/
def Slot.resultWaits (x : Slot) (r : MailOut) : Slot :=
  { x with park := { x.park with
      out := some { r with done := r.done || (x.park.answered && x.cpend) }, trans := [], epoch := none, data := [] } }

/-- A result waits. Where it is that of an operation performed once, which has taken effect, the mirrors receive it now: the operation
is not performed again, whatever becomes of the bellwether (R229 of spec/13, R272 of spec/17). -/
def State.resultWaits (s : State) (r : MailOut) : State :=
  (if r.done || s.me.park.answered then s.giveMirrors r.dst r.v r.jump else s).onMe (·.resultWaits r)

/-- Wait with a result until its mailbox destination is empty (R23, R438 of spec/02); `done` of an instruction that has taken
effect. -/
def State.holdOut (s : State) (m : Fin 4) (v : Word) (jump : Option Word) (done : Bool) : Out :=
  (s.resultWaits ⟨.mb m, v, jump, done⟩).park (.mailboxEmpty m)

/-- Wait with a result whose queue another slot has filled since the operand step (R24 of spec/02). -/
def State.holdQueue (s : State) (n : Fin 8) (v : Word) (jump : Option Word) (done : Bool) : Out :=
  (s.resultWaits ⟨.q n, v, jump, done⟩).park (.operands [] [.q n])

/-- An instruction whose effect comes with its result waits for its destination first: a mailbox until it is empty, a queue
until it has room. -/
def State.roomFor (s : State) (os : List Opnd) (k : State → Out) : Out :=
  match os.find? fun o => match o with | .mb m => s.myCore.mbFull.getLsbD m.val | _ => false with
  | some (.mb m) => s.park (.mailboxEmpty m)
  | _ => if s.operandsReady [] os then k s else s.park (.operands [] os)

/-- An instruction that has not been sent waits for its destination before it takes effect; one that has been answered goes on
(R39 of spec/02). -/
def State.roomFirst (s : State) (a : Opnd) (k : State → Out) : Out := if s.me.park.answered then k s else s.roomFor [a] k

/-- Write one result and complete, or park on a mailbox or queue destination that is full; `eff` of an instruction that has taken
effect, which a cancel does not abandon there. -/
def State.finish (s : State) (o : Opnd) (v : Word) (eff : Bool := false) : Out :=
  match o with
  | .g n => s.doneRegs [(n.val, v)]
  | .q n =>
    if (s.myCore.queue n.val).length < 8 then .next ((s.give o v none).onMe Slot.complete) else s.holdQueue n v none eff
  | .mb m =>
    if s.myCore.mbFull.getLsbD m.val then s.holdOut m v none eff
    else .next ((s.give o v none).onMe Slot.complete)

/-- Write a link and transfer. -/
def State.finishJump (s : State) (o : Opnd) (v t : Word) : Out :=
  match o with
  | .g _ => (s.writeOpnd o v).goto t
  | .q n => if (s.myCore.queue n.val).length < 8 then (s.writeOpnd o v).goto t else s.holdQueue n v (some t) false
  | .mb m =>
    if s.myCore.mbFull.getLsbD m.val then s.holdOut m v (some t) false
    else (s.writeOpnd o v).goto t

/-- The waiting result is written once its mailbox is empty, or its queue has room. -/
def State.finishOut (s : State) (r : MailOut) : Out :=
  if !s.operandsReady [] [r.dst] then s.park (.operands [] [r.dst])
  else match r.jump with
    | none => s.finish r.dst r.v r.done
    | some t => s.finishJump r.dst r.v t

/-- With the guard true the instruction runs; otherwise it only uses its turn (R54 of spec/03). -/
def State.guarded (s : State) (g : Guard) (k : State → Out) : Out := if s.me.guardOk g then k s else s.done

/-- In a replica set a mailbox destination raises 0x2C5 before any effect (R279 of spec/17). -/
def State.mailboxDst (s : State) (dsts : List Opnd) : Bool :=
  s.me.rep.count != 0 && dsts.any fun o => match o with | .mb _ => true | _ => false

/-- The operand step, then `k` on the values taken; a reissue uses the values kept. -/
def State.operands (s : State) (srcs : List Src) (dsts : List Opnd) (k : List Word → State → Out) : Out :=
  if s.mailboxDst dsts then s.trap 0x2C5 0
  else match s.me.park.vals with
    | some vs => k vs s
    | none =>
      if s.operandsReady srcs dsts then
        let r := s.takeAll srcs
        k r.1 (r.2.onMe fun x => { x with park := { x.park with vals := some r.1, took := some srcs } })
      else s.park (.operands srcs dsts)

/-- Value `i` of the operand list. -/
def arg (vs : List Word) (i : Nat) : Word := vs.getD i 0

/-- A plain source. -/
def plain (o : Opnd) : Src := ⟨o, false⟩

/-! ## Memory accesses of a slot -/

/-- The agent's miss joins or starts a walk. -/
def State.slotMiss (s : State) (va : Word) : State :=
  s.startWalk (slotDie s.agent) s.me.sup.asid.toNat (va.toNat / 65536) s.me.sup.ptroot []

/-- Park on the walk for a miss, whose fault is a precise trap (R321 of spec/21). -/
def State.parkWalk (s : State) (va : Word) : Out :=
  (s.slotMiss va).park (.walk (slotDie s.agent) s.me.sup.asid.toNat (va.toNat / 65536) va)

/-- Park on the walk for a miss, whose fault the instruction takes in its own way. -/
def State.parkMiss (s : State) (va : Word) : Out :=
  (s.slotMiss va).park (.walker (slotDie s.agent) s.me.sup.asid.toNat (va.toNat / 65536))

/-- The instruction goes on in the slot's next turn. -/
def State.retry (s : State) : Out := .next (s.onMe fun x => { x with park := { x.park with wait := none } })

/-- An access of the agent's instruction at `va` waits: for a page walk, or behind a pause of its port. -/
def State.await (s : State) (va : Word) (k : State → Out) : Out :=
  if 2 ^ 57 ≤ va.toNat || (findLeaf s.tlb s.me.sup.asid.toNat va.toNat).isSome then s.retry else k s

/-- Does an access to this memory park until it is answered (R21 of spec/02, R90 of spec/05)? -/
def Home.far : Home → Bool
  | .tcm | .ownPaddock | .format => false
  | _ => true

/-- The memory a request waits for: where several pieces are far, one that can fail before one that cannot. -/
def farHome (ps : List Piece) : Home :=
  if ps.any (·.home == .host) then .host else if ps.any (·.home == .remote) then .remote
  else (ps.find? fun p => p.home.far).map (·.home) |>.getD .hbm

/-- An access that obtains a translation carries the epoch (R323 of spec/21). -/
def carried (epoch : Word) (ps : List Piece) : Option Word := if ps.any (·.leaf.isSome) then some epoch else none

/-- The request leaves (R39 of spec/02), carrying its translations and their epoch (R323 of spec/21): what it asks of other packages
goes out by their ports, or waits behind a pause. -/
def State.send (s : State) (va : Word) (ps : List Piece) (as : Piece → Config.Request := fun p => .read p.pa p.len) : Out :=
  let remote := ps.filter fun p => p.home == .remote && p.leaf.isSome
  let ports := remote.filterMap fun p => s.portTo (remotePkg p.pa)
  let s := s.onMe fun x => { x with park := { x.park with
      left := true, newer := [], asked := remote.map as, data := [], trans := ps.filterMap (·.leaf), epoch := carried s.qepoch ps, since := s.clock, origin := s.agent
      ports := ports, dead := s.lostPieces ps, behind := ports.any fun p => (s.port p).blocked s.clock 0 } }
  (remote.foldl (fun s p => match s.portTo (remotePkg p.pa) with
    | some q => s.post q (.request s.me.tid (as p))
    | none => s) s).park (.answer va (farHome ps))

/-- The user or supervisor level of the agent's accesses. -/
def State.need (s : State) (r w : Bool) : Need := ⟨r, w, false, s.me.sup.sinh⟩

/-- A slot's access: the pieces, or a trap, or a park on a walk. -/
def State.withAccess (s : State) (va : Word) (size : Nat) (r w : Bool) (k : List Piece → Out) : Out :=
  match s.access s.agent va size (s.need r w) with
  | .trap c a => s.trap c a
  | .walk a => s.parkWalk a
  | .ok ps => k ps

/-- All that a replica has stored and the votes have not performed, oldest first. -/
def Replica.buffer (r : Replica) : List Held := r.held ++ r.spill.flatten

/-- The bytes of a releasing store that waits for its vote. -/
def Replica.owned (r : Replica) : List Held := match r.vote with | some v => v.own | none => []

/-- A byte as a replica reads it over its own held stores, newest last (R115 of spec/06). -/
def heldOver (hs : List Held) (b : Byte) (a : Nat) : Byte :=
  hs.foldl (fun b h => if h.pa ≤ a && a < h.pa + h.bytes.length then h.bytes.getD (a - h.pa) 0 else b) b

/-- The flat address under which a held store to a format register stands, above the memory map (MODEL). -/
def formatFlat (tile off : Nat) : Nat := 2 ^ 80 + 128 * tile + off

/-- Bytes read at `pa` as a reader with held stores sees them. -/
def readOver (hs : List Held) (bs : List Byte) (pa : Nat) : List Byte :=
  match hs with
  | [] => bs
  | hs => bs.zipIdx.map fun e => heldOver hs e.1 (pa + e.2)

/-- The bytes at a piece: HBM with its node tables, the other memories as they stand. -/
def State.pieceBytes (s : State) (p : Piece) : List Byte :=
  if p.home = .hbm then s.supBytes p.pa p.len else memRead s.mem p.pa p.len

def State.readPieces (s : State) (ps : List Piece) : List Byte := ps.flatMap s.pieceBytes

/-- The word of a format register over a replica's held stores to it: reserved bits read 0 (R95 of spec/05, R6 of spec/00). -/
def State.seenFormat (s : State) (off : Nat) : List Byte :=
  let t := s.myTileNum
  let w := leBytes ((s.tile t).format (off / 8)).word.toNat 8
  leBytes (formatOfWord (BitVec.ofNat 64 (leNat (readOver s.me.rep.buffer w (formatFlat t off))))).word.toNat 8

/-- The format of a bank as the agent's commands use it: a replica's own held store to the register shows (DEDUCED, log 83: R95 of
spec/05 has the command use the new value, and the register take it at the agreeing vote). -/
def State.bankFormat (s : State) (tile bank : Nat) : Format :=
  if tile = s.myTileNum && !s.me.rep.buffer.isEmpty then formatOfWord (BitVec.ofNat 64 (leNat (s.seenFormat (8 * bank))))
  else (s.tile tile).format bank

/-- The bytes that a slot's access finds at a piece: of another package those that its request found there (R106, R112 of spec/06). -/
def State.foundBytes (s : State) (x : Slot) (p : Piece) : List Byte :=
  if p.home != .remote || x.park.data.isEmpty then s.pieceBytes p
  else (s.pieceBytes p).zipIdx.map fun e => match x.park.data.find? (·.1 == p.pa + e.2) with | some c => c.2 | none => e.1

/-- The bytes the agent reads at an access's pieces; a format register's word for .format. -/
def State.seenPieces (s : State) (ps : List Piece) : List Byte :=
  ps.flatMap fun p => match p.home with
    | .format => s.seenFormat p.pa
    | _ => readOver s.me.rep.buffer (s.foundBytes s.me p) p.pa

/-- The agent's request has been performed in another package's memory, where its answer was made. -/
def State.doneThere (s : State) (ps : List Piece) : Bool := !s.me.park.data.isEmpty && ps.any (·.home == .remote)

/-- The agent has read the bytes at some pieces, unless its answer has brought them. -/
def State.settleRead (s : State) (ps : List Piece) : State := if s.doneThere ps then s else s.settle ps

/-- The agent's atomic writes the pieces that it has read, unless its request has done so. -/
def State.storeBack (s : State) (ps : List Piece) (bs : List Byte) : State := if s.doneThere ps then s else s.storePieces ps bs

/-! ## Replicas: folding, holding, voting (spec/17) -/

/-- Is the access replica-local: its EA in the own-TCM, own-paddock or common window (R274)? -/
def localEa (va : Word) : Bool := let h := va.toNat / 2 ^ 40; h == 0xFFFFFF || h == 0xFFFFFE || h == 0xFFFFFD

/-- Fold a record into the earmark (R268). -/
def Slot.fold (x : Slot) (bs : List Byte) : Slot :=
  { x with rep := { x.rep with earmark := crcFold x.rep.earmark bs } }

/-- A store's record (R268, R269). -/
def storeRecord (va : Word) (bs : List Byte) : List Byte := leBytes va.toNat 8 ++ BitVec.ofNat 8 bs.length :: bs

/-- The record of an operation performed once (R269). -/
def onceRecord (ea : Word) (op : Nat) (vals : List Word) : List Byte :=
  leBytes ea.toNat 8 ++ [0xFF, BitVec.ofNat 8 op] ++ vals.flatMap fun v => leBytes v.toNat 8

/-- A slot has no engine operation in flight (R129 of spec/07). -/
def State.enginesDone (s : State) (n : Nat) : Bool :=
  let x := s.slot n
  let c := (s.tile (slotTile n)).crook
  x.eng == 0 && x.dde == 0 && !(c.queue.any (·.tid == x.tid)) && !(c.kept.any (·.tid == x.tid))
    && !(c.mstat.any (·.tid == x.tid))

/-- The slot votes: its engines drain, the record is folded, and it waits for the vote (R271). -/
def State.castVote (s : State) (v : VoteAt) (record : List Byte) : Out :=
  if !s.enginesDone s.agent then s.park .enginesDone
  else if s.me.rep.mismatch then
    let y := s.me.fold record
    (s.onMe fun x => { x with rep := { x.rep with mismatch := false, waited := 0, held := [], spill := [], earmark := 0 } }).trap 0x2C1
      y.rep.earmark
  else match s.me.rep.vote with
    | some _ => s.park .vote
    | none => (s.onMe fun x =>
        { x.fold record with rep := { (x.fold record).rep with
            vote := some { v with before := x.rep.earmark, heldBefore := x.rep.held.length, waited := x.rep.waited } } }).park .vote

/-- The implicit vote of R270: it makes room in the release buffer, and the instruction goes on from its start. -/
def State.implicitVote (s : State) : Out :=
  s.castVote { kind := .buffer, once := false, before := 0, heldBefore := 0, waited := 0 } []

/-- A vote point (R271): outside a replica set it is nothing; inside, engine writes that wait for room take it by implicit
votes first, then the slot votes, and once it has agreed the operation goes on, in the bellwether alone when it is performed
once. `own` is what a releasing store writes, which the agreement performs after the held stores (R108 of spec/06), and `sys`
its scope. -/
def State.votePoint (s : State) (kind : VoteKind) (once : Bool) (record : List Byte) (k : State → Out)
    (own : List Held := []) (sys : Bool := false) : Out :=
  if s.me.rep.count = 0 then k s
  else if s.me.park.voted then
    if let some a := s.me.park.lostAt then (s.onMe fun x => { x with park := { x.park with lostAt := none } }).trap 0x10C a
    else if once && !s.isBell s.me then s.park .bellwether
    else k (s.onMe fun x => { x with park := { x.park with once := once } })
  else if !s.me.rep.spill.isEmpty && s.enginesDone s.agent then s.implicitVote
  else s.castVote { kind := kind, once := once, before := 0, heldBefore := 0, waited := 0, own := own, sys := sys } record

/-- Distinct 64-byte sectors a list of held stores covers (R270). -/
def heldSectors (hs : List Held) : List Nat :=
  hs.foldl (fun l h => ((List.range ((h.pa + h.bytes.length - 1) / 64 + 1 - h.pa / 64)).map (· + h.pa / 64)).foldl
    (fun l a => setInsert a l) l) []

/-- A remote write of the threads that no ACK can reach while its port is in Retrain (R338, R339 of spec/22). It is `late` where its
package is unreachable and it has been on its way for the 2^20 cycles of R339. -/
def State.unacked (s : State) (tids : List Nat) (late : Bool) (e : Nat × Port) (w : RemoteWrite) : Bool :=
  e.2.state == .retrain && w.tids.any tids.contains
    && (!s.reachable (remotePkg w.pa) && decide (2 ^ 20 ≤ s.clock.toNat - w.left.toNat)) == late

/-- A system-scope release of the threads waits for such an ACK. -/
def State.ackWaits (s : State) (tids : List Nat) : Bool := s.ports.any fun e => e.2.writes.any (s.unacked tids false e)

/-- The late ones count as lost to their threads' release. -/
def State.loseLate (s : State) (tids : List Nat) : State :=
  let late := s.ports.flatMap fun e => e.2.writes.filter (s.unacked tids true e)
  if late.isEmpty then s
  else late.foldl (fun s w => s.loseWrite w.tids w.va) { s with ports := s.ports.map fun e =>
    (e.1, { e.2 with writes := e.2.writes.map fun w => if s.unacked tids true e w then { w with tids := [] } else w }) }

/-- Release at system scope (R339 of spec/22), for the agent and the replicas it acts for (R272 of spec/17): every remote write that
waits leaves first (R108 of spec/06: one of another slot may have been visible; log 79), a lost one of theirs raises 0x10C, and
the others have been acknowledged. -/
def State.releaseSys (s : State) (sys : Bool) (k : State → Out) : Out :=
  if !sys then k s
  else if s.writesHeld then s.park .writesLeave
  else
    let tids := s.me.tid :: s.mirrors
    let s := s.loseLate tids
    match s.me.lost with
    | some a => State.trap (s.onUs fun x => { x with lost := none }) 0x10C a
    | none => if s.ackWaits tids then s.park .writesLeave else k (s.acked tids)

/-- A slot's quota of held sectors (R270): 256 / (SPC + 1), from GSHAPE's slots per core. -/
def Slot.quota (x : Slot) : Nat := 256 / (bitsAt x.id.gshape.toNat 4 3)

/-- Perform one piece of a slot's store: a format register, a remote write that is lost when its package is unreachable
(R339 of spec/22), or bytes of memory. -/
def State.putPiece (s : State) (va : Word) (p : Piece) (bs : List Byte) (tied : Bool := false) : State :=
  match p.home with
  | .format => s.onTile s.myTileNum fun t =>
      { t with formats := Table.put (p.pa / 8) (formatOfWord (BitVec.ofNat 64 (leNat bs))) t.formats }
  | .remote => match p.leaf with
      | some _ => s.sendWrite [s.me.tid] va (.write p.pa bs) (carried s.qepoch [p]) tied
      | none => s
  | _ => s.write p.pa bs p.attr

def State.putPieces (s : State) (va : Word) : List Piece → List Byte → State
  | [], _ => s
  | p :: ps, bs => (s.putPiece va p (bs.take p.len)).putPieces va ps (bs.drop p.len)

/-- The replicable-page check of R96 of spec/05. -/
def replicable (ps : List Piece) : Bool :=
  ps.any fun p => match p.leaf with | some l => l.cache == 3 | none => false

/-- Hold the bytes of a store over its pieces (R270). -/
def holdPieces (va : Word) (epoch : Word) : List Piece → List Byte → List Held
  | [], _ => []
  | p :: ps, bs => ⟨p.pa, bs.take p.len, localEa va, carried epoch [p], va, p.attr, false⟩ :: holdPieces va epoch ps (bs.drop p.len)

/-- The held stores of a store's pieces. -/
def State.heldOf (s : State) (va : Word) (ps : List Piece) (bs : List Byte) : List Held :=
  holdPieces va s.qepoch (ps.map fun p =>
    if p.home = .format then { p with pa := formatFlat s.myTileNum p.pa } else p) bs

/-- A store would take the slot beyond its quota (R270). -/
def Slot.overQuota (x : Slot) (hs : List Held) : Bool :=
  x.quota < (heldSectors (x.rep.held ++ hs)).length && !x.rep.held.isEmpty

def State.overQuota (s : State) (hs : List Held) : Bool := s.me.overQuota hs

/-- An engine's write for a replica (R269, R270): folded and held, or kept out of the buffer until an implicit vote has made
room. -/
def Slot.hold (x : Slot) (hs : List Held) : Slot :=
  if !x.rep.spill.isEmpty || x.overQuota hs then { x with rep := { x.rep with spill := x.rep.spill ++ [hs] } }
  else
    let y := x.fold (storeRecord ((hs.head?.map (·.va)).getD 0) (hs.flatMap (·.bytes)))
    { y with rep := { y.rep with held := x.rep.held ++ hs } }

/-- After a vote the writes that were kept out go on, as far as the quota allows. -/
def Slot.drain (x : Slot) : Slot := x.rep.spill.foldl Slot.hold { x with rep := { x.rep with spill := [] } }

/-- A store of the agent whose checks have passed: performed, or in a replica folded and held, once implicit votes have made
room for it and for the engine writes before it. -/
def State.storeVia (s : State) (va : Word) (ps : List Piece) (bs : List Byte) (k : State → Out) : Out :=
  if s.me.rep.count = 0 then k (s.putPieces va ps bs)
  else
    let hs := s.heldOf va ps bs
    if s.overQuota hs || !s.me.rep.spill.isEmpty then s.implicitVote
    else k (s.onMe fun x =>
      { x.fold (storeRecord va bs) with rep := { (x.fold (storeRecord va bs)).rep with held := x.rep.held ++ hs } })

/-- A releasing store at core scope or wider: in a replica a vote point of kind release that covers its own store, after an
implicit vote where its bytes would pass the quota; else the release, then the store. -/
def State.storeRelease (s : State) (sys : Bool) (va : Word) (ps : List Piece) (bs : List Byte) (k : State → Out) : Out :=
  if s.me.rep.count = 0 then s.releaseSys sys fun s => k (s.putPieces va ps bs)
  else
    let hs := s.heldOf va ps bs
    if !s.me.park.voted && s.overQuota hs then s.implicitVote
    else s.votePoint .release false (storeRecord va bs) k hs sys

/-! ## Wake conditions (R30 of spec/02) -/

/-- QDONE (R323 of spec/21). -/
def State.qdone (s : State) : Word :=
  let es := s.allSlots.flatMap fun e =>
    (match e.2.park.epoch with | some w => [w.toNat] | none => [])
      ++ (e.2.rep.buffer ++ e.2.rep.owned).filterMap fun h => h.epoch.map (·.toNat)
  let es := es ++ s.ports.flatMap fun e =>
    (e.2.waiting.filterMap fun o => match o with
      | .write _ _ _ w _ => w.map (·.toNat)
      | .request _ _ | .result _ _ | .message _ _ _ _ | .reply _ _ _ => none)
      ++ (e.2.writes.filter (!·.done)).filterMap fun w => w.epoch.map (·.toNat)
  BitVec.ofNat 64 (es.foldl Nat.min s.qepoch.toNat - 1)

/-- The free general slots of a core, lowest first (R35 of spec/02). -/
def State.freeSlots (s : State) (core : Nat) : List Nat :=
  ((List.range 6).map (· + 8 * core)).filter fun n => (s.slot n).status == .free

/-- Those of them that a child may take: of a reserved tile the ones that have been free since its reservation (R252 of spec/15). -/
def State.childSlots (s : State) (core : Nat) : List Nat :=
  let t := s.tile (coreTile core)
  (s.freeSlots core).filter fun n => t.reserved.isNone || t.unheld.contains n

/-- The slot a remote SPAWN takes (R35 of spec/02). -/
def State.spawnSlot (s : State) (core : Nat) : Option Nat := (s.childSlots core).head?

/-- A slot is taken: should it become free again while its tile is reserved, it is held (R252 of spec/15). -/
def State.takeSlot (s : State) (n : Nat) : State :=
  s.onTile (slotTile n) fun t => { t with unheld := t.unheld.filter (· != n) }

def Channel.idle (c : Channel) : Bool := c.mode == .busy && c.queue.isEmpty

def State.chan (s : State) (tile ch : Nat) : Channel := Table.val {} ch (s.tile tile).chans
def State.onChan (s : State) (tile ch : Nat) (f : Channel → Channel) : State :=
  s.onTile tile fun t => { t with chans := Table.put ch (f (Table.val {} ch t.chans)) t.chans }

/-- DWAIT's answer for id `t` (R404 of spec/10); none: keep waiting. -/
def Channel.waitValue (c : Channel) (t : Nat) : Option Nat :=
  match c.can with
  | some (a, b) =>
    if a ≤ t && t ≤ b then some 0x306
    else if c.mode = .failed && c.failId ≤ t then some c.failCause
    else if t < c.cdone.toNat then some 0 else none
  | none =>
    if c.mode = .failed && c.failId ≤ t then some c.failCause
    else if t < c.cdone.toNat then some 0 else none

def State.lane (s : State) (l : Nat) : Lane := Table.val {} (l % 8) (s.core (l / 8)).lanes
def State.onLane (s : State) (l : Nat) (f : Lane → Lane) : State :=
  s.onCore (l / 8) fun c => { c with lanes := Table.put (l % 8) (f (Table.val {} (l % 8) c.lanes)) c.lanes }

def Core.pen (c : Core) (p : Nat) : Pen := Table.val {} p c.pens
def Core.setPen (c : Core) (p : Nat) (x : Pen) : Core := { c with pens := Table.put p x c.pens }

/-- Local lanes named by a mask. -/
def maskBits (mask : Nat) : List Nat := (List.range 8).filter fun j => mask / 2 ^ j % 2 = 1

/-- A hurdle's fields (R258 of spec/16). -/
structure Hurdle where
  expect : Nat
  arrived : Nat
  phase : Nat
  scope : Nat
  rest : Nat
  deriving DecidableEq, Repr

def hurdleOf (v : Nat) : Hurdle := ⟨bitsAt v 0 32, bitsAt v 32 32, bitsAt v 64 32, bitsAt v 96 3, v / 2 ^ 99⟩
def Hurdle.word (h : Hurdle) : Nat := h.expect + h.arrived * 2 ^ 32 + h.phase * 2 ^ 64 + h.scope * 2 ^ 96
def Hurdle.ok (h : Hurdle) : Bool :=
  1 ≤ h.expect && h.arrived < h.expect && 1 ≤ h.scope && h.scope ≤ 4 && h.rest == 0

/-- Launches of a context that are not Complete (R433 of spec/14). -/
def Ctx.openLaunches (c : Ctx) : Nat := (c.units.filter fun u => u.2.level == 0 && u.2.state != .complete).length

def State.canSend (s : State) (n : Nat) : Bool :=
  let x := s.slot n
  x.lease != .waiting && x.lease != .lapsed

/-- The condition a parked slot waits for holds. A send, a retry, a vote and a bellwether end by their events alone. -/
def State.waitHolds (s : State) (n : Nat) (w : Wait) : Bool :=
  let s := { s with agent := n }
  let c := s.myCore
  match w with
  | .operands srcs dsts => s.operandsReady srcs dsts
  | .mailboxEmpty m => !c.mbFull.getLsbD m.val
  | .mailboxFull mask => (List.range 4).any fun m => mask / 2 ^ m % 2 = 1 && c.mbFull.getLsbD m
  | .walk d asid vp _ | .walker d asid vp => !(s.walks.any (·.of d asid vp))
  | .writesLeave => !s.writesHeld
  | .fullEmpty pa full => s.feFull pa == full
  | .monitor dl => s.me.mon.any (·.2.written) || (match dl with | some t => t ≤ s.clock | none => false)
  | .spawnSlot core => (s.spawnSlot core).isSome
  | .enginesDone => s.enginesDone n
  | .crook => s.me.lease == .holding
  | .matrixRoom => s.me.lease != .holding || (s.tile s.myTileNum).crook.queue.length < 4
  | .channelRoom ch => (s.chan s.myTileNum ch.val).queue.length < 8
  | .transfer ch t => ((s.chan s.myTileNum ch.val).waitValue t).isSome
  | .lanes mask => (maskBits mask).all fun j => (s.lane (8 * s.myCoreNum + j)).mode == .idle
  | .ddeRoom => s.me.dde < 4
  | .pen p => !(c.pen p.val).msgs.isEmpty
  | .penRoom core p => ((s.core core).pen p).msgs.length < 4 || ((s.core core).pen p).fault
  | .launchRoom => match s.ctx (s.asidOf n) with | some x => x.openLaunches < 4096 | none => true
  | .hurdle pa phase =>
      let h := hurdleOf (leNat (memRead s.mem pa 16))
      !h.ok || h.phase != phase
  | .clockRead => s.isBell s.me && (s.twins s.me).length == s.liveReplicas s.me
      && (s.twins s.me).all fun y => y.park.wait == some .clockRead
  | .quiet e => e ≤ s.qdone
  | .answer _ _ => s.me.park.answered
  | .penAnswer | .penRetry _ _ | .vote | .bellwether => false

end Sys2Proof.Machine
end

