-- ==== Sys2Proof/Machine/Flags.lean ====
section
/-! DEFINITION. The conditions of the compares and the operations on predicates and the predicate word (R137 and R374 of
spec/07). The machine's flags are the predicates p0 to p15 (R54 of spec/03). -/

namespace Sys2Proof.Machine

open Sys2Proof

/-- EQ, NE, LT and GE, the last two signed (R137 of spec/07). -/
def CmpCond.holds : CmpCond → Word → Word → Bool
  | .eq, x, y => x == y
  | .ne, x, y => x != y
  | .lt, x, y => x.slt y
  | .ge, x, y => !x.slt y

/-- LTU, GEU, TSTZ and TSTNZ (R137 of spec/07). -/
def CmpuCond.holds : CmpuCond → Word → Word → Bool
  | .ltu, x, y => x.ult y
  | .geu, x, y => !x.ult y
  | .tstz, x, y => x &&& y == 0
  | .tstnz, x, y => x &&& y != 0

/-- The conditions of CMPI (R137 of spec/07). -/
def CmpiCond.holds : CmpiCond → Word → Word → Bool
  | .signed c, x, y => CmpCond.holds c x y
  | .unsigned c, x, y => CmpuCond.holds c x y

/-- The bit operations of PLOG and VMASK (R374 of spec/07, R388 of spec/08). -/
def BitOp.bit : BitOp → Bool → Bool → Bool
  | .and, a, b => a && b
  | .or, a, b => a || b
  | .xor, a, b => a != b
  | .andn, a, b => a && !b

/-- The predicate word, whose bit 0 reads 1 (R54 of spec/03). -/
def Slot.predWord (x : Slot) : Word := (x.p ||| 1#16).setWidth 64

/-- A compare: operands, then the predicate; a write to p0 is discarded. -/
def State.setPredDone (s : State) (p : Fin 16) (b : Bool) : Out := .next (s.onUs fun x => (x.setPred p.val b).complete)

end Sys2Proof.Machine
end

