-- ==== Sys2Proof/Machine/Operands.lean ====
section
/-! DEFINITION. Operand forms: target fields, effective addresses and immediates (R118, R124, R125, R127 of spec/07,
R260 of spec/16). -/

namespace Sys2Proof.Machine

open Sys2Proof

/-- Rel(pc, f) of R118 of spec/07: the field's low five bits are a head index, the rest a signed line offset. -/
def relTarget {n : Nat} (pc : Word) (f : BitVec n) : Word :=
  BitVec.ofInt 64 (((pc.toNat / 64 : Nat) + f.toInt / 32) * 64 + 2 * (f.toNat % 32 : Nat))

/-- The address of the addressing layout (R125 of spec/07). -/
def effAddr (b c : Word) (ss : Fin 4) (disp : BitVec 18) : Word := b + (c <<< ss.val) + sextWord disp

/-- A base and a signed displacement (R127 of spec/07, R260 of spec/16). -/
def baseDisp {n : Nat} (b : Word) (disp : BitVec n) : Word := b + sextWord disp

/-- Bytes of an access size (R125 of spec/07). -/
def sizeBytes : MemSize → Nat
  | .b => 1 | .h => 2 | .w => 4 | .d => 8 | .q => 16

/-- The number after register `o` (the second half of a .Q operand). -/
def opndNext : Opnd → Opnd
  | .g n => .g (n + 1)
  | o => o

/-- The scope code of R105 of spec/06 is core or wider. -/
def scopeWide : Scope → Bool
  | .slot => false
  | _ => true

end Sys2Proof.Machine
end

