-- ==== Sys2Proof/Machine/Integer.lean ====
section
/-! DEFINITION. Integer arithmetic, immediates and compares (R122 to R124, R137 of spec/07). -/

namespace Sys2Proof.Machine

open Sys2Proof

/-- G[A] := f(x, y), with x and y the sources B and C (R122 of spec/07). -/
def alu2 (f : Word → Word → Word) (a : Opnd) (b c : Src) (s : State) : Out :=
  s.operands [b, c] [a] fun vs s => s.finish a (f (arg vs 0) (arg vs 1))

/-- The unary form. -/
def alu1 (f : Word → Word) (a : Opnd) (b : Src) (s : State) : Out :=
  s.operands [b] [a] fun vs s => s.finish a (f (arg vs 0))

/-- The guarded immediate form (R124 of spec/07). -/
def aluImm (f : Word → Word → Word) (gd : Guard) (a : Opnd) (b : Src) (v : Word) (s : State) : Out :=
  s.guarded gd fun s => s.operands [b] [a] fun vs s => s.finish a (f (arg vs 0) v)

/-- Bits [127:64] of the signed product. -/
def mulhSigned (x y : Word) : Word := BitVec.ofInt 64 (x.toInt * y.toInt / 2 ^ 64)
/-- Bits [127:64] of the unsigned product. -/
def mulhUnsigned (x y : Word) : Word := BitVec.ofNat 64 (x.toNat * y.toNat / 2 ^ 64)

/-- Division never traps (R123 of spec/07): by 0 a quotient is all ones and a remainder is x. -/
def divSigned (x y : Word) : Word := if y = 0 then BitVec.allOnes 64 else x.sdiv y
def divUnsigned (x y : Word) : Word := if y = 0 then BitVec.allOnes 64 else x / y
def remSigned (x y : Word) : Word := if y = 0 then x else x.srem y
def remUnsigned (x y : Word) : Word := if y = 0 then x else x % y

/-- Shifts by y[5:0] (R122 of spec/07). -/
def shiftBy (k : ShiftKind) (x : Word) (n : Nat) : Word :=
  match k with
  | .shl => x <<< n
  | .shr => x >>> n
  | .sar => x.sshiftRight n
  | .ror => x.rotateRight n

/-- The amount y[5:0]. -/
def shiftAmount (y : Word) : Nat := y.toNat % 64

/-- Signed and unsigned minimum and maximum. -/
def minSigned (x y : Word) : Word := if x.slt y then x else y
def maxSigned (x y : Word) : Word := if x.slt y then y else x
def minUnsigned (x y : Word) : Word := if x.ult y then x else y
def maxUnsigned (x y : Word) : Word := if x.ult y then y else x

/-- Counts of leading zeros, set bits and trailing zeros, 0 to 64. -/
def leadingZeros (x : Word) : Word :=
  BitVec.ofNat 64 ((List.range 64).takeWhile fun i => !x.getLsbD (63 - i)).length
def setBits (x : Word) : Word := BitVec.ofNat 64 ((List.range 64).filter fun i => x.getLsbD i).length
def trailingZeros (x : Word) : Word := BitVec.ofNat 64 ((List.range 64).takeWhile fun i => !x.getLsbD i).length

def execAdd (a : Opnd) (b c : Src) (s : State) : Out := alu2 (· + ·) a b c s
def execSub (a : Opnd) (b c : Src) (s : State) : Out := alu2 (· - ·) a b c s
def execMul (a : Opnd) (b c : Src) (s : State) : Out := alu2 (· * ·) a b c s
def execMulh (a : Opnd) (b c : Src) (s : State) : Out := alu2 mulhSigned a b c s
def execMulhu (a : Opnd) (b c : Src) (s : State) : Out := alu2 mulhUnsigned a b c s
def execDiv (a : Opnd) (b c : Src) (s : State) : Out := alu2 divSigned a b c s
def execDivu (a : Opnd) (b c : Src) (s : State) : Out := alu2 divUnsigned a b c s
def execRem (a : Opnd) (b c : Src) (s : State) : Out := alu2 remSigned a b c s
def execRemu (a : Opnd) (b c : Src) (s : State) : Out := alu2 remUnsigned a b c s
def execAnd (a : Opnd) (b c : Src) (s : State) : Out := alu2 (· &&& ·) a b c s
def execOr (a : Opnd) (b c : Src) (s : State) : Out := alu2 (· ||| ·) a b c s
def execXor (a : Opnd) (b c : Src) (s : State) : Out := alu2 (· ^^^ ·) a b c s
def execShl (a : Opnd) (b c : Src) (s : State) : Out := alu2 (fun x y => shiftBy .shl x (shiftAmount y)) a b c s
def execShr (a : Opnd) (b c : Src) (s : State) : Out := alu2 (fun x y => shiftBy .shr x (shiftAmount y)) a b c s
def execSar (a : Opnd) (b c : Src) (s : State) : Out := alu2 (fun x y => shiftBy .sar x (shiftAmount y)) a b c s
def execRor (a : Opnd) (b c : Src) (s : State) : Out := alu2 (fun x y => shiftBy .ror x (shiftAmount y)) a b c s
def execMin (a : Opnd) (b c : Src) (s : State) : Out := alu2 minSigned a b c s
def execMax (a : Opnd) (b c : Src) (s : State) : Out := alu2 maxSigned a b c s
def execMinu (a : Opnd) (b c : Src) (s : State) : Out := alu2 minUnsigned a b c s
def execMaxu (a : Opnd) (b c : Src) (s : State) : Out := alu2 maxUnsigned a b c s
def execClz (a : Opnd) (b : Src) (s : State) : Out := alu1 leadingZeros a b s
def execPopc (a : Opnd) (b : Src) (s : State) : Out := alu1 setBits a b s
def execCtz (a : Opnd) (b : Src) (s : State) : Out := alu1 trailingZeros a b s

/-- v = sext(IMM20) (R124 of spec/07). -/
def execAddi (gd : Guard) (a : Opnd) (b : Src) (imm : BitVec 20) (s : State) : Out :=
  aluImm (· + ·) gd a b (sextWord imm) s
def execAndi (gd : Guard) (a : Opnd) (b : Src) (imm : BitVec 20) (s : State) : Out :=
  aluImm (· &&& ·) gd a b (sextWord imm) s
def execOri (gd : Guard) (a : Opnd) (b : Src) (imm : BitVec 20) (s : State) : Out :=
  aluImm (· ||| ·) gd a b (sextWord imm) s
def execXori (gd : Guard) (a : Opnd) (b : Src) (imm : BitVec 20) (s : State) : Out :=
  aluImm (· ^^^ ·) gd a b (sextWord imm) s
def execShi (gd : Guard) (a : Opnd) (b : Src) (kind : ShiftKind) (amount : Fin 64) (s : State) : Out :=
  aluImm (fun x _ => shiftBy kind x amount.val) gd a b 0 s

/-- P[A] := condition (R137 of spec/07). -/
def execCmp (p : Fin 16) (cc : CmpCond) (b c : Src) (s : State) : Out :=
  s.operands [b, c] [] fun vs s => s.setPredDone p (CmpCond.holds cc (arg vs 0) (arg vs 1))
def execCmpu (p : Fin 16) (cc : CmpuCond) (b c : Src) (s : State) : Out :=
  s.operands [b, c] [] fun vs s => s.setPredDone p (CmpuCond.holds cc (arg vs 0) (arg vs 1))
def execCmpi (gd : Guard) (p : Fin 16) (cc : CmpiCond) (b : Src) (imm : BitVec 16) (s : State) : Out :=
  s.guarded gd fun s => s.operands [b] [] fun vs s =>
    s.setPredDone p (CmpiCond.holds cc (arg vs 0) (sextWord imm))

end Sys2Proof.Machine
end

