-- ==== Sys2Proof/Machine/ControlWords.lean ====
section
/-! DEFINITION. The control words of R41 of spec/02 and R342 of spec/23: what CRD reads and what CWR writes. -/

namespace Sys2Proof.Machine

open Sys2Proof

def bit (b : Bool) (i : Nat) : Nat := if b then 2 ^ i else 0

/-- SLOTID (R41 of spec/02). -/
def State.slotId (s : State) (n : Nat) : Nat :=
  slotIx n + slotCore n % 8 * 2 ^ 3 + slotTile n % 24 * 2 ^ 6 + slotDie n * 2 ^ 11 + s.pkg.toNat * 2 ^ 13

/-- The matrix commands of a thread that are queued, running or kept (R153 of spec/09). -/
def Crook.depth (c : Crook) (tid : Nat) : Nat :=
  (c.queue.filter (·.tid == tid)).length + (c.kept.filter (·.tid == tid)).length

/-- The matrix status of a thread under a tile's crook, with its core's configuration (R153 of spec/09); `n` is its slot where
it stands in one. -/
def State.leaseWord (s : State) (c : Crook) (cfg : MatrixCfg) (n : Option Nat) (x : Slot) : Word :=
  let mine := x.lease == .holding && n.isSome && c.holder == n
  let err := c.err.find? (·.1 == x.tid)
  let cycles := 16384 - (s.clock.toNat - c.grantAt.toNat)
  BitVec.ofNat 64 (
    bit (x.lease == .holding) 0 + bit (x.lease == .waiting) 1 + bit (x.lease == .lapsed) 2 + bit err.isSome 3
    + bit cfg.osat 4 + bit cfg.ta 5
    + (match c.holder with | some h => slotCore h % 8 * 2 ^ 8 | none => 2 ^ 11)
    + c.depth x.tid * 2 ^ 12 + cfg.plen * 2 ^ 15
    + (if mine then c.cmdsLeft * 2 ^ 18 + cycles * 2 ^ 25 else 0)
    + (match err with | some e => e.2.1 * 2 ^ 40 | none => 0))

/-- MLSTAT for slot `n` (R153 of spec/09). -/
def State.mlstat (s : State) (n : Nat) : Word :=
  s.leaseWord (s.tile (slotTile n)).crook (s.core (slotCore n)).mcfg (some n) (s.slot n)

/-- The matrix configuration that a saved thread's core position has kept: with its group (R138 of spec/09), or in its
context's image. -/
def State.savedCfg (s : State) (tid : Nat) : MatrixCfg :=
  let pre := s.groups.findSome? fun e => match e.2 with
    | none => none
    | some g => match g.saved.find? fun p => p.2.tid == tid with
      | none => none
      | some p => (g.savedAcc.find? fun a => a.1 == p.1).map fun a => a.2.2.1
  let image := s.ctxs.findSome? fun e => match e.2 with
    | none => none
    | some c => c.images.findSome? fun i => (i.2.slots.find? fun p => p.2.tid == tid).map fun p =>
        (Table.val ({} : Core) (slotCore p.1) i.2.cores).mcfg
  match pre with
  | some g => g
  | none => image.getD {}

/-- The word an MSTAT delivers under its crook (R151 of spec/09), wherever its thread stands (R29 of spec/02): an error that was met
while it was pending shows, although another instruction may have taken it since (R146). -/
def State.mlstatOf (s : State) (c : Crook) (m : StatWait) (x : Slot) : Word :=
  let c := match m.err with
    | some k => if c.err.any (·.1 == m.tid) then c else { c with err := c.err ++ [(m.tid, k, 0)] }
    | none => c
  match s.slotOfTid x.tid with
  | some n => s.leaseWord c (s.core (slotCore n)).mcfg (some n) x
  | none => s.leaseWord c (s.savedCfg x.tid) none x

/-- A lane's STATUS as read: 8 while running, 6 while parked, else that of its last stop (R171 of spec/11). -/
def Lane.code (l : Lane) : Nat :=
  match l.mode with
  | .idle => l.status
  | .parked _ => 6
  | _ => 8

/-- AELANE (R172 of spec/11). -/
def State.aelane (s : State) (core : Nat) : Word :=
  BitVec.ofNat 64 (((List.range 8).map fun j =>
    let l := s.lane (8 * core + j)
    (l.code + bit l.bound 4) * 2 ^ (8 * j)).sum)

/-- The space state of DDSTAT f = 4 (R425 of spec/12). -/
def spaceState : Option Space → Nat
  | none => 0
  | some x => match x.mode with
    | .suspended => 3
    | .halted => 2
    | .busy => if x.queue.isEmpty && x.susp.isNone then 1 else 2

/-- DDSTS (R425 of spec/12). -/
def State.ddsts (s : State) (n : Nat) : Word :=
  let sp := s.space (slotDie n) (s.asidOf n)
  let x := s.slot n
  let susp := match sp with
    | some y => (match y.susp with | some w => w.1.tid == x.tid | none => false)
    | none => false
  BitVec.ofNat 64 (x.dde + bit sp.isSome 4 + bit susp 5 + spaceState sp * 2 ^ 6)

/-- PENFILL (R41 of spec/02). -/
def Core.penFill (c : Core) : Word :=
  BitVec.ofNat 64 (((List.range 32).map fun p =>
    bit (!(c.pen p).msgs.isEmpty) p + bit ((c.pen p).msgs.length == 4) (p + 32)).sum)

/-- TSTAT (R341 of spec/23). -/
def Slot.tstat (x : Slot) : Word :=
  BitVec.ofNat 64 (bit x.trap.inh 0 + bit x.trap.async 1 + bit x.cpend 2 + Nat.min 255 x.pend.length * 2 ^ 8)

/-- SSTAT (R342 of spec/23). -/
def Slot.sstat (x : Slot) : Word := BitVec.ofNat 64 (bit x.sup.nest 1 + bit x.sup.async 2 + bit x.sup.sinh 3)

/-- REPL (R41 of spec/02). -/
def Slot.repl (x : Slot) : Word := BitVec.ofNat 64 ((x.rep.count - 1) + x.rep.index * 4)

def Slot.rheld (x : Slot) : Word := BitVec.ofNat 64 (heldSectors x.rep.held).length

/-- CDONE and WPTR are read from the tile of the slot. -/
def State.cwChannel (s : State) (n num : Nat) : Word :=
  if num < 0x320 then (s.chan (slotTile n) (num - 0x310)).cdone.setWidth 64
  else (s.chan (slotTile n) (num - 0x320)).wptr

/-- The words of identity and work, 0x000 to 0x00A. In S7 the LCN field holds what its draws use in place of an LCN, and the
word reads 0 (R440 of spec/10). -/
def State.cwIdent (s : State) (n num : Nat) : Word :=
  let i := (s.slot n).id
  match num with
  | 0x000 => BitVec.ofNat 64 (s.slotId n)
  | 0x001 => if slotIx n = 7 then 0 else i.lcn.setWidth 64
  | 0x002 => BitVec.ofNat 64 (slotCore n)
  | 0x003 => BitVec.ofNat 64 (s.asidOf n)
  | 0x004 => i.jobseed
  | 0x005 => s.clock
  | 0x006 => i.groupId.setWidth 64
  | 0x007 => i.gshape.setWidth 64
  | 0x008 => i.launch.setWidth 64
  | 0x009 => BitVec.ofNat 64 i.cls.val
  | _ => i.karg

/-- The context's trap words, 0x100 to 0x105. -/
def Slot.cwTrap (x : Slot) (num : Nat) : Word :=
  match num with
  | 0x100 => x.trap.tcause.setWidth 64
  | 0x101 => x.trap.tpc
  | 0x102 => x.trap.taddr
  | 0x103 => x.trap.tvec
  | 0x104 => x.tstat
  | _ => x.trap.tscratch

/-- The words 0x200 to 0x20B. -/
def State.cwFlow (s : State) (n num : Nat) : Word :=
  let x := s.slot n
  let c := s.core (slotCore n)
  match num with
  | 0x200 => x.loop.lc0
  | 0x201 => x.loop.lb0
  | 0x202 => x.loop.le0
  | 0x203 => x.loop.lc1
  | 0x204 => x.loop.lb1
  | 0x205 => x.loop.le1
  | 0x206 => x.feretry.setWidth 64
  | 0x207 => x.rngCtr
  | 0x208 => BitVec.ofNat 64 (((List.range 8).map fun q => (c.queue q).length * 2 ^ (4 * q)).sum)
  | 0x209 => (x.full ||| 1#32).setWidth 64
  | 0x20A => c.mbFull.setWidth 64
  | _ => BitVec.ofNat 64 x.inl.length

/-- The supervisor's words, 0x500 to 0x508. -/
def State.cwSup (s : State) (n num : Nat) : Word :=
  let x := (s.slot n).sup
  match num with
  | 0x500 => (x.deleg ||| 4#16).setWidth 64
  | 0x501 => x.ptroot
  | 0x502 => x.asid.setWidth 64
  | 0x503 => x.svscratch
  | 0x504 => s.svec
  | 0x505 => x.scause.setWidth 64
  | 0x506 => x.spc
  | 0x507 => x.saddr
  | _ => (s.slot n).sstat

/-- The value of a control word in slot `n`. -/
def State.controlWord (s : State) (n num : Nat) : Word :=
  if num ≤ 0x00A then s.cwIdent n num
  else if num ≤ 0x105 then (s.slot n).cwTrap num
  else if num ≤ 0x20B then s.cwFlow n num
  else if num = 0x300 then s.mlstat n
  else if num = 0x301 then s.aelane (slotCore n)
  else if num = 0x302 then s.ddsts n
  else if num ≤ 0x32F then s.cwChannel n num
  else if num = 0x330 then (s.core (slotCore n)).penFill
  else if num = 0x400 then (s.slot n).repl
  else if num = 0x401 then (s.slot n).rep.earmark
  else if num = 0x402 then (s.slot n).rheld
  else if num = 0x403 then
    (match s.ctx (s.asidOf n) with | some c => BitVec.ofNat 64 (bit c.record.rtest 0) | none => 0)
  else s.cwSup n num

/-- CWR to a trap word: the RW fields (R41 of spec/02, R341 of spec/23). -/
def CtxTrap.write (t : CtxTrap) (num : Nat) (v : Word) : CtxTrap :=
  match num with
  | 0x100 => { t with tcause := v.setWidth 10 }
  | 0x101 => { t with tpc := v }
  | 0x102 => { t with taddr := v }
  | 0x103 => { t with tvec := v }
  | 0x104 => { t with async := v.getLsbD 1 }
  | 0x105 => { t with tscratch := v }
  | _ => t

/-- CWR to a loop word. -/
def Loop.write (l : Loop) (num : Nat) (v : Word) : Loop :=
  match num with
  | 0x200 => { l with lc0 := v }
  | 0x201 => { l with lb0 := v }
  | 0x202 => { l with le0 := v }
  | 0x203 => { l with lc1 := v }
  | 0x204 => { l with lb1 := v }
  | 0x205 => { l with le1 := v }
  | _ => l

/-- CWR to a supervisor word: the SV fields; SINH is RO, DELEG bit 2 reads 1 (R304 of spec/19). -/
def SupTrap.write (t : SupTrap) (num : Nat) (v : Word) : SupTrap :=
  match num with
  | 0x500 => { t with deleg := v.setWidth 16 ||| 4#16 }
  | 0x501 => { t with ptroot := v }
  | 0x502 => { t with asid := v.setWidth 12 }
  | 0x503 => { t with svscratch := v }
  | 0x505 => { t with scause := v.setWidth 10 }
  | 0x506 => { t with spc := v }
  | 0x507 => { t with saddr := v }
  | 0x508 => { t with async := v.getLsbD 2, nest := v.getLsbD 1 }
  | _ => t

/-- The word written last for the slot is the one that was named (R304 of spec/19). -/
def SlotWords.write (b : SlotWords) (num : Nat) (t : SupTrap) : SlotWords :=
  match num with
  | 0x500 => { b with deleg := t.deleg }
  | 0x501 => { b with ptroot := t.ptroot }
  | 0x502 => { b with asid := t.asid }
  | _ => b

/-- CWR's write to the agent's words other than the loop words; a write to an RO word is ignored. -/
def State.writeWord (s : State) (num : Nat) (v : Word) : State :=
  if 0x100 ≤ num && num ≤ 0x105 then s.onMe fun x => { x with trap := x.trap.write num v }
  else if num = 0x206 then s.onMe fun x => { x with feretry := v.setWidth 8 }
  else if num = 0x207 then s.onMe fun x => { x with rngCtr := v }
  else if num = 0x504 then { s with svec := v }
  else if 0x500 ≤ num then s.onMe fun x =>
    let y := x.sup.write num v
    { x with sup := y, base := x.base.write num y }
  else s

/-- The privilege check of R41 of spec/02: 0x500 to 0x5FF at user level. -/
def Slot.privileged (x : Slot) (num : Nat) : Bool := 0x500 ≤ num && num ≤ 0x5FF && !x.sup.sinh

end Sys2Proof.Machine
end

