-- ==== Sys2Proof/Machine/Crook.lean ====
section
/-! DEFINITION. The crook of a tile: grants, bounds, drains, halts and command durations (R142 to R146 of spec/09). -/

namespace Sys2Proof.Machine

open Sys2Proof

def State.onCrook (s : State) (t : Nat) (f : Crook → Crook) : State := s.onTile t fun x => { x with crook := f x.crook }
def State.crook (s : State) (t : Nat) : Crook := (s.tile t).crook

/-- MWLD, MMA, MRD and MCLR count (R142). -/
def MatCmd.counts : MatCmd → Bool
  | .prog _ _ | .cfg _ _ => false
  | _ => true

/-- How many products a cell takes in a cycle (R145). -/
def packing (a b : Nat) : Nat :=
  let small := fun ty => ty == 8 || ty == 9
  if a == 9 && b == 9 then 4 else if small a && small b then 2 else 1

def ceilDiv (a b : Nat) : Nat := (a + b - 1) / b

/-- Cycles a command runs (R145). -/
def State.matCycles (s : State) (t : Nat) (w : MatWork) : Nat :=
  match w.cmd with
  | .prog _ _ | .cfg _ _ => 8
  | .clr _ _ rows => 8 + rows
  | .wld _ _ _ _ n => 32 + n
  | .mma e a _ m cfg =>
    let len := cfg.plen
    let bt := match (s.tile t).weights.find? (·.1 == e) with | some x => x.2.ty | none => 0
    ceilDiv m (if len = 0 then packing a.fmt.ty bt else 1) * (if len = 0 then 1 else len) + 256
  | .rd _ _ _ m n _ => 32 + m * ceilDiv n 32

/-- Slots of a tile that want the crook: Waiting, or with commands kept from a halt (R142). -/
def State.wantsCrook (s : State) (n : Nat) : Bool :=
  let x := s.slot n
  (x.status == .running || x.status == .parked) && !x.haltReq
    && (x.lease == .waiting || (x.lease != .holding && (s.crook (slotTile n)).kept.any (·.tid == x.tid)))

def State.waiters (s : State) (t : Nat) : List Nat :=
  ((List.range 64).map (· + 64 * t)).filter fun n => slotIx n != 7 && s.wantsCrook n

/-- The order of R143: class, then the core's distance from LAST + 1, then the slot. -/
def State.crookRank (s : State) (last n : Nat) : Nat :=
  (s.slot n).id.cls.val * 64 + (slotCore n % 8 + 15 - last) % 8 * 8 + slotIx n

def minBy (f : Nat → Nat) : List Nat → Option Nat
  | [] => none
  | a :: l => match minBy f l with
    | none => some a
    | some b => if f a ≤ f b then some a else some b

/-- The crook goes to a waiter (R143): its kept commands run first and count; one that only has kept commands drains. -/
def State.grant (s : State) (t : Nat) : State :=
  let c := s.crook t
  match c.holder with
  | some _ => s
  | none => match minBy (s.crookRank c.last) (s.waiters t) with
    | none => s
    | some n =>
      let x := s.slot n
      let mine := c.kept.filter (·.tid == x.tid)
      let waiting := x.lease == .waiting
      let work := mine.map fun w => { w with core := slotCore n }
      let s := s.onCrook t fun c => { c with
        holder := some n, draining := !waiting, holderTid := x.tid, grantAt := s.clock
        cmdsLeft := 64 - (mine.filter (·.cmd.counts)).length
        queue := work, kept := c.kept.filter (·.tid != x.tid), started := s.clock + 1 }
      if waiting then s.onSlot n fun x => { x with lease := .holding } else s

/-- The holder lets go once its queue has drained (R142). -/
def State.passCrook (s : State) (t : Nat) : State :=
  let c := s.crook t
  match c.holder with
  | none => s.grant t
  | some n =>
    if c.draining && c.queue.isEmpty then
      (s.onCrook t fun c => { c with holder := none, draining := false, last := slotCore n % 8 }).grant t
    else s

/-- The holder gives the crook up with a new lease state; the crook passes when the queue drains. -/
def State.leaveCrook (s : State) (n : Nat) (l : Lease) : State :=
  let t := slotTile n
  let held := (s.slot n).lease == .holding
  let s := s.onSlot n fun x => { x with lease := l }
  if held then (s.onCrook t fun c => { c with draining := true }).passCrook t else s

/-- Another slot of the tile is waiting. -/
def State.otherWaits (s : State) (t n : Nat) : Bool := (s.waiters t).any (· != n)

/-- The bound is reached (R142): with a waiter the holder lapses, without one the counters start again. -/
def State.leaseBound (s : State) (t : Nat) : State :=
  match (s.crook t).holder with
  | none => s
  | some n =>
    if (s.slot n).lease != .holding then s
    else if s.otherWaits t n then s.leaveCrook n .lapsed
    else s.onCrook t fun c => { c with cmdsLeft := 64, grantAt := s.clock }

/-- What a halt makes of a lease (R142): a Waiting slot is None and a holder lapses. With commands `kept` the slot is Waiting again once
it has been restored, unless it has given its lease up. -/
def Slot.leaseHalted (x : Slot) (kept : Bool) : Slot :=
  { x with relet := kept && x.lease != .none
           lease := match x.lease with | .none | .waiting => .none | .holding | .lapsed => .lapsed }

/-- A halt (R142, R145). Of a slot whose queue runs, the command that runs completes and the others are kept. -/
def State.haltLease (s : State) (n : Nat) : State :=
  let t := slotTile n
  let c := s.crook t
  let kept := c.kept.any (·.tid == (s.slot n).tid)
  if c.holder != some n then s.onSlot n (·.leaseHalted kept)
  else
    let running := c.queue.filter fun w => c.queue.head? == some w && c.started ≤ s.clock
    let rest := c.queue.drop running.length
    let s := s.onCrook t fun c => { c with queue := running, kept := c.kept ++ rest, draining := true }
    (s.onSlot n (·.leaseHalted (kept || !rest.isEmpty))).passCrook t

end Sys2Proof.Machine
end

