-- ==== Sys2Proof/Machine/Work.lean ====
section
/-! DEFINITION. The work hierarchy: the journal and events of the host side that it posts to, units and graphs (spec/14),
groups and placement (spec/15), and how a thread starts, halts and retires. -/

namespace Sys2Proof.Machine

open Sys2Proof

/-! ## Journal and events (R311 to R314 of spec/20) -/

def popcount96 (v : BitVec 96) : Nat := ((List.range 96).filter fun i => v.getLsbD i).length

/-- Where a context's journal ring starts: the 1 MiB that follows its save area (R311). DESIGN CHOICE (log 68): no rule bounds
SAVE, and a ring at or above 768 GiB is kept at that flat address as any other. -/
def Ctx.journalBase (c : Ctx) : Nat := c.record.save + popcount96 c.record.tiles * 2 ^ 23

/-- The journal ring a queue's commands are recorded in: queue 0 has its own. -/
def State.journalOf (s : State) (q : Nat) : Nat :=
  if q = 0 then s.q0journal
  else match s.ctx (Table.val ({} : HQueue) q s.queues).asid with
    | some c => c.journalBase
    | none => 0

def State.queue (s : State) (q : Nat) : HQueue := Table.val {} q s.queues
def State.onQueue (s : State) (q : Nat) (f : HQueue → HQueue) : State :=
  { s with queues := Table.put q (f (s.queue q)) s.queues }

/-- The address of journal record `n` (R311). -/
def recordAt (base n : Nat) : Nat := base + 64 * ((n - 1) % 16384)

/-- The slot of record `n` still holds the record 16,384 before it, which is not final: accepted or started (R313). -/
def State.recordBusy (s : State) (base n : Nat) : Bool :=
  let b := (memByte s.mem (recordAt base n)).toNat % 8
  let seq := leNat (memRead s.mem (recordAt base n + 40) 8)
  seq != 0 && seq + 16384 == n && b ≤ 1

/-- The newest journal number of a queue's journal; an Unbound queue has no context and none (R308). -/
def State.jheadOf (s : State) (q : Nat) : Word :=
  if q = 0 then s.q0jhead
  else if (s.queue q).state = .unbound then 0
  else match s.ctx (s.queue q).asid with | some c => c.jhead | none => 0

/-- The Waiting queues of a journal leave that state once their slot is no longer busy (R313). -/
def State.recheckQueues (s : State) (base : Nat) : State :=
  { s with queues := s.queues.map fun e =>
      (e.1, if e.2.state == .waiting && s.journalOf e.1 == base && !(s.recordBusy (s.journalOf e.1) ((s.jheadOf e.1).toNat + 1))
            then { e.2 with state := .active } else e.2) }

/-- A state change of record `n` of the journal at `base` (R312): STATE, CAUSE, RESULT and TIME. -/
def State.journalTo (s : State) (base n st cause : Nat) (result : Option Nat) : State :=
  let a := recordAt base n
  let w0 := leNat (memRead s.mem a 8)
  let w0' := w0 / 8 * 8 % 2 ^ 32 + st + cause * 2 ^ 32
  let s := s.store a (leBytes w0' 8)
  let s := match result with | some r => s.store (a + 32) (leBytes r 8) | none => s
  (s.store (a + 56) (leBytes s.clock.toNat 8)).recheckQueues base

/-- RESULT of record `n` of the journal at `base`: the handle a command has made. Its STATE stands, and so TIME does (R312). -/
def State.journalResult (s : State) (base n r : Nat) : State := s.store (recordAt base n + 32) (leBytes r 8)

/-- The lowest-numbered queue bound to a context (R314). -/
def State.boundQueue (s : State) (asid : Nat) : Nat :=
  match s.queues.find? fun e => e.1 != 0 && e.2.state != .unbound && e.2.asid == asid with
  | some e => e.1
  | none => 0

/-- Dword `i` of the MSI-X table (R328 of spec/22); a vector's mask bit is 1 after reset (log 8). -/
def State.msixDword (s : State) (i : Nat) : BitVec 32 := Table.val (if i % 4 = 3 then 1 else 0) i s.host.msixTable

/-- Post an event (R314, R330 of spec/22): DATA is given from bit 128 up. A full ring drops it and counts EVLOST; so does
queue 0 before it is bound, when it has no ring. -/
def State.postEvent (s : State) (asid kind handle data : Nat) : State :=
  let q := if kind = 5 then 0 else s.boundQueue asid
  let x := s.queue q
  if x.state = .unbound || (x.evwp - x.evrp).toNat = x.evsize then s.onQueue q fun x => { x with evlost := x.evlost + 1 }
  else
    let a := Config.hostBase + x.evbase + 64 * (x.evwp.toNat % x.evsize)
    let w := kind + asid * 2 ^ 8 + handle * 2 ^ 32 + s.clock.toNat * 2 ^ 64 + data * 2 ^ 128
    let s := (s.store a (leBytes w 64)).onQueue q fun x => { x with evwp := x.evwp + 1 }
    if (s.msixDword (4 * q + 3)).getLsbD 0 then
      { s with host := { s.host with msixPend := Table.put q true s.host.msixPend } }
    else { s with host := { s.host with msixSent := q :: s.host.msixSent } }

/-! ## Units (R233, R239, R240 of spec/14) -/

def handleOf (level number : Nat) : Nat := level * 2 ^ 30 + number

def Ctx.unit (c : Ctx) (h : Nat) : Option WorkUnit := (c.units.find? (·.1 == h)).map (·.2)
def State.unit (s : State) (asid h : Nat) : Option WorkUnit :=
  match s.ctx asid with | some c => c.unit h | none => none
def State.onUnit (s : State) (asid h : Nat) (f : WorkUnit → WorkUnit) : State :=
  s.onCtx asid fun c => { c with units := c.units.map fun e => if e.1 = h then (e.1, f e.2) else e }

/-- The next number of a level. -/
def Ctx.next (c : Ctx) (level : Nat) : Nat := c.nextNum.getD level 1

/-- Drop the earliest-created Complete unit when a new record would exceed 65,536 (R233). DESIGN CHOICE (log 46): where no unit
of the context is Complete none is dropped, and the record is kept beyond that number. -/
def Ctx.makeRoom (c : Ctx) : Ctx :=
  if c.units.length < 65536 then c
  else match minBy (fun h => match c.unit h with | some u => u.born | none => 0)
      ((c.units.filter fun u => u.2.state == .complete).map (·.1)) with
    | some h => { c with units := Table.del h c.units }
    | none => c

/-- Give a unit the next number of its level. -/
def Ctx.addUnit (c : Ctx) (u : WorkUnit) : Ctx × Nat :=
  let c := c.makeRoom
  let h := handleOf u.level (c.next u.level)
  ({ c with units := Table.put h { u with born := c.nextBorn } c.units, nextBorn := c.nextBorn + 1
            nextNum := c.nextNum.set u.level (c.next u.level + 1) }, h)

/-- What happens to the hierarchy, in order. -/
inductive WorkEv where
  /-- The unit has become startable (R239). -/
  | start (h : Nat)
  /-- Count children against the total (R239, R240). -/
  | check (h : Nat)
  /-- The unit is Complete: its parent counts it. -/
  | counted (h : Nat)
  /-- A node's incoming edges are resolved, or the graph became Active (R237). -/
  | node (h n : Nat)
  /-- A host-event or conditional node releases at system scope (R242), and completes: at once, or when the last remote write that
  waits behind a pause has left. -/
  | release (h n : Nat)
  /-- A node has completed: normally, or by cancel or prune. -/
  | nodeEnd (h n : Nat) (normal : Bool)
  /-- The CANCEL event (R239). -/
  | cancel (h : Nat)

/-! ## Threads start and stop -/

/-- A thread starts in a slot (R304 of spec/19, R27 and R41 of spec/02): start registers, no handler, the slot's
supervisor words. -/
def Slot.start (x : Slot) (pc : Word) (id : Ident) (tid : Nat) : Slot :=
  { status := .running, tid := tid, pc := pc, id := id
    base := x.base
    sup := { x.sup with deleg := x.base.deleg, ptroot := x.base.ptroot, asid := x.base.asid
                        sinh := false, nest := false, async := false } }

/-- Free a slot (R30 of spec/02): the supervisor's words stay with the slot (R304 of spec/19). -/
def Slot.freed (x : Slot) : Slot :=
  { x with status := .free, park := {}, kept := [], pend := [], cpend := false, loop := {}, mon := [], inl := []
           trap := { x.trap with inh := false }, sup := { x.sup with sinh := false }, rep := {}, tid := 0
           lease := .none, relet := false, haltReq := false, eng := 0, dde := 0, comps := [], lost := none }

/-- Halt slots at their instruction boundaries (R30, R38, R39 of spec/02). DESIGN CHOICE (log 92): the halt reaches all of them before
any crook that one of them frees is granted, so none of them is granted it. -/
def State.haltSlots (s : State) (ns : List Nat) : State :=
  ns.foldl (fun s n => s.haltLease n) (ns.foldl (fun s n => s.onSlot n Slot.halt) s)

/-- Restore a halted slot (R30 of spec/02): every armed monitor reads as written (R372 of spec/07); a slot whose answer has
not arrived is Parked on it (R39), one at a vote point re-enters the same vote (R278 of spec/17), and one with commands kept from
the halt is Waiting (R142 of spec/09). -/
def Slot.restored (x : Slot) : Slot :=
  if x.status = .halted then
    let waits := (x.park.left && !x.park.answered) || x.rep.vote.isSome || x.park.wait == some .bellwether
    { x with status := if waits then .parked else .running
             lease := if x.relet then .waiting else x.lease, relet := false
             mon := x.mon.map fun m => (m.1, { m.2 with written := true }) }
  else x

/-! ## Placement (R248 to R255 of spec/15) -/

/-- Choose `k` of a list, in its order. -/
def State.choose (s : State) : Nat → List Nat → List Nat × State
  | 0, _ => ([], s)
  | k + 1, l =>
    if l.length ≤ k + 1 then (l, s)
    else
      let p := s.pick l.length
      let a := l.getD p.1 0
      let r := p.2.choose k (l.filter (· != a))
      (l.filter fun b => b == a || r.1.contains b, r.2)

def State.launchOf (s : State) (g : Group) : Kernel :=
  match s.unit g.asid (handleOf 0 g.launch) with | some u => u.kernel | none => {}

/-- A core that holds a replicated group's slots is unfit for any other (R267 of spec/17). -/
def State.coreHeld (s : State) (c : Nat) : Bool :=
  (List.range 6).any fun i => (s.slot (8 * c + i)).status != .free && (s.slot (8 * c + i)).rep.count != 0

/-- The cores of a tile with at least `spc` free general slots. -/
def State.fitCores (s : State) (t spc : Nat) : List Nat :=
  ((List.range 8).map (· + 8 * t)).filter fun c => spc ≤ (s.freeSlots c).length && !s.coreHeld c

/-- The context is resident (R307 of spec/19). -/
def State.resident (s : State) (asid : Nat) : Bool :=
  match s.ctx asid with | some c => c.state == .resident | none => false

/-- The group fits the tile (R249): owned, resident, not reserved for another group, enough cores with enough slots. A child that
waits alone (R439) fits its core only while its group is placed and not being pre-empted (DESIGN CHOICE, log 89). -/
def State.fits (s : State) (g : Nat) (x : Group) (t : Nat) : Bool :=
  let k := s.launchOf x
  s.resident x.asid && (s.tile t).owner == some x.asid
    && ((s.tile t).reserved == none || (s.tile t).reserved == some g)
    && (match x.loneCore with
        | some c => coreTile c == t && !(s.freeSlots c).isEmpty && !s.coreHeld c
            && (match x.parent with
              | some p => (match s.group p with | some y => y.state == .placed && !y.preempt | none => false)
              | none => false)
        | none => k.cpg ≤ (s.fitCores t k.spc).length)

def State.dieTiles (die : Nat) : List Nat := (List.range 24).map (· + 24 * die)

/-- GSHAPE (R41 of spec/02). -/
def gshapeOf (cpg spc pos logical : Nat) : BitVec 13 :=
  BitVec.ofNat 13 (cpg + spc * 2 ^ 4 + pos * 2 ^ 7 + logical * 2 ^ 10)

/-- The thread at core position `pos`, logical slot `i` of a group. -/
def State.identOf (s : State) (g : Nat) (x : Group) (pos i : Nat) : Ident :=
  let k := s.launchOf x
  let u := s.unit x.asid (handleOf 0 x.launch)
  let parent := fun (h : Nat) => match s.unit x.asid h with | some u => u.parent | none => 0
  let graph := match u with | some u => u.parent | none => 0
  { graph, phase := parent graph, job := parent (parent graph)
    lcn := BitVec.ofNat 32 (x.index * k.cpg + pos), jobseed := match u with | some u => u.jobseed | none => 0
    groupId := BitVec.ofNat 32 x.index, gshape := gshapeOf k.cpg k.spc pos i
    launch := BitVec.ofNat 32 (handleOf 0 x.launch), cls := x.cls, karg := k.karg, logical := i, group := some g }

/-- Start the threads of one core of a new group in ascending physical slot order (R33 of spec/02). -/
def State.startCore (s : State) (g : Nat) (x : Group) (pos : Nat) (slots : List Nat) : State :=
  let k := s.launchOf x
  slots.zipIdx.foldl (fun s e =>
    let y := (s.slot e.1).start k.entry (s.identOf g x pos e.2) s.nextTid
    let y := if k.repl = 0 then y
      else { y with rep := { count := k.repl, index := x.replica, ckpt := some y.checkpoint } }
    { s.setSlot e.1 y with nextTid := s.nextTid + 1 }) s

/-- A saved thread goes on in a slot; the words the supervisor wrote for the slot stay there (R304 of spec/19). -/
def State.resumeIn (s : State) (n : Nat) (y : Slot) : State := s.setSlot n { y.restored with base := (s.slot n).base }

/-- Give back the saved threads of one core position (R34 of spec/02), with what follows the position (R138 of spec/09). -/
def State.resumeCore (s : State) (x : Group) (pos core : Nat) (slots : List Nat) : State :=
  let imgs := (x.saved.filter (·.1 == pos)).map (·.2)
  let s := (slots.zip imgs).foldl (fun (s : State) (e : Nat × Slot) => s.resumeIn e.1 e.2) s
  match x.savedAcc.find? (·.1 == pos) with
  | some a =>
    (s.onCore core fun c => { c with acc := a.2.1, mcfg := a.2.2.1 }).onTile (coreTile core) fun t => { t with
      weights := a.2.2.2.foldl (fun l e => Table.put e.1 { e.2 with core := core } l) t.weights }
  | none => s

/-- Commands kept from a halt run under the crook of the tile where their thread now stands (R142 of spec/09), with the
MSTATs and the deferred errors of those threads. -/
def State.moveKept (s : State) (t : Nat) (tids : List Nat) : State :=
  let of_ := fun (tid : Nat) => tids.contains tid
  let kept := s.tiles.flatMap fun e => e.2.crook.kept.filter fun w => of_ w.tid
  let stats := s.tiles.flatMap fun e => e.2.crook.mstat.filter fun m => of_ m.tid
  let errs := s.tiles.flatMap fun e => e.2.crook.err.filter fun m => of_ m.1
  if kept.isEmpty && stats.isEmpty && errs.isEmpty then s
  else
    let s : State := { s with tiles := s.tiles.map fun (e : Nat × Tile) =>
      (e.1, { e.2 with crook := { e.2.crook with
        kept := e.2.crook.kept.filter fun w => !of_ w.tid
        mstat := e.2.crook.mstat.filter fun m => !of_ m.tid
        err := e.2.crook.err.filter fun m => !of_ m.1 } }) }
    (s.onCrook t fun c => { c with kept := c.kept ++ kept, mstat := c.mstat ++ stats, err := c.err ++ errs }).grant t

/-- A new group record. -/
def State.addGroup (s : State) (x : Group) : State × Nat :=
  ({ s with groups := Table.put s.nextGroup (some x) s.groups, nextGroup := s.nextGroup + 1 }, s.nextGroup)

/-- A saved child resumes on the core it was spawned on, or waits for that core alone, with the group's entry time (R439). DESIGN
CHOICE (log 89): it does so too where that core is also one of the group's new cores. -/
def State.placeKid (s : State) (g : Nat) (x : Group) (e : Nat × Slot) : State :=
  let free := if s.coreHeld e.1 then [] else s.childSlots e.1
  match (s.choose 1 free).1 with
  | n :: _ => (((s.choose 1 free).2.takeSlot n).resumeIn n e.2).moveKept (coreTile e.1) [e.2.tid]
  | [] => (s.addGroup { x with
      loneCore := some e.1, parent := some g, saved := [(0, e.2)], kids := [], savedAcc := [], preempt := false, doomed := false
      state := .queued, reserve := none, stalled := false, die := coreTile e.1 / 24, threads := 0 }).1

/-- The group has been placed before and threads of it stand saved: its own, or children alone (R439). -/
def Group.begun (x : Group) : Bool := !x.saved.isEmpty || !x.kids.isEmpty

/-- A set whose replicas have all been placed leaves Forming (R281 of spec/17). -/
def State.formSets (s : State) (g : Nat) : State :=
  { s with sets := s.sets.map fun r =>
      if r.members.contains g && r.members.all (fun m => match s.group m with
          | some y => y.state != .queued || y.begun
          | none => true) then { r with formed := true } else r }

/-- Place a group on a tile (R249, R251); its saved children go back to their own cores (R439). -/
def State.placeOn (s : State) (g : Nat) (x : Group) (t : Nat) : State :=
  let k := s.launchOf x
  let fresh := !x.begun && x.loneCore.isNone
  let cs := match x.loneCore with
    | some c => ([c], s)
    | none => s.choose k.cpg (s.fitCores t k.spc)
  let s := cs.1.zipIdx.foldl (fun s e =>
    let sl := s.choose (if x.loneCore.isSome then 1 else k.spc) (s.freeSlots e.1)
    if fresh then sl.2.startCore g x e.2 sl.1 else sl.2.resumeCore x e.2 e.1 sl.1) cs.2
  let s := s.onGroup g fun x => { x with
    state := .placed, saved := [], savedAcc := [], kids := [], reserve := none, stalled := false, placedOn := some t
    threads := if fresh then k.cpg * k.spc else x.threads }
  let s := if x.reserve.isSome then s.onTile t fun y => { y with reserved := none } else s
  let s := (s.moveKept t (x.saved.map (·.2.tid))).formSets g
  -- a lone child is a record of its own only while it waits (R439)
  if x.loneCore.isSome then { s with groups := Table.del g s.groups }
  else x.kids.foldl (fun s e => s.placeKid g x e) s

/-- Queued groups of a die in the order of the pass: class, then entry time, then record (R250, R251). -/
def State.queuedOn (s : State) (die : Nat) : List (Nat × Group) :=
  let qs := s.groups.filterMap fun e => match e.2 with
    | some x => if x.die = die && x.state == .queued then some (e.1, x) else none
    | none => none
  let ins := fun (e : Nat × Group) (l : List (Nat × Group)) =>
    let key := fun (e : Nat × Group) => (e.2.cls.val * 2 ^ 64 + e.2.entry.toNat) * 2 ^ 32 + e.1
    l.takeWhile (fun f => key f ≤ key e) ++ e :: l.dropWhile (fun f => key f ≤ key e)
  qs.foldl (fun l e => ins e l) []

/-- Cycles of a microsecond. -/
def usCycles (n : Nat) : Nat := n * 1800

def State.placeAge (s : State) (asid : Nat) : Nat :=
  match s.ctx asid with
  | some c => usCycles (if c.record.placeAge = 0 then 1000 else c.record.placeAge)
  | none => usCycles 1000

/-- General slots to be freed for a core to have `spc` free ones; one that holds a replicated group is unfit until its slots
are free (R267 of spec/17). -/
def State.coreLacking (s : State) (c spc : Nat) : Nat :=
  let held := ((List.range 6).filter fun i =>
    (s.slot (8 * c + i)).status != .free && (s.slot (8 * c + i)).rep.count != 0).length
  Nat.max held (spc - (s.freeSlots c).length)

/-- General slots to be freed for the group to fit a tile (R254). -/
def State.lacking (s : State) (x : Group) (t : Nat) : Nat :=
  let k := s.launchOf x
  let need := ((List.range 8).map (· + 8 * t)).map fun c => s.coreLacking c k.spc
  let sorted := need.foldl (fun l a => l.takeWhile (· ≤ a) ++ a :: l.dropWhile (· ≤ a)) []
  match x.loneCore with
  | some c => if coreTile c = t then s.coreLacking c 1 else 1000
  | none => (sorted.take k.cpg).sum

/-- Reserve a tile for an aged group (R254): the one that needs the fewest slots freed, the lowest of equals. -/
def State.reserveFor (s : State) (g : Nat) (x : Group) : State :=
  if x.reserve.isSome || s.clock.toNat - x.entry.toNat < s.placeAge x.asid then s
  else
    let ts := (State.dieTiles x.die).filter fun t =>
      (s.tile t).owner == some x.asid && (s.tile t).reserved == none
        && (match x.loneCore with | some c => coreTile c == t | none => true)
    match minBy (s.lacking x) ts with
    | none => s
    | some t =>
      let open_ := ((List.range 8).map (· + 8 * t)).flatMap s.freeSlots
      (s.onTile t fun y => { y with reserved := some g, unheld := open_ }).onGroup g fun x =>
        { x with reserve := some (t, s.clock) }

/-- One placement pass of a die (R251), and the reservations that aged groups then take (R254). -/
def State.passOnce (s : State) (die : Nat) : State :=
  let s := (s.queuedOn die).foldl (fun s e =>
    match s.group e.1 with
    | none => s
    | some x => match x.reserve with
      | some r => if s.fits e.1 x r.1 then s.placeOn e.1 x r.1 else s
      | none =>
        let ts := (State.dieTiles die).filter (s.fits e.1 x)
        if ts.isEmpty then s
        else
          let p := s.pick ts.length
          p.2.placeOn e.1 x (ts.getD p.1 0)) s
  (s.queuedOn die).foldl (fun s e => match s.group e.1 with | some x => s.reserveFor e.1 x | none => s) s

/-- The reservations on a die's tiles. -/
def State.reservations (s : State) (die : Nat) : List (Option Nat) := (State.dieTiles die).map fun t => (s.tile t).reserved

/-- Passes of a die: one more for as long as the pass before has made or ended a reservation (R251). -/
def State.passes (s : State) (die : Nat) : Nat → State
  | 0 => s
  | n + 1 =>
    let t := s.passOnce die
    if t.reservations die == s.reservations die then t else t.passes die n

/-- The passes of a die. Each further one follows a reservation made or ended, and a group makes and ends at most one. -/
def State.diePass (s : State) (die : Nat) : State := s.passes die (2 * (s.queuedOn die).length + 1)

/-- A child that waits alone on a die could go on now. -/
def State.loneFits (s : State) (die : Nat) : Bool :=
  (s.queuedOn die).any fun e => e.2.loneCore.isSome && (State.dieTiles die).any (s.fits e.1 e.2)

/-- The placement pass of a die, and of every other on which a child waits for a group that it has placed (R439). -/
def State.placePass (s : State) (die : Nat) : State :=
  (List.range Config.dies).foldl (fun s d => if d != die && s.loneFits d then s.diePass d else s) (s.diePass die)

/-- The dies on which a context owns tiles (R248). -/
def Ctx.dies (c : Ctx) : List Nat :=
  (List.range 4).filter fun d => (List.range 24).any fun t => c.record.tiles.getLsbD (24 * d + t)

/-- The groups of a launch enter the run queues (R248); a replicated group is a set of replicas (R266 of spec/17). -/
def State.enqueueGroups (s : State) (asid number : Nat) (k : Kernel) : State :=
  let ds := match s.ctx asid with | some c => c.dies | none => []
  if ds.isEmpty then s
  else
    let die := fun i => ds.getD (i % ds.length) 0
    let s := (List.range k.groups).foldl (fun s i =>
      let mk := fun (r : Nat) => ({ asid, launch := number, index := i, replica := r, die := die (i + r)
                                    cls := k.cls, entry := s.clock } : Group)
      if k.repl = 0 then (s.addGroup (mk 0)).1
      else
        let r := (List.range k.repl).foldl (fun (p : State × List Nat) r =>
          let q := p.1.addGroup (mk r)
          (q.1, p.2 ++ [q.2])) (s, [])
        { r.1 with sets := r.1.sets ++ [⟨asid, number, i, k.repl, r.2, List.replicate k.repl true, 0, false⟩] }) s
    (List.range 4).foldl (fun s d => s.placePass d) s

/-- A group of the launch has threads that run, or run again: placed, or halted with saved threads. -/
def State.groupsOf (s : State) (asid number : Nat) : List (Nat × Group) :=
  s.groups.filterMap fun e => match e.2 with
    | some x => if x.asid == asid && x.launch == number then some (e.1, x) else none
    | none => none

/-- End a group without running it again: its reservation ends (R257). The pass that follows (R251) is its caller's, when all
that ends with it has ended. -/
def State.endGroup (s : State) (g : Nat) (x : Group) (st : GState) : State :=
  let s := s.onGroup g fun x => { x with
    state := st, reserve := none, saved := [], kids := [], preempt := false, doomed := false }
  match x.reserve with
  | some r => s.onTile r.1 fun y => { y with reserved := if y.reserved == some g then none else y.reserved }
  | none => s

/-! ## The settlement of the hierarchy (R237 to R241 of spec/14) -/

def WorkUnit.over (u : WorkUnit) : Bool := u.count + u.pruned == u.total

/-- A copy node of a unit has started and not ended (R310 of spec/20): of the graph, or of one below a phase or job. -/
def State.copyRuns (s : State) (asid h : Nat) : Bool :=
  let kids := fun k => match s.unit asid k with | some v => v.kids | none => []
  let graphs := match h / 2 ^ 30 with
    | 0 => []
    | 1 => [h]
    | 2 => kids h
    | _ => (kids h).flatMap kids
  graphs.any fun g => match s.unit asid g with
    | some v => v.nodes.any fun x => x.kind == .copy && x.state == .running
    | none => false

/-- The final state of a unit's journal record is written once the unit's writes are performed at system scope (R312 of spec/20): while
remote writes wait behind a pause, or a copy node that a cancel found started goes on, the record waits for them. -/
def State.journalEnd (s : State) (asid h : Nat) (u : WorkUnit) (cancelled : Bool) : State :=
  let st := if cancelled then 3 else 2
  match u.journal with
  | none => s
  | some j =>
    if s.writesHeld || s.copyRuns asid h then { s with journalDue := s.journalDue ++ [⟨j.1, j.2, st, asid, h⟩] }
    else s.settleAll.journalTo j.1 j.2 st 0 none

/-- Make a unit Complete: its journal record becomes final (R312). A launch that ends Pending has its groups discarded, and each counts
as complete (R31 of spec/02; log 77). -/
def State.completeUnit (s : State) (asid h : Nat) (cancelled : Bool) : State :=
  match s.unit asid h with
  | none => s
  | some u =>
    let count := if u.level == 0 && u.state == .pending then u.total else u.count
    (s.onUnit asid h fun u => { u with state := .complete, cancelled := cancelled, count := count }).journalEnd asid h u cancelled

/-- Has the launch group threads that have not retired (R239): in a placed group, or saved in one that will run again? -/
def State.launchRuns (s : State) (asid h : Nat) : Bool :=
  (s.groupsOf asid (h % 2 ^ 30)).any fun e => e.2.state == .placed || (e.2.state == .queued && e.2.begun)

/-- A thread of the unit: of its launch, or a handler of a muster that one of its threads defined (R30, R32 of spec/02). -/
def Ident.inUnit (x : Ident) (level h : Nat) : Bool :=
  match level with
  | 0 => x.launch.toNat == h
  | 1 => x.graph == h
  | 2 => x.phase == h
  | _ => x.job == h

/-- The slots of a context: those of its tiles, and those of its images. -/
def State.slotsOf (s : State) (asid : Nat) : List (Nat × Slot) :=
  (s.slots.filter fun e => s.asidOf e.1 == asid)
    ++ (match s.ctx asid with | some c => c.images.flatMap fun i => i.2.slots | none => [])

/-- A muster handler of the unit runs (R222 and R228 of spec/13). -/
def State.handlerRuns (s : State) (asid level h : Nat) : Bool :=
  (s.slotsOf asid).any fun e => slotIx e.1 == 6 && e.2.status != .free && e.2.id.inUnit level h

/-- A Cancelling unit goes on while a thread of it runs (R239), or a unit below it. A copy node has no thread. -/
def State.unitRuns (s : State) (asid h : Nat) (u : WorkUnit) : Bool :=
  let open_ := fun k => match s.unit asid k with | some v => v.state != .complete | none => false
  s.handlerRuns asid u.level h || (match u.level with
    | 0 => s.launchRuns asid h
    | 1 => u.nodes.any fun x => x.kind == .launch && open_ x.launch
    | _ => u.kids.any open_)

def State.nodeOf (s : State) (asid h n : Nat) : Option GNode :=
  match s.unit asid h with | some u => u.nodes[n]? | none => none

def State.onNode (s : State) (asid h n : Nat) (f : GNode → GNode) : State :=
  s.onUnit asid h fun u => { u with nodes := u.nodes.mapIdx fun i x => if i = n then f x else x }

/-- Resolve the edges that leave a node: those in `sat` are satisfied, the others pruned (R237). -/
def State.resolveEdges (s : State) (asid h : Nat) (edges sat : List Nat) : State × List WorkEv :=
  edges.foldl (fun p e =>
    if e = 0xFFFF then p
    else
      let s := p.1.onNode asid h e fun x => { x with
        open_ := x.open_ - 1, sat := x.sat + (if sat.contains e then 1 else 0) }
      (s, p.2 ++ [.node h e])) (s, [])

/-- The branch a conditional node resolves to, as the edges satisfied (R237, R238). -/
def GNode.taken (x : GNode) : List Nat :=
  let b := x.branch.getD x.dflt
  if 4 ≤ b then [] else (x.succ.drop b).take 1

/-- The graph of an Active phase, or the phase of an Active job, that is startable: the first that is not Complete. -/
def State.nextKid (s : State) (asid h : Nat) : List Nat :=
  match s.unit asid h with
  | some u =>
    if u.state != .active then []
    else (u.kids.filter fun k => match s.unit asid k with | some v => v.state != .complete | none => false).take 1
  | none => []

/-- The cancel trap becomes pending in a context's threads that meet `p`, live, in its images or saved with their group (R32 of
spec/02). -/
def cancelIn (p : Slot → Bool) (x : Slot) : Slot := if x.status != .free && p x then { x with cpend := true } else x

def State.pendCancel (s : State) (asid : Nat) (p : Slot → Bool) : State :=
  let s : State := { s with slots := s.slots.map fun e => (e.1, if s.asidOf e.1 == asid then cancelIn p e.2 else e.2) }
  let saved := fun (l : List (Nat × Slot)) => l.map fun e => (e.1, cancelIn p e.2)
  let s : State := { s with groups := s.groups.map fun e => (e.1, e.2.map fun g =>
    if g.asid = asid then { g with saved := saved g.saved, kids := saved g.kids } else g) }
  s.onCtx asid fun c => { c with images := c.images.map fun i => (i.1, { i.2 with slots := saved i.2.slots }) }

/-- Every replica of the group's set that is still live has retired; a group without replicas is its own set. -/
def State.setDone (s : State) (g : Nat) : Bool :=
  match s.sets.find? fun r => r.members.contains g with
  | none => true
  | some r => (r.members.zip r.live).all fun e =>
      !e.2 || (match s.group e.1 with | some y => y.state == .complete | none => true)

/-- The launch counts a group complete. -/
def State.countGroup (s : State) (x : Group) : State :=
  s.onUnit x.asid (handleOf 0 x.launch) fun u => { u with count := u.count + 1 }

/-- The live slots of a group. -/
def State.groupSlots (s : State) (g : Nat) : List Nat :=
  (s.slots.filter fun e => e.2.status != .free && e.2.id.group == some g).map (·.1)

/-- The lanes of a core drop the commands of some threads (R277: their pending engine results are dropped). -/
def Core.dropThreads (c : Core) (tids : List Nat) : Core :=
  { c with
    lanes := c.lanes.map fun l => (l.1, match l.2.work with
      | some w => if tids.contains w.tid then { l.2 with work := none, mode := .idle } else l.2
      | none => l.2)
    batches := c.batches.filter fun b => !tids.contains b.tid }

/-- So does the crook of a tile. -/
def Crook.dropThreads (c : Crook) (tids : List Nat) : Crook :=
  { c with
    queue := c.queue.filter fun w => !tids.contains w.tid
    kept := c.kept.filter fun w => !tids.contains w.tid
    mstat := c.mstat.filter fun m => !tids.contains m.tid
    err := c.err.filter fun m => !tids.contains m.1 }

/-- And a pending operation of a filter window: a pick goes on for the replicas that are left. -/
def State.withoutThreads (s : State) (tids : List Nat) (op : FilterOp) : Option FilterOp :=
  match op.receivers.filter fun t => !tids.contains t with
  | [] => none
  | t :: ts => some { op with tid := t, others := ts
                              core := match s.slotOfTid t with | some n => slotCore n | none => op.core }

/-- And a saved tile. -/
def Image.dropThreads (i : Image) (tids : List Nat) : Image :=
  { i with cores := i.cores.map fun e => (e.1, e.2.dropThreads tids)
           tile := { i.tile with crook := i.tile.crook.dropThreads tids } }

/-- Free every slot of a group at once, wherever it stands, and drop what its engines still run for it (R277). -/
def State.freeGroup (s : State) (g : Nat) : State :=
  let ns := s.groupSlots g
  let tids := ((s.allSlots.map (·.2)).filter fun x => x.id.group == some g && x.status != .free).map (·.tid)
  let s := ns.foldl (fun s n => s.leaveCrook n .none) s
  let s := tids.foldl (fun s t => s.onTid t Slot.freed) s
  let mine := fun (w : DdWork) => tids.contains w.tid
  let s : State := { s with
    cores := s.cores.map fun e => (e.1, e.2.dropThreads tids)
    windows := s.windows.map fun e => (e.1, { e.2 with ops := e.2.ops.filterMap (fun o => (s.withoutThreads tids o.1).map fun p => (p, o.2)) })
    ctxs := s.ctxs.map fun e => (e.1, e.2.map fun c => { c with
      images := c.images.map fun i => (i.1, i.2.dropThreads tids)
      spaces := c.spaces.map fun p => (p.1, p.2.map fun x =>
      let gone := match x.susp with | some q => mine q.1 | none => false
      { x with queue := x.queue.filter fun w => !mine w, susp := if gone then none else x.susp
               mode := if gone && x.mode == .suspended then .busy else x.mode
               wasSuspended := x.wasSuspended && !gone }) }) }
  let s : State := { s with tiles := s.tiles.map fun e => (e.1, { e.2 with crook := e.2.crook.dropThreads tids }) }
  (s.tiles.map (·.1)).foldl (fun s t => s.passCrook t) s

/-- The set a group record belongs to. -/
def State.setOfGroup (s : State) (g : Nat) : Option RepSet := s.sets.find? fun r => r.members.contains g

/-- The cancel of a launch reaches one of its groups (R257, R439). A queued one is discarded and counted complete, also with
saved threads; one whose pre-emption is under way is discarded once its threads have halted. Placed threads take their cancel
traps. Of a replica its set decides (State.cancelSet). -/
def State.cancelGroup (s : State) (g : Nat) : State :=
  match s.group g, s.setOfGroup g with
  | some x, none =>
    if x.state == .placed then
      if x.preempt then s.onGroup g fun y => { y with doomed := true } else s
    else if x.state != .queued then s
    else
      let s := s.endGroup g x .discarded
      match x.parent with
      | some p => match s.group p with
        | none => s
        | some y =>
          -- a lone child leaves its group (R439)
          let s := s.onGroup p fun y => { y with threads := y.threads - 1 }
          if y.threads ≤ 1 && y.state == .placed then (s.endGroup p y .discarded).countGroup y else s
      | none => s.countGroup x
  | _, _ => s

/-- A cancel discards a set in Forming whole (R281 of spec/17): its placed replicas, which have performed nothing, are freed, and
the launch counts the group (DEDUCED, log 80). In a formed set every replica runs its handler (R278). -/
def State.cancelSet (s : State) (r : RepSet) : State :=
  if r.formed then s
  else
    let s := r.members.foldl (fun s g => match s.group g with
      | some x => (s.freeGroup g).endGroup g x .discarded
      | none => s) s
    let s : State := { s with sets := s.sets.map fun q =>
      if q.members == r.members then { q with live := q.live.map fun _ => false, formed := true } else q }
    match s.group (r.members.getD 0 0) with
    | some x => s.countGroup x
    | none => s

/-- A host-interface unit at its work: the unit of die `die`, for node `node` of graph `handle` of context `asid`, or, where `handle` is
2^32 up, for the GRAPH command of queue `handle` - 2^32. -/
structure HostUnit where
  die : Nat
  asid : Nat
  handle : Nat
  node : Nat := 0
  deriving DecidableEq, Repr

/-- It as a unit whose accesses miss. -/
def HostUnit.asker (u : HostUnit) : Asker := .unit u.die u.asid u.handle u.node

/-- A virtual access of a host-interface unit: its pieces, a fault, or a wait. It stands in no core, so an address in a window faults
(DESIGN CHOICE, log 23). -/
def State.unitAccess (s : State) (u : HostUnit) (va : Word) (len : Nat) (r w : Bool) : Except (Nat × Word) (List Piece) :=
  match s.engineAccess u.asker 0 u.asid va len r w with
  | .trap c a => .error (c, a)
  | .walk a => .error (walkWait, a)
  | .ok ps =>
    if ps.any fun p => p.leaf.isNone then .error (0x102, va)
    else if w && replicable ps then .error (0x106, va)
    else if s.lostPieces ps || (r && s.hostFails ps) then .error (0x10C, va)
    else if s.requestWaits ps then .error (walkWait, va)
    else if r then match s.badPieces ps with
      | some e => .error (e.1, va)
      | none => .ok ps
    else .ok ps

/-- The access of such a unit at `va` waits. -/
def State.unitMiss (s : State) (u : HostUnit) (va : Word) : State :=
  (s.forget u.asker).miss u.asker u.die u.asid (s.ctxRoot 0 u.asid) va

/-- A copy node starts by reading its record (R310 of spec/20), by die 0 (log 23): the record or the fault, none while it waits. -/
def State.copyRecord (s : State) (u : HostUnit) (body : Word) : Option CopyRec × State :=
  match s.unitAccess u body 32 true false with
  | .error e => if e.1 = walkWait then (none, s.unitMiss u e.2) else (some (.bad e.1 e.2), s.forget u.asker)
  | .ok ps => (some (.read (leNat (s.readPieces ps))), (s.haveRead ps).forget u.asker)

/-- One event of the hierarchy; new events follow. DESIGN CHOICE (log 88): a host-event or conditional node that has started, and whose
completion waits for remote writes when a cancel makes its graph Complete, posts nothing and completes no more. -/
def State.workEv (s : State) (asid : Nat) (ev : WorkEv) : State × List WorkEv :=
  match ev with
  | .start h => match s.unit asid h with
    | none => (s, [])
    | some u =>
      if u.state != .pending then (s, [])
      else
        let s := s.onUnit asid h fun u => { u with state := .active }
        let s := match u.journal with | some j => s.journalTo j.1 j.2 1 0 none | none => s
        match u.level with
        | 0 => (s.enqueueGroups asid (h % 2 ^ 30) u.kernel, [.check h])
        | 1 => (s, (List.range u.nodes.length).map (.node h) ++ [.check h])
        | _ => (s, (s.nextKid asid h).map .start ++ [.check h])
  | .check h => match s.unit asid h with
    | none => (s, [])
    | some u =>
      if u.state == .active && u.over && (u.level ≤ 1 || u.closed) then
        (s.completeUnit asid h false, [.counted h])
      else if u.state == .cancelling && !s.unitRuns asid h u then (s.completeUnit asid h true, [.counted h])
      else (s, [])
  | .counted h => match s.unit asid h with
    | none => (s, [])
    | some u =>
      match u.level with
      | 0 => (s, [.nodeEnd u.parent u.node (!u.cancelled)])
      | 3 => (s, [])
      | _ =>
        let s := s.onUnit asid u.parent fun p => { p with count := p.count + 1 }
        (s, (s.nextKid asid u.parent).map .start ++ [.check u.parent])
  | .node h n => match s.unit asid h, s.nodeOf asid h n with
    | some u, some x =>
      if u.state != .active || x.state != .waiting || x.open_ != 0 then (s, [])
      else if x.sat = 0 && u.nodes.any (fun y => y.succ.contains n) then
        let s := s.onNode asid h n fun x => { x with state := .pruned }
        let s := if x.kind == .launch then s.completeUnit asid x.launch true else s
        let s := s.onUnit asid h fun u => { u with pruned := u.pruned + 1 }
        let r := s.resolveEdges asid h x.succ []
        (r.1, r.2 ++ [.check h])
      else
        let s := s.onNode asid h n fun x => { x with state := .running }
        match x.kind with
        | .launch => (s, [.start x.launch])
        | .copy =>
          let r := s.copyRecord ⟨0, asid, h, n⟩ x.body
          (r.2.onNode asid h n fun y => { y with copy := r.1 }, [])
        | .hostEvent | .conditional => (s, [.release h n])
    | _, _ => (s, [])
  | .release h n => match s.unit asid h, s.nodeOf asid h n with
    | some u, some x =>
      if x.state != .running || u.state == .complete || s.writesHeld then (s, [])
      else match x.kind with
        | .launch | .copy => (s, [])
        | .hostEvent => (s.settleAll.postEvent asid 1 h (x.body.toNat + n * 2 ^ 64), [.nodeEnd h n true])
        | .conditional => (s.settleAll, [.nodeEnd h n true])
    | _, _ => (s, [])
  | .nodeEnd h n normal => match s.nodeOf asid h n with
    | none => (s, [])
    | some x =>
      if x.state == .done || x.state == .cancelled || x.state == .pruned then (s, [])
      else
        let s := s.onNode asid h n fun x => { x with state := if normal then .done else .cancelled }
        let s := s.onUnit asid h fun u => { u with count := u.count + 1 }
        let sat := if !normal then [] else if x.kind == .conditional then x.taken else x.succ
        let r := s.resolveEdges asid h x.succ sat
        (r.1, r.2 ++ [.check h])
  | .cancel h => match s.unit asid h with
    | none => (s, [])
    | some u =>
      if u.state == .complete || u.state == .cancelling then (s, [])
      else
        -- the groups of a Pending launch are discarded and count as complete (R31 of spec/02)
        let count := if u.level = 0 && u.state == .pending then u.total else u.count
        let s := s.onUnit asid h fun u => { u with state := .cancelling, cancelled := true, count := count }
        -- every running thread takes the cancel trap (R32 of spec/02)
        let s := s.pendCancel asid fun x => x.id.inUnit u.level h
        match u.level with
        | 0 =>
          let n := h % 2 ^ 30
          let s := (s.groupsOf asid n).foldl (fun s e => s.cancelGroup e.1) s
          let s := (s.sets.filter fun r => r.asid == asid && r.launch == n).foldl (fun s r => s.cancelSet r) s
          (s, [.check h])
        | 1 => (s, (u.nodes.zipIdx.filterMap fun e =>
            if e.1.kind == .launch then some (.cancel e.1.launch)
            else if e.1.state == .waiting then some (.nodeEnd h e.2 false) else none) ++ [.check h])
        | _ => (s, u.kids.map .cancel ++ [.check h])

/-- Settle a list of events and what follows from them; `fuel` bounds their number. -/
def State.workOn (s : State) (asid : Nat) : Nat → List WorkEv → State
  | 0, _ => s
  | _ + 1, [] => s
  | fuel + 1, e :: es =>
    let r := s.workEv asid e
    r.1.workOn asid fuel (r.2 ++ es)

/-- More events than the units of a context can cause: every unit and node starts, ends and is checked a bounded number of
times. -/
def State.workFuel (s : State) (asid : Nat) : Nat :=
  match s.ctx asid with
  | some c => 16 + 16 * c.units.length + 16 * (c.units.map fun u => u.2.nodes.length * 6).sum
  | none => 0

/-- The host-event and conditional nodes of a context that have started and not completed. -/
def Ctx.releasing (c : Ctx) : List WorkEv :=
  c.units.flatMap fun u => u.2.nodes.zipIdx.filterMap fun e =>
    if e.1.state == .running && (e.1.kind == .hostEvent || e.1.kind == .conditional) then some (.release u.1 e.2) else none

def State.work (s : State) (asid : Nat) (es : List WorkEv) : State := s.workOn asid (s.workFuel asid) es

/-- A live context: none that has been torn down and whose id only waits to be free (R307 of spec/19). -/
def State.liveCtx (s : State) (a : Nat) : Option Ctx := (s.ctx a).filter (·.state != .tearingDown)

def State.liveCtxs (s : State) : List (Nat × Ctx) :=
  s.ctxs.filterMap fun e => (e.2.filter (·.state != .tearingDown)).map fun c => (e.1, c)

/-- A context that has been torn down is Free once no journal record of it waits: then nothing of it is written any more (R307 of
spec/19, R312 of spec/20). -/
def State.freeTorn (s : State) : State :=
  { s with ctxs := s.ctxs.map fun e =>
      (e.1, e.2.filter fun c => c.state != .tearingDown || s.journalDue.any (·.asid == e.1)) }

/-- The journal records that waited for their unit's writes become final once none is held back and no copy node goes on (R312 of
spec/20). -/
def State.payJournals (s : State) : State :=
  if s.journalDue.isEmpty || s.writesHeld then s.freeTorn
  else
    let p := s.journalDue.partition fun e => s.copyRuns e.asid e.unit
    let s := p.2.foldl (fun s e => s.journalTo e.base e.seq e.st 0 none) { s.settleAll with journalDue := p.1 }
    s.freeTorn

/-- Nodes whose completion waited for a remote write complete once no write is held back (R242 of spec/14), and journal records
become final. -/
def State.releaseNodes (s : State) : State := s.liveCtxs.foldl (fun s e => s.work e.1 e.2.releasing) s.payJournals

/-- Every muster that a slot of a cancelled job defined is turned off, and its running handler takes the cancel trap (R228
of spec/13). -/
def Core.dropMusters (c : Core) (job : Nat) : Core :=
  { c with musters := c.musters.map fun m => (m.1, if m.2.job == job then { m.2 with mask := 0 } else m.2) }

def State.cancelMusters (s : State) (asid job : Nat) : State :=
  let s : State := { s with
    cores := s.cores.map fun e => (e.1, if (s.tile (coreTile e.1)).owner == some asid then e.2.dropMusters job else e.2) }
  let s := s.onCtx asid fun c => { c with images := c.images.map fun i =>
    (i.1, { i.2 with cores := i.2.cores.map fun e => (e.1, e.2.dropMusters job) }) }
  s.pendCancel asid fun x => x.id.job == job

/-- The CANCEL event on a unit (R239, R228 of spec/13). What it frees is placed again once it has reached every unit below. -/
def State.cancelUnit (s : State) (asid h : Nat) : State :=
  match s.unit asid h with
  | none => s
  | some u =>
    if u.state == .complete || u.state == .cancelling then s
    else
      let s := if u.level == 3 then s.cancelMusters asid h else s
      (List.range Config.dies).foldl (fun s d => s.placePass d) (s.work asid [.cancel h])

/-! ## Retiring (R31 of spec/02, R129 of spec/07, R257 of spec/15) -/

/-- The launch counts a group once, when every live replica of it has retired (R267 of spec/17). -/
def State.groupComplete (s : State) (g : Nat) : State :=
  match s.group g with
  | none => s
  | some x =>
    let s := s.endGroup g x .complete
    let h := handleOf 0 x.launch
    let s := if s.setDone g then s.countGroup x else s
    (s.work x.asid [.check h]).placePass x.die

/-- Free slot `n`; its thread is counted toward its group. -/
def State.retireSlot (s : State) (n : Nat) : State :=
  let x := s.slot n
  let s := (s.leaveCrook n .none).onSlot n Slot.freed
  let s := match x.id.group with
    | some g =>
      let s := s.onGroup g fun y => { y with threads := y.threads - 1 }
      (match s.group g with
      | some y => if y.threads = 0 && y.state == .placed then s.groupComplete g else s
      | none => s)
    | none => s.work (s.asidOf n) [.check x.id.launch.toNat, .check x.id.graph, .check x.id.phase, .check x.id.job]
  if slotIx n < 6 then s.placePass (slotDie n) else s

/-! ## Pre-emption (R255, R439 of spec/15) -/

/-- The pre-emption of some groups begins: all their threads are halted. The operations that their lanes and diagram engines have
under way go on (DESIGN CHOICE, log 103). -/
def State.preemptGroups (s : State) (gs : List Nat) : State :=
  (gs.foldl (fun s g => s.onGroup g fun x => { x with preempt := true }) s).haltSlots (gs.flatMap s.groupSlots)

/-- A matrix command of one of the threads runs (R145 of spec/09). -/
def State.matRuns (s : State) (tids : List Nat) : Bool := s.tiles.any fun e => e.2.crook.queue.any fun w => tids.contains w.tid

/-- The weight-buffer entries that a core's commands wrote (R138 of spec/09; log 41). -/
def State.weightsOf (s : State) (core : Nat) : Table Weight := (s.tile (coreTile core)).weights.filter fun e => e.2.core == core

/-- Once every thread of a pre-empted group has halted, and no matrix command of theirs runs, it is saved and queued again with
its children (R439), or discarded where a cancel has followed the pre-emption. -/
def State.savePreempted (s : State) (g : Nat) : State :=
  match s.group g with
  | none => s
  | some x =>
    let ns := s.groupSlots g
    if !x.preempt || x.state != .placed || !(ns.all fun n => (s.slot n).status == .halted) || s.matRuns (ns.map fun n => (s.slot n).tid) then s
    else
      let own := ns.filter fun n => !(s.slot n).id.child
      let kids := ns.filter fun n => (s.slot n).id.child
      let pos := fun n => bitsAt (s.slot n).id.gshape.toNat 7 3
      let accs := own.map fun n => let c := slotCore n; (pos n, (s.core c).acc, (s.core c).mcfg, s.weightsOf c)
      -- what such a thread's answered instruction reaches stands at its slot (R39 of spec/02)
      let image := fun n => let y := s.slot n; { y with park := { y.park with origin := n } }
      let saved := own.map fun n => (pos n, image n)
      let young := kids.map fun n => (slotCore n, image n)
      let s := ns.foldl (fun s n => s.onSlot n Slot.freed) s
      let s := if x.doomed then
          let s := s.endGroup g x .discarded
          (if s.setDone g then s.countGroup x else s).work x.asid [.check (handleOf 0 x.launch)]
        else s.onGroup g fun x => { x with preempt := false, state := .queued, saved := saved, savedAcc := accs, kids := young }
      ((x.die :: ns.map slotDie).eraseDups).foldl (fun s d => s.placePass d) s

end Sys2Proof.Machine
end

