-- ==== Sys2Proof/Machine/Memory.lean ====
section
/-! DEFINITION. Loads, stores, full/empty accesses, atomics and prefetch (R125 to R128 and R380 to R383 of spec/07). -/

namespace Sys2Proof.Machine

open Sys2Proof

/-! ## The checks of R126 of spec/07 -/

/-- Steps 1 to 3, with the format-register check of step 2: `fmt` when the access is an LD.D or ST.D (R95 of spec/05). -/
def State.checked (s : State) (ea : Word) (n : Nat) (r w fmt : Bool) (k : List Piece → Out) : Out :=
  if ea.toNat % n != 0 then s.trap 0x141 ea
  else s.withAccess ea n r w fun ps =>
    if !fmt && ps.any (·.home == .format) then s.trap 0x102 ea else k ps

/-- Step 4, and then `k`. R96 of spec/05 names no TADDR; R152 of spec/08 does for an element (log 35). -/
def State.writable (s : State) (ps : List Piece) (k : State → Out) (taddr : Word := 0) : Out :=
  if replicable ps then s.trap 0x106 taddr else k s

/-- A far access leaves and is answered before `k` performs it (R90 of spec/05, R39 of spec/02). -/
def State.farThen (s : State) (ea : Word) (ps : List Piece) (k : State → Out)
    (as : Piece → Config.Request := fun p => .read p.pa p.len) : Out :=
  if ps.any (·.home.far) && !s.me.park.answered then s.send ea ps as else k s

/-- Step 6: the read of the old bytes meets no memory error; what it has read stays performed (R106 of spec/06). -/
def State.readable (s : State) (ea : Word) (ps : List Piece) (k : List Byte → State → Out) : Out :=
  match s.badPieces ps with
  | some e => s.trap e.1 ea
  | none => k (s.seenPieces ps) (s.settleRead ps)

/-! ## LD, ST (R380) -/

/-- The low `n` bytes of `v`, zero- or sign-extended. -/
def extendBytes (sx : Bool) (n v : Nat) : Word :=
  if sx then BitVec.ofInt 64 (BitVec.ofNat (8 * n) v).toInt else BitVec.ofNat 64 v

/-- The result of a load: a register pair for 16 bytes, else one destination. -/
def State.loaded (s : State) (n : Nat) (sx : Bool) (a : Opnd) (bs : List Byte) (eff : Bool := false) : Out :=
  match a, n with
  | .g r, 16 => s.doneRegs [(r.val, BitVec.ofNat 64 (leNat (bs.take 8))),
      (r.val + 1, BitVec.ofNat 64 (leNat (bs.drop 8)))]
  | _, _ => s.finish a (extendBytes sx n (leNat bs)) eff

def execLd (gd : Guard) (sz : MemSize) (sx : Bool) (_acq : Option Scope) (a : Opnd) (addr : Addr) (s : State) : Out :=
  s.guarded gd fun s => s.operands [addr.b, addr.c] [a] fun vs s =>
    let n := sizeBytes sz
    let ea := effAddr (arg vs 0) (arg vs 1) addr.ss addr.disp
    s.checked ea n true false (n == 8) fun ps =>
      s.farThen ea ps fun s => s.readable ea ps fun bs s => s.loaded n sx a bs

/-- The sources that A names: a pair for .Q, else A, read plainly. -/
def pairSrcs (q : Bool) (a : Opnd) : List Src := if q then [plain a, plain (opndNext a)] else [plain a]

/-- The little-endian bytes of the values, `n` in all. -/
def bytesOf (n : Nat) (vs : List Word) : List Byte := (vs.flatMap fun v => leBytes v.toNat 8).take n

def execSt (gd : Guard) (sz : MemSize) (rel : Option Scope) (a : Opnd) (addr : Addr) (s : State) : Out :=
  s.guarded gd fun s =>
    let n := sizeBytes sz
    let srcs := pairSrcs (n == 16) a
    s.operands (srcs ++ [addr.b, addr.c]) [] fun vs s =>
      let ea := effAddr (arg vs srcs.length) (arg vs (srcs.length + 1)) addr.ss addr.disp
      let bs := bytesOf n (vs.take srcs.length)
      s.checked ea n false true (n == 8) fun ps =>
        if ps.any (·.home == .format) && (formatOfWord (arg vs 0)).reserved then s.trap 0x105 0
        else s.writable ps fun s =>
          match rel with
          | some sc =>
            if scopeWide sc then s.storeRelease (sc == .sys) ea ps bs (·.done) else s.storeVia ea ps bs (·.done)
          | none => s.storeVia ea ps bs (·.done)

/-! ## LDFE, STFE, FESET (R381) -/

/-- One attempt of a waiting form has failed: the slot tries again in its next turn, and after FERETRY attempts it parks
until the bit changes. -/
def State.feRetry (s : State) (pa : Nat) (full : Bool) : Out :=
  if s.me.feretry.toNat < s.me.park.tries + 1 then
    (s.onMe fun x => { x with park := { x.park with tries := 0 } }).park (.fullEmpty pa full)
  else .next (s.onMe fun x => { x with park := { x.park with tries := x.park.tries + 1, wait := none } })

/-- The checks of a full/empty access: alignment, the window, then 0x107 outside TCM and the paddocks. -/
def State.feAccess (s : State) (ea : Word) (k : Piece → Out) : Out :=
  if ea.toNat % 8 != 0 then s.trap 0x141 ea
  else match s.place s.myCoreNum (s.asidOf s.agent) ea 8 with
    | .bad c => s.trap c ea
    | .virt => s.trap 0x107 0
    | .ok _ .format => s.trap 0x102 ea
    | .ok _ .common => s.trap 0x107 0
    | .ok pa h => k ⟨pa, 8, h, none⟩

/-- Is the access replica-local, so that each replica performs it (R274 of spec/17)? -/
def sharedEa (ea : Word) : Bool := !localEa ea

def execLdfe (gd : Guard) (_scope : Scope) (a : Opnd) (addr : Addr) (s : State) : Out :=
  s.guarded gd fun s => s.operands [addr.b, addr.c] [a] fun vs s =>
    let ea := effAddr (arg vs 0) (arg vs 1) addr.ss addr.disp
    s.feAccess ea fun p =>
      -- the destination's room comes first, so that a cancel finds the bit unchanged
      let go := fun (s : State) => s.roomFor [a] fun s =>
        if s.feFull p.pa then
          s.readable ea [p] fun bs s => (s.setFe p.pa false).finish a (BitVec.ofNat 64 (leNat bs))
        else s.feRetry p.pa true
      if sharedEa ea then s.votePoint .operands true (onceRecord ea 0x52 vs) go else go s

def execStfe (gd : Guard) (scope : Scope) (a : Opnd) (addr : Addr) (s : State) : Out :=
  s.guarded gd fun s => s.operands [plain a, addr.b, addr.c] [] fun vs s =>
    let ea := effAddr (arg vs 1) (arg vs 2) addr.ss addr.disp
    s.feAccess ea fun p => s.votePoint .releaseOnce (sharedEa ea) (onceRecord ea 0x53 vs) fun s =>
      s.releaseSys (scope == .sys) fun s => if s.feFull p.pa then s.feRetry p.pa false
      else ((s.store p.pa (bytesOf 8 [arg vs 0])).setFe p.pa true).done

def execFeset (gd : Guard) (full : Bool) (scope : Scope) (a : Opnd) (addr : Addr) (s : State) : Out :=
  s.guarded gd fun s => s.operands [addr.b, addr.c] [a] fun vs s =>
    let ea := effAddr (arg vs 0) (arg vs 1) addr.ss addr.disp
    s.feAccess ea fun p => s.votePoint .releaseOnce (sharedEa ea) (onceRecord ea 0x54 vs) fun s =>
      s.roomFor [a] fun s => s.releaseSys (scope == .sys) fun s =>
        (s.setFe p.pa full).finish a (BitVec.ofNat 64 (bit (s.feFull p.pa) 0))

/-! ## Atomics (R127, R128, R382) -/

/-- Does the root complex complete an atomic of this size (R329 of spec/22)? -/
def HostRegs.atomicOk (h : HostRegs) (n : Nat) : Bool := h.hostatom.getLsbD (if n = 4 then 0 else 1)

/-- The table of R128: may this atomic be performed at this home? -/
def State.atomicOk (s : State) (h : Home) (hostOp cas : Bool) (n : Nat) : Bool :=
  match h with
  | .host => hostOp && n ≤ 8 && s.host.atomicOk n
  | .remote => !(cas && n == 16)
  | _ => true

/-- Steps 1 to 5 of R126 for an atomic. -/
def State.atomicChecks (s : State) (ea : Word) (n : Nat) (hostOp cas : Bool) (k : List Piece → State → Out) : Out :=
  s.checked ea n true true false fun ps => s.writable ps fun s =>
    if ps.all fun p => s.atomicOk p.home hostOp cas n then k ps s else s.trap 0x10A 0

/-- The scope of an ordering modifier's release, and whether it has one at core scope or wider. -/
def AmoOrdRel : AmoOrd → Option Scope
  | .rel sc => some sc
  | .ar sc => some sc
  | _ => none

def ordReleases (o : AmoOrd) : Bool :=
  match AmoOrdRel o with | some sc => scopeWide sc | none => false

/-- The vote of an atomic (R271 of spec/17), then its release at system scope (R339 of spec/22), which comes before its request leaves. -/
def State.atomicVote (s : State) (ord : AmoOrd) (ea : Word) (op : Nat) (vs : List Word) (k : State → Out) : Out :=
  s.votePoint (if ordReleases ord then .releaseOnce else .operands) (sharedEa ea) (onceRecord ea op vs) fun s =>
    s.releaseSys (AmoOrdRel ord == some .sys && !s.me.park.answered) k

def execAmo (gd : Guard) (op : AmoOp) (sz : MemSize) (ord : AmoOrd) (a : Opnd) (b c : Src) (disp : BitVec 17)
    (s : State) : Out :=
  s.guarded gd fun s => s.operands [b, c] [a] fun vs s =>
    let n := sizeBytes sz
    let ea := baseDisp (arg vs 0) disp
    s.atomicChecks ea n (op == .add || op == .swap) false fun ps s =>
      s.atomicVote ord ea 0x55 vs fun s => s.roomFirst a fun s => s.farThen ea ps (fun s => s.readable ea ps fun bs s =>
        (s.storeBack ps (leBytes (amoNew op n (leNat bs) (arg vs 1).toNat) n)).finish a (BitVec.ofNat 64 (leNat bs)) true)
        fun p => .atomic op p.pa n (arg vs 1).toNat

def execCas (gd : Guard) (sz : MemSize) (ord : AmoOrd) (a : Opnd) (b c : Src) (disp : BitVec 17) (s : State) : Out :=
  let n := sizeBytes sz
  let q := n == 16
  let as := pairSrcs q a
  let cs := if q then [c, { c with op := opndNext c.op }] else [c]
  s.guarded gd fun s => s.operands (as ++ b :: cs) [a] fun vs s =>
    let ea := baseDisp (arg vs as.length) disp
    let new := bytesOf n (vs.take as.length)
    let cmp := bytesOf n (vs.drop (as.length + 1))
    s.atomicChecks ea n true true fun ps s =>
      s.atomicVote ord ea 0x56 vs fun s => s.roomFirst a fun s => s.farThen ea ps (fun s => s.readable ea ps fun bs s =>
        (if bs = cmp then s.storeBack ps new else s).loaded n false a bs true)
        fun p => .cas p.pa n (leNat cmp) (leNat new)

/-- An uncorrectable error found by a RUPD (R347 of spec/23): an event of KIND 5 on queue 0. -/
def State.rupdError (s : State) (ea : Word) (code : Nat) : State :=
  let asid := s.asidOf s.agent
  s.postEvent asid 5 0 (ea.toNat + code * 2 ^ 64 + asid * 2 ^ 86)

/-- RUPD is performed at its issue, which is a time the spec allows (R112 of spec/06, log 1); one to another package as it leaves. -/
def execRupd (gd : Guard) (op : AmoOp) (sz : MemSize) (b c : Src) (disp : BitVec 17) (s : State) : Out :=
  s.guarded gd fun s => s.operands [b, c] [] fun vs s =>
    let n := sizeBytes sz
    let ea := baseDisp (arg vs 0) disp
    s.atomicChecks ea n false false fun ps s =>
      s.votePoint .operands (sharedEa ea) (onceRecord ea 0x57 vs) fun s =>
        match ps.find? (·.home == .remote), s.badPieces ps with
        | some p, _ => (s.sendWrite [s.me.tid] ea (.update op p.pa n (arg vs 1).toNat) (carried s.qepoch [p])).done
        | none, some e => (s.rupdError ea e.1).done
        | none, none => (s.putPieces ea ps (leBytes (amoNew op n (leNat (s.seenPieces ps)) (arg vs 1).toNat) n)).done

/-- PREF reads B and has no other effect (R383). -/
def execPref (gd : Guard) (_hint : Fin 3) (b : Src) (_disp : BitVec 20) (s : State) : Out :=
  s.guarded gd fun s => s.operands [b] [] fun _ s => s.done

end Sys2Proof.Machine
end

