-- ==== Sys2Proof/Machine/Engine.lean ====
section
/-! DEFINITION. How an engine reads and writes memory for the thread that issued its command: under replication it sees and
extends the thread's held stores (R113, R114, R115 of spec/06; R269, R270 of spec/17). -/

namespace Sys2Proof.Machine

open Sys2Proof

/-- The held stores of a thread. -/
def State.heldBy (s : State) (tid : Nat) : List Held :=
  match s.findTid tid with
  | some x => x.rep.buffer
  | none => []

/-- Bytes of a tile's memories as the thread's engine command reads them. -/
def State.engineSees (s : State) (tid pa len : Nat) : List Byte := readOver (s.heldBy tid) (memRead s.mem pa len) pa

def State.engineNat (s : State) (tid pa len : Nat) : Nat := leNat (s.engineSees tid pa len)

/-- Is the thread a replica? -/
def State.replica (s : State) (tid : Nat) : Bool :=
  match s.findTid tid with
  | some x => x.rep.count != 0
  | none => false

/-- The held stores of an engine's write of bytes at `va` over its pieces. -/
def State.engineHeld (s : State) (va : Word) : List Piece → List Byte → List Held
  | [], _ => []
  | p :: ps, bs => ⟨p.pa, bs.take p.len, localEa va, carried s.qepoch [p], va, p.attr, false⟩ :: s.engineHeld va ps (bs.drop p.len)

/-- One piece of a write that is performed: a remote one leaves by its port (R339 of spec/22), and has been performed when the
operation ends (R114 of spec/06). -/
def State.enginePiece (s : State) (tid : Nat) (va : Word) (p : Piece) (bs : List Byte) : State :=
  match p.leaf with
  | some l =>
    if l.loc = 3 then (s.sendWrite [tid] va (.write p.pa bs) (carried s.qepoch [p])).settle [p] else s.write p.pa bs p.attr
  | none => s.write p.pa bs

def State.enginePieceAll (s : State) (tid : Nat) (va : Word) : List Piece → List Byte → State
  | [], _ => s
  | p :: ps, bs => (s.enginePiece tid va p (bs.take p.len)).enginePieceAll tid va ps (bs.drop p.len)

/-- A write of an engine for a thread: performed, or folded and held within the quota of R270 of spec/17 (log 21). -/
def State.engineStore (s : State) (tid : Nat) (va : Word) (ps : List Piece) (bs : List Byte) : State :=
  if s.replica tid then s.onTid tid fun x => x.hold (s.engineHeld va ps bs) else s.enginePieceAll tid va ps bs

/-- An engine command is issued: the result register's full bit clears and one operation more is in flight (R28 of
spec/02). -/
def Slot.issued (x : Slot) (reg : Nat) : Slot := { x.clearFull reg with eng := x.eng + 1 }

/-! ## Accesses of the automata and diagram engines: a code and an address, or the bytes (R114 of spec/06, R209 of spec/12) -/

/-- A unit reads `len` bytes, over some held stores. -/
def State.engineReadOver (s : State) (hs : List Held) (who : Asker) (core asid : Nat) (va : Word) (len : Nat) :
    Except (Nat × Word) (List Byte) :=
  match s.engineAccess who core asid va len true false with
  | .trap c a => .error (c, a)
  | .walk a => .error (walkWait, a)
  | .ok ps =>
    if s.lostPieces ps || s.hostFails ps then .error (0x10C, va)
    else if s.requestWaits ps then .error (walkWait, va)
    else match s.badPieces ps with
      | some e => .error (e.1, va)
      | none => .ok (ps.flatMap fun p => readOver hs (s.pieceBytes p) p.pa)

/-- Read `len` bytes for a thread: a replica's engine sees what the thread holds (R115 of spec/06). -/
def State.engineRead (s : State) (e : Eng) (core asid : Nat) (va : Word) (len : Nat) : Except (Nat × Word) (List Byte) :=
  s.engineReadOver (s.heldBy e.tid) (.engine e) core asid va len

/-- What an engine has read of other packages was asked for and stays performed (R335 of spec/22, R106 of spec/06). -/
def State.engineSettled (s : State) (e : Eng) (core asid : Nat) (va : Word) (len : Nat) : State :=
  match s.engineAccess (.engine e) core asid va len true false with
  | .ok ps => s.haveRead ps
  | .trap _ _ | .walk _ => s

/-- Read `n` 8-byte words from `va` up, each an access of its own. -/
def State.engineReadWords (s : State) (e : Eng) (core asid : Nat) (va : Word) : Nat → Except (Nat × Word) (List Nat)
  | 0 => .ok []
  | n + 1 => match s.engineRead e core asid va 8 with
    | .error f => .error f
    | .ok bs => (s.engineReadWords e core asid (va + 8) n).map fun l => leNat bs :: l

/-- Where a write goes; a replicable page refuses it (R96 of spec/05), and one to another package waits behind a pause, since it is
performed before the operation ends (R114 of spec/06). -/
def State.engineTarget (s : State) (e : Eng) (core asid : Nat) (va : Word) (len : Nat) : Except (Nat × Word) (List Piece) :=
  match s.engineAccess (.engine e) core asid va len false true with
  | .trap c a => .error (c, a)
  | .walk a => .error (walkWait, a)
  | .ok ps =>
    if replicable ps then .error (0x106, va)
    else if s.requestWaits ps then .error (walkWait, va)
    else .ok ps

/-- The targets of `n` 8-byte words from `va` up. -/
def State.engineWordsAt (s : State) (e : Eng) (core asid : Nat) (va : Word) : Nat → Except (Nat × Word) (List (Word × List Piece))
  | 0 => .ok []
  | n + 1 => match s.engineTarget e core asid va 8 with
    | .error f => .error f
    | .ok ps => (s.engineWordsAt e core asid (va + 8) n).map fun l => (va, ps) :: l

/-- Write 8-byte words at their targets. -/
def State.enginePutWords (s : State) (tid : Nat) (l : List (Word × List Piece)) (ws : List Nat) : State :=
  (l.zip ws).foldl (fun s e => s.engineStore tid e.1.1 e.1.2 (leBytes e.2 8)) s

/-- Write 8-byte words once every one of them may be written. -/
def State.engineWriteWords (s : State) (e : Eng) (core asid : Nat) (va : Word) (ws : List Nat) : Except (Nat × Word) State :=
  (s.engineWordsAt e core asid va ws.length).map fun l => s.enginePutWords e.tid l ws

/-- The agent's own instruction as an engine. -/
def State.myEng (s : State) : Eng := { tid := s.me.tid, sup := s.me.sup.sinh }

end Sys2Proof.Machine
end

