-- ==== Sys2Proof/Machine/Numbers.lean ====
section
/-! DEFINITION. Numbers (spec/04): formats and their exact values, rounding, draws, code tables, microscaled blocks, and the
functions of R397 of spec/08. A value is exact: a NaN, an infinity, or a signed magnitude m x 2^e. -/

namespace Sys2Proof.Machine

open Sys2Proof

/-- An exact value, signed zeros kept apart. -/
inductive FVal where
  | nan
  | inf (neg : Bool)
  | fin (neg : Bool) (m : Nat) (e : Int)
  deriving DecidableEq, Repr

/-- A binary format of R66: exponent and fraction bits; `pad` low zero bits of its container (W19, R67). -/
structure FFmt where
  ebits : Nat
  fbits : Nat
  pad : Nat
  deriving DecidableEq, Repr

def fp16 : FFmt := ⟨5, 10, 0⟩
def bf16 : FFmt := ⟨8, 7, 0⟩
def fp32 : FFmt := ⟨8, 23, 0⟩
def w19 : FFmt := ⟨8, 10, 13⟩
def fp64 : FFmt := ⟨11, 52, 0⟩

def FFmt.bias (f : FFmt) : Nat := 2 ^ (f.ebits - 1) - 1
/-- The exponent of the least subnormal's unit. -/
def FFmt.emin (f : FFmt) : Int := 1 - (f.bias : Int) - f.fbits
def FFmt.signBit (f : FFmt) : Nat := 2 ^ (f.ebits + f.fbits)
def FFmt.infCode (f : FFmt) : Nat := (2 ^ f.ebits - 1) * 2 ^ f.fbits
def FFmt.nanCode (f : FFmt) : Nat := f.infCode + 2 ^ (f.fbits - 1)

/-- The value of an encoding (R66, R67). -/
def FFmt.decode (f : FFmt) (bits : Nat) : FVal :=
  let b := bits / 2 ^ f.pad
  let neg := b / f.signBit % 2 == 1
  let ex := b / 2 ^ f.fbits % 2 ^ f.ebits
  let fr := b % 2 ^ f.fbits
  if ex = 2 ^ f.ebits - 1 then (if fr = 0 then .inf neg else .nan)
  else if ex = 0 then .fin neg fr f.emin
  else .fin neg (fr + 2 ^ f.fbits) (f.emin + (ex - 1 : Nat))

/-! ## Exact arithmetic -/

def FVal.neg : FVal → FVal
  | .nan => .nan
  | .inf s => .inf (!s)
  | .fin s m e => .fin (!s) m e

def FVal.isNan : FVal → Bool | .nan => true | _ => false
def FVal.isNeg : FVal → Bool | .nan => false | .inf s => s | .fin s _ _ => s
def FVal.isZero : FVal → Bool | .fin _ 0 _ => true | _ => false
def FVal.zero : FVal := .fin false 0 0
def FVal.ofInt (v : Int) : FVal := .fin (decide (v < 0)) v.natAbs 0

/-- m x 2^(e - e0) for e0 at most e. -/
def scaleTo (m : Nat) (e e0 : Int) : Nat := m * 2 ^ (e - e0).toNat

def signed (neg : Bool) (m : Nat) : Int := if neg then -(m : Int) else m

/-- The exact sum; an exact zero sum of opposite signs is +0, or -0 under RDN (R68). -/
def FVal.add (mode : RoundMode) : FVal → FVal → FVal
  | .nan, _ => .nan
  | _, .nan => .nan
  | .inf s, .inf t => if s = t then .inf s else .nan
  | .inf s, _ => .inf s
  | _, .inf t => .inf t
  | .fin s m e, .fin t n f =>
    if m = 0 && n = 0 then .fin (if s = t then s else mode == .rdn) 0 0
    else
      let e0 := if e ≤ f then e else f
      let v := signed s (scaleTo m e e0) + signed t (scaleTo n f e0)
      if v = 0 then .fin (mode == .rdn) 0 0 else .fin (decide (v < 0)) v.natAbs e0

def FVal.mul : FVal → FVal → FVal
  | .nan, _ => .nan
  | _, .nan => .nan
  | .inf s, .inf t => .inf (s != t)
  | .inf s, .fin t n _ => if n = 0 then .nan else .inf (s != t)
  | .fin s m _, .inf t => if m = 0 then .nan else .inf (s != t)
  | .fin s m e, .fin t n f => .fin (s != t) (m * n) (e + f)

/-- The order of two values that are not NaN, zeros equal. -/
def FVal.lt : FVal → FVal → Bool
  | .nan, _ => false
  | _, .nan => false
  | .inf s, .inf t => s && !t
  | .inf s, _ => s
  | _, .inf t => !t
  | .fin s m e, .fin t n f =>
    let e0 := if e ≤ f then e else f
    decide (signed s (scaleTo m e e0) < signed t (scaleTo n f e0))

def FVal.le (x y : FVal) : Bool := !x.isNan && !y.isNan && !y.lt x

/-- R135 of spec/08: NaN wins, and -0 lies below +0. -/
def FVal.below (x y : FVal) : Bool := x.lt y || (x.isZero && y.isZero && x.isNeg && !y.isNeg)
def FVal.min (x y : FVal) : FVal := if x.isNan || y.isNan then .nan else if y.below x then y else x
def FVal.max (x y : FVal) : FVal := if x.isNan || y.isNan then .nan else if x.below y then y else x

/-! ## Rounding (R70 to R72) -/

/-- Round m / 2^s to an integer; `draw` is the 16-bit draw of SR. -/
def roundShift (mode : RoundMode) (neg : Bool) (draw m s : Nat) : Nat :=
  let lo := m / 2 ^ s
  let rem := m % 2 ^ s
  if rem = 0 then lo
  else match mode with
    | .rne => if 2 * rem < 2 ^ s then lo else if 2 ^ s < 2 * rem then lo + 1 else lo + lo % 2
    | .rz => lo
    | .rup => if neg then lo else lo + 1
    | .rdn => if neg then lo + 1 else lo
    | .rna => if 2 * rem < 2 ^ s then lo else lo + 1
    | .sr => if 65536 ≤ rem * 65536 / 2 ^ s + draw then lo + 1 else lo

/-- The multiple of 2^q that m x 2^e rounds to, in units of 2^q. -/
def roundAt (mode : RoundMode) (neg : Bool) (draw m : Nat) (e q : Int) : Nat :=
  if q ≤ e then scaleTo m e q else roundShift mode neg draw m (q - e).toNat

/-- Round a value into a binary format (R71). -/
def FFmt.round (f : FFmt) (mode : RoundMode) (draw : Nat) (x : FVal) : Nat :=
  let body := match x with
    | .nan => f.nanCode
    | .inf neg => f.infCode + (if neg then f.signBit else 0)
    | .fin neg m e =>
      let s := if neg then f.signBit else 0
      if m = 0 then s
      else
        let q0 := e + Nat.log2 m - f.fbits
        let q := if q0 ≤ f.emin then f.emin else q0
        let k := roundAt mode neg draw m e q
        let code := (q - f.emin).toNat * 2 ^ f.fbits + k
        if code < f.infCode then code + s
        else match mode with
          | .rne | .rna | .sr => f.infCode + s
          | .rz => f.infCode - 1 + s
          | .rup => (if neg then f.infCode - 1 else f.infCode) + s
          | .rdn => (if neg then f.infCode else f.infCode - 1) + s
  body * 2 ^ f.pad

/-- Round into an integer range and saturate (R65). -/
def roundInt (mode : RoundMode) (draw : Nat) (lo hi : Int) : FVal → Int
  | .nan => 0
  | .inf neg => if neg then lo else hi
  | .fin neg m e =>
    let v := signed neg (roundAt mode neg draw m e 0)
    if v < lo then lo else if hi < v then hi else v

/-! ## Draws (R73; the constants are those of the published Philox4x32-10: PRESUMED, log 17) -/

def philoxRound (k0 k1 : Nat) (c : Nat × Nat × Nat × Nat) : Nat × Nat × Nat × Nat :=
  let a := 0xD2511F53 * c.1
  let b := 0xCD9E8D57 * c.2.2.1
  ((b / 2 ^ 32) ^^^ c.2.1 ^^^ k0, b % 2 ^ 32, (a / 2 ^ 32) ^^^ c.2.2.2 ^^^ k1, a % 2 ^ 32)

def philoxRounds (k0 k1 : Nat) (c : Nat × Nat × Nat × Nat) : Nat → Nat × Nat × Nat × Nat
  | 0 => c
  | n + 1 => philoxRounds ((k0 + 0x9E3779B9) % 2 ^ 32) ((k1 + 0xBB67AE85) % 2 ^ 32) (philoxRound k0 k1 c) n

/-- The 128 bits of one call as a number, word 0 lowest. -/
def philox (seed n : Word) (w2 w3 : Nat) : Nat :=
  let r := philoxRounds (seed.toNat % 2 ^ 32) (seed.toNat / 2 ^ 32)
    (n.toNat % 2 ^ 32, n.toNat / 2 ^ 32, w2, w3) 10
  r.1 + r.2.1 * 2 ^ 32 + r.2.2.1 * 2 ^ 64 + r.2.2.2 * 2 ^ 96

/-- The word S (R73). -/
def streamWord (kind logical : Nat) : Nat := kind * 2 ^ 28 + logical

/-- Draw `i` counted from counter value `n` (R74): 16 bits. -/
def drawAt (seed n : Word) (w2 w3 i : Nat) : Nat :=
  bitsAt (philox seed (n + BitVec.ofNat 64 (i / 8)) w2 w3) (16 * (i % 8)) 16

/-- The slot's stochastic-rounding draw `i` (kind 0). -/
def Slot.draw (x : Slot) (i : Nat) : Nat :=
  drawAt x.id.jobseed x.srCtr x.id.lcn.toNat (streamWord 0 x.id.logical) i

/-- Counter values that `k` results consume (R74). -/
def drawsFor (mode : RoundMode) (k : Nat) : Word := if mode = .sr then BitVec.ofNat 64 ((k + 7) / 8) else 0

/-! ## The functions of R397 of spec/08, to more bits than any rounding of these formats can need (log 18) -/

/-- Fixed-point bits of the series. -/
def fxBits : Nat := 400

/-- ln 2 in units of 2^-fxBits: the sum of 1 / (k 2^k). -/
def ln2Fx : Nat := ((List.range 420).map fun k => 2 ^ fxBits / ((k + 1) * 2 ^ (k + 1))).sum

/-- The tail of e^t: terms from t^k / k! on. -/
def expTerms (t : Nat) : Nat → Nat → Nat → Nat
  | 0, _, _ => 0
  | fuel + 1, k, term => term + expTerms t fuel (k + 1) (term * t / 2 ^ fxBits / k)

/-- 2^f for f = v / 2^s below 1, in units of 2^-fxBits. -/
def exp2Fx (v s : Nat) : Nat := expTerms (v * ln2Fx / 2 ^ s) 110 1 (2 ^ fxBits)

/-- ln y for y = m / 2^s in [1, 2): twice the series of atanh((y - 1) / (y + 1)). -/
def atanhTerms (z2 : Nat) : Nat → Nat → Nat → Nat
  | 0, _, _ => 0
  | fuel + 1, k, p => p / (2 * k + 1) + atanhTerms z2 fuel (k + 1) (p * z2 / 2 ^ fxBits)

def lnFx (m s : Nat) : Nat :=
  let z := (m - 2 ^ s) * 2 ^ fxBits / (m + 2 ^ s)
  2 * atanhTerms (z * z / 2 ^ fxBits) 130 0 z

/-- A value known to lie strictly between two neighbours of these bits: one sticky bit below them. -/
def sticky (neg : Bool) (m : Nat) (e : Int) : FVal := .fin neg (2 * m + 1) (e - 1)

/-- 2^x. -/
def exp2Of : FVal → FVal
  | .nan => .nan
  | .inf neg => if neg then .zero else .inf false
  | .fin neg m e =>
    if m = 0 then .fin false 1 0
    else if 12 ≤ e + Nat.log2 m then (if neg then .fin false 1 (-4096) else .fin false 1 4096)
    else
      let s := if e < 0 then (-e).toNat else 0
      let v := signed neg (if e < 0 then m else scaleTo m e 0)
      let n := v / 2 ^ s
      let f := (v % 2 ^ s).toNat
      if f = 0 then .fin false 1 n else sticky false (exp2Fx f s) (n - fxBits)

/-- 1 / x. -/
def rcpOf : FVal → FVal
  | .nan => .nan
  | .inf neg => .fin neg 0 0
  | .fin neg m e =>
    if m = 0 then .inf neg
    else
      let q := 2 ^ (fxBits + Nat.log2 m) / m
      let ex : Int := -e - (fxBits + Nat.log2 m : Nat)
      if q * m = 2 ^ (fxBits + Nat.log2 m) then .fin neg q ex else sticky neg q ex

/-- The integer square root, bit by bit from bit `n` - 1. -/
def isqrtBits (v : Nat) : Nat → Nat → Nat
  | 0, r => r
  | n + 1, r => isqrtBits v n (if (r + 2 ^ n) * (r + 2 ^ n) ≤ v then r + 2 ^ n else r)

def isqrt (v : Nat) : Nat := isqrtBits v (Nat.log2 v / 2 + 1) 0

/-- 1 / sqrt x. -/
def rsqOf : FVal → FVal
  | .nan => .nan
  | .inf neg => if neg then .nan else .zero
  | .fin neg m e =>
    if m = 0 then .inf neg
    else if neg then .nan
    else
      -- x = m x 2^e with e made even
      let m' := if e % 2 = 0 then m else 2 * m
      let e' := if e % 2 = 0 then e else e - 1
      let k := Nat.log2 m' / 2 + 200
      let v := 2 ^ (2 * k) / m'
      let r := isqrt v
      let ex := -(e' / 2) - (k : Int)
      if r * r * m' = 2 ^ (2 * k) then .fin false r ex else sticky false r ex

/-- log2 x. -/
def log2Of : FVal → FVal
  | .nan => .nan
  | .inf neg => if neg then .nan else .inf false
  | .fin neg m e =>
    if m = 0 then .inf true
    else if neg then .nan
    else
      let s := Nat.log2 m
      let n : Int := e + s
      if m = 2 ^ s then .ofInt n
      else
        let v : Int := n * 2 ^ fxBits + (lnFx m s * 2 ^ fxBits / ln2Fx : Nat)
        sticky (decide (v < 0)) (if v < 0 then v.natAbs - 1 else v.natAbs) (-fxBits)

def approx : ApproxFn → FVal → FVal
  | .exp2 => exp2Of
  | .rcp => rcpOf
  | .rsq => rsqOf
  | .log2 => log2Of

/-! ## Code tables (R76 to R79) -/

/-- T[m] of the presets (R77); preset 1 gives no entry above 0x7C (log 70). -/
def presetEntry (p m : Nat) : BitVec 32 :=
  let v : FVal :=
    match p with
    | 0 => if m / 8 = 0 then .fin false (m % 8) (-9) else .fin false (8 + m % 8) (m / 8 - 10 : Int)
    | 1 => if m / 4 = 0 then .fin false (m % 4) (-16)
           else if m = 0x7C then .inf false
           else if 0x7C < m then w19.decode (Config.presetGap m).toNat
           else .fin false (4 + m % 4) (m / 4 - 17 : Int)
    | 2 => .fin false m 0
    | _ => if m = 0 then .zero else exp2Of (.fin (decide (m < 64)) (if m < 64 then 64 - m else m - 64) (-3))
  BitVec.ofNat 32 (w19.round .rne 0 v)

def presetNan : Nat → Nat
  | 0 => 0x7F
  | 1 => 0x7D
  | _ => 0

def preset (p : Nat) : CodeTable := ⟨(List.range 128).map (presetEntry p), presetNan p⟩

/-- The table that a core holds: preset 0 until one is loaded (R76). -/
def Core.table (c : Core) : CodeTable := match c.code with | some t => t | none => preset 0

/-- The table a selector names (R77). -/
def Core.tableOf (c : Core) (sel : Nat) : CodeTable := if sel = 4 then c.table else preset sel

def CodeTable.entry (t : CodeTable) (m : Nat) : FVal := w19.decode (t.t.getD m 0).toNat

/-- The value of a code (R76). -/
def CodeTable.decode (t : CodeTable) (c : Nat) : FVal :=
  let m := c % 128
  if t.nan != 0 && t.nan ≤ m then .nan
  else if c / 128 % 2 = 1 then (t.entry m).neg else t.entry m

def CodeTable.limit (t : CodeTable) : Nat := if t.nan = 0 then 128 else t.nan

def FVal.isFin : FVal → Bool | .fin .. => true | _ => false

/-- L_fin (R78): the largest code below the limit with a finite entry. -/
def CodeTable.lfin (t : CodeTable) : Option Nat :=
  ((List.range t.limit).reverse).find? fun m => (t.entry m).isFin

def nondecreasing : List FVal → Bool
  | a :: b :: l => a.le b && nondecreasing (b :: l)
  | _ => true

/-- A table is ordered (R78). A -0 entry is not non-negative only by its sign bit; it is taken as zero (DEDUCED, log 19). -/
def CodeTable.ordered (t : CodeTable) : Bool :=
  match t.lfin with
  | none => false
  | some l =>
    let es := (List.range (l + 1)).map t.entry
    es.all (fun v => v.isFin && FVal.zero.le v) && nondecreasing es
      && ((List.range t.limit).drop (l + 1)).all fun m => t.entry m == .inf false

/-- The magnitude of a value. -/
def FVal.abs : FVal → FVal
  | .nan => .nan
  | .inf _ => .inf false
  | .fin _ m e => .fin false m e

/-- Pick of R79, whose table is taken as it stands also where `a` is an entry exactly: RUP and RDN then move away from it
(DESIGN CHOICE, log 99). -/
def pickCode (t : CodeTable) (lo : Nat) (a : FVal) (neg : Bool) (mode : RoundMode) (draw : Nat) : Nat :=
  let hi := lo + 1
  match mode with
  | .rz => lo
  | .rup => if neg then lo else hi
  | .rdn => if neg then hi else lo
  | _ =>
    let d1 := a.add .rne (t.entry lo).neg.abs.neg
    let d2 := (t.entry hi).abs.add .rne a.neg
    match mode with
    | .sr => match d1, d2 with
      | .fin _ m e, .fin _ n f =>
        let e0 := if e ≤ f then e else f
        let x := scaleTo m e e0
        let y := scaleTo n f e0
        if x + y = 0 then lo else if draw < 65536 * x / (x + y) then hi else lo
      | _, _ => lo
    | .rna => if d1.lt d2 then lo else hi
    | _ => if d1.lt d2 then lo else if d2.lt d1 then hi else (if lo % 2 = 0 then lo else hi)

/-- EncodeC8 through an ordered table (R79). -/
def CodeTable.encode (t : CodeTable) (mode : RoundMode) (draw : Nat) (x : FVal) : Nat :=
  let l := t.lfin.getD 0
  match x with
  | .nan => t.nan
  | .inf neg =>
    (((List.range t.limit).find? fun m => t.entry m == .inf false).getD l) + (if neg then 128 else 0)
  | .fin neg m e =>
    let a := FVal.fin false m e
    let code :=
      if (t.entry l).le a then l
      else if a.lt (t.entry 0) then 0
      else pickCode t (((List.range l).reverse.find? fun j => (t.entry j).le a).getD 0) a neg mode draw
    code + (if neg then 128 else 0)

/-! ## Microscaled blocks (R80, R81) -/

/-- Twice the magnitude of an E2M1 code. -/
def e2m1Twice (c : Nat) : Nat := [0, 1, 2, 3, 4, 6, 8, 12].getD (c % 8) 0

/-- scale x element (R80). -/
def mxValue (scale code : Nat) : FVal :=
  if scale = 0xFF then .nan else .fin (code / 8 % 2 == 1) (e2m1Twice code) (scale - 128 : Int)

/-- E2M1 is a binary format of two exponent bits and one fraction bit; it has no infinity and saturates. -/
def e2m1Code (mode : RoundMode) (draw : Nat) (neg : Bool) (m : Nat) (e : Int) : Nat :=
  if m = 0 then (if neg then 8 else 0)
  else
    let q0 := e + Nat.log2 m - 1
    let q := if q0 ≤ -1 then -1 else q0
    let code := (q + 1).toNat * 2 + roundAt mode neg draw m e q
    Nat.min 7 code + (if neg then 8 else 0)

/-- floor(log2 x) of a positive value. -/
def FVal.log2 : FVal → Int
  | .fin _ m e => e + Nat.log2 m
  | _ => 0

def clampScale (e : Int) : Nat := if e < 0 then 0 else if 0xFE < e then 0xFE else e.toNat

/-- The largest magnitude of a block, padding apart. -/
def amaxOf (blk : List (Option FVal)) : FVal :=
  blk.foldl (fun a x => match x with | some v => if a.lt v.abs then v.abs else a | none => a) .zero

/-- Quantise a block (R81): its scale and its codes; `tab` for C8, else MXFP4. -/
def quantise (tab : Option CodeTable) (mode : RoundMode) (draw : Nat → Nat) (blk : List (Option FVal)) : Nat × List Nat :=
  if blk.any fun x => match x with | some v => !v.isFin | none => false then (0xFF, blk.map fun _ => 0)
  else
    let amax := amaxOf blk
    if amax.isZero then (0, blk.map fun _ => 0)
    else
      let top := match tab with
        | none => 2
        | some t => match t.lfin with
          | some l => if (t.entry l).isZero then 0 else (t.entry l).log2
          | none => 0
      let e := clampScale (amax.log2 - top + 127)
      (e, blk.zipIdx.map fun p => match p.1 with
        | some (.fin neg m ex) => match tab with
          | none => e2m1Code mode (draw p.2) neg m (ex - e + 127)
          | some t => t.encode mode (draw p.2) (.fin neg m (ex - e + 127))
        | _ => 0)

/-! ## Element types -/

end Sys2Proof.Machine

namespace Sys2Proof

open Sys2Proof.Machine

/-- The code of a type (R64). -/
def ElemType.code : ElemType → Nat
  | .int8 => 0 | .int16 => 1 | .int32 => 2 | .int64 => 3 | .fp16 => 4 | .bf16 => 5 | .fp32 => 6 | .w19 => 7 | .c8 => 8
  | .mxfp4 => 9

/-- Width in bits (R64), and elements of a vector register (R130 of spec/08). -/
def ElemType.width : ElemType → Nat
  | .int8 => 8 | .int16 => 16 | .int32 => 32 | .int64 => 64 | .fp16 => 16 | .bf16 => 16 | .fp32 => 32 | .w19 => 32
  | .c8 => 8 | .mxfp4 => 4

def ElemType.count (t : ElemType) : Nat := 1024 / t.width

/-- The binary format of a floating-point type. -/
def ElemType.ffmt : ElemType → FFmt
  | .fp16 => Machine.fp16 | .bf16 => Machine.bf16 | .w19 => Machine.w19 | _ => Machine.fp32

def ElemType.isInt (t : ElemType) : Bool := t.code < 4

end Sys2Proof

namespace Sys2Proof.Machine

open Sys2Proof

/-- The type of a code (R64); 0xA to 0xF are reserved and do not occur here. -/
def typeOf (n : Nat) : ElemType := elemTypeOf n

/-- A `w`-bit field as a signed or unsigned integer. -/
def intOf (unsigned : Bool) (w v : Nat) : Int :=
  if unsigned || v % 2 ^ w < 2 ^ (w - 1) then (v % 2 ^ w : Nat) else (v % 2 ^ w : Nat) - 2 ^ w

def intLo (unsigned : Bool) (w : Nat) : Int := if unsigned then 0 else -(2 ^ (w - 1) : Nat)
def intHi (unsigned : Bool) (w : Nat) : Int := if unsigned then (2 ^ w : Nat) - 1 else (2 ^ (w - 1) : Nat) - 1

/-- The low `w` bits of an integer. -/
def wrapInt (w : Nat) (v : Int) : Nat := (v % (2 ^ w : Nat)).toNat

def clampInt (lo hi v : Int) : Int := if v < lo then lo else if hi < v then hi else v

/-- The exact value of an element that is not MXFP4 (R82 step 1). -/
def elemValue (t : ElemType) (unsigned : Bool) (tab : CodeTable) (bits : Nat) : FVal :=
  match t with
  | .c8 => tab.decode bits
  | _ => if t.isInt then .ofInt (intOf unsigned t.width bits) else t.ffmt.decode bits

/-- A value rounded once into a type that is not MXFP4 (R65, R71, R79, R82). -/
def toElem (t : ElemType) (unsigned : Bool) (tab : CodeTable) (mode : RoundMode) (draw : Nat) (x : FVal) : Nat :=
  match t with
  | .c8 => tab.encode mode draw x
  | _ => if t.isInt then wrapInt t.width (roundInt mode draw (intLo unsigned t.width) (intHi unsigned t.width) x)
         else t.ffmt.round mode draw x

end Sys2Proof.Machine
end

