-- ==== Sys2Proof/Machine/Diagram.lean ====
section
/-! DEFINITION. The decision-diagram engine (R198 to R215 and R415 to R427 of spec/12): its recursions, suspension and
collection, the queue of a space, and the instructions' issue. -/

namespace Sys2Proof.Machine

open Sys2Proof

/-! ## Nodes, edges, order (R198 to R202) -/

/-- The node of an index that is not free. -/
def Space.node (sp : Space) (i : Nat) : Option Node := (sp.nodes.find? (·.1 == i)).map (·.2)

/-- The level of a variable, and the variable at a level (R415). -/
def Space.levelOf (sp : Space) (v : Nat) : Nat := Table.val v v sp.order
def Space.varAt (sp : Space) (l : Nat) : Nat := ((List.range sp.nvar).find? fun v => sp.levelOf v == l).getD l

/-- The level of an edge; the terminal's is NVAR. -/
def Space.level (sp : Space) (e : Nat) : Nat :=
  match sp.node (e / 2) with
  | none => sp.nvar
  | some n => sp.levelOf n.var

/-- LOW and HIGH of an edge's node under its complement bit. -/
def Space.low (sp : Space) (e : Nat) : Nat :=
  match sp.node (e / 2) with | none => e | some n => n.low ^^^ (e % 2)
def Space.high (sp : Space) (e : Nat) : Nat :=
  match sp.node (e / 2) with | none => e | some n => n.high ^^^ (e % 2)

/-- The cofactors at a level (R202). -/
def Space.cof (sp : Space) (l e : Nat) : Nat × Nat := if l < sp.level e then (e, e) else (sp.low e, sp.high e)

/-- The lowest free index from `i` up; the nodes' indices rise. -/
def freeFrom (i : Nat) : Table Node → Nat
  | [] => i
  | (j, _) :: t => if j = i then freeFrom (i + 1) t else if i < j then i else freeFrom i t

def Space.lowestFree (sp : Space) : Option Nat :=
  let i := freeFrom 1 sp.nodes
  if i < sp.cap then some i else none

def Space.freeCount (sp : Space) : Nat := sp.cap - 1 - sp.nodes.length

/-! ## Building (R201, R203, R417 to R420) -/

/-- Why an operation gives no result: suspended with what is left to do, or a deferred trap (code, TADDR). -/
inductive DdStop where
  | full (fs : List DdFrame)
  | trap (code : Nat) (taddr : Nat)

/-- What a recursion leaves: the space and its result. -/
abbrev DdRes := Space × Except DdStop Nat

/-- Suspended inside: the frame that waits for the inner result comes after it. -/
def DdRes.under (r : DdRes) (f : DdFrame) : DdRes :=
  match r.2 with
  | .error (.full fs) => (r.1, .error (.full (fs ++ [f])))
  | _ => r

/-- Continue with a result. -/
def DdRes.then_ (r : DdRes) (k : Space → Nat → DdRes) : DdRes :=
  match r.2 with
  | .ok e => k r.1 e
  | .error _ => r

/-- MK with HIGH not complemented. -/
def mkPlain (v lo hi : Nat) (sp : Space) : DdRes :=
  match sp.nodes.find? fun n => n.2.var == v && n.2.low == lo && n.2.high == hi with
  | some n => (sp, .ok (2 * n.1))
  | none => match sp.lowestFree with
    | none => (sp, .error (.full [.mk v lo hi]))
    | some i => ({ sp with nodes := Table.put i ⟨v, lo, hi, 0⟩ sp.nodes }, .ok (2 * i))

/-- MK of R201. -/
def mkNode (v lo hi : Nat) (sp : Space) : DdRes :=
  if lo = hi then (sp, .ok lo)
  else if hi % 2 = 1 then
    ((mkPlain v (lo ^^^ 1) (hi ^^^ 1) sp).under .flip).then_ fun sp e => (sp, .ok (e ^^^ 1))
  else mkPlain v lo hi sp

/-- MK of the low and high results, low first. -/
def buildBoth (v : Nat) (lowFrame : DdFrame) (low : Space → DdRes) (high : Space → DdRes) (sp : Space) : DdRes :=
  ((low sp).under lowFrame).then_ fun sp lo => ((high sp).under (.appHigh lo v)).then_ fun sp hi => mkNode v lo hi sp

/-- Bit `i` of a truth table, and the value of a constant edge. -/
def truth (t i : Nat) : Nat := t / 2 ^ i % 2
def edgeBit (e : Nat) : Nat := 1 - e
def constEdge (b : Nat) : Nat := 1 - b

/-- Unary(a, b, e) of R417. -/
def unaryEdge (a b e : Nat) : Nat := if a = b then constEdge a else if b = 1 then e else e ^^^ 1

/-- App of R417; the fuel exceeds the number of levels. -/
def appEdges (t : Nat) : Nat → Nat → Nat → Space → DdRes
  | 0, f, _, sp => (sp, .ok f)
  | n + 1, f, g, sp =>
    if f < 2 && g < 2 then (sp, .ok (constEdge (truth t (2 * edgeBit f + edgeBit g))))
    else if f < 2 then (sp, .ok (unaryEdge (truth t (2 * edgeBit f)) (truth t (2 * edgeBit f + 1)) g))
    else if g < 2 then (sp, .ok (unaryEdge (truth t (edgeBit g)) (truth t (2 + edgeBit g)) f))
    else if f = g then (sp, .ok (unaryEdge (truth t 0) (truth t 3) f))
    else if f = g ^^^ 1 then (sp, .ok (unaryEdge (truth t 1) (truth t 2) f))
    else
      let l := Nat.min (sp.level f) (sp.level g)
      let a := sp.cof l f
      let b := sp.cof l g
      let v := sp.varAt l
      buildBoth v (.appLow t a.2 b.2 v) (appEdges t n a.1 b.1) (appEdges t n a.2 b.2) sp

/-- Ite of R418. -/
def iteEdges : Nat → Nat → Nat → Nat → Space → DdRes
  | 0, f, _, _, sp => (sp, .ok f)
  | n + 1, f, g, h, sp =>
    if f = 0 then (sp, .ok g)
    else if f = 1 then (sp, .ok h)
    else if g = h then (sp, .ok g)
    else if g = 0 && h = 1 then (sp, .ok f)
    else if g = 1 && h = 0 then (sp, .ok (f ^^^ 1))
    else
      let l := Nat.min (sp.level f) (Nat.min (sp.level g) (sp.level h))
      let a := sp.cof l f
      let b := sp.cof l g
      let c := sp.cof l h
      let v := sp.varAt l
      buildBoth v (.iteLow a.2 b.2 c.2 v) (iteEdges n a.1 b.1 c.1) (iteEdges n a.2 b.2 c.2) sp

/-- Res of R419: restrict variable `v` to a value. -/
def resEdges (v : Nat) (val : Bool) : Nat → Nat → Space → DdRes
  | 0, f, sp => (sp, .ok f)
  | n + 1, f, sp =>
    let l := sp.level f
    if sp.levelOf v < l then (sp, .ok f)
    else
      let a := sp.cof l f
      if l = sp.levelOf v then (sp, .ok (if val then a.2 else a.1))
      else
        let top := sp.varAt l
        buildBoth top (.resLow v val a.2 top) (resEdges v val n a.1) (resEdges v val n a.2) sp

/-- Is an edge's node a positive cube's: not complemented, LOW FALSE (R420)? -/
def Space.cubeNode (sp : Space) (c : Nat) : Bool := c % 2 == 0 && sp.low c == 1

/-- Skip the cube's nodes above level `l`, each checked as it is met (DEDUCED, log 44). -/
def skipCube (sp : Space) (l : Nat) : Nat → Nat → Except Nat Nat
  | 0, c => .ok c
  | n + 1, c =>
    if c = 0 then .ok c
    else if !sp.cubeNode c then .error c
    else if sp.level c < l then skipCube sp l n (sp.high c)
    else .ok c

/-- Ex of R420. -/
def exEdges : Nat → Nat → Nat → Space → DdRes
  | 0, f, _, sp => (sp, .ok f)
  | n + 1, f, c, sp =>
    if f < 2 || c = 0 then (sp, .ok f)
    else
      let l := sp.level f
      match skipCube sp l (sp.nvar + 1) c with
      | .error c => (sp, .error (.trap 0x244 c))
      | .ok c =>
        if c = 0 then (sp, .ok f)
        else
          let a := sp.cof l f
          let here := sp.level c == l
          let c' := if here then sp.high c else c
          let v := sp.varAt l
          ((exEdges n a.1 c' sp).under (.exLow a.2 c' v here)).then_ fun sp lo =>
            ((exEdges n a.2 c' sp).under (.exHigh lo v here)).then_ fun sp hi =>
              if here then appEdges 0xE (sp.nvar + 1) lo hi sp else mkNode v lo hi sp

/-- Fuel for a recursion over the levels. -/
def Space.fuel (sp : Space) : Nat := sp.nvar + 1

/-- Go on after a suspension: the innermost frame makes its node, each later frame takes the result of the one before. -/
def resumeFrames : List DdFrame → Nat → Space → DdRes
  | [], r, sp => (sp, .ok r)
  | f :: fs, r, sp =>
    let out : DdRes := match f with
      | .mk v lo hi => mkNode v lo hi sp
      | .flip => (sp, .ok (r ^^^ 1))
      | .appHigh lo v => mkNode v lo r sp
      | .appLow t f1 g1 v => ((appEdges t sp.fuel f1 g1 sp).under (.appHigh r v)).then_ fun sp hi => mkNode v r hi sp
      | .iteLow f1 g1 h1 v => ((iteEdges sp.fuel f1 g1 h1 sp).under (.appHigh r v)).then_ fun sp hi => mkNode v r hi sp
      | .resLow v val f1 top => ((resEdges v val sp.fuel f1 sp).under (.appHigh r top)).then_ fun sp hi => mkNode top r hi sp
      | .exLow f1 c top q => ((exEdges sp.fuel f1 c sp).under (.exHigh r top q)).then_ fun sp hi =>
          if q then appEdges 0xE sp.fuel r hi sp else mkNode top r hi sp
      | .exHigh lo top q => if q then appEdges 0xE sp.fuel lo r sp else mkNode top lo r sp
    match out.2 with
    | .ok e => resumeFrames fs e out.1
    | .error (.full gs) => (out.1, .error (.full (gs ++ fs)))
    | .error k => (out.1, .error k)

/-! ## Collection (R205, R206) -/

/-- The edges a frame holds. DESIGN CHOICE (log 87): the recursion state that R206 speaks of holds the cofactors still to come and the
low result, no operand that is used no more. -/
def DdFrame.edges : DdFrame → List Nat
  | .mk _ lo hi => [lo, hi]
  | .appLow _ f1 g1 _ => [f1, g1]
  | .appHigh lo _ => [lo]
  | .iteLow f1 g1 h1 _ => [f1, g1, h1]
  | .resLow _ _ f1 _ => [f1]
  | .exLow f1 c _ _ => [f1, c]
  | .exHigh lo _ _ => [lo]
  | .flip => []

/-- The operand edges of an operation. -/
def DdOp.edges : DdOp → List Word
  | .mk _ lo hi => [lo, hi]
  | .app _ f g => [f, g]
  | .ite f g h => [f, g, h]
  | .res _ _ f => [f]
  | .ex _ f c => [f, c]
  | .wc f _ => [f]
  | .refInc e | .refDec e | .refGet e => [e]
  | .sat f _ => [f]
  | .exp f _ _ => [f]
  | .varGet _ | .varSet _ _ | .varAt _ | .gc _ | .clr _ => []

/-- Indices reachable from a list of indices, `n` levels down. -/
def Space.reach (sp : Space) : Nat → List Nat → List Nat
  | 0, l => l
  | n + 1, l =>
    let next : List Nat := l.flatMap fun i => match sp.node i with | some x => [x.low / 2, x.high / 2] | none => []
    (sp.reach n (next.foldl (fun acc i => setInsert i acc) [])).foldl (fun acc i => setInsert i acc) l

/-- DDGC's mark and sweep. -/
def Space.collect (sp : Space) : Space :=
  let held : List Nat := match sp.susp with
    | some w => w.2.flatMap DdFrame.edges ++ w.1.op.edges.map BitVec.toNat
    | none => []
  let roots := (sp.nodes.filter (·.2.ref != 0)).map (·.1) ++ held.map (· / 2)
  let live := sp.reach (sp.nvar + 1) roots
  { sp with nodes := sp.nodes.filter fun n => live.contains n.1 }

/-! ## Counting, solutions, masks (R421, R424, R427) -/

def round64 (x : FVal) : FVal := fp64.decode (fp64.round .rne 0 x)
def addRound (x y : FVal) : FVal := round64 (x.add .rne y)
def mulRound (x y : FVal) : FVal := round64 (x.mul y)

/-- x multiplied by s_l for l from `hi`-1 down to `lo`. -/
def skipLevels (sl : Nat → FVal) (lo : Nat) : Nat → FVal → FVal
  | 0, x => x
  | l + 1, x => if l < lo then x else skipLevels sl lo l (mulRound (sl l) x)

/-- R(e, L) of R421; `w` gives w0 and w1 of a variable. -/
def weighted (sp : Space) (w : Nat → FVal × FVal) : Nat → Nat → Nat → FVal
  | 0, _, _ => .zero
  | n + 1, e, l =>
    let sl := fun k => let p := w (sp.varAt k); addRound p.1 p.2
    if e = 1 then .zero
    else if e = 0 then skipLevels sl l sp.nvar (.fin false 1 0)
    else match sp.node (e / 2) with
      | none => .zero
      | some x =>
        let k := sp.levelOf x.var
        let p := w x.var
        let a := mulRound p.1 (weighted sp w n (x.low ^^^ (e % 2)) (k + 1))
        let b := mulRound p.2 (weighted sp w n (x.high ^^^ (e % 2)) (k + 1))
        skipLevels sl l k (addRound a b)

/-- DDSAT's walk: the bits set, variable `u` at bit `u`. -/
def satWalk (sp : Space) : Nat → Nat → Nat → Nat
  | 0, _, bits => bits
  | n + 1, e, bits =>
    if e < 2 then bits
    else match sp.node (e / 2) with
      | none => bits
      | some x => if sp.low e != 1 then satWalk sp n (sp.low e) bits else satWalk sp n (sp.high e) (bits + 2 ^ x.var)

/-- The first variable above 17 of a function, low branches first (R427). -/
def farVar (sp : Space) : Nat → Nat → Option Nat
  | 0, _ => none
  | n + 1, e => match sp.node (e / 2) with
    | none => none
    | some x =>
      if 17 < x.var then some x.var
      else match farVar sp n x.low with
        | some v => some v
        | none => farVar sp n x.high

/-- The function at token `t`: variable `i` is bit 17 - i. -/
def tokenTrue (sp : Space) (t : Nat) : Nat → Nat → Bool
  | 0, _ => false
  | n + 1, e =>
    if e < 2 then e == 0
    else match sp.node (e / 2) with
      | none => e % 2 == 0
      | some x => tokenTrue sp t n (if t / 2 ^ (17 - x.var) % 2 = 1 then sp.high e else sp.low e)

/-- A mask's words: bit `t` mod 64 of word t / 64, none beyond `nvoc`. -/
def maskWords (nvoc : Nat) (ok : Nat → Bool) : List Nat :=
  (List.range ((nvoc + 64) / 64)).map fun w =>
    ((List.range 64).map fun b => if 64 * w + b ≤ nvoc && ok (64 * w + b) then 2 ^ b else 0).sum

/-- The number of tokens a mask allows. -/
def maskCount (nvoc : Nat) (ok : Nat → Bool) : Nat := ((List.range (nvoc + 1)).filter ok).length

/-- DDEXP's words and count for an edge, or the variable above 17. -/
def expandEdge (sp : Space) (e nvoc : Nat) : Except Nat (List Nat × Nat) :=
  match farVar sp sp.fuel e with
  | some v => .error v
  | none =>
    let ok := fun t => tokenTrue sp t sp.fuel e
    .ok (maskWords nvoc ok, maskCount nvoc ok)

/-! ## Performing an operation -/

/-- The operand edge that TADDR of 0x242 names (R212): where several are bad, the first of them in the order in which the
operation lists its edges (DESIGN CHOICE, log 100). -/
def Space.badEdge (sp : Space) (es : List Word) : Option Word :=
  es.find? fun e => e.toNat / 2 ^ 32 != 0 || sp.cap ≤ e.toNat / 2 || (e.toNat / 2 != 0 && (sp.node (e.toNat / 2)).isNone)

/-- The variable or level immediate, checked against NVAR. -/
def DdOp.varImm : DdOp → Option Nat
  | .varGet v | .varSet v _ | .varAt v => some v
  | .mk v _ _ => some v
  | .res v _ _ => some v
  | _ => none

/-- DDCLR (R426). -/
def Space.clear (sp : Space) (n : Nat) : Space := { sp with nvar := n, order := [], nodes := [] }

/-- Swap variable `v` into level `l` (R415). -/
def Space.setLevel (sp : Space) (v l : Nat) : Space :=
  let u := sp.varAt l
  let old := sp.levelOf v
  { sp with order := Table.put v l (Table.put u old sp.order) }

/-- Change a node's reference count (R205). -/
def Space.setRef (sp : Space) (i : Nat) (r : Nat) : Space :=
  match sp.node i with
  | none => sp
  | some x => { sp with nodes := Table.put i { x with ref := r } sp.nodes }

def Space.refOf (sp : Space) (e : Nat) : Nat := match sp.node (e / 2) with | none => 0xFFFF | some x => x.ref

/-- An operation that touches the space alone. -/
def DdOp.run (op : DdOp) (sp : Space) : DdRes :=
  match op with
  | .varGet v => (sp, .ok (sp.levelOf v))
  | .varAt l => (sp, .ok (sp.varAt l))
  | .varSet v l =>
    if sp.nvar ≤ l.toNat then (sp, .error (.trap 0x243 v))
    else if !sp.nodes.isEmpty then (sp, .error (.trap 0x247 0))
    else (sp.setLevel v l.toNat, .ok 0)
  | .mk v lo hi =>
    if sp.level lo.toNat ≤ sp.levelOf v || sp.level hi.toNat ≤ sp.levelOf v then (sp, .error (.trap 0x243 v))
    else mkNode v lo.toNat hi.toNat sp
  | .app t f g => appEdges t sp.fuel f.toNat g.toNat sp
  | .ite f g h => iteEdges sp.fuel f.toNat g.toNat h.toNat sp
  | .res v val f => resEdges v val sp.fuel f.toNat sp
  | .ex all f c =>
    if all then ((exEdges sp.fuel (f.toNat ^^^ 1) c.toNat sp).under .flip).then_ fun sp e => (sp, .ok (e ^^^ 1))
    else exEdges sp.fuel f.toNat c.toNat sp
  | .refInc e =>
    if e.toNat < 2 then (sp, .ok 0) else (sp.setRef (e.toNat / 2) (Nat.min 0xFFFF (sp.refOf e.toNat + 1)), .ok 0)
  | .refDec e =>
    if e.toNat < 2 || sp.refOf e.toNat = 0xFFFF then (sp, .ok 0)
    else if sp.refOf e.toNat = 0 then (sp, .error (.trap 0x246 e.toNat))
    else (sp.setRef (e.toNat / 2) (sp.refOf e.toNat - 1), .ok 0)
  | .refGet e => (sp, .ok (sp.refOf e.toNat))
  | .clr n => (sp.clear n, .ok 0)
  | .gc _ => let sp := sp.collect; (sp, .ok sp.freeCount)
  | .wc _ _ | .sat _ _ | .exp _ _ _ => (sp, .ok 0)

/-- The diagram engine as it works for the operation's thread. -/
def DdWork.eng (w : DdWork) : Eng := ⟨w.tid, .diagram, w.sup⟩

/-- An operation with its memory accesses: the space, the result, and the words it writes with their destination; a fault is
its cause and address (R212, 0x249). -/
def State.ddMemory (s : State) (sp : Space) (w : DdWork) (asid : Nat) :
    Except (Nat × Word) (DdRes × Option (Word × List Nat)) :=
  match w.op with
  | .wc f table =>
    (s.engineReadWords w.eng w.core asid table (2 * sp.nvar)).map fun ws =>
      let at_ := fun (i : Nat) => fp64.decode (ws.getD i 0)
      let v := weighted sp (fun u => (at_ (2 * u), at_ (2 * u + 1))) sp.fuel f.toNat 0
      ((sp, .ok (fp64.round .rne 0 v)), none)
  | .sat f dst =>
    let bits := satWalk sp sp.fuel f.toNat 0
    let ws := (List.range ((sp.nvar + 63) / 64)).map fun i => bits / 2 ^ (64 * i) % 2 ^ 64
    .ok ((sp, .ok (if f = 1 then 0 else 1)), some (dst, ws))
  | .exp f dst nvoc => match expandEdge sp f.toNat nvoc with
    | .error v => .ok ((sp, .error (.trap 0x245 v)), none)
    | .ok r => .ok ((sp, .ok r.2), some (dst, r.1))
  | op => .ok (op.run sp, none)

/-- A weighted count has read its table (R106 of spec/06). -/
def State.ddTableRead (s : State) (sp : Space) (w : DdWork) (asid : Nat) : State :=
  match w.op with
  | .wc _ table => s.engineSettled w.eng w.core asid table (16 * sp.nvar)
  | _ => s

/-- An operation ends: its result arrives, one operation fewer is in flight. -/
def State.ddEnd (s : State) (w : DdWork) (r : Word) : State :=
  (s.forget (.engine w.eng)).onTid w.tid fun x =>
    { (match w.reg with | some a => x.setReg a r | none => x) with dde := x.dde - 1 }

/-- A deferred trap abandons the operation (R213). -/
def State.ddAbandon (s : State) (w : DdWork) (code : Nat) (taddr : Word) : State :=
  (s.ddEnd w (BitVec.allOnes 64)).pendTid w.tid code taddr

/-- TADDR of a trap that a recursion meets: of 0x244 the cube edge, operand C (R212, R214). -/
def DdOp.trapAddr (op : DdOp) (code a : Nat) : Nat :=
  match op with
  | .ex _ _ c => if code = 0x244 then c.toNat else a
  | _ => a

/-- What a recursion came to: the result, a suspension with 0x241, or a trap. -/
def State.ddSettle (s : State) (die asid : Nat) (w : DdWork) (r : DdRes) : State :=
  match r.2 with
  | .ok e => (s.setSpace die asid r.1).ddEnd w (BitVec.ofNat 64 e)
  | .error (.trap c a) => (s.setSpace die asid r.1).ddAbandon w c (BitVec.ofNat 64 (w.op.trapAddr c a))
  | .error (.full fs) =>
    (s.setSpace die asid { r.1 with susp := some (w, fs), mode := .suspended }).pendTid w.tid 0x241
      (BitVec.ofNat 64 r.1.cap)

/-- The words of an assignment or a mask, each at its target: a write that may not be made, or an uncorrectable error in a word's
sector, is a fault (R212, 0x249). -/
def State.ddWrite (s : State) (w : DdWork) (asid : Nat) (dst : Word) (ws : List Nat) : Except (Nat × Word) State :=
  match s.engineWordsAt w.eng w.core asid dst ws.length with
  | .error e => .error e
  | .ok l => match l.find? fun e => (s.badPieces e.2).isSome with
    | some e => .error (((s.badPieces e.2).map (·.1)).getD 0x181, e.1)
    | none => .ok (s.enginePutWords w.tid l ws)

/-- Perform an operation that has taken the DDE: operand edges, the variable, then the operation. One that waits for a page walk
stays where it is (R321 of spec/21). -/
def State.ddPerform (s₀ : State) (die asid : Nat) (sp : Space) (w : DdWork) : State :=
  let s := s₀.setSpace die asid sp
  match sp.badEdge w.op.edges with
  | some e => s.ddAbandon w 0x242 e
  | none =>
    let badVar : Bool := match w.op.varImm with | some v => decide (sp.nvar ≤ v) | none => false
    if badVar then s.ddAbandon w 0x243 (BitVec.ofNat 64 (w.op.varImm.getD 0))
    else
      let fault := fun (e : Nat × Word) =>
        if e.1 = walkWait then s₀.engineMiss w.eng w.core asid e.2 else (s.setSpace die asid { sp with fault := e.1 }).ddAbandon w 0x249 e.2
      match s.ddMemory sp w asid with
      | .error e => fault e
      | .ok (r, none) => (s.ddTableRead sp w asid).ddSettle die asid w r
      | .ok (r, some (dst, ws)) => match s.ddWrite w asid dst ws with
        | .error e => fault e
        | .ok t => t.ddSettle die asid w r

/-- DDGC while an operation is suspended (R206): collect, then resume it, or abandon it. -/
def State.ddCollectSuspended (s : State) (die asid : Nat) (sp : Space) (w : DdWork) (abort : Bool) (old : DdWork) : State :=
  let c := sp.collect
  let s := (s.setSpace die asid { c with mode := .busy, susp := if abort then none else c.susp }).ddEnd w
    (BitVec.ofNat 64 c.freeCount)
  if abort then s.ddEnd old (BitVec.allOnes 64) else s

def DdOp.atOnce : DdOp → Bool
  | .gc _ | .refGet _ => true
  | _ => false

/-- DDE_OPERATION_COMPLETES: the operation that has the DDE is performed: the resumed one, else the head of the queue; while
an operation is suspended only a DDGC or a DDREF.GET that has come since (R207). One that has not yet run when another resumes
the suspended operation keeps its place in the queue (DESIGN CHOICE, log 101). -/
def execDdeOperationCompletes (die asid : Nat) (s : State) : Out :=
  .next (match s.space die asid with
    | none => s
    | some sp => match sp.mode, sp.susp with
      | .halted, _ => s
      | .suspended, some (old, _) => match sp.queue.find? (·.now) with
        | none => s
        | some w =>
          let sp := { sp with queue := sp.queue.erase w }
          match w.op with
          | .gc abort => s.ddCollectSuspended die asid sp w abort old
          | _ => s.ddPerform die asid sp w
      | .suspended, none => s
      | .busy, some (old, fs) => s.ddSettle die asid old (resumeFrames fs 0 { sp with susp := none })
      | .busy, none => match sp.queue with
        | [] => s
        | w :: ws => s.ddPerform die asid { sp with queue := ws } w)

/-! ## Issue (R214, R215) -/

/-- Queue an operation: 0x248, the operands, 0x24A, the limit of four. -/
def ddIssue (gd : Guard) (srcs : List Src) (reg : Option Nat) (bad : List Word → Bool) (op : List Word → DdOp) (s : State) : Out :=
  s.guarded gd fun s => s.operands srcs [] fun vs s =>
    let die := slotDie s.agent
    let asid := s.asidOf s.agent
    match s.space die asid with
    | none => s.trap 0x248 0
    | some sp =>
      if bad vs then s.trap 0x24A 0
      else if 4 ≤ s.me.dde then s.park .ddeRoom
      else
        let w : DdWork := { op := op vs, tid := s.me.tid, core := s.myCoreNum, reg := reg,
                              now := (op vs).atOnce && sp.mode == .suspended, sup := s.me.sup.sinh }
        let s := s.setSpace die asid { sp with queue := sp.queue ++ [w] }
        (s.onMe fun x => { (match reg with | some a => x.clearFull a | none => x) with dde := x.dde + 1 }).done

def noCheck (_ : List Word) : Bool := false

def execDdvarGet (gd : Guard) (v : BitVec 13) (a : Fin 32) (s : State) : Out :=
  ddIssue gd [] (some a.val) (fun _ => 4095 < v.toNat) (fun _ => .varGet v.toNat) s

def execDdvarSet (gd : Guard) (v : BitVec 13) (b : Src) (s : State) : Out :=
  ddIssue gd [b] none (fun _ => 4095 < v.toNat) (fun vs => .varSet v.toNat (arg vs 0)) s

def execDdvarAt (gd : Guard) (l : BitVec 13) (a : Fin 32) (s : State) : Out :=
  ddIssue gd [] (some a.val) (fun _ => 4095 < l.toNat) (fun _ => .varAt l.toNat) s

def execDdmk (gd : Guard) (v : BitVec 12) (a : Fin 32) (b c : Src) (s : State) : Out :=
  ddIssue gd [b, c] (some a.val) noCheck (fun vs => .mk v.toNat (arg vs 0) (arg vs 1)) s

def execDdapp (gd : Guard) (t : BitVec 4) (a : Fin 32) (b c : Src) (s : State) : Out :=
  ddIssue gd [b, c] (some a.val) noCheck (fun vs => .app t.toNat (arg vs 0) (arg vs 1)) s

/-- DDITE reads A plainly; synchronised reads of B and C happen first (R418), so they come first in the operand list. -/
def execDdite (gd : Guard) (a : Fin 32) (b c : Src) (s : State) : Out :=
  ddIssue gd [b, c, plain (.g a)] (some a.val) noCheck (fun vs => .ite (arg vs 0) (arg vs 1) (arg vs 2)) s

def execDdres (gd : Guard) (v : BitVec 12) (val : Bool) (a : Fin 32) (b : Src) (s : State) : Out :=
  ddIssue gd [b] (some a.val) noCheck (fun vs => .res v.toNat val (arg vs 0)) s

def execDdex (gd : Guard) (all : Bool) (a : Fin 32) (b c : Src) (s : State) : Out :=
  ddIssue gd [b, c] (some a.val) noCheck (fun vs => .ex all (arg vs 0) (arg vs 1)) s

def execDdwc (gd : Guard) (a : Fin 32) (b c : Src) (s : State) : Out :=
  ddIssue gd [b, c] (some a.val) (fun vs => (arg vs 1).toNat % 16 != 0) (fun vs => .wc (arg vs 0) (arg vs 1)) s

def execDdrefInc (b : Src) (s : State) : Out :=
  ddIssue .always [b] none noCheck (fun vs => .refInc (arg vs 0)) s

def execDdrefDec (b : Src) (s : State) : Out :=
  ddIssue .always [b] none noCheck (fun vs => .refDec (arg vs 0)) s

def execDdrefGet (a : Fin 32) (b : Src) (s : State) : Out :=
  ddIssue .always [b] (some a.val) noCheck (fun vs => .refGet (arg vs 0)) s

def execDdgc (gd : Guard) (abort : Bool) (a : Fin 32) (s : State) : Out :=
  ddIssue gd [] (some a.val) noCheck (fun _ => .gc abort) s

def execDdsat (gd : Guard) (a : Fin 32) (b c : Src) (s : State) : Out :=
  ddIssue gd [b, c] (some a.val) (fun vs => (arg vs 1).toNat % 8 != 0) (fun vs => .sat (arg vs 0) (arg vs 1)) s

def execDdclr (gd : Guard) (n : BitVec 13) (s : State) : Out :=
  ddIssue gd [] none (fun _ => n.toNat = 0 || 4096 < n.toNat) (fun _ => .clr n.toNat) s

def execDdexp (gd : Guard) (nvoc : BitVec 18) (a : Fin 32) (b c : Src) (s : State) : Out :=
  ddIssue gd [b, c] (some a.val) (fun vs => (arg vs 1).toNat % 8 != 0) (fun vs => .exp (arg vs 0) (arg vs 1) nvoc.toNat) s

/-- DDSTAT (R425): at once, whatever the space does. -/
def statOf (sp : Option Space) (f : Nat) : Nat :=
  match sp with
  | none => 0
  | some x => match f with
    | 0 => x.cap
    | 1 => x.freeCount
    | 2 => x.nvar
    | 3 => x.lowestFree.getD 0
    | 4 => spaceState sp
    | _ => x.fault

def execDdstat (gd : Guard) (f : Fin 6) (a : Fin 32) (s : State) : Out :=
  s.guarded gd fun s => s.doneRegs [(a.val, BitVec.ofNat 64 (statOf (s.space (slotDie s.agent) (s.asidOf s.agent)) f.val))]

end Sys2Proof.Machine
end

