-- ==== Sys2Proof/Machine/Automata.lean ====
section
/-! DEFINITION. The automata engine (R169 to R197 and R406 to R414 of spec/11): descriptors, steps, lane commands and their
traps, maps, allowed sets, the loft, and the instructions. -/

namespace Sys2Proof.Machine

open Sys2Proof

/-! ## Descriptors (R174, R175) -/

/-- A descriptor's fields, and whether its reserved fields are zero. -/
def descOf (v : Nat) : AutoDesc × Bool :=
  ({ tbase := bitsAt v 0 64, cmap := bitsAt v 64 64, abase := bitsAt v 128 64, hint := bitsAt v 192 64
     nstate := bitsAt v 256 16, start := bitsAt v 272 16, ncls := bitsAt v 288 12, nstk := bitsAt v 300 12
     slim := bitsAt v 312 6, smode := bitsAt v 318 1 == 1, kind := bitsAt v 319 1 == 1, nvoc := bitsAt v 320 18
     sync := bitsAt v 338 12, cen := bitsAt v 350 1 == 1, repl := bitsAt v 352 18 },
   bitsAt v 351 1 == 0 && bitsAt v 370 142 == 0)

/-- The conditions of R175. -/
def AutoDesc.ok (d : AutoDesc) : Bool :=
  1 ≤ d.nstate && d.nstate ≤ 65532 && d.start < d.nstate
    && (d.smode || d.ncls + 1 ≤ 256)
    && (d.kind || (d.slim == 0 && d.nstk == 0))
    && (!d.cen || d.sync < d.ncls + 1)
    && (d.smode || d.repl ≤ 255)
    && d.tbase % 4 == 0 && d.cmap % 2 == 0 && d.abase % 16 == 0 && d.hint % 32 == 0
    && (16 < d.nstate || d.hint == 0)

/-- The ARESET state (R406). -/
def Lane.areset (l : Lane) : Lane :=
  { l with state := l.desc.start, stack := [], consumed := 0, firstrej := BitVec.allOnes 32, skip := false
           concealed := false, fault := 0, iptr := 0, iend := 0, optr := 0, oend := 0, status := 0 }

/-- The status word (R171); TOP of the stack is its list's head. -/
def Lane.statusWord (l : Lane) (code : Nat) : Word :=
  BitVec.ofNat 64 (l.state + l.stack.length * 2 ^ 16 + code * 2 ^ 24 + l.consumed.toNat * 2 ^ 32)

/-! ## The loft (R190 to R192) -/

/-- Why a lane does not go on: its page is absent, a lane trap (code, FAULT cause and address for 0x208), a trap of the diagram
engine (R188), or it only stands between two symbols, where it waits for a page walk or has run as far as one event takes it. -/
inductive LaneStop where
  | more
  | wait (va : Word)
  | miss (page : Nat)
  | trap (code cause : Nat) (va : Word)
  | diagram (code : Nat) (taddr : Word)

/-- The page of a table address: its number, with the core for the own-TCM window. -/
def loftTag (core va : Nat) : Nat :=
  va / 2 ^ 14 + (if va / 2 ^ 40 = 0xFFFFFF then (core + 1) * 2 ^ 50 else 0)

/-- Read table bytes that lie in one page, from the loft. -/
def State.loftRead (s : State) (core va len : Nat) : Except LaneStop (List Byte) :=
  let a := va % 2 ^ 64
  let tag := loftTag core a
  match (s.tile (coreTile core)).loft.find? (·.tag == tag) with
  | none => .error (.miss tag)
  | some p => .ok (memRead p.data (a % 2 ^ 14) len)

def State.loftNat (s : State) (core va len : Nat) : Except LaneStop Nat := (s.loftRead core va len).map leNat

/-- The contents of a list of bytes as memory. -/
def cellsOf (bs : List Byte) : List Host.Cell := memWrite [] 0 bs

def pinnedCount (l : List LoftPage) : Nat := (l.filter (·.pinned)).length

/-- The thread whose lane waits for a page of the loft. -/
def State.filler (s : State) (tile tag : Nat) : Nat :=
  (((List.range 64).findSome? fun j =>
    let l := s.lane (64 * tile + j)
    if l.mode == .parked tag then l.work.map (·.tid) else none)).getD 0

/-- The address of a loft page, and the core whose windows it is read from. -/
def pageVa (tag : Nat) : Word := BitVec.ofNat 64 (tag % 2 ^ 50 * 2 ^ 14)
def pageCore (tile tag : Nat) : Nat := if tag < 2 ^ 50 then 8 * tile else tag / 2 ^ 50 - 1

/-- The fill of a page waits: its walk is asked for. -/
def State.fillMiss (s : State) (who : Asker) (tid tile tag : Nat) : State :=
  let core := pageCore tile tag
  s.miss who (tileDie tile) (s.asidOf (8 * core)) (s.threadRoot tid core (s.asidOf (8 * core))) (pageVa tag)

/-- Fill a page with the contents of memory, which holds no store that a replica still holds (R192, R115 of spec/06); in a full
loft it replaces an unpinned page of the device's choice (log 3). A fault is its cause. -/
def State.fillPage (s : State) (who : Asker) (tile tag : Nat) : Except Nat State :=
  let core := pageCore tile tag
  let va := pageVa tag
  let asid := s.asidOf (8 * core)
  match s.engineReadOver [] who core asid va (2 ^ 14) with
  | .error e => .error e.1
  | .ok bs =>
    let pieces : List Piece := match s.engineAccess who core asid va (2 ^ 14) true false with
      | .ok ps => ps
      | .trap _ _ | .walk _ => []
    let s := s.haveRead pieces
    let leaf : Option Leaf := match s.engineAccess who core asid va 1 true false with
      | .ok (p :: _) => p.leaf
      | _ => none
    let page : LoftPage := { tag, pinned := false, data := cellsOf bs, leaf := leaf }
    let l := (s.tile tile).loft
    if l.length < 128 then .ok (s.onTile tile fun t => { t with loft := t.loft ++ [page] })
    else
      let free := l.filter (!·.pinned)
      let p := s.pick free.length
      let out := match free[p.1]? with | some q => q.tag | none => 0
      .ok (p.2.onTile tile fun t => { t with loft := t.loft.filter (·.tag != out) ++ [page] })

/-! ## Symbols, classes, transitions (R176, R177) -/

def tableFault : LaneStop := .trap 0x202 0 0

def Lane.symbolSize (l : Lane) : Nat := if l.desc.smode then 4 else 1

/-- The class of a symbol. -/
def State.classOf (s : State) (core : Nat) (d : AutoDesc) (x : Nat) : Except LaneStop Nat :=
  match s.loftNat core (d.cmap + 2 * x) 2 with
  | .error e => .error e
  | .ok k => if d.ncls < k then .error tableFault else .ok k

/-- A transition entry. -/
structure Trans where
  act : Nat
  arg : Nat
  next : Nat

/-- Is the entry well formed for the automaton's kind? -/
def Trans.ok (d : AutoDesc) (t : Trans) : Bool :=
  t.act < 0xA && t.next < d.nstate
    && !([1, 3, 7].contains t.act && t.arg == 0)
    && (d.kind || [0, 4, 5, 6].contains t.act)

def State.transOf (s : State) (core : Nat) (d : AutoDesc) (st k : Nat) : Except LaneStop Trans :=
  match s.loftNat core (d.tbase + (st * (d.ncls + 1) + k) * 4) 4 with
  | .error e => .error e
  | .ok v =>
    let t : Trans := ⟨v / 2 ^ 28, bitsAt v 16 12, v % 2 ^ 16⟩
    if t.ok d then .ok t else .error tableFault

/-! ## One step (R178) -/

inductive StepEnd where
  | none | reject | accept | yield
  deriving DecidableEq, Repr

/-- Does the action's stack condition fail (R177)? -/
def stackFails (t : Trans) (stack : List Nat) : Bool :=
  match t.act with
  | 2 | 9 => stack.isEmpty || (t.arg != 0 && stack.headD 0 != t.arg)
  | 3 | 8 => stack.isEmpty
  | _ => false

/-- The stack after the action. -/
def stackAfter (t : Trans) (stack : List Nat) : List Nat :=
  match t.act with
  | 1 | 7 => t.arg :: stack
  | 2 | 8 | 9 => stack.tail
  | 3 => t.arg :: stack.tail
  | _ => stack

def emits (act : Nat) : Bool := act == 6 || act == 7 || act == 8

/-- An emit record at position `pos`. -/
def emitRecord (pos : BitVec 32) (conceal : Bool) (repl arg : Nat) : Nat :=
  (if conceal then 2 ^ 31 + repl * 2 ^ 12 else arg) + pos.toNat * 2 ^ 32

/-- There is room for a record. -/
def Lane.room (l : Lane) : Bool := l.optr.toNat + 8 ≤ l.oend.toNat

/-- Step(x): how it ends, the lane after it, and the emit record it writes at OPTR. -/
def State.stepSymbol (s : State) (core : Nat) (l : Lane) (x : Nat) : Except LaneStop (StepEnd × Lane × Option Nat) :=
  match s.classOf core l.desc x with
  | .error e => .error e
  | .ok k =>
    if l.skip && k != l.desc.sync then .ok (.none, { l with consumed := l.consumed + 1 }, none)
    else
      let m := if l.skip then { l with skip := false, state := l.desc.start, stack := [] } else l
      match s.transOf core m.desc m.state k with
      | .error e => .error e
      | .ok t =>
        if (t.act == 1 || t.act == 7) && m.stack.length == m.desc.slim + 1 then .error (.trap 0x201 0 0)
        else if t.act == 5 || stackFails t m.stack then
          let f := if m.firstrej = BitVec.allOnes 32 then m.consumed else m.firstrej
          if !m.desc.cen then .ok (.reject, { m with firstrej := f, consumed := m.consumed + 1 }, none)
          else if !m.room then .ok (.yield, l, none)
          else .ok (.none, { m with firstrej := f, optr := m.optr + 8, skip := true, concealed := true
                                    consumed := m.consumed + 1 }, some (emitRecord m.consumed true m.desc.repl 0))
        else if emits t.act && !m.room then .ok (.yield, l, none)
        else
          let st := stackAfter t m.stack
          let n := { m with stack := st, state := t.next, consumed := m.consumed + 1
                            optr := if emits t.act then m.optr + 8 else m.optr }
          let rec_ := if emits t.act then some (emitRecord m.consumed false 0 t.arg) else none
          .ok (if t.act == 4 || (t.act == 9 && st.isEmpty) then .accept else .none, n, rec_)

/-- A lane's memory fault; an access that waits, for a page walk or behind a pause, only stands. -/
def laneFault (e : Nat × Word) : LaneStop := if e.1 = walkWait then .wait e.2 else .trap 0x208 e.1 e.2

/-- A step with its write. -/
def State.stepLane (s : State) (core asid : Nat) (e : Eng) (l : Lane) (x : Nat) : Except LaneStop (StepEnd × Lane × State) :=
  match s.stepSymbol core l x with
  | .error e => .error e
  | .ok (r, m, none) => .ok (r, m, s)
  | .ok (r, m, some w) => match s.engineWriteWords e core asid l.optr [w] with
    | .error f => .error (laneFault f)
    | .ok t => .ok (r, m, t)

/-- ReadSymbol (R176, R182). -/
def State.readSymbol (s : State) (core asid : Nat) (e : Eng) (l : Lane) (p : Word) : Except LaneStop Nat :=
  match s.engineRead e core asid p l.symbolSize with
  | .error f => .error (laneFault f)
  | .ok bs => if 2 ^ 18 ≤ leNat bs then .error (.trap 0x203 0 0) else .ok (leNat bs)

/-! ## Running a lane (R179) -/

/-- Run(budget) from `n` symbols on: the lane with its status, or where it stands before a symbol and why it stops there. -/
def State.runLane (s : State) (core asid : Nat) (en : Eng) (budget : Nat) : Nat → Nat → Lane → State × Lane × Nat × Option LaneStop
  | 0, n, l => (s, l, n, some .more)
  | fuel + 1, n, l =>
    if l.iptr = l.iend then (s, { l with status := if l.concealed then 4 else 1 }, n, none)
    else if budget != 0 && n == budget then (s, { l with status := 5 }, n, none)
    else match s.readSymbol core asid en l l.iptr with
      | .error e => (s, l, n, some e)
      | .ok x => match (s.engineSettled en core asid l.iptr l.symbolSize).stepLane core asid en l x with
        | .error e => (s, l, n, some e)
        | .ok (r, m, t) =>
          let adv := { m with iptr := m.iptr + BitVec.ofNat 64 m.symbolSize }
          match r with
          | .yield => (t, { l with status := 5 }, n, none)
          | .reject => (t, { adv with status := 3 }, n + 1, none)
          | .accept => (t, { adv with status := 2 }, n + 1, none)
          | .none => t.runLane core asid en budget fuel (n + 1) adv

/-- Symbols between IPTR and IEND. DESIGN CHOICE (log 76): where ALOAD has left a length that is no multiple of the symbol size, an
AMAP ends after the whole symbols, and its walk counts as complete. -/
def Lane.inputLength (l : Lane) : Nat := (l.iend - l.iptr).toNat / l.symbolSize

/-! ## How commands end -/

/-- A lane trap's TADDR (R182): the address for 0x208, else the lane and the position of the symbol. -/
def laneTaddr (lane code : Nat) (va : Word) (pos : BitVec 32) : Word :=
  if code = 0x208 then va else BitVec.ofNat 64 (lane % 8 + pos.toNat * 2 ^ 32)

/-- The lane is idle again. -/
def Lane.rest (l : Lane) : Lane := { l with mode := .idle, work := none }

/-- A lane of an ASTEP stops with a status and perhaps a lane trap: both arrive with the last lane (R407, R182). -/
def State.batchStop (s : State) (lane tid reg status : Nat) (trap : Option (Nat × Word)) : State :=
  let j := lane % 8
  let hit := fun (b : Batch) => b.tid == tid && b.reg == reg && b.left / 2 ^ j % 2 == 1
  let bs := (s.core (lane / 8)).batches.map fun b =>
    if hit b then
      { b with left := b.left - 2 ^ j, result := b.result + status * 2 ^ (8 * j), traps := b.traps ++ trap.toList }
    else b
  let s := s.onCore (lane / 8) fun c => { c with batches := bs.filter (·.left != 0) }
  match bs.find? (·.left == 0) with
  | some b => (b.traps.foldl (fun s f => s.pendTid tid f.1 f.2) s).deliver tid reg (BitVec.ofNat 64 b.result)
  | none => s

/-- FAULT of a lane trap. -/
def Lane.noteFault (l : Lane) (code cause : Nat) : Lane := if code = 0x208 then { l with fault := cause } else l

/-- The lane as the engine that works for the command's thread. -/
def LaneWork.eng (w : LaneWork) (lane : Nat) : Eng := ⟨w.tid, .lane lane, w.sup⟩

/-- The access of a lane's command at `va` waits. -/
def State.laneMiss (s : State) (lane : Nat) (w : LaneWork) (va : Word) : State :=
  s.engineMiss (w.eng lane) (lane / 8) (s.asidOf (lane / 8 * 8)) va

/-- ASTEP ends in a lane, waits for a page, or goes on later. -/
def State.endStep (s : State) (lane : Nat) (w : LaneWork) (budget mask : Nat) (r : State × Lane × Nat × Option LaneStop) : State :=
  let t := r.1
  let l := r.2.1
  match r.2.2.2 with
  | none => (t.onLane lane fun _ => l.rest).batchStop lane w.tid w.reg l.status none
  | some .more => t.onLane lane fun _ => { l with work := some { w with cmd := .step budget r.2.2.1 mask } }
  | some (.wait va) => (t.onLane lane fun _ => { l with work := some { w with cmd := .step budget r.2.2.1 mask } }).laneMiss lane w va
  | some (.miss p) => t.onLane lane fun _ => { l with mode := .parked p, work := some { w with cmd := .step budget r.2.2.1 mask } }
  | some (.trap c cause va) =>
    let m := { l.noteFault c cause with status := 7 }
    (t.onLane lane fun _ => m.rest).batchStop lane w.tid w.reg 7 (some (c, laneTaddr lane c va l.consumed))
  | some (.diagram _ _) => s

/-- The status AFEED leaves (R407). -/
def feedStatus (l : Lane) : StepEnd → Nat
  | .accept => 2
  | .reject => 3
  | .yield => 5
  | .none => if l.concealed then 4 else 0

/-- AFEED: one step on a symbol given. -/
def State.runFeed (s : State) (lane asid : Nat) (w : LaneWork) (l : Lane) (x : Word) : State :=
  let r := if (if l.desc.smode then 2 ^ 18 else 256) ≤ x.toNat then .error (.trap 0x203 0 0)
    else s.stepLane (lane / 8) asid (w.eng lane) l x.toNat
  match r with
  | .error .more => s
  | .error (.wait va) => s.laneMiss lane w va
  | .error (.miss p) => s.onLane lane fun _ => { l with mode := .parked p }
  | .error (.trap c cause va) =>
    let m := { l.noteFault c cause with status := 7 }
    ((s.onLane lane fun _ => m.rest).pendTid w.tid c (laneTaddr lane c va l.consumed)).deliver w.tid w.reg (m.statusWord 7)
  | .error (.diagram _ _) => s
  | .ok (e, m, t) =>
    let m := { m with status := feedStatus m e }
    (t.onLane lane fun _ => m.rest).deliver w.tid w.reg (m.statusWord m.status)

/-! ## Maps (R183 to R185) -/

/-- Used entries of a list of 16-bit values ended by 0xFFFF; none when a rule of R184 is broken. -/
def trackedOf (nstate : Nat) : Option Nat → List Nat → Option (List Nat)
  | _, [] => some []
  | last, x :: xs =>
    if x = 0xFFFF then (if xs.all (· == 0xFFFF) then some [] else none)
    else
      let rises := match last with | none => true | some p => decide (p < x)
      if nstate ≤ x || !rises then none
      else (trackedOf nstate (some x) xs).map fun t => x :: t

/-- The tracked start states. -/
def State.tracked (s : State) (core : Nat) (d : AutoDesc) (ix : Word) : Except LaneStop (List Nat) :=
  if d.nstate ≤ 16 then .ok (List.range d.nstate)
  else match s.loftRead core (d.hint + 32 * (ix.toNat % 2 ^ 32)) 32 with
    | .error e => .error e
    | .ok bs =>
      match trackedOf d.nstate none ((List.range 16).map fun i => leNat ((bs.drop (2 * i)).take 2)) with
      | some t => .ok t
      | none => .error tableFault

/-- One symbol for every live path: a path is its FROM and its TO. -/
def State.mapPaths (s : State) (core : Nat) (d : AutoDesc) (k : Nat) : List (Nat × Nat) → Except LaneStop (List (Nat × Nat))
  | [] => .ok []
  | (f, to_) :: ps =>
    if 0xFFFC ≤ to_ then (s.mapPaths core d k ps).map fun l => (f, to_) :: l
    else match s.transOf core d to_ k with
      | .error e => .error e
      | .ok t =>
        let n := if t.act = 4 then 0xFFFD else if t.act = 5 then 0xFFFE else t.next
        (s.mapPaths core d k ps).map fun l => (f, n) :: l

/-- One symbol of AMAP. DESIGN CHOICE (log 86): once no path is live any more, no class is looked up, and the symbol is only counted. -/
def State.mapSymbol (s : State) (core : Nat) (d : AutoDesc) (x : Nat) (ps : List (Nat × Nat)) : Except LaneStop (List (Nat × Nat)) :=
  if ps.all fun p => 0xFFFC ≤ p.2 then .ok ps
  else match s.classOf core d x with
    | .error e => .error e
    | .ok k => s.mapPaths core d k ps

/-- The walk of AMAP from where it stands: where it then stands, and why it stops before the end. DESIGN CHOICE (log 86): a symbol
whose class or transition is a table fault is not among those that the result counts as read. -/
def State.mapWalk (s : State) (core asid : Nat) (en : Eng) (l : Lane) : Nat → MapAt → MapAt × Option LaneStop
  | 0, m => (m, none)
  | fuel + 1, m =>
    match s.readSymbol core asid en l (l.iptr + BitVec.ofNat 64 (m.read * l.symbolSize)) with
    | .error e => (m, some e)
    | .ok x => match s.mapSymbol core l.desc x m.paths with
      | .error e => (m, some e)
      | .ok qs => s.mapWalk core asid en l fuel { m with read := m.read + 1, paths := qs }

/-- A map record as 8-byte words. -/
def mapWords (ps : List (Nat × Nat)) : List Nat :=
  let es := ps.map (fun p => p.1 + p.2 * 2 ^ 16) ++ List.replicate (16 - ps.length) 0xFFFFFFFF
  (List.range 8).map fun i => es.getD (2 * i) 0 + es.getD (2 * i + 1) 0 * 2 ^ 32

/-- Distinct values that are no markers. -/
def distinctStates (ps : List (Nat × Nat)) : Nat :=
  ((ps.map (·.2)).filter (· < 0xFFFC)).eraseDups.length

/-- AMAP's result word, as far as it has come. -/
def mapResult (m : MapAt) (code : Nat) : Word :=
  BitVec.ofNat 64 (m.tracked + distinctStates m.paths * 2 ^ 8 + code * 2 ^ 24 + m.read % 2 ^ 32 * 2 ^ 32)

/-- AMAP (R184, R408): it changes no lane state but FAULT. What it has read stands while it waits for a page. -/
def State.runMap (s : State) (lane asid : Nat) (w : LaneWork) (l : Lane) (dst ix : Word) (at_ : Option MapAt) : State :=
  let core := lane / 8
  let begin : Except LaneStop MapAt := match at_ with
    | some m => .ok m
    | none => (s.tracked core l.desc ix).map fun t => ⟨t.length, 0, t.map fun f => (f, f)⟩
  let walk : MapAt × Option LaneStop := match begin with
    | .error e => (⟨0, 0, []⟩, some e)
    | .ok m => s.mapWalk core asid (w.eng lane) l (l.inputLength - m.read) m
  let m := walk.1
  let first := match at_ with | some m => m.read | none => 0
  let s := s.engineSettled (w.eng lane) core asid (l.iptr + BitVec.ofNat 64 (first * l.symbolSize)) ((m.read - first) * l.symbolSize)
  let keep := match begin with | .ok _ => some m | .error _ => none
  let written : Except LaneStop State := match walk.2 with
    | some e => .error e
    | none => match s.engineWriteWords (w.eng lane) core asid dst (mapWords m.paths) with
      | .error e => .error (laneFault e)
      | .ok t => .ok t
  match written with
  | .error .more => s.onLane lane fun l => { l with work := some { w with cmd := .map dst ix keep } }
  | .error (.wait va) => (s.onLane lane fun l => { l with work := some { w with cmd := .map dst ix keep } }).laneMiss lane w va
  | .error (.miss p) => s.onLane lane fun l => { l with mode := .parked p, work := some { w with cmd := .map dst ix keep } }
  | .error (.trap c cause va) =>
    ((s.onLane lane fun l => (l.noteFault c cause).rest).pendTid w.tid c
      (laneTaddr lane c va (l.consumed + BitVec.ofNat 32 m.read))).deliver w.tid w.reg (mapResult m 7)
  | .error (.diagram _ _) => s
  | .ok t => (t.onLane lane Lane.rest).deliver w.tid w.reg (mapResult m 1)

/-- The used entries of a record, or none when it breaks the rules of R183. -/
def mapEntries : Option Nat → List Nat → Option (List (Nat × Nat))
  | _, [] => some []
  | last, e :: es =>
    if e = 0xFFFFFFFF then (if es.all (· == 0xFFFFFFFF) then some [] else none)
    else
      let f := e % 2 ^ 16
      let t := e / 2 ^ 16
      let rises := match last with | none => true | some p => decide (p < f)
      if 0xFFFC ≤ f || t = 0xFFFF || !rises then none
      else (mapEntries (some f) es).map fun l => (f, t) :: l

/-- Image of R185. -/
def imageOf (m : List (Nat × Nat)) (x : Nat) : Nat :=
  if 0xFFFC ≤ x then x else match m.find? (·.1 == x) with | some e => e.2 | none => 0xFFFC

/-- A memory fault of ACOMP, which is the deferred 0x208, or a page walk it waits for. -/
def compFault (e : Nat × Word) : Nat × Word := if e.1 = walkWait then e else (0x208, e.2)

/-- Read a map record for ACOMP: a deferred 0x206 with the first map's address, or 0x208 with the faulting address. -/
def State.readMap (s : State) (va first : Word) : Except (Nat × Word) (List (Nat × Nat)) :=
  match s.engineRead s.myEng s.myCoreNum (s.asidOf s.agent) va 64 with
  | .error e => .error (compFault e)
  | .ok bs => match mapEntries none ((List.range 16).map fun i => leNat ((bs.drop (4 * i)).take 4)) with
    | none => .error (0x206, first)
    | some m => .ok m

/-- The map records that a composing command reads (R106 of spec/06). -/
def State.settleMaps (s : State) (vas : List Word) : State :=
  vas.foldl (fun s va => s.engineSettled s.myEng s.myCoreNum (s.asidOf s.agent) va 64) s

/-! ## Allowed sets (R187 to R189) -/

def badSet : LaneStop := .trap 0x207 0 0

/-- The words of a bitmap body. -/
def State.bitmapBody (s : State) (core va : Nat) : Nat → Except LaneStop (List Nat)
  | 0 => .ok []
  | n + 1 => match s.loftNat core va 8 with
    | .error e => .error e
    | .ok w => (s.bitmapBody core (va + 8) n).map fun l => w :: l

/-- The ranges of a body from `va` up, ascending and apart: those read, and why it stops before the last. -/
def State.rangeBody (s : State) (core nvoc : Nat) : Nat → Nat → AllowAt → AllowAt × Option LaneStop
  | 0, _, m => (m, none)
  | n + 1, va, m => match s.loftNat core va 8 with
    | .error e => (m, some e)
    | .ok w =>
      let a := bitsAt w 0 18
      let b := bitsAt w 32 18
      if w != a + b * 2 ^ 32 || a < m.least || b < a || nvoc < b then (m, some badSet)
      else s.rangeBody core nvoc n (va + 8) { m with ranges := m.ranges ++ [(a, b)], least := b + 1 }

/-- The index entry of the lane's state and top of stack (R187). -/
def State.allowEntry (s : State) (core : Nat) (l : Lane) : Except LaneStop AllowAt :=
  let top := l.stack.headD 0
  if l.desc.nstk < top then .error badSet
  else (s.loftNat core (l.desc.abase + (l.state * (l.desc.nstk + 1) + top) * 16) 16).map fun v => ⟨v, [], 0⟩

/-- The words of the allowed set's mask and the number of its tokens (R188), from an index entry and the ranges read; and how far
the ranges have been read. DESIGN CHOICE (log 96): form 4 expands at once, outside the order of the diagram engine and also while the
space is Suspended. -/
def State.allowedSet (s : State) (core asid : Nat) (l : Lane) (m : AllowAt) : AllowAt × Except LaneStop (List Nat × Nat) :=
  let d := l.desc
  let mask := fun (ok : Nat → Bool) => Except.ok (ε := LaneStop) (maskWords d.nvoc ok, maskCount d.nvoc ok)
  let form := bitsAt m.entry 28 4
  let len := bitsAt m.entry 32 32
  let addr := bitsAt m.entry 64 64
  if bitsAt m.entry 0 28 != 0 then (m, .error badSet)
  else match form with
    | 0 => (m, if len != 0 || addr != 0 then .error badSet else mask fun _ => false)
    | 1 => (m, if len != 0 || addr != 0 then .error badSet else mask fun _ => true)
    | 2 => (m,
        if addr % 8 != 0 || len != (d.nvoc + 64) / 64 * 8 then .error badSet
        else match s.bitmapBody core addr (len / 8) with
          | .error e => .error e
          | .ok ws => mask fun t => (ws.getD (t / 64) 0) / 2 ^ (t % 64) % 2 == 1)
    | 3 =>
      if addr % 8 != 0 then (m, .error badSet)
      else
        let k := m.ranges.length
        let r := s.rangeBody core d.nvoc (len - k) (addr + 8 * k) m
        (r.1, match r.2 with
          | some e => .error e
          | none => mask fun t => r.1.ranges.any fun r => decide (r.1 ≤ t) && decide (t ≤ r.2))
    | 4 => (m,
        if 2 ^ 32 ≤ addr || len != 0 then .error badSet
        else match s.space (tileDie (coreTile core)) asid with
          | none => .error (.diagram 0x248 0)
          | some sp => match sp.badEdge [BitVec.ofNat 64 addr] with
            | some e => .error (.diagram 0x242 e)
            | none => match expandEdge sp addr d.nvoc with
              | .error u => .error (.diagram 0x245 (BitVec.ofNat 64 u))
              | .ok r => .ok r)
    | _ => (m, .error badSet)

/-- AALLOW (R189, R410): it changes no lane state but FAULT. The index entry and the ranges it has read stand while it waits for a
page. -/
def State.runAllow (s : State) (lane asid : Nat) (w : LaneWork) (l : Lane) (dst : Word) (at_ : Option AllowAt) : State :=
  let core := lane / 8
  let begin : Except LaneStop AllowAt := match at_ with
    | some m => .ok m
    | none => s.allowEntry core l
  let set : Option AllowAt × Except LaneStop (List Nat × Nat) := match begin with
    | .error e => (none, .error e)
    | .ok m =>
      let r := s.allowedSet core asid l m
      (some r.1, r.2)
  let r : Except LaneStop (Nat × State) := match set.2 with
    | .error e => .error e
    | .ok (ws, n) => match s.engineWriteWords (w.eng lane) core asid dst ws with
      | .error e => .error (laneFault e)
      | .ok t => .ok (n, t)
  match r with
  | .error .more => s.onLane lane fun l => { l with work := some { w with cmd := .allow dst set.1 } }
  | .error (.wait va) => (s.onLane lane fun l => { l with work := some { w with cmd := .allow dst set.1 } }).laneMiss lane w va
  | .error (.miss p) => s.onLane lane fun l => { l with mode := .parked p, work := some { w with cmd := .allow dst set.1 } }
  | .error (.trap c cause va) =>
    ((s.onLane lane fun l => (l.noteFault c cause).rest).pendTid w.tid c (laneTaddr lane c va l.consumed)).deliver
      w.tid w.reg (BitVec.allOnes 64)
  | .error (.diagram c va) =>
    ((s.onLane lane Lane.rest).pendTid w.tid c va).deliver w.tid w.reg (BitVec.allOnes 64)
  | .ok (n, t) => (t.onLane lane Lane.rest).deliver w.tid w.reg (BitVec.ofNat 64 n)

/-! ## Events -/

/-- A lane's command goes on. -/
def State.runCommand (s : State) (lane : Nat) (l : Lane) (w : LaneWork) : State :=
  let asid := s.asidOf (lane / 8 * 8)
  match w.cmd with
  | .step budget done mask =>
    if l.status = 2 || l.status = 3 then (s.onLane lane Lane.rest).batchStop lane w.tid w.reg l.status none
    else
      let fuel := if budget = 0 then l.inputLength + 1 else budget - done + 1
      s.endStep lane w budget mask (s.runLane (lane / 8) asid (w.eng lane) budget fuel done l)
  | .feed x => s.runFeed lane asid w l x
  | .map dst ix m => s.runMap lane asid w l dst ix m
  | .allow dst m => s.runAllow lane asid w l dst m

/-- LANE_COMMAND_COMPLETES: the lane's command runs to its end, or to a page that the loft does not hold. -/
def execLaneCommandCompletes (lane : Nat) (s : State) : Out :=
  let l := s.lane lane
  .next (match l.mode, l.work with
    | .running, some w =>
      let t := s.runCommand lane l w
      if (t.lane lane).mode == .running then t else t.forget (.engine (w.eng lane))
    | _, _ => s)

/-- A lane's command ends in a lane trap met while a page was filled (R190): TADDR is the page's address. -/
def State.fillFault (s : State) (lane page cause : Nat) : State :=
  let l := s.lane lane
  let va := BitVec.ofNat 64 (page % 2 ^ 50 * 2 ^ 14)
  match l.work with
  | none => s
  | some w =>
    let m := l.noteFault 0x208 cause
    let stopped := { m with status := 7 }
    let s := s.forget (.engine (w.eng lane))
    let t := s.pendTid w.tid 0x208 va
    match w.cmd with
    | .step .. => (s.onLane lane fun _ => stopped.rest).batchStop lane w.tid w.reg 7 (some (0x208, va))
    | .feed _ => (t.onLane lane fun _ => stopped.rest).deliver w.tid w.reg (stopped.statusWord 7)
    | .map _ _ at_ => (t.onLane lane fun _ => m.rest).deliver w.tid w.reg (mapResult (at_.getD ⟨0, 0, []⟩) 7)
    | .allow _ _ => (t.onLane lane fun _ => m.rest).deliver w.tid w.reg (BitVec.allOnes 64)

/-- The lanes of a tile that wait for a page. -/
def State.waitingLanes (s : State) (tile page : Nat) : List Nat :=
  ((List.range 64).map (· + 64 * tile)).filter fun l => (s.lane l).mode == .parked page

/-- LOFT_FILL_ARRIVES: the page is filled and its lanes run again, or each of them traps (R190). -/
def execLoftFillArrives (tile page : Nat) (s : State) : Out :=
  let ls := s.waitingLanes tile page
  .next (if ls.isEmpty then s
    else
      let wake := fun (s : State) => ls.foldl (fun s l => s.onLane l fun x => { x with mode := .running }) s
      if (s.tile tile).loft.any (·.tag == page) then wake s
      else match s.fillPage (.loft tile page) tile page with
        | .ok t => wake (t.forget (.loft tile page))
        | .error 0 => s.fillMiss (.loft tile page) (s.filler tile page) tile page
        | .error cause => (ls.foldl (fun s l => s.fillFault l page cause) s).forget (.loft tile page))

/-! ## Issue (R169, R197) -/

/-- The lanes a mask names, as lane numbers of the agent's core. -/
def State.namedLanes (s : State) (mask : Nat) : List Nat := (maskBits mask).map (· + 8 * s.myCoreNum)

/-- The checks of R197 in their order: 0x205 for an Unbound lane named, then the entry's own; a busy lane then parks the
instruction, and they are all made again when it resumes. -/
def State.lanesIdle (s : State) (mask : Nat) (check : Option Nat) (k : State → Out) : Out :=
  if (s.namedLanes mask).any fun l => !(s.lane l).bound then s.trap 0x205 0
  else match check with
    | some c => s.trap c 0
    | none => if (s.namedLanes mask).any fun l => (s.lane l).mode != .idle then s.park (.lanes mask) else k s

/-- 0x209 for an operand that is not a multiple of `n`. -/
def unaligned (b : Word) (n : Nat) : Option Nat := if b.toNat % n != 0 then some 0x209 else none

/-- Give lanes a command; the result register's full bit clears (R28 of spec/02). -/
def State.startLanes (s : State) (mask : Nat) (a : Fin 32) (cmd : LaneCmd) : Out :=
  let w : LaneWork := { cmd, tid := s.me.tid, reg := a.val, sup := s.me.sup.sinh }
  let s := (s.namedLanes mask).foldl (fun s l => s.onLane l fun x => { x with mode := .running, work := some w }) s
  (s.onMe (·.issued a.val)).done

/-- ABIND (R406). -/
def execAbind (gd : Guard) (mask : BitVec 8) (b : Src) (s : State) : Out :=
  s.guarded gd fun s => s.operands [b] [] fun vs s =>
    let ea := arg vs 0
    if (s.namedLanes mask.toNat).any fun l => (s.lane l).mode != .idle then s.park (.lanes mask.toNat)
    else s.checked ea 64 true false false fun ps => s.farThen ea ps fun s => s.readable ea ps fun bs s =>
      let d := descOf (leNat bs)
      if !d.2 || !d.1.ok then s.trap 0x204 0
      else ((s.namedLanes mask.toNat).foldl (fun s l => s.onLane l fun x =>
        ({ x with bound := true, descAddr := ea, desc := d.1 } : Lane).areset) s).done

/-- ARESET (R406). -/
def execAreset (gd : Guard) (mask : BitVec 8) (s : State) : Out :=
  s.guarded gd fun s => s.lanesIdle mask.toNat none fun s =>
    ((s.namedLanes mask.toNat).foldl (fun s l => s.onLane l Lane.areset) s).done

/-- ASTEP (R407). -/
def execAstep (gd : Guard) (mask : BitVec 8) (a : Fin 32) (b : Src) (s : State) : Out :=
  s.guarded gd fun s => s.operands [b] [] fun vs s => s.lanesIdle mask.toNat none fun s =>
    let batch : Batch := { tid := s.me.tid, reg := a.val, mask := mask.toNat, left := mask.toNat, result := 0 }
    (s.onMyCore fun c => { c with batches := c.batches ++ [batch] }).startLanes mask.toNat a
      (.step (arg vs 0).toNat 0 mask.toNat)

def oneLane (l : Fin 8) : Nat := 2 ^ l.val
def State.myLane (s : State) (l : Fin 8) : Lane := s.lane (8 * s.myCoreNum + l.val)

/-- AFEED (R407). -/
def execAfeed (gd : Guard) (lane : Fin 8) (a : Fin 32) (b : Src) (s : State) : Out :=
  s.guarded gd fun s => s.operands [b] [] fun vs s => s.lanesIdle (oneLane lane) none fun s =>
    s.startLanes (oneLane lane) a (.feed (arg vs 0))

/-- AMAP (R408). -/
def execAmap (gd : Guard) (lane : Fin 8) (a : Fin 32) (b c : Src) (s : State) : Out :=
  s.guarded gd fun s => s.operands [b, c] [] fun vs s =>
    s.lanesIdle (oneLane lane) (if (s.myLane lane).desc.kind then some 0x206 else unaligned (arg vs 0) 64) fun s =>
      s.startLanes (oneLane lane) a (.map (arg vs 0) (arg vs 1) none)

/-- AALLOW (R410). -/
def execAallow (gd : Guard) (lane : Fin 8) (a : Fin 32) (b : Src) (s : State) : Out :=
  s.guarded gd fun s => s.operands [b] [] fun vs s => s.lanesIdle (oneLane lane) (unaligned (arg vs 0) 8) fun s =>
    s.startLanes (oneLane lane) a (.allow (arg vs 0) none)

/-- A composing command is issued: it reads and writes its records at once, and its result, with any lane trap, arrives 16
cycles later (R409). -/
def State.compDone (s : State) (a : Fin 32) (r : Except (Nat × Word) (Word × State)) : Out :=
  let go := fun (t : State) (v : Word) (trap : Option (Nat × Word)) =>
    (t.onMe fun x => { x.issued a.val with comps := x.comps ++ [⟨s.clock + 16, a.val, v, trap⟩] }).done
  match r with
  | .ok (v, t) => go t v none
  | .error f => if f.1 = walkWait then s.await f.2 (·.parkMiss f.2) else go s (BitVec.allOnes 64) (some f)

/-- The results of ACOMP that arrive in this cycle (R28 of spec/02), with the lane traps they leave. -/
def State.deliverComps (s : State) : State :=
  (s.allSlots.filter fun e => e.2.comps.any fun c => decide (c.time ≤ s.clock)).foldl (fun (s : State) e =>
    (e.2.comps.filter fun c => decide (c.time ≤ s.clock)).foldl (fun (s : State) c =>
        let s := match c.trap with | some f => s.pendTid e.2.tid f.1 f.2 | none => s
        s.deliver e.2.tid c.reg c.v)
      (s.onTid e.2.tid fun x => { x with comps := x.comps.filter fun c => decide (s.clock < c.time) })) s

/-- ACOMP (R409). -/
def execAcomp (gd : Guard) (a : Fin 32) (b c : Src) (s : State) : Out :=
  s.guarded gd fun s => s.operands [b, c] [] fun vs s =>
    if (arg vs 0).toNat % 64 != 0 || (arg vs 1).toNat % 64 != 0 then s.trap 0x209 0
    else (s.settleMaps [arg vs 0, arg vs 1]).compDone a (match s.readMap (arg vs 0) (arg vs 0) with
      | .error e => .error e
      | .ok m1 => match s.readMap (arg vs 1) (arg vs 0) with
        | .error e => .error e
        | .ok m2 =>
          let m := m1.map fun e => (e.1, imageOf m2 e.2)
          match s.engineWriteWords s.myEng s.myCoreNum (s.asidOf s.agent) (arg vs 0) (mapWords m) with
          | .error e => .error (compFault e)
          | .ok t => .ok (BitVec.ofNat 64 (m.filter (·.2 == 0xFFFC)).length, t))

/-- ACOMP.APPLY (R409). -/
def execAcompApply (gd : Guard) (a : Fin 32) (b c : Src) (s : State) : Out :=
  s.guarded gd fun s => s.operands [b, c] [] fun vs s =>
    if (arg vs 0).toNat % 64 != 0 then s.trap 0x209 0
    else (s.settleMaps [arg vs 0]).compDone a ((s.readMap (arg vs 0) (arg vs 0)).map fun m =>
      (BitVec.ofNat 64 (imageOf m ((arg vs 1).toNat % 2 ^ 16)), s))

/-- AGET's fields (R411). -/
def Lane.get (l : Lane) (f i : Nat) : Word :=
  match f with
  | 0 => l.statusWord l.code
  | 1 => l.iptr
  | 2 => l.iend
  | 3 => l.optr
  | 4 => l.oend
  | 5 => l.firstrej.setWidth 64
  | 6 => BitVec.ofNat 64 l.fault
  | 7 => BitVec.ofNat 64 (l.stack.reverse.getD i 0)
  | _ => if l.bound then l.descAddr else 0

def execAget (gd : Guard) (lane : Fin 8) (f : Fin 9) (i : Fin 64) (a : Fin 32) (s : State) : Out :=
  s.guarded gd fun s => s.doneRegs [(a.val, (s.myLane lane).get f.val i.val)]

/-- ASET's effects and failures (R412). -/
def Lane.set (l : Lane) (f : Nat) (b : Word) : Except Nat Lane :=
  let v := b.toNat
  let ptr := fun (ok : Bool) (m : Lane) => if ok then Except.ok m else .error 0x209
  match f with
  | 0 => ptr (v < l.desc.nstate) { l with state := v % 2 ^ 16, status := 0 }
  | 1 => ptr (!l.desc.smode || v % 4 == 0) { l with iptr := b }
  | 2 => ptr (!l.desc.smode || v % 4 == 0) { l with iend := b }
  | 3 => ptr (v % 8 == 0) { l with optr := b }
  | 4 => ptr (v % 8 == 0) { l with oend := b }
  | 5 =>
    if v = 0 || 0xFFF < v then .error 0x209
    else if l.stack.length = l.desc.slim + 1 then .error 0x201
    else .ok { l with stack := v :: l.stack }
  | 6 => ptr (!l.stack.isEmpty) { l with stack := l.stack.tail }
  | 7 => ptr (v < 2 ^ 32) { l with consumed := b.setWidth 32 }
  | _ => ptr (v ≤ 1) { l with skip := v == 1 }

def execAset (gd : Guard) (lane : Fin 8) (f : Fin 9) (b : Src) (s : State) : Out :=
  s.guarded gd fun s => s.operands [b] [] fun vs s =>
    match (s.myLane lane).set f.val (arg vs 0) with
    | .error c => s.lanesIdle (oneLane lane) (some c) State.done
    | .ok m => s.lanesIdle (oneLane lane) none fun s => (s.onLane (8 * s.myCoreNum + lane.val) fun _ => m).done

/-! ## Checkpoints (R413) -/

/-- The 24 words of a checkpoint. -/
def Lane.checkpoint (l : Lane) : List Nat :=
  let st := l.stack.reverse
  [l.descAddr.toNat, (l.statusWord l.status).toNat, l.iptr.toNat, l.iend.toNat, l.optr.toNat, l.oend.toNat,
   l.firstrej.toNat + bit l.skip 32 + bit l.concealed 33, 0x4C414E45 * 2 ^ 32]
    ++ (List.range 16).map fun i => ((List.range 4).map fun j => st.getD (4 * i + j) 0 * 2 ^ (16 * j)).sum

/-- The lane a checkpoint restores; none when it is refused. -/
def Lane.restoreFrom (l : Lane) (bs : List Byte) : Option Lane :=
  let q := fun i => leNat ((bs.drop (8 * i)).take 8)
  let st := (List.range 64).map fun i => leNat ((bs.drop (64 + 2 * i)).take 2)
  let depth := bitsAt (q 1) 16 8
  let code := bitsAt (q 1) 24 8
  let state := bitsAt (q 1) 0 16
  if q 7 != 0x4C414E45 * 2 ^ 32 || q 0 != l.descAddr.toNat || 2 ^ 34 ≤ q 6 || st.any (2 ^ 12 ≤ ·)
      || l.desc.nstate ≤ state || l.desc.slim + 1 < depth || 7 < code
      || (st.take depth).contains 0 || (st.drop depth).any (· != 0) then none
  else some { l with
    state := state, status := code, stack := (st.take depth).reverse, consumed := BitVec.ofNat 32 (q 1 / 2 ^ 32)
    iptr := BitVec.ofNat 64 (q 2), iend := BitVec.ofNat 64 (q 3), optr := BitVec.ofNat 64 (q 4), oend := BitVec.ofNat 64 (q 5)
    firstrej := BitVec.ofNat 32 (q 6), skip := bitsAt (q 6) 32 1 == 1, concealed := bitsAt (q 6) 33 1 == 1, fault := 0 }

/-- The 8-byte words of a store with their places, once the whole access has passed its checks. -/
def State.wordPlaces (s : State) (ea : Word) (ws : List Nat) : List (Word × List Piece × List Byte) :=
  ws.zipIdx.map fun e =>
    let va := ea + BitVec.ofNat 64 (8 * e.2)
    (va, (match s.access s.agent va 8 (s.need false true) with | .ok ps => ps | _ => []), leBytes e.1 8)

/-- Store 8-byte words in order; in a replica fold and hold each (R269 of spec/17). -/
def State.storeWords (s : State) : List (Word × List Piece × List Byte) → State
  | [] => s
  | (va, ps, bs) :: l =>
    let t := if s.me.rep.count = 0 then s.putPieces va ps bs
      else s.onMe fun x =>
        let y := x.fold (storeRecord va bs)
        { y with rep := { y.rep with held := x.rep.held ++ s.heldOf va ps bs } }
    t.storeWords l

/-- A checkpoint's access: the memory checks of R126 of spec/07. -/
def State.checkpointAccess (s : State) (ea : Word) (w : Bool) (k : List Piece → Out) : Out :=
  s.withAccess ea 192 (!w) w fun ps =>
    if ps.any (·.home == .format) then s.trap 0x102 ea else k ps

/-- ASAVE: like a store of 192 bytes. -/
def execAsave (gd : Guard) (lane : Fin 8) (b : Src) (s : State) : Out :=
  s.guarded gd fun s => s.operands [b] [] fun vs s => s.lanesIdle (oneLane lane) (unaligned (arg vs 0) 64) fun s =>
    let ea := arg vs 0
    s.checkpointAccess ea true fun ps => s.writable ps fun s =>
      let l := s.wordPlaces ea (s.myLane lane).checkpoint
      let hs := l.flatMap fun e => s.heldOf e.1 e.2.1 e.2.2
      if s.me.rep.count != 0 && (s.overQuota hs || !s.me.rep.spill.isEmpty) then s.implicitVote
      else (s.storeWords l).done

/-- ALOAD: the status word goes to A. -/
def execAload (gd : Guard) (lane : Fin 8) (a : Fin 32) (b : Src) (s : State) : Out :=
  s.guarded gd fun s => s.operands [b] [] fun vs s => s.lanesIdle (oneLane lane) (unaligned (arg vs 0) 64) fun s =>
    let ea := arg vs 0
    s.checkpointAccess ea false fun ps => s.farThen ea ps fun s => s.readable ea ps fun bs s =>
      match (s.myLane lane).restoreFrom bs with
      | none => s.trap 0x204 0
      | some m => (s.onLane (8 * s.myCoreNum + lane.val) fun _ => m).doneRegs [(a.val, m.statusWord m.status)]

/-! ## APAGE (R191, R414) -/

/-- One page of the agent's APAGE. -/
def State.pageOp (s : State) (tile tag op : Nat) : State :=
  let set := fun (s : State) (p : Bool) => s.onTile tile fun t => { t with loft := t.loft.map fun q =>
    if q.tag = tag then { q with pinned := p } else q }
  match op with
  | 2 => set s false
  | 3 => s.onTile tile fun t => { t with loft := t.loft.filter (·.tag != tag) }
  | _ =>
    let filled := if (s.tile tile).loft.any (·.tag == tag) then s
      else match s.fillPage (.engine s.myEng) tile tag with | .ok t => t | .error _ => s
    if op = 1 && pinnedCount (filled.tile tile).loft < 96 then set filled true else filled

def execApage (gd : Guard) (op : Fin 4) (n1 : Fin 128) (a : Fin 32) (b : Src) (s : State) : Out :=
  s.guarded gd fun s => s.operands [b] [] fun vs s =>
    if (arg vs 0).toNat % 2 ^ 14 != 0 then s.trap 0x209 0
    else
      let t := s.myTileNum
      let tags := (List.range (n1.val + 1)).map fun i => loftTag s.myCoreNum (((arg vs 0).toNat + i * 2 ^ 14) % 2 ^ 64)
      let resident := fun (s : State) => (tags.filter fun g => (s.tile t).loft.any (·.tag == g)).length
      let u := tags.foldl (fun s g => s.pageOp t g op.val) s
      -- a fill that must wait for a page walk parks the instruction on it
      let waits := fun (g : Nat) => op.val ≤ 1 && !(s.tile t).loft.any (·.tag == g) && (match s.fillPage (.engine s.myEng) t g with
        | .error c => c == walkWait
        | .ok _ => false)
      if let some g := tags.find? waits then s.await (pageVa g) (·.parkMiss (pageVa g))
      else u.doneRegs [(a.val, BitVec.ofNat 64 (if op.val = 3 then resident s else resident u))]

end Sys2Proof.Machine
end

