-- ==== Sys2Proof/Machine/Fetch.lean ====
section
/-! DEFINITION. Fetching an instruction: translation, the line's checks, the target's check, the decoder (R42 to R49 and R61
to R63 of spec/03). Every head is read from memory when it issues, which R49 allows (log 28). -/

namespace Sys2Proof.Machine

open Sys2Proof

/-- Why a fetch gives no line: a trap, a page walk, or a line of host or remote memory that it must wait for (R48). -/
inductive FetchStop where
  | trap (code : Nat) (taddr : Word)
  | walk
  | wait (ps : List Piece)
  deriving DecidableEq, Repr

/-- What a fetch comes to: an instruction with NH of its line, or why there is none. -/
inductive Fetched where
  | insn (i : Insn) (nh : Nat)
  | stop (e : FetchStop)
  deriving DecidableEq, Repr

/-- The 64 bytes of the line of `pc` as one number, fetched for slot `n` (R48): a window address has no translation and faults. A
line of package HBM comes at once (log 28); any other is sent for, and comes with its answer. The slot's own held stores are in
it (R115 of spec/06). -/
def State.lineOf (s : State) (n : Nat) (pc : Word) : Except FetchStop Nat :=
  let x := s.slot n
  let hi := pc.toNat / 2 ^ 40
  if 0xFFFFFC ≤ hi then .error (.trap 0x101 pc)
  else if pc.toNat / 2 ^ 57 != 0 then .error (.trap 0x104 pc)
  else match pieceOf (x.park.trans ++ s.tlb) x.sup.asid.toNat pc.toNat 1 ⟨false, false, true, x.sup.sinh⟩ with
    | .walk _ => .error .walk
    | .trap c a => .error (.trap c a)
    | .ok ps => match ps with
      | [] => .error .walk
      | p :: _ =>
        let line := { p with pa := p.pa / 64 * 64, len := 64 }
        if p.home != .hbm && !x.park.answered then .error (.wait [line])
        else match s.badIn line.pa 64 with
          | some e => .error (.trap e.1 pc)
          | none => .ok (leNat (readOver x.rep.buffer (s.foundBytes x line) line.pa))

/-- The line that slot `n` issues from. -/
def State.fetchLine (s : State) (n : Nat) : Except FetchStop Nat := s.lineOf n (s.slot n).pc

/-- The checks of a line entered at `pc` from `via`, and the head there (R44, R47, R61). DESIGN CHOICE (log 66): a target that
cannot be fetched takes the fetch's fault, one whose line fails R44 takes 0x041 or 0x042, and only then 0x047 is checked; R62
orders only what comes after these. -/
def decodeAt (ix : Fin 8) (sup : Bool) (pc via : Word) (line : Nat) : Fetched :=
  let h := pc.toNat / 2 % 32
  match lineCheck line with
  | some c => .stop (.trap c via)
  | none =>
    if pc.toNat % 2 != 0 || h = 0 || lineNH line < h then .stop (.trap 0x047 via)
    else match decode ix sup (lineHalf line h) (lineTail line h) with
      | .ok i => .insn i (lineNH line)
      | .error c => .stop (.trap c 0)

/-- The instruction at slot `n`'s PC. -/
def State.fetch (s : State) (n : Nat) : Fetched :=
  let x := s.slot n
  match s.fetchLine n with
  | .error e => .stop e
  | .ok line => decodeAt (Fin.ofNat 8 n) x.sup.sinh x.pc x.via line

/-- The slot holds the instruction it issues: operands kept for this PC at this handler level stand (R438 of spec/02). -/
def Slot.issue (x : Slot) (i : Insn) (nh : Nat) : Slot :=
  let old := x.kept.find? (·.level == x.level)
  let y := { x with nh := nh, kept := x.kept.filter (·.level != x.level) }
  match old with
  | some k =>
    if k.pc = x.pc then { y with park := { insn := some i, vals := some k.vals, out := k.out, voted := k.voted } }
    else { y with park := { insn := some i } }
  | none => { y with park := { insn := some i } }

end Sys2Proof.Machine
end

