-- ==== Sys2Proof/Machine/Control.lean ====
section
/-! DEFINITION. Flow, loops, traps, control words, spawn and retire, fences and monitors (spec/07, FENCE of spec/06). -/

namespace Sys2Proof.Machine

open Sys2Proof

/-- Succ(e) for a head that may stand in another line, whose header is then fetched (R46 and R48 of spec/03; a fetch fault of that
line is the instruction's, log 16). DESIGN CHOICE (log 16): where `e` is no head of its line, or the line fails R44, Succ(e) is
still PC + 2 below NH and else head 1 of the next line, and the line is not checked. -/
def State.succOf (s : State) (e : Word) (k : Word → Out) : Out :=
  if e.toNat / 64 = s.me.pc.toNat / 64 then k (succPc e s.me.nh)
  else match s.lineOf s.agent e with
    | .ok line => k (succPc e (lineNH line))
    | .error (.trap c a) => s.trap c a
    | .error .walk => s.parkWalk e
    | .error (.wait ps) => s.send e ps

/-! ## Flow (R120, R367 of spec/07) -/

def execBr (gd : Guard) (target : BitVec 20) (s : State) : Out :=
  s.guarded gd fun s => s.goto (relTarget s.me.pc target)

def execCall (gd : Guard) (a : Opnd) (target : BitVec 20) (s : State) : Out :=
  s.guarded gd fun s => s.operands [] [a] fun _ s => s.finishJump a s.me.succ (relTarget s.me.pc target)

/-- JR (R367 of spec/07): the target is read before the link is written. -/
def execJr (a : Opnd) (b : Src) (s : State) : Out :=
  s.operands [b] [a] fun vs s => s.finishJump a s.me.succ (arg vs 0)

/-- LOOP's levels (R123 of spec/07): the inner level moves out when it is active. -/
def Slot.startLoop (x : Slot) (n e : Word) : Slot :=
  let l := if x.loop.lc0 = 0 then x.loop
    else { x.loop with lc1 := x.loop.lc0, lb1 := x.loop.lb0, le1 := x.loop.le0 }
  { x with loop := { l with lc0 := n, lb0 := x.succ, le0 := e } }

/-- LOOP (R123 of spec/07); the loop step of R121 follows when the body is entered. -/
def execLoop (gd : Guard) (a : Opnd) (target : BitVec 20) (s : State) : Out :=
  s.guarded gd fun s => s.operands [plain a] [] fun vs s =>
    let e := relTarget s.me.pc target
    if arg vs 0 = 0 then s.succOf e s.goto
    else if s.me.loop.lc0 != 0 && s.me.loop.lc1 != 0 then s.trap 0x3C4 0
    else (s.onMe (·.startLoop (arg vs 0) e)).done

/-- LBRK (R368 of spec/07). -/
def execLbrk (s : State) : Out :=
  let l := s.me.loop
  if l.lc0 != 0 then s.succOf l.le0 fun t => (s.onMe fun x => { x with loop := { l with lc0 := 0 } }).goto t
  else if l.lc1 != 0 then s.succOf l.le1 fun t => (s.onMe fun x => { x with loop := { l with lc1 := 0 } }).goto t
  else s.goto s.me.succ

/-! ## Traps (R126 of spec/07) -/

/-- Perform the loop step, then enter the trap with the chosen next PC as TPC. -/
def trapAfterStep (code : Nat) (taddr : Word) (s : State) : Out :=
  let s := s.onMe Slot.complete
  .next (s.trapSlot s.agent code s.me.pc taddr false)

def execTrap (gd : Guard) (imm : BitVec 20) (s : State) : Out :=
  s.guarded gd (trapAfterStep 0x3C2 (imm.setWidth 64))

def execBrk (s : State) : Out := trapAfterStep 0x3C3 0 s

/-- TRET (R346 of spec/23): leave the innermost handler. -/
def execTret (s : State) : Out :=
  let x := s.me
  if x.sup.sinh then
    (s.onMe fun x => { x with sup := { x.sup with sinh := false } }).goto x.sup.spc
  else if x.trap.inh then
    (s.onMe fun x => { x with trap := { x.trap with inh := false } }).goto x.trap.tpc
  else s.trap 0x3C5 0

/-! ## Control words (R127 of spec/07) -/

/-- CRD of CLOCK in a replica set (R272 of spec/17): the bellwether reads it once for all. -/
def readClock (a : Opnd) (s : State) : Out :=
  if s.waitHolds s.agent .clockRead then
    let us := ((s.twins s.me).filter fun y => y.tid != s.me.tid).map (·.tid)
    let s := us.foldl (fun s t => s.onTid t fun x => { x with park := { x.park with wait := some .bellwether } }) s
    (s.onMe fun x => { x with park := { x.park with once := true } }).finish a s.clock
  else s.park .clockRead

def execCrd (gd : Guard) (a : Opnd) (num : BitVec 12) (s : State) : Out :=
  s.guarded gd fun s =>
    if s.me.privileged num.toNat then s.trap 0x081 0
    else s.operands [] [a] fun _ s =>
      if num = 0x005 && s.me.rep.count != 0 then
        match s.me.park.wait with
        | some .clockRead => readClock a s
        | _ =>
          let t := s.onMe fun x => { x with park := { x.park with wait := some .clockRead } }
          readClock a t
      else s.finish a (s.controlWord s.agent num.toNat)

/-- CWR: a write to a loop word takes effect from the next instruction on (R41 of spec/02): this instruction's own loop
step uses the words as they stood. -/
def execCwr (gd : Guard) (num : BitVec 12) (b : Src) (s : State) : Out :=
  s.guarded gd fun s =>
    if s.me.privileged num.toNat then s.trap 0x081 0
    else s.operands [b] [] fun vs s =>
      if 0x200 ≤ num.toNat && num.toNat ≤ 0x205 then
        .next (s.onUs fun x => let y := x.complete; { y with loop := y.loop.write num.toNat (arg vs 0) })
      else (s.writeWord num.toNat (arg vs 0)).done

/-! ## Retire and spawn -/

/-- A non-inline RETIRE (R129 of spec/07): the slot is freed; S7 restarts one rotation later (R154 of spec/10). -/
def retireNow (s : State) : Out :=
  let n := s.agent
  let s := if slotIx n = 7 then s.onMyCore fun c => { c with restart := some (s.clock + 8) } else s
  .next (s.retireSlot n)

/-- RETIRE (R129 of spec/07, R37 of spec/02). -/
def execRetire (s : State) : Out :=
  match s.me.inl with
  | e :: es => (s.onMe fun x => { x with inl := es, srCtr := e.sr, rngCtr := e.rng }).goto e.pc
  | [] =>
    if s.enginesDone s.agent then s.votePoint .release false [] retireNow
    else s.park .enginesDone

/-- The child's random counters and its spawner's (R75 of spec/04). -/
def childCtr : Word := 2 ^ 40
def parentCtr : Word := 2 ^ 41

/-- The child of a remote SPAWN (R35 of spec/02). -/
def Slot.child (x old : Slot) (pc : Word) (tid : Nat) : Slot :=
  let y := old.start pc { x.id with child := true } tid
  { ([8, 9, 10, 11].foldl (fun y r => y.setReg r (x.reg r)) y) with
    srCtr := x.srCtr + childCtr, rngCtr := x.rngCtr + childCtr }

/-- SPAWN on the named core, remote or inline (R35, R36 of spec/02). Inline it makes the loop step, which R121 spares other
instructions, before the child, and the child returns to where that step goes on. -/
def spawnAt (core : Nat) (t : Word) (s : State) : Out :=
  let x := s.me
  let remote := if x.rep.count = 0 then s.spawnSlot core else none
  match remote with
  | some n =>
    let s := (s.takeSlot n).setSlot n (x.child (s.slot n) t s.nextTid)
    let s := { s with nextTid := s.nextTid + 1 }
    let s := match x.id.group with
      | some g => s.onGroup g fun y => { y with threads := y.threads + 1 }
      | none => s
    (s.onMe fun x => { x with srCtr := x.srCtr + parentCtr, rngCtr := x.rngCtr + parentCtr }).done
  | none =>
    if x.inl.length < 8 then
      (s.onMe fun x => { x with
        inl := ⟨x.loopNext.2, x.srCtr + parentCtr, x.rngCtr + parentCtr⟩ :: x.inl, loop := x.loopNext.1
        srCtr := x.srCtr + childCtr, rngCtr := x.rngCtr + childCtr }).goto t
    else if x.rep.count != 0 then s.trap 0x2C5 0
    else s.park (.spawnSlot core)

/-- SPAWN (R369 of spec/07). -/
def execSpawn (gd : Guard) (b : Src) (target : BitVec 24) (s : State) : Out :=
  s.guarded gd fun s => s.operands [b] [] fun vs s =>
    let c := (arg vs 0).toNat
    if Config.cores ≤ c || (s.tile (coreTile c)).owner != some (s.asidOf s.agent) then s.trap 0x109 0
    else spawnAt c (relTarget s.me.pc target) s

/-! ## Order (R366 of spec/06, R370 of spec/07): every access of the model is performed at once, so a fence has no access to
wait for (log 1); a release is a vote point of a replica set (R271 of spec/17) and meets lost remote writes (R339 of
spec/22). -/

def execNop (s : State) : Out := s.done
def execIsync (s : State) : Out := s.done

/-- The release of a fence or of RREL at a scope. -/
def releaseAt (scope : Scope) (s : State) : Out :=
  let go := fun (s : State) => s.releaseSys (scope == .sys) fun s => s.done
  if scopeWide scope then s.votePoint .release false [] go else go s

def execFence (gd : Guard) (kind : FenceKind) (scope : Scope) (s : State) : Out :=
  s.guarded gd fun s => match kind with
    | .acq => s.done
    | .rel | .ar => releaseAt scope s

/-! ## Monitors (R371, R372 of spec/07) -/

def Slot.arm (x : Slot) (m : Nat) (granule : Nat) : Slot := { x with mon := Table.put m ⟨granule, false⟩ x.mon }

/-- MARM: disarm at 0; otherwise watch the granule once its home has armed it. -/
def execMarm (m : Fin 4) (b c : Src) (s : State) : Out :=
  s.operands [b, c] [] fun vs s =>
    let a := arg vs 0 + arg vs 1
    if a = 0 then (s.onMe fun x => { x with mon := Table.del m.val x.mon }).done
    else s.withAccess a 1 true false fun ps => match ps with
      | [p] =>
        if p.home == .host || p.home == .remote then s.trap 0x108 0
        else if p.home == .format then s.trap 0x102 a
        else if p.home.far && !s.me.park.answered then s.send a ps
        else (s.onMe (·.arm m.val (p.pa / 64 * 64))).done
      | _ => s.done

/-- MWAIT's result (R372 of spec/07): the written bits, bit 4 on a timeout, bit 5 with nothing to wait for. -/
def Slot.monitorWord (x : Slot) (expired nothing : Bool) : Word :=
  let w := ((List.range 4).map fun m =>
    bit (x.mon.any fun e => e.1 == m && e.2.written) m).sum
  BitVec.ofNat 64 (w + (if w = 0 then bit expired 4 + bit nothing 5 else 0))

def execMwait (gd : Guard) (a : Opnd) (rot : BitVec 20) (s : State) : Out :=
  s.guarded gd fun s => s.operands [] [a] fun _ s =>
    let dl := s.me.park.deadline.getD (if rot = 0 then none else some (s.clock + 8 * rot.setWidth 64))
    let s := s.onMe fun x => { x with park := { x.park with deadline := some dl } }
    let expired := match dl with | some t => decide (t ≤ s.clock) | none => false
    let nothing := s.me.mon.isEmpty && rot == 0
    if s.me.mon.any (·.2.written) || expired || nothing then
      s.roomFor [a] fun s =>
        let w := s.me.monitorWord expired nothing
        (s.onMe fun x => { x with mon := x.mon.map fun e => (e.1, { e.2 with written := false }) }).finish a w
    else s.park (.monitor dl)

/-! ## Reserved opcodes (R61 of spec/03) -/

/-- A reserved major opcode raises 0x043, a TS that is not its opcode's 0x044 (R61, R62 of spec/03). -/
def execReservedMajorOpcode (head : BitVec 16) (s : State) : Out :=
  s.trap (match formatOf (head.toNat / 64 % 256) with | none => 0x043 | some _ => 0x044) 0

end Sys2Proof.Machine
end

