-- ==== Sys2Proof/Machine/Matrix.lean ====
section
/-! DEFINITION. The matrix array and the crook (R138 to R153 of spec/09): the checks and acceptance of a command, what each
command does when it runs, and its completion. -/

namespace Sys2Proof.Machine

open Sys2Proof

/-! ## Operands in the paddock (R139, R140) -/

/-- The paddock offset an address names for a tile, in the own-paddock window or the tile window of that tile. -/
def paddockOffset (tile : Nat) (va : Word) : Option Nat :=
  let off := va.toNat % 2 ^ 40
  let hi := va.toNat / 2 ^ 40
  if hi = 0xFFFFFE && off < Config.paddockBytes then some off
  else if hi = 0xFFFFFC && off / Config.paddockBytes = tile then some (off % Config.paddockBytes)
  else none

/-- Bytes per element, as a multiple of half a byte, and the alignment unit (16 bytes for MXFP4). -/
def elemHalves (ty : Nat) : Nat := (typeOf ty).width / 4
def elemUnit (ty : Nat) : Nat := if ty = 9 then 16 else elemHalves ty / 2

/-- Bytes of `n` consecutive elements. -/
def rowBytes (ty n : Nat) : Nat := (n * elemHalves ty + 1) / 2

/-- An operand of `lines` lines at a stride, each of `len` bytes: its offset, when it lies in one bank and is aligned. -/
def State.operandAt (s : State) (tile : Nat) (va stride : Word) (lines len : Nat) : Option MatOpnd :=
  match paddockOffset tile va with
  | none => none
  | some off =>
    let f := s.bankFormat tile (off / 2 ^ 18)
    let u := elemUnit f.ty
    let last := off + (lines - 1) * stride.toNat + len
    if off % u != 0 || stride.toNat % u != 0 || (off / 2 ^ 18 + 1) * 2 ^ 18 < last then none
    else some ⟨va, off, stride.toNat, f, none⟩

/-- The C8 table an operand uses, read at issue. -/
def State.withTable (s : State) (core : Nat) (o : MatOpnd) : MatOpnd :=
  if o.fmt.ty = 8 then { o with tab := some ((s.core core).tableOf o.fmt.table) } else o

/-- The bank's format at an address, if it names the paddock. -/
def State.formatAt (s : State) (tile : Nat) (va : Word) : Format :=
  match paddockOffset tile va with
  | some off => s.bankFormat tile (off / 2 ^ 18)
  | none => {}

def aTypes : List Nat := [4, 5, 7, 8, 9]
def bTypes : List Nat := [4, 5, 8, 9]
def dTypes : List Nat := [0, 1, 2, 4, 5, 6, 7, 8, 9]

/-! ## The microprogram word (R149) -/

def opOf (w : Word) (i : Nat) : Nat := bitsAt w.toNat (16 * i) 16

/-- Is op `i` valid, as op `i` of the program? -/
def opOk (o i : Nat) : Bool :=
  let c := bitsAt o 12 4
  1 ≤ c && c ≤ 7 && bitsAt o 0 6 == 0 && (c == 7 || bitsAt o 6 2 == 0)
    && !(i == 0 && (bitsAt o 10 2 == 3 || bitsAt o 8 2 == 3 || (c == 7 && bitsAt o 6 2 == 3)))

def progOk (len : Nat) (w : Word) : Bool :=
  (List.range 4).all fun i => if i < len then opOk (opOf w i) i else opOf w i == 0

/-! ## Acceptance (R152, steps 5 to 9) -/

/-- The tag entry `e` has behind every command issued before: its K and N, if it is not empty. -/
def State.entryAt (s : State) (t e : Nat) : Option (Nat × Nat) :=
  (s.crook t).queue.foldl (fun r w => match w.cmd with
    | .wld _ e' _ k n => if e' = e then some (k, n) else r
    | _ => r)
    (match (s.tile t).weights.find? (·.1 == e) with
      | some x => some (x.2.k, x.2.n)
      | none => none)

/-- A command before its operands are resolved, as the instruction states it. -/
inductive MatReq where
  | prog (len : Nat) (word : Word)
  | cfg (ta osat : Bool)
  | clr (fill : Word) (row0 rows : Nat)
  | wld (s24 : Bool) (e : Nat) (base stride : Word) (k n : Nat)
  | mma (e : Nat) (base stride : Word) (row0 m : Nat)
  | rd (clr : Bool) (base stride : Word) (row0 m n : Nat)

/-- The configuration behind every command queued before: the core's, as the queued MCFG and MPROG leave it. -/
def State.cfgAt (s : State) (core : Nat) : MatrixCfg :=
  (s.crook (coreTile core)).queue.foldl (fun r w => match w.cmd with
    | .cfg ta osat => { r with ta := ta, osat := osat }
    | .prog len word => { r with plen := len, prog := word }
    | _ => r) (s.core core).mcfg

/-- The accepted form of a command for a core, or the code of the check that fails. -/
def State.acceptReq (s : State) (core : Nat) (sr : Word) (q : MatReq) : Except Nat MatCmd :=
  let t := coreTile core
  match q with
  | .prog len w => if progOk len w then .ok (.prog len w) else .error 0x344
  | .cfg ta osat => .ok (.cfg ta osat)
  | .clr fill row0 rows => .ok (.clr (fill.setWidth 32) row0 rows)
  | .wld s24 e base stride k n =>
    let f := s.formatAt t base
    match s.operandAt t base stride n (rowBytes f.ty k) with
    | none => .error 0x342
    | some o =>
      if !bTypes.contains f.ty || (s24 && f.ty == 9) then .error 0x343 else .ok (.wld s24 e (s.withTable core o) k n)
  | .mma e base stride row0 m =>
    match s.entryAt t e with
    | none => .error 0x345
    | some (k, _) =>
      let f := s.formatAt t base
      let cfg := s.cfgAt core
      let ta := cfg.ta
      match (if ta then s.operandAt t base stride k (rowBytes f.ty m) else s.operandAt t base stride m (rowBytes f.ty k)) with
      | none => .error 0x342
      | some o =>
        if !aTypes.contains f.ty || (ta && f.ty == 9) then .error 0x343 else .ok (.mma e (s.withTable core o) row0 m cfg)
  | .rd clr base stride row0 m n =>
    let f := s.formatAt t base
    let len := if f.ty = 9 then (n + 31) / 32 * 16 else rowBytes f.ty n
    match s.operandAt t base stride m len with
    | none => .error 0x342
    | some o =>
      if o.stride * 2 < n * elemHalves f.ty then .error 0x342
      else if !dTypes.contains f.ty then .error 0x343
      else
        let o := s.withTable core o
        match o.tab with
        | some tab => if tab.ordered then .ok (.rd clr o row0 m n sr) else .error 0x1C1
        | none => .ok (.rd clr o row0 m n sr)

/-- SR results an MRD reserves at issue (R150). -/
def MatCmd.draws : MatCmd → Word
  | .rd _ o _ m n _ => drawsFor (roundModeOf o.fmt.rnd) (m * n)
  | _ => 0

/-- Queue an accepted command: it starts one cycle after its issue or when the previous ends (R144); a counted command
counts, and the 64th reaches the bound (R142). -/
def State.enqueueMat (s : State) (cmd : MatCmd) : State :=
  let n := s.agent
  let t := slotTile n
  let x := s.me
  let w : MatWork := { cmd, tid := x.tid, core := slotCore n, logical := x.id.logical, lcn := x.id.lcn,
                       seed := x.id.jobseed, ready := s.clock + 1 }
  let s := s.onMe fun x => { x with srCtr := x.srCtr + cmd.draws }
  let s := s.onCrook t fun c => { c with
    queue := c.queue ++ [w], started := if c.queue.isEmpty then s.clock + 1 else c.started,
    cmdsLeft := if cmd.counts then c.cmdsLeft - 1 else c.cmdsLeft }
  if cmd.counts && (s.crook t).cmdsLeft = 0 then s.leaseBound t else s

/-- A pending deferred error of the thread (R146): it is cleared and raises 0x346. -/
def State.matError (s : State) (k : State → Out) : Out :=
  let t := s.myTileNum
  match (s.crook t).err.find? (·.1 == s.me.tid) with
  | some e => (s.onCrook t fun c => { c with err := c.err.filter (·.1 != e.1) }).trap 0x346 e.2.2
  | none => k s

/-- The agent wants the crook: Waiting, and granted at once when it is free and its turn (R142, R143). -/
def State.wantCrook (s : State) : State := (s.onMe fun x => { x with lease := .waiting }).grant s.myTileNum

/-- Accept the command when the queue has room, with the checks of R152. -/
def State.acceptNow (s : State) (q : MatReq) : Out :=
  if 4 ≤ (s.crook s.myTileNum).queue.length then s.park .matrixRoom
  else match s.acceptReq s.myCoreNum s.me.srCtr q with
    | .error c => s.trap c 0
    | .ok cmd => (s.enqueueMat cmd).done

/-- The lease step of a command. -/
def State.leased (s : State) (q : MatReq) : Out :=
  match s.me.lease with
  | .none => s.trap 0x341 0
  | .holding => s.acceptNow q
  | _ =>
    let s := s.wantCrook
    if s.me.lease == .holding then s.acceptNow q else s.park .crook

/-- The check of 0x346 at the first attempt of a matrix instruction alone (R146, R152): `park.tries` is 1 after it. -/
def State.matFirst (s : State) (k : State → Out) : Out :=
  if s.me.park.tries = 0 then s.matError fun s => k (s.onMe fun x => { x with park := { x.park with tries := 1 } }) else k s

/-- A matrix command: operands, 0x346, the lease, then acceptance. -/
def matrixCommand (gd : Guard) (srcs : List Src) (q : List Word → MatReq) (s : State) : Out :=
  s.guarded gd fun s => s.operands srcs [] fun vs s => s.matFirst (·.leased (q vs))

/-! ## Instructions (R151) -/

def execMlease (gd : Guard) (s : State) : Out :=
  s.guarded gd fun s => s.matFirst fun s =>
    if s.me.lease == .holding then s.done
    else
      let s := s.wantCrook
      if s.me.lease == .holding then s.done else s.park .crook

def execMfree (s : State) : Out := (s.leaveCrook s.agent .none).done

def execMprog (gd : Guard) (b : Src) (n : Fin 5) (s : State) : Out :=
  matrixCommand gd [b] (fun vs => .prog n.val (arg vs 0)) s

def execMwld (gd : Guard) (s24 : Bool) (e : Fin 64) (b c : Src) (k n : Fin 128) (s : State) : Out :=
  matrixCommand gd [b, c] (fun vs => .wld s24 e.val (arg vs 0) (arg vs 1) (k.val + 1) (n.val + 1)) s

def execMma (gd : Guard) (e : Fin 64) (b c : Src) (row0 m : Fin 128) (s : State) : Out :=
  matrixCommand gd [b, c] (fun vs => .mma e.val (arg vs 0) (arg vs 1) row0.val (m.val + 1)) s

def execMrd (gd : Guard) (clr : Bool) (b c : Src) (row0 m n : Fin 128) (s : State) : Out :=
  matrixCommand gd [b, c] (fun vs => .rd clr (arg vs 0) (arg vs 1) row0.val (m.val + 1) (n.val + 1)) s

def execMclr (gd : Guard) (b : Src) (row0 rows : Fin 128) (s : State) : Out :=
  matrixCommand gd [b] (fun vs => .clr (arg vs 0) row0.val (rows.val + 1)) s

def execMcfg (gd : Guard) (ta osat : Bool) (s : State) : Out := matrixCommand gd [] (fun _ => .cfg ta osat) s

/-- MSTAT: the status at once with nothing queued, else 8 cycles after the thread's last command ends. -/
def execMstat (gd : Guard) (a : Fin 32) (s : State) : Out :=
  s.guarded gd fun s => s.matError fun s =>
    let t := s.myTileNum
    if (s.crook t).depth s.me.tid = 0 then s.doneRegs [(a.val, s.mlstat s.agent)]
    else ((s.onMe (·.clearFull a.val)).onCrook t fun c => { c with mstat := c.mstat ++ [⟨s.me.tid, a.val, (s.crook t).depth s.me.tid, none, none⟩] }).done

/-! ## What the commands do -/

/-- A read of paddock elements meets an uncorrectable error: the first bad element's address (R146). -/
def State.badRow (s : State) (tile off len : Nat) (va : Word) : Option Word :=
  match s.badIn (Config.paddockBase tile + off) len with
  | some e => some (va + BitVec.ofNat 64 (e.2 - Config.paddockBase tile - off))
  | none => none

/-- Bytes of the paddock from an offset as the command's thread sees them. -/
def State.paddockNat (s : State) (tid tile off len : Nat) : Nat := s.engineNat tid (Config.paddockBase tile + off) len

/-- The scale byte of the block that holds the MXFP4 element pair at an offset (R139). -/
def scaleOffset (f : Format) (off : Nat) : Nat := f.scix * 2 ^ 14 + off % 2 ^ 18 / 16

/-- An own-paddock window address. -/
def paddockVa (off : Nat) : Word := BitVec.ofNat 64 (0xFFFFFE * 2 ^ 40 + off)

/-- The first bad byte of `n` elements of a line at an offset (R146): of an element's own bytes, or of its MXFP4 scale, whose
address is then the scale byte's (log 32). -/
def State.badLine (s : State) (tile : Nat) (f : Format) (off n : Nat) (va : Word) : Option Word :=
  if f.ty = 9 then
    (List.range ((n + 1) / 2)).findSome? fun i => match s.badRow tile (off + i) 1 (va + BitVec.ofNat 64 i) with
      | some a => some a
      | none => let so := scaleOffset f (off + i / 16 * 16); s.badRow tile so 1 (paddockVa so)
  else s.badRow tile off (rowBytes f.ty n) va

/-- The code of element `i` of a line at an offset, and its scale for MXFP4. -/
def State.elemCode (s : State) (tid tile : Nat) (f : Format) (off i : Nat) : Nat × Nat :=
  if f.ty = 9 then
    let b := s.paddockNat tid tile (off + i / 2) 1
    (b / 16 ^ (i % 2) % 16, s.paddockNat tid tile (scaleOffset f (off + i / 32 * 16)) 1)
  else
    let z := elemHalves f.ty / 2
    (s.paddockNat tid tile (off + i * z) z, 0)

/-- The value of an element code (R83 of spec/04: MXFP4 rounds to W19). -/
def codeValue (ty : Nat) (tab : Option CodeTable) (code scale : Nat) : FVal :=
  if ty = 9 then w19.decode (w19.round .rne 0 (mxValue scale code))
  else elemValue (typeOf ty) false (tab.getD (preset 0)) code

/-- What the S24 form holds in a position that it does not store (R141): no element code. -/
def droppedCode : Nat := 2 ^ 16

/-- The value of a weight: +0 in a dropped position. -/
def Weight.value (w : Weight) (key : Nat) : FVal :=
  let c := Table.val 0 key w.data
  if c = droppedCode then .zero else codeValue w.ty w.tab c (Table.val 0 key w.scale)

/-- R69 of spec/04: a subnormal W19 factor is zero of its sign. -/
def flushFactor : FVal → FVal
  | .fin neg m e => if e + Nat.log2 m < -126 then .fin neg 0 0 else .fin neg m e
  | v => v

/-- MWLD reads its columns; the first S24 violation is a column and group. -/
def s24Bad (ty : Nat) (tab : Option CodeTable) (k n : Nat) (data : Table Nat) : Option (Nat × Nat) :=
  ((List.range n).flatMap fun j => (List.range ((k + 3) / 4)).map fun g => (j, g)).find? fun p =>
    2 < ((List.range 4).filter fun i =>
      let kk := 4 * p.2 + i
      decide (kk < k) && !(codeValue ty tab (Table.val 0 (p.1 * 128 + kk) data) 0).isZero).length

/-- A deferred error ends every queued command (R146), those too that a halt request has kept since: each discarded MWLD leaves
its entry empty. -/
def State.matFail (s : State) (t : Nat) (tid kind : Nat) (va : Word) : State :=
  let gone := (s.crook t).queue ++ (s.crook t).kept.filter (·.tid == tid)
  let es := gone.filterMap fun w => match w.cmd with | .wld _ e _ _ _ => some e | _ => none
  ((s.onTile t fun x => { x with weights := x.weights.filter fun e => !es.contains e.1 }).onCrook t fun c => { c with
    queue := [], kept := c.kept.filter (·.tid != tid), err := c.err.filter (·.1 != tid) ++ [(tid, kind, va)]
    mstat := c.mstat.map fun m => if m.tid = tid then { m with err := some kind } else m }).onTid tid fun x => { x with relet := false }

def State.accAt (s : State) (core m n : Nat) : BitVec 32 := Table.val 0 (m * 128 + n) (s.core core).acc

def setAcc (a : Table (BitVec 32)) (m n : Nat) (v : BitVec 32) : Table (BitVec 32) := Table.put (m * 128 + n) v a

/-- Columns of a list of keyed values into a table. -/
def tableOfList {α : Type} (l : List (Nat × α)) : Table α := l.foldl (fun t e => Table.put e.1 e.2 t) []

/-- MWLD: the entry's codes at key n x 128 + k (R141). DESIGN CHOICE (log 92): one that meets both an uncorrectable error and an S24
violation reports kind 1, wherever the two stand. -/
def State.runWld (s : State) (t : Nat) (w : MatWork) (s24 : Bool) (e : Nat) (o : MatOpnd) (k n : Nat) : State :=
  let line := fun j => o.base + j * o.stride
  match (List.range n).findSome? fun j =>
      s.badLine t o.fmt (line j) k (o.va + BitVec.ofNat 64 (j * o.stride)) with
  | some va => s.matFail t w.tid 1 va
  | none =>
    let cells := (List.range n).flatMap fun j => (List.range k).map fun i =>
      (j * 128 + i, s.elemCode w.tid t o.fmt (line j) i)
    let data := tableOfList (cells.map fun c => (c.1, c.2.1))
    let scale := if o.fmt.ty = 9 then tableOfList (cells.map fun c => (c.1, c.2.2)) else []
    match (if s24 then s24Bad o.fmt.ty o.tab k n data else none) with
    | some (j, g) =>
      s.matFail t w.tid 2 (o.va + BitVec.ofNat 64 (j * o.stride + g * 4 * (elemHalves o.fmt.ty / 2)))
    | none =>
      let zero := fun (c : Nat) => s24 && (codeValue o.fmt.ty o.tab c 0).isZero
      let data := data.map fun e => (e.1, if zero e.2 then droppedCode else e.2)
      let wt : Weight :=
        { ty := o.fmt.ty, tab := o.tab, s24 := s24, k := k, n := n, data := data, scale := scale, core := w.core }
      s.onTile t fun x => { x with weights := Table.put e wt x.weights }

/-- Multiply-add over one element (R83): sequential, or in groups of four when both operands are C8 or MXFP4. -/
def mulAddSeq (acc : BitVec 32) : List (FVal × FVal) → BitVec 32
  | [] => acc
  | (a, b) :: l => mulAddSeq (BitVec.ofNat 32 (fp32.round .rne 0 ((fp32.decode acc.toNat).add .rne (a.mul b)))) l

/-- The exact sum of a group's products; padding products are +0 (R84 of spec/04). -/
def groupSum (l : List (FVal × FVal)) : FVal :=
  match l.map fun p => p.1.mul p.2 with
  | [] => .zero
  | p :: ps =>
    let v := ps.foldl (FVal.add .rne) p
    if l.length < 4 then v.add .rne .zero else v

def mulAddGroups (acc : BitVec 32) : Nat → List (FVal × FVal) → BitVec 32
  | 0, _ => acc
  | fuel + 1, l =>
    if l.isEmpty then acc
    else mulAddGroups (BitVec.ofNat 32 (fp32.round .rne 0 ((fp32.decode acc.toNat).add .rne (groupSum (l.take 4)))))
      fuel (l.drop 4)

/-- ln(e^x + e^y) (R148): the larger plus ln(1 + e^-d), to the fixed point of Numbers.lean. -/
def lseFin (x y : FVal) : FVal :=
  let hi := if x.lt y then y else x
  let lo := if x.lt y then x else y
  match hi.add .rne lo.neg, hi with
  | .fin _ dm de, .fin hs hm he =>
    let dFx := if fxBits + de < 0 then 0 else dm * 2 ^ (fxBits + de).toNat
    let v := if 2 ^ fxBits * 1000 < dFx then 1
      else
        let n := dFx / ln2Fx
        let er := expTerms (dFx % ln2Fx) 110 1 (2 ^ fxBits)
        let e := 2 ^ (2 * fxBits) / er / 2 ^ n
        lnFx (2 ^ fxBits + e) fxBits
    let h := signed hs (if fxBits + he < 0 then 0 else hm * 2 ^ (fxBits + he).toNat)
    let r := h + (v : Int)
    sticky (decide (r < 0)) (if r < 0 then r.natAbs - 1 else r.natAbs) (-fxBits)
  | _, _ => .nan

def lse (x y : FVal) : FVal :=
  match x, y with
  | .nan, _ => .nan
  | _, .nan => .nan
  | .inf false, _ => .inf false
  | _, .inf false => .inf false
  | .inf true, v => v
  | v, .inf true => v
  | _, _ => lseFin x y

/-- One microprogram op on W19 values (R148). -/
def microOp (code : Nat) (x y z : FVal) : FVal :=
  let r := fun v => w19.decode (w19.round .rne 0 v)
  match code with
  | 1 => r (x.add .rne y)
  | 2 => r (x.add .rne y.neg)
  | 3 => r ((flushFactor x).mul (flushFactor y))
  | 4 => r (x.max y)
  | 5 => r (x.min y)
  | 6 => r (lse x y)
  | _ => r (if z.isZero || z.isNan then y else x)

def microRun (prog : Word) (len : Nat) (s a b : FVal) : FVal :=
  (List.range len).foldl (fun t i =>
    let o := opOf prog i
    let sel := fun (c : Nat) => match c with | 0 => s | 1 => a | 2 => b | _ => t
    microOp (bitsAt o 12 4) (sel (bitsAt o 10 2)) (sel (bitsAt o 8 2)) (sel (bitsAt o 6 2))) .zero

/-- MMA (R147, R148). An entry that a discarded MWLD has emptied leaves the accumulators unchanged. DESIGN CHOICE (log 74): the
extent of A was checked with the K that the entry had at acceptance, and where another holder has reloaded the entry since, a
command kept from a halt reads A with the entry's K as it runs, without a further check. -/
def State.runMma (s : State) (t : Nat) (w : MatWork) (e : Nat) (o : MatOpnd) (row0 m : Nat) (cfg : MatrixCfg) : State :=
  match (s.tile t).weights.find? (·.1 == e) with
  | none => s
  | some (_, wt) =>
    let ta := cfg.ta
    let lines := if ta then wt.k else m
    match (List.range lines).findSome? fun i =>
        s.badLine t o.fmt (o.base + i * o.stride) (if ta then m else wt.k) (o.va + BitVec.ofNat 64 (i * o.stride)) with
    | some va => s.matFail t w.tid 1 va
    | none =>
      let aVal := fun i k =>
        let c := if ta then s.elemCode w.tid t o.fmt (o.base + k * o.stride) i
          else s.elemCode w.tid t o.fmt (o.base + i * o.stride) k
        codeValue o.fmt.ty o.tab c.1 c.2
      let rows := (List.range m).map fun i => (List.range wt.k).map fun k => aVal i k
      let cols := (List.range wt.n).map fun j => (List.range wt.k).map fun k => wt.value (j * 128 + k)
      let small := fun ty => ty == 8 || ty == 9
      let grouped := small o.fmt.ty && small wt.ty
      let cell := fun (acc : BitVec 32) (r c : List FVal) =>
        if cfg.plen = 0 then
          let ps := (r.map flushFactor).zip (c.map flushFactor)
          if grouped then mulAddGroups acc ps.length ps else mulAddSeq acc ps
        else
          let v := (r.zip c).foldl (fun v p => microRun cfg.prog cfg.plen v p.1 p.2)
            (w19.decode acc.toNat)
          BitVec.ofNat 32 (w19.round .rne 0 v)
      s.onCore w.core fun c => { c with acc :=
        (rows.zipIdx.flatMap fun r => cols.zipIdx.map fun k => (r, k)).foldl (fun a p =>
          let i := row0 + p.1.2
          setAcc a i p.2.2 (cell (Table.val 0 (i * 128 + p.2.2) a) p.1.1 p.2.1)) c.acc }

/-- MRD's element (R150): OSAT keeps a finite value finite. -/
def osatElem (osat : Bool) (t : ElemType) (tab : CodeTable) (mode : RoundMode) (draw : Nat) (x : FVal) : Nat :=
  let r := toElem t false tab mode draw x
  if osat && x.isFin && !t.isInt && t != .c8 then
    match t.ffmt.decode r with
    | .inf neg => (t.ffmt.infCode - 1 + (if neg then t.ffmt.signBit else 0)) * 2 ^ t.ffmt.pad
    | _ => r
  else r

/-- One row of MRD. -/
def State.readRow (s : State) (t : Nat) (w : MatWork) (o : MatOpnd) (osat : Bool) (sr : Word) (i n : Nat)
    (vals : List FVal) : State :=
  let mode := roundModeOf o.fmt.rnd
  let draw := fun j => if mode = .sr then
    drawAt w.seed sr w.lcn.toNat (streamWord 0 w.logical) (i * n + j) else 0
  let pc := fun off len => (⟨Config.paddockBase t + off, len, .ownPaddock, none⟩ : Piece)
  let line := o.base + i * o.stride
  let va := o.va + BitVec.ofNat 64 (i * o.stride)
  if o.fmt.ty = 9 then
    (List.range ((n + 31) / 32)).foldl (fun s b =>
      let blk := (List.range 32).map fun j => if 32 * b + j < n then vals[32 * b + j]? else none
      let q := quantise none mode (fun j => draw (32 * b + j)) blk
      let s := (List.range 16).foldl (fun s j =>
        let byte := BitVec.ofNat 8 (q.2.getD (2 * j) 0 + 16 * q.2.getD (2 * j + 1) 0)
        s.engineStore w.tid (va + BitVec.ofNat 64 (16 * b + j)) [pc (line + 16 * b + j) 1] [byte]) s
      let so := scaleOffset o.fmt (line + 16 * b)
      s.engineStore w.tid (paddockVa so) [pc so 1] [BitVec.ofNat 8 q.1]) s
  else
    let z := elemHalves o.fmt.ty / 2
    vals.zipIdx.foldl (fun s p =>
      let c := osatElem osat (typeOf o.fmt.ty) (o.tab.getD (preset 0)) mode (draw p.2) p.1
      s.engineStore w.tid (va + BitVec.ofNat 64 (p.2 * z)) [pc (line + p.2 * z) z] (leBytes c z)) s

def State.runRd (s : State) (t : Nat) (w : MatWork) (clr : Bool) (o : MatOpnd) (row0 m n : Nat) (sr : Word) : State :=
  let osat := (s.core w.core).mcfg.osat
  let s := (List.range m).foldl (fun s i =>
    s.readRow t w o osat sr i n ((List.range n).map fun j => fp32.decode (s.accAt w.core (row0 + i) j).toNat)) s
  if clr then
    s.onCore w.core fun c => { c with acc := (List.range m).foldl (fun a i =>
      (List.range n).foldl (fun a j => setAcc a (row0 + i) j 0) a) c.acc }
  else s

/-- MCLR sets whole rows. -/
def State.runClr (s : State) (core : Nat) (fill : BitVec 32) (row0 rows : Nat) : State :=
  s.onCore core fun c => { c with acc := (List.range rows).foldl (fun a i =>
    (List.range 128).foldl (fun a j => setAcc a (row0 + i) j fill) a) c.acc }

def State.runMat (s : State) (t : Nat) (w : MatWork) : State :=
  match w.cmd with
  | .prog len word => s.onCore w.core fun c => { c with mcfg := { c.mcfg with plen := len, prog := word } }
  | .cfg ta osat => s.onCore w.core fun c => { c with mcfg := { c.mcfg with ta := ta, osat := osat } }
  | .clr fill row0 rows => s.runClr w.core fill row0 rows
  | .wld s24 e b k n => s.runWld t w s24 e b k n
  | .mma e a row0 m cfg => s.runMma t w e a row0 m cfg
  | .rd clr d row0 m n sr => s.runRd t w clr d row0 m n sr

/-- The end of the running command: its cycle. -/
def State.matEnd (s : State) (t : Nat) : Option Word :=
  match (s.crook t).queue with
  | [] => none
  | w :: _ => some ((s.crook t).started + BitVec.ofNat 64 (s.matCycles t w))

/-- A command of a thread has ended, and with a deferred error those queued behind it: an MSTAT is due 8 cycles after the last of
the commands that were queued at its issue, whatever has been queued since (R151). -/
def Crook.dueStats (c : Crook) (tid : Nat) (end_ : Word) : Crook :=
  { c with mstat := c.mstat.map fun m =>
      if m.tid != tid || m.due.isSome then m
      else
        let left := Nat.min (m.left - 1) (c.depth tid)
        { m with left := left, due := if left = 0 then some (end_ + 8) else none } }

/-- MATRIX_COMMAND_COMPLETES: the head command takes effect, the next starts, and a drained queue may pass the crook. -/
def execMatrixCommandCompletes (tile : Nat) (s : State) : Out :=
  match (s.crook tile).queue, s.matEnd tile with
  | w :: _, some e =>
    if s.clock < e then .next s
    else
      let s := s.runMat tile w
      let s := s.onCrook tile fun c =>
        let rest := c.queue.drop 1
        let next := match rest with | v :: _ => if e < v.ready then v.ready else e | [] => e
        ({ c with queue := rest, started := next } : Crook).dueStats w.tid e
      .next (s.passCrook tile)
  | _, _ => .next s

/-- LEASE_CYCLE_BOUND: 16,384 cycles from the grant (R142). -/
def execLeaseCycleBound (tile : Nat) (s : State) : Out :=
  let c := s.crook tile
  match c.holder with
  | some n =>
    if (s.slot n).lease == .holding && c.grantAt + 16384 ≤ s.clock then .next (s.leaseBound tile) else .next s
  | none => .next s

/-- The MSTATs of a crook whose time has come. -/
def Crook.statsDue (c : Crook) (now : Word) : List StatWait := c.mstat.filter fun m => m.due.any fun w => decide (w ≤ now)

def Crook.dropStats (c : Crook) (now : Word) : Crook := { c with mstat := c.mstat.filter fun m => !(c.statsDue now).contains m }

/-- Their words go to their threads. -/
def State.giveStats (s : State) (c : Crook) : State :=
  (c.statsDue s.clock).foldl (fun (s : State) m =>
    s.onTid m.tid (·.setReg m.reg (match s.findTid m.tid with | some x => s.mlstatOf c m x | none => 0))) s

/-- MSTATs whose time has come, on a tile and in the images of contexts that are away (R29 of spec/02; part of every cycle). -/
def State.deliverStats (s : State) (t : Nat) : State := (s.giveStats (s.crook t)).onCrook t (·.dropStats s.clock)

def Image.dropStats (i : Image) (now : Word) : Image :=
  { i with tile := { i.tile with crook := i.tile.crook.dropStats now } }

def State.deliverImages (s : State) (a : Nat) (c : Ctx) : State :=
  if c.images.all fun i => (i.2.tile.crook.statsDue s.clock).isEmpty then s
  else (c.images.foldl (fun s i => s.giveStats i.2.tile.crook) s).onCtx a fun c =>
    { c with images := c.images.map fun i => (i.1, i.2.dropStats s.clock) }

end Sys2Proof.Machine
end

