-- ==== Sys2Proof/Machine/Drover.lean ====
section
/-! DEFINITION. The drover: mailboxes, copy commands and their checks, the streaming of a transfer, waits, status and cancel
(R154 to R168, R401 to R405 and R440 of spec/10). -/

namespace Sys2Proof.Machine

open Sys2Proof

/-! ## The drover slot (R154, R440) -/

/-- S7's identity: what its random streams use (R440). -/
def droverIdent (core : Nat) : Ident := { lcn := BitVec.ofNat 32 (0x80000000 + core), logical := 7 }

/-- The drover entry PC of the context that owns the core's tile; 0 when there is none. -/
def State.droverEntry (s : State) (core : Nat) : Word :=
  match (s.tile (coreTile core)).owner with
  | some a => match s.ctx a with
    | some c => if c.state == .resident || c.state == .swappingIn then c.record.drover else 0
    | none => 0
  | none => 0

/-- DROVER_RESTART: one rotation after its RETIRE, or when the tile is first assigned, S7 starts at the entry PC. -/
def execDroverRestart (core : Nat) (s : State) : Out :=
  let n := 8 * core + 7
  let e := s.droverEntry core
  match (s.core core).restart with
  | none => .next s
  | some t =>
    if (s.slot n).status != .free || e == 0 || s.clock < t then .next s
    else
      -- a stream that parked while S7 was Free has left its notice with the slot (R165)
      let s := s.setSlot n { (s.slot n).start e (droverIdent core) s.nextTid with pend := (s.slot n).pend }
      let s := s.onCore core fun c => { c with restart := none }
      .next { s with nextTid := s.nextTid + 1 }

/-! ## Mailboxes (R401, R402) -/

/-- 0x2C5 for an instruction that a replica may not issue (R279 of spec/17). -/
def State.notReplica (s : State) (k : State → Out) : Out := if s.me.rep.count != 0 then s.trap 0x2C5 0 else k s

def execMbsend (gd : Guard) (nb : Bool) (m : Fin 4) (a : Opnd) (b : Src) (s : State) : Out :=
  s.guarded gd fun s => s.notReplica fun s => s.operands [b] [a] fun vs s =>
    if s.myCore.mbFull.getLsbD m.val then
      if nb then s.finish a 0 else s.park (.mailboxEmpty m)
    else s.roomFor [a] fun s => (s.writeOpnd (.mb m) (arg vs 0)).finish a 1

/-- The lowest full mailbox of a mask. -/
def State.fullMailbox (s : State) (mask : Nat) : Option (Fin 4) :=
  ([0, 1, 2, 3] : List (Fin 4)).find? fun m => mask / 2 ^ m.val % 2 == 1 && s.myCore.mbFull.getLsbD m.val

def execMbrecv (gd : Guard) (nb : Bool) (mask : Fin 16) (a b : Opnd) (s : State) : Out :=
  s.guarded gd fun s => s.operands [] [a, b] fun _ s =>
    -- its queues may have filled while it waited for a mailbox (R24)
    match s.fullMailbox mask.val with
    | some m => s.roomFor [a, b] fun s =>
      let r := s.takeOne (plain (.mb m))
      ((r.2.writeOpnd a r.1).writeOpnd b (BitVec.ofNat 64 m.val)).done
    | none =>
      if nb then s.roomFor [a, b] fun s => ((s.writeOpnd a 0).writeOpnd b (BitVec.allOnes 64)).done
      else s.park (.mailboxFull mask.val)

/-! ## Layout records (R162, R163) -/

/-- The fields of a record. -/
structure Layout where
  base : Nat
  stride : Nat
  cols : Nat
  rows : Nat
  ty : Nat
  table : Nat
  rnd : Nat
  dq : Bool
  scales : Nat
  ih : Nat
  iw : Nat
  oh : Nat
  ow : Nat
  sy : Nat
  sx : Nat
  py : Nat
  px : Nat
  ch : Nat
  reserved : Bool

def layoutOf (v : Nat) : Layout :=
  { base := bitsAt v 0 64, stride := bitsAt v 64 40, cols := bitsAt v 128 24, rows := bitsAt v 152 24
    ty := bitsAt v 176 4, table := bitsAt v 180 3, rnd := bitsAt v 183 3, dq := bitsAt v 186 1 == 1
    scales := bitsAt v 192 64, ih := bitsAt v 256 16, iw := bitsAt v 272 16, oh := bitsAt v 288 16
    ow := bitsAt v 304 16, sy := bitsAt v 320 8, sx := bitsAt v 328 8, py := bitsAt v 336 8, px := bitsAt v 344 8
    ch := bitsAt v 352 16
    reserved := bitsAt v 104 24 != 0 || bitsAt v 187 5 != 0 || bitsAt v 368 144 != 0 }

/-- The tile and paddock offset that an address names in the own-paddock or the tile window. -/
def paddockOf (core : Nat) (va : Nat) : Option (Nat × Nat) :=
  let off := va % 2 ^ 40
  let hi := va / 2 ^ 40
  if hi = 0xFFFFFE && off < Config.paddockBytes then some (coreTile core, off)
  else if hi = 0xFFFFFC && off / Config.paddockBytes < Config.tiles then
    some (off / Config.paddockBytes, off % Config.paddockBytes)
  else none

/-- The format of an endpoint: its bank's in a paddock, else the one given. DESIGN CHOICE (log 71): of an extent over banks of
different formats, that of the bank of its base. -/
def State.endFormat (s : State) (core va : Nat) (outside : Format) : Format :=
  match paddockOf core va with
  | some (t, off) => s.bankFormat t (off / 2 ^ 18)
  | none => outside

/-- What a record stands for. -/
inductive LayoutRole where
  | source | dest | image | matrix
  deriving DecidableEq, Repr

def Layout.winZero (l : Layout) : Bool :=
  l.ch + l.px + l.py + l.sx + l.sy + l.ow + l.oh + l.iw + l.ih == 0

/-- The conditions of R163 on one record. -/
def State.layoutOk (s : State) (core : Nat) (role : LayoutRole) (l : Layout) : Bool :=
  let inPad := (paddockOf core l.base).isSome
  let f := s.endFormat core l.base { ty := l.ty, table := l.table, rnd := l.rnd }
  !l.reserved && l.ty ≤ 9 && l.table ≤ 4 && l.rnd ≤ 5
    && (!inPad || (l.ty == 0 && l.table == 0 && l.rnd == 0 && l.scales == 0))
    && (!l.dq || role == .source || role == .image)
    && (if role == .image then
          l.rows == 0 && l.cols == 0 && 1 ≤ l.ch && 1 ≤ l.sx && 1 ≤ l.sy && 1 ≤ l.ow && 1 ≤ l.oh && 1 ≤ l.iw && 1 ≤ l.ih
        else
          l.winZero && 1 ≤ l.rows && 1 ≤ l.cols && l.cols * elemHalves f.ty ≤ 2 * l.stride
            && (f.ty != 9 || l.cols % 32 == 0))

/-- Read a record: in TCM or the own paddock and 64-byte aligned, else 0x301. -/
def State.record (s : State) (va : Word) (k : Layout → Out) : Out :=
  match s.place s.myCoreNum (s.asidOf s.agent) va 64 with
  | .ok pa h =>
    if !(h == .tcm || h == .ownPaddock) || va.toNat % 64 != 0 then s.trap 0x301 0
    else match s.badIn pa 64 with
      | some e => s.trap e.1 va
      | none => k (layoutOf (leNat (memRead s.mem pa 64)))
  | _ => s.trap 0x301 0

/-! ## Acceptance (R160, R161) -/

/-- Do two formats differ (R161)? The flags say which endpoints are paddock. -/
def formatsDiffer (f g : Format) (bothPad : Bool) : Bool :=
  f.ty != g.ty || (f.ty == 8 && f.table != g.table) || (f.ty == 9 && bothPad && f.scix != g.scix)

/-- The window checks of R92 over an extent. -/
def State.extentTrap (s : State) (core asid va len : Nat) : Option Nat :=
  match s.place core asid (BitVec.ofNat 64 va) len with
  | .bad c => some c
  | .ok _ .format => some 0x102
  | .ok _ _ => none
  | .virt => if 2 ^ 57 < va + len then some 0x104 else none

/-- A transfer with the extents it touches, before it has its id. -/
structure Plan where
  kind : CopyKind
  src : CopyEnd
  dst : CopyEnd
  rows : Nat
  cols : Nat
  win : Option WinGeom
  /-- (address, length) of the source, if it reads memory, and of the destination. -/
  from_ : Option (Nat × Nat)
  to_ : Nat × Nat
  /-- Destination elements, for the SR counter. -/
  elems : Nat
  wantsDq : Bool

def endOf (base stride scales : Nat) (f : Format) (tab : Option CodeTable) : CopyEnd := ⟨base, stride, f, scales, tab⟩

/-- The C8 table of an endpoint's format. -/
def State.tabOf (s : State) (core : Nat) (f : Format) : Option CodeTable :=
  if f.ty = 8 then some ((s.core core).tableOf f.table) else none

/-- Channel counter values a transfer reserves (R161). -/
def Plan.draws (p : Plan) : Word :=
  match p.kind with
  | .convert => drawsFor (roundModeOf p.dst.fmt.rnd) p.elems
  | _ => 0

/-- Where source row `r` lies: the address of its row in the source, that row's number, and the index there of its first
element, or none for a row of zero codes (R164). -/
def Transfer.srcRow (x : Transfer) (r : Nat) : Option (Nat × Nat × Nat) :=
  match x.win with
  | none => some (x.src.base + r * x.src.stride, r, 0)
  | some w =>
    let p := w.p0 + r
    let y : Int := (p / w.ow * w.sy + w.ty : Nat) - (w.py : Int)
    let xx : Int := (p % w.ow * w.sx + w.tx : Nat) - (w.px : Int)
    if w.oh * w.ow ≤ p || y < 0 || xx < 0 || (w.ih : Int) ≤ y || (w.iw : Int) ≤ xx then none
    else some (x.src.base + y.toNat * x.src.stride, y.toNat, xx.toNat * w.ch)

/-- Elements per row of the source's scale array: whole blocks (log 22 for an image). -/
def Transfer.scaleRow (x : Transfer) : Nat :=
  match x.win with
  | none => x.cols / 32
  | some w => (w.iw * w.ch + 31) / 32

/-- Destination bytes of one row. -/
def Transfer.rowLen (x : Transfer) : Nat :=
  match x.kind with
  | .raw | .fill _ => x.cols
  | _ => if x.dst.fmt.ty = 9 then (x.cols + 31) / 32 * 16 else rowBytes x.dst.fmt.ty x.cols

/-- What a transfer touches in memory in its row `r`, as extents: its source, which a row of zero codes has not, its destination, and the
blocks of the scale arrays outside the paddocks that it reads or writes (R80 of spec/04). -/
def Transfer.rowSpans (x : Transfer) (r : Nat) : List (Nat × Nat) :=
  let src := match x.kind, x.srcRow r with
    | .fill _, _ => []
    | .raw, some (va, _, e0) => [(va + e0 * elemHalves x.src.fmt.ty / 2, x.cols)]
    | .raw, none =>
      if x.dst.fmt.ty = 9 && (paddockOf x.core x.dst.base).isNone then
        [(x.dst.scales + r * ((x.cols + 15) / 16), (x.cols + 15) / 16)] else []
    | .convert, some (va, _, e0) => [(va + e0 * elemHalves x.src.fmt.ty / 2, rowBytes x.src.fmt.ty x.cols)]
    | .expand, some (va, row, e0) => [(va + e0 * elemHalves x.src.fmt.ty / 2, rowBytes x.src.fmt.ty x.cols),
        (x.src.scales + row * x.scaleRow + e0 / 32, (e0 + x.cols - 1) / 32 + 1 - e0 / 32)]
    | .convert, none | .expand, none => []
  src ++ [(x.dst.base + r * x.dst.stride, x.rowLen)]

/-- The pages of an extent that has no window. -/
def pagesOf (e : Nat × Nat) : List Nat :=
  if 2 ^ 57 ≤ e.1 then []
  else (List.range ((e.1 % 65536 + e.2 + 65535) / 65536)).map fun i => e.1 / 65536 * 65536 + 65536 * i

/-- A transfer touches a page of host or remote memory, as the tables stand at the command's issue: its channel's scope is then the
system's (R113 of spec/06). This finds the scope alone: it is no access and takes no walker (DEDUCED, log 79). A page that is not mapped
may come to be one, so it counts as one (DESIGN CHOICE, log 79). -/
def State.touchesFar (s : State) (root : Word) (x : Transfer) : Bool :=
  (List.range x.rows).any fun r => ((x.rowSpans r).flatMap pagesOf).any fun va =>
    let l : Except Nat Leaf := match findLeaf s.tlb x.asid va with
      | some l => .ok l
      | none => s.walkRoot root x.asid va
    match l with
    | .ok l => 2 ≤ l.loc
    | .error _ => true

/-- Checks 4 to 6 and the queueing: the id goes to A. DESIGN CHOICE (log 71): the extents of R92 are those of the elements, and an
address of a scale array that names no memory parks the stream that reaches it. -/
def State.acceptCopy (s : State) (ch : Fin 16) (a : Opnd) (p : Plan) : Out :=
  let core := s.myCoreNum
  let asid := s.asidOf s.agent
  let t := s.myTileNum
  let bad := match p.from_ with
    | some e => (match s.extentTrap core asid e.1 e.2 with | some c => some (c, e.1) | none => none)
    | none => none
  let bad := match bad with
    | some b => some b
    | none => (match s.extentTrap core asid p.to_.1 p.to_.2 with | some c => some (c, p.to_.1) | none => none)
  match bad with
  | some (c, va) => s.trap c (BitVec.ofNat 64 va)
  | none =>
    let grant := match s.ctx asid with | some c => c.record.dqg | none => false
    if p.wantsDq && (ch.val < 12 || !grant) then s.trap 0x303 0
    else
      let unordered := match p.kind, p.dst.tab with
        | .convert, some tab => !tab.ordered
        | _, _ => false
      if unordered then s.trap 0x302 0
      else
        let c := s.chan t ch.val
        let x : Transfer := { id := c.next.toNat, core, asid, kind := p.kind, src := p.src, dst := p.dst, rows := p.rows,
                              cols := p.cols, win := p.win, draws := p.draws, dq := p.wantsDq, done := 0
                              tile := t, ch := ch.val, sup := s.me.sup.sinh }
        -- the command is a release at the channel's scope for its own reads and writes (R113 of spec/06, R339 of spec/22)
        let far := s.touchesFar s.me.sup.ptroot x
        s.roomFor [a] fun s => s.releaseSys far fun s =>
          (s.onChan t ch.val fun c => { c with next := c.next + 1, queue := c.queue ++ [{ x with sys := far }] }).finish a (BitVec.ofNat 64 x.id)

/-- A copy command: operands, room in the channel's queue (R160), then its checks. -/
def copyCommand (gd : Guard) (ch : Fin 16) (a : Opnd) (srcs : List Src) (k : List Word → State → Out) (s : State) : Out :=
  s.guarded gd fun s => s.operands srcs [a] fun vs s =>
    if 8 ≤ (s.chan s.myTileNum ch.val).queue.length then s.park (.channelRoom ch) else k vs s

/-- Alignment of an element type in bytes (16 for MXFP4, R161). -/
def aligned (ty va : Nat) : Bool := va % elemUnit ty == 0

/-- DCOPY. DESIGN CHOICE (log 75): the padding that completes the last MXFP4 block of a converting copy counts as destination
elements for the SR counter. -/
def execDcopy (gd : Guard) (ch : Fin 16) (a : Opnd) (b c : Src) (len : BitVec 24) (s : State) : Out :=
  copyCommand gd ch a [b, c] (fun vs s =>
    let core := s.myCoreNum
    let n := len.toNat
    let src := (arg vs 0).toNat
    let dst := (arg vs 1).toNat
    let f := s.endFormat core src {}
    let g := s.endFormat core dst {}
    let pad := (paddockOf core src).isSome && (paddockOf core dst).isSome
    if pad && formatsDiffer f g true then
      let els := n * 2 / elemHalves f.ty
      let out := if g.ty = 9 then (els + 31) / 32 * 16 else rowBytes g.ty els
      if n = 0 || n % elemUnit f.ty != 0 || !aligned f.ty src || !aligned g.ty dst
          || 2 ^ 64 < src + n || 2 ^ 64 < dst + out then s.trap 0x301 0
      else s.acceptCopy ch a
        { kind := .convert, src := endOf src 0 0 f (s.tabOf core f), dst := endOf dst 0 0 g (s.tabOf core g), rows := 1
          cols := els, win := none, from_ := some (src, n), to_ := (dst, out)
          elems := if g.ty = 9 then (els + 31) / 32 * 32 else els, wantsDq := false }
    else if n = 0 || 2 ^ 64 < src + n || 2 ^ 64 < dst + n then s.trap 0x301 0
    else s.acceptCopy ch a
      { kind := .raw, src := endOf src 0 0 {} none, dst := endOf dst 0 0 {} none, rows := 1, cols := n, win := none
        from_ := some (src, n), to_ := (dst, n), elems := 0, wantsDq := false }) s

def execDfill (gd : Guard) (ch : Fin 16) (a : Opnd) (b c : Src) (len : BitVec 24) (s : State) : Out :=
  copyCommand gd ch a [b, c] (fun vs s =>
    let n := len.toNat
    let dst := (arg vs 0).toNat
    if n = 0 || n % 8 != 0 || dst % 8 != 0 || 2 ^ 64 < dst + n then s.trap 0x301 0
    else s.acceptCopy ch a
      { kind := .fill (arg vs 1), src := endOf 0 0 0 {} none, dst := endOf dst 0 0 {} none, rows := 1, cols := n
        win := none, from_ := none, to_ := (dst, n), elems := 0, wantsDq := false }) s

/-- What two record endpoints make of a copy: raw, converting, or expanding; none where they differ in another way. -/
def copyKind (f g : Format) (srcPad dstPad dq : Bool) : Option CopyKind :=
  if dq && !srcPad && f.ty == 9 && dstPad && g.ty == 5 then some .expand
  else if !formatsDiffer f g (srcPad && dstPad) then some .raw
  else if srcPad && dstPad then some .convert
  else none

/-- The plan of a DTILE or DWIN from its records; `win` for DWIN. Its extents leave the scale arrays out (DESIGN CHOICE, log 71). -/
def State.recordCopy (s : State) (ch : Fin 16) (a : Opnd) (l d : Layout) (win : Option WinGeom) : Out :=
  let core := s.myCoreNum
  let f := s.endFormat core l.base { ty := l.ty, table := l.table, rnd := l.rnd }
  let g := s.endFormat core d.base { ty := d.ty, table := d.table, rnd := d.rnd }
  let srcPad := (paddockOf core l.base).isSome
  let dstPad := (paddockOf core d.base).isSome
  match copyKind f g srcPad dstPad l.dq with
  | none => s.trap 0x301 0
  | some kind =>
    let srcLen := match win with
      | none => (l.rows - 1) * l.stride + rowBytes f.ty l.cols
      | some w => (w.ih - 1) * l.stride + rowBytes f.ty (w.iw * w.ch)
    let dstLen := (d.rows - 1) * d.stride + rowBytes g.ty d.cols
    if 2 ^ 64 < l.base + srcLen || 2 ^ 64 < d.base + dstLen then s.trap 0x301 0
    else s.acceptCopy ch a
      { kind, src := endOf l.base l.stride l.scales f (s.tabOf core f), dst := endOf d.base d.stride d.scales g (s.tabOf core g)
        rows := d.rows, cols := if kind = .raw then rowBytes f.ty d.cols else d.cols, win
        from_ := some (l.base, srcLen), to_ := (d.base, dstLen), elems := d.rows * d.cols, wantsDq := l.dq }

def execDtile (gd : Guard) (ch : Fin 16) (a : Opnd) (b c : Src) (s : State) : Out :=
  copyCommand gd ch a [b, c] (fun vs s =>
    s.record (arg vs 0) fun l => s.record (arg vs 1) fun d =>
      if !s.layoutOk s.myCoreNum .source l || !s.layoutOk s.myCoreNum .dest d || l.rows != d.rows || l.cols != d.cols then
        s.trap 0x301 0
      else s.recordCopy ch a l d none) s

def execDwin (gd : Guard) (ch : Fin 16) (a : Opnd) (b c : Src) (ty tx : Fin 16) (p0 : BitVec 16) (s : State) : Out :=
  copyCommand gd ch a [b, c] (fun vs s =>
    s.record (arg vs 0) fun l => s.record (arg vs 1) fun d =>
      if !s.layoutOk s.myCoreNum .image l || !s.layoutOk s.myCoreNum .matrix d || d.cols != l.ch then s.trap 0x301 0
      else s.recordCopy ch a l d (some
        { ch := l.ch, px := l.px, py := l.py, sx := l.sx, sy := l.sy, ow := l.ow, oh := l.oh, iw := l.iw, ih := l.ih
          ty := ty.val, tx := tx.val, p0 := p0.toNat })) s

/-! ## Streaming (R157, R161, R164 to R166, R168) -/

/-- Why a stream stops: a fault that parks it (address, code), or an error that fails it (FADDR, cause), or a page walk that it
waits for. -/
inductive Stop where
  | wait (va : Nat)
  | fault (va code : Nat)
  | error (va code : Nat)
  deriving DecidableEq, Repr

/-- The root a stream walks from: PTROOT of the S7 that issued it, of the slot itself while no thread stands there (R317 of
spec/21). -/
def State.streamRoot (s : State) (x : Transfer) : Word :=
  let y := s.slot (8 * x.core + 7)
  if y.status = .free then y.base.ptroot else y.sup.ptroot

/-- The stream as a unit whose accesses miss. -/
def Transfer.asker (x : Transfer) : Asker := .copy x.tile x.ch x.id x.sup

/-- An access of a stream is to host or remote memory although its command has made no release at system scope: its page has been
mapped anew since the issue. The release is made now (DESIGN CHOICE, log 79). -/
def Transfer.releasesNow (x : Transfer) (p : Piece) : Bool := !x.sys && (p.home == .host || p.home == .remote)

/-- The thread of the S7 that issued it. -/
def State.copier (s : State) (x : Transfer) : Nat := (s.slot (8 * x.core + 7)).tid

/-- That release cannot be made yet. -/
def State.releaseWaits (s : State) (x : Transfer) (p : Piece) : Bool :=
  x.releasesNow p && (s.writesHeld || s.ackWaits [s.copier x])

/-- What the release performs; a lost write is met by the next release of the S7. -/
def State.lateRelease (s : State) (x : Transfer) (p : Piece) : State :=
  if x.releasesNow p then (s.loseLate [s.copier x]).acked [s.copier x] else s

/-- A read or write of a stream: its piece, or the stop. -/
def State.streamAccess (s : State) (x : Transfer) (va len : Nat) (write : Bool) : Except Stop Piece :=
  match s.engineAccess x.asker x.core x.asid (BitVec.ofNat 64 va) len (!write) write with
  | .trap c a => .error (.fault a.toNat c)
  | .walk a => .error (.wait a.toNat)
  | .ok ps => match ps with
    | p :: _ =>
      if write && replicable [p] then .error (.fault va 0x106)
      else if s.lostPieces [p] || (!write && s.hostFails [p]) then .error (.fault va 0x10C)
      else if s.requestWaits [p] || s.releaseWaits x p then .error (.wait va)
      else .ok p
    | [] => .error (.fault va 0x102)

/-- Source bytes within one 64-byte sector. DESIGN CHOICE (log 71): a window has no page and so no DQ, and an expanding copy from
one fails. -/
def State.streamRead (s : State) (x : Transfer) (orig : List Host.Cell) (va len : Nat) : Except Stop (List Byte × State) :=
  match s.streamAccess x va len false with
  | .error e => .error e
  | .ok p =>
    let dqBad := x.dq && (match p.leaf with | some l => !l.dq | none => true)
    if dqBad then .error (.error (va / 64 * 64) 0x303)
    else match s.badIn p.pa len with
      | some e => .error (.error ((va + (e.2 - p.pa)) / 64 * 64) e.1)
      | none =>
        -- a byte this transfer has already written reads as before or as written (R168)
        let r := (s.pieceBytes { p with len := len }).zipIdx.foldl (fun (r : List Byte × State) e =>
          let was := memByte orig (p.pa + e.2)
          if memByte s.mem (p.pa + e.2) = was then (r.1 ++ [e.1], r.2)
          else
            let c := r.2.pick 2
            (r.1 ++ [if c.1 = 0 then was else e.1], c.2)) ([], (s.lateRelease x p).haveRead [{ p with len := len }])
        .ok r

def State.streamWrite (s : State) (x : Transfer) (va : Nat) (bs : List Byte) : Except Stop State :=
  match s.streamAccess x va bs.length true with
  | .error e => .error e
  | .ok p => .ok ((s.lateRelease x p).copyWrite p bs)

/-- Where the scale byte of an MXFP4 destination block lies, for the block's address, its row and its number there: by the bank,
or in the record's scale array (R80 of spec/04). -/
def Transfer.dstScale (x : Transfer) (dst r b blocks : Nat) : Nat :=
  match paddockOf x.core dst with
  | some (_, off) => dst / 2 ^ 22 * 2 ^ 22 + scaleOffset x.dst.fmt off % 2 ^ 22
  | none => x.dst.scales + r * blocks + b

/-- Padding blocks take scale 0x00 (R88 of spec/04): those of row `r` that begin in its bytes [o, o + n). -/
def State.padScales (s : State) (x : Transfer) (r o n : Nat) : Except Stop State :=
  if x.dst.fmt.ty != 9 then .ok s
  else ((List.range ((o + n + 15) / 16)).filter fun b => o ≤ 16 * b).foldl (fun (t : Except Stop State) b => match t with
    | .error e => .error e
    | .ok s => s.streamWrite x (x.dstScale (x.dst.base + r * x.dst.stride + 16 * b) r b ((x.cols + 15) / 16)) [0]) (.ok s)

/-- `room` source bytes from `va` up, sector by sector; where a later sector stops the stream, those before it (R166). -/
def State.rawRead (s : State) (x : Transfer) (orig : List Host.Cell) : Nat → Nat → Nat → Except Stop (List Byte × State)
  | 0, _, _ => .ok ([], s)
  | n + 1, va, room =>
    let len := Nat.min room (64 - va % 64)
    match s.streamRead x orig va len with
    | .error e => .error e
    | .ok (bs, t) =>
      if room ≤ len then .ok (bs, t)
      else match t.rawRead x orig n (va + len) (room - len) with
        | .ok (cs, u) => .ok (bs ++ cs, u)
        | .error _ => .ok (bs, t)

/-- One step of a raw copy or fill at row `r`, byte `o`: the rest of a destination sector, in one write. -/
def State.rawStep (s : State) (x : Transfer) (orig : List Host.Cell) (r o : Nat) : Except Stop (Nat × State) :=
  let dst := x.dst.base + r * x.dst.stride + o
  let room := Nat.min (x.cols - o) (64 - dst % 64)
  match x.kind with
  | .fill pat =>
    let bs := (List.range room).map fun i => BitVec.ofNat 8 (pat.toNat / 256 ^ ((o + i) % 8))
    (s.streamWrite x dst bs).map fun s => (room, s)
  | _ => match x.srcRow r with
    | none => match s.streamWrite x dst (List.replicate room 0) with
      | .error e => .error e
      | .ok s => (s.padScales x r o room).map fun s => (room, s)
    | some (va, _, e0) =>
      let va := va + e0 * elemHalves x.src.fmt.ty / 2
      match s.rawRead x orig 2 (va + o) room with
      | .error e => .error e
      | .ok (bs, t) => (t.streamWrite x dst bs).map fun u => (bs.length, u)

/-- The value of source element `e` of row `r`, and the state. -/
def State.streamElem (s : State) (x : Transfer) (orig : List Host.Cell) (r e : Nat) : Except Stop (Option FVal × State) :=
  match x.srcRow r with
  | none => .ok (none, s)
  | some (va, row, e0) =>
    let ty := x.src.fmt.ty
    let a := va + (e0 + e) * elemHalves ty / 2
    match s.streamRead x orig a (Nat.max 1 (elemHalves ty / 2)) with
    | .error k => .error k
    | .ok (bs, s) =>
      if ty = 9 then
        let code := leNat bs / 16 ^ ((e0 + e) % 2) % 16
        -- the scale of the element's own block; its page needs no DQ (DESIGN CHOICE, log 71)
        let scaleVa := match paddockOf x.core a with
          | some (_, off) => a / 2 ^ 22 * 2 ^ 22 + scaleOffset x.src.fmt off % 2 ^ 22
          | none => x.src.scales + row * x.scaleRow + (e0 + e) / 32
        match s.streamRead { x with dq := false } orig scaleVa 1 with
        | .error k => .error k
        | .ok (sb, s) => .ok (some (mxValue (leNat sb) code), s)
      else .ok (some (elemValue (typeOf ty) false (x.src.tab.getD (preset 0)) (leNat bs)), s)

/-- The elements [e, e + n) of a row; those beyond the row are padding. -/
def State.streamElems (s : State) (x : Transfer) (orig : List Host.Cell) (r e : Nat) :
    Nat → Except Stop (List (Option FVal) × State)
  | 0 => .ok ([], s)
  | n + 1 =>
    if x.cols ≤ e then (s.streamElems x orig r (e + 1) n).map fun q => (none :: q.1, q.2)
    else match s.streamElem x orig r e with
      | .error k => .error k
      | .ok (v, s) => (s.streamElems x orig r (e + 1) n).map fun q => (v :: q.1, q.2)

/-- The rounding of a converting transfer: dequantise-on-fill rounds to nearest (R161). -/
def Transfer.mode (x : Transfer) : RoundMode := if x.kind = .expand then .rne else roundModeOf x.dst.fmt.rnd

/-- One step of a converting copy: the bytes of an element, or of a block of 32 for an MXFP4 destination, from `o` on, within a
destination sector; the block's scale byte follows its first bytes. DESIGN CHOICE (log 75): at a base in a paddock that is not 16-byte
aligned the blocks follow the row, and each has one scale byte, that of the bank's block which holds its first byte. -/
def State.convStep (s : State) (x : Transfer) (orig : List Host.Cell) (tile ch r o : Nat) : Except Stop (Nat × State) :=
  let ty := x.dst.fmt.ty
  let unit := if ty = 9 then 16 else elemHalves ty / 2
  let i := o % unit
  let draw := fun i => if x.mode = .sr then
    drawAt 0 (s.chan tile ch).sr (16 * tile + ch) (streamWord 2 0) i else 0
  let dst := x.dst.base + r * x.dst.stride + o
  let room := Nat.min (unit - i) (64 - dst % 64)
  if ty = 9 then
    let e := 2 * (o - i)
    match s.streamElems x orig r e 32 with
    | .error k => .error k
    | .ok (blk, s) =>
      let q := quantise none x.mode (fun j => draw (r * ((x.cols + 31) / 32 * 32) + e + j)) blk
      let bs := (List.range 16).map fun j => BitVec.ofNat 8 (q.2.getD (2 * j) 0 + 16 * q.2.getD (2 * j + 1) 0)
      match s.streamWrite x dst ((bs.drop i).take room) with
      | .error k => .error k
      | .ok s =>
        if i != 0 then .ok (room, s)
        else (s.streamWrite x (x.dstScale dst r (o / 16) ((x.cols + 31) / 32)) [BitVec.ofNat 8 q.1]).map fun s => (room, s)
  else
    match s.streamElem x orig r (o / unit) with
    | .error k => .error k
    | .ok (v, s) =>
      let c := match v with
        | some v => toElem (typeOf ty) false (x.dst.tab.getD (preset 0)) x.mode (draw (r * x.cols + o / unit)) v
        | none => 0
      (s.streamWrite x dst (((leBytes c unit).drop i).take room)).map fun s => (room, s)

def Transfer.total (x : Transfer) : Nat := x.rows * x.rowLen

/-- Destination bytes that WPTR counts when `d` bytes stand written (R157, R161): the padding that completes the last MXFP4 block of a
converting copy lies beyond the destination length. -/
def Transfer.counted (x : Transfer) (d : Nat) : Nat :=
  match x.kind with
  | .raw | .fill _ => d
  | _ =>
    let n := if x.dst.fmt.ty = 9 then (x.cols + 1) / 2 else x.rowLen
    d / x.rowLen * n + Nat.min (d % x.rowLen) n

/-- Run a transfer from where it stands, at most `fuel` steps: what it has then written, and why it stopped. -/
def State.stream (s : State) (orig : List Host.Cell) (tile ch : Nat) : Nat → Transfer → State × Transfer × Option Stop
  | 0, x => (s, x, none)
  | fuel + 1, x =>
    if x.total ≤ x.done then (s, x, none)
    else
      let r := x.done / x.rowLen
      let o := x.done % x.rowLen
      let res := match x.kind with
        | .raw | .fill _ => s.rawStep x orig r o
        | _ => s.convStep x orig tile ch r o
      match res with
      | .error e => (s, x, some e)
      | .ok (n, s) => s.stream orig tile ch fuel { x with done := x.done + n }

/-- The address of byte `d` of the destination, in delivery order. -/
def Transfer.dstAt (x : Transfer) (d : Nat) : Nat := x.dst.base + d / x.rowLen * x.dst.stride + d % x.rowLen

/-- The next byte lies in the destination sector that the last one was written to. -/
def Transfer.midSector (x : Transfer) : Bool :=
  x.done != 0 && decide (x.done < x.total) && x.dstAt x.done / 64 == x.dstAt (x.done - 1) / 64

/-- Go on to the end of the destination sector that is being written, or to what stops the stream before it. -/
def State.streamSector (s : State) (orig : List Host.Cell) (tile ch : Nat) : Nat → Transfer → State × Transfer
  | 0, x => (s, x)
  | fuel + 1, x =>
    if !x.midSector then (s, x)
    else match s.stream orig tile ch 1 x with
      | (t, y, none) => t.streamSector orig tile ch fuel y
      | (t, y, some _) => (t, y)

/-- The whole of the head transfer of a busy channel. -/
def State.runHead (s : State) (tile ch fuel : Nat) : Option (State × Transfer × Option Stop) :=
  let c := s.chan tile ch
  match c.mode, c.queue with
  | .busy, x :: _ => some (s.stream s.mem tile ch (if fuel = 0 then x.total + 1 else fuel) x)
  | _, _ => none

/-- CDONE: the smallest id not complete (R156). -/
def Channel.settle (c : Channel) : Channel :=
  { c with cdone := match c.queue with | x :: _ => BitVec.ofNat 48 x.id | [] => c.next }

/-- Record how far the head has come. -/
def State.headProgress (s : State) (tile ch : Nat) (x : Transfer) (before : Nat) (f : Channel → Channel) : State :=
  s.onChan tile ch fun c => f { c with
    queue := x :: c.queue.drop 1, wptr := c.wptr + BitVec.ofNat 64 (x.counted x.done - x.counted before) }

def State.headDone (s : State) (tile ch : Nat) : Nat :=
  match (s.chan tile ch).queue with | x :: _ => x.done | [] => 0

/-- The access of a transfer at `va` waits. -/
def State.streamMiss (s : State) (x : Transfer) (va : Nat) : State :=
  (s.forget x.asker).miss x.asker (tileDie (coreTile x.core)) x.asid (s.streamRoot x) (BitVec.ofNat 64 va)

/-- TRANSFER_DONE: the head transfer has written everything; the next starts (R158). While an access of it waits, that access has
asked for its walk. -/
def execTransferDone (tile ch : Nat) (s : State) : Out :=
  match s.runHead tile ch 0 with
  | some (t, x, none) =>
    .next ((t.forget x.asker).headProgress tile ch x (s.headDone tile ch) fun c =>
      ({ c with queue := c.queue.drop 1, sr := c.sr + x.draws } : Channel).settle)
  | some (_, x, some (.wait va)) => .next (s.streamMiss x va)
  | _ => .next s

/-- The stream of transfer `x` parks at a fault, and the S7 of the issuing core takes the notice trap 0x310 at its next
instruction boundary, after its restart where it is Free (R165). -/
def State.parkStream (s : State) (tile ch : Nat) (x : Transfer) (before va code : Nat) : State :=
  ((s.headProgress tile ch x before fun c =>
    { c with mode := .parked, failId := x.id, failCause := code, paddr := BitVec.ofNat 64 va }).onSlot (8 * x.core + 7)
    (fun y => { y with pend := y.pend ++ [(0x310, BitVec.ofNat 64 va)] })).forget x.asker

/-- STREAM_FAULT: the stream parks. -/
def execStreamFault (tile ch : Nat) (s : State) : Out :=
  match s.runHead tile ch 0 with
  | some (t, x, some (.fault va code)) => .next (t.parkStream tile ch x (s.headDone tile ch) va code)
  | some (_, x, some (.wait va)) => .next (s.streamMiss x va)
  | _ => .next s

/-- The next access of a transfer that stands at `x.done` which a link can fail, by its address: the read of its source or of that
element's scale in host or remote memory, or its write to another package. A write to the host that is lost is not reported
(R332 of spec/22). -/
def State.linkAccess (s : State) (x : Transfer) : Option Nat :=
  if x.total ≤ x.done then none
  else
    let r := x.done / x.rowLen
    let o := x.done % x.rowLen
    let src : Option Nat := match x.kind with
      | .fill _ => none
      | .raw => (x.srcRow r).map fun (p : Nat × Nat × Nat) => p.1 + p.2.2 * elemHalves x.src.fmt.ty / 2 + o
      | _ => (x.srcRow r).map fun (p : Nat × Nat × Nat) => p.1 + (p.2.2 + o * 2 / elemHalves x.dst.fmt.ty) * elemHalves x.src.fmt.ty / 2
    let scale : Option Nat := match x.kind with
      | .expand => (x.srcRow r).map fun (p : Nat × Nat × Nat) =>
          x.src.scales + p.2.1 * x.scaleRow + (p.2.2 + o * 2 / elemHalves x.dst.fmt.ty) / 32
      | _ => none
    ((src.toList ++ scale.toList).map (·, false) ++ [(x.dst.base + r * x.dst.stride + o, true)]).findSome? fun e =>
      match s.streamAccess x e.1 1 e.2 with
      | .ok p => if p.home == .remote || (p.home == .host && !e.2) then some e.1 else none
      | .error _ => none

/-- The access of the head transfer to host or remote memory fails, after a number of bytes that the link leaves open (log 3): the
stream parks as for an access fault with 0x10C (R332, R339 of spec/22). -/
def State.linkError (s : State) (tile ch : Nat) : State :=
  match (s.chan tile ch).mode, (s.chan tile ch).queue with
  | .busy, x :: _ =>
    let p := s.pick (x.total + 1)
    let r := if p.1 = 0 then some (p.2, x, none) else p.2.runHead tile ch p.1
    match r with
    | some (t, y, none) => match t.linkAccess y with
      | some va => t.parkStream tile ch y x.done va 0x10C
      | none => s
    | _ => s
  | _, _ => s

/-- SOURCE_ERROR: the channel fails at the first bad source sector (R166). -/
def execSourceError (tile ch : Nat) (s : State) : Out :=
  match s.runHead tile ch 0 with
  | some (t, x, some (.error va code)) =>
    .next (t.headProgress tile ch x (s.headDone tile ch) fun c =>
      { c with mode := .failed, failId := x.id, failCause := code, faddr := BitVec.ofNat 64 va })
  | some (_, x, some (.wait va)) => .next (s.streamMiss x va)
  | _ => .next s

/-! ## DWAIT, DSTAT, DCAN (R404, R405, R170) -/

def execDwait (gd : Guard) (ch : Fin 16) (a : Opnd) (b : Src) (s : State) : Out :=
  s.guarded gd fun s => s.operands [b] [a] fun vs s =>
    let t := (arg vs 0).toNat
    let c := s.chan s.myTileNum ch.val
    if c.next.toNat ≤ t then s.trap 0x304 0
    else match c.waitValue t with
      | some v => s.finish a (BitVec.ofNat 64 v)
      | none => s.park (.transfer ch t)

/-- The state code of DSTAT.STAT. -/
def Channel.code (c : Channel) : Nat :=
  match c.mode with
  | .parked => 2
  | .failed => 3
  | .busy => if c.queue.isEmpty then 0 else 1

def Channel.statWord (c : Channel) (f : Nat) : Word :=
  match f with
  | 0 => BitVec.ofNat 64 (c.next.toNat + c.queue.length * 2 ^ 58 + c.code * 2 ^ 62)
  | 1 => if c.code < 2 then 0 else BitVec.ofNat 64 (c.failCause + c.failId * 2 ^ 16)
  | 2 => c.faddr
  | _ => if c.mode = .parked then c.paddr else 0

def execDstat (gd : Guard) (ch : Fin 16) (f : Fin 4) (a : Opnd) (s : State) : Out :=
  s.guarded gd fun s => s.operands [] [a] fun _ s => s.finish a ((s.chan s.myTileNum ch.val).statWord f.val)

/-- Cancel from id `t` (R170); on an Idle channel it has no effect (R158). The running transfer stops after the destination sector
that it is writing; which one that is the spec leaves to its timing (log 3). -/
def State.cancelChannel (s : State) (tile ch t : Nat) : State :=
  let c := s.chan tile ch
  if c.next.toNat ≤ t || c.idle then s
  else
    let s := match c.queue with
      | x :: _ =>
        if x.id < t then s
        else
          let p := s.pick (x.total + 1)
          match c.mode with
          | .busy =>
            let r := p.2.stream s.mem tile ch p.1 x
            let q := r.1.streamSector s.mem tile ch 64 r.2.1
            q.1.headProgress tile ch q.2 x.done id
          | .parked | .failed => p.2
      | [] => s
    s.onChan tile ch fun c =>
      let hit := c.mode != .busy && t ≤ c.failId
      ({ c with
        -- a transfer that has begun to convert has drawn
        sr := c.sr + (((c.queue.head?).filter fun x => t ≤ x.id && x.done != 0).map (·.draws)).getD 0
        queue := c.queue.filter fun x => decide (x.id < t)
        mode := if hit then .busy else c.mode
        failId := if hit then 0 else c.failId
        failCause := if hit then 0 else c.failCause
        can := some (t, c.next.toNat - 1) } : Channel).settle

def execDcan (gd : Guard) (ch : Fin 16) (b : Src) (s : State) : Out :=
  s.guarded gd fun s => s.operands [b] [] fun vs s =>
    (s.cancelChannel s.myTileNum ch.val (Nat.max 1 (arg vs 0).toNat)).done

def execDcanResume (gd : Guard) (ch : Fin 16) (s : State) : Out :=
  s.guarded gd fun s =>
    (s.onChan s.myTileNum ch.val fun c => { c with mode := if c.mode = .parked then .busy else c.mode }).done

end Sys2Proof.Machine
end

