-- ==== Sys2Proof/Machine/Groups.lean ====
section
/-! DEFINITION. Age, reservation and pre-emption of groups as events (R253 to R256 of spec/15). -/

namespace Sys2Proof.Machine

open Sys2Proof

/-! ## The age limit (R254) -/

/-- A queued group without a reservation has reached PLACEAGE, and a tile can be reserved for it. -/
def State.ageDue (s : State) (g : Nat) : Bool :=
  match s.group g with
  | none => false
  | some x =>
    if x.state != .queued then false
    else match (s.reserveFor g x).group g with
      | some y => y.reserve.isSome && x.reserve.isNone
      | none => false

/-- GROUP_AGE_LIMIT: a tile is reserved, and the die makes a placement pass. -/
def execGroupAgeLimit (group : Nat) (s : State) : Out :=
  .next (match s.group group with
    | none => s
    | some x => if s.ageDue group then (s.reserveFor group x).placePass x.die else s)

/-! ## Expiry (R255) -/

/-- The groups placed on a tile that hold slots there, by a thread or by a child spawned there, and whose class number is higher than
`cls`: highest class first, newest entry first. -/
def State.lowerOn (s : State) (t : Nat) (cls : Fin 4) : List (Nat × Group) :=
  let gs := s.groups.filterMap fun e => match e.2 with
    | some x =>
      if x.state == .placed && !x.preempt && cls < x.cls && x.placedOn == some t
          && (s.groupSlots e.1).any (fun n => slotTile n == t) then some (e.1, x) else none
    | none => none
  let key := fun (e : Nat × Group) => e.2.cls.val * 2 ^ 64 + e.2.entry.toNat
  gs.foldl (fun l e => l.takeWhile (fun f => key e ≤ key f) ++ e :: l.dropWhile (fun f => key e ≤ key f)) []

/-- The placed groups whose pre-emption is under way. -/
def State.leaving (s : State) : List Nat :=
  s.groups.filterMap fun e => match e.2 with
    | some x => if x.preempt && x.state == .placed then some e.1 else none
    | none => none

/-- The state in which the slots of some groups are free: what their pre-emption would leave. -/
def State.without (s : State) (gs : List Nat) : State :=
  gs.foldl (fun s g => (s.groupSlots g).foldl (fun s n => s.onSlot n Slot.freed) s) s

/-- The shortest beginning of a list of groups whose slots make room for a group, with those that halts under way will free. -/
def State.enough (s : State) (g : Nat) (x : Group) (t : Nat) (gs : List Nat) : Option (List Nat) :=
  ((List.range (gs.length + 1)).map gs.take).find? fun l => (s.without (s.leaving ++ l)).fits g x t

/-- A reservation has stood for PLACEAGE and its expiry has not been handled. DESIGN CHOICE (log 77): one that a swap has kept expires
only once its context is resident again. -/
def State.expiryDue (s : State) (g : Nat) : Bool :=
  match s.group g with
  | none => false
  | some x => match x.reserve with
    | none => false
    | some (t, at_) =>
      x.state == .queued && !x.stalled && (s.tile t).owner == some x.asid && s.resident x.asid
        && s.placeAge x.asid ≤ s.clock.toNat - at_.toNat

/-- The placement-stall event's DATA (R256, R314 of spec/20). -/
def stallData (x : Group) (t age : Nat) : Nat :=
  x.index + x.cls.val * 2 ^ 32 + tileDie t * 2 ^ 34 + t % 24 * 2 ^ 36 + age % 2 ^ 32 * 2 ^ 64

/-- RESERVATION_EXPIRES: lower-class groups are halted where that makes room; otherwise one stall event is posted. -/
def execReservationExpires (group : Nat) (s : State) : Out :=
  .next (match s.group group with
    | none => s
    | some x =>
      if !s.expiryDue group then s
      else match x.reserve with
        | none => s
        | some (t, _) =>
          let s := s.onGroup group fun y => { y with stalled := true }
          match s.enough group x t ((s.lowerOn t x.cls).map (·.1)) with
          | some l =>
            let s := s.preemptGroups l
            l.foldl (fun s g => s.savePreempted g) s
          | none =>
            s.postEvent x.asid 2 (handleOf 0 x.launch) (stallData x t ((s.clock.toNat - x.entry.toNat) / 1800)))

end Sys2Proof.Machine
end

