-- ==== Sys2Proof/Machine/Hurdles.lean ====
section
/-! DEFINITION. Hurdles (R258 to R265 of spec/16). -/

namespace Sys2Proof.Machine

open Sys2Proof

/-- The checks before 0x285 (R259): alignment, window, translation with R and W, then the memory that holds the hurdle. -/
def State.hurdleAccess (s : State) (ea : Word) (k : List Piece → Out) : Out :=
  s.checked ea 16 true true false fun ps =>
    if ps.any fun p => p.home == .tcm || p.home == .host || p.home == .remote then s.trap 0x10B ea else k ps

/-- Write a hurdle. -/
def State.putHurdle (s : State) (ps : List Piece) (h : Hurdle) : State := s.storePieces ps (leBytes h.word 16)

/-- HINIT: the count is checked before the release and the write. -/
def execHinit (gd : Guard) (scope : Scope) (b c : Src) (disp : BitVec 24) (s : State) : Out :=
  s.guarded gd fun s => s.operands [b, c] [] fun vs s =>
    let ea := baseDisp (arg vs 0) disp
    let n := (arg vs 1).toNat
    s.hurdleAccess ea fun ps => s.writable ps fun s =>
      if n = 0 || 2 ^ 32 ≤ n then s.trap 0x285 ea
      else s.votePoint .releaseOnce (sharedEa ea) (onceRecord ea 0xD5 vs) fun s => s.farThen ea ps fun s =>
        (s.putHurdle ps { expect := n, arrived := 0, phase := 0, scope := scope.code, rest := 0 }).done

/-- An arrival (R261): the hurdle after it, and the result word. -/
def Hurdle.arrive (h : Hurdle) : Hurdle × Word :=
  let last := h.arrived + 1 == h.expect
  (if last then { h with arrived := 0, phase := (h.phase + 1) % 2 ^ 32 } else { h with arrived := h.arrived + 1 },
   BitVec.ofNat 64 (h.phase + bit last 32))

/-- HARR. -/
def execHarr (gd : Guard) (a : Fin 32) (b : Src) (disp : BitVec 24) (s : State) : Out :=
  s.guarded gd fun s => s.operands [b] [] fun vs s =>
    let ea := baseDisp (arg vs 0) disp
    s.hurdleAccess ea fun ps => s.writable ps fun s =>
      s.votePoint .releaseOnce (sharedEa ea) (onceRecord ea 0xD6 vs) fun s => s.farThen ea ps fun s =>
        s.readable ea ps fun bs s =>
          let h := hurdleOf (leNat bs)
          if !h.ok then s.trap 0x285 ea
          else (s.putHurdle ps h.arrive.1).doneRegs [(a.val, h.arrive.2)]

/-- HWAIT: A, the phase, is read plainly. Each read of R261's loop is an access of its own: a parked HWAIT holds no translation and
no epoch of the last one, and asks again when it wakes (DESIGN CHOICE, log 82: R261 and R323 of spec/21 do not say). -/
def execHwait (gd : Guard) (a : Fin 32) (b : Src) (disp : BitVec 20) (s : State) : Out :=
  s.guarded gd fun s => s.operands [plain (.g a), b] [] fun vs s =>
    let ea := baseDisp (arg vs 1) disp
    let q := (arg vs 0).toNat % 2 ^ 32
    s.hurdleAccess ea fun ps => s.farThen ea ps fun s => s.readable ea ps fun bs s =>
      let h := hurdleOf (leNat bs)
      if !h.ok then s.trap 0x285 ea
      else if h.phase != q then s.done
      else (s.onMe Slot.unasked).park
        (.hurdle (match ps with | p :: _ => p.pa | [] => 0) q)

end Sys2Proof.Machine
end

