-- ==== Sys2Proof/Machine/Kernels.lean ====
section
/-! DEFINITION. The four work instructions and the copy node (R233 to R247 and R433 to R436 of spec/14, R310 of spec/20). -/

namespace Sys2Proof.Machine

open Sys2Proof

/-! ## Handles (R233) -/

/-- The issuer's own unit at a level, as its thread carries it: the records may have been dropped. -/
def Ident.ownUnit (x : Ident) (level : Nat) : Option Nat :=
  let h := match level with
    | 0 => x.launch.toNat
    | 1 => x.graph
    | 2 => x.phase
    | _ => x.job
  if x.launch = 0 || h = 0 then none else some h

/-- The unit a handle names: its handle, or none when the handle is bad. A unit given and absent has been dropped. -/
def State.handle (s : State) (v : Word) : Option Nat :=
  let asid := s.asidOf s.agent
  let level := bitsAt v.toNat 30 2
  let n := bitsAt v.toNat 0 30
  if 2 ^ 32 ≤ v.toNat then none
  else if n = 0 then s.me.id.ownUnit level
  else match s.ctx asid with
    | none => none
    | some c => if n < c.next level then some v.toNat else none

/-- With a good handle, `k`; else 0x3C7. -/
def State.withHandle (s : State) (v : Word) (k : Nat → Out) : Out :=
  match s.handle v with
  | none => s.trap 0x3C7 v
  | some h => k h

/-! ## Descriptors (R234, R235) -/

/-- The fields of a launch descriptor and of its kernel descriptor; none when R245 refuses them. -/
def kernelOf (d dv kv : Nat) (count : Option Nat) : Option Kernel :=
  let kdesc := bitsAt dv 0 64
  let spc := bitsAt kv 67 3
  let repl := bitsAt kv 70 2
  let perg := Nat.max 1 (bitsAt dv 176 16)
  let groups := match count with
    | none => bitsAt dv 128 24
    | some n => ceilDiv n perg
  if d % 64 != 0 || kdesc % 64 != 0 || bitsAt dv 192 320 != 0 || bitsAt dv 170 6 != 0 || bitsAt dv 152 16 != 0
      || bitsAt kv 72 440 != 0 || 6 ≤ spc || repl = 3 || (match count with | some n => 2 ^ 32 ≤ n | none => false)
      || 16777215 < groups then none
  else some { entry := BitVec.ofNat 64 (bitsAt kv 0 64), cpg := bitsAt kv 64 3 + 1, spc := spc + 1
              repl := if repl = 0 then 0 else repl + 1, cls := Fin.ofNat 4 (bitsAt dv 168 2)
              karg := BitVec.ofNat 64 (bitsAt dv 64 64), groups }

/-- A launch's class: never above the issuer's priority, nor above the context's CLASSMIN (R433, R299 of spec/19). -/
def maxCls (a b : Fin 4) : Fin 4 := if a ≤ b then b else a

/-- The class 3 to class 5 checks of a descriptor of 64 bytes, read as an 8-byte-aligned load (R247). -/
def State.descriptorAt (s : State) (va : Word) (k : List Piece → Out) : Out :=
  if va.toNat % 8 != 0 then s.trap 0x141 va
  else s.withAccess va 64 true false fun ps => if ps.any (·.home == .format) then s.trap 0x102 va else k ps

/-- A replica makes a check before its vote, and not again once that has agreed (R271 of spec/17). -/
def State.beforeVote (s : State) (check : (List Piece → Out) → Out) (k : State → Out) : Out :=
  if s.me.rep.count = 0 || s.me.park.voted then k s else check fun _ => k s

/-- Read a descriptor. -/
def State.descriptor (s : State) (va : Word) (k : List Byte → State → Out) : Out :=
  s.descriptorAt va fun ps => s.farThen va ps fun s => s.readable va ps k

/-- Descriptor `n` of a LAUNCH has been read: its eight words are kept behind the operands, from word 8 `n` up, and the next
access is a request of its own, with translations of its own (R322, R323 of spec/21). -/
def Slot.gotDescriptor (x : Slot) (n : Nat) (bs : List Byte) : Slot :=
  let y := x.unasked
  let ws := (List.range 8).map fun i => BitVec.ofNat 64 (leNat ((bs.drop (8 * i)).take 8))
  { y with park := { y.park with
      tries := n, vals := y.park.vals.map fun vs => vs ++ List.replicate (8 * n - vs.length) 0 ++ ws } }

/-- Descriptor `n` as it is kept. -/
def State.keptDescriptor (s : State) (n : Nat) : Nat := leNat (bytesOf 64 ((s.me.park.vals.getD []).drop (8 * n)))

/-- Both descriptors in turn, each read once; `park.tries` counts those that have been read. -/
def State.descriptors (s : State) (d : Word) (k : Nat → Nat → State → Out) : Out :=
  let both := fun (s : State) => k (s.keptDescriptor 1) (s.keptDescriptor 2) s
  let second := fun (s : State) =>
    s.descriptor (BitVec.ofNat 64 (bitsAt (s.keptDescriptor 1) 0 64)) fun bs s => both (s.onMe (·.gotDescriptor 2 bs))
  match s.me.park.tries with
  | 0 => s.descriptor d fun bs s => second (s.onMe (·.gotDescriptor 1 bs))
  | 1 => second s
  | _ => both s

/-! ## LAUNCH (R433) -/

/-- The graph is Complete, has 1,024 nodes, or the numbers are used up: 0x3C9. -/
def State.launchRefused (s : State) (asid graph : Nat) : Bool :=
  match s.ctx asid, s.unit asid graph with
  | some c, some g => 2 ^ 30 ≤ c.next 0 || 1024 ≤ g.nodes.length || g.state == .complete
  | _, _ => true

/-- Create the launch as the graph's last node: Active, or Complete and CANCELLED in a Cancelling graph. -/
def State.addLaunch (s : State) (asid graph : Nat) (k : Kernel) : State × Nat :=
  match s.ctx asid, s.unit asid graph with
  | some c, some g =>
    let node := g.nodes.length
    let u : WorkUnit := { level := 0, parent := graph, born := 0, kernel := k, node := node, total := k.groups, jobseed := g.jobseed }
    let r := c.addUnit u
    let s := s.setCtx asid (some r.1)
    let x : GNode := { kind := .launch, body := 0, succ := [], dflt := 0, launch := r.2, open_ := 0, sat := 1, branch := none
                       state := .running }
    let s := s.onUnit asid graph fun g => { g with nodes := g.nodes ++ [x], total := g.total + 1 }
    if g.state == .cancelling then ((s.completeUnit asid r.2 true).work asid [.counted r.2], r.2)
    else (s.work asid [.start r.2], r.2)
  | _, _ => (s, 0)

/-- LAUNCH[.CNT]. -/
def execLaunch (gd : Guard) (a : Fin 32) (b : Src) (cnt : Option Src) (s : State) : Out :=
  s.guarded gd fun s => s.operands (b :: cnt.toList) [] fun vs s =>
    let asid := s.asidOf s.agent
    let d := arg vs 0
    let n := if cnt.isSome then some (arg vs 1).toNat else none
    match s.me.id.ownUnit 0, s.ctx asid with
    | none, _ => s.trap 0x3C7 0
    | some _, none => s.trap 0x3C7 0
    | some _, some c =>
      -- every replica checks the address before the vote; the bellwether reads the descriptors and tests the rest (R271, R272 of spec/17)
      s.beforeVote (s.descriptorAt d) fun s =>
      s.votePoint .releaseOnce true (onceRecord d 0xD8 (vs.take (if cnt.isSome then 2 else 1))) fun s => s.descriptors d fun dv kv s =>
        match kernelOf d.toNat dv kv n with
        | none => s.trap 0x3C6 d
        | some k =>
          let k := { k with cls := maxCls (maxCls k.cls s.me.id.cls) c.record.classMin }
          let graph := s.me.id.graph
          if k.repl != 0 && c.dies.length < k.repl then s.trap 0x2C4 0
          else if s.launchRefused asid graph then s.trap 0x3C9 0
          else if 4096 ≤ c.openLaunches then s.park .launchRoom
          else
            let r := s.addLaunch asid graph k
            r.1.doneRegs [(a.val, BitVec.ofNat 64 r.2)]

/-! ## GSEL (R238, R434) -/

/-- The branch that stands at a node. A node has resolved once it has started, though its completion may still wait for remote
writes (R237, R242), and DEF then applies where no GSEL has recorded one (R238). For a node that ended before it started the spec
gives none, and the model's answer is 4 (DESIGN CHOICE, log 102). -/
def GNode.standing (x : GNode) : Nat :=
  match x.branch with
  | some b => b
  | none => if x.state == .done || x.state == .running then x.dflt else 4

/-- The first GSEL before the node resolves records its branch. -/
def GNode.select (x : GNode) (b : Nat) : GNode :=
  match x.branch with
  | some _ => x
  | none => if x.state == .waiting then { x with branch := some (Nat.min b 4) } else x

/-- GSEL: its checks are those of the scheduler, made once after the vote (R244; R271 of spec/17). -/
def execGsel (gd : Guard) (node : Fin 1024) (a : Fin 32) (b c : Src) (s : State) : Out :=
  s.guarded gd fun s => s.operands [b, c] [] fun vs s =>
    s.votePoint .operands true (onceRecord (arg vs 0) 0xD9 vs) fun s =>
      let asid := s.asidOf s.agent
      s.withHandle (arg vs 0) fun h =>
        match s.nodeOf asid h node.val with
        | none => s.trap 0x3C8 (BitVec.ofNat 64 node.val)
        | some x =>
          if h / 2 ^ 30 != 1 || x.kind != .conditional then s.trap 0x3C8 (BitVec.ofNat 64 node.val)
          else
            let y := x.select (arg vs 1).toNat
            (s.onNode asid h node.val fun _ => y).doneRegs [(a.val, BitVec.ofNat 64 y.standing)]

/-! ## CANCEL, CNTRD (R435, R436) -/

def execCancel (gd : Guard) (b : Src) (s : State) : Out :=
  s.guarded gd fun s => s.operands [b] [] fun vs s =>
    s.votePoint .operands true (onceRecord (arg vs 0) 0xDA vs) fun s =>
      s.withHandle (arg vs 0) fun h => (s.cancelUnit (s.asidOf s.agent) h).done

/-- The STATUS word's state code. -/
def UState.code : UState → Nat
  | .pending => 0 | .active => 1 | .cancelling => 2 | .complete => 3

def WorkUnit.status (u : WorkUnit) : Nat :=
  u.state.code + bit (u.closed && u.level == 3) 2 + bit (u.cancelled && u.state == .complete) 3

/-- STATUS of a unit whose record was dropped: Complete with RETIRED (R233, R436). CANCELLED and a job's CLOSED are free values
(DESIGN CHOICE, log 46); CLOSED is 0 at other levels. -/
def droppedStatus (asid h : Nat) : Nat :=
  0x13 + bit (Config.droppedFlags asid h).1 3 + bit ((Config.droppedFlags asid h).2 && h / 2 ^ 30 == 3) 2

/-- CNTRD's value of a unit; one whose record was dropped reads as Complete with RETIRED, COUNT and TOTAL equal and
otherwise open. -/
def State.counterOf (s : State) (asid h f : Nat) : Nat :=
  match s.unit asid h with
  | none => match f with
    | 0 | 1 => (Config.droppedCount asid h).toNat
    | 2 => droppedStatus asid h
    | _ => 0
  | some u => match f with
    | 0 => u.count % 2 ^ 32
    | 1 => u.total % 2 ^ 32
    | 2 => u.status
    | _ => u.pruned % 2 ^ 32

def execCntrd (gd : Guard) (f : Fin 4) (a : Fin 32) (b : Src) (s : State) : Out :=
  s.guarded gd fun s => s.operands [b] [] fun vs s =>
    s.withHandle (arg vs 0) fun h =>
      s.doneRegs [(a.val, BitVec.ofNat 64 (s.counterOf (s.asidOf s.agent) h f.val))]

/-! ## Copy nodes (R310 of spec/20) -/

/-- A copy's bytes at the pieces of a write. -/
def State.copyPieces (s : State) : List Piece → List Byte → State
  | [], _ => s
  | p :: ps, bs => (s.copyWrite p (bs.take p.len)).copyPieces ps (bs.drop p.len)

/-- Copy bytes in chunks that stay within a 64-byte sector of the destination, by the unit of a die. -/
def State.copyBytes (s : State) (u : HostUnit) : Nat → Word → Word → Nat → State × Option (Nat × Word)
  | 0, _, _, _ => (s, none)
  | fuel + 1, src, dst, len =>
    if len = 0 then (s, none)
    else
      let n := Nat.min len (64 - dst.toNat % 64)
      match s.unitAccess u src n true false with
      | .error e => (s, some e)
      | .ok ps => match s.unitAccess u dst n false true with
        | .error e => (s, some e)
        | .ok qs =>
          ((s.haveRead ps).copyPieces qs (s.readPieces ps)).copyBytes u fuel (src + BitVec.ofNat 64 n) (dst + BitVec.ofNat 64 n) (len - n)

/-- The die that homes an address of a context (R15 of spec/01); die 0 for one that names no HBM, and for one that die 0 must walk for
first (log 23). -/
def State.homeDie (s : State) (u : HostUnit) (va : Word) : Nat :=
  match s.engineAccess u.asker 0 u.asid va 1 false false with
  | .ok [p] => if p.home = .hbm then p.pa / (192 * 2 ^ 30) else 0
  | _ => 0

/-- A copy node's whole work, by the record read at its start and the unit of a die: the state and the fault, if it meets one. -/
def State.copyNode (s : State) (u : HostUnit) (body : Word) (r : CopyRec) : State × Option (Nat × Word) :=
  match r with
  | .bad c a => (s, some (c, a))
  | .read v =>
    let len := bitsAt v 128 64
    let dst := BitVec.ofNat 64 (bitsAt v 64 64)
    if len = 0 || 2 ^ 32 < len || bitsAt v 192 64 != 0 then (s, some (0x3CA, body))
    else s.copyBytes u len (BitVec.ofNat 64 (bitsAt v 0 64)) dst len

/-- The die whose unit moves a copy node's bytes: the one that homes the destination (R310 of spec/20). -/
def State.copyDie (s : State) (u : HostUnit) (r : CopyRec) : Nat :=
  match r with
  | .bad _ _ => 0
  | .read v => s.homeDie u (BitVec.ofNat 64 (bitsAt v 64 64))

/-- COPY_NODE_DONE: the node's bytes are written, which is a release at system scope (R242); a fault completes it by cancel and
posts the copy-fault event, and a journal record that waited for the node becomes final. While an access of the node waits, that
access has asked for its walk. -/
def execCopyNodeDone (asid graph node : Nat) (s : State) : Out :=
  .next (State.payJournals <| match s.nodeOf asid graph node with
    | none => s
    | some x =>
      if x.kind != .copy || x.state != .running || s.writesHeld then s
      else
        let u : HostUnit := ⟨0, asid, graph, node⟩
        match (match x.copy with | some r => (some r, s) | none => s.copyRecord u x.body) with
        | (none, s) => s
        | (some r, s) =>
          let u := { u with die := s.copyDie u r }
          match s.copyNode u x.body r with
          | (t, none) => ((t.forget u.asker).settleAll).work asid [.nodeEnd graph node true]
          | (t, some e) =>
            if e.1 = walkWait then s.unitMiss u e.2
            else ((t.forget u.asker).settleAll.postEvent asid 4 graph (e.2.toNat + node * 2 ^ 64 + e.1 * 2 ^ 74)).work asid
              [.nodeEnd graph node false])

end Sys2Proof.Machine
end

