-- ==== Sys2Proof/Machine/Moves.lean ====
section
/-! DEFINITION. Constants, predicate moves, select, bit fields, addresses and multiply-add (R373 to R379 of spec/07). -/

namespace Sys2Proof.Machine

open Sys2Proof

/-! ## R373 -/

def execMovi (a : Opnd) (imm : BitVec 48) (s : State) : Out :=
  s.operands [] [a] fun _ s => s.finish a (sextWord imm)

def execMovhi (gd : Guard) (a : Fin 32) (imm : BitVec 16) (s : State) : Out :=
  s.guarded gd fun s => s.doneRegs [(a.val, imm ++ (s.me.reg a.val).setWidth 48)]

/-! ## R374 -/

def execPlog (op : BitOp) (a b c : Fin 16) (s : State) : Out :=
  s.setPredDone a (BitOp.bit op (s.me.pred b.val) (s.me.pred c.val))

def execPmovSet (p : Fin 16) (b : Src) (s : State) : Out :=
  s.operands [b] [] fun vs s => s.setPredDone p (arg vs 0 != 0)

def execPmovGet (a : Opnd) (s : State) : Out := s.operands [] [a] fun _ s => s.finish a s.me.predWord

def execPmovPut (b : Src) (s : State) : Out :=
  s.operands [b] [] fun vs s => (s.onMe fun x => { x with p := (arg vs 0).setWidth 16 ||| 1#16 }).done

def execPmovNot (a b : Fin 16) (s : State) : Out := s.setPredDone a (!s.me.pred b.val)

/-! ## R375: both sources are read -/

def execSel (gd : Guard) (a : Opnd) (m : Fin 16) (b c : Src) (s : State) : Out :=
  s.guarded gd fun s => s.operands [b, c] [a] fun vs s =>
    s.finish a (if s.me.pred m.val then arg vs 0 else arg vs 1)

/-! ## R376, R377 -/

/-- Bits [pos + width - 1 : pos], extended. -/
def extractField (signed : Bool) (v : Word) (pos width : Nat) : Word :=
  let f := BitVec.ofNat width (v.toNat / 2 ^ pos)
  if signed then f.signExtend 64 else f.setWidth 64

/-- Bits [pos + width - 1 : pos] of `v` replaced by the low bits of `f`. -/
def insertField (v f : Word) (pos width : Nat) : Word :=
  let m := ((BitVec.allOnes width).setWidth 64) <<< pos
  (v &&& ~~~m) ||| ((f <<< pos) &&& m)

def execBfx (gd : Guard) (signed : Bool) (a : Opnd) (b : Src) (pos width1 : Fin 64) (s : State) : Out :=
  s.guarded gd fun s => s.operands [b] [a] fun vs s =>
    s.finish a (extractField signed (arg vs 0) pos.val (width1.val + 1))

def execBfi (gd : Guard) (a : Opnd) (b c : Src) (pos width1 : Fin 64) (s : State) : Out :=
  s.guarded gd fun s => s.operands [b, c] [a] fun vs s =>
    s.finish a (insertField (arg vs 0) (arg vs 1) pos.val (width1.val + 1))

/-! ## R378, R379 -/

def execLea (gd : Guard) (a : Opnd) (addr : Addr) (s : State) : Out :=
  s.guarded gd fun s => s.operands [addr.b, addr.c] [a] fun vs s =>
    s.finish a (effAddr (arg vs 0) (arg vs 1) addr.ss addr.disp)

def execMula (gd : Guard) (a : Fin 32) (b c : Src) (s : State) : Out :=
  s.guarded gd fun s => s.operands [plain (.g a), b, c] [] fun vs s =>
    s.doneRegs [(a.val, arg vs 0 + arg vs 1 * arg vs 2)]

end Sys2Proof.Machine
end

