-- ==== Sys2Proof/Machine/Streams.lean ====
section
/-! DEFINITION. Filter windows, picks, random bits and decode streams (R282 to R296 and R437 of spec/18). -/

namespace Sys2Proof.Machine

open Sys2Proof

/-! ## Window records (R282, R283) -/

def State.winSlot (s : State) (w : Nat) : WinSlot := Table.val {} w s.windows
def State.onWin (s : State) (w : Nat) (f : WinSlot → WinSlot) : State :=
  { s with windows := Table.put w (f (s.winSlot w)) s.windows }

/-- Another context owns the window. -/
def State.foreignWin (s : State) (w : Nat) : Bool :=
  match (s.winSlot w).win with | some x => x.owner != s.asidOf s.agent | none => false

/-- The modes of TEMP (R286). -/
inductive PickMode where
  | greedy | sample | uniform
  deriving DecidableEq, Repr

def isSubnormal32 (v : BitVec 32) : Bool := (v &&& 0x7F800000) == 0 && (v &&& 0x007FFFFF) != 0

def pickMode (temp : BitVec 32) : PickMode :=
  if (temp &&& 0x7F800000) == 0 then .greedy else if temp == 0x7F800000 then .uniform else .sample

/-- TEMP that FOPEN refuses: negative and finite but not -0, minus infinity, NaN. -/
def badTemp (v : BitVec 32) : Bool := isNan32 v || (v.msb && v != 0x80000000)

/-- A window as its record gives it; `region` is still to be translated. -/
def windowOf (v owner core : Nat) : Window :=
  { owner, core, region := [], row := []
    mstride := bitsAt v 384 32, topp := BitVec.ofNat 32 (bitsAt v 352 32), temp := BitVec.ofNat 32 (bitsAt v 320 32)
    mask := BitVec.ofNat 64 (bitsAt v 256 64), rstride := bitsAt v 192 32, rows := bitsAt v 160 16, k := bitsAt v 151 9
    bf16 := bitsAt v 146 1 == 1, vocab := bitsAt v 128 18, laddr := bitsAt v 0 64 }

def recordReserved (v : Nat) : Bool :=
  bitsAt v 416 96 != 0 || bitsAt v 224 32 != 0 || bitsAt v 176 16 != 0 || bitsAt v 147 4 != 0 || bitsAt v 64 64 != 0

def Window.size (w : Window) : Nat := if w.bf16 then 2 else 4
/-- Bytes of the region. -/
def Window.bytes (w : Window) : Nat := (w.rows + 1) * w.rstride

/-- The conditions of R283 on the fields. DESIGN CHOICE (log 91): K of 257 to 511, which the field can hold
and R282 leaves out, is refused though R283 does not list it. -/
def Window.fieldsOk (w : Window) : Bool :=
  1 ≤ w.k && w.k ≤ 256 && w.k ≤ w.vocab + 1 && (w.vocab + 1) * w.size ≤ w.rstride
    && (w.mstride == 0 || (w.vocab + 64) / 64 * 8 ≤ w.mstride)
    && w.mstride % 8 == 0 && w.rstride % 64 == 0 && w.laddr % 64 == 0 && w.mask.toNat % 8 == 0
    && !badTemp w.temp && !isNan32 w.topp

/-- The flat addresses of the region's 64 KiB pages; none when one is not package HBM through W permission. -/
def State.regionPages (s : State) (n : Nat) : Nat → Nat → Option (List Nat)
  | 0, _ => some []
  | k + 1, va =>
    if 2 ^ 57 ≤ va then none
    else match findLeaf s.tlb (s.slot n).sup.asid.toNat va with
      | none => none
      | some l =>
        if (l.denied ⟨false, true, false, (s.slot n).sup.sinh⟩).isSome || l.home != .hbm then none
        else (s.regionPages n k (va + 65536)).map fun t => l.pa va :: t

/-- The first page of a region that must be walked for (R321 of spec/21); one whose walk has ended in a fault is none. -/
def State.regionWait (s : State) (n k va : Nat) : Option Nat :=
  ((List.range k).map fun i => va + 65536 * i).find? fun a =>
    decide (a < 2 ^ 57) && (findLeaf s.tlb (s.slot n).sup.asid.toNat a).isNone && !(s.slot n).park.missed.any (·.1 == a / 65536)

/-- The pages that a window record names. -/
def Window.pages (w : Window) : Nat := (w.laddr + w.bytes - 1) / 65536 + 1 - w.laddr / 65536

/-- The flat ranges of a region: start and end. -/
def Window.spans (w : Window) : List (Nat × Nat) :=
  let skip := w.laddr % 65536
  w.region.zipIdx.map fun p =>
    (p.1 + (if p.2 = 0 then skip else 0), p.1 + Nat.min 65536 (skip + w.bytes - p.2 * 65536))

def spansMeet (a b : List (Nat × Nat)) : Bool := a.any fun x => b.any fun y => x.1 < y.2 && y.1 < x.2

/-- The region overlaps that of another open window. -/
def State.overlaps (s : State) (w : Nat) (x : Window) : Bool :=
  s.windows.any fun e => e.1 != w && (match e.2.win with | some y => spansMeet x.spans y.spans | none => false)

/-- Pending operations of a window that closes or is opened anew will answer CLOSED. -/
def WinSlot.closed (x : WinSlot) (win : Option Window) : WinSlot :=
  { x with win := win, ops := x.ops.map fun o => (o.1, true) }

/-- The window the record describes, when R283 accepts it. -/
def State.acceptWindow (s : State) (w v : Nat) : Option Window :=
  let x := windowOf v (s.asidOf s.agent) s.myCoreNum
  if recordReserved v || !x.fieldsOk then none
  else
    let first := x.laddr / 65536 * 65536
    match s.regionPages s.agent x.pages first with
    | none => none
    | some ps =>
      let x := { x with region := ps }
      if s.overlaps w x then none else some x

/-- The rows of some windows await no walk any more. -/
def State.forgetRows (s : State) (ws : List Nat) : State :=
  s.forgetAll fun i => match i with
    | .window w _ => ws.contains w
    | .engine _ | .copy _ _ _ _ | .unit _ _ _ _ | .loft _ _ => false

/-- A window closes or is opened anew: its rows await no walk any more. -/
def State.setWin (s : State) (w : Nat) (win : Option Window) : State :=
  (s.onWin w fun x => x.closed win).forgetRows [w]

def windowWord (w : Nat) : Word := BitVec.ofNat 64 w

/-- Close a window for its owner. The checks of class 14 come after the vote, in the replica that performs it (R271, R272 of
spec/17). -/
def closeWindow (w : Nat) (vs : List Word) (s : State) : Out :=
  s.votePoint .operands true (onceRecord (windowWord w) 0xE4 vs) fun s =>
    if s.foreignWin w then s.trap 0x382 (windowWord w) else (s.setWin w none).done

/-- Open a window with the record at `ea`, once the walks of its region have ended. -/
def State.openWindow (s : State) (w : Nat) (ea : Word) (v : Nat) : Out :=
  let x := windowOf v (s.asidOf s.agent) s.myCoreNum
  match (if recordReserved v || !x.fieldsOk then none else s.regionWait s.agent x.pages (x.laddr / 65536 * 65536)) with
  | some a => s.parkMiss (BitVec.ofNat 64 a)
  | none => match s.acceptWindow w v with
    | none => s.trap 0x381 ea
    | some x => (s.setWin w (some x)).done

/-- FOPEN; a record address of 0 closes the window (R282). -/
def execFopen (gd : Guard) (w : Fin 256) (b : Src) (s : State) : Out :=
  s.guarded gd fun s => s.operands [b] [] fun vs s =>
    let ea := arg vs 0
    if ea = 0 then closeWindow w.val vs s
    else s.checked ea 64 true false false fun ps =>
      s.votePoint .operands true (onceRecord (windowWord w.val) 0xE4 vs) fun s =>
        if s.foreignWin w.val then s.trap 0x382 (windowWord w.val)
        else s.farThen ea ps fun s => s.readable ea ps fun bs s => s.openWindow w.val ea (leNat bs)

/-- FOPEN with B = g0: close. -/
def execFopenClose (gd : Guard) (w : Fin 256) (sync : Bool) (s : State) : Out :=
  s.guarded gd fun s => s.operands [⟨.g 0, sync⟩] [] fun vs s => closeWindow w.val vs s

/-! ## What the filter computes (R285 to R287) -/

/-- exp(-y) for y = a / b, rounded nowhere yet; beyond 2^7 it lies below half of the least FP32 number. -/
def expNeg (a b : FVal) : FVal :=
  match a, b with
  | .fin _ ma ea, .fin _ mb eb =>
    if ma = 0 then .fin false 1 0
    else
      let e := fxBits + ea - eb
      let y := if e < 0 then ma / (mb * 2 ^ (-e).toNat) else ma * 2 ^ e.toNat / mb
      if 128 * 2 ^ fxBits ≤ y then .fin false 1 (-4096)
      else
        let k := (y + ln2Fx - 1) / ln2Fx
        sticky false (expTerms (k * ln2Fx - y) 110 1 (2 ^ fxBits)) (-(fxBits : Int) - k)
  | _, _ => .zero

def logitOf (v : BitVec 32) : FVal := fp32.decode v.toNat
def round32 (mode : RoundMode) (x : FVal) : FVal := fp32.decode (fp32.round mode 0 x)

/-- c of R285: the candidates, those at plus infinity alone when there are any. -/
def Row.chosen (r : Row) : List (Nat × BitVec 32) :=
  if r.cands.any fun c => c.2 == 0x7F800000 then r.cands.filter fun c => c.2 == 0x7F800000 else r.cands

/-- The maximum; the first of equals in token order, which decides the sign of MX between -0 and +0 (DESIGN CHOICE, log 98). -/
def maxLogit (l : List (Nat × BitVec 32)) : BitVec 32 :=
  match l with
  | [] => 0
  | c :: cs => cs.foldl (fun m x => if (logitOf m).lt (logitOf x.2) then x.2 else m) c.2

/-- e(t) of a logit. A subnormal TEMP acts as zero (R286). -/
def weightOf (temp mx l : BitVec 32) : FVal :=
  if pickMode temp = .sample && mx != 0x7F800000 then
    round32 .rne (expNeg ((logitOf mx).add .rne (logitOf l).neg) (logitOf temp))
  else .fin false 1 0

/-- S: the sum in ascending token order. -/
def sumOf (temp mx : BitVec 32) (l : List (Nat × BitVec 32)) : FVal :=
  l.foldl (fun acc c => round32 .rne (acc.add .rne (weightOf temp mx c.2))) .zero

/-- Insert by logit descending, ties to the lower token. -/
def insertLogit (c : Nat × BitVec 32) : List (Nat × BitVec 32) → List (Nat × BitVec 32)
  | [] => [c]
  | d :: t => if (logitOf d.2).lt (logitOf c.2) then c :: d :: t else d :: insertLogit c t

/-- short: the first K. -/
def shortList (k : Nat) (l : List (Nat × BitVec 32)) : List (Nat × BitVec 32) := (l.foldl (fun acc c => insertLogit c acc) []).take k

/-- The running sums of R287 up to the one that reaches `thr`. -/
def cumulate (temp mx : BitVec 32) (thr : FVal) : FVal → List (Nat × BitVec 32) → List (Nat × FVal)
  | _, [] => []
  | cum, c :: cs =>
    let n := round32 .rne (cum.add .rne (weightOf temp mx c.2))
    if !n.lt thr then [(c.1, n)] else (c.1, n) :: cumulate temp mx thr n cs

/-- The sampled token (R287). -/
def sampleToken (w : Window) (mx : BitVec 32) (sum : FVal) (short : List (Nat × BitVec 32)) (u24 : Nat) : Nat :=
  let tp := logitOf w.topp
  let tp := if tp.isNeg then .zero else if (FVal.fin false 1 0).lt tp then .fin false 1 0 else tp
  let cs := cumulate w.temp mx (round32 .rne (tp.mul sum)) .zero short
  match cs.reverse with
  | [] => 0
  | last :: _ =>
    let u := round32 .rz ((FVal.fin false u24 (-24)).mul last.2)
    match cs.find? fun c => u.lt c.2 with
    | some c => c.1
    | none => last.1

/-- The token a draw word picks from a Complete row that has one (R286, R287). -/
def pickToken (w : Window) (r : Row) (draw : Nat) : Nat :=
  let c := r.chosen
  let u24 := draw / 256 % 2 ^ 24
  match pickMode w.temp with
  | .greedy => match shortList 1 c with | t :: _ => t.1 | [] => 0
  | .uniform => (c.getD (u24 * c.length / 2 ^ 24) (0, 0)).1
  | .sample =>
    let mx := maxLogit c
    sampleToken w mx (sumOf w.temp mx c) (shortList w.k c) u24

/-! ## Result words (R290, R291) -/

/-- Bits [39:32] of the result, in place. DESIGN CHOICE (log 98): GREEDY, UNIFORM and TSUB are 0 in a CLOSED result. -/
def resultFlags (w : Option Window) (r : Row) (closed incomplete : Bool) : Nat :=
  let mode := match w with
    | none => 0
    | some w => bit (isSubnormal32 w.temp) 35
        + (match pickMode w.temp with | .uniform => 2 ^ 34 | .greedy => 2 ^ 33 | .sample => 0)
  let done := r.mode == .complete && !closed && !incomplete
  (if closed then 0 else mode) + bit closed 39 + bit (done && r.nnan != 0) 38 + bit incomplete 37
    + bit (!closed && r.mode == .spoiled) 36 + bit (done && r.cands.isEmpty) 32

/-- EMPTY, SPOIL, INCOMPLETE or CLOSED: no token is picked, and FSHORT writes its flag word alone (R288, R291). -/
def flagsVoid (f : Nat) : Bool := bitsAt f 32 1 == 1 || bitsAt f 36 2 != 0 || bitsAt f 39 1 == 1

/-- TOKEN of FPICK's result (R290): the pick, or 0x3FFFF under any of the flags that the table names, NANSEEN among them
(log 64). -/
def tokenField (f token : Nat) : Nat := if bitsAt f 36 4 != 0 || bitsAt f 32 1 == 1 then 0x3FFFF else token

/-- FSHORT's record as words: the whole, or the flag word alone. DESIGN CHOICE (log 98): a count |c| of 2^18 sets bit 18 of the word
at +0x08. -/
def shortRecord (w : Window) (r : Row) (flags : Nat) : List Nat :=
  let c := r.chosen
  let mx := maxLogit c
  let short := shortList w.k c
  [mx.toNat + fp32.round .rne 0 (sumOf w.temp mx c) * 2 ^ 32, c.length + r.nnan * 2 ^ 32, r.nninf, flags]
    ++ (short.map fun e => e.1 + e.2.toNat * 2 ^ 32) ++ List.replicate (w.k - short.length) 0

/-! ## Decode stream records (R293) -/

/-- A stream record's fields. -/
structure Stream where
  sid : Nat
  clen : Nat
  len : Nat
  rctr : Nat
  rcommit : Nat
  ptab : Nat
  pool : Nat
  cnt : Nat
  ptok : Nat
  npt : Nat
  qring : Nat
  ok : Bool
  /-- The fields that SFORK reads of its child before it writes the others: the tag and the zeros from 0x048 on. -/
  childOk : Bool

/-- Read from the 512 bytes: the tag, the bounds and the zero fields decide `ok`. -/
def streamOf (bs : List Byte) : Stream :=
  let w := fun (o : Nat) => leNat ((bs.drop o).take 8)
  let clen := w 8 / 2 ^ 32
  let len := w 8 % 2 ^ 32
  let tag := w 0 / 2 ^ 32 == 0x5354524D
  let zeros := ((bs.drop 0x48).take (0x100 - 0x48)).all (· == 0)
  { sid := w 0 % 2 ^ 32, clen, len, rctr := w 0x10, rcommit := w 0x18, ptab := w 0x20, pool := w 0x28, cnt := w 0x30
    ptok := w 0x38 % 2 ^ 16, npt := w 0x38 / 2 ^ 16 % 2 ^ 16, qring := w 0x40, childOk := tag && zeros
    ok := tag && clen ≤ len && len ≤ clen + 32 && 1 ≤ w 0x38 % 2 ^ 16 && w 0x38 / 2 ^ 32 == 0 && zeros }

/-- Who a stream operation runs for: the engine of its thread, core, context. -/
structure Actor where
  eng : Eng
  core : Nat
  asid : Nat

def State.actor (s : State) : Actor := ⟨s.myEng, s.myCoreNum, s.asidOf s.agent⟩

/-- A trap: code and TADDR. -/
abbrev Code := Nat × Word

/-- Read a record; it must lie in package HBM (R293). -/
def State.streamAt (s : State) (a : Actor) (va : Word) : Except Code Stream :=
  match s.engineAccess (.engine a.eng) a.core a.asid va 512 true true with
  | .trap c x => .error (c, x)
  | .walk x => .error (walkWait, x)
  | .ok ps =>
    if ps.any (·.home != .hbm) then .error (0x384, va)
    else (s.engineRead a.eng a.core a.asid va 512).map streamOf

/-- One that passes its checks, else 0x384. -/
def State.goodStream (s : State) (a : Actor) (va : Word) : Except Code Stream :=
  match s.streamAt a va with
  | .error e => .error e
  | .ok x => if x.ok then .ok x else .error (0x384, va)

/-- Read a number of bytes, write a number of bytes (in one page), at an address of the actor. -/
def State.actRead (s : State) (a : Actor) (va : Nat) (n : Nat) : Except Code (Nat × State) :=
  (s.engineRead a.eng a.core a.asid (BitVec.ofNat 64 va) n).map fun bs =>
    (leNat bs, s.engineSettled a.eng a.core a.asid (BitVec.ofNat 64 va) n)

def State.actWrite (s : State) (a : Actor) (va n v : Nat) : Except Code State :=
  (s.engineTarget a.eng a.core a.asid (BitVec.ofNat 64 va) n).map fun ps =>
    s.enginePieceAll a.eng.tid (BitVec.ofNat 64 va) ps (leBytes v n)

/-- The steps of an operation in order, each of which may trap. -/
def State.steps (s : State) : List (State → Except Code State) → Except Code State
  | [] => .ok s
  | f :: fs => match f s with
    | .error e => .error e
    | .ok t => t.steps fs

/-- Write a stream's LEN, CLEN, RCTR and RCOMMIT. -/
def State.putStream (s : State) (a : Actor) (va clen len rctr rcommit : Nat) : Except Code State :=
  s.steps [fun s => s.actWrite a (va + 8) 8 (clen * 2 ^ 32 + len), fun s => s.actWrite a (va + 0x10) 8 (rctr % 2 ^ 64),
    fun s => s.actWrite a (va + 0x18) 8 rcommit]

/-- R294: append a token, or 0x386. -/
def State.appendToken (s : State) (a : Actor) (va : Word) (x : Stream) (t : Nat) : Except Code State :=
  if x.len = x.clen + 32 then .error (0x386, va)
  else
    let v := va.toNat
    s.steps [fun s => s.actWrite a (v + 0x100 + 4 * (x.len % 64)) 4 t,
      fun s => s.putStream a v x.clen (x.len + 1) (x.rctr + 1) x.rcommit]

/-! ## FSHORT and FPICK (R288 to R292) -/

/-- The window and row checks: 0x382, 0x383. -/
def State.rowCheck (s : State) (w : Nat) (row : Word) (k : Window → Out) : Out :=
  match (s.winSlot w).win with
  | none => s.trap 0x382 (windowWord w)
  | some x =>
    if x.owner != s.asidOf s.agent then s.trap 0x382 (windowWord w)
    else if x.rows < row.toNat then s.trap 0x383 row
    else k x

/-- Queue an operation: the result register's full bit clears in every thread that will receive it. -/
def State.queueFilter (s : State) (w : Nat) (op : FilterOp) (reg : Nat) : Out :=
  let s := s.onWin w fun x => { x with ops := x.ops ++ [({ op with num := x.nextOp }, false)], nextOp := x.nextOp + 1 }
  .next (s.onUs fun x => (x.issued reg).complete)

/-- FSHORT: its destination is checked at issue like a store of the whole record. -/
def execFshort (gd : Guard) (reset nb : Bool) (a : Fin 32) (w : Fin 256) (b c : Src) (s : State) : Out :=
  s.guarded gd fun s => s.operands [b, c] [] fun vs s =>
    let dst := arg vs 1
    s.rowCheck w.val (arg vs 0) fun x =>
      if dst.toNat % 8 != 0 then s.trap 0x141 dst
      else s.withAccess dst (32 + 8 * x.k) false true fun ps =>
        if ps.any (·.home == .format) then s.trap 0x102 dst
        else s.writable ps fun s =>
          s.queueFilter w.val { pick := false, stream := false, full := s.me.isFull a.val, reset, nb
                                row := (arg vs 0).toNat, addr := dst, tid := s.me.tid, core := s.myCoreNum
                                reg := a.val, asid := s.asidOf s.agent, sup := s.me.sup.sinh } a.val

/-- A pick can have its token at its issue: the row is Complete with a token and nothing is pending on it. -/
def State.readyPick (s : State) (w : Nat) (row : Nat) (x : Window) : Bool :=
  let r := Table.val ({} : Row) row x.row
  r.mode == .complete && !r.cands.isEmpty && !((s.winSlot w).ops.any fun o => !o.2 && o.1.row == row)

/-- A stream record as an instruction addresses it: alignment, windows, translation and permission, replicable pages (classes 3 to
5, which R271 of spec/17 puts before the vote). -/
def State.recordAccess (s : State) (va : Word) (k : List Piece → Out) : Out :=
  if va.toNat % 64 != 0 then s.trap 0x141 va
  else s.withAccess va 512 true true fun ps =>
    if ps.any (·.home == .format) then s.trap 0x102 va else s.writable ps fun _ => k ps

/-- The TADDR of an operation's fault: R96 of spec/05 names none for 0x106 (log 35). -/
def Code.taddr (e : Code) : Word := if e.1 = 0x106 then 0 else e.2

/-- What an operation came to at its instruction: a park on a page walk, or a precise trap. -/
def State.fails (s : State) (e : Code) : Out := if e.1 = walkWait then s.await e.2 (·.parkWalk e.2) else s.trap e.1 e.taddr

/-- The stream of a pick at its issue: 0x384, and 0x386 where the pick can have its token at once; what the record holds when a
later token comes is checked then (log 24). -/
def State.pickCheck (s : State) (w row : Nat) (x : Window) (va : Word) : Except Code Unit :=
  match s.goodStream s.actor va with
  | .error e => .error e
  | .ok st => if s.readyPick w row x && st.len == st.clen + 32 then .error (0x386, va) else .ok ()

/-- FPICK: after the vote, the checks of class 14 in the replica that performs it, then the operation is queued. -/
def State.pickIssue (s : State) (reset nb stream : Bool) (a w : Nat) (vs : List Word) : Out :=
  let row := arg vs 0
  s.votePoint .operands true (onceRecord (windowWord w) 0xE6 vs) fun s => s.rowCheck w row fun x =>
    match (if stream then s.pickCheck w row.toNat x (arg vs 1) else .ok ()) with
    | .error e => s.fails e
    | .ok _ => s.queueFilter w { pick := true, stream, full := s.me.isFull a, reset, nb, row := row.toNat, addr := arg vs 1
                                 tid := s.me.tid, core := s.myCoreNum, reg := a, asid := s.asidOf s.agent
                                 others := s.mirrors, sup := s.me.sup.sinh } a

/-- FPICK: with C = g0 it has no stream. -/
def execFpick (gd : Guard) (reset nb : Bool) (a : Fin 32) (w : Fin 256) (b c : Src) (s : State) : Out :=
  s.guarded gd fun s => s.operands [b, c] [] fun vs s =>
    if c.op = .g 0 then s.pickIssue reset nb false a.val w.val vs
    else s.recordAccess (arg vs 1) fun _ => s.pickIssue reset nb true a.val w.val vs

def State.deliverAll (s : State) (tids : List Nat) (reg : Nat) (v : Word) : State :=
  tids.foldl (fun s t => s.deliver t reg v) s

/-- RESET: the row is Empty again. -/
def Window.resetRow (w : Window) (row : Nat) : Window := { w with row := Table.put row {} w.row }

def State.resetIf (s : State) (w : Nat) (op : FilterOp) : State :=
  if op.reset then s.onWin w fun x => { x with win := x.win.map fun y => y.resetRow op.row } else s

/-- The base die as it works for the operation's thread on a window. -/
def FilterOp.eng (op : FilterOp) (w : Nat) : Eng := ⟨op.tid, .window w op.num, op.sup⟩

/-- The draw of a pick (R288): output word 0, by the stream's counter or the thread's. -/
def streamDraw (x : Slot) (st : Stream) : Nat :=
  philox x.id.jobseed (BitVec.ofNat 64 st.rctr) st.sid (streamWord 3 0) % 2 ^ 32

def slotDraw (x : Slot) : Nat :=
  philox x.id.jobseed x.rngCtr x.id.lcn.toNat (streamWord 3 x.id.logical) % 2 ^ 32

/-- A pick that has its token: the draw, the stream's update or the counter's, the result. -/
def State.pickDone (s : State) (n : Nat) (w : Window) (r : Row) (op : FilterOp) (flags : Nat) : Except Code State :=
  let x := (s.findTid op.tid).getD {}
  let tids := op.receivers
  let give := fun (s : State) (t : Nat) => s.deliverAll tids op.reg (BitVec.ofNat 64 (flags + tokenField flags t))
  if !op.stream then
    .ok (give (tids.foldl (fun s t => s.onTid t fun y => { y with rngCtr := y.rngCtr + 1 }) s) (pickToken w r (slotDraw x)))
  else
    let a : Actor := ⟨op.eng n, op.core, w.owner⟩
    match s.goodStream a op.addr with
    | .error e => .error e
    | .ok st =>
      let t := pickToken w r (streamDraw x st)
      (s.appendToken a op.addr st t).map fun u => give u t

/-- An operation whose thread's context is away from its tile waits for it where its address names a memory of the tile, the core
or the die (log 65). -/
def State.filterAway (s : State) (owner : Nat) (op : FilterOp) : Bool :=
  !op.pick && 0xFFFFFC ≤ op.addr.toNat / 2 ^ 40 && (s.tile (coreTile op.core)).owner != some owner

/-- FSHORT's end: its record is written, under a void flag its flag word alone, then its result. -/
def State.shortDone (s : State) (n owner : Nat) (op : FilterOp) (flags : Nat) (record : List Nat) (len : Nat) : Except Code State :=
  let void := flagsVoid flags
  if s.filterAway owner op then .error (walkWait, op.addr)
  else
    (if void then s.engineWriteWords (op.eng n) op.core owner (op.addr + 0x18) [flags]
      else s.engineWriteWords (op.eng n) op.core owner op.addr record).map fun t =>
      t.deliver op.tid op.reg (BitVec.ofNat 64 (flags + (if void then 0 else len)))

/-- Perform an operation on an open window's row; RESET comes after its own reading. -/
def State.filterOpen (s : State) (n : Nat) (w : Window) (op : FilterOp) : Except Code State :=
  let r := Table.val ({} : Row) op.row w.row
  let flags := resultFlags (some w) r false (op.nb && r.mode != .complete)
  let t := s.resetIf n op
  if !op.pick then t.shortDone n w.owner op flags (shortRecord w r flags) (shortList w.k r.chosen).length
  else if flagsVoid flags then .ok (t.deliverAll op.receivers op.reg (BitVec.ofNat 64 (flags + 0x3FFFF)))
  else t.pickDone n w r op flags

/-- An operation on a window that was closed: CLOSED; FSHORT writes its flag word. -/
def State.filterClosed (s : State) (n : Nat) (op : FilterOp) : Except Code State :=
  let flags := resultFlags none {} true false
  if op.pick then .ok (s.deliverAll op.receivers op.reg (BitVec.ofNat 64 (flags + 0x3FFFF)))
  else
    s.shortDone n op.asid op flags [] 0

/-- The result register again as it was before the issue. -/
def Slot.unissued (reg : Nat) (full : Bool) (x : Slot) : Slot :=
  { (if full && reg != 0 then { x with full := x.full ||| (1#32 <<< reg) } else x) with eng := x.eng - 1 }

/-- An operation that meets a fault after its issue: the trap comes at the next boundary of each thread that awaits it. A pick
changes nothing (R294, log 24); FSHORT's register takes all ones (log 25). -/
def State.filterFails (s : State) (op : FilterOp) (e : Code) : State :=
  let tids := op.receivers
  let t := tids.foldl (fun s t => s.pendTid t e.1 e.taddr) s
  if op.pick then tids.foldl (fun s t => s.onTid t (Slot.unissued op.reg op.full)) t
  else t.deliverAll tids op.reg (BitVec.allOnes 64)

/-- May the operation at a place of the queue be performed: closed, its row Complete or Spoiled, or NB; and the first of its
row but for an NB one on a row that is not done (R289, R292)? -/
def WinSlot.ready (x : WinSlot) (i : Nat) : Bool :=
  match x.ops[i]? with
  | none => false
  | some (op, closed) => closed || (match x.win with
    | none => true
    | some w =>
      let r := Table.val ({} : Row) op.row w.row
      let done := r.mode == .complete || r.mode == .spoiled
      let first := !((x.ops.take i).any fun o => !o.2 && o.1.row == op.row)
      (done && first) || (op.nb && !done))

/-- FILTER_OPERATION_COMPLETES. -/
def execFilterOperationCompletes (w index : Nat) (s : State) : Out :=
  let x := s.winSlot w
  .next (if !x.ready index then s
    else match x.ops[index]? with
      | none => s
      | some (op, closed) =>
        let t := s.onWin w fun x => { x with ops := x.ops.eraseIdx index }
        let r := match x.win with
          | some win => if closed then t.filterClosed w op else t.filterOpen w win op
          | none => t.filterClosed w op
        match r with
          | .ok u => u.forget (.engine (op.eng w))
          | .error e =>
            if e.1 = walkWait then s.engineMiss (op.eng w) op.core op.asid e.2
            else (t.filterFails op e).forget (.engine (op.eng w)))

/-- A row whose every element has been written is Complete once its mask can be read (R284, R285); what it waits for is a page walk
(R321 of spec/21). Part of every cycle. -/
def State.finishRows (s : State) : State :=
  s.windows.foldl (fun s e => match e.2.win with
    | none => s
    | some w => (w.row.filter fun r => r.2.full w).foldl (fun s r =>
        match s.maskWait (s.known (.window e.1 r.1) w.owner) w r.1 with
        | some va => s.miss (.window e.1 r.1) (tileDie (coreTile w.core)) w.owner (s.ctxRoot w.core w.owner) va
        | none => (s.onWin e.1 fun x => { x with win := x.win.map fun y =>
            { y with row := Table.put r.1 (s.rowDone y r.1 r.2) y.row } }).forget (.window e.1 r.1)) s) s

/-! ## RAND (R293) -/

/-- RAND's 64 bits, or with .F an FP64 number in [0, 1). -/
def randWord (x : Slot) (f : Bool) : Word :=
  let v := philox x.id.jobseed x.rngCtr x.id.lcn.toNat (streamWord 1 x.id.logical) % 2 ^ 64
  if f then BitVec.ofNat 64 (fp64.round .rne 0 (.fin false (v / 2 ^ 11) (-53))) else BitVec.ofNat 64 v

def execRand (gd : Guard) (f : Bool) (a : Fin 32) (s : State) : Out :=
  s.guarded gd fun s =>
    let v := randWord s.me f
    (s.onMe fun x => { x with rngCtr := x.rngCtr + 1 }).doneRegs [(a.val, v)]

/-! ## KVTRUNC (R296) -/

/-- The ring takes a page address at its tail, or 0x388. Head and tail are free-running counts. -/
def State.quarantine (s : State) (a : Actor) (ring page : Nat) : Except Code State :=
  match s.actRead a ring 8 with
  | .error e => .error e
  | .ok (ht, s) => match s.actRead a (ring + 8) 8 with
  | .error e => .error e
  | .ok (cap, s) =>
    let head := ht % 2 ^ 32
    let tail := ht / 2 ^ 32
    if cap ≤ (tail + 2 ^ 32 - head) % 2 ^ 32 then .error (0x388, BitVec.ofNat 64 ring)
    else s.steps [fun s => s.actWrite a (ring + 0x10 + 8 * (tail % cap)) 8 page,
      fun s => s.actWrite a ring 8 ((tail + 1) % 2 ^ 32 * 2 ^ 32 + head)]

/-- Where a pool page's count stands. -/
def Stream.countAt (x : Stream) (page : Nat) : Nat := (x.cnt + 2 * ((page + 2 ^ 64 - x.pool) % 2 ^ 64 / 2 ^ 16)) % 2 ^ 64

/-- Drop page `k`: its count, the quarantine, its entry. An entry 0 names no page. -/
def State.dropPage (s : State) (a : Actor) (x : Stream) (k : Nat) : Except Code (State × Nat) :=
  match s.actRead a (x.ptab + 8 * k) 8 with
  | .error e => .error e
  | .ok (page, s) =>
    if page = 0 then .ok (s, 0)
    else match s.actRead a (x.countAt page) 2 with
      | .error e => .error e
      | .ok (0, _) => .error (0x387, BitVec.ofNat 64 page)
      | .ok (c + 1, s) =>
        (s.steps [fun s => s.actWrite a (x.countAt page) 2 c,
          fun s => if c = 0 then s.quarantine a x.qring page else .ok s,
          fun s => s.actWrite a (x.ptab + 8 * k) 8 0]).map fun t => (t, if c = 0 then 1 else 0)

def State.dropPages (s : State) (a : Actor) (x : Stream) : List Nat → Nat → Except Code (State × Nat)
  | [], n => .ok (s, n)
  | k :: ks, n => match s.dropPage a x k with
    | .error e => .error e
    | .ok (t, m) => t.dropPages a x ks (n + m)

/-- KVTRUNC's effect: the state and the number of pages sent to quarantine. -/
def State.truncate (s : State) (a : Actor) (va : Word) (l : Word) (commit : Bool) : Except Code (State × Nat) :=
  match s.goodStream a va with
  | .error e => .error e
  | .ok x =>
    let n := l.toNat
    if n < x.clen || x.len < n then .error (0x385, l)
    else
      let from_ := ceilDiv n x.ptok
      match s.dropPages a x ((List.range (ceilDiv x.len x.ptok - from_)).map (· + from_)) 0 with
      | .error e => .error e
      | .ok (t, m) =>
        let rctr := (x.rcommit + (n - x.clen)) % 2 ^ 64
        (t.putStream a va.toNat (if commit then n else x.clen) n rctr (if commit then rctr else x.rcommit)).map fun u => (u, m)

/-- A stream instruction performed once: its record's checks, the vote, the request, then its effect; a trap changes nothing. -/
def streamOnce (op : Nat) (a : Fin 32) (ea : Word) (ps : List Piece) (vs : List Word)
    (f : Actor → Word → Word → State → Except Code (State × Nat)) (s : State) : Out :=
  s.votePoint .operands true (onceRecord ea op vs) fun s => s.farThen ea ps fun s =>
    match f s.actor ea (arg vs 1) s with
    | .error e => s.fails e
    | .ok (t, v) => t.doneRegs [(a.val, BitVec.ofNat 64 v)]

def execKvtrunc (gd : Guard) (commit : Bool) (a : Fin 32) (b c : Src) (s : State) : Out :=
  s.guarded gd fun s => s.operands [b, c] [] fun vs s => s.recordAccess (arg vs 0) fun ps =>
    streamOnce 0xE8 a (arg vs 0) ps vs (fun act ea l s => s.truncate act ea l commit) s

/-! ## SFORK (R437) -/

/-- Entries 0 to f - 1 are shared: each count rises, the child takes the entry. -/
def State.sharePages (s : State) (a : Actor) (x y : Stream) : List Nat → Except Code State
  | [] => .ok s
  | k :: ks => match s.actRead a (x.ptab + 8 * k) 8 with
    | .error e => .error e
    | .ok (page, s) =>
      let put := fun (s : State) => s.actWrite a (y.ptab + 8 * k) 8 page
      let r : Except Code State :=
        if page = 0 then put s
        else match s.actRead a (x.countAt page) 2 with
          | .error e => .error e
          | .ok (c, s) =>
            if c = 0xFFFF then .error (0x387, BitVec.ofNat 64 page)
            else s.steps [fun s => s.actWrite a (x.countAt page) 2 (c + 1), put]
      match r with
      | .error e => .error e
      | .ok t => t.sharePages a x y ks

/-- Copy `n` 8-byte words. -/
def State.copyWords (s : State) (a : Actor) (src dst : Nat) : Nat → Except Code State
  | 0 => .ok s
  | n + 1 => match s.actRead a src 8 with
    | .error e => .error e
    | .ok (v, s) => match s.actWrite a dst 8 v with
      | .error e => .error e
      | .ok t => t.copyWords a (src + 8) (dst + 8) n

/-- A partial last page is copied whole into the spare, whose count becomes 1. -/
def State.copySpare (s : State) (a : Actor) (x y : Stream) (f : Nat) : Except Code State :=
  match s.actRead a (x.ptab + 8 * f) 8 with
  | .error e => .error e
  | .ok (page, s) => match s.actRead a (y.ptab + 8 * f) 8 with
  | .error e => .error e
  | .ok (spare, s) => match s.actRead a (x.countAt spare) 2 with
    | .error e => .error e
    | .ok (c, s) =>
      if c != 0 then .error (0x387, BitVec.ofNat 64 spare)
      else s.steps [fun s => s.copyWords a page spare 8192, fun s => s.actWrite a (x.countAt spare) 2 1]

/-- Clear child entries. -/
def State.clearEntries (s : State) (a : Actor) (ptab : Nat) : List Nat → Except Code State
  | [] => .ok s
  | k :: ks => match s.actWrite a (ptab + 8 * k) 8 0 with
    | .error e => .error e
    | .ok t => t.clearEntries a ptab ks

/-- The child's record takes the parent's pool, counts, sizes, ring and tokens, and its committed lengths and counters. -/
def State.childRecord (s : State) (a : Actor) (parent child : Nat) (x : Stream) : Except Code State :=
  s.steps [
    fun s => s.copyWords a (parent + 0x28) (child + 0x28) 4,
    fun s => s.copyWords a (parent + 0x100) (child + 0x100) 32,
    fun s => s.putStream a child x.clen x.clen x.rcommit x.rcommit]

def State.fork (s : State) (a : Actor) (va child : Word) : Except Code (State × Nat) :=
  match s.goodStream a va, s.streamAt a child with
  | .error e, _ => .error e
  | _, .error e => .error e
  | .ok x, .ok y =>
    if !y.childOk then .error (0x384, child)
    else
      let f := x.clen / x.ptok
      let partial_ := x.clen % x.ptok != 0
      let keep := if partial_ then f + 1 else f
      (s.steps [fun s => s.sharePages a x y (List.range f),
        fun s => if partial_ then s.copySpare a x y f else .ok s,
        fun s => s.clearEntries a y.ptab ((List.range (x.npt - keep)).map (· + keep)),
        fun s => s.childRecord a va.toNat child.toNat x]).map fun t => (t, x.clen)

def execSfork (gd : Guard) (a : Fin 32) (b c : Src) (s : State) : Out :=
  s.guarded gd fun s => s.operands [b, c] [] fun vs s =>
    s.recordAccess (arg vs 0) fun ps => s.recordAccess (arg vs 1) fun qs =>
      streamOnce 0xE9 a (arg vs 0) (ps ++ qs) vs (fun act ea child s => s.fork act ea child) s

end Sys2Proof.Machine
end

