-- ==== Sys2Proof/Machine/Pages.lean ====
section
/-! DEFINITION. Page walks, shootdown and quiescence (R317 to R328 of spec/21). -/

namespace Sys2Proof.Machine

open Sys2Proof

/-! ## Walks (R321) -/

/-- The walks of a die that are in progress: the 64 that came first. -/
def State.walking (s : State) (die : Nat) : List Walk := (s.walks.filter (·.die == die)).take 64

/-- The live slots parked on a walk, with the address each waits for. -/
def State.walkWaiters (s : State) (w : Walk) : List (Nat × Word) :=
  s.slots.filterMap fun e => match e.2.status, e.2.park.wait with
    | .parked, some (.walk d a p va) => if d = w.die ∧ a = w.asid ∧ p = w.vpage then some (e.1, va) else none
    | _, _ => none

/-- Slot `n` takes a precise trap at its instruction, and every mirror of a once-only operation with it. -/
def State.trapAt (s : State) (n code : Nat) (va : Word) : State :=
  match ({ s with agent := n } : State).trap code va with
  | .next t => { t with agent := s.agent }
  | _ => s

/-- The fault of a walk reaches the units that it served, and the instructions that take it in their own way. -/
def State.walkFaults (s : State) (w : Walk) (code : Nat) : State :=
  { s with
    faulted := s.faulted ++ w.askers.map fun i => ⟨i, w.asid, w.vpage, code⟩
    slots := s.slots.map fun e => (e.1,
      if e.2.status == .parked && e.2.park.wait == some (.walker w.die w.asid w.vpage) then
        { e.2 with park := { e.2.park with missed := e.2.park.missed ++ [(w.vpage, code)] } }
      else e.2) }

/-- PAGE_WALK_COMPLETES: a leaf is installed and every miss that joined goes on; a fault is taken by each of them, and
nothing is installed. -/
def execPageWalkCompletes (die asid vpage : Nat) (s : State) : Out :=
  .next (match (s.walking die).find? fun w => w.asid == asid && w.vpage == vpage with
    | none => s
    | some w =>
      let t : State := { s with walks := s.walks.erase w }
      match s.walkRoot w.root asid (vpage * 65536) with
      | .ok l => { t with tlb := l :: t.tlb }
      | .error c => (s.walkWaiters w).foldl (fun t e => t.trapAt e.1 c e.2) (t.walkFaults w c))

/-! ## PTSYNC (R327) -/

/-- A translation that a PTSYNC removes. -/
def Leaf.synced (l : Leaf) (kind : SyncKind) (b : Word) : Bool :=
  match kind with
  | .page => l.covers (bitsAt b.toNat 0 12) (bitsAt b.toNat 16 41 * 65536)
  | .asid => l.asid == bitsAt b.toNat 0 12
  | .all => true

/-- A loft page filled through such a translation. -/
def LoftPage.synced (p : LoftPage) (kind : SyncKind) (b : Word) : Bool :=
  match p.leaf with | some l => l.synced kind b | none => false

/-- A filter window's region holds a page of a translation that is removed (R283 of spec/18). -/
def Window.holds (w : Window) (l : Leaf) : Bool :=
  let first := w.laddr / 65536 * 65536
  l.asid == w.owner && l.vbase < first + 65536 * w.region.length && first < l.vbase + l.bytes

def Window.synced (w : Window) (kind : SyncKind) (b : Word) (gone : List Leaf) : Bool :=
  let page := bitsAt b.toNat 16 41
  gone.any w.holds || (match kind with
    | .page => w.owner == bitsAt b.toNat 0 12 && w.laddr / 65536 ≤ page && page < w.laddr / 65536 + w.region.length
    | .asid => w.owner == bitsAt b.toNat 0 12
    | .all => true)

/-- A filter window that the shootdown closes. -/
def WinSlot.synced (kind : SyncKind) (b : Word) (gone : List Leaf) (x : WinSlot) : Bool := x.win.any (·.synced kind b gone)

/-- The shootdown: QEPOCH advances; translations, loft pages and filter windows go. -/
def State.sync (s : State) (kind : SyncKind) (b : Word) : State :=
  let gone := s.tlb.filter (·.synced kind b)
  let s := s.forgetRows ((s.windows.filter fun e => e.2.synced kind b gone).map (·.1))
  { s with
    qepoch := s.qepoch + 1
    tlb := s.tlb.filter fun l => !l.synced kind b
    tiles := s.tiles.map fun e => (e.1, { e.2 with loft := e.2.loft.filter fun p => !p.synced kind b })
    windows := s.windows.map fun e => (e.1, if e.2.synced kind b gone then e.2.closed none else e.2) }

/-- PTSYNC: 0x082 at user level. -/
def execPtsync (gd : Guard) (kind : SyncKind) (a : Fin 32) (b : Src) (s : State) : Out :=
  s.guarded gd fun s =>
    if !s.me.sup.sinh then s.trap 0x082 0
    else s.operands [b] [] fun vs s => (s.sync kind (arg vs 0)).doneRegs [(a.val, s.qepoch)]

/-! ## QWAIT (R328) -/

/-- QWAIT: until QDONE reaches the epoch. -/
def execQwait (gd : Guard) (a : Fin 32) (b : Src) (s : State) : Out :=
  s.guarded gd fun s => s.operands [b] [] fun vs s =>
    if arg vs 0 ≤ s.qdone then s.doneRegs [(a.val, s.qdone)] else s.park (.quiet (arg vs 0))

/-- QWAIT.NOW: the epoch it advanced stands in `park.tries`, so that a reissue advances again. -/
def execQwaitNow (gd : Guard) (a : Fin 32) (s : State) : Out :=
  s.guarded gd fun s =>
    let e : Word := if s.me.park.tries = 0 then s.qepoch else BitVec.ofNat 64 s.me.park.tries
    let s := if s.me.park.tries = 0
      then ({ s with qepoch := s.qepoch + 1 } : State).onMe fun x => { x with park := { x.park with tries := e.toNat } }
      else s
    if e ≤ s.qdone then s.doneRegs [(a.val, s.qdone)] else s.park (.quiet e)

end Sys2Proof.Machine
end

