-- ==== Sys2Proof/Machine/Margon.lean ====
section
/-! DEFINITION. Messages by the Margon ports, and what a thread's engines may still lose there (R335 and R339 of spec/22). -/

namespace Sys2Proof.Machine

open Sys2Proof

/-- Send a thread's message to a package by its port. -/
def State.sendMessage (s : State) (tid pkg : Nat) (adr : Word) (m : List Word) : State :=
  match s.portTo pkg with
  | none => s
  | some p => s.post p (.message tid pkg adr m)

end Sys2Proof.Machine
end

