-- ==== Sys2Proof/Machine/Pens.lean ====
section
/-! DEFINITION. Pens and musters (R216 to R232 and R428 to R432 of spec/13). -/

namespace Sys2Proof.Machine

open Sys2Proof

/-! ## Pen addresses (R217) -/

/-- A pen address: package, global core and pen. -/
structure PenAddr where
  pkg : Nat
  core : Nat
  pen : Nat

def penAddrOf (v : Nat) : PenAddr :=
  ⟨bitsAt v 26 6, 8 * (24 * bitsAt v 24 2 + bitsAt v 19 5) + bitsAt v 16 3, bitsAt v 0 5⟩

/-- The address of a pen of a core of this package. -/
def State.penWord (s : State) (core p : Nat) : Word :=
  BitVec.ofNat 64 (s.pkg.toNat * 2 ^ 26 + tileDie (coreTile core) * 2 ^ 24 + coreTile core % 24 * 2 ^ 19
    + core % 8 * 2 ^ 16 + p)

/-- Does a context own a tile, resident or not? -/
def State.ownsTile (s : State) (asid t : Nat) : Bool :=
  (s.tile t).owner == some asid || (match s.ctx asid with | some c => c.record.tiles.getLsbD t | none => false)

/-- The checks of 0x282. -/
def State.badPen (s : State) (v : Word) : Bool :=
  let a := penAddrOf v.toNat
  2 ^ 32 ≤ v.toNat || bitsAt v.toNat 5 11 != 0 || 24 ≤ bitsAt v.toNat 19 5
    || (if a.pkg = s.pkg.toNat then !s.ownsTile (s.asidOf s.agent) (coreTile a.core) else !s.reachable a.pkg)

/-! ## Delivery (R218, R223, R224, R428) -/

/-- The answers to an attempt. -/
inductive PenReply where
  | accepted | fullBlock | fullFault | closed | absent
  deriving DecidableEq, Repr

/-- A core of a tile that context `asid` holds and runs on. -/
def State.present (s : State) (asid core : Nat) : Bool :=
  (s.tile (coreTile core)).owner == some asid
    && (match s.ctx asid with | some c => c.state == .resident | none => true)

def penReplyOf (n : Nat) : PenReply := match n with | 0 => .accepted | 1 => .fullBlock | 2 => .fullFault | 3 => .closed | _ => .absent

def penCode : PenReply → Nat | .accepted => 0 | .fullBlock => 1 | .fullFault => 2 | .closed => 3 | .absent => 4

/-- What the target answers. A pen of another package answers as that package does, which this package leaves open: a free
choice (log 3); a message that no port has taken, or whose port has gone Down, or for a package that is unreachable now, is
answered as for an absent target (R339 of spec/22). -/
def State.penReply (s : State) (a : PenAddr) : PenReply × State :=
  if a.pkg != s.pkg.toNat then
    if s.me.park.dead || !s.reachable a.pkg then (.absent, s)
    else
      let p := s.pick 5
      (penReplyOf p.1, p.2)
  else if !s.present (s.asidOf s.agent) a.core then (.absent, s)
  else
    let x := (s.core a.core).pen a.pen
    (if x.msgs.length < 4 then .accepted else if x.fault then .fullFault else .fullBlock, s)

/-- The message is appended. -/
def State.appendMsg (s : State) (a : PenAddr) (m : List Word) : State :=
  if a.pkg != s.pkg.toNat then s
  else s.onCore a.core fun c => c.setPen a.pen { c.pen a.pen with msgs := (c.pen a.pen).msgs ++ [m] }

/-- A refused sender: parked on the pen, or sent again after 256 cycles doubling up to 16,384; one with a halt request is
halted with nothing delivered (R227). -/
def State.refused (s : State) (w : Wait) : Out :=
  .next (s.onMe fun x =>
    if x.haltReq || x.status == .halted then
      if x.park.voted then { x with status := .halted, haltReq := false, park := { x.park with left := false, wait := some w } }
      else { x.abandon with status := .halted, haltReq := false }
    else { x with status := .parked, park := { x.park with wait := some w, left := false } })

def retryInterval (tries : Nat) : Nat := Nat.min 16384 (256 * 2 ^ Nat.min tries 6)

/-- The answer of an attempt at the sender. -/
def State.psendReply (s : State) (nb : Option Opnd) (adr : Word) (m : List Word) (r : PenReply) : Out :=
  let a := penAddrOf adr.toNat
  let retry := fun (s : State) =>
    let i := retryInterval s.me.park.tries
    (s.onMe fun x => { x with park := { x.park with tries := x.park.tries + 1 } }).refused
      (.penRetry (s.clock + BitVec.ofNat 64 i) i)
  let answer := fun (s : State) (v : Word) => match nb with
    | some c => s.finish c v (r == .accepted)
    | none => s.done
  match r with
  | .accepted => answer (s.appendMsg a m) 1
  | .closed => s.trap 0x283 adr
  | .absent => retry s
  | .fullFault => if nb.isSome then answer s 0 else s.trap 0x281 adr
  | .fullBlock =>
    if nb.isSome then answer s 0
    else if a.pkg != s.pkg.toNat then retry s
    else s.refused (.penRoom a.core a.pen)

/-- The attempt meets its target. -/
def State.psendAnswer (s : State) (nb : Option Opnd) (adr : Word) (m : List Word) : Out :=
  let r := s.penReply (penAddrOf adr.toNat)
  r.2.psendReply nb adr m r.1

/-- A message for another package goes out by a port, which the slot's request then hangs on; without one it does not go. -/
def State.sendRemote (s : State) (n : Nat) (adr : Word) (m : List Word) : State :=
  let pkg := (penAddrOf adr.toNat).pkg
  if pkg = s.pkg.toNat then s
  else
    let ps := (s.portTo pkg).toList
    (s.onSlot n fun x => { x with park := { x.park with
      ports := ps, dead := ps.isEmpty, since := s.clock, behind := ps.any fun p => (s.port p).blocked s.clock 2 } }).sendMessage
      (s.slot n).tid pkg adr m

/-- The attempt leaves: a pen of the own core answers at once, any other when PEN_MESSAGE_ARRIVES comes. A full mailbox
destination is waited for first, so that a cancel finds nothing delivered (R228). -/
def State.psendLeave (s : State) (nb : Option Opnd) (adr : Word) (m : List Word) : Out :=
  let a := penAddrOf adr.toNat
  s.roomFor nb.toList fun s =>
    if a.pkg = s.pkg.toNat && a.core = s.myCoreNum then s.psendAnswer nb adr m
    else ((s.sendRemote s.agent adr m).onMe fun x => { x with park := { x.park with left := true } }).park .penAnswer

/-- A message's four registers, read plainly. -/
def fourRegs (a : Fin 32) : List Src := (List.range 4).map fun i => plain (.g (Fin.ofNat 32 (a.val + i)))

/-- PSEND (R428). -/
def execPsend (gd : Guard) (a : Fin 32) (b : Src) (nb : Option Opnd) (s : State) : Out :=
  s.guarded gd fun s => s.operands (b :: fourRegs a) nb.toList fun vs s =>
    let adr := arg vs 0
    let m := vs.drop 1
    if s.badPen adr && !s.me.park.voted then s.trap 0x282 adr
    else s.votePoint .releaseOnce true (storeRecord adr (bytesOf 32 m)) fun s =>
      s.releaseSys ((penAddrOf adr.toNat).pkg != s.pkg.toNat) fun s => s.psendLeave nb adr m

/-- An attempt that has left is answered: it is outstanding no longer, and a result that waits for its mailbox waits as any other
(R227). -/
def Slot.attemptDone (x : Slot) : Slot := { x with park := { x.park with left := false } }

/-- An attempt can be answered: its message has gone out, or can go no more (R335, R339 of spec/22). -/
def Slot.attempted (x : Slot) : Bool := (x.status == .parked || x.status == .halted) && (!x.park.behind || x.park.dead)

/-- PEN_MESSAGE_ARRIVES: the attempt of a slot's PSEND reaches its pen and is answered. -/
def execPenMessageArrives (slot : Nat) (s : State) : Out :=
  let x := s.slot slot
  match x.park.wait, x.park.insn, x.park.vals with
  | some .penAnswer, some (.unlisted (.psend _ _ _ nb)), some vs =>
    if x.attempted then (({ s with agent := slot } : State).onMe Slot.attemptDone).psendAnswer nb (arg vs 0) (vs.drop 1)
    else .next s
  | _, _, _ => .next s

/-- A refused send's interval has expired, and no cancel is to be taken, which abandons it first (R228, R30 of spec/02). -/
def State.resends (s : State) (x : Slot) : Bool :=
  match x.status, x.park.wait with
  | .parked, some (.penRetry t _) => decide (t ≤ s.clock) && (!x.cpend || x.inHandler)
  | _, _ => false

/-- PSEND_RETRY: a refused send is sent again (R223). -/
def execPsendRetry (slot : Nat) (s : State) : Out :=
  let x := s.slot slot
  match x.status, x.park.wait with
  | .parked, some (.penRetry _ _) =>
    if s.resends x then
      let vs := x.park.vals.getD []
      .next ((s.sendRemote slot (arg vs 0) (vs.drop 1)).onSlot slot fun x => { x with park := { x.park with wait := some .penAnswer, left := true } })
    else .next s
  | _, _ => .next s

/-! ## Musters (R219 to R222) -/

def popcount (n : Nat) (v : Nat) : Nat := ((List.range n).filter fun i => v / 2 ^ i % 2 = 1).length

/-- PDEF (R429). In S7 the words LCN, JOBSEED, LAUNCHID, CLASS and KARG are 0 (R440 of spec/10). -/
def execPdef (gd : Guard) (m : Fin 16) (prio : Fin 16) (b : Src) (target : BitVec 24) (s : State) : Out :=
  s.guarded gd fun s => s.notReplica fun s => s.operands [b] [] fun vs s =>
    let mask : BitVec 32 := (arg vs 0).setWidth 32
    if 4 < popcount 32 mask.toNat then s.trap 0x284 (mask.setWidth 64)
    else
      let id := if slotIx s.agent = 7 then {} else s.me.id
      let e : Muster := { mask, prio, pc := relTarget s.me.pc target, jobseed := id.jobseed, lcn := id.lcn
                          launch := id.launch, cls := id.cls, karg := id.karg, fcnt := 0, graph := id.graph, phase := id.phase
                          job := id.job }
      (s.onMyCore fun c => { c with musters := Table.put m.val e c.musters }).done

def Core.muster (c : Core) (i : Nat) : Muster := Table.val {} i c.musters

/-- Every pen of the mask holds a message. -/
def Core.satisfiable (c : Core) (i : Nat) : Bool :=
  let m := c.muster i
  m.mask != 0 && (List.range 32).all fun p => !m.mask.getLsbD p || !(c.pen p).msgs.isEmpty

/-- The muster that fires (R220): the highest PRIO, then the first from RR on. -/
def Core.winner (c : Core) : Option Nat :=
  let sat := ((List.range 16).map fun k => (c.rr + k) % 16).filter c.satisfiable
  minBy (fun i => 15 - (c.muster i).prio.val) sat

/-- The handler's registers (R222): four per pen in ascending pen order, then g14 and g15. -/
def handlerRegs (x : Slot) (i : Nat) (mask : BitVec 32) (ms : List (List Word)) : Slot :=
  let y := (ms.flatten.zipIdx).foldl (fun x w => x.setReg (16 + w.2) w.1) x
  (y.setReg 14 (mask.setWidth 64)).setReg 15 (BitVec.ofNat 64 i)

/-- MUSTER_ARBITRATION: in a free S6 turn one satisfiable muster fires (R220, R221). -/
def execMusterArbitration (core : Nat) (s : State) : Out :=
  let n := 8 * core + 6
  let c := s.core core
  let live := match (s.tile (coreTile core)).owner with | some a => s.present a core | none => false
  if (s.slot n).status != .free || !live then .next s
  else match c.winner with
    | none => .next s
    | some i =>
      let m := c.muster i
      let pens := (List.range 32).filter m.mask.getLsbD
      let ms := pens.map fun p => (c.pen p).msgs.headD []
      let ctr : Word := m.fcnt.setWidth 64 <<< 32
      let id : Ident :=
        { lcn := m.lcn, jobseed := m.jobseed, launch := m.launch, cls := m.cls, karg := m.karg, logical := 6
          graph := m.graph, phase := m.phase, job := m.job }
      let x := handlerRegs ((s.slot n).start m.pc id s.nextTid) i m.mask ms
      let s := s.setSlot n { x with srCtr := ctr, rngCtr := ctr }
      let s := s.onCore core fun c =>
        let c := pens.foldl (fun c p => c.setPen p { c.pen p with msgs := (c.pen p).msgs.tail }) c
        { c with musters := Table.put i { m with fcnt := m.fcnt + 1 } c.musters, rr := (i + 1) % 16 }
      .next { s with nextTid := s.nextTid + 1 }

/-! ## PEN, PCFG, PPEEK (R430 to R432) -/

/-- PEN: a slot that wakes to an empty pen parks again. -/
def execPen (gd : Guard) (nb : Bool) (p : Fin 32) (a : Fin 32) (b : Opnd) (s : State) : Out :=
  s.guarded gd fun s => s.notReplica fun s => s.operands [] [b] fun _ s =>
    match (s.myCore.pen p.val).msgs with
    | [] => if nb then s.finish b 0 else s.park (.pen p)
    | m :: ms => s.roomFor [b] fun s =>
      let s := s.onMyCore fun c => c.setPen p.val { c.pen p.val with msgs := ms }
      (s.onMe fun x => m.zipIdx.foldl (fun x w => x.setReg (a.val + w.2) w.1) x).finish b 1

/-- PCFG.BLOCK and PCFG.FAULT. -/
def execPcfgMode (gd : Guard) (fault ext : Bool) (p : Fin 32) (s : State) : Out :=
  s.guarded gd fun s => s.notReplica fun s =>
    (s.onMyCore fun c => c.setPen p.val { c.pen p.val with fault := fault, ext := ext }).done

/-- PCFG.DRAIN. -/
def execPcfgDrain (gd : Guard) (p : Fin 32) (a : Opnd) (s : State) : Out :=
  s.guarded gd fun s => s.notReplica fun s => s.operands [] [a] fun _ s => s.roomFor [a] fun s =>
    let n := (s.myCore.pen p.val).msgs.length
    (s.onMyCore fun c => c.setPen p.val { c.pen p.val with msgs := [] }).finish a (BitVec.ofNat 64 n)

/-- PPEEK's values (R432). -/
def State.peek (s : State) (f p : Nat) : Word :=
  let x := s.myCore.pen p
  match f with
  | 0 => BitVec.ofNat 64 (x.msgs.length + bit x.fault 6 + bit x.ext 7)
  | 5 => s.penWord s.myCoreNum p
  | _ => (x.msgs.headD []).getD (f - 1) 0

def execPpeek (gd : Guard) (f : Fin 6) (p : Fin 32) (a : Opnd) (s : State) : Out :=
  s.guarded gd fun s => s.operands [] [a] fun _ s => s.finish a (s.peek f.val p.val)

end Sys2Proof.Machine
end

