-- ==== Sys2Proof/Machine/Contexts.lean ====
section
/-! DEFINITION. Contexts: halts, saved images, swaps, slices, creation of their spaces, and teardown (R297 to R307 of
spec/19). A context's image stands in State, not in the bytes of its save area (log 26). -/

namespace Sys2Proof.Machine

open Sys2Proof

/-! ## Tiles of a context (R297, R303, R305) -/

/-- The tiles a record names, ascending. -/
def CtxRec.owned (r : CtxRec) : List Nat := (List.range Config.tiles).filter fun t => r.tiles.getLsbD t

def CtxRec.shares (r q : CtxRec) : Bool := r.tiles &&& q.tiles != 0

/-- A flat address lies in the TCMs or the paddock of a tile. -/
def inTile (t a : Nat) : Bool :=
  (Config.tcmBase (8 * t) ≤ a && a < Config.tcmBase (8 * t + 8))
    || (Config.paddockBase t ≤ a && a < Config.paddockBase (t + 1))

/-- What a tile holds of a context (R305). -/
def State.imageOf (s : State) (t : Nat) : Image :=
  { slots := s.slots.filter fun e => slotTile e.1 == t
    cores := s.cores.filter fun e => coreTile e.1 == t
    tile := s.tile t
    mem := s.mem.filter fun c => inTile t c.1
    feEmpty := s.feEmpty.filter fun w => inTile t (8 * w) }

/-- Everything on a tile is cleared (R303): memories zero, full/empty bits full, formats and tables reset, slots Free. -/
def State.clearTile (s : State) (t : Nat) : State :=
  { s with
    slots := s.slots.filter fun e => slotTile e.1 != t
    cores := s.cores.filter fun e => coreTile e.1 != t
    tiles := Table.put t {} s.tiles
    mem := s.mem.filter fun c => !inTile t c.1
    feEmpty := s.feEmpty.filter fun w => !inTile t (8 * w) }

/-! ## Halting (R38 of spec/02, R194 of spec/11, R210 of spec/12) -/

/-- A lane stops between symbols; a parked one abandons its fill. -/
def Lane.halted (l : Lane) : Lane :=
  { l with mode := match l.mode with | .running | .parked _ => .suspended | m => m }

def Core.suspendLanes (c : Core) : Core := { c with lanes := c.lanes.map fun l => (l.1, l.2.halted) }

def Lane.restored (l : Lane) : Lane := { l with mode := match l.mode with | .suspended => .running | m => m }

def Space.halt (x : Space) : Space := if x.mode = .halted then x else { x with mode := .halted, wasSuspended := x.mode == .suspended }

def Space.restore (x : Space) : Space :=
  { x with mode := if x.mode != .halted then x.mode else if x.wasSuspended then .suspended else .busy }

def Ctx.onSpaces (c : Ctx) (f : Space → Space) : Ctx := { c with spaces := c.spaces.map fun e => (e.1, e.2.map f) }

/-- The numbers of the slots of a tile. -/
def tileSlots (t : Nat) : List Nat := (List.range 64).map (· + 64 * t)

/-- The engines of a context abandon their accesses that wait for page walks, and make them anew when they go on (DEDUCED, log 12: as a
halted slot does, R321 of spec/21). -/
def State.dropAsks (s : State) (a : Nat) : State :=
  let own := fun (i : Asker) => match i with
    | .engine _ | .copy _ _ _ _ | .loft _ _ => true
    | .unit _ _ _ _ | .window _ _ => false
  { s with walks := s.walks.map fun w => if w.asid == a then { w with askers := w.askers.filter (!own ·) } else w
           faulted := s.faulted.filter fun f => !(f.asid == a && own f.who) }

/-- A halt takes place (R307): every slot of the context's tiles halts at its boundary, every lane at a symbol boundary (R194 of
spec/11), and its diagram spaces between two operations (R207, R210 of spec/12). -/
def State.haltCtx (s : State) (a : Nat) : State :=
  match s.ctx a with
  | none => s
  | some c =>
    let s := (s.dropAsks a).onCtx a fun c => { c.onSpaces Space.halt with state := .halting }
    let s := s.haltSlots (c.record.owned.flatMap tileSlots)
    { s with cores := s.cores.map fun e =>
        (e.1, if c.record.tiles.getLsbD (coreTile e.1) then e.2.suspendLanes else e.2) }

/-- Every slot of the context has halted, and no matrix command runs (R38 of spec/02, R145 of spec/09). -/
def State.allHalted (s : State) (c : Ctx) : Bool :=
  c.record.owned.all fun t =>
    (tileSlots t).all (fun n => (s.slot n).status == .free || (s.slot n).status == .halted)
      && (s.crook t).queue.isEmpty

/-- Move a tile's contents to the context's image. -/
def State.saveTile (s : State) (a t : Nat) : State :=
  let i := s.imageOf t
  let i := { i with cores := i.cores.map fun e => (e.1, e.2.suspendLanes) }
  let s := s.onCtx a fun c => { c with images := Table.put t i c.images }
  (s.clearTile t).onTile t fun x => { x with lastOwner := some a }

/-- The lofts of some tiles await no walk any more. -/
def State.forgetLofts (s : State) (ts : List Nat) : State :=
  s.forgetAll fun i => match i with
    | .loft t _ => ts.contains t
    | .engine _ | .copy _ _ _ _ | .unit _ _ _ _ | .window _ _ => false

/-- A pinned loft page is filled again (R191 of spec/11); one whose fill faults is no longer pinned. -/
def State.refill (s : State) (t : Nat) (p : LoftPage) : State :=
  match s.fillPage (.loft t p.tag) t p.tag with
  | .error _ => s
  | .ok s => s.onTile t fun x => { x with
      loft := x.loft.map fun q => if q.tag = p.tag then { q with pinned := true } else q }

/-- The pinned pages of a context's images, by tile and tag, whose fill waits for a page walk (R321 of spec/21), so that no lane may
resume yet. -/
def State.refillWaits (s : State) (c : Ctx) : List (Nat × Nat) :=
  c.images.flatMap fun i => (i.2.tile.loft.filter fun p => p.pinned && !((s.tile i.1).loft.any (·.tag == p.tag))
    && (match s.fillPage (.loft i.1 p.tag) i.1 p.tag with | .error e => e == walkWait | .ok _ => false)).map fun p => (i.1, p.tag)

/-- A reservation in an image still stands only if its group still holds it. -/
def State.stillReserved (s : State) (t : Nat) (g : Nat) : Bool :=
  match s.group g with
  | some x => (match x.reserve with | some r => r.1 == t | none => false)
  | none => false

/-- Give a tile its image back (R305): slots restored, lanes going on, the loft empty. -/
def State.restoreTile (s : State) (a t : Nat) (i : Image) : State :=
  let s : State := { s with
    slots := i.slots.foldl (fun l e => Table.put e.1 e.2.restored l) s.slots
    cores := i.cores.foldl (fun l e => Table.put e.1
      { e.2 with lanes := e.2.lanes.map fun l => (l.1, l.2.restored) } l) s.cores
    mem := i.mem.foldl (fun m c => memSet m c.1 c.2) s.mem
    feEmpty := i.feEmpty.foldl (fun l w => setInsert w l) s.feEmpty }
  s.onTile t fun _ => { i.tile with
    owner := some a, lastOwner := some a, loft := []
    reserved := i.tile.reserved.filter (s.stillReserved t) }

/-- Every pinned page of a context's images is filled again once all its tiles stand (R191 of spec/11). -/
def State.refillAll (s : State) (c : Ctx) : State :=
  c.images.foldl (fun s i => (i.2.tile.loft.filter (·.pinned)).foldl (fun s p => s.refill i.1 p) s) s

/-- A tile is assigned to a context for the first time (R154 of spec/10, R303, R304): it is cleared unless the context was
its last occupant, its slots take the record's words, and S7 of each core starts. -/
def State.assignTile (s : State) (a : Nat) (r : CtxRec) (t : Nat) : State :=
  let s := if (s.tile t).lastOwner = some a then s else s.clearTile t
  let s := s.onTile t fun x => { x with owner := some a, lastOwner := some a }
  let s := (tileSlots t).foldl (fun s n => s.setSlot n
    { sup := { deleg := r.deleg ||| 4, ptroot := r.ptroot, asid := BitVec.ofNat 12 a }
      base := ⟨r.deleg ||| 4, r.ptroot, BitVec.ofNat 12 a⟩ }) s
  ((List.range 8).map (· + 8 * t)).foldl (fun s c => s.onCore c fun x => { x with restart := some s.clock }) s

/-! ## The tile group of time-sliced contexts (R300, R301) -/

/-- The time-sliced contexts joined to a set of tiles through tiles that they share, ascending. -/
def tileGroup (cs : List (Nat × Ctx)) : Nat → BitVec 96 → List (Nat × Ctx)
  | 0, ts => cs.filter fun e => e.2.record.slice != 0 && e.2.record.tiles &&& ts != 0
  | n + 1, ts =>
    let near := cs.filter fun e => e.2.record.slice != 0 && e.2.record.tiles &&& ts != 0
    tileGroup cs n (near.foldl (fun t e => t ||| e.2.record.tiles) ts)

def State.groupOf (s : State) (c : Ctx) : List (Nat × Ctx) :=
  tileGroup s.liveCtxs s.liveCtxs.length c.record.tiles

/-- It holds the tile group, or is about to. -/
def Ctx.active (c : Ctx) : Bool :=
  match c.state with
  | .swappingIn | .resident | .halting => true
  | .idle | .swappingOut | .tearingDown => false

/-- A class 0 group of the context is in the given state (R301). -/
def State.hasLive (s : State) (a : Nat) (st : GState) : Bool :=
  s.groups.any fun e => match e.2 with
    | some x => x.asid == a && x.cls == 0 && x.state == st
    | none => false

/-- The Assign event (R307). -/
def State.assign (s : State) (a : Nat) : State :=
  s.onCtx a fun c => if c.state = .idle then { c with state := .swappingIn } else c

/-- The members of a tile group that can be assigned next, in the order of their turns after context `last`. -/
def turnOrder (last : Nat) (ms : List (Nat × Ctx)) : List Nat :=
  let idle := (ms.filter fun e => e.2.state == .idle).map (·.1)
  idle.filter (last < ·) ++ idle.filter (· ≤ last)

/-- R301: a waiting context with class 0 work goes out of turn when no context that stands on tiles of the tile group runs any. -/
def State.outOfTurn (s : State) (c : Ctx) : List Nat :=
  if (s.groupOf c).any fun e => (e.2.state == .resident || e.2.state == .halting) && s.hasLive e.1 .placed then []
  else ((s.groupOf c).filter fun e => e.2.state == .idle && s.hasLive e.1 .queued).map (·.1)

/-- Assign every Idle context that can be: a spatial one, or of a tile group that nothing holds the next after context `last` in
the order of turns (R300); with none, the first. -/
def State.assignIdle (s : State) (last : Nat := 4096) : State :=
  (s.liveCtxs.filter (last < ·.1) ++ s.liveCtxs.filter (·.1 ≤ last)).foldl (fun s e => match s.ctx e.1 with
    | some c =>
      if c.state != .idle then s
      else if c.record.slice = 0 then (if c.stopped then s else s.assign e.1)
      else if (s.groupOf c).any (·.2.active) then s
      else s.assign e.1
    | none => s) s

/-! ## Teardown (R307) -/

/-- Every unit of the context that is not Complete is cancelled, without handlers. -/
def State.cancelAll (s : State) (a : Nat) (c : Ctx) : State :=
  c.units.foldl (fun s e =>
    if e.2.state == .complete then s else s.journalEnd a e.1 e.2 true) s

/-- Units, windows, spaces, tiles and queues of the context go, with the PTSYNC of its ASID that R324 of spec/21 asks for before its
pages leave quarantine (DEDUCED, log 81). Its id is free once its journal records are final (State.freeTorn). DESIGN CHOICE (log 105): a
GRAPH that waits for a page walk is dropped, and its record stays accepted. -/
def State.teardown (s : State) (a : Nat) : State :=
  match s.ctx a with
  | none => s
  | some c =>
    let s := ((s.onCtx a fun c => { c with state := .tearingDown }).cancelAll a c).sync .asid (BitVec.ofNat 64 a)
    let s := c.record.owned.foldl (fun s t => if (s.tile t).owner = some a || (s.tile t).lastOwner = some a then s.clearTile t else s) s
    let s : State := { s with
      groups := s.groups.filter fun e => match e.2 with | some x => x.asid != a | none => false
      sets := s.sets.filter fun r => r.asid != a
      walks := s.walks.filter fun w => w.asid != a
      faulted := s.faulted.filter fun f => f.asid != a
      -- no thread is left that awaits an operation, and no page that FSHORT could write (log 24)
      windows := s.windows.map fun e =>
        let x := match e.2.win with | some w => if w.owner = a then e.2.closed none else e.2 | none => e.2
        (e.1, { x with ops := x.ops.filter fun o => o.1.asid != a })
      queues := s.queues.map fun e =>
        let q := { e.2 with carry := e.2.carry.filter (·.asid != a) }
        (e.1, if e.1 != 0 && q.state != .unbound && q.asid = a then { q with state := .unbound, cause := 0 } else q) }
    (s.onCtx a fun c => { record := c.record, state := .tearingDown }).payJournals.assignIdle a

/-! ## The events -/

/-- How many cycles of its slice a context has used. -/
def State.sliceGone (s : State) (c : Ctx) : Nat := c.sliceUsed + (s.clock.toNat - c.sliceFrom.toNat)

/-- The slice of a resident time-sliced context has ended, or R301 applies. -/
def State.sliceDue (s : State) (c : Ctx) : Bool :=
  c.state == .resident && c.record.slice != 0
    && (usCycles c.record.slice ≤ s.sliceGone c || !(s.outOfTurn c).isEmpty)

/-- SLICE_EXPIRES: the context is halted; a context displaced by R301 keeps the rest of its slice. -/
def execSliceExpires (asid : Nat) (s : State) : Out :=
  .next (match s.ctx asid with
    | none => s
    | some c =>
      if !s.sliceDue c then s
      else
        let gone := s.sliceGone c
        (s.onCtx asid fun c => { c with
          sliceUsed := if usCycles c.record.slice ≤ gone then 0 else gone }).haltCtx asid)

/-- HALT_COMPLETE: every slot has halted: the image is staged, and the next context of the tile group is swapped in, unless another
member of the group, which a new context may have joined to it, still holds its tiles (R300). -/
def execHaltComplete (asid : Nat) (s : State) : Out :=
  .next (match s.ctx asid with
    | none => s
    | some c =>
      if c.state != .halting || !s.allHalted c then s
      else
        let next := s.outOfTurn c ++ turnOrder asid (s.groupOf c)
        -- a group whose pre-emption was under way is queued with its threads (R255), not saved on the tile
        let s := (s.groups.map (·.1)).foldl (fun s g => s.savePreempted g) s
        let s := c.record.owned.foldl (fun s t => s.saveTile asid t) s
        let s := s.onCtx asid fun c => { c with state := .swappingOut }
        if c.record.slice = 0 || (s.groupOf c).any (·.2.active) then s
        else match next with
          | b :: _ => s.assign b
          | [] => s)

/-- The tiles of a context that is swapped in stand (R154 of spec/10, R305): restored from their images, or assigned for the first
time. -/
def State.landTiles (s : State) (a : Nat) (c : Ctx) : State :=
  c.record.owned.foldl (fun s t =>
    if c.assigned then s.restoreTile a t (Table.val { slots := [], cores := [], tile := {}, mem := [], feEmpty := [] } t c.images)
    else s.assignTile a c.record t) s

/-- The swap-in ends (R307): Resident; on a first assignment S7 starts, otherwise every slot resumes; a marked halt or
teardown follows. -/
def State.swapIn (s : State) (a : Nat) (c : Ctx) : State :=
  let s := s.landTiles a c
  if c.doomed then s.teardown a
  else
    let s := if c.assigned then c.record.owned.foldl (fun s t => s.grant t) (s.refillAll c) else s
    let s := s.onCtx a fun c => { c.onSpaces Space.restore with
      state := .resident, assigned := true, images := [], sliceFrom := s.clock }
    let s := s.forgetLofts c.record.owned
    if c.haltAfter then (s.onCtx a fun c => { c with haltAfter := false }).haltCtx a
    else (List.range Config.dies).foldl (fun s d => s.placePass d) s

/-- SWAP_COMPLETE: the context is Resident, or Idle, or torn down if it is marked; a swap-in waits until its tiles are free, and, unless
a teardown follows, for the pages of its lofts. -/
def execSwapComplete (asid : Nat) (s : State) : Out :=
  .next (match s.ctx asid with
    | none => s
    | some c => match c.state with
      | .swappingIn =>
        if c.record.owned.any fun t => (s.tile t).owner.isSome then s
        else
          let t := s.landTiles asid c
          match if c.doomed then [] else t.refillWaits c with
          | [] => s.swapIn asid c
          | l => { s with walks := (l.foldl (fun t e => t.fillMiss (.loft e.1 e.2) 0 e.1 e.2) t).walks }
      | .swappingOut =>
        if c.doomed then s.teardown asid
        else (s.onCtx asid fun c => { c with state := .idle }).assignIdle asid
      | .idle | .resident | .halting | .tearingDown => s)

/-- The destroy event (R307). -/
def State.destroyCtx (s : State) (a : Nat) (c : Ctx) : State :=
  match c.state with
  | .idle => s.teardown a
  | .swappingIn | .swappingOut | .halting => s.onCtx a fun c => { c with doomed := true }
  | .resident => (s.onCtx a fun c => { c with doomed := true }).haltCtx a
  | .tearingDown => s

/-! ## The supervisor's requests, which have no row of the table (log 62) -/

/-- The supervisor requests a halt (R305, R307): a swap-in is finished first, and a halt or swap under way goes on (R306). A
spatial context then stays Idle until it is assigned again (R300). DESIGN CHOICE (log 104): what a time-sliced one has used of its slice
since it became resident is not counted. -/
def State.haltRequest (s : State) (a : Nat) : State :=
  match s.ctx a with
  | none => s
  | some c =>
    let stop := fun (c : Ctx) => { c with stopped := c.record.slice == 0 }
    match c.state with
    | .resident => (s.onCtx a stop).haltCtx a
    | .swappingIn => s.onCtx a fun c => { stop c with haltAfter := true }
    | .idle | .halting | .swappingOut | .tearingDown => s

/-- The supervisor has a halted context assigned again: the Assign event of R307. -/
def State.restoreRequest (s : State) (a : Nat) : State := (s.onCtx a fun c => { c with stopped := false }).assignIdle

end Sys2Proof.Machine
end

