-- ==== Sys2Proof/Machine/Queues.lean ====
section
/-! DEFINITION. The host queues and the commands they carry (R308 to R315 of spec/20, R297 to R299 of spec/19). A record that
is accepted becomes the next event; the command then checks it and is carried out. -/

namespace Sys2Proof.Machine

open Sys2Proof

/-! ## Pointers (R308, R315) -/

/-- A BAR access while frozen completes with Completer Abort and does nothing (R350 of spec/23). -/
def State.barAccess (s : State) (k : State) : Out := .next (if s.freeze = .off then k else s)

/-- The host writes QWP: a count too far ahead is the error 0x3CC; an Unbound queue, or one in Error, ignores the write. -/
def State.writeQwp (s : State) (queue : Nat) (v : BitVec 32) : State :=
  if 1024 ≤ queue then s
  else s.onQueue queue fun q => match q.state with
    | .unbound | .error => q
    | .active | .waiting =>
      if q.qsize < (v - q.qrp).toNat then { q with qwp := v, state := .error, cause := 0x3CC } else { q with qwp := v }

/-- The host writes EVRP. -/
def State.writeEvrp (s : State) (queue : Nat) (v : BitVec 32) : State :=
  if 1024 ≤ queue then s else s.onQueue queue fun q => { q with evrp := v }

/-- QWP_WRITE. -/
def execQwpWrite (queue : Nat) (v : BitVec 32) (s : State) : Out := s.barAccess (s.writeQwp queue v)

/-- EVRP_WRITE. -/
def execEvrpWrite (queue : Nat) (v : BitVec 32) (s : State) : Out := s.barAccess (s.writeEvrp queue v)

/-! ## Command records (R309) -/

def cmdOp (c : BitVec 512) : Nat := bitsAt c.toNat 0 8
def cmdReserved (c : BitVec 512) : Bool := bitsAt c.toNat 8 56 != 0
def cmdTag (c : BitVec 512) : Nat := bitsAt c.toNat 64 64
def cmdHandle (c : BitVec 512) : Nat := bitsAt c.toNat 128 64
def cmdAddr (c : BitVec 512) : Nat := bitsAt c.toNat 192 64
def cmdArgs (c : BitVec 512) : Nat := bitsAt c.toNat 256 256

/-- DIGEST (R312): the CRC of R268 of spec/17 over the 64 command bytes. -/
def cmdDigest (c : BitVec 512) : Nat := (crcFold 0 (leBytes c.toNat 64)).toNat

/-- The command an OP names, as the event that carries it out. -/
def commandOf (q n : Nat) (c : BitVec 512) : Option Instr :=
  match cmdOp c with
  | 0 => some (.queueNop q n c)
  | 1 => some (.create q n c)
  | 2 => some (.destroy q n c)
  | 3 => some (.bind q n c)
  | 4 => some (.job q n c)
  | 5 => some (.phase q n c)
  | 6 => some (.graph q n c)
  | 7 => some (.close q n c)
  | 8 => some (.queueCancel q n c)
  | _ => none

/-- A fresh journal record, accepted (R312). -/
def journalRecord (q n time : Nat) (c : BitVec 512) : Nat :=
  cmdOp c * 2 ^ 8 + q * 2 ^ 16 + cmdTag c * 2 ^ 192 + n * 2 ^ 320 + cmdDigest c * 2 ^ 384 + time * 2 ^ 448

/-- Advance the journal of a queue. -/
def State.setJhead (s : State) (q : Nat) (n : Word) : State :=
  if q = 0 then { s with q0jhead := n } else s.onCtx (s.queue q).asid fun c => { c with jhead := n }

/-- Accept a record that has been read (R311): journal it, advance both pointers, and let the command come next. -/
def State.accept (s : State) (q : Nat) (c : BitVec 512) : State :=
  let n := (s.jheadOf q).toNat + 1
  let base := s.journalOf q
  let s := s.store (recordAt base n) (leBytes (journalRecord q n s.clock.toNat c) 64)
  let s := (s.setJhead q (BitVec.ofNat 64 n)).onQueue q fun x => { x with qrp := x.qrp + 1 }
  match commandOf q n c with
  | some e => { s with inputs := .event e :: s.inputs }
  | none => s.journalTo base n 4 0x3CA none

/-- A record is to be read: the queue is Active, or Waiting for a journal slot that is free, has one, and carries out no earlier one
(R311). -/
def State.reads (s : State) (queue : Nat) : Bool :=
  let q := s.queue queue
  (q.state == .active || q.state == .waiting) && q.carry.isNone && q.qrp != q.qwp

/-- The journal slot of the queue's next record is busy (R313). -/
def State.slotBusy (s : State) (queue : Nat) : Bool := s.recordBusy (s.journalOf queue) ((s.jheadOf queue).toNat + 1)

/-- The device's read of the ring fails (R315): a queue that is to read a record goes to Error with the fault, also where the
journal slot is busy, since the record is read before it (R311). -/
def State.ringFails (s : State) (queue cause : Nat) : State :=
  if s.reads queue then s.onQueue queue fun x => { x with state := .error, cause := cause } else s

/-- Why the ring cannot be read at `a`: an uncorrectable error, or the host's failure (R332 of spec/22). -/
def State.ringFault (s : State) (a : Nat) : Option Nat :=
  if s.hostFails [⟨a, 64, .host, none⟩] then some 0x10C else (s.badIn a 64).map (·.1)

/-- QUEUE_RECORD_ACCEPT: a queue with a record goes to Error where its ring cannot be read, waits while its journal slot is busy
(R313), or takes the record. A Waiting queue that was bound to another context finds its slot free here (R315). -/
def execQueueRecordAccept (queue : Nat) (s : State) : Out :=
  let q := s.queue queue
  let a := Config.hostBase + q.qbase + 64 * (q.qrp.toNat % q.qsize)
  .next (if !s.reads queue then s
    else match s.ringFault a with
      | some e => s.ringFails queue e
      | none =>
        if s.slotBusy queue then s.onQueue queue fun x => { x with state := .waiting }
        else (s.onQueue queue fun x => { x with state := .active }).accept queue (BitVec.ofNat 512 (leNat (memRead s.mem a 64))))

/-! ## The checks and ends of a command -/

/-- A failed check: state failed with its cause, and nothing else (R311). -/
def State.cmdFail (s : State) (q n cause : Nat) : Out := .next (s.journalTo (s.journalOf q) n 4 cause none)

/-- A command without a unit goes straight to completed (R312). -/
def State.cmdDone (s : State) (base n : Nat) (result : Option Nat) : Out := .next (s.journalTo base n 2 0 result)

/-- Record `n` of a bound queue has been accepted and not been carried out (R316): its journal record is in state accepted,
for this queue and command, and names no unit that the command has made. Any other command event is none of the device's, and nothing happens. -/
def State.pending (s : State) (q n : Nat) (c : BitVec 512) : Bool :=
  let r := leNat (memRead s.mem (recordAt (s.journalOf q) n) 64)
  (s.queue q).state != .unbound && bitsAt r 0 42 == cmdOp c * 2 ^ 8 + q * 2 ^ 16 && bitsAt r 256 64 == 0
    && bitsAt r 320 64 == n && bitsAt r 384 64 == cmdDigest c

/-- A command event runs the command it names once. -/
def State.command (s : State) (q n : Nat) (c : BitVec 512) (k : Out) : Out := if s.pending q n c then k else .next s

/-- The checks every command of queue 0 makes: the reserved field and the queue. -/
def State.onQueue0 (s : State) (q n : Nat) (c : BitVec 512) (k : Out) : Out :=
  s.command q n c <| if q != 0 || cmdReserved c then s.cmdFail q n 0x3CA else k

/-- A command of a bound queue, for its context. -/
def State.onBound (s : State) (q n : Nat) (c : BitVec 512) (k : Nat → Ctx → Out) : Out :=
  let a := (s.queue q).asid
  s.command q n c <| match s.ctx a with
  | none => if q = 0 then s.cmdFail q n 0x3CA else .next s
  | some x => if q = 0 || cmdReserved c then s.cmdFail q n 0x3CA else k a x

/-- The unit HANDLE names at a level. DESIGN CHOICE (log 105): a unit whose record was dropped is none, so that PHASE, GRAPH and CLOSE fail
with 0x3CA. -/
def State.cmdUnit (s : State) (a h level : Nat) : Option WorkUnit :=
  match s.unit a h with
  | some u => if u.level = level then some u else none
  | none => none

/-! ## NOP, CREATE, DESTROY, BIND -/

/-- QUEUE_NOP: nothing. -/
def execQueueNop (queue seq : Nat) (cmd : BitVec 512) (s : State) : Out :=
  s.command queue seq cmd (if cmdReserved cmd then s.cmdFail queue seq 0x3CA else s.cmdDone (s.journalOf queue) seq none)

/-- The context record of R297. -/
def ctxRecOf (v : Nat) : CtxRec :=
  { save := bitsAt v 448 64, ddsp := bitsAt v 384 64, drover := BitVec.ofNat 64 (bitsAt v 320 64)
    ptroot := BitVec.ofNat 64 (bitsAt v 256 64), tiles := BitVec.ofNat 96 (bitsAt v 160 96)
    l2ways := BitVec.ofNat 16 (bitsAt v 144 16), placeAge := bitsAt v 128 16, deleg := BitVec.ofNat 16 (bitsAt v 112 16)
    slice := bitsAt v 96 16, classMin := Fin.ofNat 4 (bitsAt v 82 2), dqg := v.testBit 81, rtest := v.testBit 80 }

/-- LCAP of a space descriptor: 0, or 10 to 31. -/
def lcapBad (v : Nat) : Bool := let l := bitsAt v 0 8; l != 0 && (l < 10 || 31 < l)

/-- The space a descriptor makes (R298): only the terminal, NVAR 1, the identity order. DESIGN CHOICE (log 97): FAULT,
which R425 of spec/12 reads, is 0 before the first 0x249. -/
def spaceOf (v : Nat) : Option Space :=
  if bitsAt v 0 8 = 0 then none
  else some { cap := 2 ^ bitsAt v 0 8, nvar := 1, order := [], nodes := [], queue := [], susp := none, mode := .busy
              wasSuspended := false, fault := 0, tbase := bitsAt v 128 64, savea := bitsAt v 192 64 }

/-- Creation fails (R299), for a record `v` and its four space descriptors. -/
def State.createBad (s : State) (a v : Nat) (r : CtxRec) (ds : List Nat) : Bool :=
  bitsAt v 0 80 != 0 || r.tiles == 0 || r.l2ways == 0 || (s.ctx a).isSome
    || ds.any (fun d => bitsAt d 8 120 != 0 || lcapBad d)
    || s.liveCtxs.any fun e => r.shares e.2.record && (r.slice == 0 || e.2.record.slice == 0)

/-- Read supervisor memory: package HBM by its physical address; a fault is its cause. -/
def State.supRead (s : State) (a len : Nat) : Except Nat Nat :=
  if Config.hbmBytes < a + len then .error 0x3CA
  else match s.badIn a len with
    | some e => .error e.1
    | none => .ok (leNat (memRead s.mem a len))

/-- The space descriptors of a record: zeros where DDSP is 0. -/
def State.readSpaces (s : State) (r : CtxRec) : Except Nat (List Nat) :=
  if r.ddsp = 0 then .ok [0, 0, 0, 0]
  else (List.range 4).foldr (fun d l => match s.supRead (r.ddsp + 32 * d) 32, l with
    | .ok v, .ok vs => .ok (v :: vs)
    | .error e, _ => .error e
    | _, .error e => .error e) (.ok [])

/-- CREATE: a context in Idle, which is assigned at once where its tiles allow. -/
def execCreate (queue seq : Nat) (cmd : BitVec 512) (s : State) : Out :=
  s.onQueue0 queue seq cmd
    (if cmdAddr cmd % 64 != 0 then s.cmdFail queue seq 0x3CA
    else match s.supRead (cmdAddr cmd) 64 with
      | .error e => s.cmdFail queue seq e
      | .ok v =>
        let r := ctxRecOf v
        let a := bitsAt v 84 12
        match s.readSpaces r with
        | .error e => s.cmdFail queue seq e
        | .ok ds =>
          if s.createBad a v r ds then s.cmdFail queue seq 0x3CA
          else
            let spaces := (ds.zipIdx.map fun e => (e.2, spaceOf e.1)).filter (·.2.isSome)
            let s := (s.setCtx a (some { record := r, spaces := spaces })).assignIdle
            s.cmdDone (s.journalOf queue) seq (some a))

/-- DESTROY: the destroy event of R307. DESIGN CHOICE (log 105): an ASID that names no live context fails with 0x3CA. -/
def execDestroy (queue seq : Nat) (cmd : BitVec 512) (s : State) : Out :=
  let a := bitsAt (cmdArgs cmd) 0 12
  s.onQueue0 queue seq cmd (match s.ctx a with
    | none => s.cmdFail queue seq 0x3CA
    | some c => (s.destroyCtx a c).cmdDone (s.journalOf queue) seq none)

/-- The arguments of BIND are in range, and every other ARGS bit is zero. -/
def bindBad (x : Nat) : Bool :=
  let qs := bitsAt x 32 5
  let es := bitsAt x 40 5
  bitsAt x 0 10 = 0 || bitsAt x 10 6 != 0 || bitsAt x 28 4 != 0 || bitsAt x 37 3 != 0 || bitsAt x 45 19 != 0
    || bitsAt x 192 64 != 0 || qs < 6 || 16 < qs || es < 6 || 16 < es

/-- What a BIND does to a queue (R315): pointers are kept; a queue that was Unbound has nothing pending until QWP is
written, and one in Error passes over what it had. -/
def HQueue.bound (q : HQueue) (a x : Nat) : HQueue :=
  let q' := { q with asid := a, qbase := bitsAt x 64 64, qsize := 2 ^ bitsAt x 32 5, evbase := bitsAt x 128 64
                     evsize := 2 ^ bitsAt x 40 5 }
  match q.state with
  | .unbound => { q' with state := .active, qwp := q.qrp }
  | .active => q'
  | .waiting => q'
  | .error => { q' with state := .active, cause := 0, qrp := q.qwp }

/-- BIND. -/
def execBind (queue seq : Nat) (cmd : BitVec 512) (s : State) : Out :=
  let x := cmdArgs cmd
  let a := bitsAt x 16 12
  s.onQueue0 queue seq cmd
    (if bindBad x || (s.liveCtx a).isNone then s.cmdFail queue seq 0x3CA
    else (s.onQueue (bitsAt x 0 10) fun q => q.bound a x).cmdDone (s.journalOf queue) seq none)

/-! ## JOB, PHASE, GRAPH, CLOSE, CANCEL (R239 of spec/14) -/

/-- Numbers of a level are used up (R233 of spec/14). DESIGN CHOICE (log 105): a command that needs one then fails with 0x3CA. -/
def Ctx.spent (c : Ctx) (level n : Nat) : Bool := 2 ^ 30 < c.next level + n

/-- Make a unit for a command: its record is journaled with its handle. -/
def State.newUnit (s : State) (a : Nat) (c : Ctx) (base seq : Nat) (u : WorkUnit) : State × Nat :=
  let r := c.addUnit { u with journal := some (base, seq) }
  ((s.setCtx a (some r.1)).journalResult base seq r.2, r.2)

/-- JOB: a job is startable at creation. -/
def execJob (queue seq : Nat) (cmd : BitVec 512) (s : State) : Out :=
  s.onBound queue seq cmd fun a c =>
    let seed := bitsAt (cmdArgs cmd) 0 64
    if cmdArgs cmd != seed || c.spent 3 1 then s.cmdFail queue seq 0x3CA
    else
      let r := s.newUnit a c (s.journalOf queue) seq { level := 3, parent := 0, born := 0, jobseed := BitVec.ofNat 64 seed }
      .next (r.1.work a [.start r.2])

/-- A unit added under a parent that has been cancelled is cancelled (R239); otherwise it may be startable. -/
def State.joinParent (s : State) (a parent h : Nat) : State :=
  match s.unit a parent with
  | some p =>
    if p.state == .cancelling || p.state == .complete then s.cancelUnit a h
    else s.work a ((s.nextKid a parent).map .start)
  | none => s

/-- PHASE: the job's previous last phase is closed. -/
def execPhase (queue seq : Nat) (cmd : BitVec 512) (s : State) : Out :=
  s.onBound queue seq cmd fun a c =>
    let j := cmdHandle cmd
    match s.cmdUnit a j 3 with
    | none => s.cmdFail queue seq 0x3CA
    | some u =>
      if u.closed || c.spent 2 1 then s.cmdFail queue seq 0x3CA
      else
        let r := s.newUnit a c (s.journalOf queue) seq { level := 2, parent := j, born := 0, jobseed := u.jobseed }
        let s := r.1.onUnit a j fun p => { p with kids := p.kids ++ [r.2], total := p.total + 1 }
        let prev := u.kids.getLast?.toList
        let s := prev.foldl (fun s p => s.onUnit a p fun v => { v with closed := true }) s
        .next ((s.work a (prev.map .check)).joinParent a j r.2)

/-- A node record (R236 of spec/14) breaks a rule: KIND, a reserved field, a successor, the body of a conditional. -/
def nodeBad (v i count : Nat) : Bool :=
  let succ := (List.range 4).map fun k => bitsAt v (128 + 16 * k) 16
  3 < bitsAt v 0 4 || bitsAt v 4 10 != 0 || bitsAt v 16 112 != 0 || (bitsAt v 0 4 == 3 && bitsAt v 192 64 != 0)
    || succ.any fun e => e != 0xFFFF && (e ≤ i || count ≤ e)

/-- A node with its launch's kernel. -/
def nodeOfRecord (v : Nat) : GNode :=
  { kind := match bitsAt v 0 4 with | 0 => .launch | 1 => .copy | 2 => .hostEvent | _ => .conditional
    body := BitVec.ofNat 64 (bitsAt v 192 64)
    succ := (List.range 4).map fun k => bitsAt v (128 + 16 * k) 16
    dflt := bitsAt v 14 2, launch := 0, open_ := 0, sat := 0, branch := none, state := .waiting }

/-- The cause of a command whose read of memory fails; one that waits says so. -/
def readCause (cause : Nat) (e : Nat × Word) : Nat × Word := (if e.1 = walkWait then walkWait else cause, e.2)

/-- The kernel of a launch node (R245, R266 of spec/17) and what was read for it; a failure is its cause. -/
def State.nodeKernel (s : State) (u : HostUnit) (c : Ctx) (body : Word) : Except (Nat × Word) (Kernel × List Piece) :=
  match s.unitAccess u body 64 true false with
  | .error e => .error (readCause 0x3C6 e)
  | .ok ps =>
    let dv := leNat (s.readPieces ps)
    match s.unitAccess u (BitVec.ofNat 64 (bitsAt dv 0 64)) 64 true false with
    | .error e => .error (readCause 0x3C6 e)
    | .ok qs => match kernelOf body.toNat dv (leNat (s.readPieces qs)) none with
      | none => .error (0x3C6, body)
      | some k =>
        if k.repl != 0 && c.dies.length < k.repl then .error (0x2C4, body)
        else .ok ({ k with cls := maxCls k.cls c.record.classMin }, ps ++ qs)

/-- The nodes of a graph table in order, checked one by one, each launch with its kernel; the first failure names its cause. -/
def State.graphNodes (s : State) (u : HostUnit) (c : Ctx) (count : Nat) :
    Nat → List Nat → Except (Nat × Word) (List (GNode × Option (Kernel × List Piece)))
  | _, [] => .ok []
  | i, v :: vs =>
    if nodeBad v i count then .error (0x3CA, 0)
    else
      let x := nodeOfRecord v
      let k : Except (Nat × Word) (Option (Kernel × List Piece)) :=
        if x.kind = .launch then (s.nodeKernel u c x.body).map some else .ok none
      match k, s.graphNodes u c count (i + 1) vs with
      | .error e, _ => .error e
      | .ok _, .error e => .error e
      | .ok k, .ok l => .ok ((x, k) :: l)

/-- Read a graph table and check it whole (R310): its nodes, and the state once all of it has been read. -/
def State.readGraph (s : State) (u : HostUnit) (c : Ctx) (addr : Word) (count : Nat) :
    Except (Nat × Word) (List (GNode × Option Kernel) × State) :=
  match s.unitAccess u addr (32 * count) true false with
  | .error e => .error (readCause 0x3CA e)
  | .ok ps =>
    let bs := s.readPieces ps
    (s.graphNodes u c count 0 ((List.range count).map fun i => leNat ((bs.drop (32 * i)).take 32))).map fun ns =>
      (ns.map fun e => (e.1, e.2.map (·.1)),
       s.haveRead (ps ++ ns.flatMap fun e => match e.2 with | some k => k.2 | none => []))

/-- The edges that enter node `n`. -/
def inEdges (ns : List GNode) (n : Nat) : Nat := (ns.map fun x => (x.succ.filter (· == n)).length).sum

/-- Create the graph's launches, Pending (R236 of spec/14), and record their handles in its nodes. -/
def State.graphLaunches (s : State) (a graph : Nat) (seed : Word) (ns : List (GNode × Option Kernel)) : State :=
  ns.zipIdx.foldl (fun s e => match e.1.2, s.ctx a with
    | some k, some c =>
      let r := c.addUnit { level := 0, parent := graph, born := 0, kernel := k, node := e.2, total := k.groups, jobseed := seed }
      (s.setCtx a (some r.1)).onNode a graph e.2 fun x => { x with launch := r.2 }
    | _, _ => s) s

/-- The work of GRAPH (R310): the graph is appended to the last phase of a job the host has not closed. While a read waits for its
walk the queue carries the command, with the context and the journal it was accepted for (log 23). -/
def State.graphFor (s : State) (queue : Nat) (k : Carry) (c : Ctx) : Out :=
  let a := k.asid
  let p := cmdHandle k.cmd
  let count := bitsAt (cmdArgs k.cmd) 0 11
  let u : HostUnit := ⟨0, a, 2 ^ 32 + queue, 0⟩
  let free := fun (s : State) => (s.forget u.asker).onQueue queue fun q => { q with carry := none }
  let fail := fun (cause : Nat) => Host.Outcome.next ((free s).journalTo k.base k.seq 4 cause none)
  match s.cmdUnit a p 2 with
  | none => fail 0x3CA
  | some v => match s.cmdUnit a v.parent 3 with
    | none => fail 0x3CA
    | some j =>
      if j.closed || j.kids.getLast? != some p || count = 0 || 1024 < count || c.spent 1 1 then fail 0x3CA
      else match s.readGraph u c (BitVec.ofNat 64 (cmdAddr k.cmd)) count with
        | .error e =>
          if e.1 = walkWait then .next ((s.unitMiss u e.2).onQueue queue fun q => { q with carry := some k }) else fail e.1
        | .ok (ns, t) =>
          if c.spent 0 (ns.filter (·.2.isSome)).length then fail 0x3CA
          else
            let gs := ns.map (·.1)
            let gs := gs.mapIdx fun i x => { x with open_ := inEdges gs i }
            let r := (free t).newUnit a c k.base k.seq
              { level := 1, parent := p, born := 0, nodes := gs, total := count, jobseed := j.jobseed }
            let s := r.1.onUnit a p fun v => { v with kids := v.kids ++ [r.2], total := v.total + 1 }
            .next ((s.graphLaunches a r.2 j.jobseed ns).joinParent a p r.2)

/-- GRAPH: the command, or the queue goes on with the one it carries. -/
def execGraph (queue seq : Nat) (cmd : BitVec 512) (s : State) : Out :=
  match (s.queue queue).carry with
  | some k => match s.ctx k.asid with
    | some c => if k.seq = seq && k.cmd = cmd then s.graphFor queue k c else .next s
    | none => .next s
  | none => s.onBound queue seq cmd fun a c => s.graphFor queue ⟨seq, cmd, a, s.journalOf queue⟩ c

/-- CLOSE: the job and its last phase are closed. -/
def execClose (queue seq : Nat) (cmd : BitVec 512) (s : State) : Out :=
  s.onBound queue seq cmd fun a _ =>
    let j := cmdHandle cmd
    match s.cmdUnit a j 3 with
    | none => s.cmdFail queue seq 0x3CA
    | some u =>
      let last := u.kids.getLast?.toList
      let s := (j :: last).foldl (fun s h => s.onUnit a h fun v => { v with closed := true }) s
      (s.work a ((last ++ [j]).map .check)).cmdDone (s.journalOf queue) seq none

/-- QUEUE_CANCEL: the CANCEL event; a unit whose record was dropped is Complete, so nothing happens. -/
def execQueueCancel (queue seq : Nat) (cmd : BitVec 512) (s : State) : Out :=
  s.onBound queue seq cmd fun a c =>
    let h := cmdHandle cmd
    let given := h < 2 ^ 32 && h % 2 ^ 30 != 0 && h % 2 ^ 30 < c.next (h / 2 ^ 30)
    if !given then s.cmdFail queue seq 0x3CA else (s.cancelUnit a h).cmdDone (s.journalOf queue) seq none

end Sys2Proof.Machine
end

