-- ==== Sys2Proof/Machine/Replicas.lean ====
section
/-! DEFINITION. Replica sets: votes, timeouts, shearing, and the four instructions (R266 to R284 of spec/17). -/

namespace Sys2Proof.Machine

open Sys2Proof

/-! ## The instructions (R280 to R284) -/

/-- RREL (R281): FENCE.REL at its scope, a vote point inside a replica set. -/
def execRrel (gd : Guard) (scope : Scope) (s : State) : Out := s.guarded gd (releaseAt scope)

/-- The mask of live replicas with the bellwether's index; 0x1 outside a set (R282). -/
def State.liveWord (s : State) (x : Slot) : Nat :=
  match s.setOf x with
  | none => 1
  | some r => (r.live.zipIdx.map fun e => bit e.1 e.2).sum + r.bell * 2 ^ 4

def State.markWord (s : State) (x : Slot) (f : Nat) : Word :=
  if f = 3 then BitVec.ofNat 64 (if x.rep.count = 0 then 1 else s.liveWord x)
  else if x.rep.count = 0 then 0
  else match f with
    | 0 => x.rep.earmark
    | 1 => BitVec.ofNat 64 x.rep.votes
    | _ => x.rep.last

/-- RMARK (R282). -/
def execRmark (gd : Guard) (a : Fin 32) (f : Fin 4) (s : State) : Out :=
  s.guarded gd fun s => s.doneRegs [(a.val, s.markWord s.me f.val)]

/-- RTEST[0] of the agent's context. -/
def State.rtest (s : State) : Bool :=
  match s.ctx (s.asidOf s.agent) with | some c => c.record.rtest | none => false

/-- RPERT (R283). -/
def execRpert (gd : Guard) (b : Src) (s : State) : Out :=
  s.guarded gd fun s =>
    if !s.rtest then s.trap 0x2C2 0
    else s.operands [b] [] fun vs s =>
      (s.onMe fun x => if x.rep.count = 0 then x
        else { x with rep := { x.rep with earmark := x.rep.earmark ^^^ arg vs 0 } }).done

/-- The slot is in the handler of a 0x2C1 trap: the cause of the level it runs at says so. DESIGN CHOICE (log 90): a CWR of TCAUSE or
SCAUSE changes that. -/
def Slot.inMismatch (x : Slot) : Bool :=
  if x.sup.sinh then x.sup.scause == 0x2C1 else x.trap.inh && x.trap.tcause == 0x2C1

/-- Restore the register checkpoint (R275, R284) and leave the handler as TRET does. -/
def Slot.rewind (x : Slot) (c : Checkpoint) : Slot :=
  let y := { x with g := c.g, full := c.full, p := c.p, v := c.v, k := c.k, loop := c.loop, srCtr := c.sr, rngCtr := c.rng
                    inl := c.inl, kept := []
                    rep := { x.rep with earmark := 0, held := [], spill := [], votes := c.votes, vote := none, waited := 0 } }
  if x.sup.sinh then { y with sup := { y.sup with sinh := false } } else { y with trap := { y.trap with inh := false } }

/-- RREWIND (R284). -/
def execRrewind (s : State) : Out :=
  match s.me.rep.ckpt with
  | none => s.trap 0x2C3 0
  | some c => if s.me.inMismatch then (s.onMe (·.rewind c)).goto c.pc else s.trap 0x2C3 0

/-! ## Held stores are performed (R273, R274) -/

/-- The tile whose TCM, paddock or format registers a held store names. -/
def Held.tile (h : Held) : Option Nat :=
  if 2 ^ 80 ≤ h.pa then some ((h.pa - 2 ^ 80) / 128)
  else if Config.paddockBase 0 ≤ h.pa && h.pa < Config.paddockBase Config.tiles then some ((h.pa - Config.paddockBase 0) / 2 ^ 22)
  else if Config.tcmBase 0 ≤ h.pa && h.pa < Config.tcmBase Config.cores then some ((h.pa - Config.tcmBase 0) / 2 ^ 20)
  else none

/-- A held store to a format register of a tile. -/
def Tile.putFormat (t : Tile) (h : Held) : Tile :=
  { t with formats := Table.put (h.pa % 128 / 8) (formatOfWord (BitVec.ofNat 64 (leNat h.bytes))) t.formats }

/-- The image of a tile takes a held store. -/
def Image.commit (i : Image) (h : Held) : Image :=
  if 2 ^ 80 ≤ h.pa then { i with tile := i.tile.putFormat h }
  else { i with mem := memWrite i.mem h.pa h.bytes
                slots := i.slots.map fun e => (e.1, e.2.touched h.pa h.bytes.length) }

/-- The context of a thread of a set: the set's, whatever its ASID word names (R304 of spec/19). -/
def State.setAsid (s : State) (x : Slot) : Nat := match s.setOf x with | some r => r.asid | none => x.sup.asid.toNat

/-- Perform a held store for the voters of an agreement: one that an unreachable package loses is lost to each of them (R339 of
spec/22), and one to a tile where the voters' context does not stand goes into its image (R278; R302, R305 of spec/19). DESIGN CHOICE
(log 94): a store to the TCM or paddock names that memory from its issue, also where its replica has been placed elsewhere since. -/
def State.commit (s : State) (tids : List Nat) (h : Held) : State :=
  let asid := match s.findTid (tids.headD 0) with | some x => s.setAsid x | none => 0
  match h.tile with
  | some t =>
    if (s.tile t).owner != some asid then
      s.onCtx asid fun c => { c with images := c.images.map fun i => (i.1, if i.1 == t then i.2.commit h else i.2) }
    else if 2 ^ 80 ≤ h.pa then s.onTile t fun x => x.putFormat h
    else s.write h.pa h.bytes h.attr
  | none =>
    if Config.remoteBase 0 ≤ h.pa then s.sendWrite tids h.va (.write h.pa h.bytes) h.epoch h.tied else s.write h.pa h.bytes h.attr

/-- Perform stores of a replica: the local ones, and the shared ones too where it supplies them. -/
def State.commitAll (s : State) (tids : List Nat) (hs : List Held) (supplies : Bool) : State :=
  (hs.filter fun h => h.isLocal || supplies).foldl (fun s h => s.commit tids h) s

/-! ## Votes (R273) -/

/-- A replica of the set agrees with another: earmark, kind and vote number. -/
def Slot.agrees (x y : Slot) : Bool :=
  x.rep.earmark == y.rep.earmark && x.rep.votes == y.rep.votes
    && (x.rep.vote.map fun v => (v.kind, v.once)) == (y.rep.vote.map fun v => (v.kind, v.once))

/-- An agreed voter goes on: it performs, or waits for the bellwether of an operation performed once; a system-scope releasing
store whose slot has lost a remote write performs nothing (R339 of spec/22). -/
def Slot.agreedOn (x : Slot) (bell : Nat) : Slot :=
  let once := match x.rep.vote with | some v => v.once | none => false
  let own := match x.rep.vote with | some v => v.sys && !v.own.isEmpty | none => false
  let waits := once && x.rep.index != bell
  { x with
    rep := { x.rep with earmark := 0, held := [], votes := x.rep.votes + 1, last := x.rep.earmark, vote := none, waited := 0 }
    park := { x.park with voted := true, once := once && !waits, lostAt := if own then x.lost else none
                          wait := if waits then some .bellwether else none }
    lost := if own then none else x.lost
    status := if x.status == Status.parked && !waits then .running else x.status }

/-- An implicit vote has agreed (R270): the checkpoint stands at the instruction, whose completion will leave another (R275), and
the engine writes that waited for room are held. -/
def Slot.madeRoom (x : Slot) : Slot :=
  let y := { x with
    rep := { x.rep with earmark := 0, held := [], votes := x.rep.votes + 1, last := x.rep.earmark, vote := none, waited := 0 }
    park := { x.park with due := x.park.insn.isSome, wait := none }
    status := if x.status == Status.parked then .running else x.status }
  ({ y with rep := { y.rep with ckpt := some y.here } } : Slot).drain

def Slot.agreed (x : Slot) (bell : Nat) : Slot :=
  if x.rep.vote.any (·.kind == .buffer) then x.madeRoom else x.agreedOn bell

/-- The vote is that of a releasing store at system scope. -/
def Slot.releasesSys (x : Slot) : Bool := x.rep.vote.any fun v => v.sys && !v.own.isEmpty

/-- Such a vote waits while a port starts no request, or an ACK cannot come (R335, R339 of spec/22): the held writes must leave before
its own. -/
def State.voteWaits (s : State) (xs : List Slot) : Bool :=
  xs.any Slot.releasesSys && (s.writesHeld || s.ackWaits (xs.map (·.tid)) || s.ports.any fun e => e.2.state == .up && e.2.blocked s.clock 0)

/-- Every live replica of a thread has voted, and the vote can be decided. -/
def State.votesIn (s : State) (r : RepSet) (xs : List Slot) : Bool :=
  xs.length == r.liveCount && xs.all (·.rep.vote.isSome) && !s.voteWaits xs

/-- A voter meets the mismatch: its held stores are discarded, and it takes 0x2C1 with its own earmark. DESIGN CHOICE (log 95): the vote
does not count toward the vote number n, which counts agreed votes. -/
def State.mismatch (s : State) (x : Slot) : State :=
  let s := s.onTid x.tid fun y => { y with rep := { y.rep with earmark := 0, held := [], spill := [], vote := none, waited := 0 } }
  s.trapTid x.tid 0x2C1 x.rep.earmark

/-- A releasing store's own bytes, once the held stores are performed, unless its release has failed. -/
def State.commitOwn (s : State) (tids : List Nat) (x : Slot) (supplies : Bool) : State :=
  match x.rep.vote, s.findTid x.tid with
  | some v, some y => if y.park.lostAt.isSome then s else s.commitAll tids v.own supplies
  | _, _ => s

/-- The voters of an agreement, the lowest index (or the bellwether) supplying the shared stores. -/
def State.agreement (s : State) (bell : Nat) (voters : List Slot) : State :=
  let lowest := (minBy id (voters.map (·.rep.index))).getD 0
  let supplier := if voters.any (·.rep.index == bell) then bell else lowest
  let tids := voters.map (·.tid)
  let s := if voters.any Slot.releasesSys then s.loseLate tids else s
  let s := voters.foldl (fun s x => s.commitAll tids x.rep.held (x.rep.index == supplier)) s
  let s := voters.foldl (fun s x => s.onTid x.tid (·.agreed supplier)) s
  let s := if voters.any Slot.releasesSys then s.acked tids else s
  voters.foldl (fun s x => s.commitOwn tids x (x.rep.index == supplier)) s

/-! ## Shearing (R277) -/

/-- What waits behind a pause for thread `a` waits for thread `b`. -/
def Outgoing.handTo (a b : Nat) : Outgoing → Outgoing
  | .request tid r => .request (if tid = a then b else tid) r
  | .message tid pkg adr ws => .message (if tid = a then b else tid) pkg adr ws
  | .write tids va r epoch tied => .write tids va r epoch tied
  | .result pkg bs => .result pkg bs
  | .reply pkg adr code => .reply pkg adr code

/-- Survivor `x` takes over what has left for the shorn bellwether's thread `o`: a request is never sent a second time (R39 of spec/02),
and a message is delivered at most once (R229 of spec/13; DEDUCED, log 93). -/
def State.takeOver (s : State) (o x : Slot) : State :=
  let here := (s.slotOfTid x.tid).getD x.park.origin
  let s : State := { s with ports := s.ports.map fun e => (e.1, { e.2 with waiting := e.2.waiting.map (Outgoing.handTo o.tid x.tid) }) }
  s.onTid x.tid fun y => { y with park := { o.park with insn := y.park.insn, vals := y.park.vals, took := y.park.took, origin := here } }

/-- A survivor that now is the bellwether of an operation it waits for performs it, a halted one once it is restored (R229 of spec/13; log
63); where the old bellwether's thread, of `old`, has sent it, it takes that over. -/
def State.promote (s : State) (r : RepSet) (old : List Slot) : State :=
  (s.allSlots.map (·.2)).foldl (fun s x =>
    if r.liveMember x && x.rep.index == r.bell && x.park.wait == some .bellwether then
      match old.find? fun o => o.id.gshape == x.id.gshape && o.id.logical == x.id.logical && o.park.once && o.park.left && !o.launching with
      | some o => s.takeOver o x
      | none => s.onTid x.tid fun x => { x with park := { x.park with wait := none, once := true }
                                                status := if x.status == Status.parked then .running else x.status }
    else s) s

def State.setSet (s : State) (r : RepSet) : State :=
  { s with sets := s.sets.map fun q => if q.members == r.members then r else q }

/-- Shear replica `i` of a set at vote `n` with the three earmarks: its slots are freed, the event is posted, the bellwether
moves on. -/
def State.shear (s : State) (r : RepSet) (i n : Nat) (marks : List Word) : State :=
  let g := r.members.getD i 0
  let die := match s.group g with | some x => x.die | none => 0
  let live := r.live.set i false
  let bell := if r.bell = i then (live.findIdx? id).getD 0 else r.bell
  let r' := { r with live := live, bell := bell }
  let old := if r.bell = i then (s.allSlots.map (·.2)).filter fun x => x.id.group == some g && x.status != .free else []
  let s := (s.freeGroup g).setSet r'
  let s := match s.group g with | some x => s.endGroup g x .discarded | none => s
  let s := s.postEvent r.asid 3 (handleOf 0 r.launch) (r.index + i * 2 ^ 32 + die * 2 ^ 34 + n % 2 ^ 32 * 2 ^ 64
    + ((marks.zipIdx.map fun m => m.1.toNat * 2 ^ (96 + 64 * m.2)).sum))
  (s.promote r' old).placePass die

/-! ## The VOTE and VOTE_TIMEOUT events -/

def State.findSet (s : State) (asid launch index : Nat) : Option RepSet :=
  s.sets.find? fun r => r.asid == asid && r.launch == launch && r.index == index

/-- The earmarks of a thread's replicas, by index. -/
def marksOf (xs : List Slot) : List Word :=
  (List.range 3).map fun i => match xs.find? fun x => x.rep.index == i with | some x => x.rep.earmark | none => 0

/-- Decide a vote among the replicas of one thread that are present; the others are absent. -/
def State.decideVote (s : State) (r : RepSet) (all present : List Slot) : State :=
  let n := (match present with | x :: _ => x.rep.votes | [] => 0) + 1
  let absent := all.filter fun x => !present.any (·.tid == x.tid)
  let missing := (r.live.zipIdx.filter fun e => e.1 && !present.any fun x => x.rep.index == e.2).map (·.2)
  let lose := fun (s : State) =>
    let s := present.foldl (fun s x => s.mismatch x) s
    absent.foldl (fun s x => s.onTid x.tid fun y => { y with rep := { y.rep with mismatch := true } }) s
  match present, missing with
  | [x, y], [] => if x.agrees y then s.agreement r.bell present else lose s
  | [x], [] => s.agreement r.bell [x]
  | [x, y], [i] =>
    if x.agrees y then (s.shear r i n (marksOf all)).agreement r.bell present else lose s
  | [x, y, z], [] =>
    if x.agrees y && y.agrees z then s.agreement r.bell present
    else if x.agrees y then (s.shear r z.rep.index n (marksOf all)).agreement r.bell [x, y]
    else if x.agrees z then (s.shear r y.rep.index n (marksOf all)).agreement r.bell [x, z]
    else if y.agrees z then (s.shear r x.rep.index n (marksOf all)).agreement r.bell [y, z]
    else lose s
  | _, _ => lose s

/-- The threads of a set, each as its replicas (one of them and its twins). -/
def State.setThreads (s : State) (r : RepSet) : List (List Slot) :=
  let xs := (s.allSlots.map (·.2)).filter fun x => r.liveMember x && x.status != .free
  let keys := (xs.map fun x => (x.id.gshape.toNat, x.id.logical)).eraseDups
  keys.map fun k => xs.filter fun x => x.id.gshape.toNat == k.1 && x.id.logical == k.2

/-- VOTE: every live replica of a thread has issued its vote point; the vote is decided (R273). -/
def execVote (asid launch group : Nat) (s : State) : Out :=
  .next (match s.findSet asid launch group with
    | none => s
    | some r => match (s.setThreads r).find? (s.votesIn r) with
      | none => s
      | some xs => s.decideVote r xs xs)

/-- The limit of R276. -/
def voteLimit : Nat := 2 ^ 24

/-- A thread of the set has waited for another replica up to the limit, and the vote of those present can be decided. -/
def State.votesLate (s : State) (r : RepSet) (xs : List Slot) : Bool :=
  let here := xs.filter (·.rep.vote.isSome)
  (xs.any fun x => match x.rep.vote with | some v => decide (voteLimit ≤ v.waited) | none => false)
    && !(xs.length == r.liveCount && here.length == xs.length) && !s.voteWaits here

/-- VOTE_TIMEOUT: a replica has waited 2^24 counted cycles for another (R276). -/
def execVoteTimeout (asid launch group : Nat) (s : State) : Out :=
  .next (match s.findSet asid launch group with
    | none => s
    | some r => match (s.setThreads r).find? (s.votesLate r) with
      | none => s
      | some xs => s.decideVote r xs (xs.filter (·.rep.vote.isSome)))

/-- The count of R276 stands still while some replica of the set is queued, halted or in a trap handler. -/
def State.voteHeld (s : State) (r : RepSet) : Bool :=
  (r.members.zip r.live).any (fun e => e.2 && (match s.group e.1 with | some g => g.state == .queued | none => false))
    || (s.allSlots.map (·.2)).any fun x => r.liveMember x && x.status != .free && (x.status == .halted || x.inHandler)

/-- One cycle of every wait at a vote. -/
def State.countVotes (s : State) : State :=
  s.sets.foldl (fun s r =>
    if s.voteHeld r then s
    else (s.setThreads r).flatten.foldl (fun s x => match x.rep.vote with
      | none => s
      | some v => s.onTid x.tid fun y => { y with rep := { y.rep with vote := some { v with waited := v.waited + 1 } } }) s) s

end Sys2Proof.Machine
end

