-- ==== Sys2Proof/Machine/Links.lean ====
section
/-! DEFINITION. The host link and the Margon ports (R327 to R339 of spec/22). -/

namespace Sys2Proof.Machine

open Sys2Proof

/-! ## BAR0 (R328 to R330) -/

/-- Clear bits of a port's REPLAYS: a write of PORTSTAT (R337). -/
def State.clearReplays (s : State) (port : Nat) (v : Nat) : State :=
  if 12 ≤ port then s else s.onPort port fun p => { p with replays := p.replays &&& ~~~(BitVec.ofNat 16 (bitsAt v 32 16)) }

/-- PORTSTAT_WRITE: ones clear bits of REPLAYS (R337). -/
def execPortstatWrite (port : Nat) (v : BitVec 64) (s : State) : Out := s.barAccess (s.clearReplays port v.toNat)

/-- An aligned access of 4 or 8 bytes. -/
def barOk (offset size : Nat) : Bool := (size == 4 || size == 8) && offset % size == 0

/-- Put an access of `size` bytes at byte `o` of an 8-byte register into its value. -/
def mergeBar (old o size v : Nat) : Nat :=
  if size = 8 then v
  else if o = 0 then old / 2 ^ 32 * 2 ^ 32 + v % 2 ^ 32
  else old % 2 ^ 32 + v % 2 ^ 32 * 2 ^ 32

/-- A write of dword `i` of the MSI-X table; a pending vector that is unmasked is sent. The spec gives the table no layout (log 8); bits
[31:1] of an entry's fourth dword are reserved, so they read 0 and ignore writes (R6 of spec/00). -/
def State.writeMsix (s : State) (i v : Nat) : State :=
  let v := if i % 4 = 3 then v % 2 else v
  let s := { s with host := { s.host with msixTable := Table.put i (BitVec.ofNat 32 v) s.host.msixTable } }
  let q := i / 4
  if i % 4 = 3 && v % 2 = 0 && Table.val false q s.host.msixPend then
    { s with host := { s.host with msixPend := Table.put q false s.host.msixPend, msixSent := q :: s.host.msixSent } }
  else s

/-- A write in a queue's register block (R308 of spec/20): QWP and EVRP, which hold whole dwords. -/
def State.writeQueueBlock (s : State) (q o v : Nat) : State :=
  if o = 8 then s.writeQwp q (BitVec.ofNat 32 v) else if o = 0x20 then s.writeEvrp q (BitVec.ofNat 32 v) else s

/-- The register file behind BAR0: HOSTATOM, APBASE and ROUTE are fixed once queue 0 is bound. -/
def State.writeBar (s : State) (offset size v : Nat) : State :=
  let o := offset % 8
  let fixed := (s.queue 0).state != .unbound
  if offset < 0x8 then
    if fixed then s
    else { s with host := { s.host with hostatom := BitVec.ofNat 2 (mergeBar s.host.hostatom.toNat o size v) } }
  else if offset < 0x10 then
    if fixed then s
    else { s with host := { s.host with
      apbase := BitVec.ofNat 10 (bitsAt (mergeBar (s.host.apbase.toNat * 2 ^ 30) o size v) 30 10) } }
  else if 0x100 ≤ offset && offset < 0x300 then
    let p := (offset - 0x100) / 8
    let old := (Table.val (0 : BitVec 12) p s.host.route).toNat
    if fixed then s
    else { s with host := { s.host with route := Table.put p (BitVec.ofNat 12 (mergeBar old o size v)) s.host.route } }
  else if 0x100000 ≤ offset && offset < 0x110000 then
    s.writeQueueBlock ((offset - 0x100000) / 64) (offset % 64) v
  else if 0x110000 ≤ offset && offset < 0x110300 then
    if offset % 64 < 8 then s.clearReplays ((offset - 0x110000) / 64) (mergeBar 0 o size v) else s
  else if 0x120000 ≤ offset && offset < 0x124000 then
    let i := (offset - 0x120000) / 4
    if size = 8 then (s.writeMsix i (v % 2 ^ 32)).writeMsix (i + 1) (v / 2 ^ 32) else s.writeMsix i (v % 2 ^ 32)
  else s

/-- BAR_REGISTER_WRITE: any other access than an aligned one of 4 or 8 bytes is an Unsupported Request. -/
def execBarRegisterWrite (offset size : Nat) (v : BitVec 64) (s : State) : Out :=
  s.barAccess (if barOk offset size then s.writeBar offset size v.toNat else s)

/-! ## Reading BAR0 -/

def qstateCode : QState → Nat
  | .unbound => 0 | .active => 1 | .waiting => 2 | .error => 3

/-- Word `i` of a queue's register block (R308 of spec/20). -/
def State.queueWord (s : State) (q i : Nat) : Nat :=
  let x := s.queue q
  match i with
  | 1 => x.qwp.toNat + x.qrp.toNat * 2 ^ 32
  | 2 => x.cause % 1024 * 2 ^ 22
  | 3 => qstateCode x.state * 4 + x.evwp.toNat * 2 ^ 32
  | 4 => x.evrp.toNat + x.evlost.toNat * 2 ^ 32
  | 5 => (s.jheadOf q).toNat
  | _ => 0

def pstateCode : PState → Nat
  | .down => 0 | .training => 1 | .up => 2 | .retrain => 3

/-- PORTSTAT (R337): PEER is valid in Up; the spec gives no value to it in another state, and the register holds the last. -/
def Port.stat (p : Port) : Nat := pstateCode p.state + p.peer.toNat * 2 ^ 24 + p.replays.toNat * 2 ^ 32

/-- The 8-byte register of BAR0 at word `w` (offset 8 x w): everything not listed reads as zero. -/
def State.barWord (s : State) (w : Nat) : Nat :=
  let o := 8 * w
  if o = 0 then s.host.hostatom.toNat
  else if o = 8 then s.host.apbase.toNat * 2 ^ 30
  else if 0x100 ≤ o && o < 0x300 then (Table.val (0 : BitVec 12) (w - 0x20) s.host.route).toNat
  else if 0x100000 ≤ o && o < 0x110000 then s.queueWord ((o - 0x100000) / 64) (w % 8)
  else if 0x110000 ≤ o && o < 0x110300 then if w % 8 = 0 then (s.port ((o - 0x110000) / 64)).stat else 0
  else if 0x120000 ≤ o && o < 0x124000 then
    let i := (o - 0x120000) / 4
    (s.msixDword i).toNat + (s.msixDword (i + 1)).toNat * 2 ^ 32
  else if 0x124000 ≤ o && o < 0x124080 then
    let q := 8 * (o - 0x124000)
    ((List.range 64).map fun i => bit (Table.val false (q + i) s.host.msixPend) i).sum
  else 0

/-- A BAR access that has a completion ends: the data, or how it was refused. -/
def State.barDone (s : State) (e : BarEnd) (v : BitVec 4096) : State := { s with host := { s.host with answer := v, barEnd := e } }

/-- The host reads BAR0: aligned reads of 4 and 8 bytes; any other is an Unsupported Request; while frozen it is aborted
(R350 of spec/23). -/
def State.barRead (s : State) (offset size : Nat) : State :=
  if s.freeze != .off then s.barDone .abort 0
  else if !barOk offset size || 2 ^ 25 < offset + size then s.barDone .unsupported 0
  else
    let v := s.barWord (offset / 8)
    s.barDone .ok (BitVec.ofNat 4096 (if size = 8 then v else bitsAt v (8 * (offset % 8)) 32))

/-- The host sends an AtomicOp to a BAR (R327). -/
def State.barAtomic (s : State) : State := s.barDone (if s.freeze = .off then .unsupported else .abort) 0

/-- The host stores up to 8 bytes to its own memory (R333). -/
def State.hostStore (s : State) (addr size : Nat) (v : Word) : State :=
  if 1 ≤ size && size ≤ 8 then s.write (Config.hostBase + addr % 2 ^ 64) (leBytes v.toNat size) else s

/-! ## The aperture (R328) -/

/-- Bytes of package HBM as an access from outside gets them: no value is given where memory has an uncorrectable error. -/
def State.outerBytes (s : State) (a len : Nat) : List Byte :=
  match s.badIn a len with
  | some _ => (List.range len).map fun i => Config.freeByte s.clock.toNat (a + i)
  | none => s.supBytes a len

/-- HOST_APERTURE_ACCESS: up to 512 bytes, the largest payload (R327), of package HBM from APBASE on; an access outside the
aperture or the memory has no effect. A write into a diagram space's node table changes its nodes. -/
def execHostApertureAccess (write : Bool) (offset size : Nat) (v : BitVec 4096) (s : State) : Out :=
  let a := s.host.apbase.toNat * 2 ^ 30 + offset
  let ok := 1 ≤ size && size ≤ 512 && offset + size ≤ 2 ^ 30 && a + size ≤ Config.hbmBytes
  if write then s.barAccess (if ok then s.write a (leBytes v.toNat size) else s)
  else .next (if s.freeze != .off then s.barDone .abort 0
    else if ok then s.barDone .ok (BitVec.ofNat 4096 (leNat (s.outerBytes a size))) else s.barDone .unsupported 0)

/-! ## Requests that fail (R332, R339) -/

/-- A port goes Down and its lanes hold nothing back any more. -/
def State.portLost (s : State) (p : Nat) : State := (s.portDown p).releaseNodes

/-- The ports that are Up have changed: what waits takes its port anew, and nodes that waited for writes among it complete. -/
def State.rerouted (s : State) : State := s.reroute.releaseNodes

/-- A request of a thread gets no answer: 0x10C at its instruction, in every mirror too, or nothing for a request that is
answered. -/
def State.failRequest (s : State) (tid : Nat) (ok : State → Slot → Home → Bool) : State :=
  match s.findTid tid with
  | none => s
  | some x => match x.park.wait with
    | some (.answer va h) =>
      if x.park.answered || !ok s x h then s
      else (tid :: s.mirrorsOf x).foldl (fun t i => t.trapTid i 0x10C va) s
    | _ => s

def cyclesSince (s : State) (x : Slot) : Nat := s.clock.toNat - x.park.since.toNat

/-- A host request has been outstanding for 16 ms. -/
def hostLate (s : State) (x : Slot) (h : Home) : Bool := h == .host && 28800000 ≤ cyclesSince s x

/-- A remote request that no answer can reach: its package was unreachable, or its port has gone Down. -/
def remoteDead (x : Slot) : Bool := x.park.dead

/-- No answer can reach it at present: it left by a port that is now in Retrain, and its package is unreachable (R338, R339). -/
def State.cutNow (s : State) (x : Slot) (pkgs : List Nat) : Bool :=
  !x.park.behind && (x.park.ports.any fun p => (s.port p).state == .retrain) && pkgs.any (!s.reachable ·)

/-- Such a request, or one that none can reach ever. -/
def State.unanswerable (s : State) (x : Slot) : Bool :=
  remoteDead x || s.cutNow x ((x.park.trans.filter (·.loc == 3)).map (·.rpkg))

/-- A message for another package that is answered as for an absent target. -/
def State.unsentMessage (s : State) (x : Slot) : Bool :=
  x.park.dead || s.cutNow x [(penAddrOf ((x.park.vals.getD []).headD 0).toNat).pkg]

/-- HOST_COMPLETION_TIMEOUT. -/
def execHostCompletionTimeout (tid : Nat) (s : State) : Out := .next (s.failRequest tid hostLate)

/-- REMOTE_REQUEST_TIMEOUT: at the latest 2^20 cycles after the request left; the environment may bring it earlier. -/
def execRemoteRequestTimeout (tid : Nat) (s : State) : Out := .next (s.failRequest tid fun s x _ => s.unanswerable x)

/-! ## Package reset (R327) -/

/-- The package after a reset: what is not the package's own stays: the environment's schedule, its package number, the
memory of its host and of other packages, and the model's counter of free choices. -/
def State.resetPackage (s : State) : State :=
  { State.reset with inputs := s.inputs, freeCtr := s.freeCtr, pkg := s.pkg, hostFail := s.hostFail
                     mem := s.mem.filter fun c => Config.hostBase ≤ c.1 }

/-- HOT_RESET. -/
def execHotReset (s : State) : Out := .next s.resetPackage

/-- LINK_DOWN_TIMEOUT. -/
def execLinkDownTimeout (s : State) : Out := .next s.resetPackage

/-! ## Port states (R338) -/

/-- PORT_ENABLE. -/
def execPortEnable (port : Nat) (s : State) : Out :=
  .next (if 12 ≤ port then s
    else s.onPort port fun p => if p.state = .down then { p with state := .training } else p)

/-- Send again all flits from a SEQ on (R336), in their order. -/
def Port.replay (p : Port) (from_ : BitVec 32) : Port :=
  { p with out := (p.sent.filter fun e => (e.1 - from_).toNat < 2 ^ 31).reverse ++ p.out }

/-- TRAINING_SUCCEEDS: a fresh port restarts its SEQs; a retrained one resends its replay buffer. -/
def execTrainingSucceeds (port : Nat) (peer : BitVec 6) (s : State) : Out :=
  .next (s.onPort port fun p => match p.state with
    | .training => { p with state := .up, peer := peer, txSeq := 0, rxSeq := 0, sent := [], naks := 0, pause := [], buf := []
                            ackAt := s.clock }
    | .retrain => ({ p with state := .up, naks := 0, ackAt := s.clock } : Port).replay ((p.sent.map (·.1)).headD p.txSeq)
    | .down => p
    | .up => p).rerouted

/-- TRAINING_FAILS: Down; requests in flight fail (R339). -/
def execTrainingFails (port : Nat) (s : State) : Out :=
  .next (match (s.port port).state with
    | .training | .retrain => s.portLost port
    | .down | .up => s)

/-- LOSS_OF_SIGNAL. -/
def execLossOfSignal (port : Nat) (s : State) : Out :=
  .next (match (s.port port).state with
    | .training => s.portLost port
    | .up => (s.onPort port fun p => { p with state := .retrain }).rerouted
    | .down | .retrain => s)

/-- No ACK for 65,536 cycles although flits wait for one (R338). -/
def Port.ackLate (p : Port) (now : Word) : Bool :=
  p.state == .up && !p.sent.isEmpty && decide (65536 ≤ now.toNat - p.ackAt.toNat)

/-- ACK_TIMEOUT. -/
def execAckTimeout (port : Nat) (s : State) : Out :=
  .next (if (s.port port).ackLate s.clock then (s.onPort port fun p => { p with state := .retrain }).rerouted else s)

/-! ## Receiving (R335, R336) -/

def Port.addReplay (p : Port) : Port := { p with replays := if p.replays = 0xFFFF then p.replays else p.replays + 1 }

/-- A NAK: the sender replays from its SEQ; the sixteenth in a row of one flit retrains the port. -/
def Port.nakked (p : Port) (seq : BitVec 32) : Port :=
  let n := if p.nakSeq = seq then p.naks + 1 else 1
  let p := { p.addReplay with naks := n, nakSeq := seq }
  if 16 ≤ n then { p with state := .retrain, naks := 0 } else p.replay seq

/-- An ACK: flits up to its SEQ need not be kept for replay. -/
def Port.acked (p : Port) (now : Word) (seq : BitVec 32) : Port :=
  { p with naks := 0, ackAt := now, sent := p.sent.filter fun e => 2 ^ 31 ≤ (seq - e.1).toNat }

/-- A pause of a virtual lane in units of 256 cycles; a time of 0 ends it. -/
def Port.setPause (p : Port) (now : Word) (vl units : Nat) : Port :=
  { p with pause := if units = 0 then Table.del vl p.pause else Table.put vl (now + BitVec.ofNat 64 (256 * units)) p.pause }

/-- A lane may send again: what waited leaves, and nodes that waited for the writes among it complete (R242 of spec/14). -/
def State.laneOpens (s : State) (port vl : Nat) : State := (s.pump port vl).releaseNodes

/-- A flit of virtual lane 3. -/
def State.control (s : State) (port : Nat) (f : BitVec 2048) : State :=
  let a := Config.flitArg f
  match Config.flitKind (BitVec.ofNat 8 (flitField f 0 8)) with
  | 1 => s.onPort port fun p => p.acked s.clock (BitVec.ofNat 32 a)
  | 2 => (s.onPort port fun p => p.nakked (BitVec.ofNat 32 a)).rerouted
  | 3 => (s.onPort port fun p => p.setPause s.clock (a % 4) (a / 4)).laneOpens port (a % 4)
  | _ => s

/-- A live context's record names the tile. -/
def State.assignedTile (s : State) (t : Nat) : Bool := s.liveCtxs.any fun e => e.2.record.tiles.getLsbD t

/-- What a remote message meets at its pen (R223, R224, R218 of spec/13): a tile that no context is assigned to refuses it for good,
one whose context is not there for a time (R306 of spec/19), and only an EXT pen takes it. -/
def State.remoteReply (s : State) (a : PenAddr) : PenReply :=
  match (s.tile (coreTile a.core)).owner with
  | none => if s.assignedTile (coreTile a.core) then .absent else .closed
  | some o =>
    let x := (s.core a.core).pen a.pen
    if Config.cores ≤ a.core || !s.present o a.core then .absent
    else if !x.ext then .closed
    else if x.msgs.length < 4 then .accepted else if x.fault then .fullFault else .fullBlock

/-- A message of another package is delivered, and answered by the port it came by. -/
def State.remoteMessage (s : State) (port src : Nat) (adr : Word) (m : List Word) : State :=
  let a := penAddrOf adr.toNat
  let r := s.remoteReply a
  let s := if r = .accepted then s.appendMsg a m else s
  s.post port (.reply src adr (penCode r))

/-- The answer to a message that a slot sends reaches the slot. -/
def State.messageAnswered (s : State) (n code : Nat) : State :=
  let x := s.slot n
  match x.park.wait, x.park.insn, x.park.vals with
  | some .penAnswer, some (.unlisted (.psend _ _ _ nb)), some vs =>
    if (penAddrOf (arg vs 0).toNat).pkg = s.pkg.toNat || !x.attempted then s
    else match (({ s with agent := n } : State).onMe Slot.attemptDone).psendReply nb (arg vs 0) (vs.drop 1) (penReplyOf code) with
      | .next t => { t with agent := s.agent }
      | _ => s
  | _, _, _ => s

/-- An atomic whose old bytes meet a memory error leaves its location unchanged (step 6 of R126 of spec/07). -/
def State.putGood (s : State) (pa n : Nat) (bs : List Byte) : State :=
  match s.badIn pa n with
  | some _ => s
  | none => s.write pa bs

/-- A RUPD of another package meets an uncorrectable error here, where its target is: an event of KIND 5 on queue 0 (R347 of
spec/23). Its flit gives neither the address as that package's thread formed it nor its ASID: the event names the address in this
package's memory and an ASID left open (log 27). -/
def State.updateError (s : State) (src pa code : Nat) : State :=
  let asid := Config.freeAsid src pa % 4096
  s.postEvent asid 5 0 (pa + code * 2 ^ 64 + asid * 2 ^ 86)

/-- A request of another package is performed at this one's home L2, and answered by the port it came by (R128 of spec/07, R339). One
beyond package HBM names no memory and gets no answer (log 27). -/
def State.serve (s : State) (port src : Nat) (r : Config.Request) : State :=
  let at_ := fun (pa len : Nat) (k : State) => if pa + len ≤ Config.hbmBytes then k else s
  match r with
  | .read pa len => at_ pa len (s.post port (.result src (s.outerBytes pa len)))
  | .write pa bs => at_ pa bs.length ((s.write pa bs).post port (.result src []))
  | .atomic op pa n v =>
    let old := s.outerBytes pa n
    at_ pa n ((s.putGood pa n (leBytes (amoNew op n (leNat old) v) n)).post port (.result src old))
  | .update op pa n v =>
    let new := leBytes (amoNew op n (leNat (s.outerBytes pa n)) v) n
    at_ pa n ((match s.badIn pa n with
      | some e => s.updateError src pa e.1
      | none => s.write pa new).post port (.result src []))
  | .cas pa n cmp new =>
    let old := s.outerBytes pa n
    at_ pa n ((if leNat old = cmp then s.putGood pa n (leBytes new n) else s).post port (.result src old))

/-- Remote writes are acknowledged: the oldest `n` that left by a port. -/
def State.writesAcked (s : State) (port n : Nat) : State := s.onPort port fun p => { p with writes := p.writes.drop (wholeWrites p.writes n) }

/-- A write of this package that left before a slot's request, by a port that is none of the request's, is not acknowledged at byte `a`:
the slot's own accesses take effect in program order (R106 of spec/06), so the request comes after it. -/
def State.goesFirst (s : State) (x : Slot) (a : Nat) : Bool :=
  s.ports.any fun e => !x.park.ports.contains e.1
    && e.2.writes.any fun w => decide (w.left ≤ x.park.since) && decide (w.pa ≤ a) && decide (a < w.pa + w.new.length)

/-- The byte a slot's request found at `a`, byte `i` of its place: that of the answer `bs`, and where the answer has none, or an earlier
write of this package goes first, what this package's writes have left there. -/
def State.foundAt (s : State) (x : Slot) (bs : List Byte) (a i : Nat) : Byte :=
  match bs[i]? with
  | some b => if s.goesFirst x a then memByte s.mem a else b
  | none => memByte s.mem a

/-- What the request found has been seen: a write of this package there that left before it stays performed, and a later one too where
the answer does not say what the request found. -/
def State.settleFound (s : State) (x : Slot) (p : Piece) (bs : List Byte) : State :=
  let told := decide (p.len ≤ bs.length) && !((List.range p.len).any fun i => s.goesFirst x (p.pa + i))
  { s with ports := s.ports.map fun e =>
      let k := if told then (e.2.writes.takeWhile fun w => decide (w.left ≤ x.park.since)).length else e.2.writes.length
      (e.1, { e.2 with writes := settleWrites [p] (e.2.writes.take k) ++ e.2.writes.drop k }) }

/-- One request of a slot has been performed in the other package's memory (R112 of spec/06): what it found, and the memory with what it
left, under what this package has written there since. A request that left before this one finds what stood there before. -/
def State.performed (s : State) (x : Slot) (r : Config.Request) (bs : List Byte) : State × List Host.Cell :=
  let p := reqPiece r
  let old := (List.range p.len).map fun i => s.foundAt x bs (p.pa + i) i
  let new := (reqLeaves old r).zipIdx.map fun e =>
    let a := p.pa + e.2
    if decide (e.2 < bs.length) && x.park.newer.any fun n => n.1 ≤ a && a < n.1 + n.2 then memByte s.mem a else e.1
  let t := s.settleFound x p bs
  let t := match r with
    | .read _ _ => t
    | _ => t.onAllSlots fun y => if y.park.since < x.park.since then y.overtaken p else y
  (t.store p.pa new, old.zipIdx.map fun e => (p.pa + e.2, e.1))

/-- All requests of a slot, each with its part of the answer. -/
def State.performAll (s : State) (x : Slot) : List Config.Request → List Byte → State × List Host.Cell
  | [], _ => (s, [])
  | r :: rs, bs =>
    let n := (reqPiece r).len
    let t := s.performed x r (bs.take n)
    let u := t.1.performAll x rs (bs.drop n)
    (u.1, t.2 ++ u.2)

/-- The answer of a request reaches a thread, with the data of a remote one; a package that cannot be reached answers nothing (R339), and
a request that waits behind a pause has not been made. -/
def State.answerArrives (s : State) (tid : Nat) (bs : List Byte) : State :=
  match s.findTid tid with
  | none => s
  | some x => match x.park.wait with
    | some (.answer _ _) =>
      if remoteDead x || x.park.behind || x.park.answered then s
      else
        let t := s.performAll x x.park.asked bs
        t.1.onTid tid fun y => { y with park := { y.park with answered := true, asked := [], data := t.2 } }
    | _ => s

/-- What a flit taken from a receive buffer does here: on virtual lane 0 a request, on lane 1 what a request of this package gave, on
lane 2 a message of four words to a pen, or the answer to one. The spec gives all but the message no layout (log 27). -/
def State.takeFlit (s : State) (port : Nat) (f : BitVec 2048) : State :=
  if flitField f 12 6 != s.pkg.toNat then s
  else match flitField f 10 2 with
    | 0 => match Config.flitRequest f with
      | some r => s.serve port (flitField f 18 6) r
      | none => s
    | 1 => match Config.flitResult f with
      | some (.data tid bs) => s.answerArrives tid bs
      | some (.acks n) => s.writesAcked port n
      | none => s
    | _ => match Config.flitAnswer f with
      | some e => s.messageAnswered e.1 e.2
      | none =>
        if flitField f 24 8 = 32 then
          s.remoteMessage port (flitField f 18 6) (BitVec.ofNat 64 (flitField f 64 64))
            ((List.range 4).map fun i => BitVec.ofNat 64 (flitField f (128 + 64 * i) 64))
        else s

/-- The receive buffers give up one flit of each lane in a cycle (log 27). -/
def State.drainLane (s : State) (port vl : Nat) : State :=
  match Table.val [] vl (s.port port).buf with
  | [] => s
  | f :: fs => (s.onPort port fun p => { p with buf := Table.put vl fs p.buf }).takeFlit port f

def State.drainPorts (s : State) : State :=
  (s.ports.map (·.1)).foldl (fun s p => (List.range 3).foldl (fun s vl => s.drainLane p vl) s) s

/-- A flit in sequence is accepted and acknowledged: one of lane 3 acts on the port, another goes to its lane's buffer; past 48
flits the port pauses the lane, for a time of its choice (log 3). -/
def State.acceptFlit (s : State) (port : Nat) (flit : BitVec 2048) (seq : BitVec 32) : State :=
  let vl := flitField flit 10 2
  let s := s.onPort port fun p => ({ p with rxSeq := p.rxSeq + 1 } : Port).emit s.clock (.ack seq)
  if vl = 3 then s.control port flit
  else
    let b := Table.val [] vl (s.port port).buf ++ [flit]
    let s := s.onPort port fun p => { p with buf := Table.put vl b p.buf }
    if 48 < b.length then
      let r := s.pick 256
      r.2.onPort port fun p => p.emit s.clock (.pause vl (r.1 + 1))
    else s

/-- FLIT_RECEIVED: a bad CRC, a flit out of sequence, or one that a full buffer has no room for is NAKed, one accepted before
is discarded, and the next in sequence is accepted. -/
def execFlitReceived (port : Nat) (flit : BitVec 2048) (s : State) : Out :=
  let p := s.port port
  let seq : BitVec 32 := BitVec.ofNat 32 (flitField flit 32 32)
  let nak := s.onPort port fun p => p.emit s.clock (.nak p.rxSeq)
  .next (if p.state != .up then s
    else if !flitCrcOk flit then nak
    else if seq = p.rxSeq then
      if 64 ≤ (Table.val [] (flitField flit 10 2) p.buf).length then nak else s.acceptFlit port flit seq
    else if (p.rxSeq - seq).toNat < 2 ^ 31 then s
    else nak)

/-- PAUSE_EXPIRES: the lane may send again. -/
def execPauseExpires (port vl : Nat) (s : State) : Out :=
  .next (if Table.val s.clock vl (s.port port).pause ≤ s.clock
    then (s.onPort port fun p => { p with pause := Table.del vl p.pause }).laneOpens port vl else s)

end Sys2Proof.Machine
end

