-- ==== Sys2Proof/Machine/Slots.lean ====
section
/-! DEFINITION. What happens to a slot between instructions: waking, answers, pending traps (R30 and R39 of spec/02, R345 of
spec/23). -/

namespace Sys2Proof.Machine

open Sys2Proof

/-- PARKED_SLOT_WAKES: the condition holds, and the held instruction goes on in the slot's turn. -/
def execParkedSlotWakes (slot : Nat) (s : State) : Out :=
  let x := s.slot slot
  .next (match x.status, x.park.wait with
    | .parked, some w => if s.waitHolds slot w then s.setSlot slot { x with status := .running } else s
    | .parked, none => s.setSlot slot { x with status := .running }
    | _, _ => s)

/-- An outstanding request of the kinds that can come back as an error. -/
def anyOutside (_ : State) (x : Slot) (h : Home) : Bool := (h == .host || h == .remote) && !x.park.behind

/-- MEMORY_ANSWER_ARRIVES for a thread, live or saved: its instruction completes with the answer, or takes 0x10C. A package
that cannot be reached answers nothing (R339 of spec/22). -/
def execMemoryAnswerArrives (tid : Nat) (failed : Bool) (s : State) : Out :=
  .next (if failed then s.failRequest tid anyOutside
    else s.answerArrives tid [])

/-- The instruction goes on although a trap is pending: its request has left (R39 of spec/02; a vector load's too, log 85), or its
vote has agreed and it has not yet gone on (R273 of spec/17), or goes on when its remote writes have left. -/
def Slot.bound (x : Slot) : Bool :=
  (x.park.left && x.park.insn.isSome) || (x.park.voted && (x.park.wait == none || x.park.wait == some .writesLeave))

/-- A slot whose instruction a cancel cannot abandon: it is bound, or waits for a bellwether that is. -/
def State.bound (s : State) (x : Slot) : Bool :=
  x.bound || (x.park.wait == some .bellwether && (s.twins x).any Slot.bound)

/-- The instruction at the slot's PC has taken effect, or its answer found a cancel waiting (R39 of spec/02), and only its result waits:
the slot stands at no instruction boundary until the instruction has completed (DESIGN CHOICE, log 106). -/
def Slot.owes (x : Slot) : Bool :=
  x.park.out.any (·.done) || x.kept.any fun k => k.level == x.level && k.pc == x.pc && k.out.any (·.done)

/-- A pending trap is eligible (R345); a replica that waits for its bellwether's result stays parked until it arrives (R272 of
spec/17), but for a cancel, which reaches every replica. -/
def State.trapDue (s : State) (n : Nat) : Bool :=
  let x := s.slot n
  (x.status == .running || x.status == .parked) && !x.inHandler && !s.bound x && !x.owes
    && (x.cpend || (!x.pend.isEmpty && x.park.wait != some .bellwether))

/-- TAKE_PENDING_TRAP: the cancel trap first, else the oldest deferred or notice trap. -/
def execTakePendingTrap (slot : Nat) (s : State) : Out :=
  let x := s.slot slot
  .next (if !s.trapDue slot then s
    else if x.cpend then
      -- a cancel discards the kept values together with the instruction (R438 of spec/02)
      (s.setSlot slot { x with cpend := false, kept := [], park := {} }).trapSlot slot 0x3C1 x.pc 0 true
    else match x.pend with
      | [] => s
      | e :: es => (s.setSlot slot { x with pend := es }).trapSlot slot e.1 x.pc e.2 true)

end Sys2Proof.Machine
end

