-- ==== Sys2Proof/Machine/TestPort.lean ====
section
/-! DEFINITION. The freeze and the test port (R349 to R351 of spec/23). -/

namespace Sys2Proof.Machine

open Sys2Proof

/-- FREEZE_N: the pin freezes the package terminally. -/
def execFreezeN (s : State) : Out := .next (s.freezeBy false 1)

/-- Load the test port's instruction register and its data register. -/
def State.tapRead (s : State) (ir : BitVec 8) (dr : Word) : Out := .next { s with tap := { s.tap with ir := ir, dr := dr } }

/-- IDCODE. -/
def execIdcode (s : State) : Out := s.tapRead 0x01 0x0A5D0C13

/-- FRZ. -/
def execFrz (resumable : Bool) (s : State) : Out := (s.freezeBy resumable 2).tapRead 0x20 (BitVec.ofNat 64 (bit resumable 0))

/-- RESUME: a resumable freeze ends, and the Margon ports enter Retrain (R350). A node that waited for a write which the freeze
has ended completes. -/
def State.resumed (s : State) : State :=
  match s.freeze with
  | .on true _ =>
    ({ s with freeze := .off, ports := (List.range 12).map fun p => (p, { s.port p with state := .retrain }) }
      : State).releaseNodes
  | .on false _ | .off => s

def execResume (s : State) : Out := s.resumed.tapRead 0x21 s.tap.dr

/-- JTAG_SEL: the selection starts at its first word. -/
def execJtagSel (sel : BitVec 64) (s : State) : Out :=
  .next { s with tap := { s.tap with ir := 0x22, sel := sel, index := 0, dr := sel } }

def statusCode : Status → Nat
  | .free => 0 | .running => 1 | .parked => 2 | .halted => 3

/-- Word `i` of a slot's image. -/
def State.imageWord (s : State) (n i : Nat) : Word :=
  let x := s.slot n
  if i < 32 then x.reg i
  else if i = 32 then s.controlWord n 0x209
  else if i = 33 then (x.p ||| 1#16).setWidth 64
  else if i = 34 then x.pc
  else if i = 35 then BitVec.ofNat 64 (statusCode x.status + bit x.trap.inh 2 + bit x.sup.sinh 3)
  else if i < 292 then ((x.vreg ((i - 36) / 16)) >>> (64 * ((i - 36) % 16))).setWidth 64
  else if i < 300 then ((x.kreg ((i - 292) / 2)) >>> (64 * ((i - 292) % 2))).setWidth 64
  else if i < 306 then s.controlWord n ([0x100, 0x101, 0x102, 0x103, 0x104, 0x105].getD (i - 300) 0)
  else if i < 310 then s.controlWord n ([0x505, 0x506, 0x507, 0x508].getD (i - 306) 0)
  else if i < 322 then s.controlWord n (0x200 + (i - 310))
  else if i < 325 then s.controlWord n (0x400 + (i - 322))
  else 0

/-- RDST: each capture reads the next word of the selection while the package is frozen, and zero otherwise; a physical
address beyond package HBM is the fault noMemory. -/
def execRdst (s : State) : Out :=
  let kind := bitsAt s.tap.sel.toNat 60 4
  let at_ := bitsAt s.tap.sel.toNat 0 60
  let give := fun (v : Word) => Host.Outcome.next { s with tap := { s.tap with ir := 0x23, index := s.tap.index + 1, dr := v } }
  if s.freeze = .off then s.tapRead 0x23 0
  else if kind = 0 && at_ < Config.slots then give (s.imageWord at_ s.tap.index)
  else if kind = 1 && at_ % 8 = 0 then
    let a := at_ + 8 * s.tap.index
    if Config.hbmBytes < a + 8 then .fault .noMemory else give (BitVec.ofNat 64 (leNat (s.supBytes a 8)))
  else give (Config.freeWord s.tap.sel s.tap.index)

/-- STAT. -/
def execStat (s : State) : Out :=
  s.tapRead 0x24 (match s.freeze with
    | .off => 0
    | .on r src => BitVec.ofNat 64 (1 + bit r 1 + src.toNat * 4))

/-- BYPASS: the one-bit register holds the bit shifted in. -/
def execBypass (tdi : Bool) (s : State) : Out := s.tapRead 0xFF (BitVec.ofNat 64 (bit tdi 0))

end Sys2Proof.Machine
end

