-- ==== Sys2Proof/Machine/Vector.lean ====
section
/-! DEFINITION. Vector arithmetic, compares, conversions, reductions, moves, masks, decode tables and block quantisation
(R384 to R400 of spec/08). -/

namespace Sys2Proof.Machine

open Sys2Proof

/-! ## Elements and masks (R130, R132) -/

/-- Element `i` of width `w`. -/
def elemAt (w i : Nat) (v : BitVec 1024) : Nat := bitsAt v.toNat (w * i) w

def packNat (w : Nat) : List Nat → Nat
  | [] => 0
  | x :: l => x % 2 ^ w + 2 ^ w * packNat w l

/-- A register from its elements, element 0 first. -/
def packElems (w : Nat) (l : List Nat) : BitVec 1024 := BitVec.ofNat 1024 (packNat w l)

/-- The mask bit of element `i` (R130). -/
def maskIx (t : ElemType) (i : Nat) : Nat := if t == .mxfp4 then i / 2 else i

/-- Is element `i` enabled? -/
def elemOn (c : VCtl) (x : Slot) (i : Nat) : Bool :=
  match c.mask with
  | none => true
  | some k => (x.kreg k.val).getLsbD (maskIx c.ty i)

/-- The destination: enabled elements from `f`, the others kept or set to the zero code, which is 0 (R88 of spec/04). -/
def vmap (on : Nat → Bool) (zm : Bool) (w : Nat) (old : BitVec 1024) (f : Nat → Nat) : BitVec 1024 :=
  packElems w ((List.range (1024 / w)).map fun i => if on i then f i else if zm then 0 else elemAt w i old)

/-- C's general operand, if it names one. -/
def vsrcs : VSrc → List Src
  | .v _ => []
  | .g s => [s]

/-- Element `i` of C: of the register, or the broadcast low bits. -/
def vsrcAt (c : VSrc) (vs : List Word) (x : Slot) (w i : Nat) : Nat :=
  match c with
  | .v n => elemAt w i (x.vreg n.val)
  | .g _ => (arg vs 0).toNat % 2 ^ w

/-- Write V[A], advance the SR counter by the results' draws, and complete. -/
def State.vdone (s : State) (a : Fin 16) (v : BitVec 1024) (mode : RoundMode) (results : Nat) : Out :=
  (s.onMe fun x => { x.setV a.val v with srCtr := x.srCtr + drawsFor mode results }).done

/-- The draw of result `i`, 0 outside SR. -/
def elemDraw (c : VCtl) (x : Slot) (i : Nat) : Nat := if c.rm = .sr then x.draw i else 0

/-! ## Arithmetic (R384, R135) -/

/-- Integer operations before narrowing. -/
def VArith.int (op : VArith) (x y a : Int) : Int :=
  match op with
  | .add => x + y
  | .sub => x - y
  | .mul => x * y
  | .fma => a + x * y
  | .min => if y < x then y else x
  | .max => if x < y then y else x

/-- A subnormal W19 multiplicand counts as zero of its sign (R69 of spec/04). -/
def flushW19 (t : ElemType) (bits : Nat) (v : FVal) : FVal :=
  if t == .w19 && bits / 2 ^ 23 % 256 = 0 then (match v with | .fin s _ _ => .fin s 0 0 | v => v) else v

/-- Floating-point operations, exact; the last argument is VFMA's addend. -/
def VArith.float (op : VArith) (mode : RoundMode) (x y a : FVal) : FVal :=
  match op with
  | .add => x.add mode y
  | .sub => x.add mode y.neg
  | .mul => x.mul y
  | .fma => a.add mode (x.mul y)
  | .min => x.min y
  | .max => x.max y

/-- One element of R384. -/
def varithElem (op : VArith) (t : ElemType) (mode : RoundMode) (sat u : Bool) (draw x y a : Nat) : Nat :=
  let w := t.width
  if t.isInt then
    let v := VArith.int op (intOf u w x) (intOf u w y) (intOf u w a)
    wrapInt w (if sat then clampInt (intLo u w) (intHi u w) v else v)
  else
    let f := t.ffmt
    let fl := fun (b : Nat) => if op == .mul || op == .fma then flushW19 t b (f.decode b) else f.decode b
    f.round mode draw (VArith.float op mode (fl x) (fl y) (f.decode a))

def execVarith (op : VArith) (c : VCtl) (sat u : Bool) (a b : Fin 16) (src : VSrc) (s : State) : Out :=
  s.guarded c.gd fun s => s.operands (vsrcs src) [] fun vs s =>
    let x := s.me
    let w := c.ty.width
    s.vdone a (vmap (elemOn c x) c.zm w (x.vreg a.val) fun i =>
      varithElem op c.ty c.rm sat u (elemDraw c x i) (elemAt w i (x.vreg b.val)) (vsrcAt src vs x w i)
        (elemAt w i (x.vreg a.val))) c.rm c.ty.count

/-! ## Bitwise and shift (R385) -/

def natBits (op : BitOp) (w x y : Nat) : Nat :=
  match op with
  | .and => x &&& y
  | .or => x ||| y
  | .xor => x ^^^ y
  | .andn => x &&& (y ^^^ (2 ^ w - 1))

def execVlogic (op : BitOp) (c : VCtl) (a b : Fin 16) (src : VSrc) (s : State) : Out :=
  s.guarded c.gd fun s => s.operands (vsrcs src) [] fun vs s =>
    let x := s.me
    let w := c.ty.width
    s.vdone a (vmap (elemOn c x) c.zm w (x.vreg a.val) fun i =>
      natBits op w (elemAt w i (x.vreg b.val)) (vsrcAt src vs x w i)) .rne 0

/-- A `w`-bit shift by y mod w. -/
def shiftElem (k : ShiftKind) (w x y : Nat) : Nat :=
  let v := BitVec.ofNat w x
  let n := y % w
  (match k with
  | .shl => v <<< n
  | .shr => v >>> n
  | .sar => v.sshiftRight n
  | .ror => v.rotateRight n).toNat

def execVsh (k : ShiftKind) (c : VCtl) (a b : Fin 16) (src : VSrc) (s : State) : Out :=
  s.guarded c.gd fun s => s.operands (vsrcs src) [] fun vs s =>
    let x := s.me
    let w := c.ty.width
    s.vdone a (vmap (elemOn c x) c.zm w (x.vreg a.val) fun i =>
      shiftElem k w (elemAt w i (x.vreg b.val)) (vsrcAt src vs x w i)) .rne 0

/-! ## Compare, select and masks (R386 to R388) -/

def condInt (cc : VCond) (x y : Int) : Bool :=
  match cc with
  | .eq => x == y
  | .ne => x != y
  | .lt => decide (x < y)
  | .le => decide (x ≤ y)
  | .gt => decide (y < x)
  | .ge => decide (y ≤ x)
  | .unord => false

def condFloat (cc : VCond) (x y : FVal) : Bool :=
  let un := x.isNan || y.isNan
  match cc with
  | .eq => !un && !x.lt y && !y.lt x
  | .ne => un || x.lt y || y.lt x
  | .lt => x.lt y
  | .le => x.le y
  | .gt => y.lt x
  | .ge => y.le x
  | .unord => un

def vcmpElem (cc : VCond) (t : ElemType) (u : Bool) (x y : Nat) : Bool :=
  if t.isInt then condInt cc (intOf u t.width x) (intOf u t.width y) else condFloat cc (t.ffmt.decode x) (t.ffmt.decode y)

/-- A mask from its bits, bit 0 first. -/
def packMask (l : List Bool) : BitVec 128 := BitVec.ofNat 128 (packNat 1 (l.map fun b => if b then 1 else 0))

def execVcmp (cc : VCond) (u : Bool) (c : VCtl) (a : Fin 4) (b : Fin 16) (src : VSrc) (s : State) : Out :=
  s.guarded c.gd fun s => s.operands (vsrcs src) [] fun vs s =>
    let x := s.me
    let w := c.ty.width
    let k := packMask ((List.range c.ty.count).map fun i =>
      if elemOn c x i then vcmpElem cc c.ty u (elemAt w i (x.vreg b.val)) (vsrcAt src vs x w i)
      else !c.zm && (x.kreg a.val).getLsbD i)
    (s.onMe (·.setK a.val k)).done

def execVsel (c : VCtl) (a b d : Fin 16) (s : State) : Out :=
  s.guarded c.gd fun s =>
    let x := s.me
    let w := c.ty.width
    s.vdone a (vmap (fun _ => true) false w 0 fun i =>
      if elemOn c x i then elemAt w i (x.vreg b.val) else elemAt w i (x.vreg d.val)) .rne 0

def maskOp (op : BitOp) (x y : BitVec 128) : BitVec 128 :=
  match op with
  | .and => x &&& y
  | .or => x ||| y
  | .xor => x ^^^ y
  | .andn => x &&& ~~~y

def execVmaskOp (gd : Guard) (op : BitOp) (a b c : Fin 4) (s : State) : Out :=
  s.guarded gd fun s => (s.onMe fun x => x.setK a.val (maskOp op (x.kreg b.val) (x.kreg c.val))).done

def execVmaskNot (gd : Guard) (a b : Fin 4) (s : State) : Out :=
  s.guarded gd fun s => (s.onMe fun x => x.setK a.val (~~~(x.kreg b.val))).done

/-- One half of a mask replaced. -/
def putHalf (h : Bool) (k : BitVec 128) (v : Word) : BitVec 128 :=
  if h then v ++ k.setWidth 64 else (k >>> 64).setWidth 64 ++ v

def execVmaskPut (gd : Guard) (h : Bool) (a : Fin 4) (b : Src) (s : State) : Out :=
  s.guarded gd fun s => s.operands [b] [] fun vs s =>
    (s.onMe fun x => x.setK a.val (putHalf h (x.kreg a.val) (arg vs 0))).done

def execVmaskGet (gd : Guard) (h : Bool) (a : Opnd) (b : Fin 4) (s : State) : Out :=
  s.guarded gd fun s => s.operands [] [a] fun _ s =>
    let k := s.me.kreg b.val
    s.finish a ((if h then k >>> 64 else k).setWidth 64)

def execVmaskPopc (gd : Guard) (ty : ElemType) (a : Opnd) (b : Fin 4) (s : State) : Out :=
  s.guarded gd fun s => s.operands [] [a] fun _ s =>
    let k := s.me.kreg b.val
    s.finish a (BitVec.ofNat 64 ((List.range ty.count).filter fun i => k.getLsbD (maskIx ty i)).length)

/-! ## Conversion (R389) -/

/-- An element of a source that may be MXFP4, its scale byte taken from a general operand (R80 of spec/04). -/
def sourceValue (t : ElemType) (unsigned : Bool) (tab : CodeTable) (scales : Word) (v : BitVec 1024) (j : Nat) : FVal :=
  match t with
  | .mxfp4 => mxValue (bitsAt scales.toNat (8 * (j / 32)) 8) (elemAt 4 j v)
  | _ => elemValue t unsigned tab (elemAt t.width j v)

/-- Which source element destination element `i` takes, if the part selects it. -/
def cvtSrc (ns nd p i : Nat) : Option Nat :=
  if nd ≤ ns then some (p * nd + i) else if p * ns ≤ i && i < p * ns + ns then some (i - p * ns) else none

/-- Encoding into C8 through an unordered table (R78 of spec/04), where something is encoded. -/
def State.c8Trap (s : State) (t : ElemType) (tab : CodeTable) (some_ : Bool) (k : State → Out) : Out :=
  if some_ && t == .c8 && !tab.ordered then s.trap 0x1C1 0 else k s

/-- Some destination element of a conversion is selected and enabled: excluded elements raise no fault (R132). -/
def cvtAny (c : VCtl) (ns p : Nat) (x : Slot) : Bool :=
  (List.range c.ty.count).any fun i => (cvtSrc ns c.ty.count p i).isSome && elemOn c x i

def execVcvt (c : VCtl) (src : ElemType) (part : Fin 16) (us ud : Bool) (a b : Fin 16) (scales : Option Src)
    (s : State) : Out :=
  s.guarded c.gd fun s => s.operands scales.toList [] fun vs s =>
    let tab := s.myCore.tableOf c.tsel.val
    s.c8Trap c.ty tab (cvtAny c src.count part.val s.me) fun s =>
      let x := s.me
      let w := c.ty.width
      let old := x.vreg a.val
      s.vdone a (packElems w ((List.range c.ty.count).map fun i =>
        match cvtSrc src.count c.ty.count part.val i with
        | none => elemAt w i old
        | some j =>
          if elemOn c x i then
            toElem c.ty ud tab c.rm (elemDraw c x i) (sourceValue src us tab (arg vs 0) (x.vreg b.val) j)
          else if c.zm then 0 else elemAt w i old)) c.rm c.ty.count

/-! ## Reduction and scan (R390, R391; R85 and R86 of spec/04) -/

/-- One level of the tree; `comb` gets the number of its node, counted from `j`. -/
def redLevel {α : Type} (comb : Nat → α → α → α) : Nat → List α → List α
  | j, x :: y :: l => comb j x y :: redLevel comb (j + 1) l
  | _, l => l

/-- All levels above the elements, the first first; nodes are numbered level by level. -/
def redLevels {α : Type} (comb : Nat → α → α → α) : Nat → Nat → List α → List (List α)
  | 0, _, _ => []
  | n + 1, j, l =>
    let up := redLevel comb j l
    up :: redLevels comb n (j + up.length) up

/-- The root over 2^`n` elements. -/
def redRoot {α : Type} (comb : Nat → α → α → α) (n : Nat) (d : α) (l : List α) : α :=
  ((redLevels comb n 0 l).getLastD l).headD d

/-- Position `i`'s scan value: the left fold of its aligned blocks, largest first (R86). -/
def scanFold {α : Type} (comb : α → α → α) (d : α) (levels : List (List α)) : Nat → Nat → Nat → Option α → Option α
  | 0, _, _, acc => acc
  | n + 1, m, pos, acc =>
    -- bit n of m, the number of positions
    if m / 2 ^ n % 2 = 1 then
      let v := (levels.getD n []).getD (pos / 2 ^ n) d
      scanFold comb d levels n m (pos + 2 ^ n) (some (match acc with | none => v | some a => comb a v))
    else scanFold comb d levels n m pos acc

/-- Nodes of integer types wrap (R85). -/
def redInt (op : RedOp) (u : Bool) (w : Nat) (x y : Nat) : Nat :=
  match op with
  | .sum => (x + y) % 2 ^ w
  | .min => if intOf u w y < intOf u w x then y else x
  | .max => if intOf u w x < intOf u w y then y else x

def redIntId (op : RedOp) (u : Bool) (w : Nat) : Nat :=
  match op with
  | .sum => 0
  | .min => wrapInt w (intHi u w)
  | .max => wrapInt w (intLo u w)

/-- Nodes of floating-point types are rounded to FP32 (R85); minima and maxima are exact, and rounding leaves them. -/
def redFloat (op : RedOp) (mode : RoundMode) (draw : Nat) (x y : FVal) : FVal :=
  match op with
  | .sum => fp32.decode (fp32.round mode draw (x.add mode y))
  | .min => x.min y
  | .max => x.max y

def redFloatId : RedOp → FVal
  | .sum => .fin true 0 0
  | .min => .inf false
  | .max => .inf true

/-- The elements as integers, excluded positions as the identity. -/
def redInts (op : RedOp) (u : Bool) (c : VCtl) (x : Slot) (v : BitVec 1024) : List Nat :=
  (List.range c.ty.count).map fun i => if elemOn c x i then elemAt c.ty.width i v else redIntId op u c.ty.width

/-- The elements widened to FP32 (R85), excluded positions as the identity. -/
def redFloats (op : RedOp) (c : VCtl) (x : Slot) (tab : CodeTable) (scales : Word) (v : BitVec 1024) : List FVal :=
  (List.range c.ty.count).map fun i =>
    if elemOn c x i then
      let y := sourceValue c.ty false tab scales v i
      if c.ty == .mxfp4 then fp32.decode (fp32.round .rne 0 y) else y
    else redFloatId op

/-- VRED: every node of a floating-point reduction is rounded, and takes its draw under SR, exact or not (R85, R72). -/
def execVred (op : RedOp) (u : Bool) (c : VCtl) (a b : Fin 16) (scales : Option Src) (s : State) : Out :=
  s.guarded c.gd fun s => s.operands scales.toList [] fun vs s =>
    let x := s.me
    let v := x.vreg b.val
    let n := Nat.log2 c.ty.count
    if c.ty.isInt then
      s.vdone a (BitVec.ofNat 1024 (redRoot (fun _ => redInt op u c.ty.width) n 0 (redInts op u c x v))) .rne 0
    else
      let r := redRoot (fun j => redFloat op c.rm (elemDraw c x j)) n .zero
        (redFloats op c x (s.myCore.tableOf c.tsel.val) (arg vs 0) v)
      s.vdone a (BitVec.ofNat 1024 (fp32.round .rne 0 r)) c.rm (c.ty.count - 1)

def execVscan (op : RedOp) (u : Bool) (c : VCtl) (a b : Fin 16) (s : State) : Out :=
  s.guarded c.gd fun s =>
    let x := s.me
    let v := x.vreg b.val
    let w := c.ty.width
    let n := Nat.log2 c.ty.count
    if c.ty.isInt then
      let els := redInts op u c x v
      let f := redInt op u w
      let lv := els :: redLevels (fun _ => f) n 0 els
      s.vdone a (packElems w ((List.range c.ty.count).map fun i => (scanFold f 0 lv (n + 1) (i + 1) 0 none).getD 0)) .rne 0
    else
      let els := redFloats op c x (preset 0) 0 v
      let f := redFloat op c.rm 0
      let lv := els :: redLevels (fun _ => f) n 0 els
      s.vdone a (packElems w ((List.range c.ty.count).map fun i =>
        c.ty.ffmt.round c.rm 0 ((scanFold f .zero lv (n + 1) (i + 1) 0 none).getD .zero))) .rne 0

/-! ## Permute, compaction and moves (R392 to R396) -/

def execVperm (c : VCtl) (a b : Fin 16) (src : VSrc) (s : State) : Out :=
  s.guarded c.gd fun s => s.operands (vsrcs src) [] fun vs s =>
    let x := s.me
    let w := c.ty.width
    s.vdone a (vmap (elemOn c x) c.zm w (x.vreg a.val) fun i =>
      let j := vsrcAt src vs x w i
      if j < c.ty.count then elemAt w j (x.vreg b.val) else 0) .rne 0

def execVcomp (c : VCtl) (a b : Fin 16) (d : Opnd) (s : State) : Out :=
  s.guarded c.gd fun s => s.operands [] [d] fun _ s =>
    let x := s.me
    let w := c.ty.width
    let l := ((List.range c.ty.count).filter (elemOn c x)).map fun i => elemAt w i (x.vreg b.val)
    let v := vmap (fun i => decide (i < l.length)) c.zm w (x.vreg a.val) fun i => l.getD i 0
    s.roomFor [d] fun s => (s.onMe (·.setV a.val v)).finish d (BitVec.ofNat 64 l.length)

def execVbcast (c : VCtl) (a : Fin 16) (b : Src) (s : State) : Out :=
  s.guarded c.gd fun s => s.operands [b] [] fun vs s =>
    let x := s.me
    s.vdone a (vmap (elemOn c x) c.zm c.ty.width (x.vreg a.val) fun _ => (arg vs 0).toNat) .rne 0

def execVmovg (c : VCtl) (sx : Bool) (a : Opnd) (b : Fin 16) (idx : Fin 128) (s : State) : Out :=
  s.guarded c.gd fun s => s.operands [] [a] fun _ s =>
    s.finish a (BitVec.ofInt 64 (intOf (!sx) c.ty.width (elemAt c.ty.width idx.val (s.me.vreg b.val))))

def execViota (c : VCtl) (a : Fin 16) (b : Src) (step : BitVec 8) (s : State) : Out :=
  s.guarded c.gd fun s => s.operands [b] [] fun vs s =>
    let x := s.me
    s.vdone a (vmap (elemOn c x) c.zm c.ty.width (x.vreg a.val) fun i =>
      (arg vs 0 + BitVec.ofNat 64 i * sextWord step).toNat) .rne 0

def execViotaCnt (c : VCtl) (a : Fin 16) (b : Src) (s : State) : Out :=
  s.guarded c.gd fun s => s.operands [b] [] fun vs s =>
    let x := s.me
    s.vdone a (vmap (elemOn c x) c.zm c.ty.width (x.vreg a.val) fun i =>
      (arg vs 0).toNat + ((List.range i).filter (elemOn c x)).length) .rne 0

/-- VCLIP of one integer element. -/
def clipInt (u : Bool) (w : Nat) (b : Word) (x : Nat) : Nat :=
  let lo := intOf u 32 b.toNat
  let hi := intOf u 32 (b.toNat / 2 ^ 32)
  let v := intOf u w x
  let r := if v < lo then lo else v
  let r := if hi < r then hi else r
  wrapInt w (clampInt (intLo u w) (intHi u w) r)

/-- VCLIP of one floating-point element. -/
def clipFloat (f : FFmt) (mode : RoundMode) (draw : Nat) (b : Word) (x : Nat) : Nat :=
  let lo := fp32.decode (b.toNat % 2 ^ 32)
  let hi := fp32.decode (b.toNat / 2 ^ 32)
  let v := f.decode x
  let r := if v.lt lo then lo else v
  let r := if hi.lt r then hi else r
  f.round mode draw (if v.isNan then .nan else r)

def execVclip (u : Bool) (c : VCtl) (a b : Fin 16) (g : Src) (s : State) : Out :=
  s.guarded c.gd fun s => s.operands [g] [] fun vs s =>
    let x := s.me
    let w := c.ty.width
    s.vdone a (vmap (elemOn c x) c.zm w (x.vreg a.val) fun i =>
      let e := elemAt w i (x.vreg b.val)
      if c.ty.isInt then clipInt u w (arg vs 0) e else clipFloat c.ty.ffmt c.rm (elemDraw c x i) (arg vs 0) e)
      c.rm c.ty.count

/-! ## Approximations (R397) -/

def execVapprox (fn : ApproxFn) (c : VCtl) (a b : Fin 16) (s : State) : Out :=
  s.guarded c.gd fun s =>
    let x := s.me
    let w := c.ty.width
    let f := c.ty.ffmt
    s.vdone a (vmap (elemOn c x) c.zm w (x.vreg a.val) fun i =>
      f.round c.rm (elemDraw c x i) (approx fn (f.decode (elemAt w i (x.vreg b.val))))) c.rm c.ty.count

/-! ## Decode tables (R399) and block quantisation (R400) -/

def execVtblQ (gd : Guard) (q : Fin 4) (b : Fin 16) (s : State) : Out :=
  s.guarded gd fun s =>
    let t := s.myCore.table
    let v := s.me.vreg b.val
    let es := (List.range 128).map fun m =>
      if m / 32 = q.val then BitVec.ofNat 32 (elemAt 32 (m % 32) v / 2 ^ 13 * 2 ^ 13) else t.t.getD m 0
    (s.onMyCore fun c => { c with code := some { t with t := es } }).done

def execVtblPre (gd : Guard) (p : Fin 4) (s : State) : Out :=
  s.guarded gd fun s => (s.onMyCore fun c => { c with code := some (preset p.val) }).done

def execVtblNan (gd : Guard) (n : Fin 128) (s : State) : Out :=
  s.guarded gd fun s => (s.onMyCore fun c => { c with code := some { c.table with nan := n.val } }).done

/-- Replace byte `i` of a word. -/
def putByte (v : Word) (i b : Nat) : Word :=
  BitVec.ofNat 64 (v.toNat - bitsAt v.toNat (8 * i) 8 * 2 ^ (8 * i) + b % 256 * 2 ^ (8 * i))

def execVmxs (c : VCtl) (src : ElemType) (part : Fin 16) (a b : Fin 16) (g : Fin 32) (sync : Bool) (s : State) : Out :=
  s.guarded c.gd fun s => s.operands [⟨.g g, sync⟩] [] fun vs s =>
    let tab := s.myCore.tableOf c.tsel.val
    s.c8Trap c.ty tab true fun s =>
      let x := s.me
      let w := c.ty.width
      let ns := src.count
      let base := part.val * ns
      let sc : VCtl := { c with ty := src }
      let blocks := (List.range (ns / 32)).map fun k =>
        quantise (if c.ty == .c8 then some tab else none) c.rm (fun j => elemDraw c x (base + 32 * k + j))
          ((List.range 32).map fun j =>
            let i := 32 * k + j
            if elemOn sc x i then some (elemValue src false tab (elemAt src.width i (x.vreg b.val))) else none)
      let codes := blocks.flatMap (·.2)
      let v := vmap (fun i => decide (base ≤ i) && decide (i < base + ns)) false w (x.vreg a.val) fun i =>
        codes.getD (i - base) 0
      let scales := blocks.zipIdx.foldl (fun v p => putByte v (part.val * (ns / 32) + p.2) p.1.1) (arg vs 0)
      (s.onMe fun x => x.setReg g.val scales).vdone a v c.rm c.ty.count

end Sys2Proof.Machine
end

