-- ==== Sys2Proof/Machine/VectorMemory.lean ====
section
/-! DEFINITION. Vector loads and stores, gathers and scatters (R398, R136, R152 of spec/08). -/

namespace Sys2Proof.Machine

open Sys2Proof

/-! ## The bytes of a vector access -/

/-- One enabled element (an MXFP4 pair): its number, address and bytes. -/
structure VElem where
  ix : Nat
  va : Word
  len : Nat
  deriving DecidableEq, Repr

/-- Bytes of an element; a pair of MXFP4 elements is one. -/
def elemBytes (t : ElemType) : Nat := Nat.max 1 (t.width / 8)

/-- The enabled elements of a contiguous access, ascending. -/
def vectorElems (c : VCtl) (x : Slot) (ea : Word) : List VElem :=
  let b := elemBytes c.ty
  let on := fun i => match c.mask with | none => true | some k => (x.kreg k.val).getLsbD i
  ((List.range (128 / b)).filter on).map fun i => ⟨i, ea + BitVec.ofNat 64 (i * b), b⟩

/-- Step 2 of R126 of spec/07 over all bytes: the first window error (R92, R95 of spec/05). -/
def State.vwindow (s : State) : List VElem → Option (Nat × Word)
  | [] => none
  | e :: es => match s.place s.myCoreNum (s.asidOf s.agent) e.va e.len with
    | .bad c => some (c, e.va)
    | .ok _ .format => some (0x102, e.va)
    | _ => s.vwindow es

/-- An access with the element it belongs to. -/
abbrev Placed := VElem × List Piece

/-- Step 3 over all elements: their pieces, or the first trap or walk. -/
def State.vpieces (s : State) (n : Need) : List VElem → Except (Option Nat × Word) (List Placed)
  | [] => .ok []
  | e :: es => match s.access s.agent e.va e.len n with
    | .trap c a => .error (some c, a)
    | .walk a => .error (none, a)
    | .ok ps => match s.vpieces n es with
      | .ok l => .ok ((e, ps) :: l)
      | .error x => .error x

/-- Steps 1 to 3 for a vector load or store. -/
def State.vchecked (s : State) (c : VCtl) (ea : Word) (r w : Bool) (k : List Placed → Out) : Out :=
  if ea.toNat % elemBytes c.ty != 0 then s.trap 0x141 ea
  else
    let es := vectorElems c s.me ea
    match s.vwindow es with
    | some (code, a) => s.trap code a
    | none => match s.vpieces (s.need r w) es with
      | .ok l => k l
      | .error (some code, a) => s.trap code a
      | .error (none, a) => s.parkWalk a

/-- The first memory error of the elements read. -/
def State.vbad (s : State) : List Placed → Option (Nat × Word)
  | [] => none
  | p :: l => match s.badPieces p.2 with
    | some e => some (e.1, p.1.va)
    | none => s.vbad l

/-- The address of R398. -/
def vectorAddr (b c : Word) (ss : Fin 4) (disp : BitVec 12) : Word :=
  b + c * BitVec.ofNat 64 ([1, 16, 128, 1024].getD ss.val 1) + sextWord disp * 16

/-- Byte `i` of a register. -/
def regByte (v : BitVec 1024) (i : Nat) : Byte := BitVec.ofNat 8 (elemAt 8 i v)

/-- A register as 128 bytes, and back. -/
def bytesReg (f : Nat → Byte) : BitVec 1024 := packElems 8 ((List.range 128).map fun i => (f i).toNat)

/-- Where the elements of a load put their bytes: excluded bytes kept or zero. -/
def State.vloadInto (s : State) (zm : Bool) (old : BitVec 1024) (l : List Placed) : BitVec 1024 :=
  let got := l.flatMap fun p => (s.seenPieces p.2).zipIdx.map fun b => (p.1.ix * p.1.len + b.2, b.1)
  bytesReg fun i => match got.find? (·.1 == i) with
    | some b => b.2
    | none => if zm then 0 else regByte old i

/-- VLD. DESIGN CHOICE (log 31): TADDR of 0x10C, where one of several pieces fails, is the EA. -/
def execVld (c : VCtl) (a : Fin 16) (b d : Src) (ss : Fin 4) (disp : BitVec 12) (s : State) : Out :=
  s.guarded c.gd fun s => s.operands [b, d] [] fun vs s =>
    let ea := vectorAddr (arg vs 0) (arg vs 1) ss disp
    s.vchecked c ea true false fun l =>
      s.farThen ea (l.flatMap (·.2)) fun s =>
        match s.vbad l with
        | some e => s.trap e.1 e.2
        | none => (s.settleRead (l.flatMap (·.2))).vdone a (s.vloadInto c.zm (s.me.vreg a.val) l) .rne 0

/-- The bytes an element stores. -/
def storeBytes (v : BitVec 1024) (e : VElem) : List Byte := (List.range e.len).map fun i => regByte v (e.ix * e.len + i)

/-- A write of a vector store: its address, its piece and its bytes, and whether it lies in one granule with the write before it. -/
structure VWrite where
  va : Word
  piece : Piece
  bytes : List Byte
  tied : Bool := false

/-- The granule that a vector access is split at (R111 of spec/06). -/
def Home.granule : Home → Nat
  | .host | .remote => 8
  | _ => 16

/-- The writes of a vector store: adjacent elements of one aligned granule are written together, and those that a hole parts are tied
(R111 of spec/06). An element is aligned and lies in one page. -/
def joinWrites : List VWrite → List VWrite
  | [] => []
  | w :: l => match joinWrites l with
    | [] => [w]
    | u :: t =>
      let g := w.piece.home.granule
      if w.va.toNat / g != u.va.toNat / g then w :: u :: t
      else if w.va.toNat + w.bytes.length = u.va.toNat then
        { w with piece := { w.piece with len := w.piece.len + u.piece.len }, bytes := w.bytes ++ u.bytes } :: t
      else w :: { u with tied := true } :: t

def vectorWrites (v : BitVec 1024) (l : List Placed) : List VWrite :=
  joinWrites (l.flatMap fun p => p.2.map fun q => { va := p.1.va, piece := q, bytes := storeBytes v p.1 })

/-- Hold the writes of a vector store. -/
def State.heldWrites (s : State) (ws : List VWrite) : List Held := ws.flatMap fun w => (s.heldOf w.va [w.piece] w.bytes).map fun h => { h with tied := w.tied }

/-- Perform a vector store; in a replica fold one record per element (R269 of spec/17), and hold the writes (R270). -/
def State.vstoreAll (s : State) (v : BitVec 1024) (l : List Placed) : State :=
  let ws := vectorWrites v l
  if s.me.rep.count = 0 then ws.foldl (fun s w => s.putPiece w.va w.piece w.bytes w.tied) s
  else s.onMe fun x =>
    let y := l.foldl (fun x p => x.fold (storeRecord p.1.va (storeBytes v p.1))) x
    { y with rep := { y.rep with held := x.rep.held ++ s.heldWrites ws } }

/-- VST: any buffer vote covers the whole instruction (R270 of spec/17). -/
def execVst (c : VCtl) (a : Fin 16) (b d : Src) (ss : Fin 4) (disp : BitVec 12) (s : State) : Out :=
  s.guarded c.gd fun s => s.operands [b, d] [] fun vs s =>
    let ea := vectorAddr (arg vs 0) (arg vs 1) ss disp
    let v := s.me.vreg a.val
    s.vchecked c ea false true fun l =>
      match l.find? fun p => replicable p.2 with
      | some _ => s.trap 0x106 0
      | none =>
        if s.me.rep.count != 0 && (s.overQuota (s.heldWrites (vectorWrites v l)) || !s.me.rep.spill.isEmpty) then
          s.implicitVote
        else (s.vstoreAll v l).done

/-! ## Gathers and scatters (R152) -/

def gatherWidth : GatherType → Nat
  | .int64 => 64
  | _ => 32

/-- The offsets V[C] as 32 words kept with the operands: the instruction reads them once. -/
def offsetWords (v : BitVec 1024) : List Word := (List.range 16).map fun i => BitVec.ofNat 64 (elemAt 64 i v)

/-- Offset element `i`, sign-extended. -/
def offsetAt (vs : List Word) (i : Nat) : Word :=
  BitVec.ofInt 64 (intOf false 32 (bitsAt (arg vs (1 + i / 2)).toNat (32 * (i % 2)) 32))

/-- The address of element `i`. -/
def gatherAddr (vs : List Word) (scale : Fin 4) (i : Nat) : Word :=
  arg vs 0 + offsetAt vs i * BitVec.ofNat 64 (2 ^ scale.val)

/-- A mask with bit `i` cleared, written as a mask of `n` elements: bits n to 127 are written as 0 (R130). -/
def maskWithout (n i : Nat) (v : BitVec 128) : BitVec 128 := v &&& BitVec.ofNat 128 (2 ^ n - 1) &&& ~~~(1#128 <<< i)

/-- Element `i` of width `w` is recorded as done: its mask bit is cleared, and a parked instruction goes on behind it, with no
request of its own outstanding. -/
def Slot.elemDone (x : Slot) (mask : Option (Fin 4)) (w i : Nat) : Slot :=
  let y := match mask with
    | none => x
    | some k => x.setK k.val (maskWithout (1024 / w) i (x.kreg k.val))
  ({ y with park := { y.park with tries := i + 1 } } : Slot).unasked

/-- A halt or a trap waits for the slot: between two elements it finds no request that has left (R30, R39 of spec/02). -/
def Slot.called (x : Slot) : Bool := x.haltReq || (!x.inHandler && (x.cpend || !x.pend.isEmpty))

/-- The instruction is abandoned behind the elements that it has done (R152). -/
def Slot.breakOff (x : Slot) : Slot :=
  { x.abandon with status := if x.haltReq then .halted else .running, haltReq := false }

/-- An element of a far memory is a load of its own: its request leaves and is answered before `k`, unless a halt or a trap comes
first (R137, R152). -/
def State.elemThen (s : State) (ea : Word) (ps : List Piece) (k : State → Out) : Out :=
  if ps.any (·.home.far) && !s.me.park.answered && s.me.called then .next (s.onMe Slot.breakOff) else s.farThen ea ps k

/-- One element of a gather: its checks, then its load. -/
def State.gatherOne (s : State) (mask : Option (Fin 4)) (a : Fin 16) (w i : Nat) (ea : Word) (k : State → Out) : Out :=
  s.checked ea (w / 8) true false false fun ps =>
    s.elemThen ea ps fun s => s.readable ea ps fun bs s =>
      k (s.onMe fun x =>
        (x.setV a.val (vmap (· == i) false w (x.vreg a.val) fun _ => leNat bs)).elemDone mask w i)

/-- One element of a scatter. -/
def State.scatterOne (s : State) (mask : Option (Fin 4)) (a : Fin 16) (w i : Nat) (ea : Word) (k : State → Out) : Out :=
  s.checked ea (w / 8) false true false fun ps => s.writable ps (fun s =>
    s.storeVia ea ps (leBytes (elemAt w i (s.me.vreg a.val)) (w / 8)) fun s => k (s.onMe (·.elemDone mask w i))) ea

/-- The elements in ascending order, each by `one`; excluded ones are passed over. After
completion under a mask its bits are zero. -/
def State.elements (s : State) (mask : Option (Fin 4)) (one : Nat → (State → Out) → State → Out) : List Nat → Out
  | [] => s.done
  | i :: l =>
    let on := match mask with | none => true | some k => (s.me.kreg k.val).getLsbD i
    if on then one i (fun s => s.elements mask one l) s else s.elements mask one l

/-- The shared walk of VGATH and VSCAT: base and offsets are taken once, elements already done in this issue are passed. -/
def gatherLike (gd : Guard) (ty : GatherType) (b : Src) (c : Fin 16) (mask : Option (Fin 4)) (scale : Fin 4)
    (one : Nat → Nat → Word → (State → Out) → State → Out) (s : State) : Out :=
  s.guarded gd fun s => s.operands [b] [] fun vs s =>
    let w := gatherWidth ty
    let full := if vs.length = 1 then vs ++ offsetWords (s.me.vreg c.val) else vs
    let s := s.onMe fun x => { x with park := { x.park with vals := some full } }
    let todo := (List.range (1024 / w)).drop s.me.park.tries
    s.elements mask (fun i k s => one w i (gatherAddr full scale i) k s) todo

def execVgath (gd : Guard) (ty : GatherType) (a : Fin 16) (b : Src) (c : Fin 16) (mask : Option (Fin 4)) (scale : Fin 4)
    (s : State) : Out :=
  gatherLike gd ty b c mask scale (fun w i ea k s => s.gatherOne mask a w i ea k) s

def execVscat (gd : Guard) (ty : GatherType) (a : Fin 16) (b : Src) (c : Fin 16) (mask : Option (Fin 4)) (scale : Fin 4)
    (s : State) : Out :=
  gatherLike gd ty b c mask scale (fun w i ea k s => s.scatterOne mask a w i ea k) s

end Sys2Proof.Machine
end

