-- ==== Sys2Proof/Machine/Dispatch.lean ====
section
/-! DEFINITION. The dispatch: one arm per row of spec/opcode_table.json. -/

namespace Sys2Proof.Machine

open Sys2Proof

def exec (i : Instr) (s : State) : Host.Outcome State Fault Refusal :=
  match i with
  | .br gd target => Sys2Proof.Machine.execBr gd target s
  | .call gd a target => Sys2Proof.Machine.execCall gd a target s
  | .loop gd a target => Sys2Proof.Machine.execLoop gd a target s
  | .trap gd imm => Sys2Proof.Machine.execTrap gd imm s
  | .tret => Sys2Proof.Machine.execTret s
  | .crd gd a num => Sys2Proof.Machine.execCrd gd a num s
  | .cwr gd num b => Sys2Proof.Machine.execCwr gd num b s
  | .retire => Sys2Proof.Machine.execRetire s
  | .brk => Sys2Proof.Machine.execBrk s
  | .add a b c => Sys2Proof.Machine.execAdd a b c s
  | .sub a b c => Sys2Proof.Machine.execSub a b c s
  | .mul a b c => Sys2Proof.Machine.execMul a b c s
  | .mulh a b c => Sys2Proof.Machine.execMulh a b c s
  | .mulhu a b c => Sys2Proof.Machine.execMulhu a b c s
  | .div a b c => Sys2Proof.Machine.execDiv a b c s
  | .divu a b c => Sys2Proof.Machine.execDivu a b c s
  | .rem a b c => Sys2Proof.Machine.execRem a b c s
  | .remu a b c => Sys2Proof.Machine.execRemu a b c s
  | .and a b c => Sys2Proof.Machine.execAnd a b c s
  | .or a b c => Sys2Proof.Machine.execOr a b c s
  | .xor a b c => Sys2Proof.Machine.execXor a b c s
  | .shl a b c => Sys2Proof.Machine.execShl a b c s
  | .shr a b c => Sys2Proof.Machine.execShr a b c s
  | .sar a b c => Sys2Proof.Machine.execSar a b c s
  | .ror a b c => Sys2Proof.Machine.execRor a b c s
  | .min a b c => Sys2Proof.Machine.execMin a b c s
  | .max a b c => Sys2Proof.Machine.execMax a b c s
  | .minu a b c => Sys2Proof.Machine.execMinu a b c s
  | .maxu a b c => Sys2Proof.Machine.execMaxu a b c s
  | .clz a b => Sys2Proof.Machine.execClz a b s
  | .popc a b => Sys2Proof.Machine.execPopc a b s
  | .ctz a b => Sys2Proof.Machine.execCtz a b s
  | .addi gd a b imm => Sys2Proof.Machine.execAddi gd a b imm s
  | .andi gd a b imm => Sys2Proof.Machine.execAndi gd a b imm s
  | .ori gd a b imm => Sys2Proof.Machine.execOri gd a b imm s
  | .xori gd a b imm => Sys2Proof.Machine.execXori gd a b imm s
  | .shi gd a b kind amount => Sys2Proof.Machine.execShi gd a b kind amount s
  | .cmp p cc b c => Sys2Proof.Machine.execCmp p cc b c s
  | .cmpu p cc b c => Sys2Proof.Machine.execCmpu p cc b c s
  | .cmpi gd p cc b imm => Sys2Proof.Machine.execCmpi gd p cc b imm s
  | .vgath gd ty a b c mask scale => Sys2Proof.Machine.execVgath gd ty a b c mask scale s
  | .vscat gd ty a b c mask scale => Sys2Proof.Machine.execVscat gd ty a b c mask scale s
  | .mlease gd => Sys2Proof.Machine.execMlease gd s
  | .mfree => Sys2Proof.Machine.execMfree s
  | .mprog gd b n => Sys2Proof.Machine.execMprog gd b n s
  | .mwld gd s24 e b c k n => Sys2Proof.Machine.execMwld gd s24 e b c k n s
  | .mma gd e b c row0 m => Sys2Proof.Machine.execMma gd e b c row0 m s
  | .mrd gd clr b c row0 m n => Sys2Proof.Machine.execMrd gd clr b c row0 m n s
  | .mclr gd b row0 rows => Sys2Proof.Machine.execMclr gd b row0 rows s
  | .mcfg gd ta osat => Sys2Proof.Machine.execMcfg gd ta osat s
  | .mstat gd a => Sys2Proof.Machine.execMstat gd a s
  | .dwin gd ch a b c ty tx p0 => Sys2Proof.Machine.execDwin gd ch a b c ty tx p0 s
  | .dcan gd ch b => Sys2Proof.Machine.execDcan gd ch b s
  | .dcanResume gd ch => Sys2Proof.Machine.execDcanResume gd ch s
  | .hinit gd scope b c disp => Sys2Proof.Machine.execHinit gd scope b c disp s
  | .harr gd a b disp => Sys2Proof.Machine.execHarr gd a b disp s
  | .hwait gd a b disp => Sys2Proof.Machine.execHwait gd a b disp s
  | .rrel gd scope => Sys2Proof.Machine.execRrel gd scope s
  | .rmark gd a f => Sys2Proof.Machine.execRmark gd a f s
  | .rpert gd b => Sys2Proof.Machine.execRpert gd b s
  | .rrewind => Sys2Proof.Machine.execRrewind s
  | .fopen gd w b => Sys2Proof.Machine.execFopen gd w b s
  | .fopenClose gd w sync => Sys2Proof.Machine.execFopenClose gd w sync s
  | .fshort gd reset nb a w b c => Sys2Proof.Machine.execFshort gd reset nb a w b c s
  | .fpick gd reset nb a w b c => Sys2Proof.Machine.execFpick gd reset nb a w b c s
  | .rand gd f a => Sys2Proof.Machine.execRand gd f a s
  | .kvtrunc gd commit a b c => Sys2Proof.Machine.execKvtrunc gd commit a b c s
  | .qwait gd a b => Sys2Proof.Machine.execQwait gd a b s
  | .qwaitNow gd a => Sys2Proof.Machine.execQwaitNow gd a s
  | .ptsync gd kind a b => Sys2Proof.Machine.execPtsync gd kind a b s
  | .parkedSlotWakes slot => Sys2Proof.Machine.execParkedSlotWakes slot s
  | .memoryAnswerArrives tid failed => Sys2Proof.Machine.execMemoryAnswerArrives tid failed s
  | .takePendingTrap slot => Sys2Proof.Machine.execTakePendingTrap slot s
  | .droverRestart core => Sys2Proof.Machine.execDroverRestart core s
  | .musterArbitration core => Sys2Proof.Machine.execMusterArbitration core s
  | .penMessageArrives slot => Sys2Proof.Machine.execPenMessageArrives slot s
  | .psendRetry slot => Sys2Proof.Machine.execPsendRetry slot s
  | .leaseCycleBound tile => Sys2Proof.Machine.execLeaseCycleBound tile s
  | .matrixCommandCompletes tile => Sys2Proof.Machine.execMatrixCommandCompletes tile s
  | .transferDone tile ch => Sys2Proof.Machine.execTransferDone tile ch s
  | .streamFault tile ch => Sys2Proof.Machine.execStreamFault tile ch s
  | .sourceError tile ch => Sys2Proof.Machine.execSourceError tile ch s
  | .laneCommandCompletes lane => Sys2Proof.Machine.execLaneCommandCompletes lane s
  | .loftFillArrives tile page => Sys2Proof.Machine.execLoftFillArrives tile page s
  | .ddeOperationCompletes die asid => Sys2Proof.Machine.execDdeOperationCompletes die asid s
  | .filterOperationCompletes w index => Sys2Proof.Machine.execFilterOperationCompletes w index s
  | .vote asid launch group => Sys2Proof.Machine.execVote asid launch group s
  | .voteTimeout asid launch group => Sys2Proof.Machine.execVoteTimeout asid launch group s
  | .pageWalkCompletes die asid vpage => Sys2Proof.Machine.execPageWalkCompletes die asid vpage s
  | .groupAgeLimit group => Sys2Proof.Machine.execGroupAgeLimit group s
  | .reservationExpires group => Sys2Proof.Machine.execReservationExpires group s
  | .copyNodeDone asid graph node => Sys2Proof.Machine.execCopyNodeDone asid graph node s
  | .sliceExpires asid => Sys2Proof.Machine.execSliceExpires asid s
  | .haltComplete asid => Sys2Proof.Machine.execHaltComplete asid s
  | .swapComplete asid => Sys2Proof.Machine.execSwapComplete asid s
  | .qwpWrite queue v => Sys2Proof.Machine.execQwpWrite queue v s
  | .evrpWrite queue v => Sys2Proof.Machine.execEvrpWrite queue v s
  | .queueRecordAccept queue => Sys2Proof.Machine.execQueueRecordAccept queue s
  | .queueNop queue seq cmd => Sys2Proof.Machine.execQueueNop queue seq cmd s
  | .create queue seq cmd => Sys2Proof.Machine.execCreate queue seq cmd s
  | .destroy queue seq cmd => Sys2Proof.Machine.execDestroy queue seq cmd s
  | .bind queue seq cmd => Sys2Proof.Machine.execBind queue seq cmd s
  | .job queue seq cmd => Sys2Proof.Machine.execJob queue seq cmd s
  | .phase queue seq cmd => Sys2Proof.Machine.execPhase queue seq cmd s
  | .graph queue seq cmd => Sys2Proof.Machine.execGraph queue seq cmd s
  | .close queue seq cmd => Sys2Proof.Machine.execClose queue seq cmd s
  | .queueCancel queue seq cmd => Sys2Proof.Machine.execQueueCancel queue seq cmd s
  | .portstatWrite port v => Sys2Proof.Machine.execPortstatWrite port v s
  | .barRegisterWrite offset size v => Sys2Proof.Machine.execBarRegisterWrite offset size v s
  | .hostApertureAccess write offset size v => Sys2Proof.Machine.execHostApertureAccess write offset size v s
  | .hostCompletionTimeout tid => Sys2Proof.Machine.execHostCompletionTimeout tid s
  | .hotReset => Sys2Proof.Machine.execHotReset s
  | .linkDownTimeout => Sys2Proof.Machine.execLinkDownTimeout s
  | .portEnable port => Sys2Proof.Machine.execPortEnable port s
  | .trainingSucceeds port peer => Sys2Proof.Machine.execTrainingSucceeds port peer s
  | .trainingFails port => Sys2Proof.Machine.execTrainingFails port s
  | .lossOfSignal port => Sys2Proof.Machine.execLossOfSignal port s
  | .flitReceived port flit => Sys2Proof.Machine.execFlitReceived port flit s
  | .ackTimeout port => Sys2Proof.Machine.execAckTimeout port s
  | .pauseExpires port vl => Sys2Proof.Machine.execPauseExpires port vl s
  | .remoteRequestTimeout tid => Sys2Proof.Machine.execRemoteRequestTimeout tid s
  | .freezeN => Sys2Proof.Machine.execFreezeN s
  | .idcode => Sys2Proof.Machine.execIdcode s
  | .frz resumable => Sys2Proof.Machine.execFrz resumable s
  | .resume => Sys2Proof.Machine.execResume s
  | .jtagSel sel => Sys2Proof.Machine.execJtagSel sel s
  | .rdst => Sys2Proof.Machine.execRdst s
  | .stat => Sys2Proof.Machine.execStat s
  | .bypass tdi => Sys2Proof.Machine.execBypass tdi s
  | .reservedMajorOpcode head => Sys2Proof.Machine.execReservedMajorOpcode head s

end Sys2Proof.Machine
end

