-- ==== Sys2Proof/Machine/Environment.lean ====
section
/-! DEFINITION. The events of the environment that spec/opcode_table.json gives no row (log 62). -/

namespace Sys2Proof.Machine

open Sys2Proof

/-- Queue 0 is bound at bring-up (R308, R311, R315 of spec/20): sizes are powers of 2, and the journal's base is given with it.
Only an Unbound queue is bound. -/
def State.bindZero (s : State) (qbase qlog evbase evlog journal : Nat) : State :=
  if (s.queue 0).state != .unbound then s
  else { (s.onQueue 0 fun q => { q with state := .active, qbase, qsize := 2 ^ qlog, evbase, evsize := 2 ^ evlog }) with
    q0journal := journal }

/-- The supervisor assigns the package number at bring-up (R17 of spec/01), which is over once queue 0 is bound. -/
def State.assignPackage (s : State) (pkg : BitVec 6) : State := if (s.queue 0).state != .unbound then s else { s with pkg := pkg }

/-- What an event without a row does. In a step of the machine's own it does nothing (State.stepAll goes on). -/
def execEnv (e : EnvEv) (s : State) : Out :=
  match e with
  | .haltContext a => .next (s.haltRequest a)
  | .restoreContext a => .next (s.restoreRequest a)
  | .bindQueue0 qbase qlog evbase evlog journal => .next (s.bindZero qbase qlog evbase evlog journal)
  | .assignPackage pkg => .next (s.assignPackage pkg)
  | .hostFails addr => .next { s with hostFail := addr }
  | .ownStep => .next s
  | .ringReadFails q => .next (s.ringFails q 0x10C)
  | .barRead offset size => .next (s.barRead offset size)
  | .barAtomic => .next s.barAtomic
  | .hostStore addr size v => .next (s.hostStore addr size v)
  | .copyLinkError tile ch => .next (s.linkError tile ch)
  | .writesAcked port n => .next (s.writesAcked port n)
  | .writeBack line => .next (s.writeBack line)

end Sys2Proof.Machine
end

