-- ==== Sys2Proof/Machine/Rest.lean ====
section
/-! DEFINITION. The dispatch of the instructions that spec/opcode_table.json does not list. -/

namespace Sys2Proof.Machine

open Sys2Proof

/-- One arm per instruction of the opcode map (R59 of spec/03) without a row in the table. -/
def execUnlisted (i : Unlisted) (s : State) : Out :=
  match i with
  | .nop => execNop s
  | .isync => execIsync s
  | .lbrk => execLbrk s
  | .jr a b => execJr a b s
  | .spawn gd b target => execSpawn gd b target s
  | .fence gd kind scope => execFence gd kind scope s
  | .marm m b c => execMarm m b c s
  | .mwait gd a rot => execMwait gd a rot s
  | .movi a imm => execMovi a imm s
  | .movhi gd a imm => execMovhi gd a imm s
  | .plog op a b c => execPlog op a b c s
  | .pmovSet p b => execPmovSet p b s
  | .pmovGet a => execPmovGet a s
  | .pmovPut b => execPmovPut b s
  | .pmovNot a b => execPmovNot a b s
  | .sel gd a m b c => execSel gd a m b c s
  | .bfx gd signed a b pos width1 => execBfx gd signed a b pos width1 s
  | .bfi gd a b c pos width1 => execBfi gd a b c pos width1 s
  | .lea gd a addr => execLea gd a addr s
  | .mula gd a b c => execMula gd a b c s
  | .ld gd sz sx acq a addr => execLd gd sz sx acq a addr s
  | .st gd sz rel a addr => execSt gd sz rel a addr s
  | .ldfe gd scope a addr => execLdfe gd scope a addr s
  | .stfe gd scope a addr => execStfe gd scope a addr s
  | .feset gd full scope a addr => execFeset gd full scope a addr s
  | .amo gd op sz ord a b c disp => execAmo gd op sz ord a b c disp s
  | .cas gd sz ord a b c disp => execCas gd sz ord a b c disp s
  | .rupd gd op sz b c disp => execRupd gd op sz b c disp s
  | .pref gd hint b disp => execPref gd hint b disp s
  | .varith op x sat u a b c => execVarith op x sat u a b c s
  | .vlogic op x a b c => execVlogic op x a b c s
  | .vsh kind x a b c => execVsh kind x a b c s
  | .vcmp cc u x a b c => execVcmp cc u x a b c s
  | .vsel x a b c => execVsel x a b c s
  | .vcvt x src part us ud a b scales => execVcvt x src part us ud a b scales s
  | .vred op u x a b scales => execVred op u x a b scales s
  | .vscan op u x a b => execVscan op u x a b s
  | .vperm x a b c => execVperm x a b c s
  | .vcomp x a b c => execVcomp x a b c s
  | .vapprox fn x a b => execVapprox fn x a b s
  | .vbcast x a b => execVbcast x a b s
  | .vmovg x sx a b idx => execVmovg x sx a b idx s
  | .vld x a b c ss disp => execVld x a b c ss disp s
  | .vst x a b c ss disp => execVst x a b c ss disp s
  | .vtblQ gd q b => execVtblQ gd q b s
  | .vtblPre gd p => execVtblPre gd p s
  | .vtblNan gd n => execVtblNan gd n s
  | .vmxs x src part a b c sync => execVmxs x src part a b c sync s
  | .vmaskOp gd op a b c => execVmaskOp gd op a b c s
  | .vmaskNot gd a b => execVmaskNot gd a b s
  | .vmaskPut gd h a b => execVmaskPut gd h a b s
  | .vmaskGet gd h a b => execVmaskGet gd h a b s
  | .vmaskPopc gd ty a b => execVmaskPopc gd ty a b s
  | .viota x a b step => execViota x a b step s
  | .viotaCnt x a b => execViotaCnt x a b s
  | .vclip u x a b c => execVclip u x a b c s
  | .dcopy gd ch a b c len => execDcopy gd ch a b c len s
  | .dtile gd ch a b c => execDtile gd ch a b c s
  | .dfill gd ch a b c len => execDfill gd ch a b c len s
  | .dwait gd ch a b => execDwait gd ch a b s
  | .dstat gd ch f a => execDstat gd ch f a s
  | .mbsend gd nb m a b => execMbsend gd nb m a b s
  | .mbrecv gd nb mask a b => execMbrecv gd nb mask a b s
  | .abind gd mask b => execAbind gd mask b s
  | .areset gd mask => execAreset gd mask s
  | .astep gd mask a b => execAstep gd mask a b s
  | .amap gd lane a b c => execAmap gd lane a b c s
  | .acomp gd a b c => execAcomp gd a b c s
  | .acompApply gd a b c => execAcompApply gd a b c s
  | .aallow gd lane a b => execAallow gd lane a b s
  | .aget gd lane f i a => execAget gd lane f i a s
  | .aset gd lane f b => execAset gd lane f b s
  | .afeed gd lane a b => execAfeed gd lane a b s
  | .asave gd lane b => execAsave gd lane b s
  | .aload gd lane a b => execAload gd lane a b s
  | .apage gd op n1 a b => execApage gd op n1 a b s
  | .ddvarGet gd v a => execDdvarGet gd v a s
  | .ddvarSet gd v b => execDdvarSet gd v b s
  | .ddvarAt gd l a => execDdvarAt gd l a s
  | .ddmk gd v a b c => execDdmk gd v a b c s
  | .ddapp gd t a b c => execDdapp gd t a b c s
  | .ddite gd a b c => execDdite gd a b c s
  | .ddres gd v val a b => execDdres gd v val a b s
  | .ddex gd all a b c => execDdex gd all a b c s
  | .ddwc gd a b c => execDdwc gd a b c s
  | .ddrefInc b => execDdrefInc b s
  | .ddrefDec b => execDdrefDec b s
  | .ddrefGet a b => execDdrefGet a b s
  | .ddgc gd abort a => execDdgc gd abort a s
  | .ddsat gd a b c => execDdsat gd a b c s
  | .ddstat gd f a => execDdstat gd f a s
  | .ddclr gd n => execDdclr gd n s
  | .ddexp gd nvoc a b c => execDdexp gd nvoc a b c s
  | .psend gd a b nb => execPsend gd a b nb s
  | .pdef gd m prio b target => execPdef gd m prio b target s
  | .pen gd nb p a b => execPen gd nb p a b s
  | .pcfgMode gd fault ext p => execPcfgMode gd fault ext p s
  | .pcfgDrain gd p a => execPcfgDrain gd p a s
  | .ppeek gd f p a => execPpeek gd f p a s
  | .launch gd a b cnt => execLaunch gd a b cnt s
  | .gsel gd node a b c => execGsel gd node a b c s
  | .cancel gd b => execCancel gd b s
  | .cntrd gd f a b => execCntrd gd f a b s
  | .sfork gd a b c => execSfork gd a b c s

end Sys2Proof.Machine
end

