-- ==== Sys2Proof/Machine/Turn.lean ====
section
/-! DEFINITION. What one step does: an event of the environment, an event that time has made due, or one core's turn of the
current cycle (R20 of spec/02). -/

namespace Sys2Proof.Machine

open Sys2Proof

/-! ## A slot's turn -/

/-- The meaning of an instruction, with or without a row in spec/opcode_table.json. -/
def execInsn (i : Insn) (s : State) : Out :=
  match i with
  | .listed i => exec i s
  | .unlisted u => execUnlisted u s

/-- The agent's held instruction goes on: a result that waits for its destination, or the instruction itself. -/
def State.runHeld (s : State) : Out :=
  match s.me.park.out with
  | some r => s.finishOut r
  | none => match s.me.park.insn with
    | some i => execInsn i s
    | none => .next s

/-- The agent fetches and issues the instruction at its PC; engine writes that wait for room in the release buffer take an implicit
vote first (R270 of spec/17). -/
def State.issue (s : State) : Out :=
  if s.me.rep.count != 0 && !s.me.rep.spill.isEmpty then s.implicitVote
  else match s.fetch s.agent with
  | .stop (.trap c a) => s.trap c a
  | .stop .walk => s.parkWalk s.me.pc
  | .stop (.wait ps) => s.send s.me.pc ps
  | .insn i nh => (s.onMe fun x => x.issue i nh).runHeld

/-- A slot that may issue goes on with what it holds, or issues. -/
def State.goOn (s : State) : Out := if s.me.park.insn.isSome then s.runHeld else s.issue

/-- A halted thread whose request has been answered, or whose vote has agreed, completes its instruction and stays halted (R39 of
spec/02, R278 of spec/17); what it performs once, and RETIRE, wait for its restore (log 63). -/
def Slot.finishes (x : Slot) : Bool :=
  x.status == .halted && x.park.wait != some .bellwether
    && ((x.park.left && x.park.answered)
      || (x.park.voted && !x.park.once && !x.park.left && x.park.insn.isSome && x.park.insn != some (.listed .retire)))

/-- A thread that stays halted while it finishes: one whose request has left now is halted with it outstanding. -/
def Slot.staysHalted (x : Slot) : Slot :=
  if x.status == .parked && x.haltReq then { x with status := .halted, haltReq := false } else x

def State.finishHalted (s : State) : Out :=
  match (s.onMe fun x => { x with status := .running, haltReq := true }).goOn with
  | .next t => .next (t.onMe Slot.staysHalted)
  | o => o

/-- The turn of slot `n` (R20, R30 of spec/02): a free S6 arbitrates, a free S7 may restart, a pending trap is taken before
any instruction, a parked slot whose condition holds wakes and goes on. -/
def State.slotTurn (s : State) (n : Nat) : Out :=
  let s := { s with agent := n }
  match s.me.status with
  | .free =>
    if slotIx n = 6 then execMusterArbitration (slotCore n) s
    else if slotIx n = 7 then execDroverRestart (slotCore n) s
    else .next s
  | .halted => if s.me.finishes then s.finishHalted else .next s
  | .running => if s.trapDue n then execTakePendingTrap n s else s.goOn
  | .parked =>
    if s.trapDue n then execTakePendingTrap n s
    else match execParkedSlotWakes n s with
      | .next t => if t.me.status = .running then t.goOn else .next t
      | o => o

/-! ## Threads that are answered while they are saved (R39 of spec/02) -/

/-- Exchange a tile's contents for an image. -/
def State.putImage (s : State) (t : Nat) (i : Image) : State :=
  let s := s.clearTile t
  { s with
    slots := i.slots.foldl (fun l e => Table.put e.1 e.2 l) s.slots
    cores := i.cores.foldl (fun l e => Table.put e.1 e.2 l) s.cores
    tiles := Table.put t i.tile s.tiles
    mem := i.mem.foldl (fun m c => memSet m c.1 c.2) s.mem
    feEmpty := i.feEmpty.foldl (fun l w => setInsert w l) s.feEmpty }

/-- Complete the instruction of slot `n` in a context's image of a tile: the image stands on the tile meanwhile. -/
def State.finishImage (s : State) (a t n : Nat) (i : Image) : State :=
  let there := s.imageOf t
  match ({ s.putImage t i with agent := n } : State).finishHalted with
  | .next v =>
    let j := v.imageOf t
    { (v.putImage t there).onCtx a fun c => { c with images := Table.put t j c.images } with agent := s.agent }
  | _ => s

/-- Complete the instruction of a thread that stands meanwhile in slot `n`: what becomes of the thread, and the state with the
slot as before. -/
def State.finishAt (s : State) (n : Nat) (x : Slot) : Option (Slot × State) :=
  match ({ s.setSlot n x with agent := n } : State).finishHalted with
  | .next v => some (v.slot n, { v.setSlot n (s.slot n) with agent := s.agent })
  | _ => none

/-- Complete the instruction of a thread saved with its group, at the slot it was saved from: live where the context holds that
tile, else in the tile's image. -/
def State.finishSaved (s : State) (asid : Nat) (x : Slot) : State :=
  let n := x.park.origin
  let t := slotTile n
  if (s.tile t).owner == some asid then
    match s.finishAt n x with
    | some (y, v) => v.onTid x.tid fun _ => y
    | none => s
  else match s.ctx asid with
    | none => s
    | some c => match c.images.find? fun i => i.1 == t with
      | none => s
      | some i =>
        let there := s.imageOf t
        match (s.putImage t i.2).finishAt n x with
        | some (y, v) =>
          let j := v.imageOf t
          ((v.putImage t there).onCtx asid fun c => { c with images := Table.put t j c.images }).onTid x.tid fun _ => y
        | none => s

/-- Every saved thread whose answer has come. -/
def State.finishAll (s : State) : State :=
  let s := (s.ctxs.flatMap fun e => match e.2 with
      | none => []
      | some c => c.images.flatMap fun i => (i.2.slots.filter fun p => p.2.finishes).map fun p => (e.1, i.1, p.1)).foldl
    (fun (s : State) e => match s.ctx e.1 with
      | none => s
      | some c => match c.images.find? fun i => i.1 == e.2.1 with
        | some i => s.finishImage e.1 e.2.1 e.2.2 i.2
        | none => s) s
  (s.groups.flatMap fun e => match e.2 with
      | none => []
      | some g => (g.saved ++ g.kids).map fun p => (g.asid, p.2)).foldl
    (fun s x => if x.2.finishes then s.finishSaved x.1 x.2 else s) s

/-! ## The clock -/

/-- What every cycle does as it begins: votes count, results of ACOMP and MSTAT arrive, pre-empted groups whose threads
have halted are saved, saved threads take their answers, the ports' receive buffers drain, and rows whose masks have come are
Complete. -/
def State.tick (s : State) : State :=
  let s := s.countVotes.finishAll.deliverComps.drainPorts.finishRows
  let s := (s.tiles.map (·.1)).foldl (fun s t => s.deliverStats t) s
  let s := s.liveCtxs.foldl (fun s e => s.deliverImages e.1 e.2) s
  (s.groups.map (·.1)).foldl (fun s g => s.savePreempted g) s

/-- The next core's turn; after the last core the next cycle begins. -/
def State.advance (s : State) : State :=
  if s.turn + 1 < Config.cores then { s with turn := s.turn + 1 }
  else ({ s with turn := 0, clock := s.clock + 1 } : State).tick

/-- The core whose turn it is: its slot of the current cycle. -/
def State.turnSlot (s : State) : Nat := 8 * s.turn + s.clock.toNat % 8

/-- One core's turn. -/
def State.coreTurn (s : State) : Out :=
  match s.slotTurn s.turnSlot with
  | .next t => .next (if t.freeze = .off then t.advance else t)
  | o => o

/-! ## Events that time makes due -/

/-- Tiles whose lease has reached its bound (R142 of spec/09), or whose running command has ended (R144). -/
def State.dueTile (s : State) (e : Nat × Tile) : List Instr :=
  let c := e.2.crook
  let late : Bool := match c.holder with
    | some n => (s.slot n).lease == .holding && decide (c.grantAt + 16384 ≤ s.clock)
    | none => false
  let ended : Bool := match s.matEnd e.1 with | some w => decide (w ≤ s.clock) | none => false
  (if ended then [.matrixCommandCompletes e.1] else []) ++ (if late then [.leaseCycleBound e.1] else [])

/-- A slot's refused send to try again (R223 of spec/13), or its request that has failed (R332, R339 of spec/22). -/
def State.dueSlot (s : State) (e : Nat × Slot) : List Instr :=
  match e.2.status, e.2.park.wait with
  | .parked, some (.penRetry _ _) => if s.resends e.2 then [.psendRetry e.1] else []
  | .parked, some .penAnswer =>
    if s.unsentMessage e.2 && decide (2 ^ 20 ≤ cyclesSince s e.2) then [.penMessageArrives e.1] else []
  | _, some (.answer _ h) =>
    if e.2.park.answered then []
    else if hostLate s e.2 h then [.hostCompletionTimeout e.2.tid]
    else if s.unanswerable e.2 && decide (2 ^ 20 ≤ cyclesSince s e.2) then [.remoteRequestTimeout e.2.tid]
    else []
  | _, _ => []

/-- A set whose vote is complete, or has timed out (R273, R276 of spec/17). -/
def State.dueSet (s : State) (r : RepSet) : List Instr :=
  let ts := s.setThreads r
  (if ts.any (s.votesIn r) then [.vote r.asid r.launch r.index] else [])
    ++ (if ts.any (s.votesLate r) then [.voteTimeout r.asid r.launch r.index] else [])

/-- A group whose age or reservation has reached PLACEAGE (R254, R255 of spec/15). -/
def State.dueGroup (s : State) (g : Nat) : List Instr :=
  (if s.ageDue g then [.groupAgeLimit g] else []) ++ (if s.expiryDue g then [.reservationExpires g] else [])

/-- A context whose slice ends (R300, R301 of spec/19). -/
def State.dueCtx (s : State) (e : Nat × Ctx) : List Instr := if s.sliceDue e.2 then [.sliceExpires e.1] else []

/-- A port that has had no ACK (R338 of spec/22), and pauses that have expired (R335). -/
def State.duePort (s : State) (e : Nat × Port) : List Instr :=
  (if e.2.ackLate s.clock then [.ackTimeout e.1] else []) ++ e.2.pause.filterMap fun p => if p.2 ≤ s.clock then some (.pauseExpires e.1 p.1) else none

/-- The first event that is due: they come before the first core's turn of a cycle. -/
def State.due (s : State) : Option Instr :=
  if s.turn != 0 then none
  else (s.tiles.flatMap s.dueTile ++ s.allSlots.flatMap s.dueSlot ++ s.sets.flatMap s.dueSet
    ++ (s.groups.map (·.1)).flatMap s.dueGroup ++ s.liveCtxs.flatMap s.dueCtx ++ s.ports.flatMap s.duePort).head?

/-! ## The environment's events -/

/-- Events that act while the package is frozen (R350 of spec/23): the test port, the pin, the host's BAR accesses, which it
aborts, and a reset. -/
def throughFreeze (i : Instr) : Bool :=
  match i with
  | .freezeN | .idcode | .frz _ | .resume | .jtagSel _ | .rdst | .stat | .bypass _ => true
  | .qwpWrite _ _ | .evrpWrite _ _ | .portstatWrite _ _ | .barRegisterWrite _ _ _ | .hostApertureAccess _ _ _ _ => true
  | .hotReset | .linkDownTimeout => true
  | _ => false

/-- So does what the host does to its own memory. -/
def Input.throughFreeze : Input → Bool
  | .event i => Sys2Proof.Machine.throughFreeze i
  | .other (.barRead _ _) | .other .barAtomic | .other (.hostStore _ _ _) => true
  | .other (.hostFails _) => true
  | .other .ownStep | .other (.assignPackage _) => false
  | .other (.haltContext _) | .other (.restoreContext _) | .other (.bindQueue0 _ _ _ _ _) | .other (.ringReadFails _)
  | .other (.copyLinkError _ _) | .other (.writesAcked _ _) | .other (.writeBack _) => false

/-- The next event of the environment and the schedule without it; while frozen, the others wait. -/
def State.nextInput (s : State) : Option (Input × State) :=
  match s.inputs with
  | [] => none
  | e :: es =>
    if s.freeze = .off then some (e, { s with inputs := es })
    else match s.inputs.find? Input.throughFreeze with
      | some i => some (i, { s with inputs := s.inputs.erase i })
      | none => none

/-- A step in which the environment does nothing: an event that is due, or one core's turn; while frozen, nothing. -/
def State.ownStep (s : State) : Out :=
  if s.freeze != .off then .next s
  else match s.due with
    | some e => exec e s
    | none => s.coreTurn

/-- What a step does. -/
def State.stepAll (s : State) : Out :=
  match s.nextInput with
  | some (.event e, t) => exec e t
  | some (.other .ownStep, t) => t.ownStep
  | some (.other e, t) => execEnv e t
  | none => s.ownStep

/-! ## Placing one instruction -/

/-- Where a placed instruction stands: the virtual and physical page, and its line. -/
def placeBase : Nat := 0x10000

/-- Slot `ix` of core 1 runs the line of a head and its tail next: the line stands at a page that the slot may execute, and
nothing of the environment, of the freeze or of the slot comes before it. -/
def State.placeHead (s : State) (ix head tail : Nat) : State :=
  let n := 8 + ix
  let x := s.slot n
  let leaf : Leaf := ⟨x.sup.asid.toNat, placeBase, 65536, BitVec.ofNat 64 (placeBase + 0xF)⟩
  let y := { x with status := .running, tid := s.nextTid, pc := BitVec.ofNat 64 (placeBase + 2), via := 0, park := {}, kept := []
                    pend := [], cpend := false, haltReq := false, sup := { x.sup with sinh := false } }
  { s with
    inputs := [], freeze := .off, turn := 1, clock := BitVec.ofNat 64 (s.clock.toNat / 8 * 8 + ix), nextTid := s.nextTid + 1
    mem := memWrite s.mem placeBase (leBytes (Sys2Proof.lineOf head tail) 64)
    badData := s.badData.filter (· != placeBase / 64), badMeta := s.badMeta.filter (· != placeBase / 512)
    tlb := leaf :: s.tlb, slots := Table.put n y s.slots }

end Sys2Proof.Machine
end

