-- ==== Sys2Proof/Machine/Step.lean ====
section
/-! DEFINITION. The step of the package, and the placing of one instruction where the next step fetches. -/

namespace Sys2Proof.Machine

open Sys2Proof

/-- One step. -/
def step (s : State) : Host.Outcome State Fault Refusal := s.stepAll

/-- The instruction of a word of spec/opcode_table.json where the next step fetches (log 29). -/
def State.withFetchWord (s : State) (nbits w : Nat) : State :=
  s.placeHead (tableSlot (tableParts nbits w).1).val (tableParts nbits w).1 (tableParts nbits w).2

end Sys2Proof.Machine
end

