-- ==== Sys2Proof/Laws/Encoding.lean ====
section
/-! SUPPORT. The fields of an encoded head and tail are the fields that were encoded (R50 to R55 of spec/03): one lemma a
format, so that the round trip of each instruction unfolds its own row alone. -/

namespace Sys2Proof.Laws

set_option Elab.async false

open Sys2Proof

/-! ## Codes -/

@[simp] theorem opndOf_code (o : Opnd) : opndOf o.code = o := by
  cases o with
  | g n => revert n; decide
  | q n => revert n; decide
  | mb n => revert n; decide

theorem opnd_code_lt (o : Opnd) : o.code < 64 := by
  cases o <;> simp only [Opnd.code] <;> omega

@[simp] theorem srcBad_code (slot : Fin 8) (o : Opnd) : srcBad slot o.code = !o.srcOk slot := by
  cases o with
  | g n => revert slot n; decide
  | q n => revert slot n; decide
  | mb n => revert slot n; decide

@[simp] theorem dstBad_code (slot : Fin 8) (o : Opnd) : dstBad slot o.code = !o.dstOk slot := by
  cases o with
  | g n => revert slot n; decide
  | q n => revert slot n; decide
  | mb n => revert slot n; decide

@[simp] theorem guardOf_code (g : Guard) : guardOf g.code = g := by
  obtain ⟨s, p⟩ := g
  revert s p; decide

theorem guard_code_lt (g : Guard) : g.code < 32 := by
  obtain ⟨s, p⟩ := g
  revert s p; decide

@[simp] theorem srcBad_reg (slot : Fin 8) (a : Fin 32) : srcBad slot a.val = false := by revert slot a; decide

theorem bit_lt (b : Bool) : bitCode b < 2 := by cases b <;> decide

@[simp] theorem bit_eq (b : Bool) : (bitCode b == 1) = b := by cases b <;> rfl

/-! ## The head -/

theorem head_op (fmt : Fmt) (op a : Nat) (ho : op < 256) (ha : a < 64) : headWord fmt op a / 64 % 256 = op := by
  simp only [headWord]; omega

theorem head_ts (fmt : Fmt) (op a : Nat) (ho : op < 256) (ha : a < 64) : headWord fmt op a / 16384 % 4 = fmt.ts := by
  have h : fmt.ts < 4 := by cases fmt <;> decide
  simp only [headWord]; omega

theorem head_a (fmt : Fmt) (op a : Nat) (ha : a < 64) : headWord fmt op a % 64 = a := by
  simp only [headWord]; omega

/-! ## The tails -/

theorem fields_r (slot : Fin 8) (sup : Bool) (op a b c f : Nat) (sb sc : Bool) (ha : a < 64) (hb : b < 64)
    (hc : c < 64) (hf : f < 4) :
    fieldsOf slot sup .r (headWord .r op a) (rTail b c sb sc f) = ⟨slot, sup, a, b, c, sb, sc, .always, f, 0⟩ := by
  have h1 := bit_lt sb
  have h2 := bit_lt sc
  have e1 : bitsOf (rTail b c sb sc f) 10 6 = b := by simp only [bitsOf, rTail]; omega
  have e2 : bitsOf (rTail b c sb sc f) 4 6 = c := by simp only [bitsOf, rTail]; omega
  have e3 : bitOf (rTail b c sb sc f) 3 = sb := by
    rw [bitOf, show rTail b c sb sc f / 2 ^ 3 % 2 = bitCode sb by simp only [rTail]; omega, bit_eq]
  have e4 : bitOf (rTail b c sb sc f) 2 = sc := by
    rw [bitOf, show rTail b c sb sc f / 2 ^ 2 % 2 = bitCode sc by simp only [rTail]; omega, bit_eq]
  have e5 : bitsOf (rTail b c sb sc f) 0 2 = f := by simp only [bitsOf, rTail]; omega
  simp only [fieldsOf, head_a .r op a ha, e1, e2, e3, e4, e5]

theorem fields_i (slot : Fin 8) (sup : Bool) (op a b imm : Nat) (sb : Bool) (gd : Guard) (ha : a < 64) (hb : b < 64)
    (hi : imm < 2 ^ 20) :
    fieldsOf slot sup .i (headWord .i op a) (iTail b sb gd imm) = ⟨slot, sup, a, b, 0, sb, false, gd, 0, imm⟩ := by
  have h1 := bit_lt sb
  have h2 := guard_code_lt gd
  have e1 : bitsOf (iTail b sb gd imm) 26 6 = b := by simp only [bitsOf, iTail]; omega
  have e2 : bitOf (iTail b sb gd imm) 25 = sb := by
    rw [bitOf, show iTail b sb gd imm / 2 ^ 25 % 2 = bitCode sb by simp only [iTail]; omega, bit_eq]
  have e3 : bitsOf (iTail b sb gd imm) 20 5 = gd.code := by simp only [bitsOf, iTail]; omega
  have e4 : bitsOf (iTail b sb gd imm) 0 20 = imm := by simp only [bitsOf, iTail]; omega
  simp only [fieldsOf, head_a .i op a ha, e1, e2, e3, e4, guardOf_code]

theorem fields_x (slot : Fin 8) (sup : Bool) (op a b c f imm : Nat) (sb sc : Bool) (gd : Guard) (ha : a < 64)
    (hb : b < 64) (hc : c < 64) (hf : f < 32) (hi : imm < 2 ^ 24) :
    fieldsOf slot sup .x (headWord .x op a) (xTail b c sb sc gd f imm) = ⟨slot, sup, a, b, c, sb, sc, gd, f, imm⟩ := by
  have h1 := bit_lt sb
  have h2 := bit_lt sc
  have h3 := guard_code_lt gd
  have e1 : bitsOf (xTail b c sb sc gd f imm) 42 6 = b := by simp only [bitsOf, xTail]; omega
  have e2 : bitsOf (xTail b c sb sc gd f imm) 36 6 = c := by simp only [bitsOf, xTail]; omega
  have e3 : bitOf (xTail b c sb sc gd f imm) 35 = sb := by
    rw [bitOf, show xTail b c sb sc gd f imm / 2 ^ 35 % 2 = bitCode sb by simp only [xTail]; omega, bit_eq]
  have e4 : bitOf (xTail b c sb sc gd f imm) 34 = sc := by
    rw [bitOf, show xTail b c sb sc gd f imm / 2 ^ 34 % 2 = bitCode sc by simp only [xTail]; omega, bit_eq]
  have e5 : bitsOf (xTail b c sb sc gd f imm) 29 5 = gd.code := by simp only [bitsOf, xTail]; omega
  have e6 : bitsOf (xTail b c sb sc gd f imm) 24 5 = f := by simp only [bitsOf, xTail]; omega
  have e7 : bitsOf (xTail b c sb sc gd f imm) 0 24 = imm := by simp only [bitsOf, xTail]; omega
  simp only [fieldsOf, head_a .x op a ha, e1, e2, e3, e4, e5, e6, e7, guardOf_code]

/-! ## Reading fields -/

@[simp] theorem fields_srcB (x : Fields) : x.srcB = ⟨opndOf x.b, x.sb⟩ := rfl
@[simp] theorem fields_srcC (x : Fields) : x.srcC = ⟨opndOf x.c, x.sc⟩ := rfl
@[simp] theorem fields_opA (x : Fields) : x.opA = opndOf x.a := rfl
@[simp] theorem fields_regA (x : Fields) : x.regA = Fin.ofNat 32 x.a := rfl
@[simp] theorem fields_vA (x : Fields) : x.vA = Fin.ofNat 16 x.a := rfl
@[simp] theorem fields_vC (x : Fields) : x.vC = Fin.ofNat 16 x.c := rfl
@[simp] theorem fields_dA (x : Fields) : x.dA = dstBad x.slot x.a := rfl
@[simp] theorem fields_sA (x : Fields) : x.sA = srcBad x.slot x.a := rfl
@[simp] theorem fields_sB (x : Fields) : x.sB = srcBad x.slot x.b := rfl
@[simp] theorem fields_sC (x : Fields) : x.sC = srcBad x.slot x.c := rfl
@[simp] theorem fields_rA (x : Fields) : x.rA = decide (32 ≤ x.a) := rfl
@[simp] theorem fields_uA (x : Fields) : x.uA = (x.a != 0) := rfl
@[simp] theorem fields_uB (x : Fields) : x.uB = (x.b != 0 || x.sb) := rfl
@[simp] theorem fields_uC (x : Fields) : x.uC = (x.c != 0 || x.sc) := rfl
@[simp] theorem fields_uF (x : Fields) : x.uF = (x.f != 0) := rfl
@[simp] theorem fields_uImm (x : Fields) : x.uImm = (x.imm != 0) := rfl
@[simp] theorem fields_imm20 (x : Fields) : x.imm20 = BitVec.ofNat 20 x.imm := rfl
@[simp] theorem fields_imm24 (x : Fields) : x.imm24 = BitVec.ofNat 24 x.imm := rfl
@[simp] theorem fields_isS7 (x : Fields) : x.isS7 = (x.slot == 7) := rfl
@[simp] theorem fields_notS7 (x : Fields) : x.notS7 = (x.slot != 7) := rfl
@[simp] theorem fields_immFrom (x : Fields) (lo : Nat) : x.immFrom lo = (x.imm / 2 ^ lo != 0) := rfl
@[simp] theorem fields_ty (x : Fields) : x.ty = x.f % 16 := rfl
@[simp] theorem fields_cg (x : Fields) : x.cg = (x.f / 16 % 2 == 1) := rfl
@[simp] theorem fields_men (x : Fields) : x.men = bitOf x.imm 23 := rfl
@[simp] theorem fields_kr (x : Fields) : x.kr = bitsOf x.imm 21 2 := rfl
@[simp] theorem fields_zmf (x : Fields) : x.zmf = bitOf x.imm 20 := rfl
@[simp] theorem fields_rmf (x : Fields) : x.rmf = bitsOf x.imm 17 3 := rfl
@[simp] theorem fields_ts (x : Fields) : x.ts = bitsOf x.imm 14 3 := rfl
@[simp] theorem fields_fn (x : Fields) : x.fn = bitsOf x.imm 0 14 := rfl

/-! ## Decoding an encoded head -/

/-- What decoding comes to once the fields are known. -/
theorem decode_of (fmt : Fmt) (slot : Fin 8) (sup : Bool) (op a tail : Nat) (x : Fields) (ho : op < 256) (ha : a < 64)
    (hf : formatOf op = some fmt) (hx : fieldsOf slot sup fmt (headWord fmt op a) tail = x) {d : Draft}
    (hd : decodeOp op x = some d) : decode slot sup (headWord fmt op a) tail = d.finish := by
  simp only [decode, head_op fmt op a ho ha, head_ts fmt op a ho ha, hf, hx, hd, bne_self_eq_false, Bool.false_eq_true,
    if_false]

theorem decode_h (slot : Fin 8) (sup : Bool) (op : Nat) (ho : op < 256) (hf : formatOf op = some .h) {d : Draft}
    (hd : decodeOp op ⟨slot, sup, 0, 0, 0, false, false, .always, 0, 0⟩ = some d) :
    decode slot sup (headWord .h op 0) 0 = d.finish :=
  decode_of .h slot sup op 0 0 _ ho (by omega) hf (by simp only [fieldsOf, head_a .h op 0 (by omega)]) hd

theorem decode_r (slot : Fin 8) (sup : Bool) (op a b c f : Nat) (sb sc : Bool) (ho : op < 256)
    (hf : formatOf op = some .r) (ha : a < 64) (hb : b < 64) (hc : c < 64) (h4 : f < 4) {d : Draft}
    (hd : decodeOp op ⟨slot, sup, a, b, c, sb, sc, .always, f, 0⟩ = some d) :
    decode slot sup (headWord .r op a) (rTail b c sb sc f) = d.finish :=
  decode_of .r slot sup op a _ _ ho ha hf (fields_r slot sup op a b c f sb sc ha hb hc h4) hd

theorem decode_i (slot : Fin 8) (sup : Bool) (op a b imm : Nat) (sb : Bool) (gd : Guard) (ho : op < 256)
    (hf : formatOf op = some .i) (ha : a < 64) (hb : b < 64) (hi : imm < 2 ^ 20) {d : Draft}
    (hd : decodeOp op ⟨slot, sup, a, b, 0, sb, false, gd, 0, imm⟩ = some d) :
    decode slot sup (headWord .i op a) (iTail b sb gd imm) = d.finish :=
  decode_of .i slot sup op a _ _ ho ha hf (fields_i slot sup op a b imm sb gd ha hb hi) hd

theorem decode_x (slot : Fin 8) (sup : Bool) (op a b c f imm : Nat) (sb sc : Bool) (gd : Guard) (ho : op < 256)
    (hf : formatOf op = some .x) (ha : a < 64) (hb : b < 64) (hc : c < 64) (h5 : f < 32) (hi : imm < 2 ^ 24) {d : Draft}
    (hd : decodeOp op ⟨slot, sup, a, b, c, sb, sc, gd, f, imm⟩ = some d) :
    decode slot sup (headWord .x op a) (xTail b c sb sc gd f imm) = d.finish :=
  decode_of .x slot sup op a _ _ ho ha hf (fields_x slot sup op a b c f imm sb sc gd ha hb hc h5 hi) hd

/-- A draft no check of which fails yields its instruction. -/
theorem finish_ok (i : Insn) : Draft.finish { insn := i } = .ok i := rfl

theorem finish_of {d : Draft} (h1 : d.opnd = false) (h2 : d.field = false) (h3 : d.value = false) (h4 : d.role = false)
    (h5 : d.cw = false) : d.finish = .ok d.insn := by
  simp [Draft.finish, h1, h2, h3, h4, h5]

end Sys2Proof.Laws
end

