-- ==== Sys2Proof/Laws/PerInstr.lean ====
section
/-! SUPPORT. The round trip of every row's instruction, one lemma a constructor: decoding the words its encoder gives, in
the slot and at the level it is well-formed for, gives it back. An event is well-formed in no slot. -/

namespace Sys2Proof.Laws.RoundTrip

set_option Elab.async false
set_option linter.unusedSimpArgs false
set_option linter.unusedVariables false

open Sys2Proof Sys2Proof.Laws

/-- What is claimed of one instruction: wherever it is well-formed it has words, and they decode to it. -/
def Statement (i : Instr) : Prop :=
  ∀ (slot : Fin 8) (sup : Bool), i.wellFormed slot sup = true →
    ∃ p, encode i = some p ∧ decode slot sup p.1 p.2 = .ok (.listed i)

/-- A draft that holds the instruction and fails no check decodes to it. -/
theorem finish_eq {d : Draft} {i : Instr} (hi : d.insn = .listed i) (h1 : d.opnd = false) (h2 : d.field = false)
    (h3 : d.value = false) (h4 : d.role = false) (h5 : d.cw = false) : d.finish = .ok (.listed i) := by
  rw [finish_of h1 h2 h3 h4 h5, hi]

/-- An event has no words. -/
theorem event {i : Instr} (h : ∀ slot sup, i.wellFormed slot sup = false) : Statement i := by
  intro slot sup hw
  rw [h slot sup] at hw
  exact absurd hw (by decide)

/-- The IMM24 of a gather or scatter. -/
def gatherImm (mask : Option (Fin 4)) (scale : Fin 4) : Nat :=
  (match mask with | some k => 2 ^ 23 + k.val * 2 ^ 21 | none => 0) + scale.val

theorem gather_enc (op : Nat) (gd : Guard) (ty : GatherType) (a : Fin 16) (b : Src) (c : Fin 16) (mask : Option (Fin 4))
    (scale : Fin 4) : encGather op gd ty a b c mask scale =
      some (headWord .x op a.val, xTail b.op.code c.val b.sync false gd ty.code (gatherImm mask scale)) := by
  cases mask <;> simp [encGather, gatherImm]

theorem gatherImm_lt (mask : Option (Fin 4)) (scale : Fin 4) : gatherImm mask scale < 2 ^ 24 := by
  cases mask with
  | none => revert scale; decide
  | some k => revert k scale; decide
theorem gather_men (mask : Option (Fin 4)) (scale : Fin 4) : bitOf (gatherImm mask scale) 23 = mask.isSome := by
  cases mask with
  | none => revert scale; decide
  | some k => revert k scale; decide
theorem gather_kr (k scale : Fin 4) : Fin.ofNat 4 (bitsOf (gatherImm (some k) scale) 21 2) = k := by
  revert k scale; decide
theorem gather_kr0 (scale : Fin 4) : bitsOf (gatherImm none scale) 21 2 = 0 := by revert scale; decide
theorem gather_zm (mask : Option (Fin 4)) (scale : Fin 4) : bitOf (gatherImm mask scale) 20 = false := by
  cases mask with
  | none => revert scale; decide
  | some k => revert k scale; decide
theorem gather_rm (mask : Option (Fin 4)) (scale : Fin 4) : bitsOf (gatherImm mask scale) 17 3 = 0 := by
  cases mask with
  | none => revert scale; decide
  | some k => revert k scale; decide
theorem gather_ts (mask : Option (Fin 4)) (scale : Fin 4) : bitsOf (gatherImm mask scale) 14 3 = 0 := by
  cases mask with
  | none => revert scale; decide
  | some k => revert k scale; decide
theorem gather_unused (mask : Option (Fin 4)) (scale : Fin 4) :
    bitsOf (gatherImm mask scale) 0 14 &&& (0x3FFF ^^^ 3) = 0 := by
  cases mask with
  | none => revert scale; decide
  | some k => revert k scale; decide
theorem gather_fn (mask : Option (Fin 4)) (scale : Fin 4) : Fin.ofNat 4 (bitsOf (gatherImm mask scale) 0 14) = scale := by
  cases mask with
  | none => revert scale; decide
  | some k => revert k scale; decide

/-- The three-operand operations of R122 of spec/07. -/
theorem alu3 {op : Nat} {mk : Opnd → Src → Src → Instr} (ho : op < 256) (hf : formatOf op = some .r)
    (hd : ∀ x, decodeOp op x = some (draftAlu3 mk x))
    (hw : ∀ a b c slot sup, (mk a b c).wellFormed slot sup = (a.dstOk slot && b.ok slot && c.ok slot))
    (he : ∀ a b c, encode (mk a b c) = encR3 op a b c 0) (a : Opnd) (b c : Src) : Statement (mk a b c) := by
  intro slot sup h
  simp only [hw, Src.ok, Bool.and_eq_true] at h
  refine ⟨_, he a b c, (decode_r slot sup op _ _ _ _ _ _ ho hf (opnd_code_lt _) (opnd_code_lt _) (opnd_code_lt _)
    (by decide) (hd _)).trans (finish_eq ?_ ?_ ?_ ?_ ?_ ?_)⟩ <;> simp [draftAlu3, h]

/-- The unary operations of R122 of spec/07. -/
theorem alu1 {op : Nat} {mk : Opnd → Src → Instr} (ho : op < 256) (hf : formatOf op = some .r)
    (hd : ∀ x, decodeOp op x = some (draftAlu1 mk x))
    (hw : ∀ a b slot sup, (mk a b).wellFormed slot sup = (a.dstOk slot && b.ok slot))
    (he : ∀ a b, encode (mk a b) = encR1 op a b) (a : Opnd) (b : Src) : Statement (mk a b) := by
  intro slot sup h
  simp only [hw, Src.ok, Bool.and_eq_true] at h
  refine ⟨_, he a b, (decode_r slot sup op _ _ _ _ _ _ ho hf (opnd_code_lt _) (opnd_code_lt _) (by decide)
    (by decide) (hd _)).trans (finish_eq ?_ ?_ ?_ ?_ ?_ ?_)⟩ <;> simp [draftAlu1, h]

/-- The immediate operations of R124 of spec/07. -/
theorem aluI {op : Nat} {mk : Guard → Opnd → Src → BitVec 20 → Instr} (ho : op < 256) (hf : formatOf op = some .i)
    (hd : ∀ x, decodeOp op x = some (draftImm mk x))
    (hw : ∀ gd a b v slot sup, (mk gd a b v).wellFormed slot sup = (a.dstOk slot && b.ok slot))
    (he : ∀ gd a b (v : BitVec 20), encode (mk gd a b v) = encI op a.code gd b v.toNat) (gd : Guard) (a : Opnd) (b : Src)
    (v : BitVec 20) : Statement (mk gd a b v) := by
  intro slot sup h
  simp only [hw, Src.ok, Bool.and_eq_true] at h
  refine ⟨_, he gd a b v, (decode_i slot sup op _ _ _ _ _ ho hf (opnd_code_lt _) (opnd_code_lt _) v.isLt
    (hd _)).trans (finish_eq ?_ ?_ ?_ ?_ ?_ ?_)⟩ <;> simp [draftImm, h]

theorem br (gd : Guard) (target : BitVec 20) : Statement (.br gd target) := by
  intro slot sup h
  simp only [Instr.wellFormed, Src.ok, Bool.and_eq_true, bne_iff_ne, ne_eq, beq_iff_eq, decide_eq_true_eq] at h
  have htarget := target.isLt
  refine ⟨_, rfl, (decode_i slot sup 0x01 _ 0 _ _ _ (by decide) (by decide) (by decide) (by decide) (by omega) rfl).trans
    (finish_eq ?_ ?_ ?_ ?_ ?_ ?_)⟩ <;> simp [h]

theorem call (gd : Guard) (a : Opnd) (target : BitVec 20) : Statement (.call gd a target) := by
  intro slot sup h
  simp only [Instr.wellFormed, Src.ok, Bool.and_eq_true, bne_iff_ne, ne_eq, beq_iff_eq, decide_eq_true_eq] at h
  have htarget := target.isLt
  refine ⟨_, rfl, (decode_i slot sup 0x02 _ 0 _ _ _ (by decide) (by decide) (opnd_code_lt _) (by decide) (by omega) rfl).trans
    (finish_eq ?_ ?_ ?_ ?_ ?_ ?_)⟩ <;> simp [h]

theorem loop (gd : Guard) (a : Opnd) (target : BitVec 20) : Statement (.loop gd a target) := by
  intro slot sup h
  simp only [Instr.wellFormed, Src.ok, Bool.and_eq_true, bne_iff_ne, ne_eq, beq_iff_eq, decide_eq_true_eq] at h
  have htarget := target.isLt
  refine ⟨_, rfl, (decode_i slot sup 0x04 _ 0 _ _ _ (by decide) (by decide) (opnd_code_lt _) (by decide) (by omega) rfl).trans
    (finish_eq ?_ ?_ ?_ ?_ ?_ ?_)⟩ <;> simp [h]

theorem trap (gd : Guard) (imm : BitVec 20) : Statement (.trap gd imm) := by
  intro slot sup h
  simp only [Instr.wellFormed, Src.ok, Bool.and_eq_true, bne_iff_ne, ne_eq, beq_iff_eq, decide_eq_true_eq] at h
  have himm := imm.isLt
  refine ⟨_, rfl, (decode_i slot sup 0x06 _ 0 _ _ _ (by decide) (by decide) (by decide) (by decide) (by omega) rfl).trans
    (finish_eq ?_ ?_ ?_ ?_ ?_ ?_)⟩ <;> simp [h]

theorem tret : Statement (.tret) := by
  intro slot sup h
  simp only [Instr.wellFormed, Src.ok, Bool.and_eq_true, bne_iff_ne, ne_eq, beq_iff_eq, decide_eq_true_eq] at h
  refine ⟨_, rfl, (decode_h slot sup 0x07 (by decide) (by decide) rfl).trans
    (finish_eq ?_ ?_ ?_ ?_ ?_ ?_)⟩ <;> simp [h]

theorem crd (gd : Guard) (a : Opnd) (num : BitVec 12) : Statement (.crd gd a num) := by
  intro slot sup h
  simp only [Instr.wellFormed, Src.ok, Bool.and_eq_true, bne_iff_ne, ne_eq, beq_iff_eq, decide_eq_true_eq] at h
  have hnum := num.isLt
  refine ⟨_, rfl, (decode_i slot sup 0x08 _ 0 _ _ _ (by decide) (by decide) (opnd_code_lt _) (by decide) (by omega) rfl).trans
    (finish_eq ?_ ?_ ?_ ?_ ?_ ?_)⟩
  · simp
  · simp [h]
  · simp; omega
  · rfl
  · rfl
  · simp [Nat.mod_eq_of_lt hnum, h]

theorem cwr (gd : Guard) (num : BitVec 12) (b : Src) : Statement (.cwr gd num b) := by
  intro slot sup h
  simp only [Instr.wellFormed, Src.ok, Bool.and_eq_true, bne_iff_ne, ne_eq, beq_iff_eq, decide_eq_true_eq] at h
  have hnum := num.isLt
  refine ⟨_, rfl, (decode_i slot sup 0x09 _ _ _ _ _ (by decide) (by decide) (by decide) (opnd_code_lt _) (by omega) rfl).trans
    (finish_eq ?_ ?_ ?_ ?_ ?_ ?_)⟩
  · simp
  · simp [h]
  · simp; omega
  · rfl
  · rfl
  · simp [Nat.mod_eq_of_lt hnum, h]

theorem retire : Statement (.retire) := by
  intro slot sup h
  simp only [Instr.wellFormed, Src.ok, Bool.and_eq_true, bne_iff_ne, ne_eq, beq_iff_eq, decide_eq_true_eq] at h
  refine ⟨_, rfl, (decode_h slot sup 0x0A (by decide) (by decide) rfl).trans
    (finish_eq ?_ ?_ ?_ ?_ ?_ ?_)⟩ <;> simp [h]

theorem brk : Statement (.brk) := by
  intro slot sup h
  simp only [Instr.wellFormed, Src.ok, Bool.and_eq_true, bne_iff_ne, ne_eq, beq_iff_eq, decide_eq_true_eq] at h
  refine ⟨_, rfl, (decode_h slot sup 0x0C (by decide) (by decide) rfl).trans
    (finish_eq ?_ ?_ ?_ ?_ ?_ ?_)⟩ <;> simp [h]

theorem add (a : Opnd) (b : Src) (c : Src) : Statement (.add a b c) :=
  alu3 (by decide) (by decide) (fun _ => rfl) (fun _ _ _ _ _ => rfl) (fun _ _ _ => rfl) a b c

theorem sub (a : Opnd) (b : Src) (c : Src) : Statement (.sub a b c) :=
  alu3 (by decide) (by decide) (fun _ => rfl) (fun _ _ _ _ _ => rfl) (fun _ _ _ => rfl) a b c

theorem mul (a : Opnd) (b : Src) (c : Src) : Statement (.mul a b c) :=
  alu3 (by decide) (by decide) (fun _ => rfl) (fun _ _ _ _ _ => rfl) (fun _ _ _ => rfl) a b c

theorem mulh (a : Opnd) (b : Src) (c : Src) : Statement (.mulh a b c) :=
  alu3 (by decide) (by decide) (fun _ => rfl) (fun _ _ _ _ _ => rfl) (fun _ _ _ => rfl) a b c

theorem mulhu (a : Opnd) (b : Src) (c : Src) : Statement (.mulhu a b c) :=
  alu3 (by decide) (by decide) (fun _ => rfl) (fun _ _ _ _ _ => rfl) (fun _ _ _ => rfl) a b c

theorem div (a : Opnd) (b : Src) (c : Src) : Statement (.div a b c) :=
  alu3 (by decide) (by decide) (fun _ => rfl) (fun _ _ _ _ _ => rfl) (fun _ _ _ => rfl) a b c

theorem divu (a : Opnd) (b : Src) (c : Src) : Statement (.divu a b c) :=
  alu3 (by decide) (by decide) (fun _ => rfl) (fun _ _ _ _ _ => rfl) (fun _ _ _ => rfl) a b c

theorem rem (a : Opnd) (b : Src) (c : Src) : Statement (.rem a b c) :=
  alu3 (by decide) (by decide) (fun _ => rfl) (fun _ _ _ _ _ => rfl) (fun _ _ _ => rfl) a b c

theorem remu (a : Opnd) (b : Src) (c : Src) : Statement (.remu a b c) :=
  alu3 (by decide) (by decide) (fun _ => rfl) (fun _ _ _ _ _ => rfl) (fun _ _ _ => rfl) a b c

theorem and (a : Opnd) (b : Src) (c : Src) : Statement (.and a b c) :=
  alu3 (by decide) (by decide) (fun _ => rfl) (fun _ _ _ _ _ => rfl) (fun _ _ _ => rfl) a b c

theorem or (a : Opnd) (b : Src) (c : Src) : Statement (.or a b c) :=
  alu3 (by decide) (by decide) (fun _ => rfl) (fun _ _ _ _ _ => rfl) (fun _ _ _ => rfl) a b c

theorem xor (a : Opnd) (b : Src) (c : Src) : Statement (.xor a b c) :=
  alu3 (by decide) (by decide) (fun _ => rfl) (fun _ _ _ _ _ => rfl) (fun _ _ _ => rfl) a b c

theorem shl (a : Opnd) (b : Src) (c : Src) : Statement (.shl a b c) :=
  alu3 (by decide) (by decide) (fun _ => rfl) (fun _ _ _ _ _ => rfl) (fun _ _ _ => rfl) a b c

theorem shr (a : Opnd) (b : Src) (c : Src) : Statement (.shr a b c) :=
  alu3 (by decide) (by decide) (fun _ => rfl) (fun _ _ _ _ _ => rfl) (fun _ _ _ => rfl) a b c

theorem sar (a : Opnd) (b : Src) (c : Src) : Statement (.sar a b c) :=
  alu3 (by decide) (by decide) (fun _ => rfl) (fun _ _ _ _ _ => rfl) (fun _ _ _ => rfl) a b c

theorem ror (a : Opnd) (b : Src) (c : Src) : Statement (.ror a b c) :=
  alu3 (by decide) (by decide) (fun _ => rfl) (fun _ _ _ _ _ => rfl) (fun _ _ _ => rfl) a b c

theorem min (a : Opnd) (b : Src) (c : Src) : Statement (.min a b c) :=
  alu3 (by decide) (by decide) (fun _ => rfl) (fun _ _ _ _ _ => rfl) (fun _ _ _ => rfl) a b c

theorem max (a : Opnd) (b : Src) (c : Src) : Statement (.max a b c) :=
  alu3 (by decide) (by decide) (fun _ => rfl) (fun _ _ _ _ _ => rfl) (fun _ _ _ => rfl) a b c

theorem minu (a : Opnd) (b : Src) (c : Src) : Statement (.minu a b c) :=
  alu3 (by decide) (by decide) (fun _ => rfl) (fun _ _ _ _ _ => rfl) (fun _ _ _ => rfl) a b c

theorem maxu (a : Opnd) (b : Src) (c : Src) : Statement (.maxu a b c) :=
  alu3 (by decide) (by decide) (fun _ => rfl) (fun _ _ _ _ _ => rfl) (fun _ _ _ => rfl) a b c

theorem clz (a : Opnd) (b : Src) : Statement (.clz a b) :=
  alu1 (by decide) (by decide) (fun _ => rfl) (fun _ _ _ _ => rfl) (fun _ _ => rfl) a b

theorem popc (a : Opnd) (b : Src) : Statement (.popc a b) :=
  alu1 (by decide) (by decide) (fun _ => rfl) (fun _ _ _ _ => rfl) (fun _ _ => rfl) a b

theorem ctz (a : Opnd) (b : Src) : Statement (.ctz a b) :=
  alu1 (by decide) (by decide) (fun _ => rfl) (fun _ _ _ _ => rfl) (fun _ _ => rfl) a b

theorem addi (gd : Guard) (a : Opnd) (b : Src) (imm : BitVec 20) : Statement (.addi gd a b imm) :=
  aluI (by decide) (by decide) (fun _ => rfl) (fun _ _ _ _ _ _ => rfl) (fun _ _ _ _ => rfl) gd a b imm

theorem andi (gd : Guard) (a : Opnd) (b : Src) (imm : BitVec 20) : Statement (.andi gd a b imm) :=
  aluI (by decide) (by decide) (fun _ => rfl) (fun _ _ _ _ _ _ => rfl) (fun _ _ _ _ => rfl) gd a b imm

theorem ori (gd : Guard) (a : Opnd) (b : Src) (imm : BitVec 20) : Statement (.ori gd a b imm) :=
  aluI (by decide) (by decide) (fun _ => rfl) (fun _ _ _ _ _ _ => rfl) (fun _ _ _ _ => rfl) gd a b imm

theorem xori (gd : Guard) (a : Opnd) (b : Src) (imm : BitVec 20) : Statement (.xori gd a b imm) :=
  aluI (by decide) (by decide) (fun _ => rfl) (fun _ _ _ _ _ _ => rfl) (fun _ _ _ _ => rfl) gd a b imm

theorem shi (gd : Guard) (a : Opnd) (b : Src) (kind : ShiftKind) (amount : Fin 64) : Statement (.shi gd a b kind amount) := by
  intro slot sup h
  simp only [Instr.wellFormed, Src.ok, Bool.and_eq_true, bne_iff_ne, ne_eq, beq_iff_eq, decide_eq_true_eq] at h
  have hamount := amount.isLt
  have hk : kind.code < 4 := by cases kind <;> decide
  have hs : shiftKindOf kind.code = kind := by cases kind <;> rfl
  have e1 : bitsOf (kind.code * 64 + amount.val) 6 2 = kind.code := by simp only [bitsOf]; omega
  have e2 : Fin.ofNat 64 (kind.code * 64 + amount.val) = amount := by simp [Fin.ext_iff, Fin.ofNat]
  refine ⟨_, rfl, (decode_i slot sup 0x3B _ _ _ _ _ (by decide) (by decide) (opnd_code_lt _) (opnd_code_lt _) (by omega) rfl).trans
    (finish_eq ?_ ?_ ?_ ?_ ?_ ?_)⟩ <;> simp [h, e1, e2, hs] <;> omega

theorem cmp (p : Fin 16) (cc : CmpCond) (b : Src) (c : Src) : Statement (.cmp p cc b c) := by
  intro slot sup h
  simp only [Instr.wellFormed, Src.ok, Bool.and_eq_true, bne_iff_ne, ne_eq, beq_iff_eq, decide_eq_true_eq] at h
  have hp := p.isLt
  have hs : cmpCondOf cc.code = cc := by cases cc <;> rfl
  refine ⟨_, rfl, (decode_r slot sup 0x3E _ _ _ _ _ _ (by decide) (by decide) (by omega) (opnd_code_lt _) (opnd_code_lt _) (by cases cc <;> decide) rfl).trans
    (finish_eq ?_ ?_ ?_ ?_ ?_ ?_)⟩ <;> simp [h, hs]

theorem cmpu (p : Fin 16) (cc : CmpuCond) (b : Src) (c : Src) : Statement (.cmpu p cc b c) := by
  intro slot sup h
  simp only [Instr.wellFormed, Src.ok, Bool.and_eq_true, bne_iff_ne, ne_eq, beq_iff_eq, decide_eq_true_eq] at h
  have hp := p.isLt
  have hs : cmpuCondOf cc.code = cc := by cases cc <;> rfl
  refine ⟨_, rfl, (decode_r slot sup 0x3F _ _ _ _ _ _ (by decide) (by decide) (by omega) (opnd_code_lt _) (opnd_code_lt _) (by cases cc <;> decide) rfl).trans
    (finish_eq ?_ ?_ ?_ ?_ ?_ ?_)⟩ <;> simp [h, hs]

theorem cmpi (gd : Guard) (p : Fin 16) (cc : CmpiCond) (b : Src) (imm : BitVec 16) : Statement (.cmpi gd p cc b imm) := by
  intro slot sup h
  simp only [Instr.wellFormed, Src.ok, Bool.and_eq_true, bne_iff_ne, ne_eq, beq_iff_eq, decide_eq_true_eq] at h
  have hp := p.isLt
  have himm := imm.isLt
  have hk : cc.code < 8 := by
    cases cc with
    | signed c => cases c <;> decide
    | unsigned c => cases c <;> decide
  have hs : cmpiCondOf cc.code = cc := by
    cases cc with
    | signed c => cases c <;> rfl
    | unsigned c => cases c <;> rfl
  have e1 : bitsOf (cc.code * 65536 + imm.toNat) 16 3 = cc.code := by simp only [bitsOf]; omega
  have e2 : BitVec.ofNat 16 (cc.code * 65536 + imm.toNat) = imm := by
    apply BitVec.eq_of_toNat_eq; simp only [BitVec.toNat_ofNat]; omega
  refine ⟨_, rfl, (decode_i slot sup 0x40 _ _ _ _ _ (by decide) (by decide) (by omega) (opnd_code_lt _) (by omega) rfl).trans
    (finish_eq ?_ ?_ ?_ ?_ ?_ ?_)⟩ <;> simp [h, e1, e2, hs] <;> omega

theorem vgath (gd : Guard) (ty : GatherType) (a : Fin 16) (b : Src) (c : Fin 16) (mask : Option (Fin 4)) (scale : Fin 4) : Statement (.vgath gd ty a b c mask scale) := by
  intro slot sup h
  simp only [Instr.wellFormed, Src.ok] at h
  have ha := a.isLt
  have hc := c.isLt
  have e1 : gatherTypeOf ty.code = ty := by cases ty <;> rfl
  have e2 : ty.code < 16 := by cases ty <;> decide
  have e3 : (ty.code == 2 || ty.code == 3 || ty.code == 6 || ty.code == 7) = true := by cases ty <;> rfl
  have e4 : ty.code % 16 = ty.code := Nat.mod_eq_of_lt e2
  have e5 : ty.code / 16 = 0 := Nat.div_eq_of_lt e2
  have he : encode (.vgath gd ty a b c mask scale) = some (headWord .x 0x89 a.val, xTail b.op.code c.val b.sync false gd ty.code
      (gatherImm mask scale)) := by rw [encode]; exact gather_enc 0x89 gd ty a b c mask scale
  refine ⟨_, he, (decode_x slot sup 0x89 _ _ _ _ (gatherImm mask scale) _ _ _ (by decide) (by decide) (by omega) (opnd_code_lt _)
    (by omega) (by omega) (gatherImm_lt mask scale) rfl).trans (finish_eq ?_ ?_ ?_ ?_ ?_ ?_)⟩
  · cases mask <;> simp [decodeGather, e1, e4, gather_men, gather_kr, gather_fn, -Fin.ofNat_eq_cast]
  · simp [decodeGather, h]
  · simp only [decodeGather, vField, fields_cg, fields_men, fields_kr, fields_zmf, fields_rmf, fields_ts, fields_fn, e5,
      gather_zm, gather_rm, gather_ts, gather_unused]
    cases mask <;> simp [gather_men, gather_kr0]
  · simp [decodeGather, vValue, e4]; cases ty <;> simp [GatherType.code]
  · rfl
  · rfl

theorem vscat (gd : Guard) (ty : GatherType) (a : Fin 16) (b : Src) (c : Fin 16) (mask : Option (Fin 4)) (scale : Fin 4) : Statement (.vscat gd ty a b c mask scale) := by
  intro slot sup h
  simp only [Instr.wellFormed, Src.ok] at h
  have ha := a.isLt
  have hc := c.isLt
  have e1 : gatherTypeOf ty.code = ty := by cases ty <;> rfl
  have e2 : ty.code < 16 := by cases ty <;> decide
  have e3 : (ty.code == 2 || ty.code == 3 || ty.code == 6 || ty.code == 7) = true := by cases ty <;> rfl
  have e4 : ty.code % 16 = ty.code := Nat.mod_eq_of_lt e2
  have e5 : ty.code / 16 = 0 := Nat.div_eq_of_lt e2
  have he : encode (.vscat gd ty a b c mask scale) = some (headWord .x 0x8A a.val, xTail b.op.code c.val b.sync false gd ty.code
      (gatherImm mask scale)) := by rw [encode]; exact gather_enc 0x8A gd ty a b c mask scale
  refine ⟨_, he, (decode_x slot sup 0x8A _ _ _ _ (gatherImm mask scale) _ _ _ (by decide) (by decide) (by omega) (opnd_code_lt _)
    (by omega) (by omega) (gatherImm_lt mask scale) rfl).trans (finish_eq ?_ ?_ ?_ ?_ ?_ ?_)⟩
  · cases mask <;> simp [decodeGather, e1, e4, gather_men, gather_kr, gather_fn, -Fin.ofNat_eq_cast]
  · simp [decodeGather, h]
  · simp only [decodeGather, vField, fields_cg, fields_men, fields_kr, fields_zmf, fields_rmf, fields_ts, fields_fn, e5,
      gather_zm, gather_rm, gather_ts, gather_unused]
    cases mask <;> simp [gather_men, gather_kr0]
  · simp [decodeGather, vValue, e4]; cases ty <;> simp [GatherType.code]
  · rfl
  · rfl

theorem mlease (gd : Guard) : Statement (.mlease gd) := by
  intro slot sup h
  simp only [Instr.wellFormed, Src.ok, Bool.and_eq_true, bne_iff_ne, ne_eq, beq_iff_eq, decide_eq_true_eq] at h
  refine ⟨_, rfl, (decode_i slot sup 0x90 _ 0 _ _ _ (by decide) (by decide) (by decide) (by decide) (by omega) rfl).trans
    (finish_eq ?_ ?_ ?_ ?_ ?_ ?_)⟩ <;> simp [h]

theorem mfree : Statement (.mfree) := by
  intro slot sup h
  simp only [Instr.wellFormed, Src.ok, Bool.and_eq_true, bne_iff_ne, ne_eq, beq_iff_eq, decide_eq_true_eq] at h
  refine ⟨_, rfl, (decode_h slot sup 0x91 (by decide) (by decide) rfl).trans
    (finish_eq ?_ ?_ ?_ ?_ ?_ ?_)⟩ <;> simp [h]

theorem mprog (gd : Guard) (b : Src) (n : Fin 5) : Statement (.mprog gd b n) := by
  intro slot sup h
  simp only [Instr.wellFormed, Src.ok, Bool.and_eq_true, bne_iff_ne, ne_eq, beq_iff_eq, decide_eq_true_eq] at h
  have hn := n.isLt
  have e : Fin.ofNat 5 (n.val % 8) = n := by revert n; decide
  refine ⟨_, rfl, (decode_i slot sup 0x92 _ _ _ _ _ (by decide) (by decide) (by decide) (opnd_code_lt _) (by omega) rfl).trans
    (finish_eq ?_ ?_ ?_ ?_ ?_ ?_)⟩ <;> simp [h, e] <;> omega

theorem mwld (gd : Guard) (s24 : Bool) (e : Fin 64) (b : Src) (c : Src) (k : Fin 128) (n : Fin 128) : Statement (.mwld gd s24 e b c k n) := by
  intro slot sup h
  simp only [Instr.wellFormed, Src.ok, Bool.and_eq_true, bne_iff_ne, ne_eq, beq_iff_eq, decide_eq_true_eq] at h
  have hs24 := bit_lt s24
  have he := e.isLt
  have hk := k.isLt
  have hn := n.isLt
  have e : (bitCode s24 % 4 == 1) = s24 := by cases s24 <;> rfl
  refine ⟨_, rfl, (decode_x slot sup 0x93 _ _ _ _ _ _ _ _ (by decide) (by decide) (by decide) (opnd_code_lt _) (opnd_code_lt _) (by omega) (by omega) rfl).trans
    (finish_eq ?_ ?_ ?_ ?_ ?_ ?_)⟩ <;>
    simp [h, e, bitsOf, Fin.ext_iff, Fin.ofNat] <;> omega

theorem mma (gd : Guard) (e : Fin 64) (b : Src) (c : Src) (row0 : Fin 128) (m : Fin 128) : Statement (.mma gd e b c row0 m) := by
  intro slot sup h
  simp only [Instr.wellFormed, Src.ok, Bool.and_eq_true, bne_iff_ne, ne_eq, beq_iff_eq, decide_eq_true_eq] at h
  have he := e.isLt
  have hrow0 := row0.isLt
  have hm := m.isLt
  have e1 : Fin.ofNat 64 (e.val + m.val * 64 + row0.val * 8192) = e := Fin.ext (by simp only [Fin.ofNat, bitsOf]; omega)
  have e2 : Fin.ofNat 128 (bitsOf (e.val + m.val * 64 + row0.val * 8192) 13 7) = row0 := Fin.ext (by simp only [Fin.ofNat, bitsOf]; omega)
  have e3 : Fin.ofNat 128 (bitsOf (e.val + m.val * 64 + row0.val * 8192) 6 7) = m := Fin.ext (by simp only [Fin.ofNat, bitsOf]; omega)
  have e4 : bitsOf (e.val + m.val * 64 + row0.val * 8192) 13 7 = row0.val := by simp only [bitsOf]; omega
  have e5 : bitsOf (e.val + m.val * 64 + row0.val * 8192) 6 7 = m.val := by simp only [bitsOf]; omega
  refine ⟨_, rfl, (decode_x slot sup 0x94 _ _ _ _ _ _ _ _ (by decide) (by decide) (by decide) (opnd_code_lt _) (opnd_code_lt _) (by omega) (by omega) rfl).trans
    (finish_eq ?_ ?_ ?_ ?_ ?_ ?_)⟩
  · simp [e1, e2, e3, -Fin.ofNat_eq_cast]
  · simp [h]
  · simp; omega
  · simp only [e4, e5, decide_eq_false_iff_not]; omega
  · simp [h]
  · rfl

theorem mrd (gd : Guard) (clr : Bool) (b : Src) (c : Src) (row0 : Fin 128) (m : Fin 128) (n : Fin 128) : Statement (.mrd gd clr b c row0 m n) := by
  intro slot sup h
  simp only [Instr.wellFormed, Src.ok, Bool.and_eq_true, bne_iff_ne, ne_eq, beq_iff_eq, decide_eq_true_eq] at h
  have hclr := bit_lt clr
  have hrow0 := row0.isLt
  have hm := m.isLt
  have hn := n.isLt
  have e : (bitCode clr % 2 == 1) = clr := by cases clr <;> rfl
  refine ⟨_, rfl, (decode_x slot sup 0x95 _ _ _ _ _ _ _ _ (by decide) (by decide) (by decide) (opnd_code_lt _) (opnd_code_lt _) (by omega) (by omega) rfl).trans
    (finish_eq ?_ ?_ ?_ ?_ ?_ ?_)⟩ <;>
    simp [h, e, bitsOf, Fin.ext_iff, Fin.ofNat] <;> omega

theorem mclr (gd : Guard) (b : Src) (row0 : Fin 128) (rows : Fin 128) : Statement (.mclr gd b row0 rows) := by
  intro slot sup h
  simp only [Instr.wellFormed, Src.ok, Bool.and_eq_true, bne_iff_ne, ne_eq, beq_iff_eq, decide_eq_true_eq] at h
  have hrow0 := row0.isLt
  have hrows := rows.isLt
  refine ⟨_, rfl, (decode_i slot sup 0x96 _ _ _ _ _ (by decide) (by decide) (by decide) (opnd_code_lt _) (by omega) rfl).trans
    (finish_eq ?_ ?_ ?_ ?_ ?_ ?_)⟩ <;>
    simp [h, bitsOf, bitOf, Fin.ext_iff, Fin.ofNat] <;> omega

theorem mcfg (gd : Guard) (ta : Bool) (osat : Bool) : Statement (.mcfg gd ta osat) := by
  intro slot sup h
  simp only [Instr.wellFormed, Src.ok, Bool.and_eq_true, bne_iff_ne, ne_eq, beq_iff_eq, decide_eq_true_eq] at h
  have hta := bit_lt ta
  have hosat := bit_lt osat
  have e1 : bitOf (bitCode ta + bitCode osat * 2) 0 = ta := by cases ta <;> cases osat <;> rfl
  have e2 : bitOf (bitCode ta + bitCode osat * 2) 1 = osat := by cases ta <;> cases osat <;> rfl
  refine ⟨_, rfl, (decode_i slot sup 0x97 _ 0 _ _ _ (by decide) (by decide) (by decide) (by decide) (by omega) rfl).trans
    (finish_eq ?_ ?_ ?_ ?_ ?_ ?_)⟩ <;> simp [h, e1, e2] <;> omega

theorem mstat (gd : Guard) (a : Fin 32) : Statement (.mstat gd a) := by
  intro slot sup h
  simp only [Instr.wellFormed, Src.ok, Bool.and_eq_true, bne_iff_ne, ne_eq, beq_iff_eq, decide_eq_true_eq] at h
  have ha := a.isLt
  refine ⟨_, rfl, (decode_i slot sup 0x98 _ 0 _ _ _ (by decide) (by decide) (by omega) (by decide) (by omega) rfl).trans
    (finish_eq ?_ ?_ ?_ ?_ ?_ ?_)⟩ <;> simp [h]

theorem dwin (gd : Guard) (ch : Fin 16) (a : Opnd) (b : Src) (c : Src) (ty : Fin 16) (tx : Fin 16) (p0 : BitVec 16) : Statement (.dwin gd ch a b c ty tx p0) := by
  intro slot sup h
  simp only [Instr.wellFormed, Src.ok, Bool.and_eq_true, bne_iff_ne, ne_eq, beq_iff_eq, decide_eq_true_eq] at h
  have hch := ch.isLt
  have hty := ty.isLt
  have htx := tx.isLt
  have hp0 := p0.isLt
  have e1 : Fin.ofNat 16 (ty.val + tx.val * 16 + p0.toNat * 256) = ty := Fin.ext (by simp only [Fin.ofNat, bitsOf]; omega)
  have e2 : Fin.ofNat 16 (bitsOf (ty.val + tx.val * 16 + p0.toNat * 256) 4 4) = tx := Fin.ext (by simp only [Fin.ofNat, bitsOf]; omega)
  have e3 : BitVec.ofNat 16 (bitsOf (ty.val + tx.val * 16 + p0.toNat * 256) 8 16) = p0 := by
    apply BitVec.eq_of_toNat_eq; simp only [BitVec.toNat_ofNat, bitsOf]; omega
  have e4 : Fin.ofNat 16 ch.val = ch := Fin.ext (by simp only [Fin.ofNat]; omega)
  refine ⟨_, rfl, (decode_x slot sup 0xA2 _ _ _ _ _ _ _ _ (by decide) (by decide) (opnd_code_lt _) (opnd_code_lt _) (opnd_code_lt _) (by omega) (by omega) rfl).trans
    (finish_eq ?_ ?_ ?_ ?_ ?_ ?_)⟩
  · simp [e1, e2, e3, e4, -Fin.ofNat_eq_cast]
  · obtain ⟨⟨⟨rfl, h2⟩, h3⟩, h4⟩ := h; simp [h2, h3, h4]
  · simp
  · rfl
  · simp [h]
  · rfl

theorem dcan (gd : Guard) (ch : Fin 16) (b : Src) : Statement (.dcan gd ch b) := by
  intro slot sup h
  simp only [Instr.wellFormed, Src.ok, Bool.and_eq_true, bne_iff_ne, ne_eq, beq_iff_eq, decide_eq_true_eq] at h
  have hch := ch.isLt
  have e : bitOf ch.val 4 = false := by revert ch; decide
  have e4 : Fin.ofNat 16 ch.val = ch := Fin.ext (by simp only [Fin.ofNat]; omega)
  refine ⟨_, rfl, (decode_i slot sup 0xA6 _ _ _ _ _ (by decide) (by decide) (by decide) (opnd_code_lt _) (by omega) rfl).trans
    (finish_eq ?_ ?_ ?_ ?_ ?_ ?_)⟩
  · simp [e, e4]
  · obtain ⟨rfl, h2⟩ := h; simp [e, h2]
  · simp [e]; omega
  · rfl
  · simp [h]
  · rfl

theorem dcanResume (gd : Guard) (ch : Fin 16) : Statement (.dcanResume gd ch) := by
  intro slot sup h
  simp only [Instr.wellFormed, Src.ok, Bool.and_eq_true, bne_iff_ne, ne_eq, beq_iff_eq, decide_eq_true_eq] at h
  have hch := ch.isLt
  have e : bitOf (ch.val + 16) 4 = true := by revert ch; decide
  refine ⟨_, rfl, (decode_i slot sup 0xA6 _ 0 _ _ _ (by decide) (by decide) (by decide) (by decide) (by omega) rfl).trans
    (finish_eq ?_ ?_ ?_ ?_ ?_ ?_)⟩ <;> simp [h, e, Fin.ext_iff, Fin.ofNat] <;> omega

theorem hinit (gd : Guard) (scope : Scope) (b : Src) (c : Src) (disp : BitVec 24) : Statement (.hinit gd scope b c disp) := by
  intro slot sup h
  simp only [Instr.wellFormed, Src.ok, Bool.and_eq_true, bne_iff_ne, ne_eq, beq_iff_eq, decide_eq_true_eq] at h
  have hdisp := disp.isLt
  have e : scopeOf (scope.code % 8) = scope := by cases scope <;> rfl
  have hc : 1 ≤ scope.code ∧ scope.code ≤ 4 := by
    revert h; cases scope <;> simp [Scope.hurdle, Scope.code]
  refine ⟨_, rfl, (decode_x slot sup 0xD5 _ _ _ _ _ _ _ _ (by decide) (by decide) (by decide) (opnd_code_lt _) (opnd_code_lt _) (by omega) (by omega) rfl).trans
    (finish_eq ?_ ?_ ?_ ?_ ?_ ?_)⟩ <;> simp [h, e] <;> omega

theorem harr (gd : Guard) (a : Fin 32) (b : Src) (disp : BitVec 24) : Statement (.harr gd a b disp) := by
  intro slot sup h
  simp only [Instr.wellFormed, Src.ok, Bool.and_eq_true, bne_iff_ne, ne_eq, beq_iff_eq, decide_eq_true_eq] at h
  have ha := a.isLt
  have hdisp := disp.isLt
  refine ⟨_, rfl, (decode_x slot sup 0xD6 _ _ 0 _ _ _ _ _ (by decide) (by decide) (by omega) (opnd_code_lt _) (by decide) (by omega) (by omega) rfl).trans
    (finish_eq ?_ ?_ ?_ ?_ ?_ ?_)⟩ <;> simp [h]

theorem hwait (gd : Guard) (a : Fin 32) (b : Src) (disp : BitVec 20) : Statement (.hwait gd a b disp) := by
  intro slot sup h
  simp only [Instr.wellFormed, Src.ok, Bool.and_eq_true, bne_iff_ne, ne_eq, beq_iff_eq, decide_eq_true_eq] at h
  have ha := a.isLt
  have hdisp := disp.isLt
  refine ⟨_, rfl, (decode_i slot sup 0xD7 _ _ _ _ _ (by decide) (by decide) (by omega) (opnd_code_lt _) (by omega) rfl).trans
    (finish_eq ?_ ?_ ?_ ?_ ?_ ?_)⟩ <;> simp [h]

theorem rrel (gd : Guard) (scope : Scope) : Statement (.rrel gd scope) := by
  intro slot sup h
  simp only [Instr.wellFormed, Src.ok, Bool.and_eq_true, bne_iff_ne, ne_eq, beq_iff_eq, decide_eq_true_eq] at h
  have e : scopeOf (scope.code % 8) = scope := by cases scope <;> rfl
  have hc : 1 ≤ scope.code ∧ scope.code ≤ 5 := by
    revert h; cases scope <;> simp [Scope.release, Scope.code]
  refine ⟨_, rfl, (decode_i slot sup 0xE0 _ 0 _ _ _ (by decide) (by decide) (by decide) (by decide) (by omega) rfl).trans
    (finish_eq ?_ ?_ ?_ ?_ ?_ ?_)⟩ <;> simp [h, e] <;> omega

theorem rmark (gd : Guard) (a : Fin 32) (f : Fin 4) : Statement (.rmark gd a f) := by
  intro slot sup h
  simp only [Instr.wellFormed, Src.ok, Bool.and_eq_true, bne_iff_ne, ne_eq, beq_iff_eq, decide_eq_true_eq] at h
  have ha := a.isLt
  have hf := f.isLt
  refine ⟨_, rfl, (decode_i slot sup 0xE1 _ 0 _ _ _ (by decide) (by decide) (by omega) (by decide) (by omega) rfl).trans
    (finish_eq ?_ ?_ ?_ ?_ ?_ ?_)⟩ <;> simp [h]

theorem rpert (gd : Guard) (b : Src) : Statement (.rpert gd b) := by
  intro slot sup h
  simp only [Instr.wellFormed, Src.ok, Bool.and_eq_true, bne_iff_ne, ne_eq, beq_iff_eq, decide_eq_true_eq] at h
  refine ⟨_, rfl, (decode_i slot sup 0xE2 _ _ _ _ _ (by decide) (by decide) (by decide) (opnd_code_lt _) (by omega) rfl).trans
    (finish_eq ?_ ?_ ?_ ?_ ?_ ?_)⟩ <;> simp [h]

theorem rrewind : Statement (.rrewind) := by
  intro slot sup h
  simp only [Instr.wellFormed, Src.ok, Bool.and_eq_true, bne_iff_ne, ne_eq, beq_iff_eq, decide_eq_true_eq] at h
  refine ⟨_, rfl, (decode_h slot sup 0xE3 (by decide) (by decide) rfl).trans
    (finish_eq ?_ ?_ ?_ ?_ ?_ ?_)⟩ <;> simp [h]

theorem fopen (gd : Guard) (w : Fin 256) (b : Src) : Statement (.fopen gd w b) := by
  intro slot sup h
  simp only [Instr.wellFormed, Src.ok, Bool.and_eq_true, bne_iff_ne, ne_eq, beq_iff_eq, decide_eq_true_eq] at h
  have hw := w.isLt
  have e : b.op.code ≠ 0 := by
    intro hz
    apply h.2
    have := opndOf_code b.op
    rw [hz] at this
    exact this.symm
  refine ⟨_, rfl, (decode_x slot sup 0xE4 _ _ 0 _ _ _ _ _ (by decide) (by decide) (by decide) (opnd_code_lt _) (by decide) (by omega) (by omega) rfl).trans
    (finish_eq ?_ ?_ ?_ ?_ ?_ ?_)⟩ <;> simp [h, e]

theorem fopenClose (gd : Guard) (w : Fin 256) (sync : Bool) : Statement (.fopenClose gd w sync) := by
  intro slot sup h
  have hw := w.isLt
  refine ⟨_, rfl, (decode_x slot sup 0xE4 _ 0 0 _ _ _ _ _ (by decide) (by decide) (by decide) (by decide) (by decide) (by decide)
    (by omega) rfl).trans (finish_eq ?_ ?_ ?_ ?_ ?_ ?_)⟩
  · simp
  · exact srcBad_reg slot 0
  · simp
  · rfl
  · rfl
  · rfl

theorem fshort (gd : Guard) (reset : Bool) (nb : Bool) (a : Fin 32) (w : Fin 256) (b : Src) (c : Src) : Statement (.fshort gd reset nb a w b c) := by
  intro slot sup h
  simp only [Instr.wellFormed, Src.ok, Bool.and_eq_true, bne_iff_ne, ne_eq, beq_iff_eq, decide_eq_true_eq] at h
  have hreset := bit_lt reset
  have hnb := bit_lt nb
  have ha := a.isLt
  have hw := w.isLt
  have e1 : (bitCode reset % 2 == 1) = reset := by cases reset <;> rfl
  have e2 : Fin.ofNat 256 (w.val + bitCode nb * 256) = w := Fin.ext (by simp only [Fin.ofNat]; omega)
  have e3 : bitOf (w.val + bitCode nb * 256) 8 = nb := by
    rw [bitOf, show (w.val + bitCode nb * 256) / 2 ^ 8 % 2 = bitCode nb by omega, bit_eq]
  refine ⟨_, rfl, (decode_x slot sup 0xE5 _ _ _ _ _ _ _ _ (by decide) (by decide) (by omega) (opnd_code_lt _) (opnd_code_lt _) (by omega) (by omega) rfl).trans
    (finish_eq ?_ ?_ ?_ ?_ ?_ ?_)⟩
  · simp [decodeFilter, e1, e2, e3, -Fin.ofNat_eq_cast]
  · simp [decodeFilter, h]
  · simp [decodeFilter]; omega
  · rfl
  · rfl
  · rfl

theorem fpick (gd : Guard) (reset : Bool) (nb : Bool) (a : Fin 32) (w : Fin 256) (b : Src) (c : Src) : Statement (.fpick gd reset nb a w b c) := by
  intro slot sup h
  simp only [Instr.wellFormed, Src.ok, Bool.and_eq_true, bne_iff_ne, ne_eq, beq_iff_eq, decide_eq_true_eq] at h
  have hreset := bit_lt reset
  have hnb := bit_lt nb
  have ha := a.isLt
  have hw := w.isLt
  have e1 : (bitCode reset % 2 == 1) = reset := by cases reset <;> rfl
  have e2 : Fin.ofNat 256 (w.val + bitCode nb * 256) = w := Fin.ext (by simp only [Fin.ofNat]; omega)
  have e3 : bitOf (w.val + bitCode nb * 256) 8 = nb := by
    rw [bitOf, show (w.val + bitCode nb * 256) / 2 ^ 8 % 2 = bitCode nb by omega, bit_eq]
  refine ⟨_, rfl, (decode_x slot sup 0xE6 _ _ _ _ _ _ _ _ (by decide) (by decide) (by omega) (opnd_code_lt _) (opnd_code_lt _) (by omega) (by omega) rfl).trans
    (finish_eq ?_ ?_ ?_ ?_ ?_ ?_)⟩
  · simp [decodeFilter, e1, e2, e3, -Fin.ofNat_eq_cast]
  · simp [decodeFilter, h]
  · simp [decodeFilter]; omega
  · rfl
  · rfl
  · rfl

theorem rand (gd : Guard) (f : Bool) (a : Fin 32) : Statement (.rand gd f a) := by
  intro slot sup h
  simp only [Instr.wellFormed, Src.ok, Bool.and_eq_true, bne_iff_ne, ne_eq, beq_iff_eq, decide_eq_true_eq] at h
  have hf := bit_lt f
  have ha := a.isLt
  have e : bitOf (bitCode f) 0 = f := by cases f <;> rfl
  refine ⟨_, rfl, (decode_i slot sup 0xE7 _ 0 _ _ _ (by decide) (by decide) (by omega) (by decide) (by omega) rfl).trans
    (finish_eq ?_ ?_ ?_ ?_ ?_ ?_)⟩ <;> simp [e] <;> omega

theorem kvtrunc (gd : Guard) (commit : Bool) (a : Fin 32) (b : Src) (c : Src) : Statement (.kvtrunc gd commit a b c) := by
  intro slot sup h
  simp only [Instr.wellFormed, Src.ok, Bool.and_eq_true, bne_iff_ne, ne_eq, beq_iff_eq, decide_eq_true_eq] at h
  have hcommit := bit_lt commit
  have ha := a.isLt
  have e : (bitCode commit % 2 == 1) = commit := by cases commit <;> rfl
  refine ⟨_, rfl, (decode_x slot sup 0xE8 _ _ _ _ _ _ _ _ (by decide) (by decide) (by omega) (opnd_code_lt _) (opnd_code_lt _) (by omega) (by omega) rfl).trans
    (finish_eq ?_ ?_ ?_ ?_ ?_ ?_)⟩ <;> simp [h, e] <;> omega

theorem qwait (gd : Guard) (a : Fin 32) (b : Src) : Statement (.qwait gd a b) := by
  intro slot sup h
  simp only [Instr.wellFormed, Src.ok, Bool.and_eq_true, bne_iff_ne, ne_eq, beq_iff_eq, decide_eq_true_eq] at h
  have ha := a.isLt
  have e : bitOf 0 0 = false := rfl
  refine ⟨_, rfl, (decode_i slot sup 0xEA _ _ _ _ _ (by decide) (by decide) (by omega) (opnd_code_lt _) (by omega) rfl).trans
    (finish_eq ?_ ?_ ?_ ?_ ?_ ?_)⟩ <;> simp [h, e]

theorem qwaitNow (gd : Guard) (a : Fin 32) : Statement (.qwaitNow gd a) := by
  intro slot sup h
  simp only [Instr.wellFormed, Src.ok, Bool.and_eq_true, bne_iff_ne, ne_eq, beq_iff_eq, decide_eq_true_eq] at h
  have ha := a.isLt
  have e : bitOf 1 0 = true := rfl
  refine ⟨_, rfl, (decode_i slot sup 0xEA _ 0 _ _ _ (by decide) (by decide) (by omega) (by decide) (by omega) rfl).trans
    (finish_eq ?_ ?_ ?_ ?_ ?_ ?_)⟩ <;> simp [e]

theorem ptsync (gd : Guard) (kind : SyncKind) (a : Fin 32) (b : Src) : Statement (.ptsync gd kind a b) := by
  intro slot sup h
  simp only [Instr.wellFormed, Src.ok, Bool.and_eq_true, bne_iff_ne, ne_eq, beq_iff_eq, decide_eq_true_eq] at h
  have ha := a.isLt
  have hk : kind.code < 3 := by cases kind <;> decide
  refine ⟨_, rfl, (decode_i slot sup 0xEB _ _ _ _ _ (by decide) (by decide) (by omega) (opnd_code_lt _) (by omega) rfl).trans
    (finish_eq ?_ ?_ ?_ ?_ ?_ ?_)⟩
  · cases kind <;> simp [SyncKind.code]
  · simp [h]
  · simp; omega
  · simp; omega
  · rfl
  · rfl

theorem reservedMajorOpcode (head : BitVec 16) : Statement (.reservedMajorOpcode head) := by
  intro slot sup h
  refine ⟨_, rfl, ?_⟩
  simp only [Instr.wellFormed, headReserved] at h
  simp only [decode]
  cases hf : formatOf (head.toNat / 64 % 256) with
  | none => simp
  | some fmt => simp only [hf] at h; simp [h]

/-! Events: no slot issues them. -/

theorem parkedSlotWakes (slot : Nat) : Statement (.parkedSlotWakes slot) := event fun _ _ => rfl
theorem memoryAnswerArrives (tid : Nat) (failed : Bool) : Statement (.memoryAnswerArrives tid failed) := event fun _ _ => rfl
theorem takePendingTrap (slot : Nat) : Statement (.takePendingTrap slot) := event fun _ _ => rfl
theorem droverRestart (core : Nat) : Statement (.droverRestart core) := event fun _ _ => rfl
theorem musterArbitration (core : Nat) : Statement (.musterArbitration core) := event fun _ _ => rfl
theorem penMessageArrives (slot : Nat) : Statement (.penMessageArrives slot) := event fun _ _ => rfl
theorem psendRetry (slot : Nat) : Statement (.psendRetry slot) := event fun _ _ => rfl
theorem leaseCycleBound (tile : Nat) : Statement (.leaseCycleBound tile) := event fun _ _ => rfl
theorem matrixCommandCompletes (tile : Nat) : Statement (.matrixCommandCompletes tile) := event fun _ _ => rfl
theorem transferDone (tile : Nat) (ch : Nat) : Statement (.transferDone tile ch) := event fun _ _ => rfl
theorem streamFault (tile : Nat) (ch : Nat) : Statement (.streamFault tile ch) := event fun _ _ => rfl
theorem sourceError (tile : Nat) (ch : Nat) : Statement (.sourceError tile ch) := event fun _ _ => rfl
theorem laneCommandCompletes (lane : Nat) : Statement (.laneCommandCompletes lane) := event fun _ _ => rfl
theorem loftFillArrives (tile : Nat) (page : Nat) : Statement (.loftFillArrives tile page) := event fun _ _ => rfl
theorem ddeOperationCompletes (die : Nat) (asid : Nat) : Statement (.ddeOperationCompletes die asid) := event fun _ _ => rfl
theorem filterOperationCompletes (w : Nat) (index : Nat) : Statement (.filterOperationCompletes w index) := event fun _ _ => rfl
theorem vote (asid : Nat) (launch : Nat) (group : Nat) : Statement (.vote asid launch group) := event fun _ _ => rfl
theorem voteTimeout (asid : Nat) (launch : Nat) (group : Nat) : Statement (.voteTimeout asid launch group) := event fun _ _ => rfl
theorem pageWalkCompletes (die : Nat) (asid : Nat) (vpage : Nat) : Statement (.pageWalkCompletes die asid vpage) := event fun _ _ => rfl
theorem groupAgeLimit (group : Nat) : Statement (.groupAgeLimit group) := event fun _ _ => rfl
theorem reservationExpires (group : Nat) : Statement (.reservationExpires group) := event fun _ _ => rfl
theorem copyNodeDone (asid : Nat) (graph : Nat) (node : Nat) : Statement (.copyNodeDone asid graph node) := event fun _ _ => rfl
theorem sliceExpires (asid : Nat) : Statement (.sliceExpires asid) := event fun _ _ => rfl
theorem haltComplete (asid : Nat) : Statement (.haltComplete asid) := event fun _ _ => rfl
theorem swapComplete (asid : Nat) : Statement (.swapComplete asid) := event fun _ _ => rfl
theorem qwpWrite (queue : Nat) (v : BitVec 32) : Statement (.qwpWrite queue v) := event fun _ _ => rfl
theorem evrpWrite (queue : Nat) (v : BitVec 32) : Statement (.evrpWrite queue v) := event fun _ _ => rfl
theorem queueRecordAccept (queue : Nat) : Statement (.queueRecordAccept queue) := event fun _ _ => rfl
theorem queueNop (queue : Nat) (seq : Nat) (cmd : BitVec 512) : Statement (.queueNop queue seq cmd) := event fun _ _ => rfl
theorem create (queue : Nat) (seq : Nat) (cmd : BitVec 512) : Statement (.create queue seq cmd) := event fun _ _ => rfl
theorem destroy (queue : Nat) (seq : Nat) (cmd : BitVec 512) : Statement (.destroy queue seq cmd) := event fun _ _ => rfl
theorem bind (queue : Nat) (seq : Nat) (cmd : BitVec 512) : Statement (.bind queue seq cmd) := event fun _ _ => rfl
theorem job (queue : Nat) (seq : Nat) (cmd : BitVec 512) : Statement (.job queue seq cmd) := event fun _ _ => rfl
theorem phase (queue : Nat) (seq : Nat) (cmd : BitVec 512) : Statement (.phase queue seq cmd) := event fun _ _ => rfl
theorem graph (queue : Nat) (seq : Nat) (cmd : BitVec 512) : Statement (.graph queue seq cmd) := event fun _ _ => rfl
theorem close (queue : Nat) (seq : Nat) (cmd : BitVec 512) : Statement (.close queue seq cmd) := event fun _ _ => rfl
theorem queueCancel (queue : Nat) (seq : Nat) (cmd : BitVec 512) : Statement (.queueCancel queue seq cmd) := event fun _ _ => rfl
theorem portstatWrite (port : Nat) (v : BitVec 64) : Statement (.portstatWrite port v) := event fun _ _ => rfl
theorem barRegisterWrite (offset : Nat) (size : Nat) (v : BitVec 64) : Statement (.barRegisterWrite offset size v) := event fun _ _ => rfl
theorem hostApertureAccess (write : Bool) (offset : Nat) (size : Nat) (v : BitVec 4096) : Statement (.hostApertureAccess write offset size v) := event fun _ _ => rfl
theorem hostCompletionTimeout (tid : Nat) : Statement (.hostCompletionTimeout tid) := event fun _ _ => rfl
theorem hotReset : Statement (.hotReset) := event fun _ _ => rfl
theorem linkDownTimeout : Statement (.linkDownTimeout) := event fun _ _ => rfl
theorem portEnable (port : Nat) : Statement (.portEnable port) := event fun _ _ => rfl
theorem trainingSucceeds (port : Nat) (peer : BitVec 6) : Statement (.trainingSucceeds port peer) := event fun _ _ => rfl
theorem trainingFails (port : Nat) : Statement (.trainingFails port) := event fun _ _ => rfl
theorem lossOfSignal (port : Nat) : Statement (.lossOfSignal port) := event fun _ _ => rfl
theorem flitReceived (port : Nat) (flit : BitVec 2048) : Statement (.flitReceived port flit) := event fun _ _ => rfl
theorem ackTimeout (port : Nat) : Statement (.ackTimeout port) := event fun _ _ => rfl
theorem pauseExpires (port : Nat) (vl : Nat) : Statement (.pauseExpires port vl) := event fun _ _ => rfl
theorem remoteRequestTimeout (tid : Nat) : Statement (.remoteRequestTimeout tid) := event fun _ _ => rfl
theorem freezeN : Statement (.freezeN) := event fun _ _ => rfl
theorem idcode : Statement (.idcode) := event fun _ _ => rfl
theorem frz (resumable : Bool) : Statement (.frz resumable) := event fun _ _ => rfl
theorem resume : Statement (.resume) := event fun _ _ => rfl
theorem jtagSel (sel : BitVec 64) : Statement (.jtagSel sel) := event fun _ _ => rfl
theorem rdst : Statement (.rdst) := event fun _ _ => rfl
theorem stat : Statement (.stat) := event fun _ _ => rfl
theorem bypass (tdi : Bool) : Statement (.bypass tdi) := event fun _ _ => rfl

end Sys2Proof.Laws.RoundTrip
end

