-- ==== Sys2Proof/Safety.lean ====
section
/-! DEFINITION. What counts as a safe step and a safe state, and the conditions and states in whose words the statements
are made. -/

namespace Sys2Proof.Machine

open Sys2Proof

/-- A step goes on: it ends in no fault and no refusal. -/
def goesOn (s : State) : Prop := ∃ t, step s = .next t

/-- The memory stands in its canonical form (log 6). -/
def State.memWf (s : State) : Prop := Memory.wf s.mem

/-! ## Where an instruction starts and how it ends -/

/-- The issuing slot is at the start of its instruction: no operand has been taken, no attempt made, and it performs nothing
for the other replicas of a set (R272 of spec/17). -/
def State.atStart (s : State) : Prop :=
  s.me.park.vals = none ∧ s.me.park.tries = 0 ∧ s.me.park.once = false

/-- The operands can be taken (R24, R438 of spec/02), and no destination is a mailbox that is full or that a replica names
(R23 of spec/02, R279 of spec/17). -/
def State.canRun (s : State) (srcs : List Src) (dsts : List Opnd) : Prop :=
  s.operandsReady srcs dsts = true ∧ s.mailboxDst dsts = false ∧
    ∀ m, Opnd.mb m ∈ dsts → s.myCore.mbFull.getLsbD m.val = false

/-- The values of the sources, in operand order. -/
def State.vals (s : State) (srcs : List Src) : List Word := (s.takeAll srcs).1

/-- The state once the sources are taken: full bits cleared, queues popped, mailboxes emptied, the values kept. -/
def State.taken (s : State) (srcs : List Src) : State :=
  (s.takeAll srcs).2.onMe fun x => { x with park := { x.park with vals := some (s.vals srcs), took := some srcs } }

/-- The state after an instruction that took `srcs` and wrote `v` to `a` has completed (R121 of spec/07). -/
def State.wrote (s : State) (srcs : List Src) (a : Opnd) (v : Word) : State :=
  ((s.taken srcs).writeOpnd a v).onMe Slot.complete

/-! ## What a step leaves alone -/

/-- The registers and predicates of the issuing slot but for general register `r` (32: none is written). -/
def State.sameRegs (s t : State) (r : Nat) : Prop :=
  (∀ n, n ≠ r → t.me.reg n = s.me.reg n) ∧ t.me.p = s.me.p ∧ t.me.v = s.me.v ∧ t.me.k = s.me.k

/-- The general registers and predicates of the issuing slot; its vector and mask registers may change. -/
def State.sameRegsBut (s t : State) : Prop := (∀ n, t.me.reg n = s.me.reg n) ∧ t.me.p = s.me.p

/-- The control words of the issuing slot that only CWR, a handler or a supervisor changes, its inline stack and identity, and
the package's SVEC. -/
def State.sameWords (s t : State) : Prop :=
  t.me.inl = s.me.inl ∧ t.me.feretry = s.me.feretry ∧ t.me.id = s.me.id ∧ t.me.trap.tvec = s.me.trap.tvec ∧
    t.me.trap.tscratch = s.me.trap.tscratch ∧ t.me.sup.deleg = s.me.sup.deleg ∧ t.me.sup.ptroot = s.me.sup.ptroot ∧
    t.me.sup.asid = s.me.sup.asid ∧ t.me.sup.svscratch = s.me.sup.svscratch ∧ t.svec = s.svec

/-- Beside these: random counters, monitors, lease and trap words of the slot (outside a replica set, where no mailbox
destination traps), every core's accumulators, matrix configuration, pens and lanes, translations and QEPOCH. -/
def State.sameSpecial (s t : State) : Prop :=
  s.sameWords t ∧ t.me.rngCtr = s.me.rngCtr ∧ t.me.srCtr = s.me.srCtr ∧ t.me.mon = s.me.mon ∧ t.me.lease = s.me.lease ∧
    (s.me.rep.count = 0 → t.me.trap = s.me.trap ∧ t.me.sup = s.me.sup) ∧
    (∀ c, (t.core c).acc = (s.core c).acc ∧ (t.core c).mcfg = (s.core c).mcfg ∧ (t.core c).pens = (s.core c).pens ∧
      (t.core c).lanes = (s.core c).lanes) ∧ t.tlb = s.tlb ∧ t.qepoch = s.qepoch

/-- Every byte of memory but those at [a, a + n) reads as before. -/
def State.sameMemBut (s t : State) (a n : Nat) : Prop :=
  ∀ b, b < a ∨ a + n ≤ b → memByte t.mem b = memByte s.mem b

/-- No byte of memory changes, but that a freeze, which takes every Margon port Down, may take back a remote write that has not
been acknowledged (R339 of spec/22, R350 of spec/23; log 3). -/
def State.keptMem (s t : State) : Prop :=
  (t.freeze = s.freeze → t.mem = s.mem) ∧
    ∀ b, (∀ e ∈ s.ports, ∀ w ∈ e.2.writes, b < w.pa ∨ w.pa + w.old.length ≤ b) → memByte t.mem b = memByte s.mem b

/-- No byte but those of `stored` changes, with the same exception. -/
def State.keptMemBut (s t : State) (stored : Nat → Prop) : Prop :=
  ∀ b, ¬stored b → (t.freeze = s.freeze ∨ ∀ e ∈ s.ports, ∀ w ∈ e.2.writes, b < w.pa ∨ w.pa + w.old.length ≤ b) →
    memByte t.mem b = memByte s.mem b

/-- Slot `y` is `x` but for what a store does to its monitors, and what a port that goes Down marks: a remote write that is lost, a
request that no answer can reach. -/
def Slot.marked (x y : Slot) : Prop := ∃ l d m, y = { x with lost := l, mon := m, park := { x.park with dead := d } }

/-- Every other slot is as it was; where the step freezes the package, but for the marks of a port that goes Down. -/
def State.sameOthers (s t : State) : Prop :=
  (t.freeze = s.freeze → ∀ n, n ≠ s.agent → t.slot n = s.slot n) ∧ ∀ n, n ≠ s.agent → (s.slot n).marked (t.slot n)

end Sys2Proof.Machine
end

