-- ==== Sys2Proof/Certificates/Slice0/Obligations.lean ====
section
/-! DEFINITION. The statements for the provers, by the chapters of the spec. -/

open Sys2Proof Sys2Proof.Machine

namespace Sys2Proof.Stmt

/-! ## The instructions of a shape, each with what the spec says it computes -/

/-- The three-operand operations of R122 of spec/07 with f(x, y); a quotient by 0 and a remainder by 0 as R123 gives. -/
def binaryOps : List ((Opnd → Src → Src → Instr) × (Word → Word → Word)) :=
  [(.add, fun x y => x + y), (.sub, fun x y => x - y), (.mul, fun x y => x * y),
   (.mulh, fun x y => (x.signExtend 128 * y.signExtend 128).extractLsb' 64 64),
   (.mulhu, fun x y => (x.setWidth 128 * y.setWidth 128).extractLsb' 64 64),
   (.div, fun x y => if y = 0 then BitVec.allOnes 64 else BitVec.ofInt 64 (x.toInt.tdiv y.toInt)),
   (.divu, fun x y => if y = 0 then BitVec.allOnes 64 else BitVec.ofNat 64 (x.toNat / y.toNat)),
   (.rem, fun x y => if y = 0 then x else BitVec.ofInt 64 (x.toInt.tmod y.toInt)),
   (.remu, fun x y => if y = 0 then x else BitVec.ofNat 64 (x.toNat % y.toNat)),
   (.and, fun x y => x &&& y), (.or, fun x y => x ||| y), (.xor, fun x y => x ^^^ y)]

/-- The shifts, minima and maxima of R122 of spec/07; a shift takes y[5:0]. -/
def shiftOps : List ((Opnd → Src → Src → Instr) × (Word → Word → Word)) :=
  [(.shl, fun x y => BitVec.ofNat 64 (x.toNat * 2 ^ (y.toNat % 64))),
   (.shr, fun x y => BitVec.ofNat 64 (x.toNat / 2 ^ (y.toNat % 64))),
   (.sar, fun x y => BitVec.ofInt 64 (x.toInt / 2 ^ (y.toNat % 64))),
   (.ror, fun x y => x >>> (y.toNat % 64) ||| x <<< ((64 - y.toNat % 64) % 64)),
   (.min, fun x y => if x.toInt ≤ y.toInt then x else y), (.max, fun x y => if x.toInt ≤ y.toInt then y else x),
   (.minu, fun x y => if x.toNat ≤ y.toNat then x else y), (.maxu, fun x y => if x.toNat ≤ y.toNat then y else x)]

/-- The unary operations of R122 of spec/07: leading zeros, set bits, trailing zeros. -/
def unaryOps : List ((Opnd → Src → Instr) × (Word → Word)) :=
  [(.clz, fun x => if x = 0 then 64 else BitVec.ofNat 64 (63 - x.toNat.log2)),
   (.popc, fun x => BitVec.ofNat 64 ((List.range 64).map fun i => x.toNat / 2 ^ i % 2).sum),
   (.ctz, fun x => BitVec.ofNat 64 ((List.range 64).findIdx fun i => x.getLsbD i))]

/-- The immediate operations of R124 of spec/07 with v = sext(IMM20). -/
def immOps : List ((Guard → Opnd → Src → BitVec 20 → Instr) × (Word → Word → Word)) :=
  [(.addi, fun x v => x + v), (.andi, fun x v => x &&& v), (.ori, fun x v => x ||| v), (.xori, fun x v => x ^^^ v)]

/-- SHI's kinds (R124 of spec/07). -/
def shifted (k : ShiftKind) (x : Word) (n : Nat) : Word :=
  match k with
  | .shl => BitVec.ofNat 64 (x.toNat * 2 ^ n)
  | .shr => BitVec.ofNat 64 (x.toNat / 2 ^ n)
  | .sar => BitVec.ofInt 64 (x.toInt / 2 ^ n)
  | .ror => x >>> n ||| x <<< ((64 - n) % 64)

/-- The conditions of the compares (R137 of spec/07) over integers and bits. -/
def signedCond (c : CmpCond) (x y : Word) : Bool :=
  match c with
  | .eq => decide (x.toNat = y.toNat)
  | .ne => decide (x.toNat ≠ y.toNat)
  | .lt => decide (x.toInt < y.toInt)
  | .ge => decide (y.toInt ≤ x.toInt)

def unsignedCond (c : CmpuCond) (x y : Word) : Bool :=
  match c with
  | .ltu => decide (x.toNat < y.toNat)
  | .geu => decide (y.toNat ≤ x.toNat)
  | .tstz => (x &&& y) == 0
  | .tstnz => (x &&& y) != 0

def immCond (c : CmpiCond) (x y : Word) : Bool :=
  match c with
  | .signed c => signedCond c x y
  | .unsigned c => unsignedCond c x y

/-- The guard of an instruction that has one (R54 of spec/03). -/
def guardOfInstr : Instr → Option Guard
  | .br gd _ | .call gd _ _ | .loop gd _ _ | .trap gd _ | .crd gd _ _ | .cwr gd _ _ | .addi gd _ _ _ | .andi gd _ _ _
  | .ori gd _ _ _ | .xori gd _ _ _ | .shi gd _ _ _ _ | .cmpi gd _ _ _ _ | .vgath gd _ _ _ _ _ _ | .vscat gd _ _ _ _ _ _
  | .mlease gd | .mprog gd _ _ | .mwld gd _ _ _ _ _ _ | .mma gd _ _ _ _ _ | .mrd gd _ _ _ _ _ _ | .mclr gd _ _ _
  | .mcfg gd _ _ | .mstat gd _ | .dwin gd _ _ _ _ _ _ _ | .dcan gd _ _ | .dcanResume gd _ | .hinit gd _ _ _ _
  | .harr gd _ _ _ | .hwait gd _ _ _ | .rrel gd _ | .rmark gd _ _ | .rpert gd _ | .fopen gd _ _ | .fopenClose gd _ _
  | .fshort gd _ _ _ _ _ _ | .fpick gd _ _ _ _ _ _ | .rand gd _ _ | .kvtrunc gd _ _ _ _ | .qwait gd _ _
  | .qwaitNow gd _ | .ptsync gd _ _ _ => some gd
  | _ => none

end Sys2Proof.Stmt

/-! ## Encodings (spec/03) -/

/-- R50 to R59 of spec/03 and the entry of each row: wherever an instruction is well-formed it has words, and decoding them
gives it back, at every value of every operand. -/
def Obligations.EncodedWordsDecodeBack : Prop := ∀ i, Sys2Proof.Laws.RoundTrip.Statement i

/-! ## Integer operations (spec/07) -/

/-- R122 and R123 of spec/07: ADD to XOR write f(x, y) to A, for every operand form, and complete. -/
def Obligations.ArithmeticWritesResult : Prop :=
  ∀ e ∈ Stmt.binaryOps, ∀ (a : Opnd) (b c : Src) (s : State), s.atStart → s.canRun [b, c] [a] →
    exec (e.1 a b c) s = .next (s.wrote [b, c] a (e.2 (arg (s.vals [b, c]) 0) (arg (s.vals [b, c]) 1)))

/-- R122 of spec/07: the shifts, minima and maxima write f(x, y) to A and complete. -/
def Obligations.ShiftsAndBoundsWriteResult : Prop :=
  ∀ e ∈ Stmt.shiftOps, ∀ (a : Opnd) (b c : Src) (s : State), s.atStart → s.canRun [b, c] [a] →
    exec (e.1 a b c) s = .next (s.wrote [b, c] a (e.2 (arg (s.vals [b, c]) 0) (arg (s.vals [b, c]) 1)))

/-- R122 of spec/07: CLZ, POPC and CTZ write their count to A and complete. -/
def Obligations.CountsWriteResult : Prop :=
  ∀ e ∈ Stmt.unaryOps, ∀ (a : Opnd) (b : Src) (s : State), s.atStart → s.canRun [b] [a] →
    exec (e.1 a b) s = .next (s.wrote [b] a (e.2 (arg (s.vals [b]) 0)))

/-- R124 of spec/07: with the guard true ADDI, ANDI, ORI, XORI and SHI write f(x, v) to A and complete. -/
def Obligations.ImmediatesWriteResult : Prop :=
  ∀ (gd : Guard) (a : Opnd) (b : Src) (s : State), s.atStart → s.me.guardOk gd = true → s.canRun [b] [a] →
    (∀ e ∈ Stmt.immOps, ∀ imm : BitVec 20,
      exec (e.1 gd a b imm) s = .next (s.wrote [b] a (e.2 (arg (s.vals [b]) 0) (imm.signExtend 64)))) ∧
    ∀ (k : ShiftKind) (n : Fin 64),
      exec (.shi gd a b k n) s = .next (s.wrote [b] a (Stmt.shifted k (arg (s.vals [b]) 0) n.val))

/-- R123 of spec/07: division never traps: by 0 a quotient is all ones and a remainder is x, and -2^63 by -1 gives -2^63
with remainder 0. -/
def Obligations.DivisionNeverTraps : Prop :=
  ∀ (a : Opnd) (b c : Src) (s : State), s.atStart → s.canRun [b, c] [a] →
    (arg (s.vals [b, c]) 1 = 0 →
      exec (.div a b c) s = .next (s.wrote [b, c] a 0xFFFFFFFFFFFFFFFF) ∧
      exec (.divu a b c) s = .next (s.wrote [b, c] a 0xFFFFFFFFFFFFFFFF) ∧
      exec (.rem a b c) s = .next (s.wrote [b, c] a (arg (s.vals [b, c]) 0)) ∧
      exec (.remu a b c) s = .next (s.wrote [b, c] a (arg (s.vals [b, c]) 0))) ∧
    (arg (s.vals [b, c]) 0 = 0x8000000000000000 → arg (s.vals [b, c]) 1 = 0xFFFFFFFFFFFFFFFF →
      exec (.div a b c) s = .next (s.wrote [b, c] a 0x8000000000000000) ∧
      exec (.rem a b c) s = .next (s.wrote [b, c] a 0))

/-- R137 of spec/07: CMP, CMPU and CMPI write their condition to P[A] (a write to p0 is discarded) and complete. -/
def Obligations.ComparesWritePredicate : Prop :=
  ∀ (p : Fin 16) (b : Src) (s : State), s.atStart →
    (∀ c : Src, s.canRun [b, c] [] →
      (∀ cc, exec (.cmp p cc b c) s = .next ((s.taken [b, c]).onMe fun x =>
        (x.setPred p.val (Stmt.signedCond cc (arg (s.vals [b, c]) 0) (arg (s.vals [b, c]) 1))).complete)) ∧
      ∀ cc, exec (.cmpu p cc b c) s = .next ((s.taken [b, c]).onMe fun x =>
        (x.setPred p.val (Stmt.unsignedCond cc (arg (s.vals [b, c]) 0) (arg (s.vals [b, c]) 1))).complete)) ∧
    ∀ (gd : Guard) (cc : CmpiCond) (imm : BitVec 16), s.me.guardOk gd = true → s.canRun [b] [] →
      exec (.cmpi gd p cc b imm) s = .next ((s.taken [b]).onMe fun x =>
        (x.setPred p.val (Stmt.immCond cc (arg (s.vals [b]) 0) (imm.signExtend 64))).complete)

/-- R24 and R25 of spec/02, R57 of spec/03: the values read by one source and by two: a register's contents; a queue's first
entry, or for C its second when B names the same queue, and what was read leaves the queue; a mailbox's word, and it is empty. A
general register keeps its value. -/
def Obligations.SourcesReadInOrder : Prop :=
  ∀ (b c : Src) (s : State),
    ((∀ n, b.op = .g n → arg (s.vals [b, c]) 0 = s.me.reg n.val ∧ s.vals [b] = [s.me.reg n.val]) ∧
      ∀ n, c.op = .g n → arg (s.vals [b, c]) 1 = s.me.reg n.val) ∧
    (∀ q x l, s.myCore.queue q.val = x :: l →
      (b.op = .q q → s.vals [b] = [x] ∧ (s.taken [b]).myCore.queue q.val = l) ∧
      (b.op = .q q → c.op ≠ .q q → arg (s.vals [b, c]) 0 = x ∧ (s.taken [b, c]).myCore.queue q.val = l) ∧
      (b.op ≠ .q q → c.op = .q q → arg (s.vals [b, c]) 1 = x ∧ (s.taken [b, c]).myCore.queue q.val = l) ∧
      ∀ y k, l = y :: k → b.op = .q q → c.op = .q q → s.vals [b, c] = [x, y] ∧ (s.taken [b, c]).myCore.queue q.val = k) ∧
    (∀ m, (b.op = .mb m → arg (s.vals [b, c]) 0 = Table.val 0 m.val s.myCore.mb ∧ s.vals [b] = [Table.val 0 m.val s.myCore.mb] ∧
        (s.taken [b]).myCore.mbFull.getLsbD m.val = false) ∧
      (c.op = .mb m → arg (s.vals [b, c]) 1 = Table.val 0 m.val s.myCore.mb) ∧
      (b.op = .mb m ∨ c.op = .mb m → (s.taken [b, c]).myCore.mbFull.getLsbD m.val = false)) ∧
    ∀ n, (s.taken [b, c]).me.reg n = s.me.reg n ∧ (s.taken [b]).me.reg n = s.me.reg n

/-- R23, R24 and R27 of spec/02: where a result goes: a general register (g0 discards it) with its full bit set; the end of
a queue; a mailbox, which becomes full. -/
def Obligations.ResultsGoWhereANames : Prop :=
  ∀ (srcs : List Src) (a : Opnd) (v : Word) (s : State),
    (∀ n, a = .g n → (s.wrote srcs a v).me.reg n.val = (if n.val = 0 then 0 else v) ∧
      (s.wrote srcs a v).me.isFull n.val = true) ∧
    (∀ q, a = .q q → (s.wrote srcs a v).myCore.queue q.val = (s.taken srcs).myCore.queue q.val ++ [v]) ∧
    ∀ m, a = .mb m → Table.val 0 m.val (s.wrote srcs a v).myCore.mb = v ∧
      (s.wrote srcs a v).myCore.mbFull.getLsbD m.val = true

/-- The frame of the register instructions: whenever the step goes on (it completes, parks or traps), no other general register, no
predicate, no vector or mask register changes, no special register or accumulator, and no byte of memory. `once` is the mark of an
operation performed for a whole replica set, which none of them is (R272 of spec/17). -/
def Obligations.RegisterInstructionsFrame : Prop :=
  ∀ (gd : Guard) (a : Opnd) (b c : Src) (s t : State) (i : Instr), s.me.park.once = false →
    ((∃ e ∈ Stmt.binaryOps, i = e.1 a b c) ∨ (∃ e ∈ Stmt.shiftOps, i = e.1 a b c) ∨ (∃ e ∈ Stmt.unaryOps, i = e.1 a b) ∨
      (∃ e ∈ Stmt.immOps, ∃ v, i = e.1 gd a b v) ∨ (∃ k n, i = .shi gd a b k n) ∨ ∃ t, i = .call gd a t) →
    exec i s = .next t →
    (∀ n, a ≠ .g n → t.me.reg n.val = s.me.reg n.val) ∧ t.me.p = s.me.p ∧ t.me.v = s.me.v ∧ t.me.k = s.me.k ∧
      s.keptMem t ∧ t.tiles = s.tiles ∧ t.host = s.host ∧ s.sameOthers t ∧ s.sameSpecial t

/-- The frame of the compares: only the named predicate may change. -/
def Obligations.ComparesFrame : Prop :=
  ∀ (gd : Guard) (p : Fin 16) (b c : Src) (s t : State) (i : Instr), s.me.park.once = false →
    ((∃ cc, i = .cmp p cc b c) ∨ (∃ cc, i = .cmpu p cc b c) ∨ ∃ cc v, i = .cmpi gd p cc b v) → exec i s = .next t →
    (∀ n, t.me.reg n = s.me.reg n) ∧ (∀ q, q ≠ p.val → t.me.pred q = s.me.pred q) ∧ t.me.v = s.me.v ∧ t.me.k = s.me.k ∧
      s.keptMem t ∧ t.tiles = s.tiles ∧ s.sameOthers t ∧ s.sameSpecial t

namespace Sys2Proof.Stmt

/-! ## Guards, successors and loops -/

/-- The instruction with its guard's predicate always true (p0, sense 1). -/
def unguarded : Instr → Instr
  | .br _ t => .br ⟨true, 0⟩ t
  | .call _ a t => .call ⟨true, 0⟩ a t
  | .loop _ a t => .loop ⟨true, 0⟩ a t
  | .trap _ v => .trap ⟨true, 0⟩ v
  | .crd _ a n => .crd ⟨true, 0⟩ a n
  | .cwr _ n b => .cwr ⟨true, 0⟩ n b
  | .addi _ a b v => .addi ⟨true, 0⟩ a b v
  | .andi _ a b v => .andi ⟨true, 0⟩ a b v
  | .ori _ a b v => .ori ⟨true, 0⟩ a b v
  | .xori _ a b v => .xori ⟨true, 0⟩ a b v
  | .shi _ a b k n => .shi ⟨true, 0⟩ a b k n
  | .cmpi _ p c b v => .cmpi ⟨true, 0⟩ p c b v
  | .vgath _ t a b c m x => .vgath ⟨true, 0⟩ t a b c m x
  | .vscat _ t a b c m x => .vscat ⟨true, 0⟩ t a b c m x
  | .mlease _ => .mlease ⟨true, 0⟩
  | .mprog _ b n => .mprog ⟨true, 0⟩ b n
  | .mwld _ s e b c k n => .mwld ⟨true, 0⟩ s e b c k n
  | .mma _ e b c r m => .mma ⟨true, 0⟩ e b c r m
  | .mrd _ l b c r m n => .mrd ⟨true, 0⟩ l b c r m n
  | .mclr _ b r n => .mclr ⟨true, 0⟩ b r n
  | .mcfg _ t o => .mcfg ⟨true, 0⟩ t o
  | .mstat _ a => .mstat ⟨true, 0⟩ a
  | .dwin _ h a b c y x p => .dwin ⟨true, 0⟩ h a b c y x p
  | .dcan _ h b => .dcan ⟨true, 0⟩ h b
  | .dcanResume _ h => .dcanResume ⟨true, 0⟩ h
  | .hinit _ s b c d => .hinit ⟨true, 0⟩ s b c d
  | .harr _ a b d => .harr ⟨true, 0⟩ a b d
  | .hwait _ a b d => .hwait ⟨true, 0⟩ a b d
  | .rrel _ s => .rrel ⟨true, 0⟩ s
  | .rmark _ a f => .rmark ⟨true, 0⟩ a f
  | .rpert _ b => .rpert ⟨true, 0⟩ b
  | .fopen _ w b => .fopen ⟨true, 0⟩ w b
  | .fopenClose _ w x => .fopenClose ⟨true, 0⟩ w x
  | .fshort _ r n a w b c => .fshort ⟨true, 0⟩ r n a w b c
  | .fpick _ r n a w b c => .fpick ⟨true, 0⟩ r n a w b c
  | .rand _ f a => .rand ⟨true, 0⟩ f a
  | .kvtrunc _ k a b c => .kvtrunc ⟨true, 0⟩ k a b c
  | .qwait _ a b => .qwait ⟨true, 0⟩ a b
  | .qwaitNow _ a => .qwaitNow ⟨true, 0⟩ a
  | .ptsync _ k a b => .ptsync ⟨true, 0⟩ k a b
  | i => i

/-- Rel(PC, field) of R118 of spec/07: field bits [4:0] are a head index, the rest a signed line offset. -/
def rel (pc : Word) (f : BitVec 20) : Word :=
  BitVec.ofInt 64 (((pc.toNat / 64 : Nat) + f.toInt / 32) * 64 + 2 * (f.toNat % 32 : Nat))

/-- The loop words after LOOP with a count above 0 (R123 of spec/07). -/
def looped (x : Slot) (n e : Word) : Loop :=
  if x.loop.lc0 = 0 then { x.loop with lc0 := n, lb0 := succPc x.pc x.nh, le0 := e }
  else { lc0 := n, lb0 := succPc x.pc x.nh, le0 := e, lc1 := x.loop.lc0, lb1 := x.loop.lb0, le1 := x.loop.le0 }

/-- A trap goes to the context's handler, not the supervisor's (R343 of spec/23). -/
def toContext (x : Slot) (code : Nat) : Prop :=
  code / 64 % 16 ≠ 2 ∧ x.sup.deleg.getLsbD (code / 64 % 16) = false ∧ x.trap.tvec ≠ 0 ∧ x.trap.inh = false

/-- `o` is a precise trap of the issuing slot (R343 of spec/23): TPC is its PC, and no register, predicate, vector or mask
register and no byte of memory changes; at supervisor level the package freezes, which ends the Margon ports' requests. -/
def takesTrap (s : State) (o : Out) (code : Nat) (taddr : Word) : Prop :=
  ∃ t, o = .next t ∧ s.keptMem t ∧ s.sameRegs t 32 ∧
    (s.me.sup.sinh = false → t.mem = s.mem ∧
      (toContext s.me code → t.me.pc = s.me.trap.tvec ∧ t.me.sup = s.me.sup ∧
        t.me.trap = { s.me.trap with tcause := BitVec.ofNat 10 code, tpc := s.me.pc, taddr := taddr, async := false,
                                     inh := true }) ∧
      (¬toContext s.me code → t.me.pc = s.svec ∧ t.me.trap = s.me.trap ∧
        t.me.sup = { s.me.sup with scause := BitVec.ofNat 10 code, spc := s.me.pc, saddr := taddr, async := false,
                                   nest := s.me.trap.inh, sinh := true })) ∧
    (s.me.sup.sinh = true → s.freeze = .off → t.freeze = .on false 3)

/-! ## Control words (R41 of spec/02, R341 and R342 of spec/23) -/

/-- The tile of the issuing slot, and its crook. -/
def tileNum (s : State) : Nat := s.agent / 64
def crook (s : State) : Crook := (s.tile (tileNum s)).crook

/-- MLSTAT's fields from HOLD up (R153 of spec/09). -/
def matrixStatus (s : State) : Nat :=
  let c := crook s
  let x := s.me
  let cfg := (s.core (s.agent / 8)).mcfg
  let err := c.err.find? (·.1 == x.tid)
  (x.lease == .holding).toNat + (x.lease == .waiting).toNat * 2 + (x.lease == .lapsed).toNat * 4 + err.isSome.toNat * 8 +
    cfg.osat.toNat * 16 + cfg.ta.toNat * 32 + (match c.holder with | some h => h / 8 % 8 * 2 ^ 8 | none => 2 ^ 11) +
    ((c.queue.filter (·.tid == x.tid)).length + (c.kept.filter (·.tid == x.tid)).length) * 2 ^ 12 + cfg.plen * 2 ^ 15 +
    (if x.lease = .holding ∧ c.holder = some s.agent then
      c.cmdsLeft * 2 ^ 18 + (16384 - (s.clock.toNat - c.grantAt.toNat)) * 2 ^ 25 else 0) +
    match err with | some e => e.2.1 * 2 ^ 40 | none => 0

/-- A lane's eight bits of AELANE (R171, R172 of spec/11): STATUS is 8 while the lane has work and 6 while it is parked. -/
def laneStatus (l : Lane) : Nat :=
  (match l.mode with | .idle => l.status | .parked _ => 6 | .running | .suspended => 8) + l.bound.toNat * 16

/-- A pen's bits of PENFILL: not empty, and 32 places higher full. -/
def penFill (n : Nat) : Nat := (if n = 0 then 0 else 1) + if n = 4 then 2 ^ 32 else 0

/-- DDSTS's fields from INFL up (R425 of spec/12). -/
def diagramStatus (s : State) : Nat :=
  match s.space (s.agent / 64 / 24) (s.asidOf s.agent) with
  | none => s.me.dde
  | some y => s.me.dde + 2 ^ 4 + (match y.susp with | some w => if w.1.tid = s.me.tid then 2 ^ 5 else 0 | none => 0) +
      2 ^ 6 * match y.mode with
        | .suspended => 3
        | .halted => 2
        | .busy => if y.queue.isEmpty && y.susp.isNone then 1 else 2

/-- What CRD of a word gives, by its number. -/
def wordReads : List (BitVec 12 × (State → Word)) :=
  [(0x000, fun s => BitVec.ofNat 64 (s.agent % 8 + s.agent / 8 % 8 * 2 ^ 3 + s.agent / 64 % 24 * 2 ^ 6 +
      s.agent / 64 / 24 * 2 ^ 11 + s.pkg.toNat * 2 ^ 13)),
   (0x001, fun s => if s.agent % 8 = 7 then 0 else s.me.id.lcn.setWidth 64),
   (0x002, fun s => BitVec.ofNat 64 (s.agent / 8)), (0x003, fun s => BitVec.ofNat 64 (s.asidOf s.agent)),
   (0x004, fun s => s.me.id.jobseed),
   (0x006, fun s => s.me.id.groupId.setWidth 64), (0x007, fun s => s.me.id.gshape.setWidth 64),
   (0x008, fun s => s.me.id.launch.setWidth 64), (0x009, fun s => BitVec.ofNat 64 s.me.id.cls.val),
   (0x00A, fun s => s.me.id.karg),
   (0x100, fun s => s.me.trap.tcause.setWidth 64), (0x101, fun s => s.me.trap.tpc), (0x102, fun s => s.me.trap.taddr),
   (0x103, fun s => s.me.trap.tvec),
   (0x104, fun s => BitVec.ofNat 64 (s.me.trap.inh.toNat + s.me.trap.async.toNat * 2 + s.me.cpend.toNat * 4 +
      Nat.min 255 s.me.pend.length * 2 ^ 8)),
   (0x105, fun s => s.me.trap.tscratch),
   (0x200, fun s => s.me.loop.lc0), (0x201, fun s => s.me.loop.lb0), (0x202, fun s => s.me.loop.le0),
   (0x203, fun s => s.me.loop.lc1), (0x204, fun s => s.me.loop.lb1), (0x205, fun s => s.me.loop.le1),
   (0x206, fun s => s.me.feretry.setWidth 64), (0x207, fun s => s.me.rngCtr),
   (0x208, fun s => BitVec.ofNat 64 ((List.range 8).map fun q => (s.myCore.queue q).length * 16 ^ q).sum),
   (0x209, fun s => (s.me.full ||| 1).setWidth 64), (0x20A, fun s => s.myCore.mbFull.setWidth 64),
   (0x20B, fun s => BitVec.ofNat 64 s.me.inl.length),
   (0x300, fun s => BitVec.ofNat 64 (matrixStatus s)),
   (0x301, fun s => BitVec.ofNat 64 ((List.range 8).map fun j => laneStatus (s.lane (8 * (s.agent / 8) + j)) * 256 ^ j).sum),
   (0x302, fun s => BitVec.ofNat 64 (diagramStatus s)),
   (0x330, fun s => BitVec.ofNat 64 ((List.range 32).map fun p => penFill (s.myCore.pen p).msgs.length * 2 ^ p).sum),
   (0x400, fun s => BitVec.ofNat 64 (s.me.rep.count - 1 + s.me.rep.index * 4)),
   (0x401, fun s => s.me.rep.earmark), (0x402, fun s => BitVec.ofNat 64 (heldSectors s.me.rep.held).length),
   (0x403, fun s => BitVec.ofNat 64 (((s.ctx (s.asidOf s.agent)).map (·.record.rtest)) == some true).toNat)]

/-- The supervisor's words (SVEC apart), by their numbers. -/
def supReads : List (BitVec 12 × (Slot → Word)) :=
  [(0x500, fun x => (x.sup.deleg ||| 4).setWidth 64), (0x501, fun x => x.sup.ptroot),
   (0x502, fun x => x.sup.asid.setWidth 64), (0x503, fun x => x.sup.svscratch), (0x505, fun x => x.sup.scause.setWidth 64),
   (0x506, fun x => x.sup.spc), (0x507, fun x => x.sup.saddr),
   (0x508, fun x => BitVec.ofNat 64 (x.sup.nest.toNat * 2 + x.sup.async.toNat * 4 + x.sup.sinh.toNat * 8))]

/-- The RW words that a CWR writes whole, before the instruction completes, by their numbers. -/
def wordWrites : List (BitVec 12 × (Word → Slot → Slot)) :=
  [(0x100, fun v x => { x with trap := { x.trap with tcause := v.setWidth 10 } }),
   (0x101, fun v x => { x with trap := { x.trap with tpc := v } }),
   (0x102, fun v x => { x with trap := { x.trap with taddr := v } }),
   (0x103, fun v x => { x with trap := { x.trap with tvec := v } }),
   (0x105, fun v x => { x with trap := { x.trap with tscratch := v } }),
   (0x206, fun v x => { x with feretry := v.setWidth 8 }), (0x207, fun v x => { x with rngCtr := v })]

/-- The loop words that a CWR writes for the next instruction on (R41 of spec/02), by their numbers. -/
def loopWrites : List (BitVec 12 × (Word → Loop → Loop)) :=
  [(0x200, fun v l => { l with lc0 := v }), (0x201, fun v l => { l with lb0 := v }), (0x202, fun v l => { l with le0 := v }),
   (0x203, fun v l => { l with lc1 := v }), (0x204, fun v l => { l with lb1 := v }), (0x205, fun v l => { l with le1 := v })]

/-- The supervisor's words that a CWR at supervisor level writes, by their numbers. -/
def supWrites : List (BitVec 12 × (Word → SupTrap → SupTrap)) :=
  [(0x500, fun v t => { t with deleg := v.setWidth 16 ||| 4 }), (0x501, fun v t => { t with ptroot := v }),
   (0x502, fun v t => { t with asid := v.setWidth 12 }), (0x503, fun v t => { t with svscratch := v }),
   (0x505, fun v t => { t with scause := v.setWidth 10 }), (0x506, fun v t => { t with spc := v }),
   (0x507, fun v t => { t with saddr := v })]

/-- The words that a CWR leaves as they are: the RO words. -/
def readOnly (n : Nat) : Prop :=
  n ≤ 0x00A ∨ (0x208 ≤ n ∧ n ≤ 0x20B) ∨ (0x300 ≤ n ∧ n ≤ 0x302) ∨ (0x310 ≤ n ∧ n ≤ 0x330) ∨ (0x400 ≤ n ∧ n ≤ 0x403)

end Sys2Proof.Stmt

/-! ## Guards and the flow of control (spec/03, spec/07) -/

/-- R54 of spec/03: an instruction executes if P[n] = GD[4]: with the guard true it acts as under p0, otherwise it only
completes (R121 of spec/07); P[0] reads 1 and a write to it is discarded. -/
def Obligations.GuardDecidesExecution : Prop :=
  (∀ (i : Instr) (gd : Guard) (s : State), Stmt.guardOfInstr i = some gd →
    (s.me.pred gd.pred.val = gd.sense → exec i s = exec (Stmt.unguarded i) s) ∧
    (s.me.pred gd.pred.val ≠ gd.sense → s.me.park.once = false → exec i s = .next (s.onMe Slot.complete))) ∧
  ∀ (x : Slot) (b : Bool), x.pred 0 = true ∧ x.setPred 0 b = x

/-- R46 of spec/03: the successor of head h is the head at PC + 2 if h < NH, else head 1 of the next line. -/
def Obligations.SuccessorIsNextHead : Prop :=
  ∀ (pc : Word) (nh : Nat), 1 ≤ pc.toNat / 2 % 32 → pc.toNat / 2 % 32 ≤ nh → nh ≤ 31 →
    succPc pc nh = if pc.toNat / 2 % 32 < nh then pc + 2 else (pc &&& ~~~0x3F#64) + 64 + 2

/-- R121 of spec/07: the loop step of an instruction that completes without a transfer, outside a trap handler and in one. -/
def Obligations.LoopStepChoosesNextPc : Prop :=
  ∀ x : Slot, (x.trap.inh = true ∨ x.sup.sinh = true → x.complete.loop = x.loop ∧ x.complete.pc = succPc x.pc x.nh) ∧
    (x.trap.inh = false → x.sup.sinh = false →
      (∀ n, x.loop.lc0 = n + 1 → x.loop.lc0 ≠ 0 → x.pc = x.loop.le0 →
        (n ≠ 0 → x.complete.loop = { x.loop with lc0 := n } ∧ x.complete.pc = x.loop.lb0) ∧
        (n = 0 → ¬(x.loop.lc1 ≠ 0 ∧ x.pc = x.loop.le1) →
          x.complete.loop = { x.loop with lc0 := 0 } ∧ x.complete.pc = succPc x.pc x.nh) ∧
        (n = 0 → ∀ m, x.loop.lc1 = m + 1 → x.loop.lc1 ≠ 0 → x.pc = x.loop.le1 →
          x.complete.loop = { x.loop with lc0 := 0, lc1 := m } ∧
          x.complete.pc = if m ≠ 0 then x.loop.lb1 else succPc x.pc x.nh)) ∧
      (¬(x.loop.lc0 ≠ 0 ∧ x.pc = x.loop.le0) → ∀ m, x.loop.lc1 = m + 1 → x.loop.lc1 ≠ 0 → x.pc = x.loop.le1 →
        x.complete.loop = { x.loop with lc1 := m } ∧ x.complete.pc = if m ≠ 0 then x.loop.lb1 else succPc x.pc x.nh) ∧
      (¬(x.loop.lc0 ≠ 0 ∧ x.pc = x.loop.le0) → ¬(x.loop.lc1 ≠ 0 ∧ x.pc = x.loop.le1) →
        x.complete.loop = x.loop ∧ x.complete.pc = succPc x.pc x.nh))

/-- R120 and R123 of spec/07: BR and CALL transfer to Rel(PC, IMM20), CALL with its link in A; LOOP with a count of 0 goes
behind the body and otherwise starts the level, or raises 0x3C4 when both levels are active. That a count of 0 goes to Succ(e) also
where e is no head of its line, which R46 of spec/03 does not define, is the model's choice (DESIGN CHOICE, log 16). -/
def Obligations.BranchesTransferAndLoopsStart : Prop :=
  ∀ (gd : Guard) (a : Opnd) (t : BitVec 20) (s : State), s.atStart → s.me.guardOk gd = true →
    exec (.br gd t) s = .next (s.onMe (·.jump (Stmt.rel s.me.pc t))) ∧
    (s.canRun [] [a] → exec (.call gd a t) s =
      .next (((s.taken []).writeOpnd a (succPc s.me.pc s.me.nh)).onMe (·.jump (Stmt.rel s.me.pc t)))) ∧
    (s.canRun [⟨a, false⟩] [] → let n := arg (s.vals [⟨a, false⟩]) 0; let e := Stmt.rel s.me.pc t
      (n = 0 → e.toNat / 64 = s.me.pc.toNat / 64 →
        exec (.loop gd a t) s = .next ((s.taken [⟨a, false⟩]).onMe (·.jump (succPc e s.me.nh)))) ∧
      (n ≠ 0 → s.me.loop.lc0 = 0 ∨ s.me.loop.lc1 = 0 →
        exec (.loop gd a t) s = .next ((s.taken [⟨a, false⟩]).onMe fun x =>
          ({ x with loop := Stmt.looped x n e } : Slot).complete)) ∧
      (n ≠ 0 → s.me.loop.lc0 ≠ 0 → s.me.loop.lc1 ≠ 0 → Stmt.takesTrap s (exec (.loop gd a t) s) 0x3C4 0)) ∧
    ∀ (x : Slot) (v : Word), (x.jump v).pc = v ∧ (x.jump v).loop = x.loop ∧ (x.jump v).via = x.pc

/-- The frame of flow, traps and control words: no general register, predicate, vector or mask register changes, and no
byte of memory, whatever the step does (it completes, parks or traps). -/
def Obligations.ControlFrame : Prop :=
  ∀ (gd : Guard) (a : Opnd) (b : Src) (t : BitVec 20) (n : BitVec 12) (s u : State) (i : Instr), s.me.park.once = false →
    i ∈ [.br gd t, .loop gd a t, .trap gd t, .tret, .brk, .cwr gd n b] → exec i s = .next u →
    s.sameRegs u 32 ∧ s.keptMem u ∧ u.host = s.host ∧ u.tap = s.tap ∧ s.sameOthers u

/-! ## Traps (spec/23) -/

/-- R343 of spec/23: what entering a trap saves, where it goes, and what stays: no register, predicate, vector or mask
register, full bit, queue or byte of memory changes; at supervisor level the package freezes terminally with source 3, with every
Margon port Down (R350), and the slots stay, but for what a port that goes Down marks (R339 of spec/22). -/
def Obligations.TrapEntrySavesAndVectors : Prop :=
  ∀ (s : State) (n code : Nat) (tpc taddr : Word) (async : Bool),
    let x := s.slot n; let t := s.trapSlot n code tpc taddr async; let y := t.slot n
    (x.sup.sinh = true → (s.freeze = .off → t.freeze = .on false 3 ∧ ∀ p, (t.port p).state = .down) ∧
      (∀ m, (s.slot m).marked (t.slot m)) ∧ t.cores = s.cores ∧ s.keptMem t) ∧
    (x.sup.sinh = false → (Stmt.toContext x code →
      y.trap = { x.trap with tcause := BitVec.ofNat 10 code, tpc := tpc, taddr := taddr, async := async, inh := true } ∧
      y.sup = x.sup ∧ y.pc = x.trap.tvec) ∧
    (¬Stmt.toContext x code →
      y.sup = { x.sup with scause := BitVec.ofNat 10 code, spc := tpc, saddr := taddr, async := async, nest := x.trap.inh,
                           sinh := true } ∧
      y.trap = x.trap ∧ y.pc = s.svec) ∧
    y.g = x.g ∧ y.full = x.full ∧ y.p = x.p ∧ y.v = x.v ∧ y.k = x.k ∧ y.loop = x.loop ∧ y.mon = x.mon ∧ y.pend = x.pend ∧
      t.cores = s.cores ∧ t.mem = s.mem ∧ t.freeze = s.freeze)

/-- R344 of spec/23: a trap in a context handler goes to the supervisor and leaves the context's trap words intact. -/
def Obligations.NestedTrapKeepsContextWords : Prop :=
  ∀ (s : State) (n code : Nat) (tpc taddr : Word), (s.slot n).trap.inh = true → (s.slot n).sup.sinh = false →
    let y := (s.trapSlot n code tpc taddr false).slot n
    y.trap = (s.slot n).trap ∧ y.sup.sinh = true ∧ y.sup.nest = true ∧ y.pc = s.svec

/-- R343 of spec/23, R63 of spec/03: a precise trap has TPC = the trapping PC and leaves no effect: the sources this issue
took are given back, each full bit, queue and mailbox as before (a queue holds at most 8 entries). -/
def Obligations.PreciseTrapLeavesNoEffect : Prop :=
  ∀ (s : State) (srcs : List Src) (code : Nat) (taddr : Word), s.atStart → s.canRun srcs [] →
    (∀ q, (s.myCore.queue q).length ≤ 8) →
    Stmt.takesTrap s ((s.taken srcs).trap code taddr) code taddr ∧
    ∀ t, (s.taken srcs).trap code taddr = .next t →
      (∀ n, t.me.isFull n = s.me.isFull n) ∧ (∀ q, q < 8 → t.myCore.queue q = s.myCore.queue q) ∧
      t.myCore.mbFull = s.myCore.mbFull ∧ ∀ m, Table.val 0 m t.myCore.mb = Table.val 0 m s.myCore.mb

/-- R126 and R346 of spec/07 and spec/23: TRAP and BRK perform the loop step and enter with TPC = the chosen next PC; TRET
leaves the innermost handler and resumes at its saved PC, and outside a handler raises 0x3C5; TRAP and BRK outside a
supervisor handler, TRET in a handler. -/
def Obligations.TrapBreakAndReturn : Prop :=
  ∀ (gd : Guard) (v : BitVec 20) (s : State), s.me.park.once = false →
    (s.me.guardOk gd = true → exec (.trap gd v) s =
      .next ((s.onMe Slot.complete).trapSlot s.agent 0x3C2 s.me.complete.pc (v.setWidth 64) false)) ∧
    exec .brk s = .next ((s.onMe Slot.complete).trapSlot s.agent 0x3C3 s.me.complete.pc 0 false) ∧
    (s.me.sup.sinh = true → exec .tret s =
      .next (s.onMe fun x => ({ x with sup := { x.sup with sinh := false } } : Slot).jump x.sup.spc)) ∧
    (s.me.sup.sinh = false → s.me.trap.inh = true → exec .tret s =
      .next (s.onMe fun x => ({ x with trap := { x.trap with inh := false } } : Slot).jump x.trap.tpc)) ∧
    (s.me.sup.sinh = false → s.me.trap.inh = false → s.me.park.vals = none → Stmt.takesTrap s (exec .tret s) 0x3C5 0)

/-! ## Control words (spec/02) -/

/-- R41 of spec/02, R153 of spec/09, R172 of spec/11, R425 of spec/12, R127 of spec/07, R341 and R342 of spec/23: CRD writes the
named word to A and completes (CLOCK outside a replica set); outside a replica set nothing else changes. That DDSTS reads Busy of a
Halted space is the model's reading (DEDUCED, log 39: R425 has no code for Halted), as is the word LCN, which R440 of spec/10 has
read 0 in S7 (log 52). -/
def Obligations.ControlWordReads : Prop :=
  ∀ (gd : Guard) (a : Opnd) (s : State), s.atStart → s.me.guardOk gd = true → s.canRun [] [a] →
    (∀ e ∈ Stmt.wordReads, exec (.crd gd a e.1) s = .next (s.wrote [] a (e.2 s))) ∧
    (∀ ch, ch < 16 →
      exec (.crd gd a (BitVec.ofNat 12 (0x310 + ch))) s =
        .next (s.wrote [] a ((s.chan (Stmt.tileNum s) ch).cdone.setWidth 64)) ∧
      exec (.crd gd a (BitVec.ofNat 12 (0x320 + ch))) s = .next (s.wrote [] a (s.chan (Stmt.tileNum s) ch).wptr)) ∧
    (s.me.rep.count = 0 → exec (.crd gd a 0x005) s = .next (s.wrote [] a s.clock)) ∧
    (s.me.sup.sinh = true →
      (∀ e ∈ Stmt.supReads, exec (.crd gd a e.1) s = .next (s.wrote [] a (e.2 s.me))) ∧
      exec (.crd gd a 0x504) s = .next (s.wrote [] a s.svec)) ∧
    ∀ (n : BitVec 12) (t : State), s.me.rep.count = 0 → exec (.crd gd a n) s = .next t →
      (∀ r, a ≠ .g r → t.me.reg r.val = s.me.reg r.val) ∧ t.me.p = s.me.p ∧ t.me.v = s.me.v ∧ t.me.k = s.me.k ∧
        s.keptMem t ∧ s.sameWords t ∧ s.sameOthers t

/-- R41 of spec/02, R127 of spec/07: CWR writes the RW and, at supervisor level, the SV fields of a word; a loop word
changes from the next instruction on; a write to an RO word is ignored. That a CWR of a loop word at an end head makes its own loop
step with the old words, over whose result the written word then stands, is the model's reading (DEDUCED, log 36). -/
def Obligations.ControlWordWrites : Prop :=
  ∀ (gd : Guard) (b : Src) (s : State), s.atStart → s.me.guardOk gd = true → s.canRun [b] [] →
    let v := arg (s.vals [b]) 0; let t := s.taken [b]
    (∀ e ∈ Stmt.wordWrites, exec (.cwr gd e.1 b) s = .next (t.onMe fun x => (e.2 v x).complete)) ∧
    exec (.cwr gd 0x104 b) s =
      .next (t.onMe fun x => ({ x with trap := { x.trap with async := v.getLsbD 1 } } : Slot).complete) ∧
    (∀ e ∈ Stmt.loopWrites, exec (.cwr gd e.1 b) s = .next (t.onMe fun x => { x.complete with loop := e.2 v x.complete.loop })) ∧
    (∀ n : BitVec 12, Stmt.readOnly n.toNat → exec (.cwr gd n b) s = .next (t.onMe Slot.complete)) ∧
    (s.me.sup.sinh = true →
      (∀ e ∈ Stmt.supWrites, ∃ u, exec (.cwr gd e.1 b) s = .next u ∧ u.me.sup = e.2 v s.me.sup ∧ u.me.trap = s.me.trap ∧
        u.me.pc = s.me.complete.pc) ∧
      (∃ u, exec (.cwr gd 0x508 b) s = .next u ∧ u.me.sup = { s.me.sup with async := v.getLsbD 2, nest := v.getLsbD 1 } ∧
        u.me.trap = s.me.trap ∧ u.me.pc = s.me.complete.pc) ∧
      ∃ u, exec (.cwr gd 0x504 b) s = .next u ∧ u.svec = v ∧ u.me.sup = s.me.sup ∧ u.me.pc = s.me.complete.pc)

/-- R41 of spec/02, R326 of spec/21: at user level a supervisor word raises 0x081 and PTSYNC 0x082, before any effect; that both
come before the operands are taken is the model's reading (DEDUCED, log 55). -/
def Obligations.PrivilegeTraps : Prop :=
  ∀ (gd : Guard) (a : Opnd) (b : Src) (r : Fin 32) (k : SyncKind) (n : BitVec 12) (s : State), s.atStart →
    s.me.guardOk gd = true → s.me.sup.sinh = false →
    (0x500 ≤ n.toNat → n.toNat ≤ 0x5FF →
      Stmt.takesTrap s (exec (.crd gd a n) s) 0x081 0 ∧ Stmt.takesTrap s (exec (.cwr gd n b) s) 0x081 0) ∧
    Stmt.takesTrap s (exec (.ptsync gd k r b) s) 0x082 0

/-- R61 and R62 of spec/03: a reserved major opcode raises 0x043, and a TS that is not its opcode's 0x044, at its PC. -/
def Obligations.ReservedOpcodesTrap : Prop :=
  ∀ (h : BitVec 16) (s : State), s.atStart →
    (formatOf (h.toNat / 64 % 256) = none → Stmt.takesTrap s (exec (.reservedMajorOpcode h) s) 0x043 0) ∧
    (formatOf (h.toNat / 64 % 256) ≠ none → Stmt.takesTrap s (exec (.reservedMajorOpcode h) s) 0x044 0)

/-! ## The end of a thread (spec/07) -/

/-- R129 and R37 of spec/07 and spec/02: RETIRE with an inline entry returns to it with its random counters; otherwise, once
no engine operation is in flight, outside a replica set or once its vote has agreed, it frees the slot (here with no group queued: a
pass may place another thread there at once, R251 of spec/15; and no unit ends, R239 of spec/14), disarms the monitors and clears
the loop words; S7 restarts one rotation later (R154 of spec/10). A thread of a group is counted toward it; with its last one the group
is Complete and the launch counts it (R257 of spec/15; here a group of no replica set). In a replica set RETIRE is a vote point of kind
release (R271 and R278 of spec/17): the slot waits for the vote, or takes 0x2C1 with its earmark where it was absent from a vote that
timed out (R276). -/
def Obligations.RetireEndsThread : Prop :=
  ∀ s : State, s.me.park.once = false →
    (∀ e es, s.me.inl = e :: es → exec .retire s = .next (s.onMe fun x =>
      ({ x with inl := es, srCtr := e.sr, rngCtr := e.rng } : Slot).jump e.pc)) ∧
    (s.me.inl = [] → s.enginesDone s.agent = true →
      let ended := fun (t : State) => t.me.status = .free ∧ t.me.loop = {} ∧ t.me.mon = [] ∧ t.me.trap.inh = false ∧
        t.me.sup.sinh = false ∧ t.me.g = s.me.g ∧ t.me.v = s.me.v ∧ t.mem = s.mem ∧
        (s.agent % 8 = 7 → t.myCore.restart = some (s.clock + 8)) ∧
        t.myCore.q = s.myCore.q ∧ t.myCore.mbFull = s.myCore.mbFull
      (s.me.rep.count = 0 ∨ (s.me.park.voted = true ∧ s.me.park.lostAt = none) →
        (s.me.id.group = none → (∀ e ∈ s.groups, ∀ x, e.2 = some x → x.die = s.agent / 64 / 24 → x.state ≠ .queued) →
          (∀ h u, s.unit (s.asidOf s.agent) h = some u → u.state ≠ .cancelling ∧ (u.state = .active → u.over = false)) →
          ∃ t, exec .retire s = .next t ∧ ended t) ∧
        ∀ g y, s.me.id.group = some g → s.group g = some y → (∀ e ∈ s.groups, ∀ x, e.2 = some x → x.state ≠ .queued) →
          (2 ≤ y.threads → ∃ t, exec .retire s = .next t ∧ ended t ∧ t.group g = some { y with threads := y.threads - 1 }) ∧
          ∀ u, y.threads = 1 → y.state = .placed → (∀ r ∈ s.sets, g ∉ r.members) →
            s.unit y.asid (handleOf 0 y.launch) = some u → u.state = .active → u.count + 1 + u.pruned < u.total →
            ∃ t x, exec .retire s = .next t ∧ ended t ∧ t.group g = some x ∧ x.state = .complete ∧
              t.unit y.asid (handleOf 0 y.launch) = some { u with count := u.count + 1 }) ∧
      (s.me.rep.count ≠ 0 → s.me.park.voted = false → s.me.rep.spill = [] →
        (s.me.rep.mismatch = true → s.me.park.vals = none → Stmt.takesTrap s (exec .retire s) 0x2C1 s.me.rep.earmark) ∧
        (s.me.rep.mismatch = false → s.me.rep.vote = none → s.me.haltReq = false → ∃ t, exec .retire s = .next t ∧ t.mem = s.mem ∧
          t.me.status = .parked ∧ t.me.park.wait = some .vote ∧
          t.me.rep.vote = some ⟨.release, false, s.me.rep.earmark, s.me.rep.held.length, s.me.rep.waited, [], false⟩)))

/-! ## The machine (spec/00 to spec/03, spec/23) -/

/-- R50 to R52 of spec/03 and the entries' own examples: words written out from the spec decode to what they stand for. -/
def Obligations.SpecWordsDecode : Prop :=
  decode 0 false 0x4806 0x1050 = .ok (.listed (.add (.g 6) ⟨.g 4, false⟩ ⟨.g 5, false⟩)) ∧
  decode 0 false 0x8204 0x01000005 = .ok (.listed (.crd Guard.always (.g 4) 0x005)) ∧
  decode 0 false 0x9001 0x19000000 = .ok (.listed (.cmpi Guard.always 1 (.signed .eq) ⟨.g 6, false⟩ 0)) ∧
  decode 0 false 0xF540 0x285202000000 = .ok (.listed (.hinit Guard.always .tile ⟨.g 10, false⟩ ⟨.g 5, false⟩ 0)) ∧
  decode 0 false 0xF584 0x280200000000 = .ok (.listed (.harr Guard.always 4 ⟨.g 10, false⟩ 0)) ∧
  decode 0 false 0xB5C4 0x29000000 = .ok (.listed (.hwait Guard.always 4 ⟨.g 10, false⟩ 0)) ∧
  decode 0 false 0xB800 0x01000004 = .ok (.listed (.rrel Guard.always .pkg)) ∧
  decode 0 false 0xBA84 0x01000001 = .ok (.listed (.qwaitNow Guard.always 4)) ∧
  decode 0 false 0xBAC5 0x19000000 = .ok (.listed (.ptsync Guard.always .page 5 ⟨.g 6, false⟩))

/-- What reset leaves (R41 of spec/02, R102 of spec/05, R156 of spec/10, R308 of spec/20, R323 of spec/21, R338 of spec/22),
and that the memory stands in its canonical form. The words of slots that run nothing are the model's choice (log 10), as is
queue 0 Unbound (log 11). -/
def Obligations.ResetState : Prop :=
  let s := State.reset
  s.clock = 0 ∧ s.freeze = .off ∧ s.svec = 0 ∧ s.qepoch = 1 ∧ s.memWf ∧
  (∀ n, let x := s.slot n
    x.status = .free ∧ (∀ r, r < 32 → x.isFull r = true) ∧ x.loop = {} ∧ x.feretry = 16 ∧ x.inl = [] ∧ x.trap = {} ∧
    x.mon = [] ∧ x.sup.sinh = false ∧ x.sup.ptroot = 0 ∧ x.sup.asid = 0 ∧ x.rep.earmark = 0 ∧ x.rep.held = []) ∧
  (∀ c, (∀ q, (s.core c).queue q = []) ∧ (s.core c).mbFull = 0 ∧ ∀ p, ((s.core c).pen p).msgs = []) ∧
  (∀ t ch, (s.chan t ch).next = 1 ∧ (s.chan t ch).cdone = 1 ∧ (s.chan t ch).wptr = 0) ∧
  (∀ a, s.feFull a = true) ∧ (∀ q, (s.queue q).state = .unbound) ∧ ∀ p, (s.port p).state = .down

/-- The invariant of memory (R90 and R15 of spec/05 and spec/01; its canonical form is the model's, log 6): every step that
goes on keeps it. -/
def Obligations.EveryStepKeepsMemoryForm : Prop := ∀ s t, s.memWf → step s = .next t → t.memWf

/-- R20 of spec/02, R42 to R49 of spec/03: with no event waiting or due, and in a replica set no vote at the boundary, when the line
at the running slot's PC passes its checks and its head decodes to an instruction, the step is that instruction's meaning in the
slot's turn. That the next core's turn follows, in core order, and after core 767 the cycle's own work as the clock counts, is the
model's order (DESIGN CHOICE, log 2). -/
def Obligations.StepRunsDecodedInstruction : Prop :=
  (∀ (s : State) (line : Nat) (i : Instr), s.inputs = [] → s.freeze = .off → s.due = none →
    let n := 8 * s.turn + s.clock.toNat % 8
    let r := { s with agent := n }
    let x := s.slot n
    let h := x.pc.toNat / 2 % 32
    x.status = .running → r.trapDue n = false → x.park.insn = none → x.kept = [] →
    x.rep.count = 0 ∨ (x.rep.spill = [] ∧ x.park.voted = false) → r.fetchLine n = .ok line → lineCheck line = none → x.pc.toNat % 2 = 0 → 1 ≤ h → h ≤ lineNH line →
    decode (Fin.ofNat 8 n) x.sup.sinh (lineHalf line h) (lineTail line h) = .ok (.listed i) →
    step s = match exec i (r.onMe fun x => { x with nh := lineNH line, kept := [], park := { insn := some (.listed i) } }) with
      | .next t => .next (if t.freeze = .off then t.advance else t)
      | o => o) ∧
  ∀ t : State, (t.turn + 1 < 768 → t.advance = { t with turn := t.turn + 1 }) ∧
    (768 ≤ t.turn + 1 → t.advance = ({ t with turn := 0, clock := t.clock + 1 } : State).tick)

/-- R350 of spec/23 and the model's order of events (log 2): the environment's next event comes first, with or without a row of the
table; one that leaves the step to the machine (log 62), or none, has it do what is its own; a frozen package does nothing but what
passes the freeze; an event that time has made due comes before a core's turn. R98 and R99 of spec/05: the write-back of a dirty
line leaves memory as it is, and gives the line state 0 when it is all zero, 8 when it may not be compressed; that an all-zero line
takes state 0 even then is the model's choice (log 67). -/
def Obligations.EventsComeBeforeTurns : Prop :=
  ∀ s : State,
    (∀ e es, s.inputs = .event e :: es → s.freeze = .off → step s = exec e { s with inputs := es }) ∧
    (∀ e es, s.inputs = .other e :: es → e ≠ .ownStep → s.freeze = .off → step s = execEnv e { s with inputs := es }) ∧
    (∀ es, s.inputs = .other .ownStep :: es → s.freeze = .off → step s = State.ownStep { s with inputs := es }) ∧
    (s.inputs = [] → step s = s.ownStep) ∧
    (s.freeze ≠ .off → (∀ e ∈ s.inputs, e.throughFreeze = false) → step s = .next s) ∧
    (∀ e, s.inputs = [] → s.freeze = .off → s.due = some e → step s = exec e s) ∧
    ∀ line x, Table.val none line (s.dirty.map fun e => (e.1, some e.2)) = some x →
      ∃ t, execEnv (.writeBack line) s = .next t ∧ t.mem = s.mem ∧
        let bs := memRead s.mem (512 * line) 512
        let st := Table.val 0 line t.lines
        ((∀ b ∈ bs, b = 0) → st = 0) ∧ (¬(∀ b ∈ bs, b = 0) → 1 ≤ st ∧ st ≤ 8 ∧ (x.allowed = false → st = 8))

/-! ## Vector gathers and scatters (spec/08) -/

namespace Sys2Proof.Stmt

/-- Element `i` of `w` bits. -/
def elem (w i : Nat) (v : BitVec 1024) : Nat := v.toNat / 2 ^ (w * i) % 2 ^ w

/-- Bits of an element of a gather. -/
def gatherBits : GatherType → Nat
  | .int64 => 64
  | _ => 32

/-- The address of element `i`: base plus the signed 32-bit offset times 2^scale (R152 of spec/08). -/
def gatherEa (base : Word) (v : BitVec 1024) (scale : Fin 4) (i : Nat) : Word :=
  base + BitVec.ofInt 64 ((BitVec.ofNat 32 (elem 32 i v)).toInt * 2 ^ scale.val)

/-- Element `i` is enabled. -/
def enabled (x : Slot) (mask : Option (Fin 4)) (i : Nat) : Bool :=
  match mask with | none => true | some k => (x.kreg k.val).getLsbD i

/-- Under a mask the bits of the `n` elements are zero afterwards, and with an element performed the bits beyond them too (R130 of
spec/08); the other mask registers stay. -/
def maskDone (x y : Slot) (mask : Option (Fin 4)) (n : Nat) : Prop :=
  (∀ k, mask ≠ some k → y.kreg k.val = x.kreg k.val) ∧
  ∀ k, mask = some k → (∀ i, i < n → (y.kreg k.val).getLsbD i = false) ∧
    ((∃ i, i < n ∧ (x.kreg k.val).getLsbD i = true) → y.kreg k.val = 0)

/-- A near access: aligned, `n` bytes of own TCM or the own paddock at flat address `pa`, no memory error. -/
def near (s : State) (ea : Word) (n pa : Nat) : Prop :=
  ea.toNat % n = 0 ∧ (s.place s.myCoreNum (s.asidOf s.agent) ea n = .ok pa .tcm ∨
    s.place s.myCoreNum (s.asidOf s.agent) ea n = .ok pa .ownPaddock) ∧ s.badIn pa n = none

end Sys2Proof.Stmt

/-- R152 of spec/08: VGATH loads the enabled elements in ascending order into V[A], leaving the others; VSCAT stores those of
V[A]; under a mask its bits are zero afterwards (near memory, no store held). That the offsets are read once, so that a gather with
A = C uses those it found, is the model's reading (DEDUCED, log 31). -/
def Obligations.GathersAndScattersElements : Prop :=
  ∀ (gd : Guard) (ty : GatherType) (a c : Fin 16) (b : Src) (mask : Option (Fin 4)) (scale : Fin 4) (pa : Nat → Nat)
    (s : State), s.atStart → s.me.guardOk gd = true → s.canRun [b] [] → s.me.rep.count = 0 → s.me.rep.buffer = [] →
    let w := Stmt.gatherBits ty
    let on := Stmt.enabled s.me mask
    let ea := Stmt.gatherEa (arg (s.vals [b]) 0) (s.me.vreg c.val) scale
    (∀ i, i < 1024 / w → on i = true → Stmt.near s (ea i) (w / 8) (pa i)) →
    (∃ t, exec (.vgath gd ty a b c mask scale) s = .next t ∧ t.me.pc = s.me.complete.pc ∧ t.mem = s.mem ∧ s.sameRegsBut t ∧
      (∀ i, i < 1024 / w → Stmt.elem w i (t.me.vreg a.val) =
        if on i = true then leNat (memRead s.mem (pa i) (w / 8)) else Stmt.elem w i (s.me.vreg a.val)) ∧
      (∀ r, r ≠ a.val → t.me.vreg r = s.me.vreg r) ∧ Stmt.maskDone s.me t.me mask (1024 / w)) ∧
    ∃ t, exec (.vscat gd ty a b c mask scale) s = .next t ∧ t.me.pc = s.me.complete.pc ∧ s.sameRegsBut t ∧
      t.mem = ((List.range (1024 / w)).filter on).foldl
        (fun m i => memWrite m (pa i) (leBytes (Stmt.elem w i (s.me.vreg a.val)) (w / 8))) s.mem ∧
      t.me.v = s.me.v ∧ Stmt.maskDone s.me t.me mask (1024 / w)

/-- The frame of VGATH and VSCAT, at the start of the instruction: whatever the step does, no general register, predicate, other
mask register or control word changes, no other vector register than VGATH's V[A], no other slot but for its monitors and the
links' marks, no byte of memory at VGATH, and at VSCAT none outside the bytes its enabled elements name. -/
def Obligations.GatherAndScatterFrame : Prop :=
  ∀ (gd : Guard) (ty : GatherType) (a c : Fin 16) (b : Src) (mask : Option (Fin 4)) (scale : Fin 4) (s t : State), s.atStart →
    let w := Stmt.gatherBits ty
    let ea := Stmt.gatherEa (arg (s.vals [b]) 0) (s.me.vreg c.val) scale
    let rest := s.sameRegsBut t ∧ s.sameWords t ∧ ∀ k : Fin 4, mask ≠ some k → t.me.kreg k.val = s.me.kreg k.val
    (exec (.vgath gd ty a b c mask scale) s = .next t → rest ∧ s.sameOthers t ∧ s.keptMem t ∧
      ∀ r, r ≠ a.val → t.me.vreg r = s.me.vreg r) ∧
    (exec (.vscat gd ty a b c mask scale) s = .next t → rest ∧ (∀ n, n ≠ s.agent → (s.slot n).marked (t.slot n)) ∧
      t.me.v = s.me.v ∧ s.keptMemBut t fun m => ∃ i, i < 1024 / w ∧ Stmt.enabled s.me mask i = true ∧ ∃ ps,
        s.access s.agent (ea i) (w / 8) (s.need false true) = .ok ps ∧ ∃ p ∈ ps, p.pa ≤ m ∧ m < p.pa + p.len)

/-! ## The matrix array and the crook (spec/09) -/

namespace Sys2Proof.Stmt

/-- The matrix commands, each with its sources and what it asks of the array (R151 of spec/09). -/
def matrixOps (gd : Guard) (b c : Src) (e : Fin 64) (k n r m : Fin 128) (l : Fin 5) (x y : Bool) :
    List (Instr × List Src × (List Word → MatReq)) :=
  [(.mprog gd b l, [b], fun v => .prog l.val (arg v 0)),
   (.mcfg gd x y, [], fun _ => .cfg x y),
   (.mclr gd b r n, [b], fun v => .clr (arg v 0) r.val (n.val + 1)),
   (.mwld gd x e b c k n, [b, c], fun v => .wld x e.val (arg v 0) (arg v 1) (k.val + 1) (n.val + 1)),
   (.mma gd e b c r m, [b, c], fun v => .mma e.val (arg v 0) (arg v 1) r.val (m.val + 1)),
   (.mrd gd x b c r m n, [b, c], fun v => .rd x (arg v 0) (arg v 1) r.val (m.val + 1) (n.val + 1))]

end Sys2Proof.Stmt

/-- R144, R151 and R152 of spec/09: a matrix command of the holder that passes its checks is queued, to start one cycle later
at the earliest, and the instruction completes; a command that needs no check is always accepted; one of a slot without a
lease raises 0x341. -/
def Obligations.MatrixCommandsQueue : Prop :=
  ∀ (gd : Guard) (b c : Src) (e : Fin 64) (k n r m : Fin 128) (l : Fin 5) (x y : Bool) (s : State), s.atStart →
    s.me.guardOk gd = true → (Stmt.crook s).err.find? (·.1 == s.me.tid) = none →
    ∀ o ∈ Stmt.matrixOps gd b c e k n r m l x y, s.canRun o.2.1 [] →
    (s.me.lease = .holding → (Stmt.crook s).queue.length < 4 → ∀ cmd,
      s.acceptReq (s.agent / 8) s.me.srCtr (o.2.2 (s.vals o.2.1)) = .ok cmd →
      ∃ t, exec o.1 s = .next t ∧ t.me.pc = s.me.complete.pc ∧ s.sameRegs t 32 ∧ t.mem = s.mem ∧
        (Stmt.crook t).queue = (Stmt.crook s).queue ++ [⟨cmd, s.me.tid, s.agent / 8, s.me.id.logical, s.me.id.lcn,
          s.me.id.jobseed, s.clock + 1⟩]) ∧
    (s.me.lease = .none → Stmt.takesTrap s (exec o.1 s) 0x341 0) ∧
    (∀ core sr v, s.acceptReq core sr (.cfg x y) = .ok (.cfg x y) ∧
      s.acceptReq core sr (.clr v r.val (n.val + 1)) = .ok (.clr (v.setWidth 32) r.val (n.val + 1)))

/-- R142, R143 and R151 of spec/09: MLEASE of the holder goes on, and gets a free crook that no other slot wants with 64
commands left; MFREE leaves the slot without a lease; MSTAT with no command of its thread waiting gives MLSTAT at once, and
otherwise clears A's full bit and waits for them; that it waits for commands kept from a halt as well, with the queue empty, is
the model's reading (DEDUCED, log 74). -/
def Obligations.LeaseInstructions : Prop :=
  ∀ (gd : Guard) (a : Fin 32) (s : State), s.atStart → s.me.guardOk gd = true →
    (exec .mfree s = .next ((s.leaveCrook s.agent .none).onMe Slot.complete) ∧ (s.leaveCrook s.agent .none).me.lease = .none) ∧
    ((Stmt.crook s).err.find? (·.1 == s.me.tid) = none →
      (s.me.lease = .holding → exec (.mlease gd) s = .next (s.onMe Slot.complete)) ∧
      (s.me.lease = .none → s.agent % 8 ≠ 7 → s.me.status = .running → s.me.haltReq = false → (Stmt.crook s).holder = none →
        (Stmt.crook s).kept = [] → (∀ n, n / 64 = Stmt.tileNum s → n ≠ s.agent → (s.slot n).lease ≠ .waiting) →
        ∃ t, exec (.mlease gd) s = .next t ∧ t.me.lease = .holding ∧ (Stmt.crook t).holder = some s.agent ∧
          (Stmt.crook t).cmdsLeft = 64 ∧ (Stmt.crook t).grantAt = s.clock ∧ t.me.pc = s.me.complete.pc) ∧
      ((Stmt.crook s).depth s.me.tid = 0 →
        exec (.mstat gd a) s = .next (s.onMe fun x => (x.setReg a.val (s.mlstat s.agent)).complete)) ∧
      ((Stmt.crook s).depth s.me.tid ≠ 0 → ∃ t, exec (.mstat gd a) s = .next t ∧
        (Stmt.crook t).mstat = (Stmt.crook s).mstat ++ [⟨s.me.tid, a.val, (Stmt.crook s).depth s.me.tid, none, none⟩] ∧ t.me.pc = s.me.complete.pc ∧
        ∀ r, t.me.isFull r = (s.me.isFull r && (r != a.val || r == 0)))) ∧
    ∀ e, (Stmt.crook s).err.find? (·.1 == s.me.tid) = some e →
      Stmt.takesTrap s (exec (.mlease gd) s) 0x346 e.2.2 ∧ Stmt.takesTrap s (exec (.mstat gd a) s) 0x346 e.2.2

/-- R142, R144, R145 and R151 of spec/09: 16,384 cycles from the grant the holder lapses when another slot waits, and
otherwise its counters start again; the running command takes effect when its cycles have passed: MCFG, MPROG and MCLR here,
and the next command stands first. -/
def Obligations.CrookEvents : Prop :=
  ∀ (tile n : Nat) (s : State), (s.tile tile).crook.holder = some n →
    ((s.slot n).lease = .holding → n / 64 = tile → s.clock.toNat ≥ (s.tile tile).crook.grantAt.toNat + 16384 →
      (s.tile tile).crook.grantAt.toNat + 16384 < 2 ^ 64 →
      (s.waiters tile = [] → ∃ t, exec (.leaseCycleBound tile) s = .next t ∧ (t.tile tile).crook.cmdsLeft = 64 ∧
        (t.tile tile).crook.grantAt = s.clock ∧ (t.slot n).lease = .holding) ∧
      (∀ m, m ≠ n → m ∈ s.waiters tile → ∃ t, exec (.leaseCycleBound tile) s = .next t ∧ (t.slot n).lease = .lapsed)) ∧
    ((s.tile tile).crook.draining = false → ∀ w rest e, (s.tile tile).crook.queue = w :: rest → s.matEnd tile = some e →
      e ≤ s.clock → ∃ t, exec (.matrixCommandCompletes tile) s = .next t ∧ t.mem = (s.runMat tile w).mem ∧
        (∀ ta osat, w.cmd = .cfg ta osat → (t.tile tile).crook.queue = rest ∧ t.mem = s.mem ∧
          (t.core w.core).mcfg = { (s.core w.core).mcfg with ta := ta, osat := osat }) ∧
        (∀ len p, w.cmd = .prog len p → (t.tile tile).crook.queue = rest ∧ t.mem = s.mem ∧
          (t.core w.core).mcfg = { (s.core w.core).mcfg with plen := len, prog := p }) ∧
        ∀ fill row0 rows, w.cmd = .clr fill row0 rows → (t.tile tile).crook.queue = rest ∧ t.mem = s.mem ∧
          ∀ i j, j < 128 → t.accAt w.core i j = if row0 ≤ i ∧ i < row0 + rows then fill else s.accAt w.core i j)

/-! ## Copies (spec/10) -/

/-- R160 to R164 and R403 of spec/10: a DWIN whose records stand and pass R163, whose formats are the same, and whose extents
are in range, with no remote write to wait for and none lost, is queued behind its channel's transfers with the channel's next id,
which goes to A. -/
def Obligations.ImageWindowCopyIsQueued : Prop :=
  ∀ (gd : Guard) (ch : Fin 16) (r : Fin 32) (b c : Src) (ty tx : Fin 16) (p0 : BitVec 16) (pb pc : Nat)
    (s : State), s.atStart → s.me.guardOk gd = true → s.canRun [b, c] [.g r] →
    let core := s.agent / 8
    let l := layoutOf (leNat (memRead s.mem pb 64))
    let d := layoutOf (leNat (memRead s.mem pc 64))
    let f := s.endFormat core l.base { ty := l.ty, table := l.table, rnd := l.rnd }
    let g := s.endFormat core d.base { ty := d.ty, table := d.table, rnd := d.rnd }
    let srcLen := (l.ih - 1) * l.stride + rowBytes f.ty (l.iw * l.ch)
    let dstLen := (d.rows - 1) * d.stride + rowBytes g.ty d.cols
    let old := s.chan (Stmt.tileNum s) ch.val
    Stmt.near s (arg (s.vals [b, c]) 0) 64 pb → Stmt.near s (arg (s.vals [b, c]) 1) 64 pc →
    (∀ i, i < 2 → (arg (s.vals [b, c]) i).toNat / 2 ^ 40 ≠ 0xFFFFFC) →
    s.me.lost = none → s.writesHeld = false → (∀ e ∈ s.ports, e.2.state = .retrain → ∀ w ∈ e.2.writes, s.me.tid ∉ w.tids) →
    old.queue.length < 8 → s.layoutOk core .image l = true →
    s.layoutOk core .matrix d = true → d.cols = l.ch →
    copyKind f g (paddockOf core l.base).isSome (paddockOf core d.base).isSome l.dq = some .raw → l.dq = false →
    l.base + srcLen ≤ 2 ^ 64 → d.base + dstLen ≤ 2 ^ 64 →
    s.extentTrap core (s.asidOf s.agent) l.base srcLen = none → s.extentTrap core (s.asidOf s.agent) d.base dstLen = none →
    ∃ t x, exec (.dwin gd ch (.g r) b c ty tx p0) s = .next t ∧ t.me.pc = s.me.complete.pc ∧ t.mem = s.mem ∧
      (t.chan (Stmt.tileNum s) ch.val).queue = old.queue ++ [x] ∧ (t.chan (Stmt.tileNum s) ch.val).next = old.next + 1 ∧
      t.me.reg r.val = (if r.val = 0 then 0 else BitVec.ofNat 64 old.next.toNat) ∧ x.id = old.next.toNat ∧ x.kind = .raw ∧
      x.src.base = l.base ∧ x.dst.base = d.base ∧ x.rows = d.rows ∧
      x.win = some ⟨l.ch, l.px, l.py, l.sx, l.sy, l.ow, l.oh, l.iw, l.ih, ty.val, tx.val, p0.toNat⟩

/-- R158 and R170 of spec/10: DCAN takes every transfer from id T on out of the channel's queue and remembers the range; one whose
id is not given yet, or of an Idle channel, does nothing; DCAN.RESUME lets a parked channel go on. The bytes that a running transfer
has written by then are a free choice (log 3). -/
def Obligations.CopyCancelAndResume : Prop :=
  ∀ (gd : Guard) (ch : Fin 16) (b : Src) (s : State), s.atStart → s.me.guardOk gd = true →
    let tile := Stmt.tileNum s
    let old := s.chan tile ch.val
    (s.canRun [b] [] → let id := Nat.max 1 (arg (s.vals [b]) 0).toNat
      (old.next.toNat ≤ id ∨ (old.mode = .busy ∧ old.queue = []) →
        exec (.dcan gd ch b) s = .next ((s.taken [b]).onMe Slot.complete)) ∧
      (id < old.next.toNat → ¬(old.mode = .busy ∧ old.queue = []) → ∃ t, exec (.dcan gd ch b) s = .next t ∧ t.me.pc = s.me.complete.pc ∧
        (t.chan tile ch.val).queue.map (·.id) = (old.queue.map (·.id)).filter (· < id) ∧
        (t.chan tile ch.val).can = some (id, old.next.toNat - 1) ∧ (t.chan tile ch.val).next = old.next ∧
        ((∀ x ∈ old.queue, x.id < id) → t.mem = s.mem))) ∧
    exec (.dcanResume gd ch) s = .next ((s.onChan tile ch.val fun c =>
      { c with mode := if c.mode = .parked then .busy else c.mode }).onMe Slot.complete)

/-- R157, R158, R165 and R166 of spec/10: a fill of 8 bytes writes its pattern and its channel goes on with the next transfer;
a stream that faults at its first write parks with the address and the code, and S7 of its core gets the notice trap 0x310; a
raw copy whose first source sector is bad fails with that sector and the error. -/
def Obligations.TransfersWriteParkAndFail : Prop :=
  ∀ (tile ch : Nat) (s : State) (x : Transfer) (rest : List Transfer), (s.chan tile ch).mode = .busy →
    (s.chan tile ch).queue = x :: rest → x.win = none → x.rows = 1 → x.done = 0 → x.cols = 8 → x.dst.base % 64 ≤ 56 →
    (∀ pat p, x.kind = .fill pat → s.streamAccess x x.dst.base 8 true = .ok p → ∃ t, exec (.transferDone tile ch) s = .next t ∧
      t.mem = memWrite s.mem p.pa (leBytes pat.toNat 8) ∧ (t.chan tile ch).queue = rest ∧
      (t.chan tile ch).wptr = (s.chan tile ch).wptr + 8 ∧
      (t.chan tile ch).cdone = (match rest with | y :: _ => BitVec.ofNat 48 y.id | [] => (s.chan tile ch).next)) ∧
    (∀ pat va code, x.kind = .fill pat → s.streamAccess x x.dst.base 8 true = .error (.fault va code) →
      ∃ t, exec (.streamFault tile ch) s = .next t ∧ t.mem = s.mem ∧ (t.chan tile ch).mode = .parked ∧
        (t.chan tile ch).failId = x.id ∧ (t.chan tile ch).failCause = code ∧ (t.chan tile ch).paddr = BitVec.ofNat 64 va ∧
        (t.slot (8 * x.core + 7)).pend = (s.slot (8 * x.core + 7)).pend ++ [(0x310, BitVec.ofNat 64 va)]) ∧
    ∀ p e, x.kind = .raw → x.dq = false → x.src.base % 64 ≤ 56 → s.streamAccess x x.src.base 8 false = .ok p → s.badIn p.pa 8 = some e →
      ∃ t, exec (.sourceError tile ch) s = .next t ∧ t.mem = s.mem ∧ (t.chan tile ch).mode = .failed ∧
        (t.chan tile ch).failId = x.id ∧ (t.chan tile ch).failCause = e.1 ∧
        (t.chan tile ch).faddr = BitVec.ofNat 64 (x.src.base / 64 * 64)

/-! ## Hurdles (spec/16) -/

namespace Sys2Proof.Stmt

/-- A hurdle's 128 bits: EXPECT, ARRIVED, PHASE, SCOPE (R258 of spec/16). -/
def hurdleBits (expect arrived phase scope : Nat) : Nat := expect + arrived * 2 ^ 32 + phase * 2 ^ 64 + scope * 2 ^ 96

/-- 128 bits that are no well-formed hurdle (R258 of spec/16). -/
def noHurdle (v : Nat) : Prop :=
  ¬∃ e r p z, r < e ∧ e < 2 ^ 32 ∧ p < 2 ^ 32 ∧ 1 ≤ z ∧ z ≤ 4 ∧ v = hurdleBits e r p z

end Sys2Proof.Stmt

/-- R258 to R261 of spec/16, for a hurdle in the own paddock, outside a replica set: HINIT writes EXPECT with nothing arrived
and phase 0; HARR counts an arrival and gives the phase it met, the last arrival of a phase with bit 32 set and the next
phase begun; HWAIT goes on once the phase is not the one given and parks while it is. HINIT with a count out of range, and HARR
and HWAIT on a hurdle that is not well-formed, raise 0x285, each at a misaligned address 0x141. -/
def Obligations.HurdlesCountArrivals : Prop :=
  ∀ (gd : Guard) (scope : Scope) (a : Fin 32) (b c : Src) (d24 : BitVec 24) (d20 : BitVec 20) (pa : Nat) (s : State),
    s.atStart → s.me.guardOk gd = true → s.me.rep.count = 0 → s.me.rep.buffer = [] →
    (s.canRun [b, c] [] → let n := (arg (s.vals [b, c]) 1).toNat; let ea := arg (s.vals [b, c]) 0 + d24.signExtend 64
      (Stmt.near s ea 16 pa → ea.toNat / 2 ^ 40 = 0xFFFFFE → 1 ≤ n → n < 2 ^ 32 →
        ∃ t, exec (.hinit gd scope b c d24) s = .next t ∧ t.me.pc = s.me.complete.pc ∧ s.sameRegs t 32 ∧
          t.mem = memWrite s.mem pa (leBytes (Stmt.hurdleBits n 0 0 scope.code) 16)) ∧
      (Stmt.near s ea 16 pa → ea.toNat / 2 ^ 40 = 0xFFFFFE → n = 0 ∨ 2 ^ 32 ≤ n →
        Stmt.takesTrap s (exec (.hinit gd scope b c d24) s) 0x285 ea) ∧
      (ea.toNat % 16 ≠ 0 → Stmt.takesTrap s (exec (.hinit gd scope b c d24) s) 0x141 ea)) ∧
    (s.canRun [b] [] → let ea := arg (s.vals [b]) 0 + d24.signExtend 64
      (∀ e r p z, Stmt.near s ea 16 pa → ea.toNat / 2 ^ 40 = 0xFFFFFE → r < e → e < 2 ^ 32 → p < 2 ^ 32 → 1 ≤ z → z ≤ 4 →
        leNat (memRead s.mem pa 16) = Stmt.hurdleBits e r p z →
        (r + 1 < e → ∃ t, exec (.harr gd a b d24) s = .next t ∧ t.me.pc = s.me.complete.pc ∧ s.sameRegs t a.val ∧
          (a.val ≠ 0 → t.me.reg a.val = BitVec.ofNat 64 p) ∧
          t.mem = memWrite s.mem pa (leBytes (Stmt.hurdleBits e (r + 1) p z) 16)) ∧
        (r + 1 = e → ∃ t, exec (.harr gd a b d24) s = .next t ∧ t.me.pc = s.me.complete.pc ∧ s.sameRegs t a.val ∧
          (a.val ≠ 0 → t.me.reg a.val = BitVec.ofNat 64 (p + 2 ^ 32)) ∧
          t.mem = memWrite s.mem pa (leBytes (Stmt.hurdleBits e 0 ((p + 1) % 2 ^ 32) z) 16))) ∧
      (Stmt.near s ea 16 pa → ea.toNat / 2 ^ 40 = 0xFFFFFE → Stmt.noHurdle (leNat (memRead s.mem pa 16)) →
        Stmt.takesTrap s (exec (.harr gd a b d24) s) 0x285 ea) ∧
      (ea.toNat % 16 ≠ 0 → Stmt.takesTrap s (exec (.harr gd a b d24) s) 0x141 ea)) ∧
    (s.canRun [⟨.g a, false⟩, b] [] → let ea := arg (s.vals [⟨.g a, false⟩, b]) 1 + d20.signExtend 64
      (Stmt.near s ea 16 pa → ea.toNat / 2 ^ 40 = 0xFFFFFE → Stmt.noHurdle (leNat (memRead s.mem pa 16)) →
        Stmt.takesTrap s (exec (.hwait gd a b d20) s) 0x285 ea) ∧
      (ea.toNat % 16 ≠ 0 → Stmt.takesTrap s (exec (.hwait gd a b d20) s) 0x141 ea) ∧
      ∀ e r p z, Stmt.near s ea 16 pa → ea.toNat / 2 ^ 40 = 0xFFFFFE → r < e → e < 2 ^ 32 → p < 2 ^ 32 → 1 ≤ z → z ≤ 4 →
        leNat (memRead s.mem pa 16) = Stmt.hurdleBits e r p z →
        (p ≠ (s.me.reg a.val).toNat % 2 ^ 32 →
          exec (.hwait gd a b d20) s = .next ((s.taken [⟨.g a, false⟩, b]).onMe Slot.complete)) ∧
        (p = (s.me.reg a.val).toNat % 2 ^ 32 → ∃ t, exec (.hwait gd a b d20) s = .next t ∧ t.mem = s.mem ∧ s.sameRegs t 32 ∧
          (s.me.haltReq = false → t.me.status = .parked ∧ t.me.park.wait = some (.hurdle pa p)) ∧
          (s.me.haltReq = true → s.me.park.left = false → t.me.status = .halted)))

/-- The frame of the hurdle instructions, at their start, in a replica set and outside one: whatever the step does, no predicate,
vector or mask register and no general register but HARR's A changes; HWAIT changes no byte of memory, HINIT and HARR none
outside the 16 bytes of the hurdle. -/
def Obligations.HurdleFrame : Prop :=
  ∀ (gd : Guard) (scope : Scope) (a : Fin 32) (b c : Src) (d24 : BitVec 24) (d20 : BitVec 20) (s t : State), s.atStart →
    let hurdle := fun (ea : Word) (m : Nat) => ∃ ps, s.access s.agent ea 16 (s.need true true) = .ok ps ∧
      ∃ p ∈ ps, p.pa ≤ m ∧ m < p.pa + p.len
    (exec (.hinit gd scope b c d24) s = .next t → s.sameRegs t 32 ∧
      s.keptMemBut t (hurdle (arg (s.vals [b, c]) 0 + d24.signExtend 64))) ∧
    (exec (.harr gd a b d24) s = .next t → s.sameRegs t a.val ∧ s.keptMemBut t (hurdle (arg (s.vals [b]) 0 + d24.signExtend 64))) ∧
    (exec (.hwait gd a b d20) s = .next t → s.sameRegs t 32 ∧ s.keptMem t)

/-- The frame of the instructions that give the engines, the filter and the translation their work, at their start, in a
replica set and outside one: whatever the step does, no predicate, vector or mask register, no general register but the result register
A and no byte of memory changes at issue, and of the control words only RNGCTR (RAND), EMARK (RPERT, a vote), FULL (the
result register), the trap words of a trap, and the engines' own status words. -/
def Obligations.EngineIssueFrame : Prop :=
  ∀ (gd : Guard) (b c : Src) (e : Fin 64) (k n r m : Fin 128) (l : Fin 5) (x y : Bool) (a : Fin 32) (w : Fin 256) (ch : Fin 16)
    (sc : Scope) (f : Fin 4) (kind : SyncKind) (s t : State) (i : Instr), s.atStart →
    i ∈ (Stmt.matrixOps gd b c e k n r m l x y).map (·.1) ++ [.mlease gd, .mfree, .mstat gd a, .dcanResume gd ch, .rrel gd sc,
      .rmark gd a f, .rpert gd b, .fopen gd w b, .fopenClose gd w x, .fshort gd x y a w b c, .fpick gd x y a w b c,
      .rand gd x a, .qwait gd a b, .qwaitNow gd a, .ptsync gd kind a b] →
    exec i s = .next t → s.sameRegs t a.val ∧ s.sameWords t ∧ s.keptMem t ∧ t.feEmpty = s.feEmpty ∧
      ((∀ y, i ≠ .rand gd y a) → t.me.rngCtr = s.me.rngCtr) ∧
      ∀ n, n ≠ a.val → (∀ q ∈ [b, c], q.op ≠ .g (Fin.ofNat 32 n)) → n < 32 → t.me.isFull n = s.me.isFull n

/-! ## Replica sets (spec/17) -/

namespace Sys2Proof.Stmt

/-- The slot is in the handler of a trap with this cause, the innermost one that runs. -/
def handles (x : Slot) (code : BitVec 10) : Prop :=
  (x.sup.sinh = true ∧ x.sup.scause = code) ∨ (x.sup.sinh = false ∧ x.trap.inh = true ∧ x.trap.tcause = code)

end Sys2Proof.Stmt

/-- R281 to R284 of spec/17, R339 of spec/22: in a replica set RREL at core scope or wider is a vote point of kind release (R271),
where the slot waits for the vote, or takes 0x2C1 with its earmark where it was absent from a vote that timed out (R276), and goes
on once the vote has agreed; elsewhere it releases and goes on; at system scope it waits for the remote writes that a pause holds
back to leave, and while a port in Retrain keeps the thread's own from being acknowledged, until 2^20 cycles have passed and no
other port reaches their package; the thread's have then been acknowledged, and a lost one raises 0x10C. That all held writes leave
first and every other one that has left is then performed is the model's choice (DESIGN CHOICE, log 79); that TADDR of this 0x10C is
the address of the lost write is its reading (DEDUCED, log 35: R339 names none). RMARK gives the earmark, the votes, the last agreed
earmark or the live mask with the bellwether's index, and outside a set 0, or 1 for the mask; RPERT changes the running earmark
where RTEST allows it and raises 0x2C2 where it does not; RREWIND in the handler of a 0x2C1 restores the register checkpoint and
returns to it, and raises 0x2C3 outside one or with no checkpoint. That the handler is known by its level's cause word, SCAUSE with
SINH and else TCAUSE with INH, is the model's choice (DESIGN CHOICE, log 90: R279 and R284 do not say how). -/
def Obligations.ReplicaInstructions : Prop :=
  ∀ (gd : Guard) (sc : Scope) (a : Fin 32) (b : Src) (s : State), s.atStart → s.me.guardOk gd = true →
    (s.me.rep.count = 0 → sc ≠ .sys → exec (.rrel gd sc) s = .next (s.onMe Slot.complete)) ∧
    (s.me.rep.count ≠ 0 → sc ≠ .slot →
      (s.me.park.voted = true → s.me.park.lostAt = none → sc ≠ .sys →
        ∃ t, exec (.rrel gd sc) s = .next t ∧ t.me.pc = s.me.complete.pc ∧ t.mem = s.mem ∧ s.sameRegs t 32) ∧
      (s.me.park.voted = false → s.me.rep.spill = [] → s.enginesDone s.agent = true →
        (s.me.rep.mismatch = true → Stmt.takesTrap s (exec (.rrel gd sc) s) 0x2C1 s.me.rep.earmark) ∧
        (s.me.rep.mismatch = false → s.me.rep.vote = none → s.me.haltReq = false → ∃ t, exec (.rrel gd sc) s = .next t ∧
          t.mem = s.mem ∧ s.sameRegs t 32 ∧ t.me.status = .parked ∧ t.me.park.wait = some .vote ∧
          t.me.rep.vote = some ⟨.release, false, s.me.rep.earmark, s.me.rep.held.length, s.me.rep.waited, [], false⟩))) ∧
    (s.me.rep.count = 0 → s.writesHeld = true → ∃ t, exec (.rrel gd .sys) s = .next t ∧ t.mem = s.mem ∧
      s.sameRegs t 32 ∧ (s.me.haltReq = false → t.me.status = .parked ∧ t.me.park.wait = some .writesLeave)) ∧
    (s.me.rep.count = 0 → s.writesHeld = false →
      let own := fun (late : Bool) => ∃ e ∈ s.ports, e.2.state = .retrain ∧ ∃ w ∈ e.2.writes, s.me.tid ∈ w.tids ∧
        (2 ^ 20 ≤ s.clock.toNat - w.left.toNat ∧ s.reachable (remotePkg w.pa) = false ↔ late = true)
      (¬own true → (s.me.lost = none → ¬own false → exec (.rrel gd .sys) s = .next ((s.acked [s.me.tid]).onMe Slot.complete)) ∧
        (s.me.lost = none → own false → ∃ t, exec (.rrel gd .sys) s = .next t ∧ t.mem = s.mem ∧ s.sameRegs t 32 ∧
          (s.me.haltReq = false → t.me.status = .parked ∧ t.me.park.wait = some .writesLeave)) ∧
        ∀ va, s.me.lost = some va → Stmt.takesTrap s (exec (.rrel gd .sys) s) 0x10C va) ∧
      (own true → s.slotOfTid s.me.tid = some s.agent → ∃ va, Stmt.takesTrap s (exec (.rrel gd .sys) s) 0x10C va)) ∧
    (∀ (tids : List Nat) (w : RemoteWrite), (∃ e ∈ (s.acked tids).ports, w ∈ e.2.writes) →
      w.done = true ∧ ∀ x ∈ tids, x ∉ w.tids) ∧
    (∀ f : Fin 4, s.me.rep.count = 0 → exec (.rmark gd a f) s =
      .next (s.onMe fun x => (x.setReg a.val (if f = 3 then 1 else 0)).complete)) ∧
    (s.me.rep.count ≠ 0 →
      exec (.rmark gd a 0) s = .next (s.onMe fun x => (x.setReg a.val x.rep.earmark).complete) ∧
      exec (.rmark gd a 1) s = .next (s.onMe fun x => (x.setReg a.val (BitVec.ofNat 64 x.rep.votes)).complete) ∧
      exec (.rmark gd a 2) s = .next (s.onMe fun x => (x.setReg a.val x.rep.last).complete) ∧
      ∀ r, s.setOf s.me = some r → exec (.rmark gd a 3) s = .next (s.onMe fun x => (x.setReg a.val
        (BitVec.ofNat 64 ((r.live.zipIdx.map fun e => e.1.toNat * 2 ^ e.2).sum + r.bell * 16))).complete)) ∧
    (∀ c, s.ctx (s.asidOf s.agent) = some c →
      (c.record.rtest = false → Stmt.takesTrap s (exec (.rpert gd b) s) 0x2C2 0) ∧
      (c.record.rtest = true → s.canRun [b] [] → exec (.rpert gd b) s = .next ((s.taken [b]).onMe fun x =>
        (if x.rep.count = 0 then x
         else { x with rep := { x.rep with earmark := x.rep.earmark ^^^ arg (s.vals [b]) 0 } } : Slot).complete))) ∧
    (∀ c, s.me.rep.ckpt = some c → Stmt.handles s.me 0x2C1 →
      ∃ t, exec .rrewind s = .next t ∧ t.me.pc = c.pc ∧ t.me.g = c.g ∧ t.me.full = c.full ∧ t.me.p = c.p ∧ t.me.v = c.v ∧
        t.me.k = c.k ∧ t.me.loop = c.loop ∧ t.me.inl = c.inl ∧ t.me.rngCtr = c.rng ∧ t.me.srCtr = c.sr ∧
        t.me.rep.earmark = 0 ∧ t.me.rep.buffer = [] ∧ t.me.sup.sinh = false ∧ (s.me.sup.sinh = false → t.me.trap.inh = false) ∧
        t.mem = s.mem) ∧
    (s.me.rep.ckpt = none ∨ ¬Stmt.handles s.me 0x2C1 → Stmt.takesTrap s (exec .rrewind s) 0x2C3 0)

/-- R273 and R276 of spec/17, for a dual set of one thread: when both replicas have voted and agree, both go on with the vote
counted and a new earmark, an implicit vote (R270) with its instruction to go on; when they differ, both take 0x2C1, each with its own
earmark, and their held stores are discarded; when one has waited 2^24 cycles for the other, it takes 0x2C1 with its earmark, and the
other is marked to take it at its next vote point. For a triple set of one thread, of whose replicas two agree and one differs: that one
is shorn (R277), the set becomes a pair, and the two go on as on agreement. -/
def Obligations.VotesAgreeOrTimeOut : Prop :=
  (∀ (asid launch index n m : Nat) (r : RepSet) (x y : Slot) (s : State), s.findSet asid launch index = some r →
    s.setThreads r = [[x, y]] → r.live = [true, true] → x.rep.index = 0 → y.rep.index = 1 → s.slot n = x → s.slot m = y →
    s.slotOfTid x.tid = some n → s.slotOfTid y.tid = some m → x.tid ≠ y.tid → x.status = .parked → y.status = .parked →
    (y.rep.vote.isSome = true → x.rep.vote.isSome = true → x.agrees y = false → (x.releasesSys || y.releasesSys) = false →
      x.sup.sinh = false → y.sup.sinh = false → Stmt.toContext x 0x2C1 → Stmt.toContext y 0x2C1 →
      ∃ t, exec (.vote asid launch index) s = .next t ∧ t.mem = s.mem ∧ ∀ z k, (z, k) ∈ [(x, n), (y, m)] →
        (t.slot k).pc = z.trap.tvec ∧ (t.slot k).rep.held = [] ∧ (t.slot k).rep.earmark = 0 ∧ (t.slot k).rep.vote = none ∧
        (t.slot k).trap = { z.trap with tcause := 0x2C1, tpc := z.pc, taddr := z.rep.earmark, async := false, inh := true }) ∧
    (x.rep.buffer = [] → y.rep.buffer = [] → x.rep.vote.isSome = true →
    (∀ v, x.rep.vote = some v ∨ y.rep.vote = some v → v.own = [] ∧ (v.kind = .buffer → x.rep.spill = [] ∧ y.rep.spill = [])) →
    (y.rep.vote.isSome = true → x.agrees y = true → ∃ t, exec (.vote asid launch index) s = .next t ∧ t.mem = s.mem ∧
      ∀ z k, (z, k) ∈ [(x, n), (y, m)] → (t.slot k).rep.votes = z.rep.votes + 1 ∧ (t.slot k).rep.last = z.rep.earmark ∧
        (t.slot k).rep.earmark = 0 ∧ (t.slot k).rep.vote = none ∧
        (∀ v, z.rep.vote = some v → (v.kind ≠ .buffer → (t.slot k).park.voted = true) ∧
          (v.kind = .buffer → (t.slot k).status = .running))) ∧
    (y.rep.vote = none → (∃ v, x.rep.vote = some v ∧ 2 ^ 24 ≤ v.waited) → x.sup.sinh = false → Stmt.toContext x 0x2C1 →
      ∃ t, exec (.voteTimeout asid launch index) s = .next t ∧ (t.slot m).rep.mismatch = true ∧ (t.slot n).pc = x.trap.tvec ∧
        (t.slot n).trap = { x.trap with tcause := 0x2C1, tpc := x.pc, taddr := x.rep.earmark, async := false, inh := true }))) ∧
  ∀ (asid launch index n m l g : Nat) (r : RepSet) (x y z : Slot) (s : State), s.findSet asid launch index = some r →
    s.setThreads r = [[x, y, z]] → r.live = [true, true, true] → x.rep.index = 0 → y.rep.index = 1 → z.rep.index = 2 →
    s.slot n = x → s.slot m = y → s.slot l = z → s.slotOfTid x.tid = some n → s.slotOfTid y.tid = some m →
    s.slotOfTid z.tid = some l → r.members[2]? = some g → z.id.group = some g → x.id.group ≠ some g → y.id.group ≠ some g →
    x.tid ≠ y.tid → x.status = .parked → y.status = .parked → z.status = .parked → n ≠ l → m ≠ l →
    (∀ w ∈ [x, y, z], w.rep.buffer = [] ∧ w.lease = .none ∧ ∃ v, w.rep.vote = some v ∧ v.own = [] ∧ v.kind ≠ .buffer) →
    (∀ e ∈ s.groups, ∀ w, e.2 = some w → w.state ≠ .queued) → (∀ e ∈ s.slots, e.2.tid = z.tid → e.1 = l) →
    x.agrees y = true → x.agrees z = false →
    ∃ t, exec (.vote asid launch index) s = .next t ∧ (t.slot l).status = .free ∧
      (∃ q ∈ t.sets, q.members = r.members ∧ q.live = [true, true, false]) ∧
      ∀ w k, (w, k) ∈ [(x, n), (y, m)] → (t.slot k).rep.votes = w.rep.votes + 1 ∧ (t.slot k).rep.last = w.rep.earmark ∧
        (t.slot k).rep.earmark = 0 ∧ (t.slot k).rep.vote = none ∧ (t.slot k).park.voted = true

/-! ## Sampling and streams (spec/18) -/

/-- R282 and R283 of spec/18, outside a replica set: FOPEN with a record that R283 accepts opens the window (here a record in
near memory), an address of 0 and FOPEN with B = g0 close it, what was pending on it will answer CLOSED, and a window of
another context raises 0x382. -/
def Obligations.FilterWindowsOpenAndClose : Prop :=
  ∀ (gd : Guard) (w : Fin 256) (b : Src) (sync : Bool) (pa : Nat) (s : State), s.atStart → s.me.guardOk gd = true →
    s.me.rep.count = 0 → s.me.rep.buffer = [] →
    let shut := fun (t : State) => (t.winSlot w.val).win = none ∧
      (t.winSlot w.val).ops = (s.winSlot w.val).ops.map fun o => (o.1, true)
    (s.foreignWin w.val = false →
      (s.canRun [b] [] → arg (s.vals [b]) 0 = 0 →
        ∃ t, exec (.fopen gd w b) s = .next t ∧ shut t ∧ t.me.pc = s.me.complete.pc ∧ t.mem = s.mem ∧ s.sameRegs t 32) ∧
      (∃ t, exec (.fopenClose gd w sync) s = .next t ∧ shut t ∧ t.me.pc = s.me.complete.pc ∧ t.mem = s.mem ∧ s.sameRegs t 32) ∧
      (s.canRun [b] [] → arg (s.vals [b]) 0 ≠ 0 → Stmt.near s (arg (s.vals [b]) 0) 64 pa → ∀ x,
        s.acceptWindow w.val (leNat (memRead s.mem pa 64)) = some x →
        ∃ t, exec (.fopen gd w b) s = .next t ∧ (t.winSlot w.val).win = some x ∧
          (t.winSlot w.val).ops = (s.winSlot w.val).ops.map (fun o => (o.1, true)) ∧
          (∀ v, v ≠ w.val → t.winSlot v = s.winSlot v) ∧ t.me.pc = s.me.complete.pc ∧ t.mem = s.mem ∧ s.sameRegs t 32)) ∧
    (s.foreignWin w.val = true →
      Stmt.takesTrap s (exec (.fopenClose gd w sync) s) 0x382 (BitVec.ofNat 64 w.val) ∧
      (s.canRun [b] [] → arg (s.vals [b]) 0 = 0 ∨ Stmt.near s (arg (s.vals [b]) 0) 64 pa →
        Stmt.takesTrap s (exec (.fopen gd w b) s) 0x382 (BitVec.ofNat 64 w.val)))

/-- R289 to R293 of spec/18, outside a replica set: FSHORT and FPICK on a row of the context's window are queued behind the
window's operations and clear A's full bit (R28 of spec/02); without the window they raise 0x382, beyond its rows 0x383. A
pick's stream record passes the checks of a 512-byte access and of R293 first (0x384). A pick on a window that has been closed answers
CLOSED with the token 0x3FFFF; that its mode bits GREEDY, UNIFORM and TSUB are then 0 is the model's choice (DESIGN CHOICE, log 98: R290
does not say). -/
def Obligations.FilterOperationsQueueAndAnswer : Prop :=
  (∀ (gd : Guard) (reset nb : Bool) (a : Fin 32) (w : Fin 256) (b c : Src) (s : State), s.atStart → s.me.guardOk gd = true →
    s.canRun [b, c] [] → s.me.rep.count = 0 →
    let row := arg (s.vals [b, c]) 0
    let dst := arg (s.vals [b, c]) 1
    let u := s.taken [b, c]
    let num := (s.winSlot w.val).nextOp
    let queued := fun (t : State) (op : FilterOp) => (t.winSlot w.val).ops = (s.winSlot w.val).ops ++ [(op, false)] ∧
      t.me.pc = s.me.complete.pc ∧ t.mem = s.mem ∧ s.sameRegs t 32 ∧ t.me.eng = s.me.eng + 1 ∧
      (a.val ≠ 0 → t.me.isFull a.val = false)
    let stream := dst.toNat % 64 = 0 ∧ ∃ ps, s.access s.agent dst 512 (s.need true true) = .ok ps ∧
      (∀ p ∈ ps, p.home ≠ .format) ∧ replicable ps = false
    (∀ x, (s.winSlot w.val).win = some x → x.owner = s.asidOf s.agent →
      (row.toNat ≤ x.rows → dst.toNat % 8 = 0 → ∀ ps, s.access s.agent dst (32 + 8 * x.k) (s.need false true) = .ok ps →
        (∀ p ∈ ps, p.home ≠ .format) → replicable ps = false →
        ∃ t, exec (.fshort gd reset nb a w b c) s = .next t ∧
          queued t ⟨false, false, u.me.isFull a.val, reset, nb, row.toNat, dst, s.me.tid, s.agent / 8, a.val, num, s.asidOf s.agent, [], s.me.sup.sinh⟩) ∧
      (row.toNat ≤ x.rows → c.op = .g 0 → ∃ t, exec (.fpick gd reset nb a w b c) s = .next t ∧
          queued t ⟨true, false, u.me.isFull a.val, reset, nb, row.toNat, dst, s.me.tid, s.agent / 8, a.val, num, s.asidOf s.agent, [], s.me.sup.sinh⟩) ∧
      (row.toNat ≤ x.rows → c.op ≠ .g 0 → stream →
        (∀ st, u.goodStream u.actor dst = .ok st → st.len ≠ st.clen + 32 → ∃ t, exec (.fpick gd reset nb a w b c) s = .next t ∧
          queued t ⟨true, true, u.me.isFull a.val, reset, nb, row.toNat, dst, s.me.tid, s.agent / 8, a.val, num, s.asidOf s.agent, [], s.me.sup.sinh⟩) ∧
        (u.goodStream u.actor dst = .error (0x384, dst) →
          Stmt.takesTrap s (exec (.fpick gd reset nb a w b c) s) 0x384 dst)) ∧
      (x.rows < row.toNat → Stmt.takesTrap s (exec (.fshort gd reset nb a w b c) s) 0x383 row ∧
        (c.op = .g 0 ∨ stream → Stmt.takesTrap s (exec (.fpick gd reset nb a w b c) s) 0x383 row))) ∧
    ((s.winSlot w.val).win = none →
      Stmt.takesTrap s (exec (.fshort gd reset nb a w b c) s) 0x382 (BitVec.ofNat 64 w.val) ∧
      (c.op = .g 0 ∨ stream →
        Stmt.takesTrap s (exec (.fpick gd reset nb a w b c) s) 0x382 (BitVec.ofNat 64 w.val)))) ∧
  ∀ (w n : Nat) (op : FilterOp) (rest : List (FilterOp × Bool)) (s : State), (s.winSlot w).ops = (op, true) :: rest →
    op.pick = true → op.others = [] → (s.slot n).tid = op.tid → (s.slot n).status ≠ .free → 0 < op.reg → op.reg < 32 →
    ∃ t, exec (.filterOperationCompletes w 0) s = .next t ∧ (t.winSlot w).ops = rest ∧ t.mem = s.mem ∧
      (t.slot n).reg op.reg = 0x800003FFFF ∧ (t.slot n).isFull op.reg = true

/-- R293 and R296 of spec/18 (the generator's constants are the model's, log 17): RAND gives the low 64 bits of the slot's next
draw, RAND.F the FP64 number in [0, 1) of its top 53, and counts; KVTRUNC, once its request has been answered, outside a replica
set: a length outside [CLEN, LEN] raises 0x385, and LEN itself drops no page: the record is written with its lengths and counters,
and A gets 0. -/
def Obligations.RandomBitsAndTruncation : Prop :=
  ∀ (gd : Guard) (a : Fin 32) (b c : Src) (commit : Bool) (s : State), s.me.guardOk gd = true → s.me.park.once = false →
    (exec (.rand gd false a) s = .next (s.onMe fun x => (({ x with rngCtr := x.rngCtr + 1 } : Slot).setReg a.val (BitVec.ofNat 64
      (philox x.id.jobseed x.rngCtr x.id.lcn.toNat (streamWord 1 x.id.logical) % 2 ^ 64))).complete)) ∧
    exec (.rand gd true a) s = .next (s.onMe fun x => (({ x with rngCtr := x.rngCtr + 1 } : Slot).setReg a.val
      (BitVec.ofNat 64 (fp64.round .rne 0 (.fin false (philox x.id.jobseed x.rngCtr x.id.lcn.toNat
        (streamWord 1 x.id.logical) % 2 ^ 64 / 2 ^ 11) (-53))))).complete) ∧
    ∀ ea l ps x, s.me.park.vals = some [ea, l] → s.me.park.answered = true → s.me.rep.count = 0 → ea.toNat % 64 = 0 →
      s.access s.agent ea 512 (s.need true true) = .ok ps → (∀ p ∈ ps, p.home ≠ .format) → replicable ps = false → s.goodStream s.actor ea = .ok x →
      ((l.toNat < x.clen ∨ x.len < l.toNat) → ∃ t, exec (.kvtrunc gd commit a b c) s = .next t ∧ s.keptMem t ∧
        s.sameRegs t 32 ∧ (s.me.sup.sinh = false → Stmt.toContext s.me 0x385 → t.me.trap.tcause = 0x385 ∧ t.me.trap.taddr = l)) ∧
      ∀ u, l.toNat = x.len → x.clen ≤ x.len →
        (let rctr := (x.rcommit + (x.len - x.clen)) % 2 ^ 64
         s.putStream s.actor ea.toNat (if commit then x.len else x.clen) x.len rctr (if commit then rctr else x.rcommit) = .ok u) →
        exec (.kvtrunc gd commit a b c) s = .next (u.onMe fun y => (y.setReg a.val 0).complete)

/-! ## Translation and quiescence (spec/21) -/

/-- R321, R327 and R328 of spec/21: PTSYNC at supervisor level removes the translations that it names, advances QEPOCH and
gives the epoch it ended; QWAIT gives QDONE once it has reached the epoch and parks until then; QWAIT.NOW, when nothing is
outstanding, advances the epoch and goes on with it. A finished walk installs its leaf; one that faults installs none, and the units
that asked for it know the fault of its page. -/
def Obligations.TranslationsEndAndQuiesce : Prop :=
  (∀ (gd : Guard) (k : SyncKind) (a : Fin 32) (b : Src) (s : State), s.atStart → s.me.guardOk gd = true →
    (s.canRun [b] [] → let v := arg (s.vals [b]) 0
      (s.me.sup.sinh = true → ∃ t, exec (.ptsync gd k a b) s = .next t ∧ t.me.pc = s.me.complete.pc ∧ t.qepoch = s.qepoch + 1 ∧
        (a.val ≠ 0 → t.me.reg a.val = s.qepoch) ∧ t.mem = s.mem ∧ s.sameRegs t a.val ∧ (k = .all → t.tlb = []) ∧
        (k = .asid → t.tlb = s.tlb.filter fun l => l.asid != v.toNat % 2 ^ 12) ∧
        (k = .page → ∀ l, l ∈ t.tlb ↔ l ∈ s.tlb ∧ l.covers (v.toNat % 2 ^ 12) (v.toNat / 2 ^ 16 % 2 ^ 41 * 65536) = false)) ∧
      (v ≤ s.qdone → exec (.qwait gd a b) s = .next ((s.taken [b]).onMe fun x => (x.setReg a.val s.qdone).complete)) ∧
      (¬v ≤ s.qdone → ∃ t, exec (.qwait gd a b) s = .next t ∧ t.mem = s.mem ∧ s.sameRegs t 32 ∧
        (s.me.haltReq = false → t.me.status = .parked ∧ t.me.park.wait = some (.quiet v)) ∧
        (s.me.haltReq = true → s.me.park.left = false → t.me.status = .halted))) ∧
    ((∀ e ∈ s.allSlots, e.2.park.epoch = none ∧ e.2.rep.buffer = [] ∧ e.2.rep.owned = []) → s.me.park.epoch = none →
      s.me.rep.buffer = [] → s.me.rep.owned = [] →
      (∀ e ∈ s.ports, (∀ w ∈ e.2.writes, w.done = false → w.epoch = none) ∧
        ∀ tids va r w z, Outgoing.write tids va r w z ∈ e.2.waiting → w = none) →
      s.qepoch.toNat + 1 < 2 ^ 64 → 0 < s.qepoch.toNat →
      ∃ t, exec (.qwaitNow gd a) s = .next t ∧ t.qepoch = s.qepoch + 1 ∧ t.me.pc = s.me.complete.pc ∧
        (a.val ≠ 0 → t.me.reg a.val = s.qepoch) ∧ s.sameRegs t a.val ∧ t.mem = s.mem)) ∧
  ∀ (w : Walk) (s : State), (s.walks.filter (·.die == w.die)).head? = some w →
    (∀ l, s.walkRoot w.root w.asid (w.vpage * 65536) = .ok l →
    exec (.pageWalkCompletes w.die w.asid w.vpage) s = .next { s with walks := s.walks.erase w, tlb := l :: s.tlb }) ∧
    ∀ code, s.walkRoot w.root w.asid (w.vpage * 65536) = .error code → (s.slots.all fun e => e.2.status != .parked) = true →
      ∃ t, exec (.pageWalkCompletes w.die w.asid w.vpage) s = .next t ∧ t.tlb = s.tlb ∧ t.walks = s.walks.erase w ∧ t.mem = s.mem ∧
        ∀ who ∈ w.askers, (w.vpage, code) ∈ t.known who w.asid

/-! ## Between instructions (spec/02, spec/23) -/

/-- R30 and R39 of spec/02, R345 of spec/23: a parked slot runs again exactly when its condition holds; the answer to a
thread's request lets its instruction go on; of the pending traps a slot takes the cancel trap first, which discards kept operands
(R438), then the oldest, with TPC the instruction that would issue next. That it takes none while an instruction that has taken effect
waits to write its result is the model's choice (DESIGN CHOICE, log 106). -/
def Obligations.SlotsWakeAnswerAndTakeTraps : Prop :=
  ∀ (n : Nat) (s : State), let x := s.slot n
    (∀ w, x.status = .parked → x.park.wait = some w →
      (s.waitHolds n w = true → exec (.parkedSlotWakes n) s = .next (s.setSlot n { x with status := .running })) ∧
      (s.waitHolds n w = false → exec (.parkedSlotWakes n) s = .next s)) ∧
    (∀ va h, x.park.wait = some (.answer va h) → x.park.dead = false → x.park.behind = false → x.park.answered = false →
      x.park.asked = [] → x.status ≠ .free → s.findTid x.tid = some x → ∃ t, exec (.memoryAnswerArrives x.tid false) s = .next t ∧
      t.slot n = { x with park := { x.park with answered := true, data := [] } } ∧ t.mem = s.mem) ∧
    (x.status = .running → x.sup.sinh = false → x.trap.inh = false → x.park.left = false → x.park.voted = false →
      x.park.wait = none →
      (x.cpend = true → x.owes = false → exec (.takePendingTrap n) s =
        .next ((s.setSlot n { x with cpend := false, kept := [], park := {} }).trapSlot n 0x3C1 x.pc 0 true)) ∧
      (∀ code a rest, x.cpend = false → x.owes = false → x.pend = (code, a) :: rest → exec (.takePendingTrap n) s =
        .next ((s.setSlot n { x with pend := rest }).trapSlot n code x.pc a true)) ∧
      (x.owes = true ∨ x.cpend = false ∧ x.pend = [] → exec (.takePendingTrap n) s = .next s))

/-- R154 and R440 of spec/10, R220 to R222 of spec/13: a free S7 whose restart time has come starts at its context's drover
entry with the drover's stream identity; in a free S6 the satisfiable muster that wins takes the first message of each pen of
its mask, and its handler starts with them in g16 and up, the mask in g14 and the muster's number in g15. -/
def Obligations.DroverAndHandlersStart : Prop :=
  (∀ (c : Nat) (t0 : Word) (s : State), (s.core c).restart = some t0 → t0 ≤ s.clock → (s.slot (8 * c + 7)).status = .free →
    s.droverEntry c ≠ 0 → ∃ t, exec (.droverRestart c) s = .next t ∧ (t.slot (8 * c + 7)).status = .running ∧
      (t.slot (8 * c + 7)).pc = s.droverEntry c ∧ (t.slot (8 * c + 7)).id.lcn = BitVec.ofNat 32 (0x80000000 + c) ∧
      (t.slot (8 * c + 7)).id.logical = 7 ∧ (t.core c).restart = none ∧ t.mem = s.mem) ∧
  ∀ (c i owner : Nat) (s : State), (s.slot (8 * c + 6)).status = .free →
    (s.tile (c / 8)).owner = some owner → s.present owner c = true → (s.core c).winner = some i → i < 16 →
    let mask := ((s.core c).muster i).mask
    let pens := (List.range 32).filter fun p => mask.getLsbD p
    pens.length ≤ 4 → (∀ p ∈ pens, ∃ m rest, ((s.core c).pen p).msgs = m :: rest ∧ m.length = 4) →
    ∃ t, exec (.musterArbitration c) s = .next t ∧ let x := t.slot (8 * c + 6)
      x.status = .running ∧ x.pc = ((s.core c).muster i).pc ∧
      (∀ j k, j < pens.length → k < 4 →
        x.reg (16 + 4 * j + k) = (((s.core c).pen (pens.getD j 0)).msgs.headD []).getD k 0) ∧
      x.reg 14 = mask.setWidth 64 ∧ x.reg 15 = BitVec.ofNat 64 i ∧ x.id.jobseed = ((s.core c).muster i).jobseed ∧
      x.id.karg = ((s.core c).muster i).karg ∧
      (∀ p, p < 32 → ((t.core c).pen p).msgs =
        if mask.getLsbD p then ((s.core c).pen p).msgs.tail else ((s.core c).pen p).msgs) ∧
      ((t.core c).muster i).fcnt = ((s.core c).muster i).fcnt + 1 ∧ (t.core c).rr = (i + 1) % 16 ∧ t.mem = s.mem

/-- R218, R223 and R428 of spec/13: a PSEND's attempt that reaches a pen with room appends its four words, and the sender
completes; a full FAULT pen raises 0x281 with the address; a refused send whose time has come is sent again, unless a cancel is to be
taken, which abandons it (R30 of spec/02, R228). -/
def Obligations.PenMessagesArrive : Prop :=
  (∀ (n : Nat) (gd : Guard) (a : Fin 32) (b : Src) (adr m0 m1 m2 m3 : Word) (s : State), let x := s.slot n
    let at_ := penAddrOf adr.toNat
    let pen := (s.core at_.core).pen at_.pen
    x.status = .parked → x.park.behind = false → x.park.wait = some .penAnswer → x.park.insn = some (.unlisted (.psend gd a b none)) →
    x.park.vals = some [adr, m0, m1, m2, m3] → x.park.took = none → x.park.once = false → x.haltReq = false →
    at_.pkg = s.pkg.toNat →
    s.present (s.asidOf n) at_.core = true →
    (pen.msgs.length < 4 → ∃ t, exec (.penMessageArrives n) s = .next t ∧
      ((t.core at_.core).pen at_.pen).msgs = pen.msgs ++ [[m0, m1, m2, m3]] ∧ (t.slot n).pc = x.complete.pc ∧
      (t.slot n).status = .running ∧ t.mem = s.mem) ∧
    (pen.msgs.length = 4 → pen.fault = true → x.sup.sinh = false → Stmt.toContext x 0x281 →
      ∃ t, exec (.penMessageArrives n) s = .next t ∧ (t.slot n).pc = x.trap.tvec ∧
        (t.slot n).trap = { x.trap with tcause := 0x281, tpc := x.pc, taddr := adr, async := false, inh := true } ∧
        t.core at_.core = s.core at_.core ∧ t.mem = s.mem)) ∧
  ∀ (n iv : Nat) (at_ adr : Word) (m : List Word) (s : State), (s.slot n).status = .parked →
    (s.slot n).park.wait = some (.penRetry at_ iv) → (s.slot n).park.vals = some (adr :: m) →
    (penAddrOf adr.toNat).pkg = s.pkg.toNat →
    (at_ ≤ s.clock → (s.slot n).cpend = false ∨ (s.slot n).inHandler = true → exec (.psendRetry n) s = .next (s.onSlot n fun x =>
      { x with park := { x.park with wait := some .penAnswer, left := true } })) ∧
    (s.clock < at_ ∨ (s.slot n).cpend = true ∧ (s.slot n).inHandler = false → exec (.psendRetry n) s = .next s)

/-! ## Engines (spec/11, spec/12) -/

/-- R171, R179 and R407 of spec/11: a lane of an ASTEP that has already accepted or rejected stops at once with that status,
and the last lane of the batch delivers the statuses; R190: a page that arrives lets the lanes that wait for it run. -/
def Obligations.LanesStopAndRunAgain : Prop :=
  (∀ (c j n budget done mask tid reg r0 : Nat) (sup : Bool) (s : State), j < 8 → (s.lane (8 * c + j)).mode = .running →
    (s.lane (8 * c + j)).work = some ⟨.step budget done mask, tid, reg, sup⟩ →
    (s.lane (8 * c + j)).status = 2 ∨ (s.lane (8 * c + j)).status = 3 → (s.core c).batches = [⟨tid, reg, mask, 2 ^ j, r0, []⟩] →
    (s.slot n).tid = tid → (s.slot n).status ≠ .free → 0 < reg →
    ∃ t, exec (.laneCommandCompletes (8 * c + j)) s = .next t ∧ (t.lane (8 * c + j)).mode = .idle ∧
      (t.lane (8 * c + j)).work = none ∧ (t.core c).batches = [] ∧ (t.slot n).isFull reg = (decide (reg < 32)) ∧
      (t.slot n).reg reg = BitVec.ofNat 64 (r0 + (s.lane (8 * c + j)).status * 2 ^ (8 * j)) ∧ t.mem = s.mem) ∧
  ∀ (tile page l : Nat) (s u : State), l / 64 = tile → (s.lane l).mode = .parked page →
    (s.tile tile).loft.any (·.tag == page) = false →
    s.fillPage (.loft tile page) tile page = .ok u →
    ∃ t, exec (.loftFillArrives tile page) s = .next t ∧ (t.lane l).mode = .running ∧ t.tile tile = u.tile tile ∧ t.mem = s.mem

/-- R207, R415 and R425 of spec/12: the head of a busy diagram space's queue is performed: DDVAR gives the variable's level
(0x243 for a variable outside the order), DDREF.GET the node's count, and one operation fewer is in flight. R200: a node that
is put into the table stands at TBASE + 16 x its index as VAR, REF, LOW, HIGH. -/
def Obligations.DiagramOperationsAnswer : Prop :=
  ∀ (die asid n v reg core tid : Nat) (e : Word) (now sup : Bool) (ws : List DdWork) (sp : Space) (s : State), s.space die asid = some sp →
    sp.mode = .busy → sp.susp = none → (s.slot n).tid = tid → (s.slot n).status ≠ .free → 0 < reg → reg < 32 →
    (sp.queue = ⟨.varGet v, tid, core, some reg, now, sup⟩ :: ws → v < sp.nvar →
      ∃ t, exec (.ddeOperationCompletes die asid) s = .next t ∧ (t.slot n).reg reg = BitVec.ofNat 64 (sp.levelOf v) ∧
        (t.slot n).isFull reg = true ∧ (t.slot n).dde = (s.slot n).dde - 1 ∧ (t.slot n).pend = (s.slot n).pend ∧
        t.mem = s.mem ∧ t.space die asid = some { sp with queue := ws }) ∧
    (sp.queue = ⟨.varGet v, tid, core, some reg, now, sup⟩ :: ws → sp.nvar ≤ v →
      ∃ t, exec (.ddeOperationCompletes die asid) s = .next t ∧ (t.slot n).reg reg = BitVec.allOnes 64 ∧
        (t.slot n).pend = (s.slot n).pend ++ [(0x243, BitVec.ofNat 64 v)] ∧ t.mem = s.mem) ∧
    (sp.queue = ⟨.refGet e, tid, core, some reg, now, sup⟩ :: ws → sp.badEdge [e] = none →
      ∃ t, exec (.ddeOperationCompletes die asid) s = .next t ∧ t.mem = s.mem ∧
        (t.slot n).reg reg = BitVec.ofNat 64 (match sp.node (e.toNat / 2) with | none => 0xFFFF | some x => x.ref)) ∧
    ∀ i y, sp.inHbm = true → (i, y) ∉ sp.nodes → y.var < 2 ^ 16 → y.ref < 2 ^ 16 → y.low < 2 ^ 32 → y.high < 2 ^ 32 →
      memRead (s.setSpace die asid { sp with nodes := Table.put i y sp.nodes }).mem (sp.tbase + 16 * i) 12 =
        leBytes (y.var + y.ref * 2 ^ 16 + y.low * 2 ^ 32 + y.high * 2 ^ 64) 12

/-! ## Groups and graphs (spec/14, spec/15) -/

/-- R254 to R256 of spec/15, R310 of spec/20: a queued group that has aged reserves a tile of its die that its context owns
and nothing has reserved, and a placement pass follows; a reservation that expires with nothing of a lower class to move posts
one stall event; a copy node that ends, by the record read at its start, is Complete for its graph, once no write is held back
(R242 of spec/14). That the tile is one the context holds now, not any of its record (R254), is the model's reading (DEDUCED,
log 77). -/
def Obligations.GroupsAgeAndCopiesEnd : Prop :=
  (∀ (g : Nat) (x : Group) (s : State), s.group g = some x →
    (s.ageDue g = false → exec (.groupAgeLimit g) s = .next s) ∧
    (s.ageDue g = true → exec (.groupAgeLimit g) s = .next ((s.reserveFor g x).placePass x.die) ∧
      ∃ t, (s.reserveFor g x).group g = some { x with reserve := some (t, s.clock) } ∧ t / 24 = x.die ∧
        (s.tile t).owner = some x.asid ∧ (s.tile t).reserved = none ∧ ((s.reserveFor g x).tile t).reserved = some g) ∧
    (s.expiryDue g = false → exec (.reservationExpires g) s = .next s) ∧
    ∀ t at_, x.reserve = some (t, at_) → s.expiryDue g = true →
      (s.onGroup g fun y => { y with stalled := true }).enough g x t
        (((s.onGroup g fun y => { y with stalled := true }).lowerOn t x.cls).map (·.1)) = none →
      exec (.reservationExpires g) s = .next ((s.onGroup g fun y => { y with stalled := true }).postEvent x.asid 2 x.launch
        (x.index + x.cls.val * 2 ^ 32 + t / 24 * 2 ^ 34 + t % 24 * 2 ^ 36 +
          (s.clock.toNat - x.entry.toNat) / 1800 % 2 ^ 32 * 2 ^ 64))) ∧
  ∀ (asid graph node : Nat) (x : GNode) (s t : State), s.nodeOf asid graph node = some x →
    (∀ r u, x.kind = .copy → x.state = .running → x.copy = some r → u = HostUnit.mk (s.copyDie ⟨0, asid, graph, node⟩ r) asid graph node →
        s.copyNode u x.body r = (t, none) → exec (.copyNodeDone asid graph node) s =
          .next (State.payJournals (if s.writesHeld then s
            else ((t.forget u.asker).settleAll).work asid [.nodeEnd graph node true]))) ∧
    (x.state = .running → (s.workEv asid (.nodeEnd graph node true)).2 ≠ [] ∧ ((∀ e ∈ x.succ, e ≠ node) →
      (s.workEv asid (.nodeEnd graph node true)).1.nodeOf asid graph node = some { x with state := .done }))

/-! ## Contexts (spec/19) -/

/-- R300, R305 and R307 of spec/19: a time-sliced context whose slice has passed is halted; when all slots of a context have halted
its tiles are saved in its image and left, and of a time-sliced one the next of its tile group is swapped in, where no other member
holds its tiles; a swap-in whose tiles are free, with no page of a loft to wait for, makes it Resident and the owner of its tiles.
The supervisor's halt request (log 62) halts a Resident context, and one being swapped in once it is. Images are the model's own,
and memory stands at the end of a swap-out (DESIGN CHOICE, log 26); each part of a swap is one step (DESIGN CHOICE, log 54). -/
def Obligations.ContextsAreSliced : Prop :=
  ∀ (a : Nat) (c : Ctx) (s : State), s.ctx a = some c →
    (c.state = .resident → c.record.slice ≠ 0 → c.record.slice * 1800 ≤ c.sliceUsed + (s.clock.toNat - c.sliceFrom.toNat) →
      ∃ t c', exec (.sliceExpires a) s = .next t ∧ t.ctx a = some c' ∧ c'.state = .halting ∧ c'.sliceUsed = 0 ∧
        c'.record = c.record ∧ t.mem = s.mem) ∧
    (c.state = .halting → s.allHalted c = true →
      (∀ e ∈ s.groups, ∀ g, e.2 = some g → g.preempt = false) → ∃ t c', exec (.haltComplete a) s = .next t ∧
      t.ctx a = some c' ∧ c'.state = .swappingOut ∧
      (c.record.slice ≠ 0 → s.ctxs.Pairwise (fun x y => x.1 < y.1) → (∀ e ∈ s.groupOf c, e.1 ≠ a → e.2.active = false) →
        ∀ b l d, s.outOfTurn c ++ turnOrder a (s.groupOf c) = b :: l → s.ctx b = some d → d.state = .idle →
          ∃ d', t.ctx b = some d' ∧ d'.state = .swappingIn) ∧ ∀ k, k < 96 → c.record.tiles.getLsbD k = true →
        (t.tile k).owner = none ∧ (t.tile k).lastOwner = some a ∧ ∃ i, Table.val none k (c'.images.map fun e => (e.1, some e.2)) = some i ∧
          i.tile = s.tile k) ∧
    (c.state = .swappingIn → c.doomed = false → c.haltAfter = false → (s.landTiles a c).refillWaits c = [] →
      (∀ k, k < 96 → c.record.tiles.getLsbD k = true → (s.tile k).owner = none) →
      ∃ t c', exec (.swapComplete a) s = .next t ∧ t.ctx a = some c' ∧ c'.state = .resident ∧ c'.images = [] ∧
        c'.assigned = true ∧ ∀ k, k < 96 → c.record.tiles.getLsbD k = true → (t.tile k).owner = some a) ∧
    (c.state = .swappingIn → c.doomed = false → c.haltAfter = true → (s.landTiles a c).refillWaits c = [] →
      (∀ k, k < 96 → c.record.tiles.getLsbD k = true → (s.tile k).owner = none) →
      ∃ t c', exec (.swapComplete a) s = .next t ∧ t.ctx a = some c' ∧ c'.state = .halting) ∧
    (c.state = .resident → ∃ t c', execEnv (.haltContext a) s = .next t ∧ t.ctx a = some c' ∧ c'.state = .halting ∧
      t.mem = s.mem) ∧
    (c.state = .swappingIn → ∃ t c', execEnv (.haltContext a) s = .next t ∧ t.ctx a = some c' ∧ c'.state = .swappingIn ∧
      c'.haltAfter = true) ∧
    (c.state = .swappingOut → c.doomed = false → ∃ t c', exec (.swapComplete a) s = .next t ∧ t.ctx a = some c' ∧
      (c'.state = .idle ∨ c'.state = .swappingIn) ∧ t.mem = s.mem)

/-! ## Queues and commands (spec/20) -/

/-- R308, R311, R313 and R315 of spec/20: QWP of an Active or a Waiting queue moves by a host write, too far ahead it puts the queue
in Error with 0x3CC; EVRP is the host's; a queue that is to read a record goes to Error where its ring cannot be read; otherwise it
waits while its journal record is busy, or journals the record as accepted, advances QRP and JHEAD, and its command comes next. A
frozen package drops the host's writes (R350 of spec/23). That the ring stands at the host base plus QBASE is the model's reading
(DEDUCED, log 14). -/
def Obligations.QueuesTakeRecords : Prop :=
  ∀ (q : Nat) (v : BitVec 32) (s : State), q < 1024 →
    (s.freeze ≠ .off → exec (.qwpWrite q v) s = .next s ∧ exec (.evrpWrite q v) s = .next s) ∧
    (s.freeze = .off →
      exec (.evrpWrite q v) s = .next (s.onQueue q fun x => { x with evrp := v }) ∧
      ((s.queue q).state = .active ∨ (s.queue q).state = .waiting → (v - (s.queue q).qrp).toNat ≤ (s.queue q).qsize →
        exec (.qwpWrite q v) s = .next (s.onQueue q fun x => { x with qwp := v })) ∧
      ((s.queue q).state = .active ∨ (s.queue q).state = .waiting → (s.queue q).qsize < (v - (s.queue q).qrp).toNat →
        exec (.qwpWrite q v) s = .next (s.onQueue q fun x => { x with qwp := v, state := .error, cause := 0x3CC })) ∧
      ((s.queue q).state = .unbound ∨ (s.queue q).state = .error → ∃ t, exec (.qwpWrite q v) s = .next t ∧
        t.queue q = s.queue q)) ∧
    ((s.queue q).state = .active ∨ (s.queue q).state = .waiting → (s.queue q).qrp ≠ (s.queue q).qwp →
      q = 0 ∨ (s.ctx (s.queue q).asid).isSome = true →
      let n := (s.jheadOf q).toNat + 1
      let a := Config.hostBase + (s.queue q).qbase + 64 * ((s.queue q).qrp.toNat % (s.queue q).qsize)
      execEnv (.ringReadFails q) s = .next (s.onQueue q fun x => { x with state := .error, cause := 0x10C }) ∧
      (s.hostFail = none → ∀ e, s.badIn a 64 = some e → exec (.queueRecordAccept q) s =
        .next (s.onQueue q fun x => { x with state := .error, cause := e.1 })) ∧
      (s.hostFail = none → s.badIn a 64 = none → s.recordBusy (s.journalOf q) n = true →
        exec (.queueRecordAccept q) s = .next (s.onQueue q fun x => { x with state := .waiting })) ∧
      (s.hostFail = none → s.badIn a 64 = none → s.recordBusy (s.journalOf q) n = false → ∀ e,
        commandOf q n (BitVec.ofNat 512 (leNat (memRead s.mem a 64))) = some e →
        ∃ t, exec (.queueRecordAccept q) s = .next t ∧ t.inputs = .event e :: s.inputs ∧ (t.queue q).state = .active ∧
          (t.queue q).qrp = (s.queue q).qrp + 1 ∧
          t.jheadOf q = BitVec.ofNat 64 n ∧ t.mem = memWrite s.mem (recordAt (s.journalOf q) n) (leBytes
            (journalRecord q n s.clock.toNat (BitVec.ofNat 512 (leNat (memRead s.mem a 64)))) 64)))

namespace Sys2Proof.Stmt

/-- Journal record `n` at `base` holds a state and a cause (R312 of spec/20). -/
def journaled (t : State) (base n st cause : Nat) : Prop :=
  leNat (memRead t.mem (recordAt base n) 8) % 8 = st ∧ leNat (memRead t.mem (recordAt base n) 8) / 2 ^ 32 = cause

end Sys2Proof.Stmt

/-- R297 to R299 and R307 of spec/19, R309 and R312 of spec/20: the commands without a unit, where their record has been accepted
(R316), end completed, or failed with a cause when a check fails: NOP does nothing; CREATE makes the context of its record; DESTROY
ends an Idle context, whose id is free once no journal record of it waits for a write (DEDUCED, log 81), and does nothing to one
that is Tearing down; BIND makes an Unbound queue Active for a context with nothing pending (its pointers at a BIND are the model's
reading, log 30). -/
def Obligations.ContextCommands : Prop :=
  ∀ (q n : Nat) (cmd : BitVec 512) (s : State), cmdReserved cmd = false →
    (s.pending q n cmd = false → ∀ i ∈ [Instr.queueNop q n cmd, .create q n cmd, .destroy q n cmd, .bind q n cmd],
      exec i s = .next s) ∧ (s.pending q n cmd = true →
    (∃ t, exec (.queueNop q n cmd) s = .next t ∧ Stmt.journaled t (s.journalOf q) n 2 0) ∧
    (q ≠ 0 → (∃ t, exec (.create q n cmd) s = .next t ∧ Stmt.journaled t (s.journalOf q) n 4 0x3CA) ∧
      ∃ t, exec (.destroy q n cmd) s = .next t ∧ Stmt.journaled t (s.journalOf q) n 4 0x3CA) ∧
    (q = 0 → ∀ v ds, cmdAddr cmd % 64 = 0 → s.supRead (cmdAddr cmd) 64 = .ok v → s.readSpaces (ctxRecOf v) = .ok ds →
      s.createBad (bitsAt v 84 12) v (ctxRecOf v) ds = false → ∃ t c, exec (.create 0 n cmd) s = .next t ∧
        t.ctx (bitsAt v 84 12) = some c ∧ c.record = ctxRecOf v ∧ (c.state = .idle ∨ c.state = .swappingIn) ∧
        Stmt.journaled t s.q0journal n 2 0) ∧
    (q = 0 → ∀ c, s.ctx (bitsAt (cmdArgs cmd) 0 12) = some c →
      (c.state = .idle → ∃ t, exec (.destroy 0 n cmd) s = .next t ∧ Stmt.journaled t s.q0journal n 2 0 ∧
        (s.writesHeld = false → t.ctx (bitsAt (cmdArgs cmd) 0 12) = none) ∧
        ∀ x, t.ctx (bitsAt (cmdArgs cmd) 0 12) = some x → x.state = .tearingDown) ∧
      (c.state = .tearingDown → ∃ t, exec (.destroy 0 n cmd) s = .next t ∧ Stmt.journaled t s.q0journal n 2 0 ∧
        ∃ x, t.ctx (bitsAt (cmdArgs cmd) 0 12) = some x ∧ x.state = .tearingDown)) ∧
    (q = 0 → bindBad (cmdArgs cmd) = false → (s.liveCtx (bitsAt (cmdArgs cmd) 16 12)).isSome = true →
      (s.queue (bitsAt (cmdArgs cmd) 0 10)).state = .unbound → ∃ t, exec (.bind 0 n cmd) s = .next t ∧
        (let b := t.queue (bitsAt (cmdArgs cmd) 0 10)
         b.state = .active ∧ b.asid = bitsAt (cmdArgs cmd) 16 12 ∧ b.qbase = bitsAt (cmdArgs cmd) 64 64 ∧
         b.qsize = 2 ^ bitsAt (cmdArgs cmd) 32 5 ∧ b.evbase = bitsAt (cmdArgs cmd) 128 64 ∧
         b.evsize = 2 ^ bitsAt (cmdArgs cmd) 40 5 ∧ b.qwp = b.qrp) ∧ Stmt.journaled t s.q0journal n 2 0))

/-- R233, R239 and R309 of spec/14 and spec/20, for the context of a bound queue whose record has been accepted (R316): JOB makes an
Active job with its seed; PHASE adds its first phase to an Active job, Active; GRAPH adds a graph of its nodes to a phase that has
not started, and where its table waits for a page walk its queue keeps it and reads no later record; CLOSE closes a job without
phases, which is then Complete; CANCEL of such a job, no handler of whose musters runs, completes it by cancel. -/
def Obligations.WorkCommands : Prop :=
  ∀ (q n a : Nat) (cmd : BitVec 512) (c : Ctx) (s : State), (s.pending q n cmd = false →
      ∀ i ∈ [Instr.job q n cmd, .phase q n cmd, .graph q n cmd, .close q n cmd, .queueCancel q n cmd], exec i s = .next s) ∧
    (s.pending q n cmd = true → q ≠ 0 → cmdReserved cmd = false → (s.queue q).asid = a →
    s.ctx a = some c → c.units.length < 65536 → (∀ l, l < 4 → c.spent l 1 = false) →
    let h := cmdHandle cmd
    let new := fun (l : Nat) => l * 2 ^ 30 + c.nextNum.getD l 1
    (cmdArgs cmd < 2 ^ 64 → ∃ t u, exec (.job q n cmd) s = .next t ∧ t.unit a (new 3) = some u ∧ u.level = 3 ∧
      u.state = .active ∧ u.closed = false ∧ u.jobseed = BitVec.ofNat 64 (cmdArgs cmd)) ∧
    ∀ j, s.unit a h = some j →
      (j.level = 3 → j.state = .active → j.closed = false → j.kids = [] → new 2 ≠ h →
        ∃ t u k, exec (.phase q n cmd) s = .next t ∧ t.unit a (new 2) = some u ∧ u.level = 2 ∧ u.state = .active ∧ u.parent = h ∧
          t.unit a h = some k ∧ k.kids = [new 2] ∧ k.total = j.total + 1) ∧
      (∀ k ns, j.level = 2 → j.state = .pending → s.unit a j.parent = some k → k.level = 3 → k.closed = false →
        k.kids.getLast? = some h → 1 ≤ bitsAt (cmdArgs cmd) 0 11 → bitsAt (cmdArgs cmd) 0 11 ≤ 1024 → new 1 ≠ h →
        let r := s.readGraph ⟨0, a, 2 ^ 32 + q, 0⟩ c (BitVec.ofNat 64 (cmdAddr cmd)) (bitsAt (cmdArgs cmd) 0 11)
        (s.queue q).carry = none → (∀ va, r = .error (walkWait, va) → ∃ t, exec (.graph q n cmd) s = .next t ∧
          (t.queue q).carry = some ⟨n, cmd, a, s.journalOf q⟩ ∧ t.reads q = false ∧ t.mem = s.mem) ∧
        ∀ v, r = .ok (ns, v) → (∀ e ∈ ns, e.2 = none) → ∃ t u, exec (.graph q n cmd) s = .next t ∧
          t.unit a (new 1) = some u ∧ u.level = 1 ∧ u.state = .pending ∧ u.parent = h ∧ u.total = bitsAt (cmdArgs cmd) 0 11 ∧ u.nodes.length = ns.length ∧ u.jobseed = k.jobseed) ∧
      (j.level = 3 → j.state = .active → j.kids = [] → j.count + j.pruned = j.total → j.journal = none →
        (∃ t u, exec (.close q n cmd) s = .next t ∧ t.unit a h = some u ∧ u.closed = true ∧ u.state = .complete ∧
          u.cancelled = false) ∧
        (s.handlerRuns a 3 h = false → h < 2 ^ 32 → h % 2 ^ 30 ≠ 0 → h % 2 ^ 30 < c.nextNum.getD (h / 2 ^ 30) 1 →
          ∃ t u, exec (.queueCancel q n cmd) s = .next t ∧ t.unit a h = some u ∧ u.state = .complete ∧ u.cancelled = true)))

/-! ## Links (spec/22) -/

namespace Sys2Proof.Stmt

/-- No diagram space's node table meets the bytes [a, a + n). -/
def noTable (s : State) (a n : Nat) : Prop := ∀ x ∈ s.allSpaces, x.tbase + 16 * x.cap ≤ a ∨ a + n ≤ x.tbase

/-- The host's read of BAR0 is answered with a value. -/
def barReads (s : State) (offset size v : Nat) : Prop :=
  ∃ t, execEnv (.barRead offset size) s = .next t ∧ t.host.answer = BitVec.ofNat 4096 v ∧ t.host.barEnd = .ok ∧ t.mem = s.mem

end Sys2Proof.Stmt

/-- R327 to R333, R337 and R339 of spec/22: a PORTSTAT write clears the REPLAYS bits it names; HOSTATOM and APBASE are written while
queue 0 is Unbound; BAR0 is read; the aperture reads and writes up to 512 bytes of package HBM from APBASE on, where node tables
show their records and marks (log 60); a frozen package aborts all reads and drops the writes (R350 of spec/23); the host's store
reaches its memory; a host request 16 ms old, or a remote one that no answer can reach or that a port in Retrain holds off, raises
0x10C at its instruction; a hot reset and a link that stays down reset the package, whose own memory is then empty (log 2 names what
is not the package's). -/
def Obligations.HostLinkActs : Prop :=
  (∀ (p off size : Nat) (v : BitVec 64) (big : BitVec 4096) (s : State),
    (s.freeze ≠ .off → exec (.portstatWrite p v) s = .next s ∧ exec (.barRegisterWrite off size v) s = .next s ∧
      exec (.hostApertureAccess true off size big) s = .next s ∧
      ∃ t, exec (.hostApertureAccess false off size big) s = .next t ∧ execEnv (.barRead off size) s = .next t ∧
        t.host.barEnd = .abort ∧ t.mem = s.mem) ∧
    (s.freeze = .off →
      (p < 12 → exec (.portstatWrite p v) s = .next (s.onPort p fun x =>
        { x with replays := x.replays &&& ~~~(BitVec.ofNat 16 (v.toNat / 2 ^ 32 % 2 ^ 16)) })) ∧
      ((s.queue 0).state = .unbound →
        exec (.barRegisterWrite 0 8 v) s = .next { s with host := { s.host with hostatom := v.setWidth 2 } } ∧
        exec (.barRegisterWrite 8 8 v) s =
          .next { s with host := { s.host with apbase := BitVec.ofNat 10 (v.toNat / 2 ^ 30 % 2 ^ 10) } }) ∧
      ((s.queue 0).state ≠ .unbound → exec (.barRegisterWrite 0 8 v) s = .next s ∧ exec (.barRegisterWrite 8 8 v) s = .next s) ∧
      Stmt.barReads s 0 8 s.host.hostatom.toNat ∧ Stmt.barReads s 8 8 (s.host.apbase.toNat * 2 ^ 30) ∧
      (p < 12 → ∀ st, (s.port p).state = st → Stmt.barReads s (0x110000 + 64 * p) 8
        ((match st with | .down => 0 | .training => 1 | .up => 2 | .retrain => 3) + (s.port p).peer.toNat * 2 ^ 24 +
          (s.port p).replays.toNat * 2 ^ 32)) ∧
      (p < 1024 → Stmt.barReads s (0x100000 + 64 * p + 8) 8 ((s.queue p).qwp.toNat + (s.queue p).qrp.toNat * 2 ^ 32) ∧
        Stmt.barReads s (0x100000 + 64 * p + 40) 8 (s.jheadOf p).toNat) ∧
      (∀ n, ¬((n = 4 ∨ n = 8) ∧ off % n = 0) → ∃ t, execEnv (.barRead off n) s = .next t ∧ t.host.barEnd = .unsupported) ∧
      (∀ w, 1 ≤ size → size ≤ 8 → ∃ t, execEnv (.hostStore off size w) s = .next t ∧
        t.mem = memWrite s.mem (Config.hostBase + off % 2 ^ 64) (leBytes w.toNat size)) ∧
      ∀ a, a = s.host.apbase.toNat * 2 ^ 30 + off → 1 ≤ size → size ≤ 512 → off + size ≤ 2 ^ 30 → a + size ≤ 768 * 2 ^ 30 →
        (∃ t, exec (.hostApertureAccess true off size big) s = .next t ∧ t.mem = memWrite s.mem a (leBytes big.toNat size)) ∧
        (s.badIn a size = none → ∃ t, exec (.hostApertureAccess false off size big) s = .next t ∧ t.host.barEnd = .ok ∧
          t.host.answer = BitVec.ofNat 4096 (leNat (s.supBytes a size)) ∧ t.mem = s.mem) ∧
        (Stmt.noTable s a size → s.supBytes a size = memRead s.mem a size))) ∧
  (∀ (tid n : Nat) (va : Word) (h : Home) (x : Slot) (s : State), s.findTid tid = some x → s.slotOfTid tid = some n →
    s.slot n = x → x.park.answered = false → x.park.once = false → x.sup.sinh = false → Stmt.toContext x 0x10C →
    let failed := fun (o : Out) => ∃ t, o = .next t ∧ (t.slot n).pc = x.trap.tvec ∧ t.mem = s.mem ∧
      (t.slot n).trap = { x.trap with tcause := 0x10C, tpc := x.pc, taddr := va, async := false, inh := true }
    (x.park.wait = some (.answer va .host) → 28800000 ≤ s.clock.toNat - x.park.since.toNat →
      failed (exec (.hostCompletionTimeout tid) s)) ∧
    (x.park.wait = some (.answer va h) → x.park.dead = true ∨ (x.park.behind = false ∧
        (∃ q ∈ x.park.ports, (s.port q).state = .retrain) ∧
        ∃ l ∈ x.park.trans, l.loc = 3 ∧ s.reachable l.rpkg = false) → failed (exec (.remoteRequestTimeout tid) s))) ∧
  ∀ s : State, ∀ i ∈ [Instr.hotReset, .linkDownTimeout], exec i s = .next { State.reset with
    inputs := s.inputs, freeCtr := s.freeCtr, pkg := s.pkg, hostFail := s.hostFail, mem := s.mem.filter fun c => Config.hostBase ≤ c.1 }

namespace Sys2Proof.Stmt

/-- No node, no journal record and no context that is torn down waits for a write. -/
def nothingDue (s : State) : Prop :=
  s.journalDue = [] ∧ (∀ e ∈ s.liveCtxs, e.2.releasing = []) ∧ ∀ e ∈ s.ctxs, ∀ c, e.2 = some c → c.state ≠ .tearingDown

/-- Nothing waits at a port either. -/
def quietPorts (s : State) : Prop := (∀ e ∈ s.ports, e.2.waiting = []) ∧ nothingDue s

end Sys2Proof.Stmt

/-- R335, R336, R338 and R339 of spec/22: the states of a Margon port: enabling trains it, training takes it Up or Down, a loss
of signal and a missing ACK bring it to Retrain, from which it comes Up with its replay buffer sent again, or goes Down; the
requests of a port that goes Down can get no answer. A flit in sequence is acknowledged and taken into its lane's buffer; a bad
one is NAKed; one accepted before is discarded. That a flit without room is NAKed too, and what the answers carry, is the model's
choice (DESIGN CHOICE, log 27). A pause ends at its time, and what it held back leaves: a
remote write and a RUPD are performed, a request is under way. Where the ports that are Up change, what waits takes its port anew
(log 79). A graph's node whose completion waited for a write then completes (R242 of spec/14). -/
def Obligations.PortStates : Prop :=
  ∀ (p : Nat) (s : State), p < 12 → let x := s.port p
    let down := fun (o : Out) => ∃ t : State, o = .next t.releaseNodes ∧ (t.port p).state = .down ∧ (t.port p).writes = [] ∧
      (t.port p).waiting = [] ∧ (Stmt.quietPorts s → t.releaseNodes = t ∧
        ∀ n, (s.slot n).park.ports.contains p = true → (s.slot n).park.answered = false → (t.slot n).park.dead = true)
    let retrains := fun (o : Out) => o = .next (s.onPort p fun x => { x with state := .retrain }).rerouted ∧
      (Stmt.quietPorts s → ∃ t, o = .next t ∧ t.port p = { x with state := .retrain } ∧ t.mem = s.mem ∧ t.slots = s.slots)
    (x.state = .down → exec (.portEnable p) s = .next (s.onPort p fun x => { x with state := .training })) ∧
    (∀ peer, Stmt.quietPorts s → (x.state = .training → ∃ t, exec (.trainingSucceeds p peer) s = .next t ∧
        (t.port p).state = .up ∧ (t.port p).peer = peer ∧ (t.port p).txSeq = 0 ∧ (t.port p).rxSeq = 0) ∧
      (x.state = .retrain → ∃ t l, exec (.trainingSucceeds p peer) s = .next t ∧ (t.port p).state = .up ∧
        (t.port p).rxSeq = x.rxSeq ∧ (t.port p).sent = x.sent ∧ (t.port p).out = l ++ x.out ∧
        ∀ e ∈ x.sent, (e.1 - (x.sent.map (·.1)).headD x.txSeq).toNat < 2 ^ 31 → e ∈ l)) ∧
    (x.state = .training ∨ x.state = .retrain → down (exec (.trainingFails p) s)) ∧
    (x.state = .up → retrains (exec (.lossOfSignal p) s) ∧
      (x.sent ≠ [] → 65536 ≤ s.clock.toNat - x.ackAt.toNat → retrains (exec (.ackTimeout p) s))) ∧
    (x.state = .training → down (exec (.lossOfSignal p) s)) ∧
    (∀ f : BitVec 2048, x.state = .up → let seq : BitVec 32 := BitVec.ofNat 32 (flitField f 32 32); let vl := flitField f 10 2
      let nak := fun (o : Out) => ∃ t, o = .next t ∧ (t.port p).rxSeq = x.rxSeq ∧
        (t.port p).out = (x.txSeq, .nak x.rxSeq) :: x.out ∧ t.mem = s.mem
      (flitCrcOk f = false → nak (exec (.flitReceived p f) s)) ∧
      (flitCrcOk f = true → seq = x.rxSeq → 64 ≤ (Table.val [] vl x.buf).length → nak (exec (.flitReceived p f) s)) ∧
      (flitCrcOk f = true → seq ≠ x.rxSeq → (x.rxSeq - seq).toNat < 2 ^ 31 → exec (.flitReceived p f) s = .next s) ∧
      (flitCrcOk f = true → vl ≠ 3 → seq = x.rxSeq → (Table.val [] vl x.buf).length < 64 →
        ∃ t, exec (.flitReceived p f) s = .next t ∧ (t.port p).rxSeq = x.rxSeq + 1 ∧ (x.txSeq, .ack seq) ∈ (t.port p).out ∧
          Table.val [] vl (t.port p).buf = Table.val [] vl x.buf ++ [f] ∧ t.mem = s.mem)) ∧
    ∀ vl, Table.val s.clock vl x.pause ≤ s.clock → ∃ t : State, exec (.pauseExpires p vl) s = .next t.releaseNodes ∧
      (Stmt.nothingDue s → t.releaseNodes = t) ∧ (t.port p).pause = Table.del vl x.pause ∧
      (t.port p).waiting = x.waiting.filter (fun o => o.lane ≠ vl) ∧
      (∀ tids va pa bs w z, vl = 0 → x.waiting = [.write tids va (.write pa bs) w z] → t.mem = memWrite s.mem pa bs) ∧
      (∀ tids va op pa n v w z, vl = 0 → x.waiting = [.write tids va (.update op pa n v) w z] →
        t.mem = memWrite s.mem pa (leBytes (amoNew op n (leNat (memRead s.mem pa n)) v) n)) ∧
      ∀ tid r n, vl = 0 → x.waiting = [.request tid r] → s.ports.Pairwise (fun a b => a.1 < b.1) →
        (∀ e ∈ s.ports, e.1 ≠ p → e.2.waiting = []) → (s.slot n).tid = tid → (s.slot n).status ≠ .free →
        (t.slot n).park.behind = false

/-! ## The freeze and the test port (spec/23) -/

/-- R349 to R351 of spec/23: FREEZE_N freezes terminally with source 1 and FRZ with source 2, with every Margon port Down; RESUME
ends a resumable freeze only, and all twelve ports then enter Retrain, those never enabled too, which is the model's reading (DEDUCED,
log 56); IDCODE, STAT, BYPASS and JTAG_SEL load their registers, BYPASS its one bit (DESIGN CHOICE, log 9); RDST gives the next word
of the selection while frozen and 0 otherwise, here g0 and up of a slot and words of HBM, where node tables show their marks (log
60); an address beyond HBM has no word, and the model stops (noMemory, log 9). -/
def Obligations.FreezeAndTestPort : Prop :=
  ∀ (r : Bool) (sel : BitVec 64) (s : State),
    let stopped := fun (t : State) => s.keptMem t ∧ (∀ n, (s.slot n).marked (t.slot n)) ∧ ∀ p, (t.port p).state = .down
    (s.freeze = .off → (∃ t, exec .freezeN s = .next t ∧ t.freeze = .on false 1 ∧ stopped t) ∧
      (∃ t, exec (.frz r) s = .next t ∧ t.freeze = .on r 2 ∧ stopped t) ∧
      (∃ t, exec .stat s = .next t ∧ t.tap.dr = 0) ∧ ∃ t, exec .rdst s = .next t ∧ t.tap.dr = 0) ∧
    (∀ b src, s.freeze = .on b src →
      (∃ t, exec .resume s = .next t ∧ (t.freeze = if b then .off else .on false src) ∧
        (b = true → ∀ p, p < 12 → (t.port p).state = .retrain)) ∧
      (∃ t, exec .stat s = .next t ∧ t.tap.dr = BitVec.ofNat 64 (1 + (if b then 2 else 0) + src.toNat * 4)) ∧
      (∀ n i, s.tap.sel = BitVec.ofNat 64 n → n < 6144 → i < 32 → s.tap.index = i →
        ∃ t, exec .rdst s = .next t ∧ t.tap.dr = (s.slot n).reg i ∧ t.tap.index = i + 1) ∧
      (∀ a, s.tap.sel = BitVec.ofNat 64 (2 ^ 60 + a) → a < 2 ^ 60 → a % 8 = 0 → s.tap.index = 0 →
        (a + 8 ≤ 768 * 2 ^ 30 → ∃ t, exec .rdst s = .next t ∧ t.tap.dr = BitVec.ofNat 64 (leNat (s.supBytes a 8)) ∧
          (Stmt.noTable s a 8 → s.supBytes a 8 = memRead s.mem a 8)) ∧
        (768 * 2 ^ 30 < a + 8 → exec .rdst s = .fault .noMemory))) ∧
    (∃ t, exec .resume s = .next t ∧ t.tap.ir = 0x21) ∧ (∃ t, exec .idcode s = .next t ∧ t.tap.dr = 0x0A5D0C13) ∧
    (∃ t, exec (.jtagSel sel) s = .next t ∧ t.tap.sel = sel ∧ t.tap.index = 0) ∧
    ∃ t, exec (.bypass r) s = .next t ∧ t.tap.dr = if r then 1 else 0
end

