-- ==== Sys2Proof/Laws/State.lean ====
section
/-! SUPPORT. What each update of the state leaves alone, one lemma a field and update, and what a read gives after an
update. -/

namespace Sys2Proof.Machine

set_option Elab.async false

open Sys2Proof

/-! ## Sparse tables -/

theorem val_put_same {α : Type} (d : α) (k : Nat) (v : α) (t : Table α) : Table.val d k (Table.put k v t) = v := by
  induction t with
  | nil => simp [Table.put, Table.val]
  | cons e t ih =>
    obtain ⟨k', v'⟩ := e
    simp only [Table.put]
    split
    · simp [Table.val]
    · split
      · simp [Table.val]
      · simp_all [Table.val]

theorem val_put_other {α : Type} (d : α) (k j : Nat) (v : α) (t : Table α) (h : j ≠ k) :
    Table.val d j (Table.put k v t) = Table.val d j t := by
  induction t with
  | nil => simp [Table.put, Table.val, h.symm]
  | cons e t ih =>
    obtain ⟨k', v'⟩ := e
    simp only [Table.put]
    split
    · simp [Table.val, h.symm]
    · split
      · rename_i h1 h2
        subst h2
        simp [Table.val, h.symm]
      · simp [Table.val, ih]

theorem val_del_same {α : Type} (d : α) (k : Nat) (t : Table α) : Table.val d k (Table.del k t) = d := by
  induction t with
  | nil => rfl
  | cons e t ih =>
    obtain ⟨k', v'⟩ := e
    simp only [Table.del, List.filter] at ih ⊢
    split
    · rename_i h
      simp only [bne_iff_ne] at h
      simp [Table.val, h, ih]
    · exact ih

theorem val_del_other {α : Type} (d : α) (k j : Nat) (t : Table α) (h : j ≠ k) :
    Table.val d j (Table.del k t) = Table.val d j t := by
  induction t with
  | nil => rfl
  | cons e t ih =>
    obtain ⟨k', v'⟩ := e
    simp only [Table.del, List.filter] at ih ⊢
    split
    · simp only [Table.val, ih]
    · rename_i h'
      simp only [bne_iff_ne, ne_eq, Bool.not_eq_true, bne_eq_false_iff_eq] at h'
      subst h'
      simp [Table.val, h.symm, ih]

/-! ## Operations that touch a few fields alone: what they leave -/

theorem foldl_same {α β : Type} (g : State → β) (f : State → α → State) (hf : ∀ s a, g (f s a) = g s) (l : List α) (s : State) :
    g (l.foldl f s) = g s := by
  induction l generalizing s with
  | nil => rfl
  | cons a l ih => rw [List.foldl_cons, ih, hf]

/-- A state without what the L2 knows of its lines. -/
def State.noLines (s : State) : State := { s with lines := [], dirty := [] }

theorem State.dirtied_noLines (s : State) (pa len : Nat) (a : Attr) : (s.dirtied pa len a).noLines = s.noLines :=
  foldl_same _ _ (fun s e => by unfold State.dirtySector; split <;> rfl) _ _

/-- A state without its contexts, memory and what follows a store. -/
def State.noStores (s : State) : State :=
  { s with slots := [], ctxs := [], mem := [], windows := [], lines := [], dirty := [] }

theorem State.store_noStores (s : State) (pa : Nat) (bs : List Byte) (a : Attr) : (s.store pa bs a).noStores = s.noStores := by
  have h := congrArg State.noStores
    (State.dirtied_noLines ((({ s with mem := memWrite s.mem pa bs } : State).observe pa bs.length).touch pa bs.length) pa bs.length a)
  exact h

theorem State.rereadSpace_noStores (s old : State) (die asid : Nat) (x : Space) (pa len : Nat) :
    (s.rereadSpace old die asid x pa len).noStores = s.noStores :=
  foldl_same State.noStores _ (fun s i => by unfold State.onCtx; split <;> rfl) _ _

theorem State.write_noStores (s : State) (pa : Nat) (bs : List Byte) (a : Attr) : (s.write pa bs a).noStores = s.noStores :=
  (foldl_same State.noStores _ (fun _ _ => State.rereadSpace_noStores ..) _ _).trans (s.store_noStores ..)

/-- A state without what a port that goes Down may change: what waited by it may leave by another. -/
def State.noLinks (s : State) : State :=
  { s with slots := [], groups := [], ctxs := [], mem := [], ports := [], freeCtr := 0, freeze := .off
           windows := [], lines := [], dirty := [] }

theorem State.pick_noLinks (s : State) (n : Nat) : (s.pick n).2.noLinks = s.noLinks := by
  unfold State.pick; split <;> rfl

theorem State.loseWrite_noLinks (s : State) (tids : List Nat) (va : Word) : (s.loseWrite tids va).noLinks = s.noLinks := by
  unfold State.loseWrite
  exact foldl_same State.noLinks (fun s t => s.onTid t fun x => { x with lost := some va }) (fun _ _ => rfl) _ _

theorem State.store_noLinks (s : State) (pa : Nat) (bs : List Byte) (a : Attr) : (s.store pa bs a).noLinks = s.noLinks := by
  have h := congrArg State.noLinks (s.store_noStores pa bs a)
  exact h

theorem State.settle_noLinks (s : State) (ps : List Piece) : (s.settle ps).noLinks = s.noLinks := by
  unfold State.settle; split <;> rfl

theorem State.underWay_noLinks (s : State) (o : Outgoing) : (s.underWay o).noLinks = s.noLinks := by
  unfold State.underWay
  split
  · rfl
  · split <;> rfl

theorem State.overtake_noLinks (s : State) (p : Piece) : (s.overtake p).noLinks = s.noLinks := by
  unfold State.overtake; split <;> rfl

theorem State.departWrite_noLinks (s : State) (p : Nat) (tids : List Nat) (va : Word) (r : Config.Request) (e : Option Word)
    (z : Bool) : (s.departWrite p tids va r e z).noLinks = s.noLinks := by
  unfold State.departWrite
  refine Eq.trans (b := State.noLinks (State.store _ _ _ _)) rfl
    ((State.store_noLinks _ _ _ _).trans ((State.overtake_noLinks _ _).trans ?_))
  cases r <;> first | exact s.settle_noLinks _ | rfl

theorem State.depart_noLinks (s : State) (p : Nat) (o : Outgoing) : (s.depart p o).noLinks = s.noLinks := by
  cases o with
  | write tids va r e z => exact s.departWrite_noLinks ..
  | request | message | result | reply => rfl

theorem State.post_noLinks (s : State) (p : Nat) (o : Outgoing) : (s.post p o).noLinks = s.noLinks := by
  unfold State.post; split
  · rfl
  · exact s.depart_noLinks p o

theorem State.takePort_noLinks (s : State) (p q : Nat) (o : Outgoing) : (s.takePort p q o).noLinks = s.noLinks := by
  cases o <;> exact (State.underWay_noLinks ..).trans ((State.post_noLinks _ q _).trans rfl)

theorem State.reroute_noLinks (s : State) : s.reroute.noLinks = s.noLinks := by
  unfold State.reroute
  refine foldl_same State.noLinks _ (fun s p => ?_) _ _
  refine (foldl_same State.noLinks _ (fun s o => ?_) _ _).trans rfl
  split
  · exact s.takePort_noLinks ..
  · rfl

theorem State.portDown_noLinks (s : State) (p : Nat) : (s.portDown p).noLinks = s.noLinks := by
  unfold State.portDown
  refine (foldl_same State.noLinks _ (fun s o => by cases o <;> first | exact s.loseWrite_noLinks .. | rfl) _ _).trans ?_
  refine (foldl_same State.noLinks _ (fun s w => s.loseWrite_noLinks ..) _ _).trans ?_
  refine (foldl_same State.noLinks _ (fun s w => by unfold State.unsent; split <;> rfl) _ _).trans ?_
  exact (State.pick_noLinks _ _).trans ((State.reroute_noLinks _).trans rfl)

theorem State.freezeBy_noLinks (s : State) (r : Bool) (src : BitVec 2) : (s.freezeBy r src).noLinks = s.noLinks := by
  have h : s.portsDown.noLinks = s.noLinks := (foldl_same _ _ State.portDown_noLinks _ _).trans rfl
  unfold State.freezeBy
  split
  · exact h
  · split <;> rfl
  · rfl


/-! ## State: slots -/

@[simp] theorem State.setSlot_clock (s : State) (n : Nat) (x : Slot) : (s.setSlot n x).clock = s.clock := rfl
@[simp] theorem State.setSlot_turn (s : State) (n : Nat) (x : Slot) : (s.setSlot n x).turn = s.turn := rfl
@[simp] theorem State.setSlot_agent (s : State) (n : Nat) (x : Slot) : (s.setSlot n x).agent = s.agent := rfl
@[simp] theorem State.setSlot_inputs (s : State) (n : Nat) (x : Slot) : (s.setSlot n x).inputs = s.inputs := rfl
@[simp] theorem State.setSlot_freeCtr (s : State) (n : Nat) (x : Slot) : (s.setSlot n x).freeCtr = s.freeCtr := rfl
@[simp] theorem State.setSlot_nextTid (s : State) (n : Nat) (x : Slot) : (s.setSlot n x).nextTid = s.nextTid := rfl
@[simp] theorem State.setSlot_freeze (s : State) (n : Nat) (x : Slot) : (s.setSlot n x).freeze = s.freeze := rfl
@[simp] theorem State.setSlot_pkg (s : State) (n : Nat) (x : Slot) : (s.setSlot n x).pkg = s.pkg := rfl
@[simp] theorem State.setSlot_svec (s : State) (n : Nat) (x : Slot) : (s.setSlot n x).svec = s.svec := rfl
@[simp] theorem State.setSlot_qepoch (s : State) (n : Nat) (x : Slot) : (s.setSlot n x).qepoch = s.qepoch := rfl
@[simp] theorem State.setSlot_mem (s : State) (n : Nat) (x : Slot) : (s.setSlot n x).mem = s.mem := rfl
@[simp] theorem State.setSlot_feEmpty (s : State) (n : Nat) (x : Slot) : (s.setSlot n x).feEmpty = s.feEmpty := rfl
@[simp] theorem State.setSlot_badData (s : State) (n : Nat) (x : Slot) : (s.setSlot n x).badData = s.badData := rfl
@[simp] theorem State.setSlot_badMeta (s : State) (n : Nat) (x : Slot) : (s.setSlot n x).badMeta = s.badMeta := rfl
@[simp] theorem State.setSlot_lines (s : State) (n : Nat) (x : Slot) : (s.setSlot n x).lines = s.lines := rfl
@[simp] theorem State.setSlot_dirty (s : State) (n : Nat) (x : Slot) : (s.setSlot n x).dirty = s.dirty := rfl
@[simp] theorem State.setSlot_tlb (s : State) (n : Nat) (x : Slot) : (s.setSlot n x).tlb = s.tlb := rfl
@[simp] theorem State.setSlot_walks (s : State) (n : Nat) (x : Slot) : (s.setSlot n x).walks = s.walks := rfl
@[simp] theorem State.setSlot_faulted (s : State) (n : Nat) (x : Slot) : (s.setSlot n x).faulted = s.faulted := rfl
@[simp] theorem State.setSlot_cores (s : State) (n : Nat) (x : Slot) : (s.setSlot n x).cores = s.cores := rfl
@[simp] theorem State.setSlot_tiles (s : State) (n : Nat) (x : Slot) : (s.setSlot n x).tiles = s.tiles := rfl
@[simp] theorem State.setSlot_ctxs (s : State) (n : Nat) (x : Slot) : (s.setSlot n x).ctxs = s.ctxs := rfl
@[simp] theorem State.setSlot_groups (s : State) (n : Nat) (x : Slot) : (s.setSlot n x).groups = s.groups := rfl
@[simp] theorem State.setSlot_nextGroup (s : State) (n : Nat) (x : Slot) : (s.setSlot n x).nextGroup = s.nextGroup := rfl
@[simp] theorem State.setSlot_sets (s : State) (n : Nat) (x : Slot) : (s.setSlot n x).sets = s.sets := rfl
@[simp] theorem State.setSlot_queues (s : State) (n : Nat) (x : Slot) : (s.setSlot n x).queues = s.queues := rfl
@[simp] theorem State.setSlot_q0journal (s : State) (n : Nat) (x : Slot) : (s.setSlot n x).q0journal = s.q0journal := rfl
@[simp] theorem State.setSlot_q0jhead (s : State) (n : Nat) (x : Slot) : (s.setSlot n x).q0jhead = s.q0jhead := rfl
@[simp] theorem State.setSlot_journalDue (s : State) (n : Nat) (x : Slot) : (s.setSlot n x).journalDue = s.journalDue := rfl
@[simp] theorem State.setSlot_windows (s : State) (n : Nat) (x : Slot) : (s.setSlot n x).windows = s.windows := rfl
@[simp] theorem State.setSlot_ports (s : State) (n : Nat) (x : Slot) : (s.setSlot n x).ports = s.ports := rfl
@[simp] theorem State.setSlot_host (s : State) (n : Nat) (x : Slot) : (s.setSlot n x).host = s.host := rfl
@[simp] theorem State.setSlot_tap (s : State) (n : Nat) (x : Slot) : (s.setSlot n x).tap = s.tap := rfl
@[simp] theorem State.setSlot_hostFail (s : State) (n : Nat) (x : Slot) : (s.setSlot n x).hostFail = s.hostFail := rfl

/-! ## State.onSlot -/

@[simp] theorem State.onSlot_clock (s : State) (n : Nat) (f : Slot → Slot) : (s.onSlot n f).clock = s.clock := rfl
@[simp] theorem State.onSlot_turn (s : State) (n : Nat) (f : Slot → Slot) : (s.onSlot n f).turn = s.turn := rfl
@[simp] theorem State.onSlot_agent (s : State) (n : Nat) (f : Slot → Slot) : (s.onSlot n f).agent = s.agent := rfl
@[simp] theorem State.onSlot_inputs (s : State) (n : Nat) (f : Slot → Slot) : (s.onSlot n f).inputs = s.inputs := rfl
@[simp] theorem State.onSlot_freeCtr (s : State) (n : Nat) (f : Slot → Slot) : (s.onSlot n f).freeCtr = s.freeCtr := rfl
@[simp] theorem State.onSlot_nextTid (s : State) (n : Nat) (f : Slot → Slot) : (s.onSlot n f).nextTid = s.nextTid := rfl
@[simp] theorem State.onSlot_freeze (s : State) (n : Nat) (f : Slot → Slot) : (s.onSlot n f).freeze = s.freeze := rfl
@[simp] theorem State.onSlot_pkg (s : State) (n : Nat) (f : Slot → Slot) : (s.onSlot n f).pkg = s.pkg := rfl
@[simp] theorem State.onSlot_svec (s : State) (n : Nat) (f : Slot → Slot) : (s.onSlot n f).svec = s.svec := rfl
@[simp] theorem State.onSlot_qepoch (s : State) (n : Nat) (f : Slot → Slot) : (s.onSlot n f).qepoch = s.qepoch := rfl
@[simp] theorem State.onSlot_mem (s : State) (n : Nat) (f : Slot → Slot) : (s.onSlot n f).mem = s.mem := rfl
@[simp] theorem State.onSlot_feEmpty (s : State) (n : Nat) (f : Slot → Slot) : (s.onSlot n f).feEmpty = s.feEmpty := rfl
@[simp] theorem State.onSlot_badData (s : State) (n : Nat) (f : Slot → Slot) : (s.onSlot n f).badData = s.badData := rfl
@[simp] theorem State.onSlot_badMeta (s : State) (n : Nat) (f : Slot → Slot) : (s.onSlot n f).badMeta = s.badMeta := rfl
@[simp] theorem State.onSlot_lines (s : State) (n : Nat) (f : Slot → Slot) : (s.onSlot n f).lines = s.lines := rfl
@[simp] theorem State.onSlot_dirty (s : State) (n : Nat) (f : Slot → Slot) : (s.onSlot n f).dirty = s.dirty := rfl
@[simp] theorem State.onSlot_tlb (s : State) (n : Nat) (f : Slot → Slot) : (s.onSlot n f).tlb = s.tlb := rfl
@[simp] theorem State.onSlot_walks (s : State) (n : Nat) (f : Slot → Slot) : (s.onSlot n f).walks = s.walks := rfl
@[simp] theorem State.onSlot_faulted (s : State) (n : Nat) (f : Slot → Slot) : (s.onSlot n f).faulted = s.faulted := rfl
@[simp] theorem State.onSlot_cores (s : State) (n : Nat) (f : Slot → Slot) : (s.onSlot n f).cores = s.cores := rfl
@[simp] theorem State.onSlot_tiles (s : State) (n : Nat) (f : Slot → Slot) : (s.onSlot n f).tiles = s.tiles := rfl
@[simp] theorem State.onSlot_ctxs (s : State) (n : Nat) (f : Slot → Slot) : (s.onSlot n f).ctxs = s.ctxs := rfl
@[simp] theorem State.onSlot_groups (s : State) (n : Nat) (f : Slot → Slot) : (s.onSlot n f).groups = s.groups := rfl
@[simp] theorem State.onSlot_nextGroup (s : State) (n : Nat) (f : Slot → Slot) : (s.onSlot n f).nextGroup = s.nextGroup := rfl
@[simp] theorem State.onSlot_sets (s : State) (n : Nat) (f : Slot → Slot) : (s.onSlot n f).sets = s.sets := rfl
@[simp] theorem State.onSlot_queues (s : State) (n : Nat) (f : Slot → Slot) : (s.onSlot n f).queues = s.queues := rfl
@[simp] theorem State.onSlot_q0journal (s : State) (n : Nat) (f : Slot → Slot) : (s.onSlot n f).q0journal = s.q0journal := rfl
@[simp] theorem State.onSlot_q0jhead (s : State) (n : Nat) (f : Slot → Slot) : (s.onSlot n f).q0jhead = s.q0jhead := rfl
@[simp] theorem State.onSlot_journalDue (s : State) (n : Nat) (f : Slot → Slot) : (s.onSlot n f).journalDue = s.journalDue := rfl
@[simp] theorem State.onSlot_windows (s : State) (n : Nat) (f : Slot → Slot) : (s.onSlot n f).windows = s.windows := rfl
@[simp] theorem State.onSlot_ports (s : State) (n : Nat) (f : Slot → Slot) : (s.onSlot n f).ports = s.ports := rfl
@[simp] theorem State.onSlot_host (s : State) (n : Nat) (f : Slot → Slot) : (s.onSlot n f).host = s.host := rfl
@[simp] theorem State.onSlot_tap (s : State) (n : Nat) (f : Slot → Slot) : (s.onSlot n f).tap = s.tap := rfl
@[simp] theorem State.onSlot_hostFail (s : State) (n : Nat) (f : Slot → Slot) : (s.onSlot n f).hostFail = s.hostFail := rfl

/-! ## State.onMe -/

@[simp] theorem State.onMe_clock (s : State) (f : Slot → Slot) : (s.onMe f).clock = s.clock := rfl
@[simp] theorem State.onMe_turn (s : State) (f : Slot → Slot) : (s.onMe f).turn = s.turn := rfl
@[simp] theorem State.onMe_agent (s : State) (f : Slot → Slot) : (s.onMe f).agent = s.agent := rfl
@[simp] theorem State.onMe_inputs (s : State) (f : Slot → Slot) : (s.onMe f).inputs = s.inputs := rfl
@[simp] theorem State.onMe_freeCtr (s : State) (f : Slot → Slot) : (s.onMe f).freeCtr = s.freeCtr := rfl
@[simp] theorem State.onMe_nextTid (s : State) (f : Slot → Slot) : (s.onMe f).nextTid = s.nextTid := rfl
@[simp] theorem State.onMe_freeze (s : State) (f : Slot → Slot) : (s.onMe f).freeze = s.freeze := rfl
@[simp] theorem State.onMe_pkg (s : State) (f : Slot → Slot) : (s.onMe f).pkg = s.pkg := rfl
@[simp] theorem State.onMe_svec (s : State) (f : Slot → Slot) : (s.onMe f).svec = s.svec := rfl
@[simp] theorem State.onMe_qepoch (s : State) (f : Slot → Slot) : (s.onMe f).qepoch = s.qepoch := rfl
@[simp] theorem State.onMe_mem (s : State) (f : Slot → Slot) : (s.onMe f).mem = s.mem := rfl
@[simp] theorem State.onMe_feEmpty (s : State) (f : Slot → Slot) : (s.onMe f).feEmpty = s.feEmpty := rfl
@[simp] theorem State.onMe_badData (s : State) (f : Slot → Slot) : (s.onMe f).badData = s.badData := rfl
@[simp] theorem State.onMe_badMeta (s : State) (f : Slot → Slot) : (s.onMe f).badMeta = s.badMeta := rfl
@[simp] theorem State.onMe_lines (s : State) (f : Slot → Slot) : (s.onMe f).lines = s.lines := rfl
@[simp] theorem State.onMe_dirty (s : State) (f : Slot → Slot) : (s.onMe f).dirty = s.dirty := rfl
@[simp] theorem State.onMe_tlb (s : State) (f : Slot → Slot) : (s.onMe f).tlb = s.tlb := rfl
@[simp] theorem State.onMe_walks (s : State) (f : Slot → Slot) : (s.onMe f).walks = s.walks := rfl
@[simp] theorem State.onMe_faulted (s : State) (f : Slot → Slot) : (s.onMe f).faulted = s.faulted := rfl
@[simp] theorem State.onMe_cores (s : State) (f : Slot → Slot) : (s.onMe f).cores = s.cores := rfl
@[simp] theorem State.onMe_tiles (s : State) (f : Slot → Slot) : (s.onMe f).tiles = s.tiles := rfl
@[simp] theorem State.onMe_ctxs (s : State) (f : Slot → Slot) : (s.onMe f).ctxs = s.ctxs := rfl
@[simp] theorem State.onMe_groups (s : State) (f : Slot → Slot) : (s.onMe f).groups = s.groups := rfl
@[simp] theorem State.onMe_nextGroup (s : State) (f : Slot → Slot) : (s.onMe f).nextGroup = s.nextGroup := rfl
@[simp] theorem State.onMe_sets (s : State) (f : Slot → Slot) : (s.onMe f).sets = s.sets := rfl
@[simp] theorem State.onMe_queues (s : State) (f : Slot → Slot) : (s.onMe f).queues = s.queues := rfl
@[simp] theorem State.onMe_q0journal (s : State) (f : Slot → Slot) : (s.onMe f).q0journal = s.q0journal := rfl
@[simp] theorem State.onMe_q0jhead (s : State) (f : Slot → Slot) : (s.onMe f).q0jhead = s.q0jhead := rfl
@[simp] theorem State.onMe_journalDue (s : State) (f : Slot → Slot) : (s.onMe f).journalDue = s.journalDue := rfl
@[simp] theorem State.onMe_windows (s : State) (f : Slot → Slot) : (s.onMe f).windows = s.windows := rfl
@[simp] theorem State.onMe_ports (s : State) (f : Slot → Slot) : (s.onMe f).ports = s.ports := rfl
@[simp] theorem State.onMe_host (s : State) (f : Slot → Slot) : (s.onMe f).host = s.host := rfl
@[simp] theorem State.onMe_tap (s : State) (f : Slot → Slot) : (s.onMe f).tap = s.tap := rfl
@[simp] theorem State.onMe_hostFail (s : State) (f : Slot → Slot) : (s.onMe f).hostFail = s.hostFail := rfl

/-! ## State.onCore -/

@[simp] theorem State.onCore_clock (s : State) (c : Nat) (f : Core → Core) : (s.onCore c f).clock = s.clock := rfl
@[simp] theorem State.onCore_turn (s : State) (c : Nat) (f : Core → Core) : (s.onCore c f).turn = s.turn := rfl
@[simp] theorem State.onCore_agent (s : State) (c : Nat) (f : Core → Core) : (s.onCore c f).agent = s.agent := rfl
@[simp] theorem State.onCore_inputs (s : State) (c : Nat) (f : Core → Core) : (s.onCore c f).inputs = s.inputs := rfl
@[simp] theorem State.onCore_freeCtr (s : State) (c : Nat) (f : Core → Core) : (s.onCore c f).freeCtr = s.freeCtr := rfl
@[simp] theorem State.onCore_nextTid (s : State) (c : Nat) (f : Core → Core) : (s.onCore c f).nextTid = s.nextTid := rfl
@[simp] theorem State.onCore_freeze (s : State) (c : Nat) (f : Core → Core) : (s.onCore c f).freeze = s.freeze := rfl
@[simp] theorem State.onCore_pkg (s : State) (c : Nat) (f : Core → Core) : (s.onCore c f).pkg = s.pkg := rfl
@[simp] theorem State.onCore_svec (s : State) (c : Nat) (f : Core → Core) : (s.onCore c f).svec = s.svec := rfl
@[simp] theorem State.onCore_qepoch (s : State) (c : Nat) (f : Core → Core) : (s.onCore c f).qepoch = s.qepoch := rfl
@[simp] theorem State.onCore_mem (s : State) (c : Nat) (f : Core → Core) : (s.onCore c f).mem = s.mem := rfl
@[simp] theorem State.onCore_feEmpty (s : State) (c : Nat) (f : Core → Core) : (s.onCore c f).feEmpty = s.feEmpty := rfl
@[simp] theorem State.onCore_badData (s : State) (c : Nat) (f : Core → Core) : (s.onCore c f).badData = s.badData := rfl
@[simp] theorem State.onCore_badMeta (s : State) (c : Nat) (f : Core → Core) : (s.onCore c f).badMeta = s.badMeta := rfl
@[simp] theorem State.onCore_lines (s : State) (c : Nat) (f : Core → Core) : (s.onCore c f).lines = s.lines := rfl
@[simp] theorem State.onCore_dirty (s : State) (c : Nat) (f : Core → Core) : (s.onCore c f).dirty = s.dirty := rfl
@[simp] theorem State.onCore_tlb (s : State) (c : Nat) (f : Core → Core) : (s.onCore c f).tlb = s.tlb := rfl
@[simp] theorem State.onCore_walks (s : State) (c : Nat) (f : Core → Core) : (s.onCore c f).walks = s.walks := rfl
@[simp] theorem State.onCore_faulted (s : State) (c : Nat) (f : Core → Core) : (s.onCore c f).faulted = s.faulted := rfl
@[simp] theorem State.onCore_slots (s : State) (c : Nat) (f : Core → Core) : (s.onCore c f).slots = s.slots := rfl
@[simp] theorem State.onCore_tiles (s : State) (c : Nat) (f : Core → Core) : (s.onCore c f).tiles = s.tiles := rfl
@[simp] theorem State.onCore_ctxs (s : State) (c : Nat) (f : Core → Core) : (s.onCore c f).ctxs = s.ctxs := rfl
@[simp] theorem State.onCore_groups (s : State) (c : Nat) (f : Core → Core) : (s.onCore c f).groups = s.groups := rfl
@[simp] theorem State.onCore_nextGroup (s : State) (c : Nat) (f : Core → Core) : (s.onCore c f).nextGroup = s.nextGroup := rfl
@[simp] theorem State.onCore_sets (s : State) (c : Nat) (f : Core → Core) : (s.onCore c f).sets = s.sets := rfl
@[simp] theorem State.onCore_queues (s : State) (c : Nat) (f : Core → Core) : (s.onCore c f).queues = s.queues := rfl
@[simp] theorem State.onCore_q0journal (s : State) (c : Nat) (f : Core → Core) : (s.onCore c f).q0journal = s.q0journal := rfl
@[simp] theorem State.onCore_q0jhead (s : State) (c : Nat) (f : Core → Core) : (s.onCore c f).q0jhead = s.q0jhead := rfl
@[simp] theorem State.onCore_journalDue (s : State) (c : Nat) (f : Core → Core) : (s.onCore c f).journalDue = s.journalDue := rfl
@[simp] theorem State.onCore_windows (s : State) (c : Nat) (f : Core → Core) : (s.onCore c f).windows = s.windows := rfl
@[simp] theorem State.onCore_ports (s : State) (c : Nat) (f : Core → Core) : (s.onCore c f).ports = s.ports := rfl
@[simp] theorem State.onCore_host (s : State) (c : Nat) (f : Core → Core) : (s.onCore c f).host = s.host := rfl
@[simp] theorem State.onCore_tap (s : State) (c : Nat) (f : Core → Core) : (s.onCore c f).tap = s.tap := rfl
@[simp] theorem State.onCore_hostFail (s : State) (c : Nat) (f : Core → Core) : (s.onCore c f).hostFail = s.hostFail := rfl

/-! ## State.onMyCore -/

@[simp] theorem State.onMyCore_clock (s : State) (f : Core → Core) : (s.onMyCore f).clock = s.clock := rfl
@[simp] theorem State.onMyCore_turn (s : State) (f : Core → Core) : (s.onMyCore f).turn = s.turn := rfl
@[simp] theorem State.onMyCore_agent (s : State) (f : Core → Core) : (s.onMyCore f).agent = s.agent := rfl
@[simp] theorem State.onMyCore_inputs (s : State) (f : Core → Core) : (s.onMyCore f).inputs = s.inputs := rfl
@[simp] theorem State.onMyCore_freeCtr (s : State) (f : Core → Core) : (s.onMyCore f).freeCtr = s.freeCtr := rfl
@[simp] theorem State.onMyCore_nextTid (s : State) (f : Core → Core) : (s.onMyCore f).nextTid = s.nextTid := rfl
@[simp] theorem State.onMyCore_freeze (s : State) (f : Core → Core) : (s.onMyCore f).freeze = s.freeze := rfl
@[simp] theorem State.onMyCore_pkg (s : State) (f : Core → Core) : (s.onMyCore f).pkg = s.pkg := rfl
@[simp] theorem State.onMyCore_svec (s : State) (f : Core → Core) : (s.onMyCore f).svec = s.svec := rfl
@[simp] theorem State.onMyCore_qepoch (s : State) (f : Core → Core) : (s.onMyCore f).qepoch = s.qepoch := rfl
@[simp] theorem State.onMyCore_mem (s : State) (f : Core → Core) : (s.onMyCore f).mem = s.mem := rfl
@[simp] theorem State.onMyCore_feEmpty (s : State) (f : Core → Core) : (s.onMyCore f).feEmpty = s.feEmpty := rfl
@[simp] theorem State.onMyCore_badData (s : State) (f : Core → Core) : (s.onMyCore f).badData = s.badData := rfl
@[simp] theorem State.onMyCore_badMeta (s : State) (f : Core → Core) : (s.onMyCore f).badMeta = s.badMeta := rfl
@[simp] theorem State.onMyCore_lines (s : State) (f : Core → Core) : (s.onMyCore f).lines = s.lines := rfl
@[simp] theorem State.onMyCore_dirty (s : State) (f : Core → Core) : (s.onMyCore f).dirty = s.dirty := rfl
@[simp] theorem State.onMyCore_tlb (s : State) (f : Core → Core) : (s.onMyCore f).tlb = s.tlb := rfl
@[simp] theorem State.onMyCore_walks (s : State) (f : Core → Core) : (s.onMyCore f).walks = s.walks := rfl
@[simp] theorem State.onMyCore_faulted (s : State) (f : Core → Core) : (s.onMyCore f).faulted = s.faulted := rfl
@[simp] theorem State.onMyCore_slots (s : State) (f : Core → Core) : (s.onMyCore f).slots = s.slots := rfl
@[simp] theorem State.onMyCore_tiles (s : State) (f : Core → Core) : (s.onMyCore f).tiles = s.tiles := rfl
@[simp] theorem State.onMyCore_ctxs (s : State) (f : Core → Core) : (s.onMyCore f).ctxs = s.ctxs := rfl
@[simp] theorem State.onMyCore_groups (s : State) (f : Core → Core) : (s.onMyCore f).groups = s.groups := rfl
@[simp] theorem State.onMyCore_nextGroup (s : State) (f : Core → Core) : (s.onMyCore f).nextGroup = s.nextGroup := rfl
@[simp] theorem State.onMyCore_sets (s : State) (f : Core → Core) : (s.onMyCore f).sets = s.sets := rfl
@[simp] theorem State.onMyCore_queues (s : State) (f : Core → Core) : (s.onMyCore f).queues = s.queues := rfl
@[simp] theorem State.onMyCore_q0journal (s : State) (f : Core → Core) : (s.onMyCore f).q0journal = s.q0journal := rfl
@[simp] theorem State.onMyCore_q0jhead (s : State) (f : Core → Core) : (s.onMyCore f).q0jhead = s.q0jhead := rfl
@[simp] theorem State.onMyCore_journalDue (s : State) (f : Core → Core) : (s.onMyCore f).journalDue = s.journalDue := rfl
@[simp] theorem State.onMyCore_windows (s : State) (f : Core → Core) : (s.onMyCore f).windows = s.windows := rfl
@[simp] theorem State.onMyCore_ports (s : State) (f : Core → Core) : (s.onMyCore f).ports = s.ports := rfl
@[simp] theorem State.onMyCore_host (s : State) (f : Core → Core) : (s.onMyCore f).host = s.host := rfl
@[simp] theorem State.onMyCore_tap (s : State) (f : Core → Core) : (s.onMyCore f).tap = s.tap := rfl
@[simp] theorem State.onMyCore_hostFail (s : State) (f : Core → Core) : (s.onMyCore f).hostFail = s.hostFail := rfl

/-! ## State.onTile -/

@[simp] theorem State.onTile_clock (s : State) (t : Nat) (f : Tile → Tile) : (s.onTile t f).clock = s.clock := rfl
@[simp] theorem State.onTile_turn (s : State) (t : Nat) (f : Tile → Tile) : (s.onTile t f).turn = s.turn := rfl
@[simp] theorem State.onTile_agent (s : State) (t : Nat) (f : Tile → Tile) : (s.onTile t f).agent = s.agent := rfl
@[simp] theorem State.onTile_inputs (s : State) (t : Nat) (f : Tile → Tile) : (s.onTile t f).inputs = s.inputs := rfl
@[simp] theorem State.onTile_freeCtr (s : State) (t : Nat) (f : Tile → Tile) : (s.onTile t f).freeCtr = s.freeCtr := rfl
@[simp] theorem State.onTile_nextTid (s : State) (t : Nat) (f : Tile → Tile) : (s.onTile t f).nextTid = s.nextTid := rfl
@[simp] theorem State.onTile_freeze (s : State) (t : Nat) (f : Tile → Tile) : (s.onTile t f).freeze = s.freeze := rfl
@[simp] theorem State.onTile_pkg (s : State) (t : Nat) (f : Tile → Tile) : (s.onTile t f).pkg = s.pkg := rfl
@[simp] theorem State.onTile_svec (s : State) (t : Nat) (f : Tile → Tile) : (s.onTile t f).svec = s.svec := rfl
@[simp] theorem State.onTile_qepoch (s : State) (t : Nat) (f : Tile → Tile) : (s.onTile t f).qepoch = s.qepoch := rfl
@[simp] theorem State.onTile_mem (s : State) (t : Nat) (f : Tile → Tile) : (s.onTile t f).mem = s.mem := rfl
@[simp] theorem State.onTile_feEmpty (s : State) (t : Nat) (f : Tile → Tile) : (s.onTile t f).feEmpty = s.feEmpty := rfl
@[simp] theorem State.onTile_badData (s : State) (t : Nat) (f : Tile → Tile) : (s.onTile t f).badData = s.badData := rfl
@[simp] theorem State.onTile_badMeta (s : State) (t : Nat) (f : Tile → Tile) : (s.onTile t f).badMeta = s.badMeta := rfl
@[simp] theorem State.onTile_lines (s : State) (t : Nat) (f : Tile → Tile) : (s.onTile t f).lines = s.lines := rfl
@[simp] theorem State.onTile_dirty (s : State) (t : Nat) (f : Tile → Tile) : (s.onTile t f).dirty = s.dirty := rfl
@[simp] theorem State.onTile_tlb (s : State) (t : Nat) (f : Tile → Tile) : (s.onTile t f).tlb = s.tlb := rfl
@[simp] theorem State.onTile_walks (s : State) (t : Nat) (f : Tile → Tile) : (s.onTile t f).walks = s.walks := rfl
@[simp] theorem State.onTile_faulted (s : State) (t : Nat) (f : Tile → Tile) : (s.onTile t f).faulted = s.faulted := rfl
@[simp] theorem State.onTile_slots (s : State) (t : Nat) (f : Tile → Tile) : (s.onTile t f).slots = s.slots := rfl
@[simp] theorem State.onTile_cores (s : State) (t : Nat) (f : Tile → Tile) : (s.onTile t f).cores = s.cores := rfl
@[simp] theorem State.onTile_ctxs (s : State) (t : Nat) (f : Tile → Tile) : (s.onTile t f).ctxs = s.ctxs := rfl
@[simp] theorem State.onTile_groups (s : State) (t : Nat) (f : Tile → Tile) : (s.onTile t f).groups = s.groups := rfl
@[simp] theorem State.onTile_nextGroup (s : State) (t : Nat) (f : Tile → Tile) : (s.onTile t f).nextGroup = s.nextGroup := rfl
@[simp] theorem State.onTile_sets (s : State) (t : Nat) (f : Tile → Tile) : (s.onTile t f).sets = s.sets := rfl
@[simp] theorem State.onTile_queues (s : State) (t : Nat) (f : Tile → Tile) : (s.onTile t f).queues = s.queues := rfl
@[simp] theorem State.onTile_q0journal (s : State) (t : Nat) (f : Tile → Tile) : (s.onTile t f).q0journal = s.q0journal := rfl
@[simp] theorem State.onTile_q0jhead (s : State) (t : Nat) (f : Tile → Tile) : (s.onTile t f).q0jhead = s.q0jhead := rfl
@[simp] theorem State.onTile_journalDue (s : State) (t : Nat) (f : Tile → Tile) : (s.onTile t f).journalDue = s.journalDue := rfl
@[simp] theorem State.onTile_windows (s : State) (t : Nat) (f : Tile → Tile) : (s.onTile t f).windows = s.windows := rfl
@[simp] theorem State.onTile_ports (s : State) (t : Nat) (f : Tile → Tile) : (s.onTile t f).ports = s.ports := rfl
@[simp] theorem State.onTile_host (s : State) (t : Nat) (f : Tile → Tile) : (s.onTile t f).host = s.host := rfl
@[simp] theorem State.onTile_tap (s : State) (t : Nat) (f : Tile → Tile) : (s.onTile t f).tap = s.tap := rfl
@[simp] theorem State.onTile_hostFail (s : State) (t : Nat) (f : Tile → Tile) : (s.onTile t f).hostFail = s.hostFail := rfl

/-! ## State.onCrook -/

@[simp] theorem State.onCrook_clock (s : State) (t : Nat) (f : Crook → Crook) : (s.onCrook t f).clock = s.clock := rfl
@[simp] theorem State.onCrook_turn (s : State) (t : Nat) (f : Crook → Crook) : (s.onCrook t f).turn = s.turn := rfl
@[simp] theorem State.onCrook_agent (s : State) (t : Nat) (f : Crook → Crook) : (s.onCrook t f).agent = s.agent := rfl
@[simp] theorem State.onCrook_inputs (s : State) (t : Nat) (f : Crook → Crook) : (s.onCrook t f).inputs = s.inputs := rfl
@[simp] theorem State.onCrook_freeCtr (s : State) (t : Nat) (f : Crook → Crook) : (s.onCrook t f).freeCtr = s.freeCtr := rfl
@[simp] theorem State.onCrook_nextTid (s : State) (t : Nat) (f : Crook → Crook) : (s.onCrook t f).nextTid = s.nextTid := rfl
@[simp] theorem State.onCrook_freeze (s : State) (t : Nat) (f : Crook → Crook) : (s.onCrook t f).freeze = s.freeze := rfl
@[simp] theorem State.onCrook_pkg (s : State) (t : Nat) (f : Crook → Crook) : (s.onCrook t f).pkg = s.pkg := rfl
@[simp] theorem State.onCrook_svec (s : State) (t : Nat) (f : Crook → Crook) : (s.onCrook t f).svec = s.svec := rfl
@[simp] theorem State.onCrook_qepoch (s : State) (t : Nat) (f : Crook → Crook) : (s.onCrook t f).qepoch = s.qepoch := rfl
@[simp] theorem State.onCrook_mem (s : State) (t : Nat) (f : Crook → Crook) : (s.onCrook t f).mem = s.mem := rfl
@[simp] theorem State.onCrook_feEmpty (s : State) (t : Nat) (f : Crook → Crook) : (s.onCrook t f).feEmpty = s.feEmpty := rfl
@[simp] theorem State.onCrook_badData (s : State) (t : Nat) (f : Crook → Crook) : (s.onCrook t f).badData = s.badData := rfl
@[simp] theorem State.onCrook_badMeta (s : State) (t : Nat) (f : Crook → Crook) : (s.onCrook t f).badMeta = s.badMeta := rfl
@[simp] theorem State.onCrook_lines (s : State) (t : Nat) (f : Crook → Crook) : (s.onCrook t f).lines = s.lines := rfl
@[simp] theorem State.onCrook_dirty (s : State) (t : Nat) (f : Crook → Crook) : (s.onCrook t f).dirty = s.dirty := rfl
@[simp] theorem State.onCrook_tlb (s : State) (t : Nat) (f : Crook → Crook) : (s.onCrook t f).tlb = s.tlb := rfl
@[simp] theorem State.onCrook_walks (s : State) (t : Nat) (f : Crook → Crook) : (s.onCrook t f).walks = s.walks := rfl
@[simp] theorem State.onCrook_faulted (s : State) (t : Nat) (f : Crook → Crook) : (s.onCrook t f).faulted = s.faulted := rfl
@[simp] theorem State.onCrook_slots (s : State) (t : Nat) (f : Crook → Crook) : (s.onCrook t f).slots = s.slots := rfl
@[simp] theorem State.onCrook_cores (s : State) (t : Nat) (f : Crook → Crook) : (s.onCrook t f).cores = s.cores := rfl
@[simp] theorem State.onCrook_ctxs (s : State) (t : Nat) (f : Crook → Crook) : (s.onCrook t f).ctxs = s.ctxs := rfl
@[simp] theorem State.onCrook_groups (s : State) (t : Nat) (f : Crook → Crook) : (s.onCrook t f).groups = s.groups := rfl
@[simp] theorem State.onCrook_nextGroup (s : State) (t : Nat) (f : Crook → Crook) : (s.onCrook t f).nextGroup = s.nextGroup := rfl
@[simp] theorem State.onCrook_sets (s : State) (t : Nat) (f : Crook → Crook) : (s.onCrook t f).sets = s.sets := rfl
@[simp] theorem State.onCrook_queues (s : State) (t : Nat) (f : Crook → Crook) : (s.onCrook t f).queues = s.queues := rfl
@[simp] theorem State.onCrook_q0journal (s : State) (t : Nat) (f : Crook → Crook) : (s.onCrook t f).q0journal = s.q0journal := rfl
@[simp] theorem State.onCrook_q0jhead (s : State) (t : Nat) (f : Crook → Crook) : (s.onCrook t f).q0jhead = s.q0jhead := rfl
@[simp] theorem State.onCrook_journalDue (s : State) (t : Nat) (f : Crook → Crook) : (s.onCrook t f).journalDue = s.journalDue := rfl
@[simp] theorem State.onCrook_windows (s : State) (t : Nat) (f : Crook → Crook) : (s.onCrook t f).windows = s.windows := rfl
@[simp] theorem State.onCrook_ports (s : State) (t : Nat) (f : Crook → Crook) : (s.onCrook t f).ports = s.ports := rfl
@[simp] theorem State.onCrook_host (s : State) (t : Nat) (f : Crook → Crook) : (s.onCrook t f).host = s.host := rfl
@[simp] theorem State.onCrook_tap (s : State) (t : Nat) (f : Crook → Crook) : (s.onCrook t f).tap = s.tap := rfl
@[simp] theorem State.onCrook_hostFail (s : State) (t : Nat) (f : Crook → Crook) : (s.onCrook t f).hostFail = s.hostFail := rfl

/-! ## State.onChan -/

@[simp] theorem State.onChan_clock (s : State) (t ch : Nat) (f : Channel → Channel) : (s.onChan t ch f).clock = s.clock := rfl
@[simp] theorem State.onChan_turn (s : State) (t ch : Nat) (f : Channel → Channel) : (s.onChan t ch f).turn = s.turn := rfl
@[simp] theorem State.onChan_agent (s : State) (t ch : Nat) (f : Channel → Channel) : (s.onChan t ch f).agent = s.agent := rfl
@[simp] theorem State.onChan_inputs (s : State) (t ch : Nat) (f : Channel → Channel) : (s.onChan t ch f).inputs = s.inputs := rfl
@[simp] theorem State.onChan_freeCtr (s : State) (t ch : Nat) (f : Channel → Channel) : (s.onChan t ch f).freeCtr = s.freeCtr := rfl
@[simp] theorem State.onChan_nextTid (s : State) (t ch : Nat) (f : Channel → Channel) : (s.onChan t ch f).nextTid = s.nextTid := rfl
@[simp] theorem State.onChan_freeze (s : State) (t ch : Nat) (f : Channel → Channel) : (s.onChan t ch f).freeze = s.freeze := rfl
@[simp] theorem State.onChan_pkg (s : State) (t ch : Nat) (f : Channel → Channel) : (s.onChan t ch f).pkg = s.pkg := rfl
@[simp] theorem State.onChan_svec (s : State) (t ch : Nat) (f : Channel → Channel) : (s.onChan t ch f).svec = s.svec := rfl
@[simp] theorem State.onChan_qepoch (s : State) (t ch : Nat) (f : Channel → Channel) : (s.onChan t ch f).qepoch = s.qepoch := rfl
@[simp] theorem State.onChan_mem (s : State) (t ch : Nat) (f : Channel → Channel) : (s.onChan t ch f).mem = s.mem := rfl
@[simp] theorem State.onChan_feEmpty (s : State) (t ch : Nat) (f : Channel → Channel) : (s.onChan t ch f).feEmpty = s.feEmpty := rfl
@[simp] theorem State.onChan_badData (s : State) (t ch : Nat) (f : Channel → Channel) : (s.onChan t ch f).badData = s.badData := rfl
@[simp] theorem State.onChan_badMeta (s : State) (t ch : Nat) (f : Channel → Channel) : (s.onChan t ch f).badMeta = s.badMeta := rfl
@[simp] theorem State.onChan_lines (s : State) (t ch : Nat) (f : Channel → Channel) : (s.onChan t ch f).lines = s.lines := rfl
@[simp] theorem State.onChan_dirty (s : State) (t ch : Nat) (f : Channel → Channel) : (s.onChan t ch f).dirty = s.dirty := rfl
@[simp] theorem State.onChan_tlb (s : State) (t ch : Nat) (f : Channel → Channel) : (s.onChan t ch f).tlb = s.tlb := rfl
@[simp] theorem State.onChan_walks (s : State) (t ch : Nat) (f : Channel → Channel) : (s.onChan t ch f).walks = s.walks := rfl
@[simp] theorem State.onChan_faulted (s : State) (t ch : Nat) (f : Channel → Channel) : (s.onChan t ch f).faulted = s.faulted := rfl
@[simp] theorem State.onChan_slots (s : State) (t ch : Nat) (f : Channel → Channel) : (s.onChan t ch f).slots = s.slots := rfl
@[simp] theorem State.onChan_cores (s : State) (t ch : Nat) (f : Channel → Channel) : (s.onChan t ch f).cores = s.cores := rfl
@[simp] theorem State.onChan_ctxs (s : State) (t ch : Nat) (f : Channel → Channel) : (s.onChan t ch f).ctxs = s.ctxs := rfl
@[simp] theorem State.onChan_groups (s : State) (t ch : Nat) (f : Channel → Channel) : (s.onChan t ch f).groups = s.groups := rfl
@[simp] theorem State.onChan_nextGroup (s : State) (t ch : Nat) (f : Channel → Channel) : (s.onChan t ch f).nextGroup = s.nextGroup := rfl
@[simp] theorem State.onChan_sets (s : State) (t ch : Nat) (f : Channel → Channel) : (s.onChan t ch f).sets = s.sets := rfl
@[simp] theorem State.onChan_queues (s : State) (t ch : Nat) (f : Channel → Channel) : (s.onChan t ch f).queues = s.queues := rfl
@[simp] theorem State.onChan_q0journal (s : State) (t ch : Nat) (f : Channel → Channel) : (s.onChan t ch f).q0journal = s.q0journal := rfl
@[simp] theorem State.onChan_q0jhead (s : State) (t ch : Nat) (f : Channel → Channel) : (s.onChan t ch f).q0jhead = s.q0jhead := rfl
@[simp] theorem State.onChan_journalDue (s : State) (t ch : Nat) (f : Channel → Channel) : (s.onChan t ch f).journalDue = s.journalDue := rfl
@[simp] theorem State.onChan_windows (s : State) (t ch : Nat) (f : Channel → Channel) : (s.onChan t ch f).windows = s.windows := rfl
@[simp] theorem State.onChan_ports (s : State) (t ch : Nat) (f : Channel → Channel) : (s.onChan t ch f).ports = s.ports := rfl
@[simp] theorem State.onChan_host (s : State) (t ch : Nat) (f : Channel → Channel) : (s.onChan t ch f).host = s.host := rfl
@[simp] theorem State.onChan_tap (s : State) (t ch : Nat) (f : Channel → Channel) : (s.onChan t ch f).tap = s.tap := rfl
@[simp] theorem State.onChan_hostFail (s : State) (t ch : Nat) (f : Channel → Channel) : (s.onChan t ch f).hostFail = s.hostFail := rfl

/-! ## State.onLane -/

@[simp] theorem State.onLane_clock (s : State) (l : Nat) (f : Lane → Lane) : (s.onLane l f).clock = s.clock := rfl
@[simp] theorem State.onLane_turn (s : State) (l : Nat) (f : Lane → Lane) : (s.onLane l f).turn = s.turn := rfl
@[simp] theorem State.onLane_agent (s : State) (l : Nat) (f : Lane → Lane) : (s.onLane l f).agent = s.agent := rfl
@[simp] theorem State.onLane_inputs (s : State) (l : Nat) (f : Lane → Lane) : (s.onLane l f).inputs = s.inputs := rfl
@[simp] theorem State.onLane_freeCtr (s : State) (l : Nat) (f : Lane → Lane) : (s.onLane l f).freeCtr = s.freeCtr := rfl
@[simp] theorem State.onLane_nextTid (s : State) (l : Nat) (f : Lane → Lane) : (s.onLane l f).nextTid = s.nextTid := rfl
@[simp] theorem State.onLane_freeze (s : State) (l : Nat) (f : Lane → Lane) : (s.onLane l f).freeze = s.freeze := rfl
@[simp] theorem State.onLane_pkg (s : State) (l : Nat) (f : Lane → Lane) : (s.onLane l f).pkg = s.pkg := rfl
@[simp] theorem State.onLane_svec (s : State) (l : Nat) (f : Lane → Lane) : (s.onLane l f).svec = s.svec := rfl
@[simp] theorem State.onLane_qepoch (s : State) (l : Nat) (f : Lane → Lane) : (s.onLane l f).qepoch = s.qepoch := rfl
@[simp] theorem State.onLane_mem (s : State) (l : Nat) (f : Lane → Lane) : (s.onLane l f).mem = s.mem := rfl
@[simp] theorem State.onLane_feEmpty (s : State) (l : Nat) (f : Lane → Lane) : (s.onLane l f).feEmpty = s.feEmpty := rfl
@[simp] theorem State.onLane_badData (s : State) (l : Nat) (f : Lane → Lane) : (s.onLane l f).badData = s.badData := rfl
@[simp] theorem State.onLane_badMeta (s : State) (l : Nat) (f : Lane → Lane) : (s.onLane l f).badMeta = s.badMeta := rfl
@[simp] theorem State.onLane_lines (s : State) (l : Nat) (f : Lane → Lane) : (s.onLane l f).lines = s.lines := rfl
@[simp] theorem State.onLane_dirty (s : State) (l : Nat) (f : Lane → Lane) : (s.onLane l f).dirty = s.dirty := rfl
@[simp] theorem State.onLane_tlb (s : State) (l : Nat) (f : Lane → Lane) : (s.onLane l f).tlb = s.tlb := rfl
@[simp] theorem State.onLane_walks (s : State) (l : Nat) (f : Lane → Lane) : (s.onLane l f).walks = s.walks := rfl
@[simp] theorem State.onLane_faulted (s : State) (l : Nat) (f : Lane → Lane) : (s.onLane l f).faulted = s.faulted := rfl
@[simp] theorem State.onLane_slots (s : State) (l : Nat) (f : Lane → Lane) : (s.onLane l f).slots = s.slots := rfl
@[simp] theorem State.onLane_tiles (s : State) (l : Nat) (f : Lane → Lane) : (s.onLane l f).tiles = s.tiles := rfl
@[simp] theorem State.onLane_ctxs (s : State) (l : Nat) (f : Lane → Lane) : (s.onLane l f).ctxs = s.ctxs := rfl
@[simp] theorem State.onLane_groups (s : State) (l : Nat) (f : Lane → Lane) : (s.onLane l f).groups = s.groups := rfl
@[simp] theorem State.onLane_nextGroup (s : State) (l : Nat) (f : Lane → Lane) : (s.onLane l f).nextGroup = s.nextGroup := rfl
@[simp] theorem State.onLane_sets (s : State) (l : Nat) (f : Lane → Lane) : (s.onLane l f).sets = s.sets := rfl
@[simp] theorem State.onLane_queues (s : State) (l : Nat) (f : Lane → Lane) : (s.onLane l f).queues = s.queues := rfl
@[simp] theorem State.onLane_q0journal (s : State) (l : Nat) (f : Lane → Lane) : (s.onLane l f).q0journal = s.q0journal := rfl
@[simp] theorem State.onLane_q0jhead (s : State) (l : Nat) (f : Lane → Lane) : (s.onLane l f).q0jhead = s.q0jhead := rfl
@[simp] theorem State.onLane_journalDue (s : State) (l : Nat) (f : Lane → Lane) : (s.onLane l f).journalDue = s.journalDue := rfl
@[simp] theorem State.onLane_windows (s : State) (l : Nat) (f : Lane → Lane) : (s.onLane l f).windows = s.windows := rfl
@[simp] theorem State.onLane_ports (s : State) (l : Nat) (f : Lane → Lane) : (s.onLane l f).ports = s.ports := rfl
@[simp] theorem State.onLane_host (s : State) (l : Nat) (f : Lane → Lane) : (s.onLane l f).host = s.host := rfl
@[simp] theorem State.onLane_tap (s : State) (l : Nat) (f : Lane → Lane) : (s.onLane l f).tap = s.tap := rfl
@[simp] theorem State.onLane_hostFail (s : State) (l : Nat) (f : Lane → Lane) : (s.onLane l f).hostFail = s.hostFail := rfl

/-! ## State.setCtx -/

@[simp] theorem State.setCtx_clock (s : State) (a : Nat) (c : Option Ctx) : (s.setCtx a c).clock = s.clock := rfl
@[simp] theorem State.setCtx_turn (s : State) (a : Nat) (c : Option Ctx) : (s.setCtx a c).turn = s.turn := rfl
@[simp] theorem State.setCtx_agent (s : State) (a : Nat) (c : Option Ctx) : (s.setCtx a c).agent = s.agent := rfl
@[simp] theorem State.setCtx_inputs (s : State) (a : Nat) (c : Option Ctx) : (s.setCtx a c).inputs = s.inputs := rfl
@[simp] theorem State.setCtx_freeCtr (s : State) (a : Nat) (c : Option Ctx) : (s.setCtx a c).freeCtr = s.freeCtr := rfl
@[simp] theorem State.setCtx_nextTid (s : State) (a : Nat) (c : Option Ctx) : (s.setCtx a c).nextTid = s.nextTid := rfl
@[simp] theorem State.setCtx_freeze (s : State) (a : Nat) (c : Option Ctx) : (s.setCtx a c).freeze = s.freeze := rfl
@[simp] theorem State.setCtx_pkg (s : State) (a : Nat) (c : Option Ctx) : (s.setCtx a c).pkg = s.pkg := rfl
@[simp] theorem State.setCtx_svec (s : State) (a : Nat) (c : Option Ctx) : (s.setCtx a c).svec = s.svec := rfl
@[simp] theorem State.setCtx_qepoch (s : State) (a : Nat) (c : Option Ctx) : (s.setCtx a c).qepoch = s.qepoch := rfl
@[simp] theorem State.setCtx_mem (s : State) (a : Nat) (c : Option Ctx) : (s.setCtx a c).mem = s.mem := rfl
@[simp] theorem State.setCtx_feEmpty (s : State) (a : Nat) (c : Option Ctx) : (s.setCtx a c).feEmpty = s.feEmpty := rfl
@[simp] theorem State.setCtx_badData (s : State) (a : Nat) (c : Option Ctx) : (s.setCtx a c).badData = s.badData := rfl
@[simp] theorem State.setCtx_badMeta (s : State) (a : Nat) (c : Option Ctx) : (s.setCtx a c).badMeta = s.badMeta := rfl
@[simp] theorem State.setCtx_lines (s : State) (a : Nat) (c : Option Ctx) : (s.setCtx a c).lines = s.lines := rfl
@[simp] theorem State.setCtx_dirty (s : State) (a : Nat) (c : Option Ctx) : (s.setCtx a c).dirty = s.dirty := rfl
@[simp] theorem State.setCtx_tlb (s : State) (a : Nat) (c : Option Ctx) : (s.setCtx a c).tlb = s.tlb := rfl
@[simp] theorem State.setCtx_walks (s : State) (a : Nat) (c : Option Ctx) : (s.setCtx a c).walks = s.walks := rfl
@[simp] theorem State.setCtx_faulted (s : State) (a : Nat) (c : Option Ctx) : (s.setCtx a c).faulted = s.faulted := rfl
@[simp] theorem State.setCtx_slots (s : State) (a : Nat) (c : Option Ctx) : (s.setCtx a c).slots = s.slots := rfl
@[simp] theorem State.setCtx_cores (s : State) (a : Nat) (c : Option Ctx) : (s.setCtx a c).cores = s.cores := rfl
@[simp] theorem State.setCtx_tiles (s : State) (a : Nat) (c : Option Ctx) : (s.setCtx a c).tiles = s.tiles := rfl
@[simp] theorem State.setCtx_groups (s : State) (a : Nat) (c : Option Ctx) : (s.setCtx a c).groups = s.groups := rfl
@[simp] theorem State.setCtx_nextGroup (s : State) (a : Nat) (c : Option Ctx) : (s.setCtx a c).nextGroup = s.nextGroup := rfl
@[simp] theorem State.setCtx_sets (s : State) (a : Nat) (c : Option Ctx) : (s.setCtx a c).sets = s.sets := rfl
@[simp] theorem State.setCtx_queues (s : State) (a : Nat) (c : Option Ctx) : (s.setCtx a c).queues = s.queues := rfl
@[simp] theorem State.setCtx_q0journal (s : State) (a : Nat) (c : Option Ctx) : (s.setCtx a c).q0journal = s.q0journal := rfl
@[simp] theorem State.setCtx_q0jhead (s : State) (a : Nat) (c : Option Ctx) : (s.setCtx a c).q0jhead = s.q0jhead := rfl
@[simp] theorem State.setCtx_journalDue (s : State) (a : Nat) (c : Option Ctx) : (s.setCtx a c).journalDue = s.journalDue := rfl
@[simp] theorem State.setCtx_windows (s : State) (a : Nat) (c : Option Ctx) : (s.setCtx a c).windows = s.windows := rfl
@[simp] theorem State.setCtx_ports (s : State) (a : Nat) (c : Option Ctx) : (s.setCtx a c).ports = s.ports := rfl
@[simp] theorem State.setCtx_host (s : State) (a : Nat) (c : Option Ctx) : (s.setCtx a c).host = s.host := rfl
@[simp] theorem State.setCtx_tap (s : State) (a : Nat) (c : Option Ctx) : (s.setCtx a c).tap = s.tap := rfl
@[simp] theorem State.setCtx_hostFail (s : State) (a : Nat) (c : Option Ctx) : (s.setCtx a c).hostFail = s.hostFail := rfl

/-! ## State.onCtx -/

@[simp] theorem State.onCtx_clock (s : State) (a : Nat) (f : Ctx → Ctx) : (s.onCtx a f).clock = s.clock := by unfold State.onCtx; split <;> rfl
@[simp] theorem State.onCtx_turn (s : State) (a : Nat) (f : Ctx → Ctx) : (s.onCtx a f).turn = s.turn := by unfold State.onCtx; split <;> rfl
@[simp] theorem State.onCtx_agent (s : State) (a : Nat) (f : Ctx → Ctx) : (s.onCtx a f).agent = s.agent := by unfold State.onCtx; split <;> rfl
@[simp] theorem State.onCtx_inputs (s : State) (a : Nat) (f : Ctx → Ctx) : (s.onCtx a f).inputs = s.inputs := by unfold State.onCtx; split <;> rfl
@[simp] theorem State.onCtx_freeCtr (s : State) (a : Nat) (f : Ctx → Ctx) : (s.onCtx a f).freeCtr = s.freeCtr := by unfold State.onCtx; split <;> rfl
@[simp] theorem State.onCtx_nextTid (s : State) (a : Nat) (f : Ctx → Ctx) : (s.onCtx a f).nextTid = s.nextTid := by unfold State.onCtx; split <;> rfl
@[simp] theorem State.onCtx_freeze (s : State) (a : Nat) (f : Ctx → Ctx) : (s.onCtx a f).freeze = s.freeze := by unfold State.onCtx; split <;> rfl
@[simp] theorem State.onCtx_pkg (s : State) (a : Nat) (f : Ctx → Ctx) : (s.onCtx a f).pkg = s.pkg := by unfold State.onCtx; split <;> rfl
@[simp] theorem State.onCtx_svec (s : State) (a : Nat) (f : Ctx → Ctx) : (s.onCtx a f).svec = s.svec := by unfold State.onCtx; split <;> rfl
@[simp] theorem State.onCtx_qepoch (s : State) (a : Nat) (f : Ctx → Ctx) : (s.onCtx a f).qepoch = s.qepoch := by unfold State.onCtx; split <;> rfl
@[simp] theorem State.onCtx_mem (s : State) (a : Nat) (f : Ctx → Ctx) : (s.onCtx a f).mem = s.mem := by unfold State.onCtx; split <;> rfl
@[simp] theorem State.onCtx_feEmpty (s : State) (a : Nat) (f : Ctx → Ctx) : (s.onCtx a f).feEmpty = s.feEmpty := by unfold State.onCtx; split <;> rfl
@[simp] theorem State.onCtx_badData (s : State) (a : Nat) (f : Ctx → Ctx) : (s.onCtx a f).badData = s.badData := by unfold State.onCtx; split <;> rfl
@[simp] theorem State.onCtx_badMeta (s : State) (a : Nat) (f : Ctx → Ctx) : (s.onCtx a f).badMeta = s.badMeta := by unfold State.onCtx; split <;> rfl
@[simp] theorem State.onCtx_lines (s : State) (a : Nat) (f : Ctx → Ctx) : (s.onCtx a f).lines = s.lines := by unfold State.onCtx; split <;> rfl
@[simp] theorem State.onCtx_dirty (s : State) (a : Nat) (f : Ctx → Ctx) : (s.onCtx a f).dirty = s.dirty := by unfold State.onCtx; split <;> rfl
@[simp] theorem State.onCtx_tlb (s : State) (a : Nat) (f : Ctx → Ctx) : (s.onCtx a f).tlb = s.tlb := by unfold State.onCtx; split <;> rfl
@[simp] theorem State.onCtx_walks (s : State) (a : Nat) (f : Ctx → Ctx) : (s.onCtx a f).walks = s.walks := by unfold State.onCtx; split <;> rfl
@[simp] theorem State.onCtx_faulted (s : State) (a : Nat) (f : Ctx → Ctx) : (s.onCtx a f).faulted = s.faulted := by unfold State.onCtx; split <;> rfl
@[simp] theorem State.onCtx_slots (s : State) (a : Nat) (f : Ctx → Ctx) : (s.onCtx a f).slots = s.slots := by unfold State.onCtx; split <;> rfl
@[simp] theorem State.onCtx_cores (s : State) (a : Nat) (f : Ctx → Ctx) : (s.onCtx a f).cores = s.cores := by unfold State.onCtx; split <;> rfl
@[simp] theorem State.onCtx_tiles (s : State) (a : Nat) (f : Ctx → Ctx) : (s.onCtx a f).tiles = s.tiles := by unfold State.onCtx; split <;> rfl
@[simp] theorem State.onCtx_groups (s : State) (a : Nat) (f : Ctx → Ctx) : (s.onCtx a f).groups = s.groups := by unfold State.onCtx; split <;> rfl
@[simp] theorem State.onCtx_nextGroup (s : State) (a : Nat) (f : Ctx → Ctx) : (s.onCtx a f).nextGroup = s.nextGroup := by unfold State.onCtx; split <;> rfl
@[simp] theorem State.onCtx_sets (s : State) (a : Nat) (f : Ctx → Ctx) : (s.onCtx a f).sets = s.sets := by unfold State.onCtx; split <;> rfl
@[simp] theorem State.onCtx_queues (s : State) (a : Nat) (f : Ctx → Ctx) : (s.onCtx a f).queues = s.queues := by unfold State.onCtx; split <;> rfl
@[simp] theorem State.onCtx_q0journal (s : State) (a : Nat) (f : Ctx → Ctx) : (s.onCtx a f).q0journal = s.q0journal := by unfold State.onCtx; split <;> rfl
@[simp] theorem State.onCtx_q0jhead (s : State) (a : Nat) (f : Ctx → Ctx) : (s.onCtx a f).q0jhead = s.q0jhead := by unfold State.onCtx; split <;> rfl
@[simp] theorem State.onCtx_journalDue (s : State) (a : Nat) (f : Ctx → Ctx) : (s.onCtx a f).journalDue = s.journalDue := by unfold State.onCtx; split <;> rfl
@[simp] theorem State.onCtx_windows (s : State) (a : Nat) (f : Ctx → Ctx) : (s.onCtx a f).windows = s.windows := by unfold State.onCtx; split <;> rfl
@[simp] theorem State.onCtx_ports (s : State) (a : Nat) (f : Ctx → Ctx) : (s.onCtx a f).ports = s.ports := by unfold State.onCtx; split <;> rfl
@[simp] theorem State.onCtx_host (s : State) (a : Nat) (f : Ctx → Ctx) : (s.onCtx a f).host = s.host := by unfold State.onCtx; split <;> rfl
@[simp] theorem State.onCtx_tap (s : State) (a : Nat) (f : Ctx → Ctx) : (s.onCtx a f).tap = s.tap := by unfold State.onCtx; split <;> rfl
@[simp] theorem State.onCtx_hostFail (s : State) (a : Nat) (f : Ctx → Ctx) : (s.onCtx a f).hostFail = s.hostFail := by unfold State.onCtx; split <;> rfl

/-! ## State.onGroup -/

@[simp] theorem State.onGroup_clock (s : State) (g : Nat) (f : Group → Group) : (s.onGroup g f).clock = s.clock := by unfold State.onGroup; split <;> rfl
@[simp] theorem State.onGroup_turn (s : State) (g : Nat) (f : Group → Group) : (s.onGroup g f).turn = s.turn := by unfold State.onGroup; split <;> rfl
@[simp] theorem State.onGroup_agent (s : State) (g : Nat) (f : Group → Group) : (s.onGroup g f).agent = s.agent := by unfold State.onGroup; split <;> rfl
@[simp] theorem State.onGroup_inputs (s : State) (g : Nat) (f : Group → Group) : (s.onGroup g f).inputs = s.inputs := by unfold State.onGroup; split <;> rfl
@[simp] theorem State.onGroup_freeCtr (s : State) (g : Nat) (f : Group → Group) : (s.onGroup g f).freeCtr = s.freeCtr := by unfold State.onGroup; split <;> rfl
@[simp] theorem State.onGroup_nextTid (s : State) (g : Nat) (f : Group → Group) : (s.onGroup g f).nextTid = s.nextTid := by unfold State.onGroup; split <;> rfl
@[simp] theorem State.onGroup_freeze (s : State) (g : Nat) (f : Group → Group) : (s.onGroup g f).freeze = s.freeze := by unfold State.onGroup; split <;> rfl
@[simp] theorem State.onGroup_pkg (s : State) (g : Nat) (f : Group → Group) : (s.onGroup g f).pkg = s.pkg := by unfold State.onGroup; split <;> rfl
@[simp] theorem State.onGroup_svec (s : State) (g : Nat) (f : Group → Group) : (s.onGroup g f).svec = s.svec := by unfold State.onGroup; split <;> rfl
@[simp] theorem State.onGroup_qepoch (s : State) (g : Nat) (f : Group → Group) : (s.onGroup g f).qepoch = s.qepoch := by unfold State.onGroup; split <;> rfl
@[simp] theorem State.onGroup_mem (s : State) (g : Nat) (f : Group → Group) : (s.onGroup g f).mem = s.mem := by unfold State.onGroup; split <;> rfl
@[simp] theorem State.onGroup_feEmpty (s : State) (g : Nat) (f : Group → Group) : (s.onGroup g f).feEmpty = s.feEmpty := by unfold State.onGroup; split <;> rfl
@[simp] theorem State.onGroup_badData (s : State) (g : Nat) (f : Group → Group) : (s.onGroup g f).badData = s.badData := by unfold State.onGroup; split <;> rfl
@[simp] theorem State.onGroup_badMeta (s : State) (g : Nat) (f : Group → Group) : (s.onGroup g f).badMeta = s.badMeta := by unfold State.onGroup; split <;> rfl
@[simp] theorem State.onGroup_lines (s : State) (g : Nat) (f : Group → Group) : (s.onGroup g f).lines = s.lines := by unfold State.onGroup; split <;> rfl
@[simp] theorem State.onGroup_dirty (s : State) (g : Nat) (f : Group → Group) : (s.onGroup g f).dirty = s.dirty := by unfold State.onGroup; split <;> rfl
@[simp] theorem State.onGroup_tlb (s : State) (g : Nat) (f : Group → Group) : (s.onGroup g f).tlb = s.tlb := by unfold State.onGroup; split <;> rfl
@[simp] theorem State.onGroup_walks (s : State) (g : Nat) (f : Group → Group) : (s.onGroup g f).walks = s.walks := by unfold State.onGroup; split <;> rfl
@[simp] theorem State.onGroup_faulted (s : State) (g : Nat) (f : Group → Group) : (s.onGroup g f).faulted = s.faulted := by unfold State.onGroup; split <;> rfl
@[simp] theorem State.onGroup_slots (s : State) (g : Nat) (f : Group → Group) : (s.onGroup g f).slots = s.slots := by unfold State.onGroup; split <;> rfl
@[simp] theorem State.onGroup_cores (s : State) (g : Nat) (f : Group → Group) : (s.onGroup g f).cores = s.cores := by unfold State.onGroup; split <;> rfl
@[simp] theorem State.onGroup_tiles (s : State) (g : Nat) (f : Group → Group) : (s.onGroup g f).tiles = s.tiles := by unfold State.onGroup; split <;> rfl
@[simp] theorem State.onGroup_ctxs (s : State) (g : Nat) (f : Group → Group) : (s.onGroup g f).ctxs = s.ctxs := by unfold State.onGroup; split <;> rfl
@[simp] theorem State.onGroup_nextGroup (s : State) (g : Nat) (f : Group → Group) : (s.onGroup g f).nextGroup = s.nextGroup := by unfold State.onGroup; split <;> rfl
@[simp] theorem State.onGroup_sets (s : State) (g : Nat) (f : Group → Group) : (s.onGroup g f).sets = s.sets := by unfold State.onGroup; split <;> rfl
@[simp] theorem State.onGroup_queues (s : State) (g : Nat) (f : Group → Group) : (s.onGroup g f).queues = s.queues := by unfold State.onGroup; split <;> rfl
@[simp] theorem State.onGroup_q0journal (s : State) (g : Nat) (f : Group → Group) : (s.onGroup g f).q0journal = s.q0journal := by unfold State.onGroup; split <;> rfl
@[simp] theorem State.onGroup_q0jhead (s : State) (g : Nat) (f : Group → Group) : (s.onGroup g f).q0jhead = s.q0jhead := by unfold State.onGroup; split <;> rfl
@[simp] theorem State.onGroup_journalDue (s : State) (g : Nat) (f : Group → Group) : (s.onGroup g f).journalDue = s.journalDue := by unfold State.onGroup; split <;> rfl
@[simp] theorem State.onGroup_windows (s : State) (g : Nat) (f : Group → Group) : (s.onGroup g f).windows = s.windows := by unfold State.onGroup; split <;> rfl
@[simp] theorem State.onGroup_ports (s : State) (g : Nat) (f : Group → Group) : (s.onGroup g f).ports = s.ports := by unfold State.onGroup; split <;> rfl
@[simp] theorem State.onGroup_host (s : State) (g : Nat) (f : Group → Group) : (s.onGroup g f).host = s.host := by unfold State.onGroup; split <;> rfl
@[simp] theorem State.onGroup_tap (s : State) (g : Nat) (f : Group → Group) : (s.onGroup g f).tap = s.tap := by unfold State.onGroup; split <;> rfl
@[simp] theorem State.onGroup_hostFail (s : State) (g : Nat) (f : Group → Group) : (s.onGroup g f).hostFail = s.hostFail := by unfold State.onGroup; split <;> rfl

/-! ## State.onTid -/

@[simp] theorem State.onTid_clock (s : State) (tid : Nat) (f : Slot → Slot) : (s.onTid tid f).clock = s.clock := rfl
@[simp] theorem State.onTid_turn (s : State) (tid : Nat) (f : Slot → Slot) : (s.onTid tid f).turn = s.turn := rfl
@[simp] theorem State.onTid_agent (s : State) (tid : Nat) (f : Slot → Slot) : (s.onTid tid f).agent = s.agent := rfl
@[simp] theorem State.onTid_inputs (s : State) (tid : Nat) (f : Slot → Slot) : (s.onTid tid f).inputs = s.inputs := rfl
@[simp] theorem State.onTid_freeCtr (s : State) (tid : Nat) (f : Slot → Slot) : (s.onTid tid f).freeCtr = s.freeCtr := rfl
@[simp] theorem State.onTid_nextTid (s : State) (tid : Nat) (f : Slot → Slot) : (s.onTid tid f).nextTid = s.nextTid := rfl
@[simp] theorem State.onTid_freeze (s : State) (tid : Nat) (f : Slot → Slot) : (s.onTid tid f).freeze = s.freeze := rfl
@[simp] theorem State.onTid_pkg (s : State) (tid : Nat) (f : Slot → Slot) : (s.onTid tid f).pkg = s.pkg := rfl
@[simp] theorem State.onTid_svec (s : State) (tid : Nat) (f : Slot → Slot) : (s.onTid tid f).svec = s.svec := rfl
@[simp] theorem State.onTid_qepoch (s : State) (tid : Nat) (f : Slot → Slot) : (s.onTid tid f).qepoch = s.qepoch := rfl
@[simp] theorem State.onTid_mem (s : State) (tid : Nat) (f : Slot → Slot) : (s.onTid tid f).mem = s.mem := rfl
@[simp] theorem State.onTid_feEmpty (s : State) (tid : Nat) (f : Slot → Slot) : (s.onTid tid f).feEmpty = s.feEmpty := rfl
@[simp] theorem State.onTid_badData (s : State) (tid : Nat) (f : Slot → Slot) : (s.onTid tid f).badData = s.badData := rfl
@[simp] theorem State.onTid_badMeta (s : State) (tid : Nat) (f : Slot → Slot) : (s.onTid tid f).badMeta = s.badMeta := rfl
@[simp] theorem State.onTid_lines (s : State) (tid : Nat) (f : Slot → Slot) : (s.onTid tid f).lines = s.lines := rfl
@[simp] theorem State.onTid_dirty (s : State) (tid : Nat) (f : Slot → Slot) : (s.onTid tid f).dirty = s.dirty := rfl
@[simp] theorem State.onTid_tlb (s : State) (tid : Nat) (f : Slot → Slot) : (s.onTid tid f).tlb = s.tlb := rfl
@[simp] theorem State.onTid_walks (s : State) (tid : Nat) (f : Slot → Slot) : (s.onTid tid f).walks = s.walks := rfl
@[simp] theorem State.onTid_faulted (s : State) (tid : Nat) (f : Slot → Slot) : (s.onTid tid f).faulted = s.faulted := rfl
@[simp] theorem State.onTid_cores (s : State) (tid : Nat) (f : Slot → Slot) : (s.onTid tid f).cores = s.cores := rfl
@[simp] theorem State.onTid_tiles (s : State) (tid : Nat) (f : Slot → Slot) : (s.onTid tid f).tiles = s.tiles := rfl
@[simp] theorem State.onTid_nextGroup (s : State) (tid : Nat) (f : Slot → Slot) : (s.onTid tid f).nextGroup = s.nextGroup := rfl
@[simp] theorem State.onTid_sets (s : State) (tid : Nat) (f : Slot → Slot) : (s.onTid tid f).sets = s.sets := rfl
@[simp] theorem State.onTid_queues (s : State) (tid : Nat) (f : Slot → Slot) : (s.onTid tid f).queues = s.queues := rfl
@[simp] theorem State.onTid_q0journal (s : State) (tid : Nat) (f : Slot → Slot) : (s.onTid tid f).q0journal = s.q0journal := rfl
@[simp] theorem State.onTid_q0jhead (s : State) (tid : Nat) (f : Slot → Slot) : (s.onTid tid f).q0jhead = s.q0jhead := rfl
@[simp] theorem State.onTid_journalDue (s : State) (tid : Nat) (f : Slot → Slot) : (s.onTid tid f).journalDue = s.journalDue := rfl
@[simp] theorem State.onTid_windows (s : State) (tid : Nat) (f : Slot → Slot) : (s.onTid tid f).windows = s.windows := rfl
@[simp] theorem State.onTid_ports (s : State) (tid : Nat) (f : Slot → Slot) : (s.onTid tid f).ports = s.ports := rfl
@[simp] theorem State.onTid_host (s : State) (tid : Nat) (f : Slot → Slot) : (s.onTid tid f).host = s.host := rfl
@[simp] theorem State.onTid_tap (s : State) (tid : Nat) (f : Slot → Slot) : (s.onTid tid f).tap = s.tap := rfl
@[simp] theorem State.onTid_hostFail (s : State) (tid : Nat) (f : Slot → Slot) : (s.onTid tid f).hostFail = s.hostFail := rfl

/-! ## State.onWin -/

@[simp] theorem State.onWin_clock (s : State) (w : Nat) (f : WinSlot → WinSlot) : (s.onWin w f).clock = s.clock := rfl
@[simp] theorem State.onWin_turn (s : State) (w : Nat) (f : WinSlot → WinSlot) : (s.onWin w f).turn = s.turn := rfl
@[simp] theorem State.onWin_agent (s : State) (w : Nat) (f : WinSlot → WinSlot) : (s.onWin w f).agent = s.agent := rfl
@[simp] theorem State.onWin_inputs (s : State) (w : Nat) (f : WinSlot → WinSlot) : (s.onWin w f).inputs = s.inputs := rfl
@[simp] theorem State.onWin_freeCtr (s : State) (w : Nat) (f : WinSlot → WinSlot) : (s.onWin w f).freeCtr = s.freeCtr := rfl
@[simp] theorem State.onWin_nextTid (s : State) (w : Nat) (f : WinSlot → WinSlot) : (s.onWin w f).nextTid = s.nextTid := rfl
@[simp] theorem State.onWin_freeze (s : State) (w : Nat) (f : WinSlot → WinSlot) : (s.onWin w f).freeze = s.freeze := rfl
@[simp] theorem State.onWin_pkg (s : State) (w : Nat) (f : WinSlot → WinSlot) : (s.onWin w f).pkg = s.pkg := rfl
@[simp] theorem State.onWin_svec (s : State) (w : Nat) (f : WinSlot → WinSlot) : (s.onWin w f).svec = s.svec := rfl
@[simp] theorem State.onWin_qepoch (s : State) (w : Nat) (f : WinSlot → WinSlot) : (s.onWin w f).qepoch = s.qepoch := rfl
@[simp] theorem State.onWin_mem (s : State) (w : Nat) (f : WinSlot → WinSlot) : (s.onWin w f).mem = s.mem := rfl
@[simp] theorem State.onWin_feEmpty (s : State) (w : Nat) (f : WinSlot → WinSlot) : (s.onWin w f).feEmpty = s.feEmpty := rfl
@[simp] theorem State.onWin_badData (s : State) (w : Nat) (f : WinSlot → WinSlot) : (s.onWin w f).badData = s.badData := rfl
@[simp] theorem State.onWin_badMeta (s : State) (w : Nat) (f : WinSlot → WinSlot) : (s.onWin w f).badMeta = s.badMeta := rfl
@[simp] theorem State.onWin_lines (s : State) (w : Nat) (f : WinSlot → WinSlot) : (s.onWin w f).lines = s.lines := rfl
@[simp] theorem State.onWin_dirty (s : State) (w : Nat) (f : WinSlot → WinSlot) : (s.onWin w f).dirty = s.dirty := rfl
@[simp] theorem State.onWin_tlb (s : State) (w : Nat) (f : WinSlot → WinSlot) : (s.onWin w f).tlb = s.tlb := rfl
@[simp] theorem State.onWin_walks (s : State) (w : Nat) (f : WinSlot → WinSlot) : (s.onWin w f).walks = s.walks := rfl
@[simp] theorem State.onWin_faulted (s : State) (w : Nat) (f : WinSlot → WinSlot) : (s.onWin w f).faulted = s.faulted := rfl
@[simp] theorem State.onWin_slots (s : State) (w : Nat) (f : WinSlot → WinSlot) : (s.onWin w f).slots = s.slots := rfl
@[simp] theorem State.onWin_cores (s : State) (w : Nat) (f : WinSlot → WinSlot) : (s.onWin w f).cores = s.cores := rfl
@[simp] theorem State.onWin_tiles (s : State) (w : Nat) (f : WinSlot → WinSlot) : (s.onWin w f).tiles = s.tiles := rfl
@[simp] theorem State.onWin_ctxs (s : State) (w : Nat) (f : WinSlot → WinSlot) : (s.onWin w f).ctxs = s.ctxs := rfl
@[simp] theorem State.onWin_groups (s : State) (w : Nat) (f : WinSlot → WinSlot) : (s.onWin w f).groups = s.groups := rfl
@[simp] theorem State.onWin_nextGroup (s : State) (w : Nat) (f : WinSlot → WinSlot) : (s.onWin w f).nextGroup = s.nextGroup := rfl
@[simp] theorem State.onWin_sets (s : State) (w : Nat) (f : WinSlot → WinSlot) : (s.onWin w f).sets = s.sets := rfl
@[simp] theorem State.onWin_queues (s : State) (w : Nat) (f : WinSlot → WinSlot) : (s.onWin w f).queues = s.queues := rfl
@[simp] theorem State.onWin_q0journal (s : State) (w : Nat) (f : WinSlot → WinSlot) : (s.onWin w f).q0journal = s.q0journal := rfl
@[simp] theorem State.onWin_q0jhead (s : State) (w : Nat) (f : WinSlot → WinSlot) : (s.onWin w f).q0jhead = s.q0jhead := rfl
@[simp] theorem State.onWin_journalDue (s : State) (w : Nat) (f : WinSlot → WinSlot) : (s.onWin w f).journalDue = s.journalDue := rfl
@[simp] theorem State.onWin_ports (s : State) (w : Nat) (f : WinSlot → WinSlot) : (s.onWin w f).ports = s.ports := rfl
@[simp] theorem State.onWin_host (s : State) (w : Nat) (f : WinSlot → WinSlot) : (s.onWin w f).host = s.host := rfl
@[simp] theorem State.onWin_tap (s : State) (w : Nat) (f : WinSlot → WinSlot) : (s.onWin w f).tap = s.tap := rfl
@[simp] theorem State.onWin_hostFail (s : State) (w : Nat) (f : WinSlot → WinSlot) : (s.onWin w f).hostFail = s.hostFail := rfl

/-! ## State.onPort -/

@[simp] theorem State.onPort_clock (s : State) (p : Nat) (f : Port → Port) : (s.onPort p f).clock = s.clock := rfl
@[simp] theorem State.onPort_turn (s : State) (p : Nat) (f : Port → Port) : (s.onPort p f).turn = s.turn := rfl
@[simp] theorem State.onPort_agent (s : State) (p : Nat) (f : Port → Port) : (s.onPort p f).agent = s.agent := rfl
@[simp] theorem State.onPort_inputs (s : State) (p : Nat) (f : Port → Port) : (s.onPort p f).inputs = s.inputs := rfl
@[simp] theorem State.onPort_freeCtr (s : State) (p : Nat) (f : Port → Port) : (s.onPort p f).freeCtr = s.freeCtr := rfl
@[simp] theorem State.onPort_nextTid (s : State) (p : Nat) (f : Port → Port) : (s.onPort p f).nextTid = s.nextTid := rfl
@[simp] theorem State.onPort_freeze (s : State) (p : Nat) (f : Port → Port) : (s.onPort p f).freeze = s.freeze := rfl
@[simp] theorem State.onPort_pkg (s : State) (p : Nat) (f : Port → Port) : (s.onPort p f).pkg = s.pkg := rfl
@[simp] theorem State.onPort_svec (s : State) (p : Nat) (f : Port → Port) : (s.onPort p f).svec = s.svec := rfl
@[simp] theorem State.onPort_qepoch (s : State) (p : Nat) (f : Port → Port) : (s.onPort p f).qepoch = s.qepoch := rfl
@[simp] theorem State.onPort_mem (s : State) (p : Nat) (f : Port → Port) : (s.onPort p f).mem = s.mem := rfl
@[simp] theorem State.onPort_feEmpty (s : State) (p : Nat) (f : Port → Port) : (s.onPort p f).feEmpty = s.feEmpty := rfl
@[simp] theorem State.onPort_badData (s : State) (p : Nat) (f : Port → Port) : (s.onPort p f).badData = s.badData := rfl
@[simp] theorem State.onPort_badMeta (s : State) (p : Nat) (f : Port → Port) : (s.onPort p f).badMeta = s.badMeta := rfl
@[simp] theorem State.onPort_lines (s : State) (p : Nat) (f : Port → Port) : (s.onPort p f).lines = s.lines := rfl
@[simp] theorem State.onPort_dirty (s : State) (p : Nat) (f : Port → Port) : (s.onPort p f).dirty = s.dirty := rfl
@[simp] theorem State.onPort_tlb (s : State) (p : Nat) (f : Port → Port) : (s.onPort p f).tlb = s.tlb := rfl
@[simp] theorem State.onPort_walks (s : State) (p : Nat) (f : Port → Port) : (s.onPort p f).walks = s.walks := rfl
@[simp] theorem State.onPort_faulted (s : State) (p : Nat) (f : Port → Port) : (s.onPort p f).faulted = s.faulted := rfl
@[simp] theorem State.onPort_slots (s : State) (p : Nat) (f : Port → Port) : (s.onPort p f).slots = s.slots := rfl
@[simp] theorem State.onPort_cores (s : State) (p : Nat) (f : Port → Port) : (s.onPort p f).cores = s.cores := rfl
@[simp] theorem State.onPort_tiles (s : State) (p : Nat) (f : Port → Port) : (s.onPort p f).tiles = s.tiles := rfl
@[simp] theorem State.onPort_ctxs (s : State) (p : Nat) (f : Port → Port) : (s.onPort p f).ctxs = s.ctxs := rfl
@[simp] theorem State.onPort_groups (s : State) (p : Nat) (f : Port → Port) : (s.onPort p f).groups = s.groups := rfl
@[simp] theorem State.onPort_nextGroup (s : State) (p : Nat) (f : Port → Port) : (s.onPort p f).nextGroup = s.nextGroup := rfl
@[simp] theorem State.onPort_sets (s : State) (p : Nat) (f : Port → Port) : (s.onPort p f).sets = s.sets := rfl
@[simp] theorem State.onPort_queues (s : State) (p : Nat) (f : Port → Port) : (s.onPort p f).queues = s.queues := rfl
@[simp] theorem State.onPort_q0journal (s : State) (p : Nat) (f : Port → Port) : (s.onPort p f).q0journal = s.q0journal := rfl
@[simp] theorem State.onPort_q0jhead (s : State) (p : Nat) (f : Port → Port) : (s.onPort p f).q0jhead = s.q0jhead := rfl
@[simp] theorem State.onPort_journalDue (s : State) (p : Nat) (f : Port → Port) : (s.onPort p f).journalDue = s.journalDue := rfl
@[simp] theorem State.onPort_windows (s : State) (p : Nat) (f : Port → Port) : (s.onPort p f).windows = s.windows := rfl
@[simp] theorem State.onPort_host (s : State) (p : Nat) (f : Port → Port) : (s.onPort p f).host = s.host := rfl
@[simp] theorem State.onPort_tap (s : State) (p : Nat) (f : Port → Port) : (s.onPort p f).tap = s.tap := rfl
@[simp] theorem State.onPort_hostFail (s : State) (p : Nat) (f : Port → Port) : (s.onPort p f).hostFail = s.hostFail := rfl

/-! ## State.onQueue -/

@[simp] theorem State.onQueue_clock (s : State) (q : Nat) (f : HQueue → HQueue) : (s.onQueue q f).clock = s.clock := rfl
@[simp] theorem State.onQueue_turn (s : State) (q : Nat) (f : HQueue → HQueue) : (s.onQueue q f).turn = s.turn := rfl
@[simp] theorem State.onQueue_agent (s : State) (q : Nat) (f : HQueue → HQueue) : (s.onQueue q f).agent = s.agent := rfl
@[simp] theorem State.onQueue_inputs (s : State) (q : Nat) (f : HQueue → HQueue) : (s.onQueue q f).inputs = s.inputs := rfl
@[simp] theorem State.onQueue_freeCtr (s : State) (q : Nat) (f : HQueue → HQueue) : (s.onQueue q f).freeCtr = s.freeCtr := rfl
@[simp] theorem State.onQueue_nextTid (s : State) (q : Nat) (f : HQueue → HQueue) : (s.onQueue q f).nextTid = s.nextTid := rfl
@[simp] theorem State.onQueue_freeze (s : State) (q : Nat) (f : HQueue → HQueue) : (s.onQueue q f).freeze = s.freeze := rfl
@[simp] theorem State.onQueue_pkg (s : State) (q : Nat) (f : HQueue → HQueue) : (s.onQueue q f).pkg = s.pkg := rfl
@[simp] theorem State.onQueue_svec (s : State) (q : Nat) (f : HQueue → HQueue) : (s.onQueue q f).svec = s.svec := rfl
@[simp] theorem State.onQueue_qepoch (s : State) (q : Nat) (f : HQueue → HQueue) : (s.onQueue q f).qepoch = s.qepoch := rfl
@[simp] theorem State.onQueue_mem (s : State) (q : Nat) (f : HQueue → HQueue) : (s.onQueue q f).mem = s.mem := rfl
@[simp] theorem State.onQueue_feEmpty (s : State) (q : Nat) (f : HQueue → HQueue) : (s.onQueue q f).feEmpty = s.feEmpty := rfl
@[simp] theorem State.onQueue_badData (s : State) (q : Nat) (f : HQueue → HQueue) : (s.onQueue q f).badData = s.badData := rfl
@[simp] theorem State.onQueue_badMeta (s : State) (q : Nat) (f : HQueue → HQueue) : (s.onQueue q f).badMeta = s.badMeta := rfl
@[simp] theorem State.onQueue_lines (s : State) (q : Nat) (f : HQueue → HQueue) : (s.onQueue q f).lines = s.lines := rfl
@[simp] theorem State.onQueue_dirty (s : State) (q : Nat) (f : HQueue → HQueue) : (s.onQueue q f).dirty = s.dirty := rfl
@[simp] theorem State.onQueue_tlb (s : State) (q : Nat) (f : HQueue → HQueue) : (s.onQueue q f).tlb = s.tlb := rfl
@[simp] theorem State.onQueue_walks (s : State) (q : Nat) (f : HQueue → HQueue) : (s.onQueue q f).walks = s.walks := rfl
@[simp] theorem State.onQueue_faulted (s : State) (q : Nat) (f : HQueue → HQueue) : (s.onQueue q f).faulted = s.faulted := rfl
@[simp] theorem State.onQueue_slots (s : State) (q : Nat) (f : HQueue → HQueue) : (s.onQueue q f).slots = s.slots := rfl
@[simp] theorem State.onQueue_cores (s : State) (q : Nat) (f : HQueue → HQueue) : (s.onQueue q f).cores = s.cores := rfl
@[simp] theorem State.onQueue_tiles (s : State) (q : Nat) (f : HQueue → HQueue) : (s.onQueue q f).tiles = s.tiles := rfl
@[simp] theorem State.onQueue_ctxs (s : State) (q : Nat) (f : HQueue → HQueue) : (s.onQueue q f).ctxs = s.ctxs := rfl
@[simp] theorem State.onQueue_groups (s : State) (q : Nat) (f : HQueue → HQueue) : (s.onQueue q f).groups = s.groups := rfl
@[simp] theorem State.onQueue_nextGroup (s : State) (q : Nat) (f : HQueue → HQueue) : (s.onQueue q f).nextGroup = s.nextGroup := rfl
@[simp] theorem State.onQueue_sets (s : State) (q : Nat) (f : HQueue → HQueue) : (s.onQueue q f).sets = s.sets := rfl
@[simp] theorem State.onQueue_q0journal (s : State) (q : Nat) (f : HQueue → HQueue) : (s.onQueue q f).q0journal = s.q0journal := rfl
@[simp] theorem State.onQueue_q0jhead (s : State) (q : Nat) (f : HQueue → HQueue) : (s.onQueue q f).q0jhead = s.q0jhead := rfl
@[simp] theorem State.onQueue_journalDue (s : State) (q : Nat) (f : HQueue → HQueue) : (s.onQueue q f).journalDue = s.journalDue := rfl
@[simp] theorem State.onQueue_windows (s : State) (q : Nat) (f : HQueue → HQueue) : (s.onQueue q f).windows = s.windows := rfl
@[simp] theorem State.onQueue_ports (s : State) (q : Nat) (f : HQueue → HQueue) : (s.onQueue q f).ports = s.ports := rfl
@[simp] theorem State.onQueue_host (s : State) (q : Nat) (f : HQueue → HQueue) : (s.onQueue q f).host = s.host := rfl
@[simp] theorem State.onQueue_tap (s : State) (q : Nat) (f : HQueue → HQueue) : (s.onQueue q f).tap = s.tap := rfl
@[simp] theorem State.onQueue_hostFail (s : State) (q : Nat) (f : HQueue → HQueue) : (s.onQueue q f).hostFail = s.hostFail := rfl

/-! ## State.touch -/

@[simp] theorem State.touch_clock (s : State) (pa len : Nat) : (s.touch pa len).clock = s.clock := rfl
@[simp] theorem State.touch_turn (s : State) (pa len : Nat) : (s.touch pa len).turn = s.turn := rfl
@[simp] theorem State.touch_agent (s : State) (pa len : Nat) : (s.touch pa len).agent = s.agent := rfl
@[simp] theorem State.touch_inputs (s : State) (pa len : Nat) : (s.touch pa len).inputs = s.inputs := rfl
@[simp] theorem State.touch_freeCtr (s : State) (pa len : Nat) : (s.touch pa len).freeCtr = s.freeCtr := rfl
@[simp] theorem State.touch_nextTid (s : State) (pa len : Nat) : (s.touch pa len).nextTid = s.nextTid := rfl
@[simp] theorem State.touch_freeze (s : State) (pa len : Nat) : (s.touch pa len).freeze = s.freeze := rfl
@[simp] theorem State.touch_pkg (s : State) (pa len : Nat) : (s.touch pa len).pkg = s.pkg := rfl
@[simp] theorem State.touch_svec (s : State) (pa len : Nat) : (s.touch pa len).svec = s.svec := rfl
@[simp] theorem State.touch_qepoch (s : State) (pa len : Nat) : (s.touch pa len).qepoch = s.qepoch := rfl
@[simp] theorem State.touch_mem (s : State) (pa len : Nat) : (s.touch pa len).mem = s.mem := rfl
@[simp] theorem State.touch_feEmpty (s : State) (pa len : Nat) : (s.touch pa len).feEmpty = s.feEmpty := rfl
@[simp] theorem State.touch_badData (s : State) (pa len : Nat) : (s.touch pa len).badData = s.badData := rfl
@[simp] theorem State.touch_badMeta (s : State) (pa len : Nat) : (s.touch pa len).badMeta = s.badMeta := rfl
@[simp] theorem State.touch_lines (s : State) (pa len : Nat) : (s.touch pa len).lines = s.lines := rfl
@[simp] theorem State.touch_dirty (s : State) (pa len : Nat) : (s.touch pa len).dirty = s.dirty := rfl
@[simp] theorem State.touch_tlb (s : State) (pa len : Nat) : (s.touch pa len).tlb = s.tlb := rfl
@[simp] theorem State.touch_walks (s : State) (pa len : Nat) : (s.touch pa len).walks = s.walks := rfl
@[simp] theorem State.touch_faulted (s : State) (pa len : Nat) : (s.touch pa len).faulted = s.faulted := rfl
@[simp] theorem State.touch_cores (s : State) (pa len : Nat) : (s.touch pa len).cores = s.cores := rfl
@[simp] theorem State.touch_tiles (s : State) (pa len : Nat) : (s.touch pa len).tiles = s.tiles := rfl
@[simp] theorem State.touch_ctxs (s : State) (pa len : Nat) : (s.touch pa len).ctxs = s.ctxs := rfl
@[simp] theorem State.touch_groups (s : State) (pa len : Nat) : (s.touch pa len).groups = s.groups := rfl
@[simp] theorem State.touch_nextGroup (s : State) (pa len : Nat) : (s.touch pa len).nextGroup = s.nextGroup := rfl
@[simp] theorem State.touch_sets (s : State) (pa len : Nat) : (s.touch pa len).sets = s.sets := rfl
@[simp] theorem State.touch_queues (s : State) (pa len : Nat) : (s.touch pa len).queues = s.queues := rfl
@[simp] theorem State.touch_q0journal (s : State) (pa len : Nat) : (s.touch pa len).q0journal = s.q0journal := rfl
@[simp] theorem State.touch_q0jhead (s : State) (pa len : Nat) : (s.touch pa len).q0jhead = s.q0jhead := rfl
@[simp] theorem State.touch_journalDue (s : State) (pa len : Nat) : (s.touch pa len).journalDue = s.journalDue := rfl
@[simp] theorem State.touch_windows (s : State) (pa len : Nat) : (s.touch pa len).windows = s.windows := rfl
@[simp] theorem State.touch_ports (s : State) (pa len : Nat) : (s.touch pa len).ports = s.ports := rfl
@[simp] theorem State.touch_host (s : State) (pa len : Nat) : (s.touch pa len).host = s.host := rfl
@[simp] theorem State.touch_tap (s : State) (pa len : Nat) : (s.touch pa len).tap = s.tap := rfl
@[simp] theorem State.touch_hostFail (s : State) (pa len : Nat) : (s.touch pa len).hostFail = s.hostFail := rfl

/-! ## State.observe -/

@[simp] theorem State.observe_clock (s : State) (pa len : Nat) : (s.observe pa len).clock = s.clock := rfl
@[simp] theorem State.observe_turn (s : State) (pa len : Nat) : (s.observe pa len).turn = s.turn := rfl
@[simp] theorem State.observe_agent (s : State) (pa len : Nat) : (s.observe pa len).agent = s.agent := rfl
@[simp] theorem State.observe_inputs (s : State) (pa len : Nat) : (s.observe pa len).inputs = s.inputs := rfl
@[simp] theorem State.observe_freeCtr (s : State) (pa len : Nat) : (s.observe pa len).freeCtr = s.freeCtr := rfl
@[simp] theorem State.observe_nextTid (s : State) (pa len : Nat) : (s.observe pa len).nextTid = s.nextTid := rfl
@[simp] theorem State.observe_freeze (s : State) (pa len : Nat) : (s.observe pa len).freeze = s.freeze := rfl
@[simp] theorem State.observe_pkg (s : State) (pa len : Nat) : (s.observe pa len).pkg = s.pkg := rfl
@[simp] theorem State.observe_svec (s : State) (pa len : Nat) : (s.observe pa len).svec = s.svec := rfl
@[simp] theorem State.observe_qepoch (s : State) (pa len : Nat) : (s.observe pa len).qepoch = s.qepoch := rfl
@[simp] theorem State.observe_mem (s : State) (pa len : Nat) : (s.observe pa len).mem = s.mem := rfl
@[simp] theorem State.observe_feEmpty (s : State) (pa len : Nat) : (s.observe pa len).feEmpty = s.feEmpty := rfl
@[simp] theorem State.observe_badData (s : State) (pa len : Nat) : (s.observe pa len).badData = s.badData := rfl
@[simp] theorem State.observe_badMeta (s : State) (pa len : Nat) : (s.observe pa len).badMeta = s.badMeta := rfl
@[simp] theorem State.observe_lines (s : State) (pa len : Nat) : (s.observe pa len).lines = s.lines := rfl
@[simp] theorem State.observe_dirty (s : State) (pa len : Nat) : (s.observe pa len).dirty = s.dirty := rfl
@[simp] theorem State.observe_tlb (s : State) (pa len : Nat) : (s.observe pa len).tlb = s.tlb := rfl
@[simp] theorem State.observe_walks (s : State) (pa len : Nat) : (s.observe pa len).walks = s.walks := rfl
@[simp] theorem State.observe_faulted (s : State) (pa len : Nat) : (s.observe pa len).faulted = s.faulted := rfl
@[simp] theorem State.observe_slots (s : State) (pa len : Nat) : (s.observe pa len).slots = s.slots := rfl
@[simp] theorem State.observe_cores (s : State) (pa len : Nat) : (s.observe pa len).cores = s.cores := rfl
@[simp] theorem State.observe_tiles (s : State) (pa len : Nat) : (s.observe pa len).tiles = s.tiles := rfl
@[simp] theorem State.observe_ctxs (s : State) (pa len : Nat) : (s.observe pa len).ctxs = s.ctxs := rfl
@[simp] theorem State.observe_groups (s : State) (pa len : Nat) : (s.observe pa len).groups = s.groups := rfl
@[simp] theorem State.observe_nextGroup (s : State) (pa len : Nat) : (s.observe pa len).nextGroup = s.nextGroup := rfl
@[simp] theorem State.observe_sets (s : State) (pa len : Nat) : (s.observe pa len).sets = s.sets := rfl
@[simp] theorem State.observe_queues (s : State) (pa len : Nat) : (s.observe pa len).queues = s.queues := rfl
@[simp] theorem State.observe_q0journal (s : State) (pa len : Nat) : (s.observe pa len).q0journal = s.q0journal := rfl
@[simp] theorem State.observe_q0jhead (s : State) (pa len : Nat) : (s.observe pa len).q0jhead = s.q0jhead := rfl
@[simp] theorem State.observe_journalDue (s : State) (pa len : Nat) : (s.observe pa len).journalDue = s.journalDue := rfl
@[simp] theorem State.observe_ports (s : State) (pa len : Nat) : (s.observe pa len).ports = s.ports := rfl
@[simp] theorem State.observe_host (s : State) (pa len : Nat) : (s.observe pa len).host = s.host := rfl
@[simp] theorem State.observe_tap (s : State) (pa len : Nat) : (s.observe pa len).tap = s.tap := rfl
@[simp] theorem State.observe_hostFail (s : State) (pa len : Nat) : (s.observe pa len).hostFail = s.hostFail := rfl

/-! ## State.dirtied -/

@[simp] theorem State.dirtied_clock (s : State) (pa len : Nat) (a : Attr) : (s.dirtied pa len a).clock = s.clock := congrArg (·.clock) (s.dirtied_noLines ..)
@[simp] theorem State.dirtied_turn (s : State) (pa len : Nat) (a : Attr) : (s.dirtied pa len a).turn = s.turn := congrArg (·.turn) (s.dirtied_noLines ..)
@[simp] theorem State.dirtied_agent (s : State) (pa len : Nat) (a : Attr) : (s.dirtied pa len a).agent = s.agent := congrArg (·.agent) (s.dirtied_noLines ..)
@[simp] theorem State.dirtied_inputs (s : State) (pa len : Nat) (a : Attr) : (s.dirtied pa len a).inputs = s.inputs := congrArg (·.inputs) (s.dirtied_noLines ..)
@[simp] theorem State.dirtied_freeCtr (s : State) (pa len : Nat) (a : Attr) : (s.dirtied pa len a).freeCtr = s.freeCtr := congrArg (·.freeCtr) (s.dirtied_noLines ..)
@[simp] theorem State.dirtied_nextTid (s : State) (pa len : Nat) (a : Attr) : (s.dirtied pa len a).nextTid = s.nextTid := congrArg (·.nextTid) (s.dirtied_noLines ..)
@[simp] theorem State.dirtied_freeze (s : State) (pa len : Nat) (a : Attr) : (s.dirtied pa len a).freeze = s.freeze := congrArg (·.freeze) (s.dirtied_noLines ..)
@[simp] theorem State.dirtied_pkg (s : State) (pa len : Nat) (a : Attr) : (s.dirtied pa len a).pkg = s.pkg := congrArg (·.pkg) (s.dirtied_noLines ..)
@[simp] theorem State.dirtied_svec (s : State) (pa len : Nat) (a : Attr) : (s.dirtied pa len a).svec = s.svec := congrArg (·.svec) (s.dirtied_noLines ..)
@[simp] theorem State.dirtied_qepoch (s : State) (pa len : Nat) (a : Attr) : (s.dirtied pa len a).qepoch = s.qepoch := congrArg (·.qepoch) (s.dirtied_noLines ..)
@[simp] theorem State.dirtied_mem (s : State) (pa len : Nat) (a : Attr) : (s.dirtied pa len a).mem = s.mem := congrArg (·.mem) (s.dirtied_noLines ..)
@[simp] theorem State.dirtied_feEmpty (s : State) (pa len : Nat) (a : Attr) : (s.dirtied pa len a).feEmpty = s.feEmpty := congrArg (·.feEmpty) (s.dirtied_noLines ..)
@[simp] theorem State.dirtied_badData (s : State) (pa len : Nat) (a : Attr) : (s.dirtied pa len a).badData = s.badData := congrArg (·.badData) (s.dirtied_noLines ..)
@[simp] theorem State.dirtied_badMeta (s : State) (pa len : Nat) (a : Attr) : (s.dirtied pa len a).badMeta = s.badMeta := congrArg (·.badMeta) (s.dirtied_noLines ..)
@[simp] theorem State.dirtied_tlb (s : State) (pa len : Nat) (a : Attr) : (s.dirtied pa len a).tlb = s.tlb := congrArg (·.tlb) (s.dirtied_noLines ..)
@[simp] theorem State.dirtied_walks (s : State) (pa len : Nat) (a : Attr) : (s.dirtied pa len a).walks = s.walks := congrArg (·.walks) (s.dirtied_noLines ..)
@[simp] theorem State.dirtied_faulted (s : State) (pa len : Nat) (a : Attr) : (s.dirtied pa len a).faulted = s.faulted := congrArg (·.faulted) (s.dirtied_noLines ..)
@[simp] theorem State.dirtied_slots (s : State) (pa len : Nat) (a : Attr) : (s.dirtied pa len a).slots = s.slots := congrArg (·.slots) (s.dirtied_noLines ..)
@[simp] theorem State.dirtied_cores (s : State) (pa len : Nat) (a : Attr) : (s.dirtied pa len a).cores = s.cores := congrArg (·.cores) (s.dirtied_noLines ..)
@[simp] theorem State.dirtied_tiles (s : State) (pa len : Nat) (a : Attr) : (s.dirtied pa len a).tiles = s.tiles := congrArg (·.tiles) (s.dirtied_noLines ..)
@[simp] theorem State.dirtied_ctxs (s : State) (pa len : Nat) (a : Attr) : (s.dirtied pa len a).ctxs = s.ctxs := congrArg (·.ctxs) (s.dirtied_noLines ..)
@[simp] theorem State.dirtied_groups (s : State) (pa len : Nat) (a : Attr) : (s.dirtied pa len a).groups = s.groups := congrArg (·.groups) (s.dirtied_noLines ..)
@[simp] theorem State.dirtied_nextGroup (s : State) (pa len : Nat) (a : Attr) : (s.dirtied pa len a).nextGroup = s.nextGroup := congrArg (·.nextGroup) (s.dirtied_noLines ..)
@[simp] theorem State.dirtied_sets (s : State) (pa len : Nat) (a : Attr) : (s.dirtied pa len a).sets = s.sets := congrArg (·.sets) (s.dirtied_noLines ..)
@[simp] theorem State.dirtied_queues (s : State) (pa len : Nat) (a : Attr) : (s.dirtied pa len a).queues = s.queues := congrArg (·.queues) (s.dirtied_noLines ..)
@[simp] theorem State.dirtied_q0journal (s : State) (pa len : Nat) (a : Attr) : (s.dirtied pa len a).q0journal = s.q0journal := congrArg (·.q0journal) (s.dirtied_noLines ..)
@[simp] theorem State.dirtied_q0jhead (s : State) (pa len : Nat) (a : Attr) : (s.dirtied pa len a).q0jhead = s.q0jhead := congrArg (·.q0jhead) (s.dirtied_noLines ..)
@[simp] theorem State.dirtied_journalDue (s : State) (pa len : Nat) (a : Attr) : (s.dirtied pa len a).journalDue = s.journalDue := congrArg (·.journalDue) (s.dirtied_noLines ..)
@[simp] theorem State.dirtied_windows (s : State) (pa len : Nat) (a : Attr) : (s.dirtied pa len a).windows = s.windows := congrArg (·.windows) (s.dirtied_noLines ..)
@[simp] theorem State.dirtied_ports (s : State) (pa len : Nat) (a : Attr) : (s.dirtied pa len a).ports = s.ports := congrArg (·.ports) (s.dirtied_noLines ..)
@[simp] theorem State.dirtied_host (s : State) (pa len : Nat) (a : Attr) : (s.dirtied pa len a).host = s.host := congrArg (·.host) (s.dirtied_noLines ..)
@[simp] theorem State.dirtied_tap (s : State) (pa len : Nat) (a : Attr) : (s.dirtied pa len a).tap = s.tap := congrArg (·.tap) (s.dirtied_noLines ..)
@[simp] theorem State.dirtied_hostFail (s : State) (pa len : Nat) (a : Attr) : (s.dirtied pa len a).hostFail = s.hostFail := congrArg (·.hostFail) (s.dirtied_noLines ..)

/-! ## State.store -/

@[simp] theorem State.store_clock (s : State) (pa : Nat) (bs : List Byte) (a : Attr) : (s.store pa bs a).clock = s.clock := by simp [State.store]
@[simp] theorem State.store_turn (s : State) (pa : Nat) (bs : List Byte) (a : Attr) : (s.store pa bs a).turn = s.turn := by simp [State.store]
@[simp] theorem State.store_agent (s : State) (pa : Nat) (bs : List Byte) (a : Attr) : (s.store pa bs a).agent = s.agent := by simp [State.store]
@[simp] theorem State.store_inputs (s : State) (pa : Nat) (bs : List Byte) (a : Attr) : (s.store pa bs a).inputs = s.inputs := by simp [State.store]
@[simp] theorem State.store_freeCtr (s : State) (pa : Nat) (bs : List Byte) (a : Attr) : (s.store pa bs a).freeCtr = s.freeCtr := by simp [State.store]
@[simp] theorem State.store_nextTid (s : State) (pa : Nat) (bs : List Byte) (a : Attr) : (s.store pa bs a).nextTid = s.nextTid := by simp [State.store]
@[simp] theorem State.store_freeze (s : State) (pa : Nat) (bs : List Byte) (a : Attr) : (s.store pa bs a).freeze = s.freeze := by simp [State.store]
@[simp] theorem State.store_pkg (s : State) (pa : Nat) (bs : List Byte) (a : Attr) : (s.store pa bs a).pkg = s.pkg := by simp [State.store]
@[simp] theorem State.store_svec (s : State) (pa : Nat) (bs : List Byte) (a : Attr) : (s.store pa bs a).svec = s.svec := by simp [State.store]
@[simp] theorem State.store_qepoch (s : State) (pa : Nat) (bs : List Byte) (a : Attr) : (s.store pa bs a).qepoch = s.qepoch := by simp [State.store]
@[simp] theorem State.store_feEmpty (s : State) (pa : Nat) (bs : List Byte) (a : Attr) : (s.store pa bs a).feEmpty = s.feEmpty := by simp [State.store]
@[simp] theorem State.store_badData (s : State) (pa : Nat) (bs : List Byte) (a : Attr) : (s.store pa bs a).badData = s.badData := by simp [State.store]
@[simp] theorem State.store_badMeta (s : State) (pa : Nat) (bs : List Byte) (a : Attr) : (s.store pa bs a).badMeta = s.badMeta := by simp [State.store]
@[simp] theorem State.store_tlb (s : State) (pa : Nat) (bs : List Byte) (a : Attr) : (s.store pa bs a).tlb = s.tlb := by simp [State.store]
@[simp] theorem State.store_walks (s : State) (pa : Nat) (bs : List Byte) (a : Attr) : (s.store pa bs a).walks = s.walks := by simp [State.store]
@[simp] theorem State.store_faulted (s : State) (pa : Nat) (bs : List Byte) (a : Attr) : (s.store pa bs a).faulted = s.faulted := by simp [State.store]
@[simp] theorem State.store_cores (s : State) (pa : Nat) (bs : List Byte) (a : Attr) : (s.store pa bs a).cores = s.cores := by simp [State.store]
@[simp] theorem State.store_tiles (s : State) (pa : Nat) (bs : List Byte) (a : Attr) : (s.store pa bs a).tiles = s.tiles := by simp [State.store]
@[simp] theorem State.store_ctxs (s : State) (pa : Nat) (bs : List Byte) (a : Attr) : (s.store pa bs a).ctxs = s.ctxs := by simp [State.store]
@[simp] theorem State.store_groups (s : State) (pa : Nat) (bs : List Byte) (a : Attr) : (s.store pa bs a).groups = s.groups := by simp [State.store]
@[simp] theorem State.store_nextGroup (s : State) (pa : Nat) (bs : List Byte) (a : Attr) : (s.store pa bs a).nextGroup = s.nextGroup := by simp [State.store]
@[simp] theorem State.store_sets (s : State) (pa : Nat) (bs : List Byte) (a : Attr) : (s.store pa bs a).sets = s.sets := by simp [State.store]
@[simp] theorem State.store_queues (s : State) (pa : Nat) (bs : List Byte) (a : Attr) : (s.store pa bs a).queues = s.queues := by simp [State.store]
@[simp] theorem State.store_q0journal (s : State) (pa : Nat) (bs : List Byte) (a : Attr) : (s.store pa bs a).q0journal = s.q0journal := by simp [State.store]
@[simp] theorem State.store_q0jhead (s : State) (pa : Nat) (bs : List Byte) (a : Attr) : (s.store pa bs a).q0jhead = s.q0jhead := by simp [State.store]
@[simp] theorem State.store_journalDue (s : State) (pa : Nat) (bs : List Byte) (a : Attr) : (s.store pa bs a).journalDue = s.journalDue := by simp [State.store]
@[simp] theorem State.store_ports (s : State) (pa : Nat) (bs : List Byte) (a : Attr) : (s.store pa bs a).ports = s.ports := by simp [State.store]
@[simp] theorem State.store_host (s : State) (pa : Nat) (bs : List Byte) (a : Attr) : (s.store pa bs a).host = s.host := by simp [State.store]
@[simp] theorem State.store_tap (s : State) (pa : Nat) (bs : List Byte) (a : Attr) : (s.store pa bs a).tap = s.tap := by simp [State.store]
@[simp] theorem State.store_hostFail (s : State) (pa : Nat) (bs : List Byte) (a : Attr) : (s.store pa bs a).hostFail = s.hostFail := by simp [State.store]

/-! ## State.write -/

@[simp] theorem State.write_clock (s : State) (pa : Nat) (bs : List Byte) (a : Attr) : (s.write pa bs a).clock = s.clock := congrArg (·.clock) (s.write_noStores ..)
@[simp] theorem State.write_turn (s : State) (pa : Nat) (bs : List Byte) (a : Attr) : (s.write pa bs a).turn = s.turn := congrArg (·.turn) (s.write_noStores ..)
@[simp] theorem State.write_agent (s : State) (pa : Nat) (bs : List Byte) (a : Attr) : (s.write pa bs a).agent = s.agent := congrArg (·.agent) (s.write_noStores ..)
@[simp] theorem State.write_inputs (s : State) (pa : Nat) (bs : List Byte) (a : Attr) : (s.write pa bs a).inputs = s.inputs := congrArg (·.inputs) (s.write_noStores ..)
@[simp] theorem State.write_freeCtr (s : State) (pa : Nat) (bs : List Byte) (a : Attr) : (s.write pa bs a).freeCtr = s.freeCtr := congrArg (·.freeCtr) (s.write_noStores ..)
@[simp] theorem State.write_nextTid (s : State) (pa : Nat) (bs : List Byte) (a : Attr) : (s.write pa bs a).nextTid = s.nextTid := congrArg (·.nextTid) (s.write_noStores ..)
@[simp] theorem State.write_freeze (s : State) (pa : Nat) (bs : List Byte) (a : Attr) : (s.write pa bs a).freeze = s.freeze := congrArg (·.freeze) (s.write_noStores ..)
@[simp] theorem State.write_pkg (s : State) (pa : Nat) (bs : List Byte) (a : Attr) : (s.write pa bs a).pkg = s.pkg := congrArg (·.pkg) (s.write_noStores ..)
@[simp] theorem State.write_svec (s : State) (pa : Nat) (bs : List Byte) (a : Attr) : (s.write pa bs a).svec = s.svec := congrArg (·.svec) (s.write_noStores ..)
@[simp] theorem State.write_qepoch (s : State) (pa : Nat) (bs : List Byte) (a : Attr) : (s.write pa bs a).qepoch = s.qepoch := congrArg (·.qepoch) (s.write_noStores ..)
@[simp] theorem State.write_feEmpty (s : State) (pa : Nat) (bs : List Byte) (a : Attr) : (s.write pa bs a).feEmpty = s.feEmpty := congrArg (·.feEmpty) (s.write_noStores ..)
@[simp] theorem State.write_badData (s : State) (pa : Nat) (bs : List Byte) (a : Attr) : (s.write pa bs a).badData = s.badData := congrArg (·.badData) (s.write_noStores ..)
@[simp] theorem State.write_badMeta (s : State) (pa : Nat) (bs : List Byte) (a : Attr) : (s.write pa bs a).badMeta = s.badMeta := congrArg (·.badMeta) (s.write_noStores ..)
@[simp] theorem State.write_tlb (s : State) (pa : Nat) (bs : List Byte) (a : Attr) : (s.write pa bs a).tlb = s.tlb := congrArg (·.tlb) (s.write_noStores ..)
@[simp] theorem State.write_walks (s : State) (pa : Nat) (bs : List Byte) (a : Attr) : (s.write pa bs a).walks = s.walks := congrArg (·.walks) (s.write_noStores ..)
@[simp] theorem State.write_faulted (s : State) (pa : Nat) (bs : List Byte) (a : Attr) : (s.write pa bs a).faulted = s.faulted := congrArg (·.faulted) (s.write_noStores ..)
@[simp] theorem State.write_cores (s : State) (pa : Nat) (bs : List Byte) (a : Attr) : (s.write pa bs a).cores = s.cores := congrArg (·.cores) (s.write_noStores ..)
@[simp] theorem State.write_tiles (s : State) (pa : Nat) (bs : List Byte) (a : Attr) : (s.write pa bs a).tiles = s.tiles := congrArg (·.tiles) (s.write_noStores ..)
@[simp] theorem State.write_groups (s : State) (pa : Nat) (bs : List Byte) (a : Attr) : (s.write pa bs a).groups = s.groups := congrArg (·.groups) (s.write_noStores ..)
@[simp] theorem State.write_nextGroup (s : State) (pa : Nat) (bs : List Byte) (a : Attr) : (s.write pa bs a).nextGroup = s.nextGroup := congrArg (·.nextGroup) (s.write_noStores ..)
@[simp] theorem State.write_sets (s : State) (pa : Nat) (bs : List Byte) (a : Attr) : (s.write pa bs a).sets = s.sets := congrArg (·.sets) (s.write_noStores ..)
@[simp] theorem State.write_queues (s : State) (pa : Nat) (bs : List Byte) (a : Attr) : (s.write pa bs a).queues = s.queues := congrArg (·.queues) (s.write_noStores ..)
@[simp] theorem State.write_q0journal (s : State) (pa : Nat) (bs : List Byte) (a : Attr) : (s.write pa bs a).q0journal = s.q0journal := congrArg (·.q0journal) (s.write_noStores ..)
@[simp] theorem State.write_q0jhead (s : State) (pa : Nat) (bs : List Byte) (a : Attr) : (s.write pa bs a).q0jhead = s.q0jhead := congrArg (·.q0jhead) (s.write_noStores ..)
@[simp] theorem State.write_journalDue (s : State) (pa : Nat) (bs : List Byte) (a : Attr) : (s.write pa bs a).journalDue = s.journalDue := congrArg (·.journalDue) (s.write_noStores ..)
@[simp] theorem State.write_ports (s : State) (pa : Nat) (bs : List Byte) (a : Attr) : (s.write pa bs a).ports = s.ports := congrArg (·.ports) (s.write_noStores ..)
@[simp] theorem State.write_host (s : State) (pa : Nat) (bs : List Byte) (a : Attr) : (s.write pa bs a).host = s.host := congrArg (·.host) (s.write_noStores ..)
@[simp] theorem State.write_tap (s : State) (pa : Nat) (bs : List Byte) (a : Attr) : (s.write pa bs a).tap = s.tap := congrArg (·.tap) (s.write_noStores ..)
@[simp] theorem State.write_hostFail (s : State) (pa : Nat) (bs : List Byte) (a : Attr) : (s.write pa bs a).hostFail = s.hostFail := congrArg (·.hostFail) (s.write_noStores ..)

/-! ## State.setFe -/

@[simp] theorem State.setFe_clock (s : State) (pa : Nat) (full : Bool) : (s.setFe pa full).clock = s.clock := by unfold State.setFe; dsimp only; split <;> rfl
@[simp] theorem State.setFe_turn (s : State) (pa : Nat) (full : Bool) : (s.setFe pa full).turn = s.turn := by unfold State.setFe; dsimp only; split <;> rfl
@[simp] theorem State.setFe_agent (s : State) (pa : Nat) (full : Bool) : (s.setFe pa full).agent = s.agent := by unfold State.setFe; dsimp only; split <;> rfl
@[simp] theorem State.setFe_inputs (s : State) (pa : Nat) (full : Bool) : (s.setFe pa full).inputs = s.inputs := by unfold State.setFe; dsimp only; split <;> rfl
@[simp] theorem State.setFe_freeCtr (s : State) (pa : Nat) (full : Bool) : (s.setFe pa full).freeCtr = s.freeCtr := by unfold State.setFe; dsimp only; split <;> rfl
@[simp] theorem State.setFe_nextTid (s : State) (pa : Nat) (full : Bool) : (s.setFe pa full).nextTid = s.nextTid := by unfold State.setFe; dsimp only; split <;> rfl
@[simp] theorem State.setFe_freeze (s : State) (pa : Nat) (full : Bool) : (s.setFe pa full).freeze = s.freeze := by unfold State.setFe; dsimp only; split <;> rfl
@[simp] theorem State.setFe_pkg (s : State) (pa : Nat) (full : Bool) : (s.setFe pa full).pkg = s.pkg := by unfold State.setFe; dsimp only; split <;> rfl
@[simp] theorem State.setFe_svec (s : State) (pa : Nat) (full : Bool) : (s.setFe pa full).svec = s.svec := by unfold State.setFe; dsimp only; split <;> rfl
@[simp] theorem State.setFe_qepoch (s : State) (pa : Nat) (full : Bool) : (s.setFe pa full).qepoch = s.qepoch := by unfold State.setFe; dsimp only; split <;> rfl
@[simp] theorem State.setFe_mem (s : State) (pa : Nat) (full : Bool) : (s.setFe pa full).mem = s.mem := by unfold State.setFe; dsimp only; split <;> rfl
@[simp] theorem State.setFe_badData (s : State) (pa : Nat) (full : Bool) : (s.setFe pa full).badData = s.badData := by unfold State.setFe; dsimp only; split <;> rfl
@[simp] theorem State.setFe_badMeta (s : State) (pa : Nat) (full : Bool) : (s.setFe pa full).badMeta = s.badMeta := by unfold State.setFe; dsimp only; split <;> rfl
@[simp] theorem State.setFe_lines (s : State) (pa : Nat) (full : Bool) : (s.setFe pa full).lines = s.lines := by unfold State.setFe; dsimp only; split <;> rfl
@[simp] theorem State.setFe_dirty (s : State) (pa : Nat) (full : Bool) : (s.setFe pa full).dirty = s.dirty := by unfold State.setFe; dsimp only; split <;> rfl
@[simp] theorem State.setFe_tlb (s : State) (pa : Nat) (full : Bool) : (s.setFe pa full).tlb = s.tlb := by unfold State.setFe; dsimp only; split <;> rfl
@[simp] theorem State.setFe_walks (s : State) (pa : Nat) (full : Bool) : (s.setFe pa full).walks = s.walks := by unfold State.setFe; dsimp only; split <;> rfl
@[simp] theorem State.setFe_faulted (s : State) (pa : Nat) (full : Bool) : (s.setFe pa full).faulted = s.faulted := by unfold State.setFe; dsimp only; split <;> rfl
@[simp] theorem State.setFe_cores (s : State) (pa : Nat) (full : Bool) : (s.setFe pa full).cores = s.cores := by unfold State.setFe; dsimp only; split <;> rfl
@[simp] theorem State.setFe_tiles (s : State) (pa : Nat) (full : Bool) : (s.setFe pa full).tiles = s.tiles := by unfold State.setFe; dsimp only; split <;> rfl
@[simp] theorem State.setFe_ctxs (s : State) (pa : Nat) (full : Bool) : (s.setFe pa full).ctxs = s.ctxs := by unfold State.setFe; dsimp only; split <;> rfl
@[simp] theorem State.setFe_groups (s : State) (pa : Nat) (full : Bool) : (s.setFe pa full).groups = s.groups := by unfold State.setFe; dsimp only; split <;> rfl
@[simp] theorem State.setFe_nextGroup (s : State) (pa : Nat) (full : Bool) : (s.setFe pa full).nextGroup = s.nextGroup := by unfold State.setFe; dsimp only; split <;> rfl
@[simp] theorem State.setFe_sets (s : State) (pa : Nat) (full : Bool) : (s.setFe pa full).sets = s.sets := by unfold State.setFe; dsimp only; split <;> rfl
@[simp] theorem State.setFe_queues (s : State) (pa : Nat) (full : Bool) : (s.setFe pa full).queues = s.queues := by unfold State.setFe; dsimp only; split <;> rfl
@[simp] theorem State.setFe_q0journal (s : State) (pa : Nat) (full : Bool) : (s.setFe pa full).q0journal = s.q0journal := by unfold State.setFe; dsimp only; split <;> rfl
@[simp] theorem State.setFe_q0jhead (s : State) (pa : Nat) (full : Bool) : (s.setFe pa full).q0jhead = s.q0jhead := by unfold State.setFe; dsimp only; split <;> rfl
@[simp] theorem State.setFe_journalDue (s : State) (pa : Nat) (full : Bool) : (s.setFe pa full).journalDue = s.journalDue := by unfold State.setFe; dsimp only; split <;> rfl
@[simp] theorem State.setFe_windows (s : State) (pa : Nat) (full : Bool) : (s.setFe pa full).windows = s.windows := by unfold State.setFe; dsimp only; split <;> rfl
@[simp] theorem State.setFe_ports (s : State) (pa : Nat) (full : Bool) : (s.setFe pa full).ports = s.ports := by unfold State.setFe; dsimp only; split <;> rfl
@[simp] theorem State.setFe_host (s : State) (pa : Nat) (full : Bool) : (s.setFe pa full).host = s.host := by unfold State.setFe; dsimp only; split <;> rfl
@[simp] theorem State.setFe_tap (s : State) (pa : Nat) (full : Bool) : (s.setFe pa full).tap = s.tap := by unfold State.setFe; dsimp only; split <;> rfl
@[simp] theorem State.setFe_hostFail (s : State) (pa : Nat) (full : Bool) : (s.setFe pa full).hostFail = s.hostFail := by unfold State.setFe; dsimp only; split <;> rfl

/-! ## State.freezeBy -/

@[simp] theorem State.freezeBy_clock (s : State) (r : Bool) (src : BitVec 2) : (s.freezeBy r src).clock = s.clock := congrArg (·.clock) (s.freezeBy_noLinks ..)
@[simp] theorem State.freezeBy_turn (s : State) (r : Bool) (src : BitVec 2) : (s.freezeBy r src).turn = s.turn := congrArg (·.turn) (s.freezeBy_noLinks ..)
@[simp] theorem State.freezeBy_agent (s : State) (r : Bool) (src : BitVec 2) : (s.freezeBy r src).agent = s.agent := congrArg (·.agent) (s.freezeBy_noLinks ..)
@[simp] theorem State.freezeBy_inputs (s : State) (r : Bool) (src : BitVec 2) : (s.freezeBy r src).inputs = s.inputs := congrArg (·.inputs) (s.freezeBy_noLinks ..)
@[simp] theorem State.freezeBy_nextTid (s : State) (r : Bool) (src : BitVec 2) : (s.freezeBy r src).nextTid = s.nextTid := congrArg (·.nextTid) (s.freezeBy_noLinks ..)
@[simp] theorem State.freezeBy_pkg (s : State) (r : Bool) (src : BitVec 2) : (s.freezeBy r src).pkg = s.pkg := congrArg (·.pkg) (s.freezeBy_noLinks ..)
@[simp] theorem State.freezeBy_svec (s : State) (r : Bool) (src : BitVec 2) : (s.freezeBy r src).svec = s.svec := congrArg (·.svec) (s.freezeBy_noLinks ..)
@[simp] theorem State.freezeBy_qepoch (s : State) (r : Bool) (src : BitVec 2) : (s.freezeBy r src).qepoch = s.qepoch := congrArg (·.qepoch) (s.freezeBy_noLinks ..)
@[simp] theorem State.freezeBy_feEmpty (s : State) (r : Bool) (src : BitVec 2) : (s.freezeBy r src).feEmpty = s.feEmpty := congrArg (·.feEmpty) (s.freezeBy_noLinks ..)
@[simp] theorem State.freezeBy_badData (s : State) (r : Bool) (src : BitVec 2) : (s.freezeBy r src).badData = s.badData := congrArg (·.badData) (s.freezeBy_noLinks ..)
@[simp] theorem State.freezeBy_badMeta (s : State) (r : Bool) (src : BitVec 2) : (s.freezeBy r src).badMeta = s.badMeta := congrArg (·.badMeta) (s.freezeBy_noLinks ..)
@[simp] theorem State.freezeBy_tlb (s : State) (r : Bool) (src : BitVec 2) : (s.freezeBy r src).tlb = s.tlb := congrArg (·.tlb) (s.freezeBy_noLinks ..)
@[simp] theorem State.freezeBy_walks (s : State) (r : Bool) (src : BitVec 2) : (s.freezeBy r src).walks = s.walks := congrArg (·.walks) (s.freezeBy_noLinks ..)
@[simp] theorem State.freezeBy_faulted (s : State) (r : Bool) (src : BitVec 2) : (s.freezeBy r src).faulted = s.faulted := congrArg (·.faulted) (s.freezeBy_noLinks ..)
@[simp] theorem State.freezeBy_cores (s : State) (r : Bool) (src : BitVec 2) : (s.freezeBy r src).cores = s.cores := congrArg (·.cores) (s.freezeBy_noLinks ..)
@[simp] theorem State.freezeBy_tiles (s : State) (r : Bool) (src : BitVec 2) : (s.freezeBy r src).tiles = s.tiles := congrArg (·.tiles) (s.freezeBy_noLinks ..)
@[simp] theorem State.freezeBy_nextGroup (s : State) (r : Bool) (src : BitVec 2) : (s.freezeBy r src).nextGroup = s.nextGroup := congrArg (·.nextGroup) (s.freezeBy_noLinks ..)
@[simp] theorem State.freezeBy_sets (s : State) (r : Bool) (src : BitVec 2) : (s.freezeBy r src).sets = s.sets := congrArg (·.sets) (s.freezeBy_noLinks ..)
@[simp] theorem State.freezeBy_queues (s : State) (r : Bool) (src : BitVec 2) : (s.freezeBy r src).queues = s.queues := congrArg (·.queues) (s.freezeBy_noLinks ..)
@[simp] theorem State.freezeBy_q0journal (s : State) (r : Bool) (src : BitVec 2) : (s.freezeBy r src).q0journal = s.q0journal := congrArg (·.q0journal) (s.freezeBy_noLinks ..)
@[simp] theorem State.freezeBy_q0jhead (s : State) (r : Bool) (src : BitVec 2) : (s.freezeBy r src).q0jhead = s.q0jhead := congrArg (·.q0jhead) (s.freezeBy_noLinks ..)
@[simp] theorem State.freezeBy_journalDue (s : State) (r : Bool) (src : BitVec 2) : (s.freezeBy r src).journalDue = s.journalDue := congrArg (·.journalDue) (s.freezeBy_noLinks ..)
@[simp] theorem State.freezeBy_host (s : State) (r : Bool) (src : BitVec 2) : (s.freezeBy r src).host = s.host := congrArg (·.host) (s.freezeBy_noLinks ..)
@[simp] theorem State.freezeBy_tap (s : State) (r : Bool) (src : BitVec 2) : (s.freezeBy r src).tap = s.tap := congrArg (·.tap) (s.freezeBy_noLinks ..)
@[simp] theorem State.freezeBy_hostFail (s : State) (r : Bool) (src : BitVec 2) : (s.freezeBy r src).hostFail = s.hostFail := congrArg (·.hostFail) (s.freezeBy_noLinks ..)

/-! ## Slot.setReg -/

@[simp] theorem Slot.setReg_status (x : Slot) (n : Nat) (v : Word) : (x.setReg n v).status = x.status := by unfold Slot.setReg; split <;> rfl
@[simp] theorem Slot.setReg_tid (x : Slot) (n : Nat) (v : Word) : (x.setReg n v).tid = x.tid := by unfold Slot.setReg; split <;> rfl
@[simp] theorem Slot.setReg_pc (x : Slot) (n : Nat) (v : Word) : (x.setReg n v).pc = x.pc := by unfold Slot.setReg; split <;> rfl
@[simp] theorem Slot.setReg_via (x : Slot) (n : Nat) (v : Word) : (x.setReg n v).via = x.via := by unfold Slot.setReg; split <;> rfl
@[simp] theorem Slot.setReg_nh (x : Slot) (n : Nat) (v : Word) : (x.setReg n v).nh = x.nh := by unfold Slot.setReg; split <;> rfl
@[simp] theorem Slot.setReg_p (x : Slot) (n : Nat) (v : Word) : (x.setReg n v).p = x.p := by unfold Slot.setReg; split <;> rfl
@[simp] theorem Slot.setReg_v (x : Slot) (n : Nat) (v : Word) : (x.setReg n v).v = x.v := by unfold Slot.setReg; split <;> rfl
@[simp] theorem Slot.setReg_k (x : Slot) (n : Nat) (v : Word) : (x.setReg n v).k = x.k := by unfold Slot.setReg; split <;> rfl
@[simp] theorem Slot.setReg_loop (x : Slot) (n : Nat) (v : Word) : (x.setReg n v).loop = x.loop := by unfold Slot.setReg; split <;> rfl
@[simp] theorem Slot.setReg_feretry (x : Slot) (n : Nat) (v : Word) : (x.setReg n v).feretry = x.feretry := by unfold Slot.setReg; split <;> rfl
@[simp] theorem Slot.setReg_rngCtr (x : Slot) (n : Nat) (v : Word) : (x.setReg n v).rngCtr = x.rngCtr := by unfold Slot.setReg; split <;> rfl
@[simp] theorem Slot.setReg_srCtr (x : Slot) (n : Nat) (v : Word) : (x.setReg n v).srCtr = x.srCtr := by unfold Slot.setReg; split <;> rfl
@[simp] theorem Slot.setReg_inl (x : Slot) (n : Nat) (v : Word) : (x.setReg n v).inl = x.inl := by unfold Slot.setReg; split <;> rfl
@[simp] theorem Slot.setReg_trap (x : Slot) (n : Nat) (v : Word) : (x.setReg n v).trap = x.trap := by unfold Slot.setReg; split <;> rfl
@[simp] theorem Slot.setReg_sup (x : Slot) (n : Nat) (v : Word) : (x.setReg n v).sup = x.sup := by unfold Slot.setReg; split <;> rfl
@[simp] theorem Slot.setReg_base (x : Slot) (n : Nat) (v : Word) : (x.setReg n v).base = x.base := by unfold Slot.setReg; split <;> rfl
@[simp] theorem Slot.setReg_pend (x : Slot) (n : Nat) (v : Word) : (x.setReg n v).pend = x.pend := by unfold Slot.setReg; split <;> rfl
@[simp] theorem Slot.setReg_cpend (x : Slot) (n : Nat) (v : Word) : (x.setReg n v).cpend = x.cpend := by unfold Slot.setReg; split <;> rfl
@[simp] theorem Slot.setReg_mon (x : Slot) (n : Nat) (v : Word) : (x.setReg n v).mon = x.mon := by unfold Slot.setReg; split <;> rfl
@[simp] theorem Slot.setReg_id (x : Slot) (n : Nat) (v : Word) : (x.setReg n v).id = x.id := by unfold Slot.setReg; split <;> rfl
@[simp] theorem Slot.setReg_rep (x : Slot) (n : Nat) (v : Word) : (x.setReg n v).rep = x.rep := by unfold Slot.setReg; split <;> rfl
@[simp] theorem Slot.setReg_park (x : Slot) (n : Nat) (v : Word) : (x.setReg n v).park = x.park := by unfold Slot.setReg; split <;> rfl
@[simp] theorem Slot.setReg_kept (x : Slot) (n : Nat) (v : Word) : (x.setReg n v).kept = x.kept := by unfold Slot.setReg; split <;> rfl
@[simp] theorem Slot.setReg_lease (x : Slot) (n : Nat) (v : Word) : (x.setReg n v).lease = x.lease := by unfold Slot.setReg; split <;> rfl
@[simp] theorem Slot.setReg_relet (x : Slot) (n : Nat) (v : Word) : (x.setReg n v).relet = x.relet := by unfold Slot.setReg; split <;> rfl
@[simp] theorem Slot.setReg_dde (x : Slot) (n : Nat) (v : Word) : (x.setReg n v).dde = x.dde := by unfold Slot.setReg; split <;> rfl
@[simp] theorem Slot.setReg_eng (x : Slot) (n : Nat) (v : Word) : (x.setReg n v).eng = x.eng := by unfold Slot.setReg; split <;> rfl
@[simp] theorem Slot.setReg_comps (x : Slot) (n : Nat) (v : Word) : (x.setReg n v).comps = x.comps := by unfold Slot.setReg; split <;> rfl
@[simp] theorem Slot.setReg_lost (x : Slot) (n : Nat) (v : Word) : (x.setReg n v).lost = x.lost := by unfold Slot.setReg; split <;> rfl
@[simp] theorem Slot.setReg_haltReq (x : Slot) (n : Nat) (v : Word) : (x.setReg n v).haltReq = x.haltReq := by unfold Slot.setReg; split <;> rfl

/-! ## Slot.clearFull -/

@[simp] theorem Slot.clearFull_status (x : Slot) (n : Nat) : (x.clearFull n).status = x.status := by unfold Slot.clearFull; split <;> rfl
@[simp] theorem Slot.clearFull_tid (x : Slot) (n : Nat) : (x.clearFull n).tid = x.tid := by unfold Slot.clearFull; split <;> rfl
@[simp] theorem Slot.clearFull_pc (x : Slot) (n : Nat) : (x.clearFull n).pc = x.pc := by unfold Slot.clearFull; split <;> rfl
@[simp] theorem Slot.clearFull_via (x : Slot) (n : Nat) : (x.clearFull n).via = x.via := by unfold Slot.clearFull; split <;> rfl
@[simp] theorem Slot.clearFull_nh (x : Slot) (n : Nat) : (x.clearFull n).nh = x.nh := by unfold Slot.clearFull; split <;> rfl
@[simp] theorem Slot.clearFull_g (x : Slot) (n : Nat) : (x.clearFull n).g = x.g := by unfold Slot.clearFull; split <;> rfl
@[simp] theorem Slot.clearFull_p (x : Slot) (n : Nat) : (x.clearFull n).p = x.p := by unfold Slot.clearFull; split <;> rfl
@[simp] theorem Slot.clearFull_v (x : Slot) (n : Nat) : (x.clearFull n).v = x.v := by unfold Slot.clearFull; split <;> rfl
@[simp] theorem Slot.clearFull_k (x : Slot) (n : Nat) : (x.clearFull n).k = x.k := by unfold Slot.clearFull; split <;> rfl
@[simp] theorem Slot.clearFull_loop (x : Slot) (n : Nat) : (x.clearFull n).loop = x.loop := by unfold Slot.clearFull; split <;> rfl
@[simp] theorem Slot.clearFull_feretry (x : Slot) (n : Nat) : (x.clearFull n).feretry = x.feretry := by unfold Slot.clearFull; split <;> rfl
@[simp] theorem Slot.clearFull_rngCtr (x : Slot) (n : Nat) : (x.clearFull n).rngCtr = x.rngCtr := by unfold Slot.clearFull; split <;> rfl
@[simp] theorem Slot.clearFull_srCtr (x : Slot) (n : Nat) : (x.clearFull n).srCtr = x.srCtr := by unfold Slot.clearFull; split <;> rfl
@[simp] theorem Slot.clearFull_inl (x : Slot) (n : Nat) : (x.clearFull n).inl = x.inl := by unfold Slot.clearFull; split <;> rfl
@[simp] theorem Slot.clearFull_trap (x : Slot) (n : Nat) : (x.clearFull n).trap = x.trap := by unfold Slot.clearFull; split <;> rfl
@[simp] theorem Slot.clearFull_sup (x : Slot) (n : Nat) : (x.clearFull n).sup = x.sup := by unfold Slot.clearFull; split <;> rfl
@[simp] theorem Slot.clearFull_base (x : Slot) (n : Nat) : (x.clearFull n).base = x.base := by unfold Slot.clearFull; split <;> rfl
@[simp] theorem Slot.clearFull_pend (x : Slot) (n : Nat) : (x.clearFull n).pend = x.pend := by unfold Slot.clearFull; split <;> rfl
@[simp] theorem Slot.clearFull_cpend (x : Slot) (n : Nat) : (x.clearFull n).cpend = x.cpend := by unfold Slot.clearFull; split <;> rfl
@[simp] theorem Slot.clearFull_mon (x : Slot) (n : Nat) : (x.clearFull n).mon = x.mon := by unfold Slot.clearFull; split <;> rfl
@[simp] theorem Slot.clearFull_id (x : Slot) (n : Nat) : (x.clearFull n).id = x.id := by unfold Slot.clearFull; split <;> rfl
@[simp] theorem Slot.clearFull_rep (x : Slot) (n : Nat) : (x.clearFull n).rep = x.rep := by unfold Slot.clearFull; split <;> rfl
@[simp] theorem Slot.clearFull_park (x : Slot) (n : Nat) : (x.clearFull n).park = x.park := by unfold Slot.clearFull; split <;> rfl
@[simp] theorem Slot.clearFull_kept (x : Slot) (n : Nat) : (x.clearFull n).kept = x.kept := by unfold Slot.clearFull; split <;> rfl
@[simp] theorem Slot.clearFull_lease (x : Slot) (n : Nat) : (x.clearFull n).lease = x.lease := by unfold Slot.clearFull; split <;> rfl
@[simp] theorem Slot.clearFull_relet (x : Slot) (n : Nat) : (x.clearFull n).relet = x.relet := by unfold Slot.clearFull; split <;> rfl
@[simp] theorem Slot.clearFull_dde (x : Slot) (n : Nat) : (x.clearFull n).dde = x.dde := by unfold Slot.clearFull; split <;> rfl
@[simp] theorem Slot.clearFull_eng (x : Slot) (n : Nat) : (x.clearFull n).eng = x.eng := by unfold Slot.clearFull; split <;> rfl
@[simp] theorem Slot.clearFull_comps (x : Slot) (n : Nat) : (x.clearFull n).comps = x.comps := by unfold Slot.clearFull; split <;> rfl
@[simp] theorem Slot.clearFull_lost (x : Slot) (n : Nat) : (x.clearFull n).lost = x.lost := by unfold Slot.clearFull; split <;> rfl
@[simp] theorem Slot.clearFull_haltReq (x : Slot) (n : Nat) : (x.clearFull n).haltReq = x.haltReq := by unfold Slot.clearFull; split <;> rfl

/-! ## Slot.setPred -/

@[simp] theorem Slot.setPred_status (x : Slot) (n : Nat) (b : Bool) : (x.setPred n b).status = x.status := by unfold Slot.setPred; split <;> rfl
@[simp] theorem Slot.setPred_tid (x : Slot) (n : Nat) (b : Bool) : (x.setPred n b).tid = x.tid := by unfold Slot.setPred; split <;> rfl
@[simp] theorem Slot.setPred_pc (x : Slot) (n : Nat) (b : Bool) : (x.setPred n b).pc = x.pc := by unfold Slot.setPred; split <;> rfl
@[simp] theorem Slot.setPred_via (x : Slot) (n : Nat) (b : Bool) : (x.setPred n b).via = x.via := by unfold Slot.setPred; split <;> rfl
@[simp] theorem Slot.setPred_nh (x : Slot) (n : Nat) (b : Bool) : (x.setPred n b).nh = x.nh := by unfold Slot.setPred; split <;> rfl
@[simp] theorem Slot.setPred_g (x : Slot) (n : Nat) (b : Bool) : (x.setPred n b).g = x.g := by unfold Slot.setPred; split <;> rfl
@[simp] theorem Slot.setPred_full (x : Slot) (n : Nat) (b : Bool) : (x.setPred n b).full = x.full := by unfold Slot.setPred; split <;> rfl
@[simp] theorem Slot.setPred_v (x : Slot) (n : Nat) (b : Bool) : (x.setPred n b).v = x.v := by unfold Slot.setPred; split <;> rfl
@[simp] theorem Slot.setPred_k (x : Slot) (n : Nat) (b : Bool) : (x.setPred n b).k = x.k := by unfold Slot.setPred; split <;> rfl
@[simp] theorem Slot.setPred_loop (x : Slot) (n : Nat) (b : Bool) : (x.setPred n b).loop = x.loop := by unfold Slot.setPred; split <;> rfl
@[simp] theorem Slot.setPred_feretry (x : Slot) (n : Nat) (b : Bool) : (x.setPred n b).feretry = x.feretry := by unfold Slot.setPred; split <;> rfl
@[simp] theorem Slot.setPred_rngCtr (x : Slot) (n : Nat) (b : Bool) : (x.setPred n b).rngCtr = x.rngCtr := by unfold Slot.setPred; split <;> rfl
@[simp] theorem Slot.setPred_srCtr (x : Slot) (n : Nat) (b : Bool) : (x.setPred n b).srCtr = x.srCtr := by unfold Slot.setPred; split <;> rfl
@[simp] theorem Slot.setPred_inl (x : Slot) (n : Nat) (b : Bool) : (x.setPred n b).inl = x.inl := by unfold Slot.setPred; split <;> rfl
@[simp] theorem Slot.setPred_trap (x : Slot) (n : Nat) (b : Bool) : (x.setPred n b).trap = x.trap := by unfold Slot.setPred; split <;> rfl
@[simp] theorem Slot.setPred_sup (x : Slot) (n : Nat) (b : Bool) : (x.setPred n b).sup = x.sup := by unfold Slot.setPred; split <;> rfl
@[simp] theorem Slot.setPred_base (x : Slot) (n : Nat) (b : Bool) : (x.setPred n b).base = x.base := by unfold Slot.setPred; split <;> rfl
@[simp] theorem Slot.setPred_pend (x : Slot) (n : Nat) (b : Bool) : (x.setPred n b).pend = x.pend := by unfold Slot.setPred; split <;> rfl
@[simp] theorem Slot.setPred_cpend (x : Slot) (n : Nat) (b : Bool) : (x.setPred n b).cpend = x.cpend := by unfold Slot.setPred; split <;> rfl
@[simp] theorem Slot.setPred_mon (x : Slot) (n : Nat) (b : Bool) : (x.setPred n b).mon = x.mon := by unfold Slot.setPred; split <;> rfl
@[simp] theorem Slot.setPred_id (x : Slot) (n : Nat) (b : Bool) : (x.setPred n b).id = x.id := by unfold Slot.setPred; split <;> rfl
@[simp] theorem Slot.setPred_rep (x : Slot) (n : Nat) (b : Bool) : (x.setPred n b).rep = x.rep := by unfold Slot.setPred; split <;> rfl
@[simp] theorem Slot.setPred_park (x : Slot) (n : Nat) (b : Bool) : (x.setPred n b).park = x.park := by unfold Slot.setPred; split <;> rfl
@[simp] theorem Slot.setPred_kept (x : Slot) (n : Nat) (b : Bool) : (x.setPred n b).kept = x.kept := by unfold Slot.setPred; split <;> rfl
@[simp] theorem Slot.setPred_lease (x : Slot) (n : Nat) (b : Bool) : (x.setPred n b).lease = x.lease := by unfold Slot.setPred; split <;> rfl
@[simp] theorem Slot.setPred_relet (x : Slot) (n : Nat) (b : Bool) : (x.setPred n b).relet = x.relet := by unfold Slot.setPred; split <;> rfl
@[simp] theorem Slot.setPred_dde (x : Slot) (n : Nat) (b : Bool) : (x.setPred n b).dde = x.dde := by unfold Slot.setPred; split <;> rfl
@[simp] theorem Slot.setPred_eng (x : Slot) (n : Nat) (b : Bool) : (x.setPred n b).eng = x.eng := by unfold Slot.setPred; split <;> rfl
@[simp] theorem Slot.setPred_comps (x : Slot) (n : Nat) (b : Bool) : (x.setPred n b).comps = x.comps := by unfold Slot.setPred; split <;> rfl
@[simp] theorem Slot.setPred_lost (x : Slot) (n : Nat) (b : Bool) : (x.setPred n b).lost = x.lost := by unfold Slot.setPred; split <;> rfl
@[simp] theorem Slot.setPred_haltReq (x : Slot) (n : Nat) (b : Bool) : (x.setPred n b).haltReq = x.haltReq := by unfold Slot.setPred; split <;> rfl

/-! ## Slot.setV -/

@[simp] theorem Slot.setV_status (x : Slot) (n : Nat) (v : BitVec 1024) : (x.setV n v).status = x.status := rfl
@[simp] theorem Slot.setV_tid (x : Slot) (n : Nat) (v : BitVec 1024) : (x.setV n v).tid = x.tid := rfl
@[simp] theorem Slot.setV_pc (x : Slot) (n : Nat) (v : BitVec 1024) : (x.setV n v).pc = x.pc := rfl
@[simp] theorem Slot.setV_via (x : Slot) (n : Nat) (v : BitVec 1024) : (x.setV n v).via = x.via := rfl
@[simp] theorem Slot.setV_nh (x : Slot) (n : Nat) (v : BitVec 1024) : (x.setV n v).nh = x.nh := rfl
@[simp] theorem Slot.setV_g (x : Slot) (n : Nat) (v : BitVec 1024) : (x.setV n v).g = x.g := rfl
@[simp] theorem Slot.setV_full (x : Slot) (n : Nat) (v : BitVec 1024) : (x.setV n v).full = x.full := rfl
@[simp] theorem Slot.setV_p (x : Slot) (n : Nat) (v : BitVec 1024) : (x.setV n v).p = x.p := rfl
@[simp] theorem Slot.setV_k (x : Slot) (n : Nat) (v : BitVec 1024) : (x.setV n v).k = x.k := rfl
@[simp] theorem Slot.setV_loop (x : Slot) (n : Nat) (v : BitVec 1024) : (x.setV n v).loop = x.loop := rfl
@[simp] theorem Slot.setV_feretry (x : Slot) (n : Nat) (v : BitVec 1024) : (x.setV n v).feretry = x.feretry := rfl
@[simp] theorem Slot.setV_rngCtr (x : Slot) (n : Nat) (v : BitVec 1024) : (x.setV n v).rngCtr = x.rngCtr := rfl
@[simp] theorem Slot.setV_srCtr (x : Slot) (n : Nat) (v : BitVec 1024) : (x.setV n v).srCtr = x.srCtr := rfl
@[simp] theorem Slot.setV_inl (x : Slot) (n : Nat) (v : BitVec 1024) : (x.setV n v).inl = x.inl := rfl
@[simp] theorem Slot.setV_trap (x : Slot) (n : Nat) (v : BitVec 1024) : (x.setV n v).trap = x.trap := rfl
@[simp] theorem Slot.setV_sup (x : Slot) (n : Nat) (v : BitVec 1024) : (x.setV n v).sup = x.sup := rfl
@[simp] theorem Slot.setV_base (x : Slot) (n : Nat) (v : BitVec 1024) : (x.setV n v).base = x.base := rfl
@[simp] theorem Slot.setV_pend (x : Slot) (n : Nat) (v : BitVec 1024) : (x.setV n v).pend = x.pend := rfl
@[simp] theorem Slot.setV_cpend (x : Slot) (n : Nat) (v : BitVec 1024) : (x.setV n v).cpend = x.cpend := rfl
@[simp] theorem Slot.setV_mon (x : Slot) (n : Nat) (v : BitVec 1024) : (x.setV n v).mon = x.mon := rfl
@[simp] theorem Slot.setV_id (x : Slot) (n : Nat) (v : BitVec 1024) : (x.setV n v).id = x.id := rfl
@[simp] theorem Slot.setV_rep (x : Slot) (n : Nat) (v : BitVec 1024) : (x.setV n v).rep = x.rep := rfl
@[simp] theorem Slot.setV_park (x : Slot) (n : Nat) (v : BitVec 1024) : (x.setV n v).park = x.park := rfl
@[simp] theorem Slot.setV_kept (x : Slot) (n : Nat) (v : BitVec 1024) : (x.setV n v).kept = x.kept := rfl
@[simp] theorem Slot.setV_lease (x : Slot) (n : Nat) (v : BitVec 1024) : (x.setV n v).lease = x.lease := rfl
@[simp] theorem Slot.setV_relet (x : Slot) (n : Nat) (v : BitVec 1024) : (x.setV n v).relet = x.relet := rfl
@[simp] theorem Slot.setV_dde (x : Slot) (n : Nat) (v : BitVec 1024) : (x.setV n v).dde = x.dde := rfl
@[simp] theorem Slot.setV_eng (x : Slot) (n : Nat) (v : BitVec 1024) : (x.setV n v).eng = x.eng := rfl
@[simp] theorem Slot.setV_comps (x : Slot) (n : Nat) (v : BitVec 1024) : (x.setV n v).comps = x.comps := rfl
@[simp] theorem Slot.setV_lost (x : Slot) (n : Nat) (v : BitVec 1024) : (x.setV n v).lost = x.lost := rfl
@[simp] theorem Slot.setV_haltReq (x : Slot) (n : Nat) (v : BitVec 1024) : (x.setV n v).haltReq = x.haltReq := rfl

/-! ## Slot.setK -/

@[simp] theorem Slot.setK_status (x : Slot) (n : Nat) (v : BitVec 128) : (x.setK n v).status = x.status := rfl
@[simp] theorem Slot.setK_tid (x : Slot) (n : Nat) (v : BitVec 128) : (x.setK n v).tid = x.tid := rfl
@[simp] theorem Slot.setK_pc (x : Slot) (n : Nat) (v : BitVec 128) : (x.setK n v).pc = x.pc := rfl
@[simp] theorem Slot.setK_via (x : Slot) (n : Nat) (v : BitVec 128) : (x.setK n v).via = x.via := rfl
@[simp] theorem Slot.setK_nh (x : Slot) (n : Nat) (v : BitVec 128) : (x.setK n v).nh = x.nh := rfl
@[simp] theorem Slot.setK_g (x : Slot) (n : Nat) (v : BitVec 128) : (x.setK n v).g = x.g := rfl
@[simp] theorem Slot.setK_full (x : Slot) (n : Nat) (v : BitVec 128) : (x.setK n v).full = x.full := rfl
@[simp] theorem Slot.setK_p (x : Slot) (n : Nat) (v : BitVec 128) : (x.setK n v).p = x.p := rfl
@[simp] theorem Slot.setK_v (x : Slot) (n : Nat) (v : BitVec 128) : (x.setK n v).v = x.v := rfl
@[simp] theorem Slot.setK_loop (x : Slot) (n : Nat) (v : BitVec 128) : (x.setK n v).loop = x.loop := rfl
@[simp] theorem Slot.setK_feretry (x : Slot) (n : Nat) (v : BitVec 128) : (x.setK n v).feretry = x.feretry := rfl
@[simp] theorem Slot.setK_rngCtr (x : Slot) (n : Nat) (v : BitVec 128) : (x.setK n v).rngCtr = x.rngCtr := rfl
@[simp] theorem Slot.setK_srCtr (x : Slot) (n : Nat) (v : BitVec 128) : (x.setK n v).srCtr = x.srCtr := rfl
@[simp] theorem Slot.setK_inl (x : Slot) (n : Nat) (v : BitVec 128) : (x.setK n v).inl = x.inl := rfl
@[simp] theorem Slot.setK_trap (x : Slot) (n : Nat) (v : BitVec 128) : (x.setK n v).trap = x.trap := rfl
@[simp] theorem Slot.setK_sup (x : Slot) (n : Nat) (v : BitVec 128) : (x.setK n v).sup = x.sup := rfl
@[simp] theorem Slot.setK_base (x : Slot) (n : Nat) (v : BitVec 128) : (x.setK n v).base = x.base := rfl
@[simp] theorem Slot.setK_pend (x : Slot) (n : Nat) (v : BitVec 128) : (x.setK n v).pend = x.pend := rfl
@[simp] theorem Slot.setK_cpend (x : Slot) (n : Nat) (v : BitVec 128) : (x.setK n v).cpend = x.cpend := rfl
@[simp] theorem Slot.setK_mon (x : Slot) (n : Nat) (v : BitVec 128) : (x.setK n v).mon = x.mon := rfl
@[simp] theorem Slot.setK_id (x : Slot) (n : Nat) (v : BitVec 128) : (x.setK n v).id = x.id := rfl
@[simp] theorem Slot.setK_rep (x : Slot) (n : Nat) (v : BitVec 128) : (x.setK n v).rep = x.rep := rfl
@[simp] theorem Slot.setK_park (x : Slot) (n : Nat) (v : BitVec 128) : (x.setK n v).park = x.park := rfl
@[simp] theorem Slot.setK_kept (x : Slot) (n : Nat) (v : BitVec 128) : (x.setK n v).kept = x.kept := rfl
@[simp] theorem Slot.setK_lease (x : Slot) (n : Nat) (v : BitVec 128) : (x.setK n v).lease = x.lease := rfl
@[simp] theorem Slot.setK_relet (x : Slot) (n : Nat) (v : BitVec 128) : (x.setK n v).relet = x.relet := rfl
@[simp] theorem Slot.setK_dde (x : Slot) (n : Nat) (v : BitVec 128) : (x.setK n v).dde = x.dde := rfl
@[simp] theorem Slot.setK_eng (x : Slot) (n : Nat) (v : BitVec 128) : (x.setK n v).eng = x.eng := rfl
@[simp] theorem Slot.setK_comps (x : Slot) (n : Nat) (v : BitVec 128) : (x.setK n v).comps = x.comps := rfl
@[simp] theorem Slot.setK_lost (x : Slot) (n : Nat) (v : BitVec 128) : (x.setK n v).lost = x.lost := rfl
@[simp] theorem Slot.setK_haltReq (x : Slot) (n : Nat) (v : BitVec 128) : (x.setK n v).haltReq = x.haltReq := rfl

/-! ## Slot.ended -/

@[simp] theorem Slot.ended_tid (x : Slot) : (x.ended).tid = x.tid := by unfold Slot.ended; dsimp only; split <;> rfl
@[simp] theorem Slot.ended_pc (x : Slot) : (x.ended).pc = x.pc := by unfold Slot.ended; dsimp only; split <;> rfl
@[simp] theorem Slot.ended_via (x : Slot) : (x.ended).via = x.via := by unfold Slot.ended; dsimp only; split <;> rfl
@[simp] theorem Slot.ended_nh (x : Slot) : (x.ended).nh = x.nh := by unfold Slot.ended; dsimp only; split <;> rfl
@[simp] theorem Slot.ended_g (x : Slot) : (x.ended).g = x.g := by unfold Slot.ended; dsimp only; split <;> rfl
@[simp] theorem Slot.ended_full (x : Slot) : (x.ended).full = x.full := by unfold Slot.ended; dsimp only; split <;> rfl
@[simp] theorem Slot.ended_p (x : Slot) : (x.ended).p = x.p := by unfold Slot.ended; dsimp only; split <;> rfl
@[simp] theorem Slot.ended_v (x : Slot) : (x.ended).v = x.v := by unfold Slot.ended; dsimp only; split <;> rfl
@[simp] theorem Slot.ended_k (x : Slot) : (x.ended).k = x.k := by unfold Slot.ended; dsimp only; split <;> rfl
@[simp] theorem Slot.ended_loop (x : Slot) : (x.ended).loop = x.loop := by unfold Slot.ended; dsimp only; split <;> rfl
@[simp] theorem Slot.ended_feretry (x : Slot) : (x.ended).feretry = x.feretry := by unfold Slot.ended; dsimp only; split <;> rfl
@[simp] theorem Slot.ended_rngCtr (x : Slot) : (x.ended).rngCtr = x.rngCtr := by unfold Slot.ended; dsimp only; split <;> rfl
@[simp] theorem Slot.ended_srCtr (x : Slot) : (x.ended).srCtr = x.srCtr := by unfold Slot.ended; dsimp only; split <;> rfl
@[simp] theorem Slot.ended_inl (x : Slot) : (x.ended).inl = x.inl := by unfold Slot.ended; dsimp only; split <;> rfl
@[simp] theorem Slot.ended_trap (x : Slot) : (x.ended).trap = x.trap := by unfold Slot.ended; dsimp only; split <;> rfl
@[simp] theorem Slot.ended_sup (x : Slot) : (x.ended).sup = x.sup := by unfold Slot.ended; dsimp only; split <;> rfl
@[simp] theorem Slot.ended_base (x : Slot) : (x.ended).base = x.base := by unfold Slot.ended; dsimp only; split <;> rfl
@[simp] theorem Slot.ended_pend (x : Slot) : (x.ended).pend = x.pend := by unfold Slot.ended; dsimp only; split <;> rfl
@[simp] theorem Slot.ended_cpend (x : Slot) : (x.ended).cpend = x.cpend := by unfold Slot.ended; dsimp only; split <;> rfl
@[simp] theorem Slot.ended_mon (x : Slot) : (x.ended).mon = x.mon := by unfold Slot.ended; dsimp only; split <;> rfl
@[simp] theorem Slot.ended_id (x : Slot) : (x.ended).id = x.id := by unfold Slot.ended; dsimp only; split <;> rfl
@[simp] theorem Slot.ended_kept (x : Slot) : (x.ended).kept = x.kept := by unfold Slot.ended; dsimp only; split <;> rfl
@[simp] theorem Slot.ended_lease (x : Slot) : (x.ended).lease = x.lease := by unfold Slot.ended; dsimp only; split <;> rfl
@[simp] theorem Slot.ended_relet (x : Slot) : (x.ended).relet = x.relet := by unfold Slot.ended; dsimp only; split <;> rfl
@[simp] theorem Slot.ended_dde (x : Slot) : (x.ended).dde = x.dde := by unfold Slot.ended; dsimp only; split <;> rfl
@[simp] theorem Slot.ended_eng (x : Slot) : (x.ended).eng = x.eng := by unfold Slot.ended; dsimp only; split <;> rfl
@[simp] theorem Slot.ended_comps (x : Slot) : (x.ended).comps = x.comps := by unfold Slot.ended; dsimp only; split <;> rfl
@[simp] theorem Slot.ended_lost (x : Slot) : (x.ended).lost = x.lost := by unfold Slot.ended; dsimp only; split <;> rfl

/-! ## Slot.complete -/

@[simp] theorem Slot.complete_tid (x : Slot) : (x.complete).tid = x.tid := by simp [Slot.complete]
@[simp] theorem Slot.complete_nh (x : Slot) : (x.complete).nh = x.nh := by simp [Slot.complete]
@[simp] theorem Slot.complete_g (x : Slot) : (x.complete).g = x.g := by simp [Slot.complete]
@[simp] theorem Slot.complete_full (x : Slot) : (x.complete).full = x.full := by simp [Slot.complete]
@[simp] theorem Slot.complete_p (x : Slot) : (x.complete).p = x.p := by simp [Slot.complete]
@[simp] theorem Slot.complete_v (x : Slot) : (x.complete).v = x.v := by simp [Slot.complete]
@[simp] theorem Slot.complete_k (x : Slot) : (x.complete).k = x.k := by simp [Slot.complete]
@[simp] theorem Slot.complete_feretry (x : Slot) : (x.complete).feretry = x.feretry := by simp [Slot.complete]
@[simp] theorem Slot.complete_rngCtr (x : Slot) : (x.complete).rngCtr = x.rngCtr := by simp [Slot.complete]
@[simp] theorem Slot.complete_srCtr (x : Slot) : (x.complete).srCtr = x.srCtr := by simp [Slot.complete]
@[simp] theorem Slot.complete_inl (x : Slot) : (x.complete).inl = x.inl := by simp [Slot.complete]
@[simp] theorem Slot.complete_trap (x : Slot) : (x.complete).trap = x.trap := by simp [Slot.complete]
@[simp] theorem Slot.complete_sup (x : Slot) : (x.complete).sup = x.sup := by simp [Slot.complete]
@[simp] theorem Slot.complete_base (x : Slot) : (x.complete).base = x.base := by simp [Slot.complete]
@[simp] theorem Slot.complete_pend (x : Slot) : (x.complete).pend = x.pend := by simp [Slot.complete]
@[simp] theorem Slot.complete_cpend (x : Slot) : (x.complete).cpend = x.cpend := by simp [Slot.complete]
@[simp] theorem Slot.complete_mon (x : Slot) : (x.complete).mon = x.mon := by simp [Slot.complete]
@[simp] theorem Slot.complete_id (x : Slot) : (x.complete).id = x.id := by simp [Slot.complete]
@[simp] theorem Slot.complete_kept (x : Slot) : (x.complete).kept = x.kept := by simp [Slot.complete]
@[simp] theorem Slot.complete_lease (x : Slot) : (x.complete).lease = x.lease := by simp [Slot.complete]
@[simp] theorem Slot.complete_relet (x : Slot) : (x.complete).relet = x.relet := by simp [Slot.complete]
@[simp] theorem Slot.complete_dde (x : Slot) : (x.complete).dde = x.dde := by simp [Slot.complete]
@[simp] theorem Slot.complete_eng (x : Slot) : (x.complete).eng = x.eng := by simp [Slot.complete]
@[simp] theorem Slot.complete_comps (x : Slot) : (x.complete).comps = x.comps := by simp [Slot.complete]
@[simp] theorem Slot.complete_lost (x : Slot) : (x.complete).lost = x.lost := by simp [Slot.complete]

/-! ## Slot.jump -/

@[simp] theorem Slot.jump_tid (x : Slot) (t : Word) : (x.jump t).tid = x.tid := by simp [Slot.jump]
@[simp] theorem Slot.jump_nh (x : Slot) (t : Word) : (x.jump t).nh = x.nh := by simp [Slot.jump]
@[simp] theorem Slot.jump_g (x : Slot) (t : Word) : (x.jump t).g = x.g := by simp [Slot.jump]
@[simp] theorem Slot.jump_full (x : Slot) (t : Word) : (x.jump t).full = x.full := by simp [Slot.jump]
@[simp] theorem Slot.jump_p (x : Slot) (t : Word) : (x.jump t).p = x.p := by simp [Slot.jump]
@[simp] theorem Slot.jump_v (x : Slot) (t : Word) : (x.jump t).v = x.v := by simp [Slot.jump]
@[simp] theorem Slot.jump_k (x : Slot) (t : Word) : (x.jump t).k = x.k := by simp [Slot.jump]
@[simp] theorem Slot.jump_loop (x : Slot) (t : Word) : (x.jump t).loop = x.loop := by simp [Slot.jump]
@[simp] theorem Slot.jump_feretry (x : Slot) (t : Word) : (x.jump t).feretry = x.feretry := by simp [Slot.jump]
@[simp] theorem Slot.jump_rngCtr (x : Slot) (t : Word) : (x.jump t).rngCtr = x.rngCtr := by simp [Slot.jump]
@[simp] theorem Slot.jump_srCtr (x : Slot) (t : Word) : (x.jump t).srCtr = x.srCtr := by simp [Slot.jump]
@[simp] theorem Slot.jump_inl (x : Slot) (t : Word) : (x.jump t).inl = x.inl := by simp [Slot.jump]
@[simp] theorem Slot.jump_trap (x : Slot) (t : Word) : (x.jump t).trap = x.trap := by simp [Slot.jump]
@[simp] theorem Slot.jump_sup (x : Slot) (t : Word) : (x.jump t).sup = x.sup := by simp [Slot.jump]
@[simp] theorem Slot.jump_base (x : Slot) (t : Word) : (x.jump t).base = x.base := by simp [Slot.jump]
@[simp] theorem Slot.jump_pend (x : Slot) (t : Word) : (x.jump t).pend = x.pend := by simp [Slot.jump]
@[simp] theorem Slot.jump_cpend (x : Slot) (t : Word) : (x.jump t).cpend = x.cpend := by simp [Slot.jump]
@[simp] theorem Slot.jump_mon (x : Slot) (t : Word) : (x.jump t).mon = x.mon := by simp [Slot.jump]
@[simp] theorem Slot.jump_id (x : Slot) (t : Word) : (x.jump t).id = x.id := by simp [Slot.jump]
@[simp] theorem Slot.jump_kept (x : Slot) (t : Word) : (x.jump t).kept = x.kept := by simp [Slot.jump]
@[simp] theorem Slot.jump_lease (x : Slot) (t : Word) : (x.jump t).lease = x.lease := by simp [Slot.jump]
@[simp] theorem Slot.jump_relet (x : Slot) (t : Word) : (x.jump t).relet = x.relet := by simp [Slot.jump]
@[simp] theorem Slot.jump_dde (x : Slot) (t : Word) : (x.jump t).dde = x.dde := by simp [Slot.jump]
@[simp] theorem Slot.jump_eng (x : Slot) (t : Word) : (x.jump t).eng = x.eng := by simp [Slot.jump]
@[simp] theorem Slot.jump_comps (x : Slot) (t : Word) : (x.jump t).comps = x.comps := by simp [Slot.jump]
@[simp] theorem Slot.jump_lost (x : Slot) (t : Word) : (x.jump t).lost = x.lost := by simp [Slot.jump]

/-! ## Reads after updates -/

@[simp] theorem State.slot_setSlot (s : State) (n : Nat) (x : Slot) : (s.setSlot n x).slot n = x := val_put_same _ _ _ _
theorem State.slot_setSlot_other (s : State) (n m : Nat) (x : Slot) (h : m ≠ n) : (s.setSlot n x).slot m = s.slot m :=
  val_put_other _ _ _ _ _ h
@[simp] theorem State.slot_onSlot (s : State) (n : Nat) (f : Slot → Slot) : (s.onSlot n f).slot n = f (s.slot n) :=
  val_put_same _ _ _ _
theorem State.slot_onSlot_other (s : State) (n m : Nat) (f : Slot → Slot) (h : m ≠ n) :
    (s.onSlot n f).slot m = s.slot m := val_put_other _ _ _ _ _ h
@[simp] theorem State.me_onMe (s : State) (f : Slot → Slot) : (s.onMe f).me = f s.me := val_put_same _ _ _ _
@[simp] theorem State.slot_onMe (s : State) (f : Slot → Slot) : (s.onMe f).slot s.agent = f s.me := val_put_same _ _ _ _
theorem State.slot_onMe_other (s : State) (m : Nat) (f : Slot → Slot) (h : m ≠ s.agent) :
    (s.onMe f).slot m = s.slot m := val_put_other _ _ _ _ _ h
@[simp] theorem State.me_onCore (s : State) (c : Nat) (f : Core → Core) : (s.onCore c f).me = s.me := rfl
@[simp] theorem State.me_onMyCore (s : State) (f : Core → Core) : (s.onMyCore f).me = s.me := rfl
@[simp] theorem State.me_onTile (s : State) (t : Nat) (f : Tile → Tile) : (s.onTile t f).me = s.me := rfl
@[simp] theorem State.slot_onCore (s : State) (c n : Nat) (f : Core → Core) : (s.onCore c f).slot n = s.slot n := rfl
@[simp] theorem State.slot_onTile (s : State) (t n : Nat) (f : Tile → Tile) : (s.onTile t f).slot n = s.slot n := rfl
@[simp] theorem State.core_onCore (s : State) (c : Nat) (f : Core → Core) : (s.onCore c f).core c = f (s.core c) :=
  val_put_same _ _ _ _
theorem State.core_onCore_other (s : State) (c d : Nat) (f : Core → Core) (h : d ≠ c) :
    (s.onCore c f).core d = s.core d := val_put_other _ _ _ _ _ h
@[simp] theorem State.core_onSlot (s : State) (n c : Nat) (f : Slot → Slot) : (s.onSlot n f).core c = s.core c := rfl
@[simp] theorem State.core_onMe (s : State) (c : Nat) (f : Slot → Slot) : (s.onMe f).core c = s.core c := rfl
@[simp] theorem State.core_onTile (s : State) (t c : Nat) (f : Tile → Tile) : (s.onTile t f).core c = s.core c := rfl
@[simp] theorem State.tile_onTile (s : State) (t : Nat) (f : Tile → Tile) : (s.onTile t f).tile t = f (s.tile t) :=
  val_put_same _ _ _ _
theorem State.tile_onTile_other (s : State) (t u : Nat) (f : Tile → Tile) (h : u ≠ t) :
    (s.onTile t f).tile u = s.tile u := val_put_other _ _ _ _ _ h
@[simp] theorem State.tile_onMe (s : State) (t : Nat) (f : Slot → Slot) : (s.onMe f).tile t = s.tile t := rfl
@[simp] theorem State.tile_onCore (s : State) (c t : Nat) (f : Core → Core) : (s.onCore c f).tile t = s.tile t := rfl
@[simp] theorem State.store_mem' (s : State) (pa : Nat) (bs : List Byte) (a : Attr) :
    (s.store pa bs a).mem = memWrite s.mem pa bs := by simp [State.store]

/-- Register 0 reads 0 whatever was written; any other register reads what was last written. -/
@[simp] theorem Slot.reg_zero (x : Slot) : x.reg 0 = 0 := rfl
theorem Slot.reg_setReg (x : Slot) (n : Nat) (v : Word) (h : n ≠ 0) : (x.setReg n v).reg n = v := by
  simp [Slot.reg, Slot.setReg, h, val_put_same]
theorem Slot.reg_setReg_other (x : Slot) (n m : Nat) (v : Word) (h : m ≠ n) : (x.setReg n v).reg m = x.reg m := by
  unfold Slot.setReg Slot.reg
  split
  · rfl
  · split
    · rfl
    · exact val_put_other _ _ _ _ _ h
theorem Slot.reg_congr {x y : Slot} (h : x.g = y.g) (n : Nat) : x.reg n = y.reg n := by simp [Slot.reg, h]
@[simp] theorem Slot.reg_clearFull (x : Slot) (n m : Nat) : (x.clearFull n).reg m = x.reg m := by simp [Slot.reg]
@[simp] theorem Slot.reg_complete (x : Slot) (m : Nat) : x.complete.reg m = x.reg m := by simp [Slot.reg]
@[simp] theorem Slot.reg_jump (x : Slot) (t : Word) (m : Nat) : (x.jump t).reg m = x.reg m := by simp [Slot.reg]
@[simp] theorem Slot.complete_pc (x : Slot) : x.complete.pc = x.loopNext.2 := by simp [Slot.complete]
@[simp] theorem Slot.complete_loop (x : Slot) : x.complete.loop = x.loopNext.1 := by simp [Slot.complete]
@[simp] theorem Slot.jump_pc (x : Slot) (t : Word) : (x.jump t).pc = t := by simp [Slot.jump]

/-! ## The operand step -/

/-- Taking the operands touches full bits, queues and mailboxes alone. -/
theorem State.takeOne_mem (s : State) (a : Src) : (s.takeOne a).2.mem = s.mem := by
  unfold State.takeOne; split
  · dsimp only; split <;> rfl
  · rfl
  · rfl

theorem State.takeAll_mem (as : List Src) (s : State) : (s.takeAll as).2.mem = s.mem := by
  induction as generalizing s with
  | nil => rfl
  | cons a as ih => exact (ih _).trans (s.takeOne_mem a)

/-- A slot that performs nothing once for its set has no mirrors. -/
theorem State.mirrors_nil (s : State) (h : s.me.park.once = false) : s.mirrors = [] := by
  simp [State.mirrors, State.mirrorsOf, h]

/-- Then its result goes to its own destination alone. -/
theorem State.give_alone (s : State) (o : Opnd) (v : Word) (j : Option Word) (h : s.me.park.once = false) :
    s.give o v j = s.writeOpnd o v := by
  have h' : (s.writeOpnd o v).me.park.once = false := by
    cases o with
    | g n => simpa [State.writeOpnd] using h
    | q n => exact h
    | mb m => exact h
  simp [State.give, State.giveMirrors, State.mirrors_nil _ h']

theorem State.onUs_alone (s : State) (f : Slot → Slot) (h : s.me.park.once = false) : s.onUs f = s.onMe f := by
  simp [State.onUs, s.mirrors_nil h]

end Sys2Proof.Machine
end

