-- ==== Sys2Proof/Laws/Memory.lean ====
section
/-! SUPPORT. Every memory operation keeps the canonical form of memory (log 6), a read after a write gives what was written,
and a write leaves every other byte alone. -/

namespace Sys2Proof.Machine

set_option Elab.async false

open Sys2Proof

/-! ## The canonical form -/

theorem mem_put {α : Type} {k : Nat} {v : α} {t : Table α} {e : Nat × α} (h : e ∈ Table.put k v t) :
    e = (k, v) ∨ e ∈ t := by
  induction t with
  | nil => simpa [Table.put] using h
  | cons c t ih =>
    obtain ⟨k', v'⟩ := c
    simp only [Table.put] at h
    split at h
    · simpa using h
    · split at h
      · exact (List.mem_cons.1 h).imp id (List.mem_cons_of_mem _)
      · rcases List.mem_cons.1 h with h | h
        · exact .inr (h ▸ List.mem_cons_self)
        · exact (ih h).imp id (List.mem_cons_of_mem _)

theorem put_rising {α : Type} (k : Nat) (v : α) {t : Table α} (h : t.Pairwise (·.1 < ·.1)) :
    (Table.put k v t).Pairwise (·.1 < ·.1) := by
  induction t with
  | nil => simp [Table.put]
  | cons c t ih =>
    obtain ⟨k', v'⟩ := c
    obtain ⟨h1, h2⟩ := List.pairwise_cons.1 h
    simp only [Table.put]
    split
    · rename_i hk
      refine List.pairwise_cons.2 ⟨fun e he => ?_, h⟩
      rcases List.mem_cons.1 he with rfl | he
      · exact hk
      · exact Nat.lt_trans hk (h1 e he)
    · split
      · rename_i hk
        subst hk
        exact List.pairwise_cons.2 ⟨h1, h2⟩
      · refine List.pairwise_cons.2 ⟨fun e he => ?_, ih h2⟩
        rcases mem_put he with rfl | he
        · show k' < k
          omega
        · exact h1 e he

theorem wf_nil : Memory.wf [] := ⟨.nil, nofun⟩

theorem wf_filter {m : List Host.Cell} (f : Host.Cell → Bool) (h : Memory.wf m) : Memory.wf (m.filter f) :=
  ⟨h.1.filter f, fun c hc => h.2 c ((List.mem_filter.1 hc).1)⟩

theorem memSet_wf {m : List Host.Cell} (a : Nat) (b : Byte) (h : Memory.wf m) : Memory.wf (memSet m a b) := by
  unfold memSet
  split
  · exact wf_filter _ h
  · rename_i hb
    refine ⟨put_rising a b h.1, fun c hc => ?_⟩
    rcases mem_put hc with rfl | hc
    · exact hb
    · exact h.2 c hc

theorem memWrite_wf {m : List Host.Cell} (a : Nat) (bs : List Byte) (h : Memory.wf m) : Memory.wf (memWrite m a bs) := by
  induction bs generalizing m a with
  | nil => exact h
  | cons b bs ih => exact ih _ (memSet_wf a b h)

theorem foldl_memSet_wf {m : List Host.Cell} (cs : List Host.Cell) (h : Memory.wf m) :
    Memory.wf (cs.foldl (fun m c => memSet m c.1 c.2) m) := by
  induction cs generalizing m with
  | nil => exact h
  | cons c cs ih => exact ih (memSet_wf c.1 c.2 h)

theorem reset_memWf : State.reset.memWf := wf_nil

/-! ## Reading after writing -/

theorem memByte_memSet_same (m : List Host.Cell) (a : Nat) (b : Byte) : memByte (memSet m a b) a = b := by
  unfold memByte memSet
  split
  · rename_i hb
    rw [val_del_same, hb]
  · exact val_put_same ..

theorem memByte_memSet_other (m : List Host.Cell) (a c : Nat) (b : Byte) (h : c ≠ a) :
    memByte (memSet m a b) c = memByte m c := by
  unfold memByte memSet
  split
  · exact val_del_other _ _ _ _ h
  · exact val_put_other _ _ _ _ _ h

/-- A write leaves every byte outside it alone. -/
theorem memByte_memWrite_other (m : List Host.Cell) (a c : Nat) (bs : List Byte) (h : c < a ∨ a + bs.length ≤ c) :
    memByte (memWrite m a bs) c = memByte m c := by
  induction bs generalizing m a with
  | nil => rfl
  | cons b bs ih =>
    simp only [List.length_cons] at h
    rw [memWrite, ih _ _ (by omega), memByte_memSet_other _ _ _ _ (by omega)]

/-- Byte `n` of a write reads as the `n`th byte written. -/
theorem memByte_memWrite_at (m : List Host.Cell) (a : Nat) (bs : List Byte) (n : Nat) (h : n < bs.length) :
    memByte (memWrite m a bs) (a + n) = bs[n] := by
  induction bs generalizing m a n with
  | nil => simp at h
  | cons b bs ih =>
    cases n with
    | zero => rw [memWrite, memByte_memWrite_other _ _ _ _ (by omega), Nat.add_zero, memByte_memSet_same]; rfl
    | succ n =>
      rw [memWrite, show a + (n + 1) = a + 1 + n by omega, ih _ _ _ (by simpa using h)]
      rfl

theorem memRead_memWrite_other (m : List Host.Cell) (a c n : Nat) (bs : List Byte) (h : c + n ≤ a ∨ a + bs.length ≤ c) :
    memRead (memWrite m a bs) c n = memRead m c n := by
  induction n generalizing c with
  | zero => rfl
  | succ n ih => rw [memRead, memRead, memByte_memWrite_other _ _ _ _ (by omega), ih _ (by omega)]

theorem memRead_length (m : List Host.Cell) (a n : Nat) : (memRead m a n).length = n := by
  induction n generalizing a with
  | zero => rfl
  | succ n ih => simp [memRead, ih]

/-- What was written is what is read. -/
theorem memRead_memWrite_same (m : List Host.Cell) (a : Nat) (bs : List Byte) :
    memRead (memWrite m a bs) a bs.length = bs := by
  induction bs generalizing m a with
  | nil => rfl
  | cons b bs ih =>
    rw [List.length_cons, memRead, memWrite, memByte_memWrite_other _ _ _ _ (by omega), memByte_memSet_same, ih]

/-! ## Stores -/

/-- All that a store does to memory. -/
@[simp] theorem State.store_mem (s : State) (pa : Nat) (bs : List Byte) (a : Attr) :
    (s.store pa bs a).mem = memWrite s.mem pa bs := by simp [State.store]

theorem State.store_memWf {s : State} (pa : Nat) (bs : List Byte) (a : Attr) (h : s.memWf) : (s.store pa bs a).memWf := by
  unfold State.memWf
  rw [State.store_mem]
  exact memWrite_wf pa bs h

/-- All that a write does to memory. -/
@[simp] theorem State.write_mem (s : State) (pa : Nat) (bs : List Byte) (a : Attr) :
    (s.write pa bs a).mem = memWrite s.mem pa bs := by
  rw [← s.store_mem pa bs a]
  exact foldl_same (·.mem) _
    (fun _ _ => foldl_same (·.mem) _ (fun s i => by unfold State.onCtx; split <;> rfl) _ _) _ _

theorem State.write_memWf {s : State} (pa : Nat) (bs : List Byte) (a : Attr) (h : s.memWf) : (s.write pa bs a).memWf := by
  unfold State.memWf
  rw [State.write_mem]
  exact memWrite_wf pa bs h

@[simp] theorem State.overtake_mem (s : State) (p : Piece) : (s.overtake p).mem = s.mem := by
  unfold State.overtake
  split <;> rfl

/-- The release that a copy makes late leaves memory alone. -/
@[simp] theorem State.settleAll_mem (s : State) : s.settleAll.mem = s.mem := rfl

theorem State.storePieces_memWf {s : State} (ps : List Piece) (bs : List Byte) (h : s.memWf) :
    (s.storePieces ps bs).memWf := by
  induction ps generalizing s bs with
  | nil => exact h
  | cons p ps ih => exact ih _ (State.write_memWf (s := s.overtake p) _ _ _ (by unfold State.memWf at h ⊢; simpa using h))

/-- A store over pieces leaves every byte outside the pieces alone. -/
theorem State.storePieces_other (s : State) (ps : List Piece) (bs : List Byte) (a : Nat)
    (h : ∀ p ∈ ps, a < p.pa ∨ p.pa + p.len ≤ a) : memByte (s.storePieces ps bs).mem a = memByte s.mem a := by
  induction ps generalizing s bs with
  | nil => rfl
  | cons p ps ih =>
    rw [State.storePieces, ih _ _ (fun q hq => h q (List.mem_cons_of_mem _ hq)), State.write_mem,
      memByte_memWrite_other, State.overtake_mem]
    have := h p List.mem_cons_self
    have : (bs.take p.len).length ≤ p.len := by
      rw [List.length_take]
      exact Nat.min_le_left ..
    omega

/-! ## The shared operations of a slot keep the form

`Keeps o`: where `o` goes on, the memory of its state stands in canonical form. -/

structure Keeps (o : Out) : Prop where
  mem : ∀ t, o = .next t → t.memWf

theorem keeps_next {t : State} (h : t.memWf) : Keeps (.next t) := ⟨fun _ e => by cases e; exact h⟩

/-- An update that leaves memory alone keeps its form. -/
theorem State.memWf_of_mem {s t : State} (h : s.memWf) (e : t.mem = s.mem) : t.memWf := by
  unfold State.memWf
  rw [e]
  exact h

/-- What every step of a fold keeps, the fold keeps. -/
theorem foldl_keeps {α : Type} (P : State → Prop) (f : State → α → State) (hf : ∀ s a, P s → P (f s a)) (l : List α)
    {s : State} (h : P s) : P (l.foldl f s) := by
  induction l generalizing s with
  | nil => exact h
  | cons a l ih => exact ih (hf s a h)

@[simp] theorem State.onUs_mem (s : State) (f : Slot → Slot) : (s.onUs f).mem = s.mem :=
  foldl_same (·.mem) (fun t tid => State.onTid t tid f) (fun _ _ => rfl) _ _

@[simp] theorem State.loseWrite_mem (s : State) (tids : List Nat) (va : Word) : (s.loseWrite tids va).mem = s.mem :=
  foldl_same (·.mem) (fun s t => s.onTid t fun x => { x with lost := some va }) (fun _ _ => rfl) _ _

@[simp] theorem State.loseLate_mem (s : State) (tids : List Nat) : (s.loseLate tids).mem = s.mem := by
  unfold State.loseLate
  dsimp only
  split
  · rfl
  · exact foldl_same (·.mem) (fun (s : State) (w : RemoteWrite) => s.loseWrite w.tids w.va)
      (fun s w => s.loseWrite_mem w.tids w.va) _ _

@[simp] theorem State.pick_mem (s : State) (n : Nat) : (s.pick n).2.mem = s.mem := by
  unfold State.pick; split <;> rfl

theorem State.unsent_memWf {s : State} (w : RemoteWrite) (h : s.memWf) : (s.unsent w).memWf := by
  unfold State.unsent
  split
  · exact memWrite_wf _ _ h
  · exact h

theorem State.settle_memWf {s : State} (ps : List Piece) (h : s.memWf) : (s.settle ps).memWf := by
  unfold State.settle
  split <;> exact h

theorem State.settleElse_memWf {s : State} (p : Nat) (q : Piece) (h : s.memWf) : (s.settleElse p q).memWf := h

@[simp] theorem State.underWay_mem (s : State) (o : Outgoing) : (s.underWay o).mem = s.mem := by
  unfold State.underWay
  split
  · rfl
  · split <;> rfl

theorem State.departWrite_memWf {s : State} (p : Nat) (tids : List Nat) (va : Word) (r : Config.Request)
    (epoch : Option Word) (tied : Bool) (h : s.memWf) : (s.departWrite p tids va r epoch tied).memWf := by
  unfold State.departWrite
  refine State.memWf_of_mem (s := State.store ..) (State.store_memWf _ _ _ (State.memWf_of_mem ?_ (State.overtake_mem ..))) rfl
  cases r <;> first | exact State.settle_memWf _ h | exact State.settleElse_memWf _ _ h

/-- What departs keeps the form: a remote write performs its bytes, all else leaves memory alone. -/
theorem State.depart_memWf {s : State} (p : Nat) (o : Outgoing) (h : s.memWf) : (s.depart p o).memWf := by
  cases o with
  | write => exact State.departWrite_memWf _ _ _ _ _ _ h
  | request | result | message | reply => exact h

theorem State.post_memWf {s : State} (p : Nat) (o : Outgoing) (h : s.memWf) : (s.post p o).memWf := by
  unfold State.post
  split
  · exact h
  · exact State.depart_memWf _ _ h

theorem State.takePort_memWf {s : State} (p q : Nat) (o : Outgoing) (h : s.memWf) : (s.takePort p q o).memWf := by
  refine State.memWf_of_mem ?_ (State.underWay_mem ..)
  cases o <;> exact State.post_memWf _ _ h

theorem State.reroute_memWf {s : State} (h : s.memWf) : s.reroute.memWf := by
  unfold State.reroute
  refine foldl_keeps State.memWf _ (fun s p h => ?_) _ h
  refine foldl_keeps State.memWf _ (fun t o h => ?_) _ h
  split
  · exact State.takePort_memWf _ _ _ h
  · exact h

/-- A port that goes Down lets what waits leave by another, and takes back remote writes. -/
theorem State.portDown_memWf {s : State} (p : Nat) (h : s.memWf) : (s.portDown p).memWf := by
  have h := State.reroute_memWf (s := s.onPort p fun x => { x with state := .down }) h
  unfold State.portDown
  refine foldl_keeps State.memWf _ (fun s o h => ?_) _
    (foldl_keeps State.memWf _ (fun s w h => State.memWf_of_mem h (s.loseWrite_mem ..)) _
      (foldl_keeps State.memWf _ (fun s w h => State.unsent_memWf w h) _ (State.memWf_of_mem h (State.pick_mem ..))))
  cases o with
  | write => exact State.memWf_of_mem h (s.loseWrite_mem ..)
  | request | result | message | reply => exact h

theorem State.freezeBy_memWf {s : State} (r : Bool) (src : BitVec 2) (h : s.memWf) : (s.freezeBy r src).memWf := by
  unfold State.freezeBy
  split
  · exact foldl_keeps State.memWf _ (fun _ _ h => State.portDown_memWf _ h) _ h
  · split <;> exact h
  · exact h

theorem State.trapSlot_memWf {s : State} (n code : Nat) (tpc taddr : Word) (async : Bool) (h : s.memWf) :
    (s.trapSlot n code tpc taddr async).memWf := by
  unfold State.trapSlot
  split
  · exact h
  · exact State.freezeBy_memWf _ _ h

@[simp] theorem State.giveOne_mem (s : State) (n : Nat) (e : Src × Word) : (s.giveOne n e).mem = s.mem := by
  unfold State.giveOne
  split
  · split <;> rfl
  · rfl
  · rfl

@[simp] theorem State.giveBack_mem (s : State) (n : Nat) : (s.giveBack n).mem = s.mem := by
  unfold State.giveBack
  dsimp only
  split
  · split
    · exact foldl_same (·.mem) _ (fun s e => s.giveOne_mem n e) _ _
    · rfl
  · rfl

theorem State.trapTo_memWf {s : State} (n code : Nat) (taddr : Word) (h : s.memWf) : (s.trapTo n code taddr).memWf :=
  State.trapSlot_memWf _ _ _ _ _ (State.memWf_of_mem h (s.giveBack_mem n))

theorem State.trapTid_memWf {s : State} (tid code : Nat) (taddr : Word) (h : s.memWf) :
    (s.trapTid tid code taddr).memWf := by
  unfold State.trapTid
  split
  · exact State.trapTo_memWf _ _ _ h
  · split
    · exact h
    · split
      · exact h
      · exact State.freezeBy_memWf _ _ h

@[simp] theorem State.writeOpnd_mem (s : State) (o : Opnd) (v : Word) : (s.writeOpnd o v).mem = s.mem := by
  cases o <;> rfl

@[simp] theorem State.giveMirrors_mem (s : State) (o : Opnd) (v : Word) (jump : Option Word) :
    (s.giveMirrors o v jump).mem = s.mem :=
  foldl_same (·.mem) (fun t tid => State.onTid t tid _) (fun _ _ => rfl) _ _

@[simp] theorem State.give_mem (s : State) (o : Opnd) (v : Word) (jump : Option Word) :
    (s.give o v jump).mem = s.mem := by
  simp [State.give]

@[simp] theorem State.resultWaits_mem (s : State) (r : MailOut) : (s.resultWaits r).mem = s.mem := by
  unfold State.resultWaits
  dsimp only [State.onMe_mem]
  split <;> simp

section

variable {s : State} (h : s.memWf)

include h

theorem State.park_keeps (w : Wait) : Keeps (s.park w) := keeps_next h

theorem State.trap_keeps (code : Nat) (taddr : Word) : Keeps (s.trap code taddr) :=
  keeps_next (foldl_keeps State.memWf _ (fun _ _ h => State.trapTid_memWf _ _ _ h) _ (State.trapTo_memWf _ _ _ h))

theorem State.done_keeps : Keeps s.done := keeps_next (State.memWf_of_mem h (by simp))

theorem State.goto_keeps (t : Word) : Keeps (s.goto t) := keeps_next (State.memWf_of_mem h (by simp))

theorem State.doneRegs_keeps (ws : List (Nat × Word)) : Keeps (s.doneRegs ws) := keeps_next (State.memWf_of_mem h (by simp))

theorem State.holdOut_keeps (m : Fin 4) (v : Word) (jump : Option Word) (d : Bool) : Keeps (s.holdOut m v jump d) :=
  park_keeps (State.memWf_of_mem h (s.resultWaits_mem _)) _

theorem State.holdQueue_keeps (n : Fin 8) (v : Word) (jump : Option Word) (d : Bool) :
    Keeps (s.holdQueue n v jump d) := park_keeps (State.memWf_of_mem h (s.resultWaits_mem _)) _

theorem State.finish_keeps (o : Opnd) (v : Word) (eff : Bool) : Keeps (s.finish o v eff) := by
  have hg : ((s.give o v none).onMe Slot.complete).memWf := State.memWf_of_mem h (by simp)
  unfold State.finish
  split
  · exact doneRegs_keeps h _
  · split
    · exact keeps_next hg
    · exact holdQueue_keeps h ..
  · split
    · exact holdOut_keeps h ..
    · exact keeps_next hg

theorem State.finishJump_keeps (o : Opnd) (v t : Word) : Keeps (s.finishJump o v t) := by
  have hw : Keeps ((s.writeOpnd o v).goto t) := goto_keeps (State.memWf_of_mem h (by simp)) t
  unfold State.finishJump
  split
  · exact hw
  · split
    · exact hw
    · exact holdQueue_keeps h ..
  · split
    · exact holdOut_keeps h ..
    · exact hw

theorem State.finishOut_keeps (r : MailOut) : Keeps (s.finishOut r) := by
  unfold State.finishOut
  split
  · exact park_keeps h _
  · split
    · exact finish_keeps h ..
    · exact finishJump_keeps h ..

theorem State.guarded_keeps (g : Guard) (k : State → Out) (hk : Keeps (k s)) : Keeps (s.guarded g k) := by
  unfold State.guarded
  split
  · exact hk
  · exact done_keeps h

theorem State.operands_keeps (srcs : List Src) (dsts : List Opnd) (k : List Word → State → Out)
    (hk : ∀ vs t, t.memWf → Keeps (k vs t)) : Keeps (s.operands srcs dsts k) := by
  unfold State.operands
  split
  · exact trap_keeps h ..
  · split
    · exact hk _ _ h
    · split
      · exact hk _ _ (State.memWf_of_mem h (s.takeAll_mem srcs))
      · exact park_keeps h _

theorem State.parkWalk_keeps (va : Word) : Keeps (s.parkWalk va) :=
  park_keeps (s := s.slotMiss va) h _

theorem State.send_keeps (va : Word) (ps : List Piece) (as : Piece → Config.Request) : Keeps (s.send va ps as) := by
  refine park_keeps (s := List.foldl _ _ _) ?_ _
  refine foldl_keeps State.memWf _ (fun t p h => ?_) _ h
  split
  · exact State.post_memWf _ _ h
  · exact h

theorem State.withAccess_keeps (va : Word) (size : Nat) (r w : Bool) (k : List Piece → Out) (hk : ∀ ps, Keeps (k ps)) :
    Keeps (s.withAccess va size r w k) := by
  unfold State.withAccess
  split
  · exact trap_keeps h ..
  · exact parkWalk_keeps h _
  · exact hk _

theorem State.castVote_keeps (v : VoteAt) (record : List Byte) : Keeps (s.castVote v record) := by
  unfold State.castVote
  split
  · exact park_keeps h _
  · split
    · exact trap_keeps (s := s.onMe _) h ..
    · split
      · exact park_keeps h _
      · exact keeps_next h

theorem State.implicitVote_keeps : Keeps s.implicitVote := castVote_keeps h ..

theorem State.votePoint_keeps (kind : VoteKind) (once : Bool) (record : List Byte) (k : State → Out) (hs : List Held)
    (sys : Bool) (hk : ∀ t, t.memWf → Keeps (k t)) : Keeps (s.votePoint kind once record k hs sys) := by
  unfold State.votePoint
  split
  · exact hk _ h
  · split
    · split
      · exact trap_keeps (s := s.onMe _) h ..
      · split
        · exact park_keeps h _
        · exact hk (s.onMe _) h
    · split
      · exact implicitVote_keeps h
      · exact castVote_keeps h ..

theorem State.releaseSys_keeps (sys : Bool) (k : State → Out) (hk : ∀ t, t.memWf → Keeps (k t)) :
    Keeps (s.releaseSys sys k) := by
  unfold State.releaseSys
  split
  · exact hk _ h
  · split
    · exact park_keeps h _
    · dsimp only
      split
      · exact trap_keeps (State.memWf_of_mem h (by simp)) ..
      · split
        · exact park_keeps (State.memWf_of_mem h (by simp)) _
        · exact hk _ (State.memWf_of_mem h (State.loseLate_mem ..))

/-- A write sent to another package is performed where it arrives, waits for its lane, or marks its threads (R335 and R339 of
spec/22). -/
theorem State.sendWrite_memWf (tids : List Nat) (va : Word) (r : Config.Request) (epoch : Option Word)
    (tied : Bool) : (s.sendWrite tids va r epoch tied).memWf := by
  unfold State.sendWrite
  split
  · exact State.memWf_of_mem h (s.loseWrite_mem ..)
  · exact post_memWf _ _ h

theorem State.putPiece_memWf (va : Word) (p : Piece) (bs : List Byte) (tied : Bool) : (s.putPiece va p bs tied).memWf := by
  unfold State.putPiece
  split
  · exact h
  · split
    · exact sendWrite_memWf h ..
    · exact h
  · exact write_memWf _ _ _ h

omit h in
theorem State.putPieces_memWf {s : State} (va : Word) (ps : List Piece) (bs : List Byte) (h : s.memWf) :
    (s.putPieces va ps bs).memWf := by
  induction ps generalizing s bs with
  | nil => exact h
  | cons p ps ih => exact ih _ (putPiece_memWf h ..)

theorem State.storeVia_keeps (va : Word) (ps : List Piece) (bs : List Byte) (k : State → Out)
    (hk : ∀ t, t.memWf → Keeps (k t)) : Keeps (s.storeVia va ps bs k) := by
  unfold State.storeVia
  dsimp only
  split
  · exact hk _ (putPieces_memWf _ _ _ h)
  · split
    · exact implicitVote_keeps h
    · exact hk (s.onMe _) h

theorem State.storeRelease_keeps (sys : Bool) (va : Word) (ps : List Piece) (bs : List Byte) (k : State → Out)
    (hk : ∀ t, t.memWf → Keeps (k t)) : Keeps (s.storeRelease sys va ps bs k) := by
  unfold State.storeRelease
  dsimp only
  split
  · exact releaseSys_keeps h _ _ fun t ht => hk _ (putPieces_memWf _ _ _ ht)
  · split
    · exact implicitVote_keeps h
    · exact votePoint_keeps h _ _ _ _ _ _ hk

end

end Sys2Proof.Machine
end

