-- ==== Sys2Proof/Laws/Operands.lean ====
section
/-! SUPPORT. What the operand step, the guard and the writing of a result come to (R24, R25 and R438 of spec/02, R54 of
spec/03): the lemmas a proof about an instruction cites instead of unfolding them. -/

namespace Sys2Proof.Machine

set_option Elab.async false

open Sys2Proof

/-! ## Two updates of one slot are one -/

theorem put_put {α : Type} (k : Nat) (v w : α) (t : Table α) : Table.put k w (Table.put k v t) = Table.put k w t := by
  induction t with
  | nil => simp [Table.put]
  | cons e t ih =>
    obtain ⟨k', v'⟩ := e
    simp only [Table.put]
    split
    · simp [Table.put]
    · split
      · rename_i h1 h2; subst h2; simp [Table.put]
      · rename_i h1 h2; simp [Table.put, h1, h2, ih]

theorem State.onMe_onMe (s : State) (f g : Slot → Slot) : (s.onMe f).onMe g = s.onMe (fun x => g (f x)) := by
  simp only [State.onMe, State.onSlot, State.setSlot]
  congr 1
  rw [put_put]
  congr 2
  exact val_put_same _ _ _ _

/-! ## Taking the sources -/

theorem State.takeOne_agent (s : State) (a : Src) : (s.takeOne a).2.agent = s.agent := by
  unfold State.takeOne; split
  · dsimp only; split <;> rfl
  · rfl
  · rfl

/-- Taking a source clears at most one full bit of the issuing slot. -/
theorem State.takeOne_me (s : State) (a : Src) :
    (s.takeOne a).2.me = s.me ∨ ∃ n, (s.takeOne a).2.me = s.me.clearFull n := by
  unfold State.takeOne; split
  · dsimp only; split
    · exact .inr ⟨_, s.me_onMe _⟩
    · exact .inl rfl
  · exact .inl rfl
  · exact .inl rfl

theorem State.takeOne_queue (s : State) (a : Src) (n : Nat) :
    (s.takeOne a).2.myCore.queue n = (s.myCore.queue n).drop (countQ n [a.op]) := by
  unfold State.takeOne
  split
  · rename_i m h
    simp only [h, countQ, List.filter, List.length_nil, List.drop_zero]
    split <;> rfl
  · rename_i m h
    simp only [State.myCore, State.myCoreNum, State.onMyCore, State.onCore_agent, h, countQ, List.filter]
    rw [State.core_onCore]
    by_cases hm : m.val = n
    · subst hm
      simp [Core.queue, val_put_same]
    · have : (m.val == n) = false := by simp [hm]
      simp only [this, List.length_nil, List.drop_zero, Core.queue]
      exact val_put_other _ _ _ _ _ (Ne.symm hm)
  · rename_i m h
    simp only [State.myCore, State.myCoreNum, State.onMyCore, State.onCore_agent, h, countQ, List.filter,
      List.length_nil, List.drop_zero]
    rw [State.core_onCore]
    rfl

theorem State.takeOne_mbFull (s : State) (a : Src) (m : Nat) (h : s.myCore.mbFull.getLsbD m = false) :
    (s.takeOne a).2.myCore.mbFull.getLsbD m = false := by
  unfold State.takeOne
  split
  · dsimp only
    split
    · exact h
    · exact h
  · simp only [State.myCore, State.myCoreNum, State.onMyCore, State.onCore_agent]
    rw [State.core_onCore]
    exact h
  · simp only [State.myCore, State.myCoreNum, State.onMyCore, State.onCore_agent]
    rw [State.core_onCore]
    simp only [BitVec.getLsbD_and]
    have : (s.core (slotCore s.agent)).mbFull.getLsbD m = false := h
    simp [this]

theorem countQ_cons (n : Nat) (o : Opnd) (os : List Opnd) : countQ n (o :: os) = countQ n [o] + countQ n os := by
  simp only [countQ, List.filter]
  split <;> simp [Nat.add_comm]

theorem State.takeAll_agent (as : List Src) (s : State) : (s.takeAll as).2.agent = s.agent := by
  induction as generalizing s with
  | nil => rfl
  | cons a as ih => exact (ih _).trans (s.takeOne_agent a)

theorem State.takeAll_queue (as : List Src) (s : State) (n : Nat) :
    (s.takeAll as).2.myCore.queue n = (s.myCore.queue n).drop (countQ n (as.map (·.op))) := by
  induction as generalizing s with
  | nil => rfl
  | cons a as ih =>
    simp only [State.takeAll, List.map_cons]
    rw [ih, State.takeOne_queue, List.drop_drop, ← countQ_cons]

theorem State.takeAll_mbFull (as : List Src) (s : State) (m : Nat) (h : s.myCore.mbFull.getLsbD m = false) :
    (s.takeAll as).2.myCore.mbFull.getLsbD m = false := by
  induction as generalizing s with
  | nil => exact h
  | cons a as ih => exact ih _ (s.takeOne_mbFull a m h)

/-- A property of the issuing slot that no cleared full bit changes holds after the sources are taken. -/
theorem State.takeAll_me {P : Slot → Prop} (hP : ∀ x n, P x → P (x.clearFull n)) (as : List Src) (s : State)
    (h : P s.me) : P (s.takeAll as).2.me := by
  induction as generalizing s with
  | nil => exact h
  | cons a as ih =>
    apply ih
    rcases s.takeOne_me a with e | ⟨n, e⟩
    · rw [e]; exact h
    · rw [e]; exact hP _ _ h

/-! ## The operand step -/

/-- At the start of an instruction whose operands can be taken, the operand step takes them and goes on. -/
theorem State.operands_run (s : State) (srcs : List Src) (dsts : List Opnd) (k : List Word → State → Out)
    (h : s.atStart) (hr : s.canRun srcs dsts) : s.operands srcs dsts k = k (s.vals srcs) (s.taken srcs) := by
  simp only [State.operands, hr.1, hr.2.1, h.1, Bool.false_eq_true, if_false, if_true]
  rfl

theorem State.taken_agent (s : State) (srcs : List Src) : (s.taken srcs).agent = s.agent := by
  simp [State.taken, State.takeAll_agent]

theorem State.taken_mem (s : State) (srcs : List Src) : (s.taken srcs).mem = s.mem := by
  simp [State.taken, State.takeAll_mem]

/-- A property of the issuing slot that neither a cleared full bit nor the kept values change. -/
theorem State.taken_me {P : Slot → Prop} (hP : ∀ x n, P x → P (x.clearFull n))
    (hk : ∀ x vs ts, P x → P { x with park := { x.park with vals := vs, took := ts } }) (s : State) (srcs : List Src)
    (h : P s.me) : P (s.taken srcs).me := by
  simp only [State.taken, State.me_onMe]
  exact hk _ _ _ (State.takeAll_me hP srcs s h)

theorem State.taken_once (s : State) (srcs : List Src) (h : s.me.park.once = false) :
    (s.taken srcs).me.park.once = false :=
  State.taken_me (P := fun x => x.park.once = false) (fun x n hx => by simpa using hx) (fun _ _ _ hx => hx) s srcs h

theorem State.taken_reg (s : State) (srcs : List Src) (n : Nat) : (s.taken srcs).me.reg n = s.me.reg n :=
  State.taken_me (P := fun x => x.reg n = s.me.reg n) (fun x m hx => by simpa using hx) (fun _ _ _ hx => hx) s srcs rfl

theorem State.taken_myCore (s : State) (srcs : List Src) : (s.taken srcs).myCore = (s.takeAll srcs).2.myCore := rfl

/-! ## Writing a result -/

/-- Writing a general register and completing are one update of the slot. -/
theorem State.doneRegs_one (s : State) (n : Nat) (v : Word) (h : s.me.park.once = false) :
    s.doneRegs [(n, v)] = .next ((s.onMe (·.setReg n v)).onMe Slot.complete) := by
  simp only [State.doneRegs, State.onUs_alone _ _ h, List.foldl, State.onMe_onMe]

theorem State.done_alone (s : State) (h : s.me.park.once = false) : s.done = .next (s.onMe Slot.complete) := by
  simp only [State.done, State.onUs_alone _ _ h]

theorem State.goto_alone (s : State) (t : Word) (h : s.me.park.once = false) : s.goto t = .next (s.onMe (·.jump t)) := by
  simp only [State.goto, State.onUs_alone _ _ h]

/-- With its operands taken and a destination that can take it, a result is written and the instruction completes. -/
theorem State.finish_wrote (s : State) (srcs : List Src) (a : Opnd) (v : Word) (h : s.atStart)
    (hr : s.canRun srcs [a]) : (s.taken srcs).finish a v = .next (s.wrote srcs a v) := by
  have ho := s.taken_once srcs h.2.2
  cases a with
  | g n =>
    simp only [State.finish, State.doneRegs_one _ _ _ ho]
    rfl
  | q n =>
    have hq := hr.1
    simp only [State.operandsReady, Bool.and_eq_true, List.all_eq_true] at hq
    have h2 := hq.2 (.q n) (by simp)
    simp only [countQ, List.filter, beq_self_eq_true, List.length_cons, List.length_nil, decide_eq_true_eq] at h2
    have hl : ((s.taken srcs).myCore.queue n.val).length < 8 := by
      rw [State.taken_myCore, State.takeAll_queue, List.length_drop]
      simp only [countQ]
      omega
    simp only [State.finish, hl, if_true, State.give_alone _ _ _ _ ho]
    rfl
  | mb m =>
    have hm := hr.2.2 m (by simp)
    have hl : (s.taken srcs).myCore.mbFull.getLsbD m.val = false := by
      rw [State.taken_myCore]; exact State.takeAll_mbFull srcs s m.val hm
    simp only [State.finish, hl, Bool.false_eq_true, if_false, State.give_alone _ _ _ _ ho]
    rfl

/-! ## The guard -/

theorem State.guarded_true (s : State) (g : Guard) (k : State → Out) (h : s.me.guardOk g = true) : s.guarded g k = k s := by
  simp [State.guarded, h]

theorem State.guarded_false (s : State) (g : Guard) (k : State → Out) (h : s.me.guardOk g = false) :
    s.guarded g k = s.done := by
  simp [State.guarded, h]

end Sys2Proof.Machine
end

