-- ==== Sys2Proof/Tests/Slice0.lean ====
section
/-! SUPPORT. The author's tests: words written out from the spec's encodings, ill-formed terms, one small step per
instruction, and for each statement a state and operands that meet its hypotheses. -/

namespace Sys2Proof.Tests

set_option Elab.async false

open Sys2Proof Sys2Proof.Machine

/-- In slot `slot` at user level each head and tail decodes to the instruction beside it. -/
def reads (slot : Fin 8) (l : List (Nat × Nat × Instr)) : Bool :=
  l.all fun e => match decode slot false e.1 e.2.1 with
    | .ok (.listed i) => i == e.2.2
    | _ => false

/-- The heads and tails of spec/07: control flow, field by field after R50 and R52 of spec/03. -/
theorem test_decode_control : reads 0 [
    (0b10_00000001_000000, 0b000000_0_00011_11111111111111100001, .br ⟨false, 3⟩ 0xFFFE1),
    (0b10_00000010_011111, 0b000000_0_10000_00000000000001000101, .call Guard.always (.g 31) 0x45),
    (0b10_00000100_100001, 0b000000_0_10000_00000000000000000111, .loop Guard.always (.q 1) 7),
    (0b10_00000110_000000, 0b000000_0_10000_00010010001101000101, .trap Guard.always 0x12345),
    (0b10_00001000_000100, 0b000000_0_10000_00000000000000000101, .crd Guard.always (.g 4) 0x005),
    (0b10_00001001_000000, 0b001001_1_10000_00000000000100000011, .cwr Guard.always 0x103 ⟨.g 9, true⟩),
    (0b00_00000111_000000, 0, .tret),
    (0b00_00001010_000000, 0, .retire),
    (0b00_00001100_000000, 0, .brk)] = true := by
  decide +kernel

/-- The heads and tails of R122 of spec/07, field by field after R50 and R52 of spec/03. -/
theorem test_decode_alu : reads 0 [
    (0b01_00100000_000110, 0b000100_100010_1_0_00, .add (.g 6) ⟨.g 4, true⟩ ⟨.q 2, false⟩),
    (0b01_00100001_000110, 0b000100_100010_1_0_00, .sub (.g 6) ⟨.g 4, true⟩ ⟨.q 2, false⟩),
    (0b01_00100010_000110, 0b000100_100010_1_0_00, .mul (.g 6) ⟨.g 4, true⟩ ⟨.q 2, false⟩),
    (0b01_00100011_000110, 0b000100_100010_1_0_00, .mulh (.g 6) ⟨.g 4, true⟩ ⟨.q 2, false⟩),
    (0b01_00100100_000110, 0b000100_100010_1_0_00, .mulhu (.g 6) ⟨.g 4, true⟩ ⟨.q 2, false⟩),
    (0b01_00100101_000110, 0b000100_100010_1_0_00, .div (.g 6) ⟨.g 4, true⟩ ⟨.q 2, false⟩),
    (0b01_00100110_000110, 0b000100_100010_1_0_00, .divu (.g 6) ⟨.g 4, true⟩ ⟨.q 2, false⟩),
    (0b01_00100111_000110, 0b000100_100010_1_0_00, .rem (.g 6) ⟨.g 4, true⟩ ⟨.q 2, false⟩),
    (0b01_00101000_000110, 0b000100_100010_1_0_00, .remu (.g 6) ⟨.g 4, true⟩ ⟨.q 2, false⟩),
    (0b01_00101001_000110, 0b000100_100010_1_0_00, .and (.g 6) ⟨.g 4, true⟩ ⟨.q 2, false⟩),
    (0b01_00101010_000110, 0b000100_100010_1_0_00, .or (.g 6) ⟨.g 4, true⟩ ⟨.q 2, false⟩),
    (0b01_00101011_000110, 0b000100_100010_1_0_00, .xor (.g 6) ⟨.g 4, true⟩ ⟨.q 2, false⟩)] = true := by
  decide +kernel

/-- The heads and tails of R122 of spec/07, field by field after R50 and R52 of spec/03. -/
theorem test_decode_shift : reads 0 [
    (0b01_00101100_000110, 0b000100_100010_1_0_00, .shl (.g 6) ⟨.g 4, true⟩ ⟨.q 2, false⟩),
    (0b01_00101101_000110, 0b000100_100010_1_0_00, .shr (.g 6) ⟨.g 4, true⟩ ⟨.q 2, false⟩),
    (0b01_00101110_000110, 0b000100_100010_1_0_00, .sar (.g 6) ⟨.g 4, true⟩ ⟨.q 2, false⟩),
    (0b01_00101111_000110, 0b000100_100010_1_0_00, .ror (.g 6) ⟨.g 4, true⟩ ⟨.q 2, false⟩),
    (0b01_00110000_000110, 0b000100_100010_1_0_00, .min (.g 6) ⟨.g 4, true⟩ ⟨.q 2, false⟩),
    (0b01_00110001_000110, 0b000100_100010_1_0_00, .max (.g 6) ⟨.g 4, true⟩ ⟨.q 2, false⟩),
    (0b01_00110010_000110, 0b000100_100010_1_0_00, .minu (.g 6) ⟨.g 4, true⟩ ⟨.q 2, false⟩),
    (0b01_00110011_000110, 0b000100_100010_1_0_00, .maxu (.g 6) ⟨.g 4, true⟩ ⟨.q 2, false⟩),
    (0b01_00110100_101011, 0b011111_000000_0_0_00, .clz (.mb 3) ⟨.g 31, false⟩),
    (0b01_00110101_101011, 0b011111_000000_0_0_00, .popc (.mb 3) ⟨.g 31, false⟩),
    (0b01_00110110_101011, 0b011111_000000_0_0_00, .ctz (.mb 3) ⟨.g 31, false⟩)] = true := by
  decide +kernel

/-- The heads and tails of R124 and R137 of spec/07, field by field after R50 and R52 of spec/03. -/
theorem test_decode_immediate : reads 0 [
    (0b10_00110111_000111, 0b001000_0_10000_11111111111111111110, .addi Guard.always (.g 7) ⟨.g 8, false⟩ 0xFFFFE),
    (0b10_00111000_000111, 0b001000_0_10000_11111111111111111110, .andi Guard.always (.g 7) ⟨.g 8, false⟩ 0xFFFFE),
    (0b10_00111001_000111, 0b001000_0_10000_11111111111111111110, .ori Guard.always (.g 7) ⟨.g 8, false⟩ 0xFFFFE),
    (0b10_00111010_000111, 0b001000_0_10000_11111111111111111110, .xori Guard.always (.g 7) ⟨.g 8, false⟩ 0xFFFFE),
    (0b10_00111011_000111, 0b001000_0_10000_00000000000010111111, .shi Guard.always (.g 7) ⟨.g 8, false⟩ .sar 63),
    (0b01_00111110_000011, 0b000100_000101_0_0_10, .cmp 3 .lt ⟨.g 4, false⟩ ⟨.g 5, false⟩),
    (0b01_00111111_000011, 0b000100_000101_0_1_11, .cmpu 3 .tstnz ⟨.g 4, false⟩ ⟨.g 5, true⟩),
    (0b10_01000000_001111, 0b000110_0_10000_01011111111111111111,
      .cmpi Guard.always 15 (.unsigned .geu) ⟨.g 6, false⟩ 0xFFFF)] = true := by
  decide +kernel

/-- The heads and tails of R131, R133 and R152 of spec/08, field by field after R50 and R52 of spec/03. -/
theorem test_decode_vector : reads 0 [
    (0b11_10001001_000011, 0b001101_000100_0_0_10000_00110_110000000000000000000010,
      .vgath Guard.always .fp32 3 ⟨.g 13, false⟩ 4 (some 2) 2),
    (0b11_10001010_000101, 0b001101_000100_0_0_10000_00011_000000000000000000000011,
      .vscat Guard.always .int64 5 ⟨.g 13, false⟩ 4 none 3)] = true := by
  decide +kernel

/-- The heads and tails of R151 of spec/09, field by field after R50 and R52 of spec/03. -/
theorem test_decode_matrix : reads 0 [
    (0b10_10010000_000000, 0b000000_0_10000_00000000000000000000, .mlease Guard.always),
    (0b00_10010001_000000, 0, .mfree),
    (0b10_10010010_000000, 0b001001_0_10000_00000000000000000100, .mprog Guard.always ⟨.g 9, false⟩ 4),
    (0b11_10010011_000000, 0b001010_001011_0_0_10000_00001_000000001101111111000101,
      .mwld Guard.always true 5 ⟨.g 10, false⟩ ⟨.g 11, false⟩ 127 6),
    (0b11_10010100_000000, 0b001010_001011_0_0_10000_00000_000011110000000111111111,
      .mma Guard.always 63 ⟨.g 10, false⟩ ⟨.g 11, false⟩ 120 7),
    (0b11_10010101_000000, 0b001010_001011_0_0_10000_00001_000000001100000100000001,
      .mrd Guard.always true ⟨.g 10, false⟩ ⟨.g 11, false⟩ 1 2 3),
    (0b10_10010110_000000, 0b001001_0_10000_00000000110111100100, .mclr Guard.always ⟨.g 9, false⟩ 100 27),
    (0b10_10010111_000000, 0b000000_0_10000_00000000000000000010, .mcfg Guard.always false true),
    (0b10_10011000_001100, 0b000000_0_10000_00000000000000000000, .mstat Guard.always 12)] = true := by
  decide +kernel

/-- The heads and tails of R403 and R170 of spec/10, in S7, field by field after R50 and R52 of spec/03. -/
theorem test_decode_copy : reads 7 [
    (0b11_10100010_000100, 0b000101_000110_0_0_10000_00011_101010111100110100010010,
      .dwin Guard.always 3 (.g 4) ⟨.g 5, false⟩ ⟨.g 6, false⟩ 2 1 0xABCD),
    (0b10_10100110_000000, 0b000101_0_10000_00000000000000000011, .dcan Guard.always 3 ⟨.g 5, false⟩),
    (0b10_10100110_000000, 0b000000_0_10000_00000000000000010011, .dcanResume Guard.always 3)] = true := by
  decide +kernel

/-- The heads and tails of R260 of spec/16, field by field after R50 and R52 of spec/03. -/
theorem test_decode_hurdle : reads 0 [
    (0b11_11010101_000000, 0b001010_000101_0_0_10000_00010_000000000000000000000000,
      .hinit Guard.always .tile ⟨.g 10, false⟩ ⟨.g 5, false⟩ 0),
    (0b11_11010110_000100, 0b001010_000000_0_0_10000_00000_111111111111111111110000,
      .harr Guard.always 4 ⟨.g 10, false⟩ 0xFFFFF0),
    (0b10_11010111_000100, 0b001010_0_10000_00000000000000000000, .hwait Guard.always 4 ⟨.g 10, false⟩ 0)] = true := by
  decide +kernel

/-- The heads and tails of R280 of spec/17, field by field after R50 and R52 of spec/03. -/
theorem test_decode_replica : reads 0 [
    (0b10_11100000_000000, 0b000000_0_10000_00000000000000000100, .rrel Guard.always .pkg),
    (0b10_11100001_000101, 0b000000_0_10000_00000000000000000011, .rmark Guard.always 5 3),
    (0b10_11100010_000000, 0b000110_0_10000_00000000000000000000, .rpert Guard.always ⟨.g 6, false⟩),
    (0b00_11100011_000000, 0, .rrewind)] = true := by
  decide +kernel

/-- The heads and tails of R289 to R296 of spec/18, field by field after R50 and R52 of spec/03. -/
theorem test_decode_filter : reads 0 [
    (0b11_11100100_000000, 0b000101_000000_0_0_10000_00000_000000000000000011111111,
      .fopen Guard.always 255 ⟨.g 5, false⟩),
    (0b11_11100100_000000, 0b000000_000000_0_0_10000_00000_000000000000000000001001, .fopenClose Guard.always 9 false),
    (0b11_11100101_000110, 0b000111_001000_0_0_10000_00001_000000000000000100000010,
      .fshort Guard.always true true 6 2 ⟨.g 7, false⟩ ⟨.g 8, false⟩),
    (0b11_11100110_000110, 0b001110_001010_0_0_10000_00000_000000000000000000000000,
      .fpick Guard.always false false 6 0 ⟨.g 14, false⟩ ⟨.g 10, false⟩),
    (0b10_11100111_001001, 0b000000_0_10000_00000000000000000001, .rand Guard.always true 9),
    (0b11_11101000_000100, 0b001010_001011_0_0_10000_00001_000000000000000000000000,
      .kvtrunc Guard.always true 4 ⟨.g 10, false⟩ ⟨.g 11, false⟩)] = true := by
  decide +kernel

/-- The heads and tails of R326 of spec/21, field by field after R50 and R52 of spec/03. -/
theorem test_decode_translation : reads 0 [
    (0b10_11101010_000111, 0b000101_1_10000_00000000000000000000, .qwait Guard.always 7 ⟨.g 5, true⟩),
    (0b10_11101010_000100, 0b000000_0_10000_00000000000000000001, .qwaitNow Guard.always 4),
    (0b10_11101011_000101, 0b000110_0_10000_00000000000000000001, .ptsync Guard.always .asid 5 ⟨.g 6, false⟩)] = true := by
  decide +kernel
/-! ## Ill-formed terms and refused words -/

/-- The source and destination checks of R23 of spec/02: a mailbox is a source in S7 alone and a destination elsewhere. -/
theorem test_mailbox_operands_refused :
    ([.add (.g 6) ⟨.mb 0, false⟩ ⟨.g 5, false⟩, .add (.g 6) ⟨.g 5, false⟩ ⟨.mb 0, false⟩, .clz (.g 6) ⟨.mb 1, false⟩,
      .addi Guard.always (.g 6) ⟨.mb 1, false⟩ 0, .loop Guard.always (.mb 2) 1, .cwr Guard.always 0x100 ⟨.mb 2, false⟩,
      .cmp 1 .eq ⟨.mb 3, false⟩ ⟨.g 1, false⟩, .cmpi Guard.always 1 (.signed .eq) ⟨.mb 3, false⟩ 0,
      .vgath Guard.always .fp32 1 ⟨.mb 3, false⟩ 2 none 0, .hinit Guard.always .core ⟨.mb 3, false⟩ ⟨.g 1, false⟩ 0,
      .harr Guard.always 1 ⟨.mb 0, false⟩ 0, .rpert Guard.always ⟨.mb 0, false⟩, .fopen Guard.always 0 ⟨.mb 0, false⟩,
      .fshort Guard.always false false 1 0 ⟨.mb 0, false⟩ ⟨.g 1, false⟩, .qwait Guard.always 1 ⟨.mb 0, false⟩,
      .mprog Guard.always ⟨.mb 0, false⟩ 1, .mclr Guard.always ⟨.mb 0, false⟩ 0 0,
      .mwld Guard.always false 0 ⟨.g 1, false⟩ ⟨.mb 0, false⟩ 0 0] : List Instr).all (fun i => !i.wellFormed 0 false) = true ∧
    ([.add (.mb 0) ⟨.g 4, false⟩ ⟨.g 5, false⟩, .clz (.mb 0) ⟨.g 4, false⟩, .addi Guard.always (.mb 0) ⟨.g 4, false⟩ 0,
      .call Guard.always (.mb 0) 1, .crd Guard.always (.mb 0) 5,
      .dwin Guard.always 0 (.mb 0) ⟨.g 4, false⟩ ⟨.g 5, false⟩ 0 0 0] : List Instr).all (fun i => !i.wellFormed 7 false) = true := by
  decide

/-- The other checks: a head index of 0 (R123 of spec/07), control words that R41 of spec/02 does not list, row sums beyond 128
(R151 of spec/09), slot roles (R60 of spec/03, R142 of spec/09), scopes (R260 of spec/16, R280 of spec/17), FOPEN's g0, heads
that are not reserved, and events, which no head stands for. -/
theorem test_other_limits_refused :
    ([.loop Guard.always (.g 4) 0x20, .crd Guard.always (.g 4) 0x00B, .cwr Guard.always 0x600 ⟨.g 4, false⟩,
      .mclr Guard.always ⟨.g 4, false⟩ 100 28, .mma Guard.always 0 ⟨.g 4, false⟩ ⟨.g 5, false⟩ 127 1,
      .mrd Guard.always false ⟨.g 4, false⟩ ⟨.g 5, false⟩ 1 127 0, .dwin Guard.always 0 (.g 4) ⟨.g 5, false⟩ ⟨.g 6, false⟩ 0 0 0,
      .dcan Guard.always 0 ⟨.g 4, false⟩, .dcanResume Guard.always 0, .hinit Guard.always .slot ⟨.g 4, false⟩ ⟨.g 5, false⟩ 0,
      .hinit Guard.always .sys ⟨.g 4, false⟩ ⟨.g 5, false⟩ 0, .rrel Guard.always .slot, .fopen Guard.always 0 ⟨.g 0, false⟩,
      .reservedMajorOpcode 0x4806, .hotReset, .rdst, .queueNop 0 1 0] : List Instr).all (fun i => !i.wellFormed 0 false) = true ∧
    ([.mlease Guard.always, .mfree, .mcfg Guard.always true true, .mstat Guard.always 4,
      .mprog Guard.always ⟨.g 4, false⟩ 0] : List Instr).all (fun i => !i.wellFormed 7 false) = true ∧
    (Instr.crd Guard.always (.g 4) 0x50A).wellFormed 0 true = false ∧ (Instr.crd Guard.always (.g 4) 0x50A).wellFormed 0 false = true := by
  decide

/-- The class 1 code a head and tail are refused with. -/
def refusedWith (slot : Fin 8) (sup : Bool) (h t : Nat) : Nat :=
  match decode slot sup h t with
  | .error e => e
  | .ok _ => 0

/-- R61 of spec/03, a word for each code: CRD of word 0x00B; a mailbox source; an unused field; a scope of 0; DCAN in S0; and
R62's order: 0x048 before 0x049 and before 0x045; the supervisor's words at both levels. A reserved opcode, and ADD with no
tail, decode to the table's row for them. -/
theorem test_class_one_codes :
    refusedWith 0 false 0b10_00001000_000100 0b000000_0_10000_00000000000000001011 = 0x045 ∧
    refusedWith 0 false 0b01_00100000_000110 0b101000_000101_0_0_00 = 0x046 ∧
    refusedWith 0 false 0b01_00100000_000110 0b000100_000101_0_0_01 = 0x048 ∧
    refusedWith 0 false 0b10_11100000_000000 0b000000_0_10000_00000000000000000000 = 0x049 ∧
    refusedWith 0 false 0b10_10100110_000000 0b000101_0_10000_00000000000000000011 = 0x04A ∧
    refusedWith 0 false 0b10_11100000_000000 0b000001_0_10000_00000000000000000000 = 0x048 ∧
    refusedWith 0 false 0b10_00001000_000100 0b000001_0_10000_00000000000000001011 = 0x048 ∧
    refusedWith 0 true 0b10_00001000_000100 0b000000_0_10000_00000000010111111111 = 0x045 ∧
    refusedWith 0 false 0b10_00001000_000100 0b000000_0_10000_00000000010111111111 = 0 ∧
    reads 0 [(0b01_11111111_000000, 0, .reservedMajorOpcode 0x7FC0), (0b00_00100000_000110, 0, .reservedMajorOpcode 0x0806)] := by
  decide +kernel

/-! ## One step each -/

/-- The outcome is a next state with `p`. -/
def ends (o : Out) (p : State → Bool) : Bool :=
  match o with
  | .next t => p t
  | _ => false

/-- Slot 0 at head 1 of a line of three heads, with general registers. -/
def one (g : Table Word) : State :=
  { State.reset with slots := [(0, { status := .running, pc := 0x10002, nh := 3, g := g })] }

/-- Slot 0 with `f` applied. -/
def oneWith (g : Table Word) (f : Slot → Slot) : State := (one g).onSlot 0 f

def r (n : Fin 32) : Src := ⟨.g n, false⟩

/-- g6 after an operation on g4 and g5, with control at the next head. -/
def gives (x y : Word) (l : List (Instr × Word)) : Bool :=
  l.all fun e => ends (exec e.1 (one [(4, x), (5, y)])) fun t => t.me.reg 6 == e.2 && t.me.pc == 0x10004

/-- R122 and R123 of spec/07 on -7 and 2, by hand. -/
theorem test_arithmetic : gives (-7) 2 [(.add (.g 6) (r 4) (r 5), -5), (.sub (.g 6) (r 4) (r 5), -9),
    (.mul (.g 6) (r 4) (r 5), -14), (.mulh (.g 6) (r 4) (r 5), -1), (.mulhu (.g 6) (r 4) (r 5), 1),
    (.div (.g 6) (r 4) (r 5), -3), (.divu (.g 6) (r 4) (r 5), 0x7FFFFFFFFFFFFFFC), (.rem (.g 6) (r 4) (r 5), -1),
    (.remu (.g 6) (r 4) (r 5), 1), (.and (.g 6) (r 4) (r 5), 0), (.or (.g 6) (r 4) (r 5), -5),
    (.xor (.g 6) (r 4) (r 5), -5)] = true := by decide +kernel

/-- R122 of spec/07 on 0x8000000000000001 and 68: a shift amount is taken modulo 64, SAR fills with the sign. -/
theorem test_shifts : gives 0x8000000000000001 68 [(.shl (.g 6) (r 4) (r 5), 0x10), (.shr (.g 6) (r 4) (r 5), 0x0800000000000000),
    (.sar (.g 6) (r 4) (r 5), 0xF800000000000000), (.ror (.g 6) (r 4) (r 5), 0x1800000000000000),
    (.min (.g 6) (r 4) (r 5), 0x8000000000000001), (.max (.g 6) (r 4) (r 5), 68), (.minu (.g 6) (r 4) (r 5), 68),
    (.maxu (.g 6) (r 4) (r 5), 0x8000000000000001), (.clz (.g 6) (r 5), 57), (.popc (.g 6) (r 5), 2),
    (.ctz (.g 6) (r 5), 2), (.clz (.g 6) (r 0), 64), (.ctz (.g 6) (r 0), 64)] = true := by decide +kernel

/-- R124 of spec/07: the immediate is sign-extended; SHI's four kinds. -/
theorem test_immediates : gives 0xF0 0 [(.addi Guard.always (.g 6) (r 4) 0xFFFFF, 0xEF), (.andi Guard.always (.g 6) (r 4) 0xFFF30, 0x30),
    (.ori Guard.always (.g 6) (r 4) 0x0000F, 0xFF), (.xori Guard.always (.g 6) (r 4) 0xFFFFF, 0xFFFFFFFFFFFFFF0F),
    (.shi Guard.always (.g 6) (r 4) .shl 56, 0xF000000000000000), (.shi Guard.always (.g 6) (r 4) .shr 4, 0xF),
    (.shi Guard.always (.g 6) (r 4) .ror 8, 0xF000000000000000)] = true := by decide +kernel

/-- R123 of spec/07: a division by 0, and -2^63 by -1. -/
theorem test_division_corners :
    gives 5 0 [(.div (.g 6) (r 4) (r 5), -1), (.divu (.g 6) (r 4) (r 5), -1), (.rem (.g 6) (r 4) (r 5), 5),
      (.remu (.g 6) (r 4) (r 5), 5)] = true ∧
    gives 0x8000000000000000 (-1) [(.div (.g 6) (r 4) (r 5), 0x8000000000000000), (.rem (.g 6) (r 4) (r 5), 0)] = true := by
  decide +kernel

/-- R137 of spec/07: the conditions of -1 and 1, signed and unsigned, and CMPI's sign-extended value compared unsigned. -/
theorem test_compares : ([(.cmp 2 .lt (r 4) (r 5), true), (.cmp 2 .ge (r 4) (r 5), false), (.cmp 2 .eq (r 4) (r 4), true),
    (.cmp 2 .ne (r 4) (r 4), false), (.cmpu 2 .ltu (r 4) (r 5), false), (.cmpu 2 .geu (r 4) (r 5), true),
    (.cmpu 2 .tstz (r 4) (r 5), false), (.cmpu 2 .tstnz (r 4) (r 5), true),
    (.cmpi Guard.always 2 (.unsigned .geu) (r 4) 0xFFFF, true), (.cmpi Guard.always 2 (.signed .lt) (r 5) 2, true)] :
      List (Instr × Bool)).all (fun e => ends (exec e.1 (one [(4, -1), (5, 1)])) fun t => t.me.pred 2 == e.2) = true := by
  decide +kernel

/-- R54 of spec/03: a guard that fails (p0 with sense 0) leaves no effect but the next head. -/
theorem test_guarded_off : ends (exec (.addi ⟨false, 0⟩ (.g 6) (r 4) 1) (one [(4, 7), (6, 9)]))
    (fun t => t.me.reg 6 == 9 && t.me.pc == 0x10004) = true := by decide +kernel

/-- R118, R120 and R123 of spec/07: BR one line back to head 1; CALL links the next head; LOOP starts level 0, and with a
count of 0 goes behind its body. -/
theorem test_flow :
    ends (exec (.br Guard.always 0xFFFE1) (one [])) (fun t => t.me.pc == 0xFFC2) = true ∧
    ends (exec (.call Guard.always (.g 31) 0x23) (one [])) (fun t => t.me.pc == 0x10046 && t.me.reg 31 == 0x10004) = true ∧
    ends (exec (.loop Guard.always (.g 4) 3) (one [(4, 2)]))
      (fun t => t.me.loop.lc0 == 2 && t.me.loop.lb0 == 0x10004 && t.me.loop.le0 == 0x10006) = true ∧
    ends (exec (.loop Guard.always (.g 4) 2) (one [])) (fun t => t.me.pc == 0x10006 && t.me.loop.lc0 == 0) = true := by
  decide +kernel

/-- R126 of spec/07, R343 and R346 of spec/23: TRAP saves the next PC and its immediate and goes to TVEC; TRET comes back;
outside a handler TRET raises 0x3C5, here to the supervisor since TVEC is 0. -/
theorem test_traps :
    ends (exec (.trap Guard.always 0xFFFFF) (oneWith [] fun x => { x with trap := { tvec := 0x20002 } }))
      (fun t => t.me.trap.tcause == 0x3C2 && t.me.trap.tpc == 0x10004 && t.me.trap.taddr == 0xFFFFF && t.me.pc == 0x20002) = true ∧
    ends (exec .brk (one [])) (fun t => t.me.sup.scause == 0x3C3 && t.me.sup.spc == 0x10004 && t.me.sup.sinh) = true ∧
    ends (exec .tret (oneWith [] fun x => { x with trap := { inh := true, tpc := 0x30004 } }))
      (fun t => t.me.pc == 0x30004 && !t.me.trap.inh) = true ∧
    ends (exec .tret (one [])) (fun t => t.me.sup.scause == 0x3C5 && t.me.sup.spc == 0x10002) = true := by decide +kernel

/-- R41 of spec/02: a CWR of FERETRY keeps 8 bits, CRD of FULL reads g0's bit as 1, and a supervisor word at user level
raises 0x081. -/
theorem test_control_words :
    ends (exec (.cwr Guard.always 0x206 (r 4)) (one [(4, 0x1FF)])) (fun t => t.me.feretry == 0xFF) = true ∧
    ends (exec (.crd Guard.always (.g 6) 0x209) (oneWith [] fun x => { x with full := 0xF0 }))
      (fun t => t.me.reg 6 == 0xF1) = true ∧
    ends (exec (.crd Guard.always (.g 6) 0x500) (one [])) (fun t => t.me.sup.scause == 0x081) = true := by decide +kernel

/-- R37 of spec/02: RETIRE returns to the inline entry. -/
theorem test_retire_inline :
    ends (exec .retire (oneWith [] fun x => { x with inl := [⟨0x30002, 5, 6⟩] }))
      (fun t => t.me.pc == 0x30002 && t.me.srCtr == 5 && t.me.rngCtr == 6 && t.me.inl == []) = true := by decide +kernel

/-- R24, R25 and R27 of spec/02: SUB q0, q0 takes the first entry less the second; a synchronised read clears the full bit;
a write to g0 is discarded. -/
theorem test_operands :
    ends (exec (.sub (.g 6) ⟨.q 0, false⟩ ⟨.q 0, false⟩) { one [] with cores := [(0, { q := [(0, [9, 4, 7])] })] })
      (fun t => t.me.reg 6 == 5 && t.myCore.queue 0 == [7]) = true ∧
    ends (exec (.addi Guard.always (.g 0) ⟨.g 4, true⟩ 1) (one [(4, 3)]))
      (fun t => t.me.reg 0 == 0 && !t.me.isFull 4 && t.me.isFull 0) = true := by decide +kernel

/-- A scalar in own TCM (R91 of spec/05) at offset `a`. -/
def inTcm (a : Nat) (n v : Nat) (s : State) : State := { s with mem := memWrite s.mem (Config.tcmBase 0 + a) (leBytes v n) }

/-- R152 of spec/08: FP32 elements 0 and 2 by offsets 0 and 8 under k1, whose bits are consumed. -/
theorem test_gather :
    ends (exec (.vgath Guard.always .fp32 3 (r 4) 2 (some 1) 2)
        (inTcm 0 4 0x11 (inTcm 8 4 0x33 (oneWith [(4, 0xFFFFFF0000000000)] fun x =>
          { x with v := [(2, 2 * 2 ^ 64 + 1 * 2 ^ 32)], k := [(1, 5)] }))))
      (fun t => t.me.vreg 3 == 0x33 * 2 ^ 64 + 0x11 && t.me.kreg 1 == 0) = true := by decide +kernel

/-- R152 of spec/08: a W19 scatter of element 0 to base + (-4) x 1. -/
theorem test_scatter :
    ends (exec (.vscat Guard.always .w19 3 (r 4) 2 (some 0) 0)
        (oneWith [(4, 0xFFFFFF0000000008)] fun x => { x with v := [(2, 0xFFFFFFFC), (3, 0x1234)], k := [(0, 1)] }))
      (fun t => leNat (memRead t.mem (Config.tcmBase 0 + 4) 4) == 0x1234 && t.me.kreg 0 == 0) = true := by decide +kernel

/-- R258 to R261 of spec/16 in the own paddock: HINIT with 2; the second arrival of two ends the phase; HWAIT of the phase
that stands parks. -/
theorem test_hurdles :
    let s := one [(4, 0xFFFFFE0000000000), (5, 2)]
    let pa := Config.paddockBase 0
    ends (exec (.hinit Guard.always .tile (r 4) (r 5) 16) s) (fun t => leNat (memRead t.mem (pa + 16) 16) == 2 + 2 * 2 ^ 96) = true ∧
    ends (exec (.harr Guard.always 6 (r 4) 0) { s with mem := memWrite [] pa (leBytes (2 + 2 ^ 32 + 7 * 2 ^ 64 + 2 ^ 96) 16) })
      (fun t => t.me.reg 6 == 0x100000007 && leNat (memRead t.mem pa 16) == 2 + 8 * 2 ^ 64 + 2 ^ 96) = true ∧
    ends (exec (.hwait Guard.always 5 (r 4) 0) { s with mem := memWrite [] pa (leBytes (2 + 2 * 2 ^ 64 + 2 ^ 96) 16) })
      (fun t => t.me.status == .parked && t.me.pc == 0x10002) = true := by decide +kernel

/-- R142, R144 and R151 of spec/09: MLEASE of a free crook; MCLR is queued; a command without a lease raises 0x341; MSTAT of an
empty queue delivers at once; MFREE lets go. -/
theorem test_matrix :
    let held := oneWith [] fun x => { x with lease := .holding }
    ends (exec (.mlease Guard.always) (one [])) (fun t => t.me.lease == .holding && (t.tile 0).crook.cmdsLeft == 64) = true ∧
    ends (exec (.mclr Guard.always (r 0) 3 4) held) (fun t => (t.tile 0).crook.queue.map (·.cmd) == [.clr 0 3 5]) = true ∧
    ends (exec (.mprog Guard.always (r 0) 0) held) (fun t => (t.tile 0).crook.queue.map (·.cmd) == [.prog 0 0]) = true ∧
    ends (exec (.mprog Guard.always (r 0) 2) held) (fun t => t.me.sup.scause == 0x344) = true ∧
    ends (exec (.mcfg Guard.always true false) (one [])) (fun t => t.me.sup.scause == 0x341) = true ∧
    ends (exec (.mstat Guard.always 6) (one [])) (fun t => t.me.isFull 6 && t.me.pc == 0x10004) = true ∧
    ends (exec .mfree held) (fun t => t.me.lease == .none) = true := by decide +kernel

/-- R151 of spec/09: MWLD, MMA and MRD are accepted for operands in the own paddock (INT8 banks). -/
theorem test_matrix_memory :
    let held := { oneWith [(4, 0xFFFFFE0000000000), (5, 256)] (fun x => { x with lease := .holding }) with
      tiles := [(0, { formats := [(0, { ty := 4 })] })] }
    ([(.mwld Guard.always false 7 (r 4) (r 5) 31 15), (.mrd Guard.always false (r 4) (r 5) 0 3 15)] : List Instr).all
      (fun i => ends (exec i held) fun t => (t.tile 0).crook.queue.length == 1 && t.mem == []) = true := by decide +kernel

/-- R170 of spec/10: DCAN of an id not yet given does nothing; RESUME lets a parked channel go on. -/
theorem test_copy_control :
    let s := { State.reset with agent := 7, slots := [(7, { status := .running, pc := 0x10002, nh := 3, g := [(4, 1)] })] }
    ends (exec (.dcan Guard.always 3 (r 4)) s) (fun t => t.chan 0 3 == {} && t.me.pc == 0x10004) = true ∧
    ends (exec (.dcanResume Guard.always 3) (s.onChan 0 3 fun c => { c with mode := .parked }))
      (fun t => (t.chan 0 3).mode == .busy) = true := by decide +kernel

/-- R281 to R284 of spec/17 outside a replica set. -/
theorem test_replica :
    ends (exec (.rrel Guard.always .sys) (one [])) (fun t => t.me.pc == 0x10004) = true ∧
    ends (exec (.rmark Guard.always 6 3) (one [])) (fun t => t.me.reg 6 == 1) = true ∧
    ends (exec (.rpert Guard.always (r 4)) { one [] with ctxs := [(0, some {})] }) (fun t => t.me.sup.scause == 0x2C2) = true ∧
    ends (exec .rrewind (one [])) (fun t => t.me.sup.scause == 0x2C3) = true := by decide +kernel

/-- R282, R289 and R293 of spec/18: closing a window with nothing on it; FSHORT and FPICK without a window raise 0x382 with its
number; RAND counts a draw; KVTRUNC of an address that is not of a multiple of 64 raises 0x141. -/
theorem test_filter :
    ends (exec (.fopenClose Guard.always 5 false) (one [])) (fun t => t.me.pc == 0x10004) = true ∧
    ends (exec (.fopen Guard.always 5 (r 4)) (one [])) (fun t => t.me.pc == 0x10004) = true ∧
    ends (exec (.fshort Guard.always false false 6 5 (r 0) (r 0)) (one []))
      (fun t => t.me.sup.scause == 0x382 && t.me.sup.saddr == 5) = true ∧
    ends (exec (.fpick Guard.always false false 6 5 (r 0) (r 0)) (one [])) (fun t => t.me.sup.scause == 0x382) = true ∧
    ends (exec (.rand Guard.always false 6) (one [])) (fun t => t.me.rngCtr == 1) = true ∧
    ends (exec (.kvtrunc Guard.always false 6 (r 4) (r 0)) (one [(4, 0xFFFFFF0000000008)])) (fun t => t.me.sup.scause == 0x141) = true := by
  decide +kernel

/-- R327 and R328 of spec/21: PTSYNC.ALL at supervisor level empties the translations and gives the epoch it ended; QWAIT of
a passed epoch goes on; QWAIT.NOW with nothing outstanding goes on. -/
theorem test_translation :
    let sup := oneWith [] fun x => { x with sup := { sinh := true } }
    ends (exec (.ptsync Guard.always .all 6 (r 0)) { sup with tlb := [⟨1, 0, 65536, 0⟩] })
      (fun t => t.tlb == [] && t.me.reg 6 == 1 && t.qepoch == 2) = true ∧
    ends (exec (.qwait Guard.always 6 (r 0)) (one [])) (fun t => t.me.pc == 0x10004) = true ∧
    ends (exec (.qwaitNow Guard.always 6) (one [])) (fun t => t.me.reg 6 == 1 && t.qepoch == 2) = true := by decide +kernel

/-- R336, R338, R349 and R351 of spec/22 and spec/23: a port trains and comes Up; FREEZE_N freezes terminally, so RESUME does
not end it, and RDST reads g4 of slot 0; IDCODE; a hot reset. -/
theorem test_package_events :
    ends (exec (.portEnable 2) (one [])) (fun t => (t.port 2).state == .training) = true ∧
    ends (exec .freezeN (one [])) (fun t => t.freeze == .on false 1 && ends (exec .resume t) fun u => u.freeze == .on false 1) = true ∧
    ends (exec .rdst { one [(0, 0), (4, 77)] with freeze := .on false 1, tap := { index := 4 } }) (fun t => t.tap.dr == 77) = true ∧
    ends (exec .idcode (one [])) (fun t => t.tap.dr == 0x0A5D0C13) = true ∧
    ends (exec .hotReset (one [(4, 1)])) (fun t => t == State.reset) = true := by decide +kernel

/-- R308 of spec/20: a write of QWP further ahead than the ring puts the queue in Error with 0x3CC. -/
theorem test_queue_pointer :
    let s := { State.reset with queues := [(3, { state := .active, qsize := 4 })] }
    ends (exec (.qwpWrite 3 4) s) (fun t => (t.queue 3).state == .active && (t.queue 3).qwp == 4) = true ∧
    ends (exec (.qwpWrite 3 5) s) (fun t => (t.queue 3).state == .error && (t.queue 3).cause == 0x3CC) = true := by decide +kernel

/-- The step runs a placed word as the first instruction after reset (log 29): ADD g6, g4, g5 in a line of one head. -/
theorem test_step_runs_placed_word :
    ends (step ((State.reset.withFetchWord 32 0x48061050).onSlot 8 fun x => { x with g := [(4, 4), (5, 5)] })) (fun t => (t.slot 8).pc == 0x10042 && (t.slot 8).reg 6 == 9) = true := by decide +kernel

/-! ## For each statement, a state and operands that meet its hypotheses, one for each clause -/

/-- An outcome is a next state. -/
def goes (o : Out) : Bool := ends o fun _ => true

theorem next_of {o : Out} (h : goes o = true) : ∃ t, o = .next t := by
  cases o with
  | next t => exact ⟨t, rfl⟩
  | fault f => cases h
  | refused f => cases h

theorem witness_EncodedWordsDecodeBack : (Instr.call Guard.always (.mb 3) 0xFFFFF).wellFormed 6 true = true ∧
    (Instr.mma Guard.always 63 (r 31) ⟨.q 7, true⟩ 127 0).wellFormed 0 false = true := by decide

/-- Operands at the edges: g31, a queue named twice, a synchronised register, a queue with one place left, an empty mailbox. -/
def oneCore (q : List Word) : State :=
  { one [(4, 8), (31, 5)] with cores := [(0, { q := [(1, q), (7, [1, 2, 3, 4, 5, 6, 7])] })] }

theorem witness_ArithmeticWritesResult : (oneCore [3, 9]).atStart ∧
    (oneCore [3, 9]).canRun [⟨.q 1, false⟩, ⟨.q 1, false⟩] [.q 7] ∧ (oneCore []).canRun [⟨.g 31, true⟩, r 0] [.mb 3] ∧
    (oneCore []).canRun [r 4, r 31] [.g 0] := by unfold State.atStart State.canRun; decide +kernel

theorem witness_ShiftsAndBoundsWriteResult : (oneCore [64]).atStart ∧
    (oneCore [64]).canRun [r 31, ⟨.q 1, false⟩] [.g 31] := by unfold State.atStart State.canRun; decide +kernel

theorem witness_CountsWriteResult : (oneCore []).atStart ∧ (oneCore []).canRun [r 0] [.mb 0] := by
  unfold State.atStart State.canRun; decide +kernel

theorem witness_ImmediatesWriteResult : (oneCore [1]).atStart ∧ (oneCore [1]).me.guardOk ⟨false, 15⟩ = true ∧
    (oneCore [1]).canRun [⟨.q 1, false⟩] [.q 1] := by unfold State.atStart State.canRun; decide +kernel

theorem witness_DivisionNeverTraps : (one []).atStart ∧ (one [(4, 9)]).canRun [r 4, r 5] [.g 6] ∧
    arg ((one [(4, 9)]).vals [r 4, r 5]) 1 = 0 ∧
    arg ((one [(4, 0x8000000000000000), (5, 0xFFFFFFFFFFFFFFFF)]).vals [r 4, r 5]) 0 = 0x8000000000000000 ∧
    arg ((one [(4, 0x8000000000000000), (5, 0xFFFFFFFFFFFFFFFF)]).vals [r 4, r 5]) 1 = 0xFFFFFFFFFFFFFFFF := by
  unfold State.atStart State.canRun; decide +kernel

theorem witness_ComparesWritePredicate : (oneCore [1, 2]).atStart ∧ (oneCore [1, 2]).canRun [⟨.q 1, false⟩, ⟨.q 1, true⟩] [] ∧
    (oneCore [1, 2]).canRun [⟨.g 31, true⟩] [] ∧ (oneCore [1, 2]).me.guardOk ⟨true, 0⟩ = true := by
  unfold State.atStart State.canRun; decide +kernel

theorem witness_SourcesReadInOrder : (oneCore [1, 2]).myCore.queue (1 : Fin 8).val = 1 :: 2 :: [] ∧
    (⟨.q 1, true⟩ : Src).op = .q 1 ∧ (r 4).op ≠ .q 1 ∧ (⟨.mb 3, false⟩ : Src).op = .mb 3 ∧ (r 31).op = .g 31 := by decide +kernel

/-- R24 and R25 of spec/02: B alone, C alone and one source each take the first entry of q1; a mailbox as C is emptied. -/
theorem test_sources_named_once :
    let s := { oneCore [5, 6] with cores := [(0, { q := [(1, [5, 6])], mb := [(2, 9)], mbFull := 4 })] }
    let b : Src := ⟨.q 1, false⟩
    (s.vals [b, r 4] = [5, 8] ∧ (s.taken [b, r 4]).myCore.queue 1 = [6]) ∧
    (s.vals [r 4, b] = [8, 5] ∧ (s.taken [r 4, b]).myCore.queue 1 = [6]) ∧
    (s.vals [b] = [5] ∧ (s.taken [b]).myCore.queue 1 = [6]) ∧
    s.vals [r 4, ⟨.mb 2, false⟩] = [8, 9] ∧ (s.taken [r 4, ⟨.mb 2, false⟩]).myCore.mbFull = 0 := by decide +kernel

theorem witness_RegisterInstructionsFrame : (oneCore [1, 2]).me.park.once = false ∧
    (∃ e ∈ Stmt.binaryOps, Instr.add (.q 7) (r 4) (r 31) = e.1 (.q 7) (r 4) (r 31)) ∧
    (∃ t, exec (.add (.q 7) (r 4) (r 31)) (oneCore [1, 2]) = .next t) ∧
    (∃ t, exec (.shi Guard.always (.g 31) (r 4) .ror 63) (oneCore []) = .next t) ∧
    ∃ t, exec (.call Guard.always (.g 0) 0xFFFFF) (oneCore []) = .next t :=
  ⟨by decide, ⟨_, List.mem_cons_self, rfl⟩, next_of (by decide +kernel), next_of (by decide +kernel), next_of (by decide +kernel)⟩

theorem witness_ComparesFrame : (oneCore [1, 2]).me.park.once = false ∧
    (∃ t, exec (.cmp 15 .ge (r 4) (r 31)) (oneCore []) = .next t) ∧ (∃ t, exec (.cmpu 0 .tstz (r 4) (r 31)) (oneCore []) = .next t) ∧
    ∃ t, exec (.cmpi ⟨false, 1⟩ 1 (.signed .ne) (r 4) 0xFFFF) (oneCore []) = .next t :=
  ⟨by decide, next_of (by decide +kernel), next_of (by decide +kernel), next_of (by decide +kernel)⟩

theorem witness_GuardDecidesExecution : Stmt.guardOfInstr (.crd ⟨false, 15⟩ (.g 31) 5) = some ⟨false, 15⟩ ∧
    (one []).me.pred (15 : Fin 16).val = false ∧ Stmt.guardOfInstr (.br ⟨false, 0⟩ 1) = some ⟨false, 0⟩ ∧
    (one []).me.pred (0 : Fin 16).val ≠ false ∧ (one []).me.park.once = false := by decide +kernel

theorem witness_SuccessorIsNextHead : 1 ≤ (0x10002#64).toNat / 2 % 32 ∧ (0x10002#64).toNat / 2 % 32 ≤ 1 ∧
    1 ≤ (0x1003C#64).toNat / 2 % 32 ∧ (0x1003C#64).toNat / 2 % 32 < 31 ∧ (0x1003E#64).toNat / 2 % 32 = 31 := by decide

/-- Slots for each clause of the loop step: the last pass of level 0, one before it, both levels ending, level 1 alone. -/
def looping (a b : Word) (le1 : Word) : Slot :=
  { pc := 0x10004, nh := 3, loop := ⟨a, 0x10002, 0x10004, b, 0x10002, le1⟩ }

theorem witness_LoopStepChoosesNextPc : (∃ x : Slot, x.trap.inh = true) ∧ (looping 1 0 0).trap.inh = false ∧
    (looping 1 0 0).sup.sinh = false ∧ (looping 1 0 0).loop.lc0 = 0 + 1 ∧ (looping 1 0 0).loop.lc0 ≠ 0 ∧
    (looping 1 0 0).pc = (looping 1 0 0).loop.le0 ∧ (looping 2 0 0).loop.lc0 = 1 + 1 ∧
    ¬((looping 1 0 0).loop.lc1 ≠ 0 ∧ (looping 1 0 0).pc = (looping 1 0 0).loop.le1) ∧
    (looping 1 1 0x10004).loop.lc1 = 0 + 1 ∧ (looping 1 1 0x10004).pc = (looping 1 1 0x10004).loop.le1 ∧
    ¬((looping 0 2 0x10004).loop.lc0 ≠ 0 ∧ (looping 0 2 0x10004).pc = (looping 0 2 0x10004).loop.le0) ∧
    (looping 0 2 0x10004).loop.lc1 = 1 + 1 ∧ ¬((looping 0 2 0).loop.lc1 ≠ 0 ∧ (looping 0 2 0).pc = (looping 0 2 0).loop.le1) :=
  ⟨⟨{ trap := { inh := true } }, rfl⟩, by decide +kernel⟩

/-- LOOP's clauses: a count of 0 with the end head in the same line; a free level; both levels active. -/
theorem witness_BranchesTransferAndLoopsStart : (one []).atStart ∧ (one []).me.guardOk ⟨true, 0⟩ = true ∧
    (one []).canRun [] [.g 31] ∧ (one []).canRun [⟨.g 4, false⟩] [] ∧ arg ((one []).vals [⟨.g 4, false⟩]) 0 = 0 ∧
    (Stmt.rel (one []).me.pc 31).toNat / 64 = (one []).me.pc.toNat / 64 ∧ arg ((one [(4, 1)]).vals [⟨.g 4, false⟩]) 0 ≠ 0 ∧
    (one [(4, 1)]).me.loop.lc0 = 0 ∧ (oneWith [(4, 1)] fun x => { x with loop := { lc0 := 1, lc1 := 1 } }).me.loop.lc0 ≠ 0 ∧
    (oneWith [(4, 1)] fun x => { x with loop := { lc0 := 1, lc1 := 1 } }).me.loop.lc1 ≠ 0 := by
  unfold State.atStart State.canRun; decide +kernel

theorem witness_ControlFrame : (one []).me.park.once = false ∧ (∃ t, exec (.br Guard.always 1) (one []) = .next t) ∧
    (∃ t, exec (.loop Guard.always (.g 4) 1) (one [(4, 1)]) = .next t) ∧ (∃ t, exec (.trap Guard.always 1) (one []) = .next t) ∧
    (∃ t, exec .tret (one []) = .next t) ∧ (∃ t, exec .brk (one []) = .next t) ∧
    ∃ t, exec (.cwr Guard.always 0x504 (r 4)) (oneWith [] fun x => { x with sup := { sinh := true } }) = .next t :=
  ⟨by decide, next_of (by decide +kernel), next_of (by decide +kernel), next_of (by decide +kernel), next_of (by decide +kernel),
    next_of (by decide +kernel), next_of (by decide +kernel)⟩

/-- A slot whose traps of class 15 go to its context's handler; in its handler; in the supervisor's. -/
def withHandler : Slot := { status := .running, pc := 0x10002, nh := 3, trap := { tvec := 0x20002 } }

theorem witness_TrapEntrySavesAndVectors : Stmt.toContext withHandler 0x3C4 ∧ ¬Stmt.toContext withHandler 0x081 ∧
    ¬Stmt.toContext { withHandler with trap := { tvec := 0x20002, inh := true } } 0x3C4 ∧
    ((State.reset.setSlot 5 { withHandler with sup := { sinh := true } }).slot 5).sup.sinh = true ∧
    ((State.reset.setSlot 5 withHandler).slot 5).sup.sinh = false := by unfold Stmt.toContext; decide +kernel

theorem witness_NestedTrapKeepsContextWords :
    ((State.reset.setSlot 5 { withHandler with trap := { tvec := 0x20002, inh := true } }).slot 5).trap.inh = true ∧
    ((State.reset.setSlot 5 { withHandler with trap := { tvec := 0x20002, inh := true } }).slot 5).sup.sinh = false := by
  decide +kernel

theorem witness_PreciseTrapLeavesNoEffect : (oneCore [1, 2]).atStart ∧
    (oneCore [1, 2]).canRun [⟨.q 1, false⟩, ⟨.g 4, true⟩] [] ∧ ∀ q, ((oneCore [1, 2]).myCore.queue q).length ≤ 8 := by
  refine ⟨by unfold State.atStart; decide +kernel, by unfold State.canRun; decide +kernel, fun q => ?_⟩
  by_cases h : q < 8
  · revert q; decide +kernel
  · have : (oneCore [1, 2]).myCore.queue q = [] := by
      show Table.val [] q [(1, [1, 2]), (7, [1, 2, 3, 4, 5, 6, 7])] = []
      simp only [Table.val]; rw [if_neg (by omega), if_neg (by omega)]
    rw [this]; decide

theorem witness_TrapBreakAndReturn : (one []).me.park.once = false ∧ (one []).me.guardOk ⟨true, 0⟩ = true ∧
    (oneWith [] fun x => { x with sup := { sinh := true } }).me.sup.sinh = true ∧
    (oneWith [] fun x => { x with trap := { inh := true } }).me.sup.sinh = false ∧
    (oneWith [] fun x => { x with trap := { inh := true } }).me.trap.inh = true ∧ (one []).me.trap.inh = false ∧
    (one []).me.park.vals = none := by decide +kernel

theorem witness_ControlWordReads : (one []).atStart ∧ (one []).me.guardOk ⟨true, 0⟩ = true ∧ (one []).canRun [] [.g 31] ∧
    (one []).me.rep.count = 0 ∧ (oneWith [] fun x => { x with sup := { sinh := true } }).me.sup.sinh = true ∧ 15 < 16 ∧
    ∃ t, exec (.crd Guard.always (.g 31) 0x508) (oneWith [] fun x => { x with sup := { sinh := true } }) = .next t :=
  ⟨by unfold State.atStart; decide, by decide, by unfold State.canRun; decide +kernel, by decide, by decide,
    by decide, next_of (by decide +kernel)⟩

/-- R153 of spec/09, R341 of spec/23, R425 of spec/12: MLSTAT of the holder with one command queued; PENFILL with pen 1 full and
pen 31 not empty; QFILL; REPL of replica 1 of 2. -/
theorem test_status_words :
    let s := { oneWith [] (fun x => { x with lease := .holding, rep := { count := 2, index := 1 } }) with
      cores := [(0, { q := [(7, [1, 2])], pens := [(1, { msgs := [[], [], [], []] }), (31, { msgs := [[]] })] })],
      tiles := [(0, { crook := { holder := some 0, cmdsLeft := 63, queue := [⟨.cfg true true, 0, 0, 0, 0, 0, 0⟩] } })] }
    ([(0x300, 1 + 1 * 2 ^ 12 + 63 * 2 ^ 18 + 16384 * 2 ^ 25), (0x330, 2 + 2 ^ 31 + 2 ^ 33), (0x208, 2 * 2 ^ 28),
      (0x400, 1 + 1 * 4)] : List (BitVec 12 × Word)).all
        (fun e => ends (exec (.crd Guard.always (.g 6) e.1) s) fun t => t.me.reg 6 == e.2) = true := by decide +kernel

theorem witness_ControlWordWrites_readOnly : Stmt.readOnly 0x00A ∧ Stmt.readOnly 0x208 ∧ Stmt.readOnly 0x302 ∧
    ¬Stmt.readOnly 0x303 ∧ ¬Stmt.readOnly 0x30F ∧ Stmt.readOnly 0x310 ∧ Stmt.readOnly 0x330 ∧ Stmt.readOnly 0x403 := by
  simp [Stmt.readOnly]

theorem witness_ControlWordWrites : (one [(4, 7)]).atStart ∧ (one [(4, 7)]).me.guardOk ⟨true, 0⟩ = true ∧
    (one [(4, 7)]).canRun [⟨.g 4, true⟩] [] ∧
    (oneWith [(4, 7)] fun x => { x with sup := { sinh := true } }).canRun [⟨.g 4, true⟩] [] := by
  unfold State.atStart State.canRun; decide +kernel

theorem witness_PrivilegeTraps : (one []).atStart ∧ (one []).me.guardOk ⟨true, 0⟩ = true ∧ (one []).me.sup.sinh = false ∧
    0x500 ≤ (0x500#12).toNat ∧ (0x5FF#12).toNat ≤ 0x5FF := by unfold State.atStart; decide

theorem witness_ReservedOpcodesTrap : (one []).atStart ∧ formatOf ((0x7FC0#16).toNat / 64 % 256) = none ∧
    formatOf ((0x0806#16).toNat / 64 % 256) ≠ none := by unfold State.atStart; decide

theorem witness_RetireEndsThread : (one []).me.park.once = false ∧
    (oneWith [] fun x => { x with inl := [⟨0x30002, 5, 6⟩] }).me.inl = [⟨0x30002, 5, 6⟩] ∧ (one []).me.inl = [] ∧
    (one []).enginesDone (one []).agent = true ∧ (one []).me.rep.count = 0 ∧ (one []).me.id.group = none ∧ (one []).groups = [] := by
  decide +kernel

/-- Slot 0 as a thread of group 2 (of `n` threads) of context 0, whose launch 1 has two groups; outside a set, and as a replica that
may have been absent from a vote. -/
def inGroup (n : Nat) (rep : Replica) (voted : Bool) : State :=
  { oneWith [] (fun x => { x with id := { group := some 2 }, rep := rep, park := { voted := voted } }) with
    groups := [(2, some { asid := 0, launch := 1, index := 0, replica := 0, die := 0, cls := 0, entry := 0, state := .placed, threads := n })]
    ctxs := [(0, some { units := [(handleOf 0 1, { level := 0, state := .active, total := 2, parent := 0, born := 0 })] })] }

theorem witness_RetireEndsThread_group :
    (inGroup 2 {} false).me.rep.count = 0 ∧ (inGroup 2 {} false).me.id.group = some 2 ∧ (inGroup 2 {} false).me.inl = [] ∧
    (inGroup 2 {} false).enginesDone 0 = true ∧ (inGroup 2 {} false).agent = 0 ∧ (inGroup 1 { count := 2 } true).me.park.voted = true ∧
    (inGroup 1 { count := 2 } true).me.park.lostAt = none ∧ (inGroup 1 { count := 2 } true).sets = [] ∧
    ((inGroup 2 {} false).groups.all fun e => match e.2 with
      | some x => x.state == .placed && x.threads == 2 && (inGroup 2 {} false).group 2 == some x
      | none => false) = true ∧
    ((inGroup 1 {} false).groups.all fun e => match e.2 with
      | some x => x.threads == 1 && (match (inGroup 1 {} false).unit x.asid (handleOf 0 x.launch) with
        | some u => u.state == .active && u.count + 1 + u.pruned < u.total
        | none => false)
      | none => false) = true ∧
    (inGroup 2 { count := 2, mismatch := true } false).me.rep.mismatch = true ∧
    (inGroup 2 { count := 2, mismatch := true } false).me.park.vals = none ∧
    (inGroup 2 { count := 2 } false).me.rep.count ≠ 0 ∧ (inGroup 2 { count := 2 } false).me.park.voted = false ∧
    (inGroup 2 { count := 2 } false).me.rep.spill = [] ∧ (inGroup 2 { count := 2 } false).me.rep.vote = none ∧
    (inGroup 2 { count := 2 } false).me.haltReq = false := by decide +kernel

/-- R257 of spec/15 and R278 of spec/17: the last thread of a group ends it and its launch counts it; a replica votes. -/
theorem test_retire_group :
    ends (exec .retire (inGroup 1 {} false)) (fun t => t.me.status == .free && (match t.group 2, t.unit 0 (handleOf 0 1) with
      | some x, some u => x.state == .complete && u.count == 1 && u.state == .active
      | _, _ => false)) = true ∧
    ends (exec .retire (inGroup 2 { count := 2, earmark := 7 } false)) (fun t => t.me.park.wait == some .vote &&
      t.me.rep.vote == some ⟨.release, false, 7, 0, 0, [], false⟩) = true := by decide +kernel

theorem witness_RetireEndsThread_unit :
    ∀ h u, (one []).unit ((one []).asidOf (one []).agent) h = some u → u.state ≠ .cancelling ∧ (u.state = .active → u.over = false) :=
  nofun

theorem witness_EveryStepKeepsMemoryForm : State.reset.memWf ∧
    ({ State.reset with mem := [(5, 1), (9, 2)] } : State).memWf ∧
    ∃ t, step { State.reset with mem := [(5, 1), (9, 2)] } = .next t :=
  ⟨by unfold State.memWf; decide, by unfold State.memWf; decide, next_of (by decide +kernel)⟩

/-- ADD g6, g4, g5 placed at the first turn of core 1. -/
def placed : State := State.reset.withFetchWord 32 0x48061050

def lineOf (s : State) (n : Nat) : Nat :=
  match s.fetchLine n with
  | .ok l => l
  | .error _ => 0

def isOk {ε α : Type} (x : Except ε α) : Bool :=
  match x with
  | .ok _ => true
  | .error _ => false

theorem ok_of {ε α : Type} {x : Except ε α} (h : isOk x = true) : ∃ p, x = .ok p := by
  cases x with
  | ok p => exact ⟨p, rfl⟩
  | error e => cases h

theorem line_of {s : State} {n : Nat} (h : isOk (s.fetchLine n) = true) : s.fetchLine n = .ok (lineOf s n) := by
  unfold lineOf
  obtain ⟨l, e⟩ := ok_of h
  rw [e]

theorem decode_of {slot : Fin 8} {h t : Nat} {i : Instr} (e : reads slot [(h, t, i)] = true) :
    decode slot false h t = .ok (.listed i) := by
  simp only [reads, List.all_cons, List.all_nil, Bool.and_true] at e
  split at e
  · next i' he => rw [he, beq_iff_eq.mp e]
  · cases e

theorem witness_StepRunsDecodedInstruction : placed.inputs = [] ∧ placed.freeze = .off ∧ placed.due = none ∧
    8 * placed.turn + placed.clock.toNat % 8 = 8 ∧ (placed.slot 8).status = .running ∧
    ({ placed with agent := 8 } : State).trapDue 8 = false ∧ (placed.slot 8).park.insn = none ∧ (placed.slot 8).kept = [] ∧
    (placed.slot 8).rep.count = 0 ∧
    (∃ line, ({ placed with agent := 8 } : State).fetchLine 8 = .ok line ∧ lineCheck line = none ∧
      1 ≤ (placed.slot 8).pc.toNat / 2 % 32 ∧ (placed.slot 8).pc.toNat / 2 % 32 ≤ lineNH line ∧
      decode (Fin.ofNat 8 8) (placed.slot 8).sup.sinh (lineHalf line 1) (lineTail line 1) =
        .ok (.listed (.add (.g 6) ⟨.g 4, false⟩ ⟨.g 5, false⟩))) ∧ (placed.slot 8).pc.toNat % 2 = 0 ∧
    (State.reset.turn + 1 < 768 ∧ 768 ≤ ({ State.reset with turn := 767 } : State).turn + 1) := by
  refine ⟨by decide +kernel, by decide +kernel, by decide +kernel, by decide +kernel, by decide +kernel, by decide +kernel,
    by decide +kernel, by decide +kernel, by decide +kernel, ⟨lineOf { placed with agent := 8 } 8, ?_, ?_, ?_, ?_, ?_⟩, by decide +kernel, by decide⟩
  · exact line_of (by decide +kernel)
  · decide +kernel
  · decide +kernel
  · decide +kernel
  · exact decode_of (by decide +kernel)

/-- Line 1 of HBM dirty: all zero, or holding a byte that may not be compressed. -/
def dirtyLine (m : List Host.Cell) : State := { State.reset with mem := m, dirty := [(1, { sectors := 255, allowed := false })] }

theorem witness_EventsComeBeforeTurns : ({ State.reset with inputs := [.event .idcode] } : State).inputs = [.event .idcode] ∧
    ({ State.reset with inputs := [.other .barAtomic] } : State).inputs = [.other .barAtomic] ∧ EnvEv.barAtomic ≠ .ownStep ∧
    ({ State.reset with inputs := [.other .ownStep] } : State).inputs = [.other .ownStep] ∧
    ({ State.reset with freeze := .on true 2, inputs := [.event (.portEnable 0), .other (.writeBack 1)] } : State).freeze ≠ .off ∧
    (∀ e ∈ ({ State.reset with freeze := .on true 2, inputs := [.event (.portEnable 0), .other (.writeBack 1)] } : State).inputs,
      e.throughFreeze = false) ∧
    Table.val none 1 ((dirtyLine []).dirty.map fun e => (e.1, some e.2)) = some { sectors := 255, allowed := false } ∧
    (memRead (dirtyLine []).mem 512 512).all (· == 0) = true ∧ (memRead (dirtyLine [(1023, 1)]).mem 512 512).all (· == 0) = false ∧
    ({ State.reset with ports := [(3, { pause := [(1, 0)] })] } : State).due = some (.pauseExpires 3 1) := by decide +kernel

/-- A gather whose enabled elements 0 and 31 lie in own TCM, the others anywhere. -/
def gathering : State :=
  oneWith [(4, 0xFFFFFF0000000000)] fun x => { x with v := [(2, 4 * 2 ^ 992)], k := [(1, 0x80000001)] }

theorem witness_GathersAndScattersElements : gathering.atStart ∧ gathering.me.guardOk ⟨true, 0⟩ = true ∧
    gathering.canRun [r 4] [] ∧ gathering.me.rep.count = 0 ∧ gathering.me.rep.buffer = [] ∧
    ∀ i, i < 1024 / Stmt.gatherBits .w19 → Stmt.enabled gathering.me (some 1) i = true →
      Stmt.near gathering (Stmt.gatherEa (arg (gathering.vals [r 4]) 0) (gathering.me.vreg (2 : Fin 16).val) 2 i) 4
        (if i = 0 then Config.tcmBase 0 else Config.tcmBase 0 + 16) := by
  unfold State.atStart State.canRun Stmt.near; decide +kernel

/-- R130 of spec/08: the mask of a masked gather of 16 elements is zero beyond its elements too; one with no element to perform
writes none (log 73). -/
theorem test_gather_clears_mask :
    let s := oneWith [(4, 0xFFFFFF0000000000)] fun x => { x with k := [(1, 1 + 2 ^ 127), (2, 2 ^ 127)] }
    ends (exec (.vgath Guard.always .int64 3 (r 4) 2 (some 1) 2) s) (fun t => t.me.kreg 1 == 0) = true ∧
    ends (exec (.vgath Guard.always .int64 3 (r 4) 2 (some 2) 2) s) (fun t => t.me.kreg 2 == 2 ^ 127) = true := by decide +kernel

theorem witness_GatherAndScatterFrame : gathering.atStart ∧ (some 1 : Option (Fin 4)) ≠ some 3 ∧
    (∃ t, exec (.vgath Guard.always .w19 3 (r 4) 2 (some 1) 2) gathering = .next t) ∧
    ∃ t, exec (.vscat Guard.always .w19 3 (r 4) 2 (some 1) 2) gathering = .next t :=
  ⟨by unfold State.atStart; decide, by decide, next_of (by decide +kernel), next_of (by decide +kernel)⟩

/-- The holder of tile 0's crook, with INT8 banks and weights of 4 by 2 in entry 63. -/
def holder : State :=
  { oneWith [(4, 0xFFFFFE0000000000), (5, 256)] (fun x => { x with lease := .holding }) with
    tiles := [(0, { crook := { holder := some 0, cmdsLeft := 64, grantAt := 0 }, formats := [(0, { ty := 4 })],
                    weights := [(63, ⟨4, none, false, 4, 2, [], [], 0⟩)] })] }

/-- A request is accepted. -/
def accepted (s : State) (q : MatReq) : Bool :=
  match s.acceptReq (s.agent / 8) s.me.srCtr q with
  | .ok _ => true
  | .error _ => false

/-- All six commands pass their checks. -/
theorem witness_MatrixCommandsQueue : holder.atStart ∧ holder.me.guardOk ⟨true, 0⟩ = true ∧
    (Stmt.crook holder).err.find? (·.1 == holder.me.tid) = none ∧ holder.me.lease = .holding ∧ (one []).me.lease = .none ∧
    (Stmt.crook holder).queue.length < 4 ∧ (∀ o ∈ Stmt.matrixOps Guard.always (r 4) (r 5) 63 3 15 0 3 0 false false,
      holder.canRun o.2.1 [] ∧ (accepted holder (o.2.2 (holder.vals o.2.1)) || match o.1 with | .mprog _ _ _ => true | _ => false)) ∧
    accepted holder (.prog 0 0) = true := by
  unfold State.atStart State.canRun; decide +kernel

theorem witness_LeaseInstructions : holder.atStart ∧ holder.me.guardOk ⟨true, 0⟩ = true ∧
    (Stmt.crook holder).err.find? (·.1 == holder.me.tid) = none ∧ holder.me.lease = .holding ∧
    (one []).me.lease = .none ∧ (one []).agent % 8 ≠ 7 ∧ (one []).me.status = .running ∧ (one []).me.haltReq = false ∧ (Stmt.crook (one [])).holder = none ∧
    (Stmt.crook (one [])).kept = [] ∧ (Stmt.crook (one [])).depth (one []).me.tid = 0 ∧
    (Stmt.crook (holder.onCrook 0 fun c => { c with queue := [⟨.cfg true true, 0, 0, 0, 0, 0, 0⟩] })).depth 0 ≠ 0 ∧
    (Stmt.crook (holder.onCrook 0 fun c => { c with err := [(0, 2, 0x40)] })).err.find? (·.1 == holder.me.tid) =
      some (0, 2, 0x40) := by
  unfold State.atStart; decide +kernel

/-- No other slot of the tile waits. -/
theorem witness_LeaseInstructions_alone :
    ∀ n, n / 64 = Stmt.tileNum (one []) → n ≠ (one []).agent → ((one []).slot n).lease ≠ .waiting := by
  intro n _ h0
  have : (one []).slot n = {} := by
    show Table.val ({} : Slot) n [(0, _)] = {}
    simp only [Table.val]; rw [if_neg (fun h => h0 h.symm)]
  rw [this]; decide

/-- Cycle 16,384 of a lease, alone and with slot 1 waiting; and a running MCFG, MPROG and MCLR at their end. -/
def lateHolder : State := { holder with clock := 16384 }
def queued (c : MatCmd) : State :=
  { (holder.onCrook 0 fun k => { k with queue := [⟨c, 0, 0, 0, 0, 0, 0⟩], started := 0 }) with clock := 200 }

theorem witness_CrookEvents : (lateHolder.tile 0).crook.holder = some 0 ∧ (lateHolder.slot 0).lease = .holding ∧
    lateHolder.clock.toNat ≥ (lateHolder.tile 0).crook.grantAt.toNat + 16384 ∧ lateHolder.waiters 0 = [] ∧
    ((1 : Nat) ∈ (lateHolder.setSlot 1 { status := .parked, lease := .waiting }).waiters 0) ∧
    ([.cfg true false, .prog 0 0, .clr 7 0 3] : List MatCmd).all (fun c =>
      ((queued c).tile 0).crook.draining == false && ((queued c).tile 0).crook.holder == some 0 &&
      (match (queued c).matEnd 0 with | some e => decide (e ≤ (queued c).clock) | none => false)) = true := by decide +kernel

/-- An image record and a matrix record in own TCM at 0 and 64: an INT8 image of 2 by 2 pixels of 4 channels at TCM 1024, and a
matrix of 4 columns and 1 row at TCM 2048. -/
def imageRec : Nat := (0xFFFFFF0000000400) + 8 * 2 ^ 64 + 2 * 2 ^ 256 + 2 * 2 ^ 272 + 1 * 2 ^ 288 + 1 * 2 ^ 304 + 2 ^ 320 +
  2 ^ 328 + 4 * 2 ^ 352
def matrixRec : Nat := (0xFFFFFF0000000800) + 4 * 2 ^ 64 + 4 * 2 ^ 128 + 1 * 2 ^ 152
def copying : State :=
  inTcm 0 64 imageRec (inTcm 64 64 matrixRec { State.reset with
    agent := 7, slots := [(7, { status := .running, pc := 0x10002, nh := 3, g := [(4, 0xFFFFFF0000000000), (5, 0xFFFFFF0000000040)] })] })

theorem witness_ImageWindowCopyIsQueued_free : copying.me.lost = none ∧ copying.writesHeld = false := by decide +kernel

theorem witness_ImageWindowCopyIsQueued : copying.atStart ∧ copying.me.guardOk ⟨true, 0⟩ = true ∧ copying.canRun [r 4, r 5] [.g 31] ∧
    Stmt.near copying (arg (copying.vals [r 4, r 5]) 0) 64 (Config.tcmBase 0) ∧
    Stmt.near copying (arg (copying.vals [r 4, r 5]) 1) 64 (Config.tcmBase 0 + 64) ∧
    (∀ i, i < 2 → (arg (copying.vals [r 4, r 5]) i).toNat / 2 ^ 40 ≠ 0xFFFFFC) ∧
    (copying.chan 0 3).queue.length < 8 ∧
    (let l := layoutOf (leNat (memRead copying.mem (Config.tcmBase 0) 64))
     let d := layoutOf (leNat (memRead copying.mem (Config.tcmBase 0 + 64) 64))
     let f := copying.endFormat 0 l.base { ty := l.ty, table := l.table, rnd := l.rnd }
     let g := copying.endFormat 0 d.base { ty := d.ty, table := d.table, rnd := d.rnd }
     copying.layoutOk 0 .image l = true ∧ copying.layoutOk 0 .matrix d = true ∧ d.cols = l.ch ∧
     copyKind f g (paddockOf 0 l.base).isSome (paddockOf 0 d.base).isSome l.dq = some .raw ∧ l.dq = false ∧
     l.base + ((l.ih - 1) * l.stride + rowBytes f.ty (l.iw * l.ch)) ≤ 2 ^ 64 ∧
     d.base + ((d.rows - 1) * d.stride + rowBytes g.ty d.cols) ≤ 2 ^ 64 ∧
     copying.extentTrap 0 (copying.asidOf 7) l.base ((l.ih - 1) * l.stride + rowBytes f.ty (l.iw * l.ch)) = none ∧
     copying.extentTrap 0 (copying.asidOf 7) d.base ((d.rows - 1) * d.stride + rowBytes g.ty d.cols) = none) := by
  unfold State.atStart State.canRun Stmt.near; decide +kernel

/-- The same bytes run: DWIN is queued with id 1. -/
theorem test_image_window : ends (exec (.dwin Guard.always 3 (.g 31) (r 4) (r 5) 0 0 0) copying)
    (fun t => t.me.reg 31 == 1 && (t.chan 0 3).queue.length == 1) = true := by decide +kernel

/-- A channel with ids 1 and 2 queued: cancel from 2, and from 3, which is not given yet. -/
def fillOf (base : Nat) (id : Nat) : Transfer :=
  ⟨id, 0, 0, .fill 0x1122334455667788, ⟨0, 0, {}, 0, none⟩, ⟨base, 0, {}, 0, none⟩, 1, 8, none, 0, false, 0, 0, 3, false, false⟩
def tcm0 : Nat := 0xFFFFFF0000000000
def channel (base : Nat) : State := copying.onChan 0 3 fun c => { c with next := 3, queue := [fillOf base 1, fillOf base 2] }

/-- Its fill into an address that no page maps, once the walk has ended. -/
def unmapped : State := { channel 0x1000 with faulted := [⟨.copy 0 3 1 false, copying.asidOf 0, 0, 0x0C1⟩] }

theorem witness_CopyCancelAndResume : (channel tcm0).atStart ∧ (channel tcm0).me.guardOk ⟨true, 0⟩ = true ∧
    (channel tcm0).canRun [r 31] [] ∧ Nat.max 1 (arg ((channel tcm0).vals [r 31]) 0).toNat < ((channel tcm0).chan 0 3).next.toNat ∧
    ¬(((channel tcm0).chan 0 3).mode = .busy ∧ ((channel tcm0).chan 0 3).queue = []) ∧
    (((channel tcm0).chan 0 4).mode = .busy ∧ ((channel tcm0).chan 0 4).queue = []) ∧
    ((channel tcm0).chan 0 4).next.toNat ≤ Nat.max 1 (arg ((channel tcm0).vals [r 31]) 0).toNat ∧
    (∀ x ∈ ((channel tcm0).chan 0 4).queue, x.id < 1) := by
  unfold State.atStart State.canRun; decide +kernel

/-- The address and code a stream stops at. -/
def stopOf (x : Except Stop Piece) : Option (Nat × Nat) :=
  match x with
  | .error (.fault va code) => some (va, code)
  | _ => none

theorem stop_of {x : Except Stop Piece} {va code : Nat} (h : stopOf x = some (va, code)) : x = .error (.fault va code) := by
  unfold stopOf at h
  split at h
  · simp only [Option.some.injEq, Prod.mk.injEq] at h; rw [h.1, h.2]
  · cases h

/-- A fill into TCM; one into an address that no page maps; a raw copy from a bad sector. -/
theorem witness_TransfersWriteParkAndFail : ((channel tcm0).chan 0 3).mode = .busy ∧
    ((channel tcm0).chan 0 3).queue = fillOf tcm0 1 :: [fillOf tcm0 2] ∧ (fillOf tcm0 1).dst.base % 64 ≤ 56 ∧
    (∃ p, (channel tcm0).streamAccess (fillOf tcm0 1) (fillOf tcm0 1).dst.base 8 true = .ok p) ∧
    (∃ code, unmapped.streamAccess (fillOf 0x1000 1) (fillOf 0x1000 1).dst.base 8 true = .error (.fault 0x1000 code)) ∧
    (∃ p, (channel tcm0).streamAccess { fillOf tcm0 1 with kind := .raw, src := ⟨tcm0, 0, {}, 0, none⟩ } tcm0 8 false = .ok p) ∧
    (({ channel tcm0 with badData := [Config.tcmBase 0 / 64] } : State).badIn (Config.tcmBase 0) 8 = some (0x181, Config.tcmBase 0)) :=
  ⟨by decide +kernel, by decide +kernel, by decide, ok_of (by decide +kernel), ⟨0x0C1, stop_of (by decide +kernel)⟩,
    ok_of (by decide +kernel), by decide +kernel⟩

/-- A hurdle with EXPECT e, ARRIVED r, PHASE p of tile scope at offset 0 of the own paddock. -/
def hurdle (e a p : Nat) (n : Word) : State :=
  { one [(4, 0xFFFFFE0000000000), (5, n), (6, 0xFFFFFFFF), (7, 0xFFFFFE0000000008)] with
    mem := memWrite [] (Config.paddockBase 0) (leBytes (Stmt.hurdleBits e a p 2) 16) }

theorem witness_HurdlesCountArrivals : (hurdle 2 1 0xFFFFFFFF 1).me.haltReq = false ∧
    (let s := (hurdle 2 1 0xFFFFFFFF 1).onMe fun x => { x with haltReq := true }
     s.atStart ∧ s.me.haltReq = true ∧ s.me.park.left = false) ∧ (hurdle 2 1 0xFFFFFFFF 1).atStart ∧ (hurdle 2 1 0xFFFFFFFF 1).me.guardOk ⟨true, 0⟩ = true ∧
    (hurdle 2 1 0xFFFFFFFF 1).me.rep.count = 0 ∧ (hurdle 2 1 0xFFFFFFFF 1).me.rep.buffer = [] ∧
    (hurdle 2 1 0xFFFFFFFF 1).canRun [r 4, r 5] [] ∧ (hurdle 2 1 0xFFFFFFFF 1).canRun [⟨.g 6, false⟩, r 4] [] ∧
    (let ea := arg ((hurdle 2 1 0xFFFFFFFF 1).vals [r 4, r 5]) 0 + (0 : BitVec 24).signExtend 64
     Stmt.near (hurdle 2 1 0xFFFFFFFF 1) ea 16 (Config.paddockBase 0) ∧ ea.toNat / 2 ^ 40 = 0xFFFFFE) ∧
    (arg ((hurdle 2 1 0 1).vals [r 4, r 5]) 1).toNat = 1 ∧ (arg ((hurdle 2 1 0 0xFFFFFFFF).vals [r 4, r 5]) 1).toNat < 2 ^ 32 ∧
    (arg ((hurdle 2 1 0 0).vals [r 4, r 5]) 1).toNat = 0 ∧ 2 ^ 32 ≤ (arg ((hurdle 2 1 0 0x100000000).vals [r 4, r 5]) 1).toNat ∧
    (arg ((hurdle 2 1 0 1).vals [r 7, r 5]) 0 + (0 : BitVec 24).signExtend 64).toNat % 16 ≠ 0 ∧
    leNat (memRead (hurdle 2 1 0xFFFFFFFF 1).mem (Config.paddockBase 0) 16) = Stmt.hurdleBits 2 1 0xFFFFFFFF 2 ∧
    leNat (memRead (hurdle 0xFFFFFFFF 0 0 1).mem (Config.paddockBase 0) 16) = Stmt.hurdleBits 0xFFFFFFFF 0 0 2 ∧
    0xFFFFFFFF = ((hurdle 2 1 0xFFFFFFFF 1).me.reg (6 : Fin 32).val).toNat % 2 ^ 32 ∧
    0 ≠ ((hurdle 2 1 0 1).me.reg (6 : Fin 32).val).toNat % 2 ^ 32 := by
  unfold State.atStart State.canRun Stmt.near; decide +kernel

/-- A hurdle that expects nothing is none; an HWAIT at a misaligned address. -/
theorem witness_HurdlesCountArrivals_none : leNat (memRead (hurdle 0 0 0 1).mem (Config.paddockBase 0) 16) = Stmt.hurdleBits 0 0 0 2 ∧
    Stmt.noHurdle (Stmt.hurdleBits 0 0 0 2) ∧ (hurdle 0 0 0 1).canRun [⟨.g 6, false⟩, r 7] [] ∧
    (arg ((hurdle 0 0 0 1).vals [⟨.g 6, false⟩, r 7]) 1 + (0 : BitVec 20).signExtend 64).toNat % 16 ≠ 0 ∧
    Stmt.near (hurdle 0 0 0 1) (arg ((hurdle 0 0 0 1).vals [r 4]) 0 + (0 : BitVec 24).signExtend 64) 16 (Config.paddockBase 0) ∧
    Stmt.near (hurdle 0 0 0 1) (arg ((hurdle 0 0 0 1).vals [⟨.g 6, false⟩, r 4]) 1 + (0 : BitVec 20).signExtend 64) 16
      (Config.paddockBase 0) := by
  refine ⟨by decide +kernel, ?_, by unfold State.canRun; decide +kernel, by decide +kernel, by unfold Stmt.near; decide +kernel,
    by unfold Stmt.near; decide +kernel⟩
  rintro ⟨e, a, p, z, h⟩
  simp only [Stmt.hurdleBits] at h
  omega

/-- R259 of spec/16: HARR and HWAIT on it raise 0x285; HWAIT at a misaligned address raises 0x141. -/
theorem test_no_hurdle :
    ends (exec (.harr Guard.always 5 (r 4) 0) (hurdle 0 0 0 1)) (fun t => t.me.sup.scause == 0x285) = true ∧
    ends (exec (.hwait Guard.always 6 (r 4) 0) (hurdle 0 0 0 1)) (fun t => t.me.sup.scause == 0x285) = true ∧
    ends (exec (.hwait Guard.always 6 (r 7) 0) (hurdle 0 0 0 1)) (fun t => t.me.sup.scause == 0x141) = true := by decide +kernel

theorem witness_HurdleFrame : (hurdle 2 1 5 1).atStart ∧
    (∃ t, exec (.hinit Guard.always .tile (r 4) (r 5) 0) (hurdle 2 1 5 1) = .next t) ∧
    (∃ t, exec (.harr Guard.always 31 (r 4) 0) (hurdle 2 1 5 1) = .next t) ∧
    ∃ t, exec (.hwait Guard.always 6 (r 4) 0) (hurdle 2 1 5 1) = .next t :=
  ⟨by unfold State.atStart; decide, next_of (by decide +kernel), next_of (by decide +kernel), next_of (by decide +kernel)⟩

/-- Every instruction of the list goes on, from one state. -/
theorem witness_EngineIssueFrame : holder.atStart ∧
    ∀ i ∈ (Stmt.matrixOps Guard.always (r 4) (r 5) 63 3 15 0 3 0 false false).map (·.1) ++ [.mlease Guard.always, .mfree,
      .mstat Guard.always 31, .dcanResume Guard.always 3, .rrel Guard.always .pkg, .rmark Guard.always 31 3,
      .rpert Guard.always (r 4), .fopen Guard.always 255 (r 0), .fopenClose Guard.always 255 true,
      .fshort Guard.always false false 31 255 (r 0) (r 0), .fpick Guard.always false false 31 255 (r 0) (r 0),
      .rand Guard.always false 31, .qwait Guard.always 31 (r 0), .qwaitNow Guard.always 31, .ptsync Guard.always .all 31 (r 0)],
      goes (exec i holder) = true := by
  unfold State.atStart; decide +kernel

/-- Slot 0 as one of two replicas; context 0 with RTEST; a mismatch handler with its checkpoint. -/
def replica : State := oneWith [(4, 3)] fun x => { x with rep := { count := 2, earmark := 9, votes := 4 } }
def checkpoint : Checkpoint := ⟨[(5, 6)], 1, 1, [], [], {}, 2, 3, [], 0x30002, 7⟩
def mismatched : State := oneWith [] fun x =>
  { x with rep := { count := 2, ckpt := some checkpoint }, trap := { inh := true, tcause := 0x2C1 } }

theorem witness_ReplicaInstructions : (one []).atStart ∧ replica.atStart ∧ mismatched.atStart ∧ (one []).me.guardOk ⟨true, 0⟩ = true ∧
    (one []).me.rep.count = 0 ∧ (one []).me.lost = none ∧
    (oneWith [] fun x => { x with lost := some 0x40 }).me.lost = some 0x40 ∧ replica.me.rep.count ≠ 0 ∧ replica.canRun [r 4] [] ∧
    ({ one [] with ctxs := [(0, some {})] } : State).ctx ((one []).asidOf 0) = some {} ∧ ({} : Ctx).record.rtest = false ∧
    ({ replica with ctxs := [(0, some { record := { rtest := true } })] } : State).ctx 0 = some { record := { rtest := true } } ∧
    mismatched.me.rep.ckpt = some checkpoint ∧ mismatched.me.sup.sinh = false ∧ mismatched.me.trap.inh = true ∧
    mismatched.me.trap.tcause = 0x2C1 ∧ (one []).me.rep.ckpt = none := by
  unfold State.atStart State.canRun; decide +kernel

/-- Slot 0 as replica 1 of a dual set whose bellwether is replica 0; a remote write that a pause of its lane holds back. -/
def inSet : State :=
  { oneWith [] (fun x => { x with id := { group := some 2 }, rep := { count := 2, index := 1 } }) with
    sets := [⟨0, 1, 0, 2, [1, 2], [true, true], 0, true⟩] }
def holding : State := { one [] with ports := [(3, { state := .up, waiting := [.write [0] 0x40 (.write 0 [1]) none false] })] }

theorem witness_ReplicaInstructions_set : inSet.atStart ∧ inSet.me.rep.count ≠ 0 ∧
    inSet.setOf inSet.me = some ⟨0, 1, 0, 2, [1, 2], [true, true], 0, true⟩ ∧ holding.atStart ∧ holding.me.rep.count = 0 ∧
    holding.writesHeld = true ∧ (one []).writesHeld = false ∧ holding.me.haltReq = false ∧
    Stmt.handles mismatched.me 0x2C1 ∧ Stmt.handles (mismatched.onMe fun x => { x with sup := { sinh := true, scause := 0x2C1 } }).me 0x2C1 ∧
    (mismatched.onMe fun x => { x with trap := {} }).me.rep.ckpt = some checkpoint ∧
    ¬Stmt.handles (mismatched.onMe fun x => { x with trap := {} }).me 0x2C1 := by
  unfold State.atStart Stmt.handles; decide +kernel

theorem witness_ReplicaInstructions_vote : inSet.me.park.voted = false ∧ inSet.me.rep.spill = [] ∧ inSet.enginesDone inSet.agent = true ∧
    inSet.me.rep.mismatch = false ∧ inSet.me.rep.vote = none ∧ inSet.me.haltReq = false ∧ (inGroup 2 { count := 2 } true).atStart ∧
    (inGroup 2 { count := 2 } true).me.rep.count ≠ 0 ∧ (inGroup 2 { count := 2 } true).me.park.voted = true ∧
    (inGroup 2 { count := 2 } true).me.park.lostAt = none ∧ (inGroup 2 { count := 2 } true).me.guardOk ⟨true, 0⟩ = true ∧
    (inGroup 2 { count := 2, mismatch := true } false).atStart ∧
    (inGroup 2 { count := 2, mismatch := true } false).me.rep.mismatch = true := by
  unfold State.atStart; decide +kernel

/-- A remote write of slot 0 that left by a port which stands in Retrain, `n` cycles ago. -/
def unsure (n : Word) : State :=
  { one [] with
    clock := n, ports := [(3, { state := .retrain, writes := [{ tids := [(one []).me.tid], va := 0x40, pa := 0, old := [0], new := [1] }] })] }

theorem witness_ReplicaInstructions_retrain : (unsure 100).atStart ∧ (unsure 100).me.rep.count = 0 ∧ (unsure 100).writesHeld = false ∧
    (unsure 100).me.lost = none ∧ (unsure 100).me.haltReq = false ∧
    (∃ e ∈ (unsure 100).ports, e.2.state = .retrain ∧ ∃ w ∈ e.2.writes, (unsure 100).me.tid ∈ w.tids ∧
      ¬(2 ^ 20 ≤ (unsure 100).clock.toNat - w.left.toNat ∧ (unsure 100).reachable (remotePkg w.pa) = false)) ∧
    (∃ e ∈ (unsure (2 ^ 20)).ports, e.2.state = .retrain ∧ ∃ w ∈ e.2.writes, (unsure (2 ^ 20)).me.tid ∈ w.tids ∧
      2 ^ 20 ≤ (unsure (2 ^ 20)).clock.toNat - w.left.toNat ∧ (unsure (2 ^ 20)).reachable (remotePkg w.pa) = false) ∧
    (unsure (2 ^ 20)).slotOfTid (unsure (2 ^ 20)).me.tid = some (unsure (2 ^ 20)).agent := by
  unfold State.atStart; decide +kernel

/-- R338 and R339 of spec/22: a system-scope release waits for a write that a port in Retrain keeps from being acknowledged, for 2^20
cycles, and longer where another port reaches the package (package 0, to which the write went). -/
theorem test_release_in_retrain :
    ends (exec (.rrel Guard.always .sys) { unsure (2 ^ 20) with
        ports := (unsure (2 ^ 20)).ports ++ [(4, { state := .up })], host := { route := [(0, 1 <<< 4)] } })
      (fun t => t.me.park.wait == some .writesLeave) = true ∧
    ends (exec (.rrel Guard.always .sys) (unsure 100)) (fun t => t.me.park.wait == some .writesLeave) = true ∧
    ends (exec (.rrel Guard.always .sys) (unsure (2 ^ 20))) (fun t => t.me.sup.scause == 0x10C && t.me.sup.saddr == 0x40) = true := by
  decide +kernel

/-- R282 and R284 of spec/17: RMARK 3 gives replicas 0 and 1 live and bellwether 0; RREWIND outside a 0x2C1 handler raises 0x2C3. -/
theorem test_replica_set :
    ends (exec (.rmark Guard.always 6 3) inSet) (fun t => t.me.reg 6 == 3) = true ∧
    ends (exec .rrewind (mismatched.onMe fun x => { x with trap := {} })) (fun t => t.me.sup.scause == 0x2C3) = true ∧
    ends (exec (.rrel Guard.always .sys) holding) (fun t => t.me.park.wait == some .writesLeave) = true := by decide +kernel

/-- Two replicas in slots 0 and 64, groups 1 and 2, with or without the second's vote. -/
def voterOf (ix tid g : Nat) (v : Option VoteAt) : Slot :=
  { status := .parked, tid := tid, pc := 0x10002, trap := { tvec := 0x20002 }, id := { group := some g },
    rep := { count := 2, index := ix, earmark := 5, votes := 3, vote := v }, park := { wait := some .vote } }
def dual (v w : Option VoteAt) : State :=
  { State.reset with slots := [(0, voterOf 0 10 1 v), (64, voterOf 1 11 2 w)], sets := [⟨0, 1, 0, 2, [1, 2], [true, true], 0, true⟩] }
def voted (n : Nat) (kind : VoteKind := .release) : Option VoteAt := some ⟨kind, false, 0, 0, n, [], false⟩

/-- An implicit vote (R270 of spec/17) with nothing over its quota; its replicas run again. -/
theorem witness_VotesAgreeOrTimeOut_buffer :
    (∀ v, voted 0 .buffer = some v → v.own = [] ∧ v.kind = .buffer) ∧ (voterOf 0 10 1 (voted 0 .buffer)).rep.spill = [] ∧
    (voterOf 0 10 1 (voted 0 .buffer)).agrees (voterOf 1 11 2 (voted 0 .buffer)) = true ∧
    ends (exec (.vote 0 1 0) (dual (voted 0 .buffer) (voted 0 .buffer)))
      (fun t => (t.slot 0).status == .running && (t.slot 64).status == .running && (t.slot 64).rep.votes == 4) = true := by
  refine ⟨fun v h => by cases h; exact ⟨rfl, rfl⟩, by decide +kernel⟩

theorem witness_VotesAgreeOrTimeOut :
    (voterOf 0 10 1 (voted 0)).rep.buffer = [] ∧ (∀ v, voted 0 = some v ∨ voted 0 = some v → v.own = [] ∧
      (v.kind = .buffer → (voterOf 0 10 1 (voted 0)).rep.spill = [] ∧ (voterOf 1 11 2 (voted 0)).rep.spill = [])) ∧
    (dual (voted 0) (voted 0)).findSet 0 1 0 = some ⟨0, 1, 0, 2, [1, 2], [true, true], 0, true⟩ ∧
    (dual (voted 0) (voted 0)).setThreads ⟨0, 1, 0, 2, [1, 2], [true, true], 0, true⟩ = [[voterOf 0 10 1 (voted 0), voterOf 1 11 2 (voted 0)]] ∧
    (dual (voted 0) (voted 0)).slot 64 = voterOf 1 11 2 (voted 0) ∧ (dual (voted 0) (voted 0)).slotOfTid 11 = some 64 ∧
    (dual (voted 0) (voted 0)).slotOfTid 10 = some 0 ∧ (voterOf 0 10 1 (voted 0)).agrees (voterOf 1 11 2 (voted 0)) = true ∧
    (dual (voted 16777216) none).findSet 0 1 0 = some ⟨0, 1, 0, 2, [1, 2], [true, true], 0, true⟩ ∧
    (dual (voted 16777216) none).setThreads ⟨0, 1, 0, 2, [1, 2], [true, true], 0, true⟩ =
      [[voterOf 0 10 1 (voted 16777216), voterOf 1 11 2 none]] ∧
    (voterOf 0 10 1 (voted 16777216)).rep.vote = some ⟨.release, false, 0, 0, 16777216, [], false⟩ ∧ 2 ^ 24 ≤ 16777216 ∧
    (dual (voted 16777216) none).slotOfTid 10 = some 0 ∧ (dual (voted 16777216) none).slotOfTid 11 = some 64 ∧
    Stmt.toContext (voterOf 0 10 1 (voted 16777216)) 0x2C1 := by
  refine ⟨by decide, fun v h => ?_, ?_⟩
  · rcases h with h | h <;> (cases h; exact ⟨rfl, fun _ => ⟨rfl, rfl⟩⟩)
  · unfold Stmt.toContext; decide +kernel

/-- Two replicas that differ. -/
def differing : State := (dual (voted 0) (voted 0)).onSlot 64 fun x => { x with rep := { x.rep with earmark := 6 } }

theorem witness_VotesAgreeOrTimeOut_differ : differing.findSet 0 1 0 = some ⟨0, 1, 0, 2, [1, 2], [true, true], 0, true⟩ ∧
    differing.setThreads ⟨0, 1, 0, 2, [1, 2], [true, true], 0, true⟩ = [[differing.slot 0, differing.slot 64]] ∧
    (differing.slot 0).rep.index = 0 ∧ (differing.slot 64).rep.index = 1 ∧ differing.slotOfTid (differing.slot 0).tid = some 0 ∧
    differing.slotOfTid (differing.slot 64).tid = some 64 ∧ (differing.slot 0).tid ≠ (differing.slot 64).tid ∧
    (differing.slot 0).status = .parked ∧ (differing.slot 64).status = .parked ∧ (differing.slot 64).rep.vote.isSome = true ∧
    (differing.slot 0).rep.vote.isSome = true ∧ (differing.slot 0).agrees (differing.slot 64) = false ∧
    ((differing.slot 0).releasesSys || (differing.slot 64).releasesSys) = false ∧ (differing.slot 0).sup.sinh = false ∧
    (differing.slot 64).sup.sinh = false ∧ Stmt.toContext (differing.slot 0) 0x2C1 ∧ Stmt.toContext (differing.slot 64) 0x2C1 := by
  unfold Stmt.toContext; decide +kernel

/-- Three replicas, of which the third differs. -/
def triple : State :=
  { State.reset with
    slots := [(0, voterOf 0 10 1 (voted 0)), (64, voterOf 1 11 2 (voted 0)), (128, { voterOf 2 12 3 (voted 0) with
      rep := { (voterOf 2 12 3 (voted 0)).rep with earmark := 6 } })]
    sets := [⟨0, 1, 0, 3, [1, 2, 3], [true, true, true], 0, true⟩] }

theorem witness_VotesAgreeOrTimeOut_triple :
    triple.findSet 0 1 0 = some ⟨0, 1, 0, 3, [1, 2, 3], [true, true, true], 0, true⟩ ∧
    triple.setThreads ⟨0, 1, 0, 3, [1, 2, 3], [true, true, true], 0, true⟩ = [[triple.slot 0, triple.slot 64, triple.slot 128]] ∧
    (triple.slot 0).rep.index = 0 ∧ (triple.slot 64).rep.index = 1 ∧ (triple.slot 128).rep.index = 2 ∧
    triple.slotOfTid (triple.slot 0).tid = some 0 ∧ triple.slotOfTid (triple.slot 64).tid = some 64 ∧
    triple.slotOfTid (triple.slot 128).tid = some 128 ∧ ([1, 2, 3] : List Nat)[2]? = some 3 ∧ (triple.slot 128).id.group = some 3 ∧
    (triple.slot 0).id.group ≠ some 3 ∧ (triple.slot 64).id.group ≠ some 3 ∧ (triple.slot 0).tid ≠ (triple.slot 64).tid ∧
    ([triple.slot 0, triple.slot 64, triple.slot 128].all fun w => w.status == .parked && w.rep.buffer == [] && w.lease == .none &&
      (match w.rep.vote with | some v => v.own == [] && v.kind != .buffer | none => false)) = true ∧ triple.groups = [] ∧
    (∀ e ∈ triple.slots, e.2.tid = (triple.slot 128).tid → e.1 = 128) ∧
    (triple.slot 0).agrees (triple.slot 64) = true ∧ (triple.slot 0).agrees (triple.slot 128) = false := by decide +kernel

/-- R273 of spec/17: a dual set that differs takes 0x2C1 in both; of a triple set the one that differs is shorn. -/
theorem test_votes_differ :
    ends (exec (.vote 0 1 0) differing) (fun t => (t.slot 0).trap.tcause == 0x2C1 && (t.slot 64).trap.taddr == 6) = true ∧
    ends (exec (.vote 0 1 0) triple) (fun t => (t.slot 128).status == .free && (t.slot 0).rep.votes == 4 &&
      (t.slot 64).park.voted && t.sets.any fun q => q.live == [true, true, false]) = true := by decide +kernel

/-- A page of HBM from 0x10000 on, mapped to itself with R, W and X for ASID 0. -/
def page : Leaf := ⟨0, 0x10000, 65536, 0x1000F⟩

/-- A window record in own TCM: LADDR 0x10000, FP32, VOCAB 15, K 1, ROWS 0, RSTRIDE 64, TEMP and TOPP 1. -/
def windowRec : Nat := 0x10000 + 15 * 2 ^ 128 + 1 * 2 ^ 151 + 64 * 2 ^ 192 + 0x3F800000 * 2 ^ 320 + 0x3F800000 * 2 ^ 352
def filtering : State := inTcm 0 64 windowRec { one [(4, 0xFFFFFF0000000000)] with tlb := [page] }

theorem witness_FilterWindowsOpenAndClose : filtering.atStart ∧ filtering.me.guardOk ⟨true, 0⟩ = true ∧ filtering.me.rep.count = 0 ∧
    filtering.me.rep.buffer = [] ∧ filtering.foreignWin 255 = false ∧ filtering.canRun [r 5] [] ∧ arg (filtering.vals [r 5]) 0 = 0 ∧
    filtering.canRun [r 4] [] ∧ arg (filtering.vals [r 4]) 0 ≠ 0 ∧
    Stmt.near filtering (arg (filtering.vals [r 4]) 0) 64 (Config.tcmBase 0) ∧
    (filtering.acceptWindow 255 (leNat (memRead filtering.mem (Config.tcmBase 0) 64))).isSome = true ∧
    (filtering.onWin 255 fun _ => { win := some (windowOf windowRec 7 0) }).foreignWin 255 = true := by
  unfold State.atStart State.canRun Stmt.near; decide +kernel

/-- A stream record with CLEN 3, LEN 5 and PTOK 1. -/
def streamRec : Nat := 0x5354524D * 2 ^ 32 + (3 * 2 ^ 32 + 5) * 2 ^ 64 + 1 * 2 ^ 448

/-- The window open for the context, with one row, and a stream record at 0x10000. -/
def opened : State :=
  let s := (filtering.onWin 2 fun _ => { win := some (windowOf windowRec 0 0) }).onSlot 0 fun x =>
    { x with g := [(4, 0xFFFFFF0000000000), (5, 1), (6, 0x10000)] }
  { s with mem := memWrite s.mem 0x10000 (leBytes streamRec 512) }

theorem witness_FilterOperationsQueueAndAnswer : opened.atStart ∧ opened.me.guardOk ⟨true, 0⟩ = true ∧ opened.canRun [r 0, r 4] [] ∧
    opened.me.rep.count = 0 ∧ opened.canRun [r 0, r 0] [] ∧ opened.canRun [r 0, r 6] [] ∧ (r 6).op ≠ .g 0 ∧
    (match opened.access opened.agent (arg (opened.vals [r 0, r 6]) 1) 512 (opened.need true true) with
      | .ok ps => ps.all (fun p => p.home != .format) && !replicable ps | _ => false) = true ∧
    (arg (opened.vals [r 0, r 6]) 1).toNat % 64 = 0 ∧
    (match (opened.taken [r 0, r 6]).goodStream (opened.taken [r 0, r 6]).actor 0x10000 with
      | .ok st => st.len != st.clen + 32 | .error _ => false) = true ∧
    (match (opened.taken [r 0, r 4]).goodStream (opened.taken [r 0, r 4]).actor 0xFFFFFF0000000000 with
      | .error e => e == (0x384, 0xFFFFFF0000000000) | .ok _ => false) = true ∧ (opened.winSlot 2).win = some (windowOf windowRec 0 0) ∧
    (windowOf windowRec 0 0).owner = opened.asidOf opened.agent ∧
    (arg (opened.vals [r 0, r 4]) 0).toNat ≤ (windowOf windowRec 0 0).rows ∧ (arg (opened.vals [r 0, r 4]) 1).toNat % 8 = 0 ∧
    (match opened.access opened.agent (arg (opened.vals [r 0, r 4]) 1) 40 (opened.need false true) with
      | .ok ps => ps.all (fun p => p.home != .format) && !replicable ps | _ => false) = true ∧
    arg (opened.vals [r 0, r 0]) 1 = 0 ∧ (windowOf windowRec 0 0).rows < (arg (opened.vals [r 5, r 4]) 0).toNat ∧
    (opened.winSlot 3).win = none ∧
    (({ State.reset with
      slots := [(9, { status := .running, tid := 5 })],
        windows := [(2, { ops := [(⟨true, false, true, false, false, 0, 0, 5, 1, 31, 0, 0, [], false⟩, true)] })] } : State).winSlot 2).ops =
      [(⟨true, false, true, false, false, 0, 0, 5, 1, 31, 0, 0, [], false⟩, true)] := by
  unfold State.atStart State.canRun; decide +kernel

/-- A stream record at 0x10000. -/
def streaming (l : Word) : State :=
  { oneWith [] (fun x => { x with park := { vals := some [0x10000, l], answered := true }, trap := { tvec := 0x20002 } }) with
    tlb := [page], mem := memWrite [] 0x10000 (leBytes streamRec 512) }

theorem witness_RandomBitsAndTruncation : (streaming 5).me.guardOk ⟨true, 0⟩ = true ∧ (streaming 5).me.park.once = false ∧
    (streaming 5).me.park.vals = some [0x10000, 5] ∧ (streaming 5).me.park.answered = true ∧ (streaming 5).me.rep.count = 0 ∧
    (match (streaming 5).access 0 0x10000 512 ((streaming 5).need true true) with
      | .ok ps => ps.all (fun p => p.home != .format) && !replicable ps | _ => false) = true ∧
    (match (streaming 5).goodStream (streaming 5).actor 0x10000 with
      | .ok x => x.clen == 3 && x.len == 5 && isOk ((streaming 5).putStream (streaming 5).actor 0x10000 5 5 2 2)
          && isOk ((streaming 5).putStream (streaming 5).actor 0x10000 3 5 2 0) | .error _ => false) = true ∧
    ((2 : Word).toNat < 3 ∧ 5 < (6 : Word).toNat) ∧ Stmt.toContext (streaming 2).me 0x385 := by
  unfold Stmt.toContext; decide +kernel

/-- A root at 0x1000 that maps the first GiB by one leaf. -/
def mapped : State :=
  { one [(4, 5)] with
    mem := memWrite (memWrite (memWrite [] 0x1000 (leBytes 0x2001 8)) 0x2000 (leBytes 0x3001 8)) 0x3000 (leBytes 0xF 8),
    walks := [⟨0, 0, 1, 0x1000, []⟩] }

/-- A root that maps nothing, and two units that wait for the walk of page 1. -/
def faulting : State := { State.reset with walks := [⟨0, 0, 1, 0x1000, [.window 255 0, .copy 95 15 1 false]⟩] }

def codeOf (x : Except Nat Leaf) : Nat := match x with | .ok _ => 0 | .error c => c

theorem witness_TranslationsEndAndQuiesce_fault :
    (faulting.walks.filter (·.die == 0)).head? = some ⟨0, 0, 1, 0x1000, [.window 255 0, .copy 95 15 1 false]⟩ ∧
    codeOf (faulting.walkRoot 0x1000 0 65536) = 0x0C1 ∧ (faulting.slots.all fun e => e.2.status != .parked) = true ∧
    ends (exec (.pageWalkCompletes 0 0 1) faulting) (fun t => (t.known (.copy 95 15 1 false) 0).contains (1, 0x0C1)) = true := by
  decide +kernel

theorem witness_TranslationsEndAndQuiesce : (one [(4, 5)]).atStart ∧ (one [(4, 5)]).me.guardOk ⟨true, 0⟩ = true ∧
    (one [(4, 5)]).canRun [r 4] [] ∧ (oneWith [] fun x => { x with sup := { sinh := true } }).me.sup.sinh = true ∧
    arg ((one [(4, 5)]).vals [r 0]) 0 ≤ (one [(4, 5)]).qdone ∧ ¬arg ((one [(4, 5)]).vals [r 4]) 0 ≤ (one [(4, 5)]).qdone ∧
    (∀ e ∈ (one [(4, 5)]).allSlots, e.2.park.epoch = none ∧ e.2.rep.buffer = [] ∧ e.2.rep.owned = []) ∧ (one [(4, 5)]).me.rep.owned = [] ∧ (one [(4, 5)]).me.park.epoch = none ∧
    (one [(4, 5)]).me.rep.buffer = [] ∧ (one [(4, 5)]).ports = [] ∧ (one [(4, 5)]).qepoch.toNat + 1 < 2 ^ 64 ∧ 0 < (one [(4, 5)]).qepoch.toNat ∧
    (mapped.walks.filter (·.die == 0)).head? = some ⟨0, 0, 1, 0x1000, []⟩ ∧
    isOk (mapped.walkRoot 0x1000 0 65536) = true := by
  unfold State.atStart State.canRun; decide +kernel

theorem witness_SlotsWakeAnswerAndTakeTraps :
    (let s := State.reset.setSlot 3 { status := .parked, park := { wait := some (.quiet 0) } }
     (s.slot 3).status = .parked ∧ s.waitHolds 3 (.quiet 0) = true) ∧
    (let s := State.reset.setSlot 3 { status := .parked, park := { wait := some (.quiet 5) } }
     s.waitHolds 3 (.quiet 5) = false) ∧
    (let s := State.reset.setSlot 3 { status := .parked, tid := 4, park := { wait := some (.answer 8 .hbm) } }
     let x := s.slot 3
     x.park.wait = some (.answer 8 .hbm) ∧ x.park.dead = false ∧ x.park.behind = false ∧ x.park.answered = false ∧
       x.park.asked = [] ∧ x.status ≠ .free ∧ s.findTid x.tid = some x) ∧
    (let x := (State.reset.setSlot 3 { status := .running, cpend := true }).slot 3
     x.status = .running ∧ x.sup.sinh = false ∧ x.trap.inh = false ∧ x.park.left = false ∧ x.park.voted = false ∧
     x.park.wait = none ∧ x.cpend = true ∧ x.owes = false) ∧
    (let x := (State.reset.setSlot 3
       { status := .running, cpend := true, pend := [(0x310, 7)], park := { out := some ⟨.mb 0, 1, none, true⟩ } }).slot 3
     x.owes = true ∧ x.park.left = false ∧ x.park.voted = false ∧ x.park.wait = none) ∧
    (let x := (State.reset.setSlot 3 { status := .running, pend := [(0x310, 7)] }).slot 3
     x.cpend = false ∧ x.owes = false ∧ x.pend = [(0x310, 7)]) ∧
    (State.reset.slot 3).cpend = false ∧ (State.reset.slot 3).pend = [] := by decide +kernel

/-- Tile 0 of context 3, with a drover entry, whose cores restart at cycle 0; pens 0 and 31 of core 0 have a message for muster 15. -/
def droving : State :=
  { State.reset with
    tiles := [(0, { owner := some 3 })], ctxs := [(3, some { state := .resident, record := { drover := 0x10002 } })],
    cores := [(0, { restart := some 0, pens := [(0, { msgs := [[5, 6, 7, 8], [9, 9, 9, 9]] }), (31, { msgs := [[1, 2, 3, 4]] })],
                    musters := [(15, { mask := 1 + 1#32 <<< 31, pc := 0x20002 })] })] }

theorem witness_DroverAndHandlersStart : (droving.core 0).restart = some 0 ∧ 0 ≤ droving.clock ∧ (droving.slot 7).status = .free ∧
    droving.droverEntry 0 ≠ 0 ∧ (droving.slot 6).status = .free ∧ (droving.tile (0 / 8)).owner = some 3 ∧
    droving.present 3 0 = true ∧ (droving.core 0).winner = some 15 ∧ 
    (let pens := (List.range 32).filter fun p => ((droving.core 0).muster 15).mask.getLsbD p
     pens = [0, 31] ∧ pens.length ≤ 4) ∧ ((droving.core 0).pen 0).msgs = [5, 6, 7, 8] :: [[9, 9, 9, 9]] ∧
    ((droving.core 0).pen 31).msgs = [1, 2, 3, 4] :: [] := by decide +kernel

/-- R221 and R222 of spec/13: the handler has pen 0's message in g16 to g19 and pen 31's in g20 to g23. -/
theorem test_muster_of_two_pens : ends (exec (.musterArbitration 0) droving) (fun t => (t.slot 6).reg 16 == 5 && (t.slot 6).reg 19 == 8 &&
    (t.slot 6).reg 20 == 1 && (t.slot 6).reg 23 == 4 && ((t.core 0).pen 0).msgs.length == 1 && ((t.core 0).pen 31).msgs == []) = true := by
  decide +kernel

def sent (w : Wait) : Park :=
  { insn := some (.unlisted (.psend Guard.always 4 (r 5) none)), vals := some [2, 11, 12, 13, 14], wait := some w }

/-- Slot 8 of core 1 whose send to pen 2 of core 0 has left; the pen empty, or full with FAULT; and one to try again. -/
def sending (p : Pen) (w : Wait) : State :=
  { State.reset with
    tiles := [(0, { owner := some 0 })], cores := [(0, { pens := [(2, p)] })],
    slots := [(8, { status := .parked, trap := { tvec := 0x20002 }, park := sent w })] }

theorem witness_PenMessagesArrive :
    (let s := sending {} .penAnswer; let x := s.slot 8
     x.status = .parked ∧ x.park.behind = false ∧ x.park.wait = some .penAnswer ∧ x.park.insn = some (.unlisted (.psend Guard.always 4 (r 5) none)) ∧
     x.park.vals = some [2, 11, 12, 13, 14] ∧ x.park.took = none ∧ x.park.once = false ∧ x.haltReq = false ∧
     (penAddrOf (2 : Word).toNat).pkg = s.pkg.toNat ∧ s.present (s.asidOf 8) (penAddrOf (2 : Word).toNat).core = true ∧
     ((s.core 0).pen 2).msgs.length < 4) ∧
    (let s := sending { msgs := [[1], [2], [3], [4]], fault := true } .penAnswer
     ((s.core 0).pen 2).msgs.length = 4 ∧ ((s.core 0).pen 2).fault = true ∧ (s.slot 8).sup.sinh = false ∧
     Stmt.toContext (s.slot 8) 0x281) ∧
    (let s := sending {} (.penRetry 0 256)
     (s.slot 8).park.wait = some (.penRetry 0 256) ∧ (s.slot 8).park.vals = some (2 :: [11, 12, 13, 14]) ∧ (0 : Word) ≤ s.clock) ∧
    ((sending {} (.penRetry 1 256)).clock < 1) ∧ ((sending {} (.penRetry 0 256)).slot 8).cpend = false ∧
    (let s := (sending {} (.penRetry 0 256)).onSlot 8 fun x => { x with cpend := true }
     (s.slot 8).cpend = true ∧ (s.slot 8).inHandler = false ∧ ends (exec (.psendRetry 8) s) (· == s) = true) := by unfold Stmt.toContext; decide +kernel

/-- Lane 7 of core 0 in an ASTEP, having accepted; and a lane parked for the first page of core 0's TCM. -/
def loftTag : Nat := 2 ^ 50 + 0xFFFFFF0000000000 / 2 ^ 14
def laning : State :=
  { State.reset with
    slots := [(0, { status := .running, tid := 5 })],
    cores := [(0, { lanes := [(0, { mode := .parked loftTag }), (7, { mode := .running, status := 2, work := some ⟨.step 4 1 128, 5, 31, false⟩ })],
                    batches := [⟨5, 31, 128, 2 ^ 7, 0, []⟩] })] }

theorem witness_LanesStopAndRunAgain : (laning.lane 7).mode = .running ∧ (laning.lane 7).work = some ⟨.step 4 1 128, 5, 31, false⟩ ∧
    (laning.lane 7).status = 2 ∧ (laning.core 0).batches = [⟨5, 31, 128, 2 ^ 7, 0, []⟩] ∧ (laning.slot 0).tid = 5 ∧
    (laning.slot 0).status ≠ .free ∧ (laning.lane 0).mode = .parked loftTag ∧
    (laning.tile 0).loft.any (·.tag == loftTag) = false ∧ isOk (laning.fillPage (.loft 0 loftTag) 0 loftTag) = true := by decide +kernel

/-- A diagram space of two variables with one operation at the head of its queue. -/
def spaceWith (op : DdOp) : Space :=
  ⟨1024, 2, [], [], [⟨op, 5, 0, some 31, false, false⟩], none, .busy, false, 0, 0, 0⟩
def diagram (op : DdOp) : State :=
  { State.reset with slots := [(0, { status := .running, tid := 5 })], ctxs := [(3, some { spaces := [(0, some (spaceWith op))] })] }

theorem witness_DiagramOperationsAnswer : (diagram (.varGet 1)).space 0 3 = some (spaceWith (.varGet 1)) ∧
    (spaceWith (.varGet 1)).mode = .busy ∧ (spaceWith (.varGet 1)).susp = none ∧ ((diagram (.varGet 1)).slot 0).tid = 5 ∧
    ((diagram (.varGet 1)).slot 0).status ≠ .free ∧ (spaceWith (.varGet 1)).queue = ⟨.varGet 1, 5, 0, some 31, false, false⟩ :: [] ∧
    1 < (spaceWith (.varGet 1)).nvar ∧ (spaceWith (.varGet 2)).nvar ≤ 2 ∧
    (spaceWith (.varGet 1)).inHbm = true ∧ ((1023, ⟨0xFFFF, 0xFFFF, 0xFFFFFFFF, 0xFFFFFFFF⟩) : Nat × Node) ∉ (spaceWith (.varGet 1)).nodes ∧
    (diagram (.refGet 1)).space 0 3 = some (spaceWith (.refGet 1)) ∧ (spaceWith (.refGet 1)).badEdge [1] = none := by decide +kernel

/-- A queued group of context 3, old enough; with its tile reserved long ago; and a graph with a copy node. -/
def aged (res : Option (Nat × Word)) (clock : Word) : State :=
  { State.reset with
    clock := clock, tiles := [(1, { owner := some 3 })], slots := [(64, { status := .running })],
    ctxs := [(3, some { state := .resident, record := { placeAge := 1 },
                        units := [(0, { level := 0, parent := 0, born := 0, kernel := { cpg := 8, spc := 6 } })] })],
    groups := [(7, some { asid := 3, launch := 0, index := 0, die := 0, cls := 0, entry := 0, reserve := res })] }
def copyRec : CopyRec := .read (0x10100 + 0x10200 * 2 ^ 64 + 8 * 2 ^ 128)
def aGraph : WorkUnit :=
  { level := 1, parent := 0, born := 0, state := .active,
    nodes := [⟨.copy, 0x10000, [65535, 65535, 65535, 65535], 0, 0, 0, 0, none, .running, some copyRec⟩] }
def copyGraph : State :=
  { State.reset with
    tlb := [{ page with asid := 3 }], mem := memWrite [] 0x10000 (leBytes (0x10100 + 0x10200 * 2 ^ 64 + 8 * 2 ^ 128) 32),
    ctxs := [(3, some { units := [(5, aGraph)] })] }

theorem witness_GroupsAgeAndCopiesEnd : (aged none 1800).ageDue 7 = true ∧ (aged none 1799).ageDue 7 = false ∧
    (aged (some (1, 0)) 1800).expiryDue 7 = true ∧ (aged (some (1, 0)) 1799).expiryDue 7 = false ∧
    (match (aged (some (1, 0)) 1800).group 7 with
      | some x => x.reserve == some (1, 0) && (((aged (some (1, 0)) 1800).onGroup 7 fun y => { y with stalled := true }).enough 7 x 1
          ((((aged (some (1, 0)) 1800).onGroup 7 fun y => { y with stalled := true }).lowerOn 1 x.cls).map (·.1))).isNone
      | none => false) = true ∧
    (match copyGraph.nodeOf 3 5 0 with
      | some x => x.kind == .copy && x.state == .running && x.copy == some copyRec &&
        (copyGraph.copyNode ⟨copyGraph.copyDie ⟨0, 3, 5, 0⟩ copyRec, 3, 5, 0⟩ x.body copyRec).2 == none && x.succ.all (· != 0)
      | none => false) = true ∧ copyGraph.writesHeld = false := by decide +kernel

/-- A time-sliced context 3 on tile 0 in each state of the statement. -/
def sliced (st : CState) (slice : Nat) (own : Bool) : State :=
  { State.reset with
    clock := 1800, tiles := if own then [(0, { owner := some 3 })] else [],
    ctxs := [(3, some { state := st, record := { tiles := 1, slice := slice } })] }

/-- Context 3 of a tile group halting on tile 0, and context 5 of the group that waits its turn. -/
def shared : State :=
  { State.reset with
    tiles := [(0, { owner := some 3 })],
    ctxs := [(3, some { state := .halting, record := { tiles := 1, slice := 1 } }), (5, some { record := { tiles := 1, slice := 2 } })] }

theorem witness_ContextsAreSliced_group : shared.ctx 3 = some { state := .halting, record := { tiles := 1, slice := 1 } } ∧
    shared.allHalted { state := .halting, record := { tiles := 1, slice := 1 } } = true ∧
    shared.outOfTurn { state := .halting, record := { tiles := 1, slice := 1 } } ++
      turnOrder 3 (shared.groupOf { state := .halting, record := { tiles := 1, slice := 1 } }) = 5 :: [] ∧
    shared.ctx 5 = some { record := { tiles := 1, slice := 2 } } ∧ ({} : Ctx).state = .idle ∧
    ((sliced .swappingIn 1 false).landTiles 3 { state := .swappingIn, record := { tiles := 1, slice := 1 } }).refillWaits
      { state := .swappingIn, record := { tiles := 1, slice := 1 } } = [] ∧
    shared.ctxs.Pairwise (fun x y => x.1 < y.1) ∧
    (∀ e ∈ shared.groupOf { state := .halting, record := { tiles := 1, slice := 1 } }, e.1 ≠ 3 → e.2.active = false) := by
  decide +kernel

/-- R300 of spec/19: at the end of the halt context 5 is swapped in and tile 0 stands in the image of context 3. -/
theorem test_next_of_group : ends (exec (.haltComplete 3) shared) (fun t => (t.tile 0).owner == none &&
    ((t.ctx 5).map (·.state)) == some .swappingIn && ((t.ctx 3).map (·.state)) == some .swappingOut) = true := by decide +kernel

theorem witness_ContextsAreSliced :
    (sliced .resident 1 true).ctx 3 = some { state := .resident, record := { tiles := 1, slice := 1 } } ∧ 1 * 1800 ≤ 0 + (1800 - 0) ∧
    (sliced .halting 0 true).allHalted { state := .halting, record := { tiles := 1 } } = true ∧
    (sliced .swappingIn 1 false).ctx 3 = some { state := .swappingIn, record := { tiles := 1, slice := 1 } } ∧
    ((sliced .halting 0 true).groups = []) ∧
    (let s := (sliced .swappingIn 1 false).onCtx 3 fun c => { c with haltAfter := true }
     s.ctx 3 = some { state := .swappingIn, record := { tiles := 1, slice := 1 }, haltAfter := true }) ∧
    (∀ k, k < 96 → (1#96).getLsbD k = true → ((sliced .swappingIn 1 false).tile k).owner = none) ∧
    (sliced .swappingOut 1 false).ctx 3 = some { state := .swappingOut, record := { tiles := 1, slice := 1 } } := by decide +kernel

/-- Queue 3 of context 3 with a ring of 4 and one record, a NOP (64 zero bytes). -/
def queueing (st : QState) (qwp : BitVec 32) : State :=
  { State.reset with queues := [(3, { state := st, asid := 3, qbase := 0x1000, qsize := 4, qwp := qwp })], ctxs := [(3, some {})] }

theorem witness_QueuesTakeRecords : ({ queueing .active 1 with freeze := .on false 1 } : State).freeze ≠ .off ∧
    (queueing .active 1).freeze = .off ∧ (queueing .active 1).hostFail = none ∧ ((queueing .active 1).queue 3).state = .active ∧
    ((4 : BitVec 32) - ((queueing .active 1).queue 3).qrp).toNat ≤ ((queueing .active 1).queue 3).qsize ∧
    ((queueing .active 1).queue 3).qsize < ((5 : BitVec 32) - ((queueing .active 1).queue 3).qrp).toNat ∧
    ((queueing .error 1).queue 3).state = .error ∧ ((queueing .waiting 1).queue 3).state = .waiting ∧ (queueing .waiting 1).freeze = .off ∧
    ({ queueing .active 1 with badData := [(Config.hostBase + 0x1000) / 64] } : State).badIn (Config.hostBase + 0x1000) 64 ≠ none ∧ ((queueing .active 1).queue 3).qrp ≠ ((queueing .active 1).queue 3).qwp ∧
    ((queueing .active 1).ctx ((queueing .active 1).queue 3).asid).isSome = true ∧
    (queueing .active 1).recordBusy ((queueing .active 1).journalOf 3) (((queueing .active 1).jheadOf 3).toNat + 1) = false ∧
    (queueing .active 1).badIn (Config.hostBase + 0x1000) 64 = none ∧
    commandOf 3 1 (BitVec.ofNat 512 (leNat (memRead (queueing .active 1).mem (Config.hostBase + 0x1000) 64))) =
      some (.queueNop 3 1 0) ∧
    (let s := { queueing .active 1 with ctxs := [(3, some { jhead := 16384 })] }
     s.recordBusy (s.journalOf 3) ((s.jheadOf 3).toNat + 1) = false) ∧
    (let s := { queueing .active 1 with ctxs := [(3, some { jhead := 16384 })], mem := memWrite [] 40 (leBytes 1 8) }
     s.recordBusy (s.journalOf 3) ((s.jheadOf 3).toNat + 1) = true) := by decide +kernel

/-- R315 of spec/20: a Waiting queue whose record is busy and whose ring cannot be read goes to Error. -/
theorem test_ring_before_journal :
    let s := { queueing .waiting 1 with
      ctxs := [(3, some { jhead := 16384 })], mem := memWrite [] 40 (leBytes 1 8), badData := [(Config.hostBase + 0x1000) / 64] }
    s.recordBusy (s.journalOf 3) ((s.jheadOf 3).toNat + 1) = true ∧
    ends (exec (.queueRecordAccept 3) s) (fun t => (t.queue 3).state == .error) = true := by decide +kernel

/-- A context record at 0x1000 for ASID 5, one tile and one way; an Idle context 5; a BIND of queue 3 to it. -/
def createRec : Nat := 5 * 2 ^ 84 + 2 ^ 144 + 2 ^ 160
def createCmd : BitVec 512 := 1 + BitVec.ofNat 512 (0x1000 * 2 ^ 192)
def creating : State := { State.reset with mem := memWrite [] 0x1000 (leBytes createRec 64) }
def bindArgs : Nat := 3 + 5 * 2 ^ 16 + 6 * 2 ^ 32 + 16 * 2 ^ 40

/-- A record of a queue's command accepted in its journal. -/
def recorded (q n : Nat) (c : BitVec 512) (s : State) : State :=
  { s with mem := memWrite s.mem (recordAt (s.journalOf q) n) (leBytes (journalRecord q n 0 c) 64) }
def bound0 (s : State) : State := { s with queues := (0, { state := .active }) :: s.queues }
def bindCmd : BitVec 512 := 3 + BitVec.ofNat 512 (bindArgs * 2 ^ 256)

theorem witness_CommandsPending : creating.pending 0 1 createCmd = false ∧
    (recorded 0 1 createCmd (bound0 creating)).pending 0 1 createCmd = true ∧
    isOk ((recorded 0 1 createCmd (bound0 creating)).supRead (cmdAddr createCmd) 64) = true ∧
    (recorded 0 16384 (2 + BitVec.ofNat 512 (5 * 2 ^ 256)) (bound0 State.reset)).pending 0 16384 (2 + BitVec.ofNat 512 (5 * 2 ^ 256)) = true ∧
    (recorded 0 1 bindCmd (bound0 { State.reset with ctxs := [(5, some {})] })).pending 0 1 bindCmd = true ∧
    ((recorded 0 1 bindCmd (bound0 { State.reset with ctxs := [(5, some {})] })).queue 3).state = .unbound ∧
    (recorded 3 1 0 (queueing .active 1)).pending 3 1 0 = true := by decide +kernel

theorem witness_ContextCommands : cmdReserved createCmd = false ∧ cmdAddr createCmd % 64 = 0 ∧
    isOk (creating.supRead (cmdAddr createCmd) 64) = true ∧
    (match creating.supRead (cmdAddr createCmd) 64 with
      | .ok v => bitsAt v 84 12 == 5 && (match creating.readSpaces (ctxRecOf v) with
        | .ok ds => !creating.createBad 5 v (ctxRecOf v) ds | .error _ => false)
      | .error _ => false) = true ∧
    ({ State.reset with ctxs := [(5, some {})] } : State).ctx (bitsAt (cmdArgs (BitVec.ofNat 512 (5 * 2 ^ 256))) 0 12) = some {} ∧
    ({} : Ctx).state = .idle ∧ ({ State.reset with ctxs := [(5, some {})] } : State).writesHeld = false ∧
    ({ State.reset with ctxs := [(5, some { state := .tearingDown })] } : State).ctx 5 = some { state := .tearingDown } ∧
    ({ State.reset with ctxs := [(5, some {})] } : State).liveCtx (bitsAt bindArgs 16 12) = some {} ∧
    bindBad (cmdArgs (BitVec.ofNat 512 (bindArgs * 2 ^ 256))) = false ∧
    (({ State.reset with ctxs := [(5, some {})] } : State).queue (bitsAt bindArgs 0 10)).state = .unbound := by decide +kernel

/-- Context 3 of queue 3 with a job, and one with a phase under it, and a table of one host-event node at 0x10000. -/
def jobHandle : Nat := 3 * 2 ^ 30 + 1
def phaseHandle : Nat := 2 * 2 ^ 30 + 1
def aJob (kids : List Nat) : WorkUnit :=
  { level := 3, parent := 0, born := 0, state := .active, kids := kids, total := kids.length }
def aPhase : WorkUnit := { level := 2, parent := jobHandle, born := 1 }
def working (us : List (Nat × WorkUnit)) : State :=
  { State.reset with
    queues := [(3, { state := .active, asid := 3, qsize := 4 })], tlb := [{ page with asid := 3 }],
    mem := memWrite [] 0x10000 (leBytes (2 + (2 ^ 64 - 1) * 2 ^ 128) 32), ctxs := [(3, some { units := us, nextNum := [1, 1, 2, 2] })] }
def cmdOn (h args addr : Nat) : BitVec 512 := BitVec.ofNat 512 (h * 2 ^ 128 + addr * 2 ^ 192 + args * 2 ^ 256)

theorem witness_WorkCommands_pending : (working []).pending 3 1 (4 + cmdOn 0 77 0) = false ∧
    (recorded 3 1 (4 + cmdOn 0 77 0) (working [])).pending 3 1 (4 + cmdOn 0 77 0) = true ∧
    (recorded 3 1 (6 + cmdOn phaseHandle 1 0x10000) (working [])).pending 3 1 (6 + cmdOn phaseHandle 1 0x10000) = true ∧
    (match (recorded 3 1 (6 + cmdOn phaseHandle 1 0x10000) (working [(phaseHandle, aPhase), (jobHandle, aJob [phaseHandle])])).readGraph
        ⟨0, 3, 2 ^ 32 + 3, 0⟩ { units := [(phaseHandle, aPhase), (jobHandle, aJob [phaseHandle])], nextNum := [1, 1, 2, 2] } 0x10000 1 with
      | .ok (ns, _) => ns.all (·.2.isNone) && ns.length == 1 | .error _ => false) = true := by decide +kernel

/-- R311 of spec/20: a GRAPH whose table no translation covers is kept by its queue, which reads no later record. -/
def waitingGraph : State :=
  { recorded 3 1 (6 + cmdOn phaseHandle 1 0x90000) (working [(phaseHandle, aPhase), (jobHandle, aJob [phaseHandle])]) with
    queues := [(3, { state := .active, asid := 3, qsize := 4, qwp := 1 })] }
theorem witness_WorkCommands_wait : waitingGraph.pending 3 1 (6 + cmdOn phaseHandle 1 0x90000) = true ∧
    (waitingGraph.queue 3).carry = none ∧ waitingGraph.reads 3 = true ∧
    (match waitingGraph.readGraph ⟨0, 3, 2 ^ 32 + 3, 0⟩
        { units := [(phaseHandle, aPhase), (jobHandle, aJob [phaseHandle])], nextNum := [1, 1, 2, 2] } 0x90000 1 with
      | .ok _ => false | .error e => e == (walkWait, 0x90000)) = true ∧
    ends (exec (.graph 3 1 (6 + cmdOn phaseHandle 1 0x90000)) waitingGraph)
      (fun t => (t.queue 3).carry.isSome && !t.reads 3 && t.walks.length == 1) = true := by decide +kernel

theorem witness_WorkCommands : cmdReserved (cmdOn jobHandle 0 0) = false ∧ ((working []).queue 3).asid = 3 ∧
    (working []).ctx 3 = some { nextNum := [1, 1, 2, 2] } ∧ (∀ l, l < 4 → ({ nextNum := [1, 1, 2, 2] } : Ctx).spent l 1 = false) ∧
    cmdArgs (cmdOn jobHandle 77 0) < 2 ^ 64 ∧ (working [(jobHandle, aJob [])]).unit 3 (cmdHandle (cmdOn jobHandle 0 0)) = some (aJob []) ∧
    (working [(jobHandle, aJob [])]).handlerRuns 3 3 jobHandle = false ∧ 2 * 2 ^ 30 + 2 ≠ jobHandle ∧ (aJob []).count + (aJob []).pruned = (aJob []).total ∧ (aJob []).journal = none ∧
    jobHandle < 2 ^ 32 ∧ jobHandle % 2 ^ 30 ≠ 0 ∧ jobHandle % 2 ^ 30 < 2 ∧
    (let s := working [(phaseHandle, aPhase), (jobHandle, aJob [phaseHandle])]
     s.unit 3 phaseHandle = some aPhase ∧ s.unit 3 aPhase.parent = some (aJob [phaseHandle]) ∧
     (aJob [phaseHandle]).kids.getLast? = some phaseHandle ∧ 1 ≤ bitsAt (cmdArgs (cmdOn phaseHandle 1 0x10000)) 0 11 ∧
     bitsAt (cmdArgs (cmdOn phaseHandle 1024 0)) 0 11 ≤ 1024 ∧
     (match s.readGraph ⟨0, 3, 2 ^ 32 + 3, 0⟩ { units := [(phaseHandle, aPhase), (jobHandle, aJob [phaseHandle])], nextNum := [1, 1, 2, 2] } 0x10000 1 with
      | .ok (ns, _) => ns.all (·.2.isNone) && ns.length == 1 | .error _ => false) = true) := by decide +kernel

def asked (h : Home) : Park :=
  { wait := some (.answer 0x40 h), left := true, dead := h == .remote, trans := [⟨0, 0, 65536, BitVec.ofNat 64 (3 * 2 ^ 9 + 9 * 2 ^ 58 + 7)⟩] }

/-- A thread whose host request has been out for 16 ms, and one whose request went to a package that no port reaches. -/
def waitingOn (h : Home) (clock : Word) : State :=
  { State.reset with
    clock := clock, slots := [(9, { status := .parked, tid := 5, trap := { tvec := 0x20002 }, park := asked h })] }

theorem witness_HostLinkActs : ({ State.reset with freeze := .on true 2 } : State).freeze ≠ .off ∧
    (State.reset.queue 0).state = .unbound ∧ (({ State.reset with queues := [(0, { state := .active })] } : State).queue 0).state ≠ .unbound ∧
    (0 * 2 ^ 30 + (2 ^ 30 - 512) + 512 ≤ 768 * 2 ^ 30 ∧ (2 ^ 30 - 512) + 512 ≤ 2 ^ 30) ∧
    State.reset.badIn (2 ^ 30 - 512) 512 = none ∧
    (let s := waitingOn .host 28800000
     (s.findTid 5).map (·.tid) = some 5 ∧ s.findTid 5 = some (s.slot 9) ∧ s.slotOfTid 5 = some 9 ∧ (s.slot 9).park.answered = false ∧
     (s.slot 9).park.once = false ∧ (s.slot 9).sup.sinh = false ∧ Stmt.toContext (s.slot 9) 0x10C ∧
     (s.slot 9).park.wait = some (.answer 0x40 .host) ∧ 28800000 ≤ s.clock.toNat - (s.slot 9).park.since.toNat) ∧
    (let s := waitingOn .remote 0
     (s.slot 9).park.wait = some (.answer 0x40 .remote) ∧ (s.slot 9).park.dead = true) ∧
    (let s : State := { waitingOn .remote 0 with ports := [(3, { state := .retrain })],
                                                 slots := [(9, { status := .parked, tid := 5, trap := { tvec := 0x20002 },
                                                                 park := { asked .remote with dead := false, ports := [3] } })] }
     (s.slot 9).park.behind = false ∧ (∃ q ∈ (s.slot 9).park.ports, (s.port q).state = .retrain) ∧
       ∃ l ∈ (s.slot 9).park.trans, l.loc = 3 ∧ s.reachable l.rpkg = false) ∧
    ({ State.reset with ctxs := [(3, some { spaces := [(0, some { spaceWith (.varGet 1) with tbase := 4096 })] })] } : State).allSpaces.all
      (fun x => x.tbase + 16 * x.cap ≤ 2 ^ 30 - 512 || 2 ^ 30 - 512 + 512 ≤ x.tbase) = true := by
  unfold Stmt.toContext; decide +kernel

/-- R327 and R328 of spec/22: the host writes 16 bytes of HBM in one access of BAR2. -/
theorem test_wide_aperture : ends (exec (.hostApertureAccess true 64 16 (BitVec.ofNat 4096 (2 ^ 127 + 5))) State.reset)
    (fun t => leNat (memRead t.mem 64 16) == 2 ^ 127 + 5) = true := by decide +kernel

theorem bytes_zero (n : Nat) : leBytes 0 n = List.replicate n 0 := by
  induction n with
  | zero => rfl
  | succ n ih => simp only [leBytes, Nat.zero_div, ih, List.replicate_succ]; rfl

theorem bytes_beyond (n k : Nat) : leBytes (2 ^ (8 * (n + k))) n = List.replicate n 0 := by
  induction n with
  | zero => rfl
  | succ n ih =>
    have h : 2 ^ (8 * (n + 1 + k)) = 2 ^ (8 * (n + k)) * 256 := by
      rw [show 8 * (n + 1 + k) = 8 * (n + k) + 8 by omega, Nat.pow_add]
    have h0 : BitVec.ofNat 8 (2 ^ (8 * (n + k)) * 256) = 0 := by apply BitVec.eq_of_toNat_eq; simp
    rw [leBytes, h, h0, Nat.mul_div_cancel _ (by decide), ih, List.replicate_succ]

theorem crc_zeros (n : Nat) : crcFold 0 (List.replicate n 0) = 0 := by
  induction n with
  | zero => rfl
  | succ n ih =>
    have h : crcByte 0 0 = 0 := by decide +kernel
    rw [crcFold, List.replicate_succ, List.foldl_cons, h]; exact ih

theorem flit_zero : flitCrcOk 0 = true := by
  unfold flitCrcOk flitCrc
  have h : (0 : BitVec 2048).toNat = 0 := BitVec.toNat_zero ..
  unfold flitField bitsAt
  rw [h, bytes_zero, crc_zeros, Nat.zero_div, Nat.zero_mod]; rfl

/-- The flit whose only bit is the lowest of its CRC field. -/
def badFlit : BitVec 2048 := BitVec.twoPow 2048 1984

theorem flit_bad : flitCrcOk badFlit = false := by
  unfold flitCrcOk flitCrc
  have h : badFlit.toNat = 2 ^ (8 * (248 + 0)) := by
    rw [badFlit, BitVec.toNat_twoPow, Nat.mod_eq_of_lt (Nat.pow_lt_pow_right (by decide) (by decide))]
  unfold flitField bitsAt
  rw [h, bytes_beyond, crc_zeros]; decide +kernel

/-- Port 11 in each state; a flit of zeros, whose CRC is 0, and one with a wrong CRC. -/
def portIn (st : PState) : State := { State.reset with ports := [(11, { state := st })] }

/-- One flit waits for its ACK since cycle 0, and slot 9's request left by the port. -/
def unacked : State :=
  { State.reset with
    clock := 65536, ports := [(11, { state := .up, txSeq := 1, sent := [(0, .ack 7)] })],
    slots := [(9, { status := .parked, park := { ports := [11] } })] }

/-- A paused VL 0 of port 3 whose time has come, and thread 5 in slot 9 whose request waits behind it; a write and a RUPD of slot
0 behind a pause of VL 0. -/
def paused : State :=
  { State.reset with
    ports := [(3, { state := .up, pause := [(0, 0)], waiting := [.request 5 (.read 0 8)] })],
    slots := [(9, { status := .parked, tid := 5, park := { wait := some (.answer 0 .remote), ports := [3], behind := true } })] }
def updating : State :=
  { one [] with mem := [(0, 41)], ports := [(3, { state := .up, waiting := [.write [0] 0x40 (.update .add 0 4 1) none false] })] }

theorem witness_PortStates_pause : Stmt.nothingDue paused ∧
    Table.val paused.clock 0 (paused.port 3).pause ≤ paused.clock ∧
    (paused.port 3).waiting = [.request 5 (.read 0 8)] ∧ (paused.slot 9).tid = 5 ∧ (paused.slot 9).status ≠ .free ∧
    paused.ports.Pairwise (fun a b => a.1 < b.1) ∧ (∀ e ∈ paused.ports, e.1 ≠ 3 → e.2.waiting = []) ∧
    (holding.port 3).waiting = [.write [0] 0x40 (.write 0 [1]) none false] ∧
    (updating.port 3).waiting = [.write [0] 0x40 (.update .add 0 4 1) none false] ∧
    ends (exec (.pauseExpires 3 0) paused) (fun t => !(t.slot 9).park.behind) = true ∧
    ends (exec (.pauseExpires 3 0) holding) (fun t => leNat (memRead t.mem 0 1) == 1 && (t.port 3).waiting == []) = true ∧
    ends (exec (.pauseExpires 3 0) updating) (fun t => leNat (memRead t.mem 0 4) == 42) = true := by
  refine ⟨⟨rfl, by decide, fun e h => by cases h⟩, ?_⟩; decide +kernel

theorem witness_PortStates_quiet : Stmt.quietPorts unacked ∧ Stmt.quietPorts (portIn .retrain) :=
  ⟨⟨by decide +kernel, rfl, by decide, fun e h => by cases h⟩, by decide +kernel, rfl, by decide, fun e h => by cases h⟩

theorem witness_PortStates_waiting : (unacked.port 11).sent ≠ [] ∧ 65536 ≤ unacked.clock.toNat - (unacked.port 11).ackAt.toNat ∧
    (unacked.slot 9).park.ports.contains 11 = true ∧ (unacked.slot 9).park.answered = false ∧
    ((0 : BitVec 32) - ((unacked.port 11).sent.map (·.1)).headD 1).toNat < 2 ^ 31 ∧
    (Table.val [] 2 ({ buf := [(2, List.replicate 64 0)] } : Port).buf).length = 64 ∧
    ((1 : BitVec 32) - BitVec.ofNat 32 0).toNat < 2 ^ 31 := by decide +kernel

theorem witness_PortStates : ((portIn .down).port 11).state = .down ∧ ((portIn .training).port 11).state = .training ∧
    ((portIn .retrain).port 11).state = .retrain ∧ ((portIn .up).port 11).state = .up ∧
    flitCrcOk badFlit = false ∧ flitCrcOk 0 = true ∧ flitField 0 10 2 ≠ 3 ∧
    BitVec.ofNat 32 (flitField 0 32 32) = ((portIn .up).port 11).rxSeq ∧
    Table.val (portIn .up).clock 3 ((portIn .up).port 11).pause ≤ (portIn .up).clock :=
  ⟨by decide, by decide, by decide, by decide, flit_bad, flit_zero, by
    simp [flitField, bitsAt], by simp [flitField, bitsAt]; decide, by decide⟩

/-- Frozen, with the test port on a slot, on the last word of HBM, and beyond it. -/
def testing (sel : Word) : State := { State.reset with freeze := .on true 2, tap := { sel := sel } }

/-- R350 of spec/23: FRZ takes the Margon ports Down, and a remote request on its way can get no answer. -/
theorem test_freeze_takes_ports_down :
    ends (exec (.frz true) { unacked with ports := [(11, { state := .up })] })
      (fun t => (t.port 11).state == .down && (t.slot 9).park.dead && t.freeze == .on true 2) = true := by decide +kernel

theorem witness_FreezeAndTestPort : State.reset.freeze = .off ∧ (testing 6143).freeze = .on true 2 ∧
    (testing 6143).tap.sel = BitVec.ofNat 64 6143 ∧ (testing 6143).tap.index = 0 ∧
    (testing (BitVec.ofNat 64 (2 ^ 60 + (768 * 2 ^ 30 - 8)))).tap.sel = BitVec.ofNat 64 (2 ^ 60 + (768 * 2 ^ 30 - 8)) ∧
    (768 * 2 ^ 30 - 8) + 8 ≤ 768 * 2 ^ 30 ∧ 768 * 2 ^ 30 < 768 * 2 ^ 30 + 8 ∧ (768 * 2 ^ 30) % 8 = 0 ∧ 768 * 2 ^ 30 < 2 ^ 60 := by
  decide +kernel

end Sys2Proof.Tests
end

section
/-! SUPPORT. What the operations of the crook, of the journal and of the work hierarchy leave of memory: each keeps its
canonical form (log 6). -/

namespace Sys2Proof.Machine

open Sys2Proof

theorem State.ite_memWf {c : Prop} [Decidable c] {s t : State} (hs : s.memWf) (ht : t.memWf) : (if c then s else t).memWf := by
  split
  · exact hs
  · exact ht

section

variable {s : State} (h : s.memWf)

include h

/-! ## Translation and memory -/

theorem State.pick_memWf (n : Nat) : (s.pick n).2.memWf := State.memWf_of_mem h (s.pick_mem n)

theorem State.miss_memWf (who : Asker) (die asid : Nat) (root va : Word) : (s.miss who die asid root va).memWf := by
  unfold State.miss
  split
  · exact h
  · exact h

theorem State.engineMiss_memWf (e : Eng) (core asid : Nat) (va : Word) : (s.engineMiss e core asid va).memWf :=
  miss_memWf (s := s.forget (.engine e)) h ..

theorem State.onCtx_memWf (a : Nat) (f : Ctx → Ctx) : (s.onCtx a f).memWf := State.memWf_of_mem h (s.onCtx_mem a f)

theorem State.onGroup_memWf (g : Nat) (f : Group → Group) : (s.onGroup g f).memWf := State.memWf_of_mem h (s.onGroup_mem g f)

theorem State.onUnit_memWf (asid u : Nat) (f : WorkUnit → WorkUnit) : (s.onUnit asid u f).memWf := onCtx_memWf h ..

theorem State.onNode_memWf (asid u n : Nat) (f : GNode → GNode) : (s.onNode asid u n f).memWf := onUnit_memWf h ..

theorem State.setFe_memWf (pa : Nat) (full : Bool) : (s.setFe pa full).memWf := State.memWf_of_mem h (s.setFe_mem pa full)

theorem State.overtake_memWf (p : Piece) : (s.overtake p).memWf := State.memWf_of_mem h (s.overtake_mem p)

theorem State.writeBack_memWf (line : Nat) : (s.writeBack line).memWf := by
  unfold State.writeBack
  split
  · exact h
  · exact h

theorem State.putNodes_memWf (old new : Space) : (s.putNodes old new).memWf := by
  unfold State.putNodes
  split
  · exact h
  · exact foldl_keeps State.memWf _ (fun _ _ h => State.store_memWf _ _ _ h) _
      (foldl_keeps State.memWf _ (fun _ _ h => State.store_memWf _ _ _ h) _ h)

theorem State.setSpace_memWf (die asid : Nat) (x : Space) : (s.setSpace die asid x).memWf := by
  unfold State.setSpace
  refine onCtx_memWf ?_ ..
  split
  · exact putNodes_memWf h ..
  · exact h

/-! ## Links -/

theorem State.ask_memWf (r : Config.Request) : (s.ask r).memWf := by
  unfold State.ask
  dsimp only
  split
  · exact h
  · exact h

theorem State.haveRead_memWf (ps : List Piece) : (s.haveRead ps).memWf :=
  foldl_keeps State.memWf _ (fun _ _ h => ask_memWf h _) _ (State.settle_memWf ps h)

theorem State.copyWrite_memWf (p : Piece) (bs : List Byte) : (s.copyWrite p bs).memWf := by
  unfold State.copyWrite
  split
  · exact State.write_memWf _ _ _ (overtake_memWf (ask_memWf (State.settle_memWf [p] h) _) p)
  · exact State.write_memWf _ _ _ h

theorem State.pump_memWf (p vl : Nat) : (s.pump p vl).memWf := by
  unfold State.pump
  split
  · exact h
  · exact foldl_keeps State.memWf _
      (fun _ o h => State.memWf_of_mem (State.depart_memWf p o h) (State.underWay_mem _ o)) _ h

/-! ## Waiting -/

theorem State.parkMiss_keeps (va : Word) : Keeps (s.parkMiss va) := park_keeps (s := s.slotMiss va) h _

theorem State.retry_keeps : Keeps s.retry := keeps_next h

theorem State.await_keeps (va : Word) {k : State → Out} (hk : Keeps (k s)) : Keeps (s.await va k) := by
  unfold State.await
  split
  · exact retry_keeps h
  · exact hk

theorem State.settleRead_memWf (ps : List Piece) : (s.settleRead ps).memWf :=
  State.ite_memWf h (State.settle_memWf ps h)

theorem State.storeBack_memWf (ps : List Piece) (bs : List Byte) : (s.storeBack ps bs).memWf :=
  State.ite_memWf h (State.storePieces_memWf ps bs h)

theorem State.onUs_memWf (f : Slot → Slot) : (s.onUs f).memWf := State.memWf_of_mem h (s.onUs_mem f)

theorem State.setPredDone_keeps (p : Fin 16) (b : Bool) : Keeps (s.setPredDone p b) := keeps_next (onUs_memWf h _)

/-! ## The crook -/

theorem State.grant_memWf (t : Nat) : (s.grant t).memWf := by
  unfold State.grant
  dsimp only
  split
  · exact h
  · split
    · exact h
    · exact State.ite_memWf h h

theorem State.passCrook_memWf (t : Nat) : (s.passCrook t).memWf := by
  unfold State.passCrook
  dsimp only
  split
  · exact grant_memWf h t
  · exact State.ite_memWf (grant_memWf (s := s.onCrook t _) h t) h

theorem State.leaveCrook_memWf (n : Nat) (l : Lease) : (s.leaveCrook n l).memWf :=
  State.ite_memWf (passCrook_memWf (s := State.onCrook (s.onSlot n _) _ _) h _) h

theorem State.leaseBound_memWf (t : Nat) : (s.leaseBound t).memWf := by
  unfold State.leaseBound
  split
  · exact h
  · exact State.ite_memWf h (State.ite_memWf (leaveCrook_memWf h ..) h)

theorem State.haltLease_memWf (n : Nat) : (s.haltLease n).memWf :=
  State.ite_memWf h (passCrook_memWf (s := State.onSlot (s.onCrook _ _) n _) h _)

theorem State.haltSlots_memWf (ns : List Nat) : (s.haltSlots ns).memWf :=
  foldl_keeps State.memWf _ (fun _ n h => haltLease_memWf h n) _
    (foldl_keeps State.memWf (fun s n => s.onSlot n Slot.halt) (fun _ _ h => h) _ h)

/-! ## Control words -/

theorem State.writeWord_memWf (num : Nat) (v : Word) : (s.writeWord num v).memWf := by
  unfold State.writeWord
  repeat' apply State.ite_memWf
  all_goals exact h

/-! ## The journal and the event rings -/

theorem State.journalTo_memWf (base n st cause : Nat) (result : Option Nat) : (s.journalTo base n st cause result).memWf := by
  have h1 := fun (a w : Nat) => State.store_memWf (s := s) a (leBytes w 8) {} h
  refine State.store_memWf (s := match result with | some r => _ | none => _) _ _ _ ?_
  split
  · exact State.store_memWf _ _ _ (h1 ..)
  · exact h1 ..

theorem State.journalResult_memWf (base n r : Nat) : (s.journalResult base n r).memWf := State.store_memWf _ _ _ h

theorem State.postEvent_memWf (asid kind handle data : Nat) : (s.postEvent asid kind handle data).memWf := by
  have hst := fun (a w : Nat) => State.store_memWf (s := s) a (leBytes w 64) {} h
  exact State.ite_memWf h (State.ite_memWf (hst ..) (hst ..))

end

end Sys2Proof.Machine
end

section
/-! SUPPORT. Placement and the work hierarchy keep the canonical form of memory (log 6). -/

namespace Sys2Proof.Machine

open Sys2Proof

/-! ## Placement -/

theorem State.choose_memWf {s : State} (h : s.memWf) (k : Nat) (l : List Nat) : (s.choose k l).2.memWf := by
  induction k generalizing s l with
  | zero => exact h
  | succ k ih =>
    unfold State.choose
    split
    · exact h
    · exact ih (pick_memWf h _) _

section

variable {s : State} (h : s.memWf)

include h

theorem State.startCore_memWf (g : Nat) (x : Group) (pos : Nat) (slots : List Nat) : (s.startCore g x pos slots).memWf := by
  unfold State.startCore
  exact foldl_keeps State.memWf _ (fun _ _ h => by exact h) _ h

theorem State.resumeCore_memWf (x : Group) (pos core : Nat) (slots : List Nat) : (s.resumeCore x pos core slots).memWf := by
  have hf := foldl_keeps State.memWf (fun (s : State) (e : Nat × Slot) => s.resumeIn e.1 e.2) (fun _ _ h => by exact h)
    (slots.zip ((x.saved.filter (·.1 == pos)).map (·.2))) h
  unfold State.resumeCore
  dsimp only
  split
  · exact hf
  · exact hf

theorem State.moveKept_memWf (t : Nat) (tids : List Nat) : (s.moveKept t tids).memWf :=
  State.ite_memWf h (grant_memWf (by exact h) t)

theorem State.formSets_memWf (g : Nat) : (s.formSets g).memWf := h

theorem State.placeKid_memWf (g : Nat) (x : Group) (e : Nat × Slot) : (s.placeKid g x e).memWf := by
  unfold State.placeKid
  dsimp only
  split
  · exact moveKept_memWf (by exact choose_memWf h ..) ..
  · exact h

theorem State.placeOn_memWf (g : Nat) (x : Group) (t : Nat) : (s.placeOn g x t).memWf := by
  unfold State.placeOn
  extract_lets k fresh cs s1 s2 s3 s4
  have hcs : cs.2.memWf := by
    unfold cs
    split
    · exact h
    · exact choose_memWf h ..
  have h1 : s1.memWf := foldl_keeps State.memWf _ (fun s e h =>
    State.ite_memWf (startCore_memWf (choose_memWf h ..) ..) (resumeCore_memWf (choose_memWf h ..) ..)) _ hcs
  have h2 : s2.memWf := onGroup_memWf h1 ..
  have h3 : s3.memWf := State.ite_memWf h2 h2
  have h4 : s4.memWf := formSets_memWf (moveKept_memWf h3 ..) g
  exact State.ite_memWf h4 (foldl_keeps State.memWf _ (fun _ e h => placeKid_memWf h g x e) _ h4)

theorem State.reserveFor_memWf (g : Nat) (x : Group) : (s.reserveFor g x).memWf := by
  unfold State.reserveFor
  refine State.ite_memWf h ?_
  dsimp only
  split
  · exact h
  · exact onGroup_memWf (by exact h) ..

theorem State.passOnce_memWf (die : Nat) : (s.passOnce die).memWf := by
  unfold State.passOnce
  refine foldl_keeps State.memWf _ (fun s e h => ?_) _ (foldl_keeps State.memWf _ (fun s e h => ?_) _ h)
  · split
    · exact reserveFor_memWf h ..
    · exact h
  · split
    · exact h
    · split
      · exact State.ite_memWf (placeOn_memWf h ..) h
      · exact State.ite_memWf h (placeOn_memWf (pick_memWf h _) ..)

omit h in
theorem State.passes_memWf {s : State} (h : s.memWf) (die n : Nat) : (s.passes die n).memWf := by
  induction n generalizing s with
  | zero => exact h
  | succ n ih => exact State.ite_memWf (passOnce_memWf h die) (ih (passOnce_memWf h die))

theorem State.diePass_memWf (die : Nat) : (s.diePass die).memWf := passes_memWf h ..

theorem State.placePass_memWf (die : Nat) : (s.placePass die).memWf :=
  foldl_keeps State.memWf _ (fun _ d h => State.ite_memWf (diePass_memWf h d) h) _ (diePass_memWf h die)

theorem State.enqueueGroups_memWf (asid number : Nat) (k : Kernel) : (s.enqueueGroups asid number k).memWf := by
  refine State.ite_memWf h (foldl_keeps State.memWf _ (fun s d h => placePass_memWf h d) _ ?_)
  refine foldl_keeps State.memWf _ (fun s i h => ?_) _ h
  refine State.ite_memWf h ?_
  exact List.foldlRecOn (motive := fun (p : State × List Nat) => p.1.memWf) _ _ h fun _ h _ _ => h

/-! ## Units, groups and sets -/

theorem State.endGroup_memWf (g : Nat) (x : Group) (st : GState) : (s.endGroup g x st).memWf := by
  unfold State.endGroup
  dsimp only
  split
  · exact onGroup_memWf h ..
  · exact onGroup_memWf h ..

theorem State.journalEnd_memWf (asid u : Nat) (x : WorkUnit) (cancelled : Bool) : (s.journalEnd asid u x cancelled).memWf := by
  unfold State.journalEnd
  dsimp only
  split
  · exact h
  · exact State.ite_memWf h (journalTo_memWf (by exact h) ..)

theorem State.completeUnit_memWf (asid u : Nat) (cancelled : Bool) : (s.completeUnit asid u cancelled).memWf := by
  unfold State.completeUnit
  split
  · exact h
  · exact journalEnd_memWf (onUnit_memWf h ..) ..

theorem State.resolveEdges_memWf (asid u : Nat) (edges sat : List Nat) : (s.resolveEdges asid u edges sat).1.memWf := by
  unfold State.resolveEdges
  refine List.foldlRecOn (motive := fun (p : State × List WorkEv) => p.1.memWf) _ _ h fun p h e _ => ?_
  split
  · exact h
  · exact onNode_memWf h ..

theorem State.pendCancel_memWf (asid : Nat) (p : Slot → Bool) : (s.pendCancel asid p).memWf :=
  onCtx_memWf (by exact h) ..

theorem State.countGroup_memWf (x : Group) : (s.countGroup x).memWf := onUnit_memWf h ..

theorem State.freeGroup_memWf (g : Nat) : (s.freeGroup g).memWf := by
  unfold State.freeGroup
  extract_lets ns tids s1 s2 mine s3 s4
  have h1 : s1.memWf := foldl_keeps State.memWf _ (fun _ n h => leaveCrook_memWf h n .none) _ h
  have h2 : s2.memWf := foldl_keeps State.memWf _ (fun _ _ h => by exact h) _ h1
  exact foldl_keeps State.memWf _ (fun _ t h => passCrook_memWf h t) _ (by exact h2)

theorem State.cancelGroup_memWf (g : Nat) : (s.cancelGroup g).memWf := by
  have hp : ∀ (s : State) (p : Nat) (y : Group), s.memWf →
      ((s.onGroup p fun y => { y with threads := y.threads - 1 }).endGroup p y .discarded).memWf :=
    fun s p y h => endGroup_memWf (onGroup_memWf h ..) ..
  unfold State.cancelGroup
  split
  · refine State.ite_memWf (State.ite_memWf (onGroup_memWf h ..) h) (State.ite_memWf h ?_)
    dsimp only
    split
    · split
      · exact endGroup_memWf h ..
      · exact State.ite_memWf (countGroup_memWf (hp _ _ _ (endGroup_memWf h ..)) _)
          (onGroup_memWf (endGroup_memWf h ..) ..)
    · exact countGroup_memWf (endGroup_memWf h ..) _
  · exact h

theorem State.cancelSet_memWf (r : RepSet) : (s.cancelSet r).memWf := by
  unfold State.cancelSet
  refine State.ite_memWf h ?_
  have hm : (r.members.foldl (fun s g => match s.group g with
      | some x => (s.freeGroup g).endGroup g x .discarded
      | none => s) s).memWf := by
    refine foldl_keeps State.memWf _ (fun s g h => ?_) _ h
    split
    · exact endGroup_memWf (freeGroup_memWf h g) ..
    · exact h
  dsimp only
  split
  · exact countGroup_memWf (by exact hm) _
  · exact hm

theorem State.unitMiss_memWf (u : HostUnit) (va : Word) : (s.unitMiss u va).memWf := miss_memWf (by exact h) ..

theorem State.copyRecord_memWf (u : HostUnit) (body : Word) : (s.copyRecord u body).2.memWf := by
  unfold State.copyRecord
  split
  · split
    · exact unitMiss_memWf h ..
    · exact h
  · exact haveRead_memWf h _

/-! ## The settlement of the hierarchy -/

theorem State.workEv_start_memWf (asid u : Nat) : (s.workEv asid (.start u)).1.memWf := by
  have hu := fun f => onUnit_memWf h asid u f
  unfold State.workEv
  dsimp only
  split
  · exact h
  · split
    · exact h
    · split
      · refine enqueueGroups_memWf ?_ ..
        split
        · exact journalTo_memWf (hu _) ..
        · exact hu _
      · split
        · exact journalTo_memWf (hu _) ..
        · exact hu _
      · split
        · exact journalTo_memWf (hu _) ..
        · exact hu _

theorem State.workEv_check_memWf (asid u : Nat) : (s.workEv asid (.check u)).1.memWf := by
  unfold State.workEv
  dsimp only
  split
  · exact h
  · split
    · exact completeUnit_memWf h ..
    · split
      · exact completeUnit_memWf h ..
      · exact h

theorem State.workEv_counted_memWf (asid u : Nat) : (s.workEv asid (.counted u)).1.memWf := by
  unfold State.workEv
  dsimp only
  split
  · exact h
  · split
    · exact h
    · exact h
    · exact onUnit_memWf h ..

theorem State.workEv_node_memWf (asid u n : Nat) : (s.workEv asid (.node u n)).1.memWf := by
  have hn := fun f => onNode_memWf h asid u n f
  unfold State.workEv
  dsimp only
  split
  · split
    · exact h
    · split
      · exact resolveEdges_memWf (onUnit_memWf (State.ite_memWf (completeUnit_memWf (hn _) ..) (hn _)) ..) ..
      · split
        · exact hn _
        · exact onNode_memWf (copyRecord_memWf (hn _) ..) ..
        · exact hn _
        · exact hn _
  · exact h

theorem State.workEv_release_memWf (asid u n : Nat) : (s.workEv asid (.release u n)).1.memWf := by
  unfold State.workEv
  dsimp only
  split
  · split
    · exact h
    · split
      · exact h
      · exact h
      · exact postEvent_memWf (by exact h) ..
      · exact h
  · exact h

theorem State.workEv_nodeEnd_memWf (asid u n : Nat) (normal : Bool) : (s.workEv asid (.nodeEnd u n normal)).1.memWf := by
  unfold State.workEv
  dsimp only
  split
  · exact h
  · split
    · exact h
    · exact resolveEdges_memWf (onUnit_memWf (onNode_memWf h ..) ..) ..

theorem State.workEv_cancel_memWf (asid u : Nat) : (s.workEv asid (.cancel u)).1.memWf := by
  have hp := fun f p => pendCancel_memWf (onUnit_memWf h asid u f) asid p
  unfold State.workEv
  dsimp only
  split
  · exact h
  · split
    · exact h
    · split
      · exact foldl_keeps State.memWf _ (fun _ r h => cancelSet_memWf h r) _
          (foldl_keeps State.memWf (fun (s : State) (e : Nat × Group) => s.cancelGroup e.1)
            (fun _ e h => cancelGroup_memWf h e.1) _ (hp _ _))
      · exact hp _ _
      · exact hp _ _

theorem State.workEv_memWf (asid : Nat) (ev : WorkEv) : (s.workEv asid ev).1.memWf := by
  cases ev with
  | start u => exact workEv_start_memWf h ..
  | check u => exact workEv_check_memWf h ..
  | counted u => exact workEv_counted_memWf h ..
  | node u n => exact workEv_node_memWf h ..
  | release u n => exact workEv_release_memWf h ..
  | nodeEnd u n normal => exact workEv_nodeEnd_memWf h ..
  | cancel u => exact workEv_cancel_memWf h ..

omit h in
theorem State.workOn_memWf {s : State} (h : s.memWf) (asid fuel : Nat) (es : List WorkEv) : (s.workOn asid fuel es).memWf := by
  induction fuel generalizing s es with
  | zero => exact h
  | succ fuel ih =>
    cases es with
    | nil => exact h
    | cons e es => exact ih (workEv_memWf h asid e) _

theorem State.work_memWf (asid : Nat) (es : List WorkEv) : (s.work asid es).memWf := workOn_memWf h ..

theorem State.payJournals_memWf : s.payJournals.memWf :=
  State.ite_memWf h (foldl_keeps State.memWf (fun (s : State) (e : DueRecord) => s.journalTo e.base e.seq e.st 0 none)
    (fun _ _ h => journalTo_memWf h ..) _ (by exact h))

theorem State.releaseNodes_memWf : s.releaseNodes.memWf :=
  foldl_keeps State.memWf _ (fun _ e h => work_memWf h e.1 _) _ (payJournals_memWf h)

theorem State.cancelMusters_memWf (asid job : Nat) : (s.cancelMusters asid job).memWf :=
  pendCancel_memWf (onCtx_memWf (by exact h) ..) ..

theorem State.cancelUnit_memWf (asid u : Nat) : (s.cancelUnit asid u).memWf := by
  unfold State.cancelUnit
  split
  · exact h
  · exact State.ite_memWf h (foldl_keeps State.memWf _ (fun _ d h => placePass_memWf h d) _
      (work_memWf (State.ite_memWf (cancelMusters_memWf h ..) h) ..))

/-! ## Retiring and pre-emption -/

theorem State.groupComplete_memWf (g : Nat) : (s.groupComplete g).memWf := by
  unfold State.groupComplete
  split
  · exact h
  · have he := fun x => endGroup_memWf h g x .complete
    exact placePass_memWf (work_memWf (State.ite_memWf (countGroup_memWf (he _) _) (he _)) ..) _

theorem State.retireSlot_memWf (n : Nat) : (s.retireSlot n).memWf := by
  unfold State.retireSlot
  extract_lets x s1 s2
  have h1 : s1.memWf := leaveCrook_memWf h ..
  have h2 : s2.memWf := by
    unfold s2
    split
    · dsimp only
      split
      · exact State.ite_memWf (groupComplete_memWf (onGroup_memWf h1 ..) _) (onGroup_memWf h1 ..)
      · exact onGroup_memWf h1 ..
    · exact work_memWf h1 ..
  exact State.ite_memWf (placePass_memWf h2 _) h2

theorem State.preemptGroups_memWf (gs : List Nat) : (s.preemptGroups gs).memWf :=
  haltSlots_memWf (foldl_keeps State.memWf (fun (s : State) (g : Nat) => s.onGroup g fun x => { x with preempt := true })
    (fun _ _ h => onGroup_memWf h ..) _ h) _

theorem State.savePreempted_memWf (g : Nat) : (s.savePreempted g).memWf := by
  unfold State.savePreempted
  split
  · exact h
  · extract_lets ns own kids pos accs image saved young s1 s2 s3
    have h1 : s1.memWf := foldl_keeps State.memWf _ (fun _ _ h => by exact h) _ h
    have h2 : s2.memWf := endGroup_memWf h1 ..
    have h3 : s3.memWf := State.ite_memWf (work_memWf (State.ite_memWf (countGroup_memWf h2 _) h2) ..) (onGroup_memWf h1 ..)
    exact State.ite_memWf h (foldl_keeps State.memWf _ (fun _ d h => placePass_memWf h d) _ h3)

end

end Sys2Proof.Machine
end

section
/-! SUPPORT. The integer and memory instructions and the diagram engine keep the canonical form of memory (log 6). -/

namespace Sys2Proof.Machine

open Sys2Proof

theorem exists_of_map_eq_ok {ε α β : Type} {f : α → β} {x : Except ε α} {b : β} (hb : x.map f = .ok b) :
    ∃ a, x = .ok a ∧ f a = b := by
  cases x with
  | error => cases hb
  | ok a =>
    cases hb
    exact ⟨a, rfl, rfl⟩

theorem ite_keeps {c : Prop} [Decidable c] {x y : Out} (hx : Keeps x) (hy : Keeps y) : Keeps (if c then x else y) := by
  split
  · exact hx
  · exact hy

section

variable {s : State} (h : s.memWf)

include h

theorem State.guardedOperands_keeps {g : Guard} {srcs : List Src} {dsts : List Opnd} {k : List Word → State → Out}
    (hk : ∀ vs t, t.memWf → Keeps (k vs t)) : Keeps (s.guarded g fun s => s.operands srcs dsts k) :=
  guarded_keeps h _ _ (operands_keeps h _ _ _ hk)

theorem State.roomFor_keeps (os : List Opnd) {k : State → Out} (hk : Keeps (k s)) : Keeps (s.roomFor os k) := by
  unfold State.roomFor
  split
  · exact park_keeps h _
  · exact ite_keeps hk (park_keeps h _)

theorem State.roomFirst_keeps (a : Opnd) {k : State → Out} (hk : Keeps (k s)) : Keeps (s.roomFirst a k) :=
  ite_keeps hk (roomFor_keeps h _ hk)

/-! ## Integer arithmetic, immediates and compares -/

theorem alu2_keeps (f : Word → Word → Word) (a : Opnd) (b c : Src) : Keeps (alu2 f a b c s) :=
  State.operands_keeps h _ _ _ fun _ _ h => State.finish_keeps h ..

theorem alu1_keeps (f : Word → Word) (a : Opnd) (b : Src) : Keeps (alu1 f a b s) :=
  State.operands_keeps h _ _ _ fun _ _ h => State.finish_keeps h ..

theorem aluImm_keeps (f : Word → Word → Word) (gd : Guard) (a : Opnd) (b : Src) (v : Word) : Keeps (aluImm f gd a b v s) :=
  State.guardedOperands_keeps h fun _ _ h => State.finish_keeps h ..

theorem execCmp_keeps (p : Fin 16) (cc : CmpCond) (b c : Src) : Keeps (execCmp p cc b c s) :=
  State.operands_keeps h _ _ _ fun _ _ h => State.setPredDone_keeps h ..

theorem execCmpu_keeps (p : Fin 16) (cc : CmpuCond) (b c : Src) : Keeps (execCmpu p cc b c s) :=
  State.operands_keeps h _ _ _ fun _ _ h => State.setPredDone_keeps h ..

theorem execCmpi_keeps (gd : Guard) (p : Fin 16) (cc : CmpiCond) (b : Src) (imm : BitVec 16) :
    Keeps (execCmpi gd p cc b imm s) :=
  State.guardedOperands_keeps h fun _ _ h => State.setPredDone_keeps h ..

/-! ## Loads and stores -/

theorem State.checked_keeps (ea : Word) (n : Nat) (r w fmt : Bool) {k : List Piece → Out} (hk : ∀ ps, Keeps (k ps)) :
    Keeps (s.checked ea n r w fmt k) :=
  ite_keeps (trap_keeps h ..) (withAccess_keeps h _ _ _ _ _ fun ps => ite_keeps (trap_keeps h ..) (hk ps))

theorem State.writable_keeps (ps : List Piece) {k : State → Out} (taddr : Word) (hk : Keeps (k s)) :
    Keeps (s.writable ps k taddr) :=
  ite_keeps (trap_keeps h ..) hk

theorem State.farThen_keeps (ea : Word) (ps : List Piece) {k : State → Out} (as : Piece → Config.Request) (hk : Keeps (k s)) :
    Keeps (s.farThen ea ps k as) :=
  ite_keeps (send_keeps h ..) hk

theorem State.readable_keeps (ea : Word) (ps : List Piece) {k : List Byte → State → Out}
    (hk : ∀ bs t, t.memWf → Keeps (k bs t)) : Keeps (s.readable ea ps k) := by
  unfold State.readable
  split
  · exact trap_keeps h ..
  · exact hk _ _ (settleRead_memWf h ps)

theorem State.loaded_keeps (n : Nat) (sx : Bool) (a : Opnd) (bs : List Byte) (eff : Bool) : Keeps (s.loaded n sx a bs eff) := by
  unfold State.loaded
  split
  · exact doneRegs_keeps h _
  · exact finish_keeps h ..

theorem execLd_keeps (gd : Guard) (sz : MemSize) (sx : Bool) (acq : Option Scope) (a : Opnd) (addr : Addr) :
    Keeps (execLd gd sz sx acq a addr s) :=
  State.guardedOperands_keeps h fun _ _ h => State.checked_keeps h _ _ _ _ _ fun _ => State.farThen_keeps h _ _ _ <|
    State.readable_keeps h _ _ fun _ _ h => State.loaded_keeps h ..

theorem execSt_keeps (gd : Guard) (sz : MemSize) (rel : Option Scope) (a : Opnd) (addr : Addr) :
    Keeps (execSt gd sz rel a addr s) := by
  refine State.guardedOperands_keeps h fun _ t h => State.checked_keeps h _ _ _ _ _ fun ps =>
    ite_keeps (State.trap_keeps h ..) (State.writable_keeps h _ _ ?_)
  have hst := fun va ps bs => State.storeVia_keeps h va ps bs (·.done) fun _ h => State.done_keeps h
  split
  · exact ite_keeps (State.storeRelease_keeps h _ _ _ _ _ fun _ h => State.done_keeps h) (hst ..)
  · exact hst ..

/-! ## Full/empty accesses -/

theorem State.feRetry_keeps (pa : Nat) (full : Bool) : Keeps (s.feRetry pa full) :=
  ite_keeps (park_keeps (by exact h) _) (keeps_next h)

theorem State.feAccess_keeps (ea : Word) {k : Piece → Out} (hk : ∀ p, Keeps (k p)) : Keeps (s.feAccess ea k) := by
  refine ite_keeps (trap_keeps h ..) ?_
  split
  · exact trap_keeps h ..
  · exact trap_keeps h ..
  · exact trap_keeps h ..
  · exact trap_keeps h ..
  · exact hk _

theorem execLdfe_keeps (gd : Guard) (scope : Scope) (a : Opnd) (addr : Addr) : Keeps (execLdfe gd scope a addr s) := by
  refine State.guardedOperands_keeps h fun _ t h => State.feAccess_keeps h _ fun p => ?_
  have hgo : ∀ (t : State), t.memWf → ∀ ea, Keeps (t.roomFor [a] fun s =>
      if s.feFull p.pa then s.readable ea [p] fun bs s => (s.setFe p.pa false).finish a (BitVec.ofNat 64 (leNat bs))
      else s.feRetry p.pa true) := fun t h ea =>
    State.roomFor_keeps h _ <| ite_keeps
      (State.readable_keeps h _ _ fun _ _ h => State.finish_keeps (State.setFe_memWf h ..) ..) (State.feRetry_keeps h ..)
  exact ite_keeps (State.votePoint_keeps h _ _ _ _ _ _ fun t h => hgo t h _) (hgo t h _)

theorem execStfe_keeps (gd : Guard) (scope : Scope) (a : Opnd) (addr : Addr) : Keeps (execStfe gd scope a addr s) :=
  State.guardedOperands_keeps h fun _ _ h => State.feAccess_keeps h _ fun _ => State.votePoint_keeps h _ _ _ _ _ _ fun _ h =>
    State.releaseSys_keeps h _ _ fun _ h => ite_keeps (State.feRetry_keeps h ..)
      (State.done_keeps (State.setFe_memWf (State.store_memWf _ _ _ h) ..))

theorem execFeset_keeps (gd : Guard) (full : Bool) (scope : Scope) (a : Opnd) (addr : Addr) :
    Keeps (execFeset gd full scope a addr s) :=
  State.guardedOperands_keeps h fun _ _ h => State.feAccess_keeps h _ fun _ => State.votePoint_keeps h _ _ _ _ _ _ fun _ h =>
    State.roomFor_keeps h _ <| State.releaseSys_keeps h _ _ fun _ h => State.finish_keeps (State.setFe_memWf h ..) ..

/-! ## Atomics and prefetch -/

theorem State.atomicChecks_keeps (ea : Word) (n : Nat) (hostOp cas : Bool) {k : List Piece → State → Out}
    (hk : ∀ ps, Keeps (k ps s)) : Keeps (s.atomicChecks ea n hostOp cas k) :=
  checked_keeps h _ _ _ _ _ fun ps => writable_keeps h _ _ <| ite_keeps (hk ps) (trap_keeps h ..)

theorem State.atomicVote_keeps (ord : AmoOrd) (ea : Word) (op : Nat) (vs : List Word) {k : State → Out}
    (hk : ∀ t, t.memWf → Keeps (k t)) : Keeps (s.atomicVote ord ea op vs k) :=
  votePoint_keeps h _ _ _ _ _ _ fun _ h => releaseSys_keeps h _ _ hk

theorem execAmo_keeps (gd : Guard) (op : AmoOp) (sz : MemSize) (ord : AmoOrd) (a : Opnd) (b c : Src) (disp : BitVec 17) :
    Keeps (execAmo gd op sz ord a b c disp s) :=
  State.guardedOperands_keeps h fun _ _ h => State.atomicChecks_keeps h _ _ _ _ fun _ =>
    State.atomicVote_keeps h _ _ _ _ fun _ h => State.roomFirst_keeps h _ <| State.farThen_keeps h _ _ _ <|
      State.readable_keeps h _ _ fun _ _ h => State.finish_keeps (State.storeBack_memWf h ..) ..

theorem execCas_keeps (gd : Guard) (sz : MemSize) (ord : AmoOrd) (a : Opnd) (b c : Src) (disp : BitVec 17) :
    Keeps (execCas gd sz ord a b c disp s) :=
  State.guardedOperands_keeps h fun _ _ h => State.atomicChecks_keeps h _ _ _ _ fun _ =>
    State.atomicVote_keeps h _ _ _ _ fun _ h => State.roomFirst_keeps h _ <| State.farThen_keeps h _ _ _ <|
      State.readable_keeps h _ _ fun _ _ h => State.loaded_keeps (State.ite_memWf (State.storeBack_memWf h ..) h) ..

theorem State.rupdError_memWf (ea : Word) (code : Nat) : (s.rupdError ea code).memWf := postEvent_memWf h ..

theorem execRupd_keeps (gd : Guard) (op : AmoOp) (sz : MemSize) (b c : Src) (disp : BitVec 17) :
    Keeps (execRupd gd op sz b c disp s) := by
  refine State.guardedOperands_keeps h fun _ _ h => State.atomicChecks_keeps h _ _ _ _ fun _ =>
    State.votePoint_keeps h _ _ _ _ _ _ fun _ h => ?_
  split
  · exact State.done_keeps (State.sendWrite_memWf h ..)
  · exact State.done_keeps (State.rupdError_memWf h ..)
  · exact State.done_keeps (State.putPieces_memWf _ _ _ h)

theorem execPref_keeps (gd : Guard) (hint : Fin 3) (b : Src) (disp : BitVec 20) : Keeps (execPref gd hint b disp s) :=
  State.guardedOperands_keeps h fun _ _ h => State.done_keeps h

/-! ## How an engine writes memory -/

theorem State.enginePiece_memWf (tid : Nat) (va : Word) (p : Piece) (bs : List Byte) : (s.enginePiece tid va p bs).memWf := by
  unfold State.enginePiece
  split
  · exact State.ite_memWf (State.settle_memWf _ (sendWrite_memWf h ..)) (State.write_memWf _ _ _ h)
  · exact State.write_memWf _ _ _ h

omit h in
theorem State.enginePieceAll_memWf {s : State} (h : s.memWf) (tid : Nat) (va : Word) (ps : List Piece) (bs : List Byte) :
    (s.enginePieceAll tid va ps bs).memWf := by
  induction ps generalizing s bs with
  | nil => exact h
  | cons p ps ih => exact ih (enginePiece_memWf h ..) _

theorem State.engineStore_memWf (tid : Nat) (va : Word) (ps : List Piece) (bs : List Byte) :
    (s.engineStore tid va ps bs).memWf :=
  State.ite_memWf h (enginePieceAll_memWf h ..)

theorem State.engineSettled_memWf (e : Eng) (core asid : Nat) (va : Word) (len : Nat) :
    (s.engineSettled e core asid va len).memWf := by
  unfold State.engineSettled
  split
  · exact haveRead_memWf h _
  · exact h
  · exact h

theorem State.enginePutWords_memWf (tid : Nat) (l : List (Word × List Piece)) (ws : List Nat) :
    (s.enginePutWords tid l ws).memWf :=
  foldl_keeps State.memWf (fun s (e : (Word × List Piece) × Nat) => s.engineStore tid e.1.1 e.1.2 (leBytes e.2 8))
    (fun _ _ h => engineStore_memWf h ..) _ h

theorem State.engineWriteWords_memWf (e : Eng) (core asid : Nat) (va : Word) (ws : List Nat) {t : State}
    (ht : s.engineWriteWords e core asid va ws = .ok t) : t.memWf := by
  obtain ⟨l, -, rfl⟩ := exists_of_map_eq_ok ht
  exact enginePutWords_memWf h ..

/-! ## The diagram engine -/

theorem State.ddTableRead_memWf (sp : Space) (w : DdWork) (asid : Nat) : (s.ddTableRead sp w asid).memWf := by
  unfold State.ddTableRead
  split
  · exact engineSettled_memWf h ..
  · exact h

theorem State.ddEnd_memWf (w : DdWork) (r : Word) : (s.ddEnd w r).memWf := h

theorem State.ddAbandon_memWf (w : DdWork) (code : Nat) (taddr : Word) : (s.ddAbandon w code taddr).memWf := h

theorem State.ddSettle_memWf (die asid : Nat) (w : DdWork) (r : DdRes) : (s.ddSettle die asid w r).memWf := by
  unfold State.ddSettle
  split
  · exact ddEnd_memWf (setSpace_memWf h ..) ..
  · exact ddAbandon_memWf (setSpace_memWf h ..) ..
  · exact setSpace_memWf h die asid { r.1 with susp := some (w, _), mode := .suspended }

theorem State.ddWrite_memWf (w : DdWork) (asid : Nat) (dst : Word) (ws : List Nat) {t : State}
    (ht : s.ddWrite w asid dst ws = .ok t) : t.memWf := by
  unfold State.ddWrite at ht
  split at ht
  · cases ht
  · split at ht
    · cases ht
    · cases ht
      exact enginePutWords_memWf h ..

theorem State.ddPerform_memWf (die asid : Nat) (sp : Space) (w : DdWork) : (s.ddPerform die asid sp w).memWf := by
  have hsp := fun x => setSpace_memWf h die asid x
  have hfault : ∀ e : Nat × Word, (if e.1 = walkWait then s.engineMiss w.eng w.core asid e.2
      else ((s.setSpace die asid sp).setSpace die asid { sp with fault := e.1 }).ddAbandon w 0x249 e.2).memWf := fun e =>
    State.ite_memWf (engineMiss_memWf h ..) (ddAbandon_memWf (setSpace_memWf (hsp _) ..) ..)
  unfold State.ddPerform
  dsimp only
  split
  · exact ddAbandon_memWf (hsp _) ..
  · refine State.ite_memWf (ddAbandon_memWf (hsp _) ..) ?_
    split
    · exact hfault _
    · exact ddSettle_memWf (ddTableRead_memWf (hsp _) ..) ..
    · split
      · exact hfault _
      · next ht => exact ddSettle_memWf (ddWrite_memWf (hsp _) _ _ _ _ ht) ..

theorem State.ddCollectSuspended_memWf (die asid : Nat) (sp : Space) (w : DdWork) (abort : Bool) (old : DdWork) :
    (s.ddCollectSuspended die asid sp w abort old).memWf :=
  State.ite_memWf (ddEnd_memWf (ddEnd_memWf (setSpace_memWf h ..) ..) ..) (ddEnd_memWf (setSpace_memWf h ..) ..)

theorem execDdeOperationCompletes_keeps (die asid : Nat) : Keeps (execDdeOperationCompletes die asid s) := by
  refine keeps_next ?_
  split
  · exact h
  · split
    · exact h
    · split
      · exact h
      · dsimp only
        split
        · exact State.ddCollectSuspended_memWf h ..
        · exact State.ddPerform_memWf h ..
    · exact h
    · exact State.ddSettle_memWf h ..
    · split
      · exact h
      · exact State.ddPerform_memWf h ..

theorem ddIssue_keeps (gd : Guard) (srcs : List Src) (reg : Option Nat) (bad : List Word → Bool) (op : List Word → DdOp) :
    Keeps (ddIssue gd srcs reg bad op s) := by
  refine State.guardedOperands_keeps h fun _ _ h => ?_
  dsimp only
  split
  · exact State.trap_keeps h ..
  · exact ite_keeps (State.trap_keeps h ..) (ite_keeps (State.park_keeps h _)
      (State.done_keeps (by exact State.setSpace_memWf h ..)))

theorem execDdstat_keeps (gd : Guard) (f : Fin 6) (a : Fin 32) : Keeps (execDdstat gd f a s) :=
  State.guarded_keeps h _ _ (State.doneRegs_keeps h _)

end

end Sys2Proof.Machine
end

section
/-! SUPPORT. The automata engine keeps the canonical form of memory (log 6). -/

namespace Sys2Proof.Machine

open Sys2Proof

section

variable {s : State} (h : s.memWf)

include h

/-! ## Threads and lanes wherever they are -/

theorem State.pendTid_memWf (tid code : Nat) (taddr : Word) : (s.pendTid tid code taddr).memWf := h

theorem State.deliver_memWf (tid reg : Nat) (v : Word) : (s.deliver tid reg v).memWf := h

theorem State.onLane_memWf (l : Nat) (f : Lane → Lane) : (s.onLane l f).memWf := h

theorem State.onLanes_memWf (ls : List Nat) (f : Lane → Lane) : (ls.foldl (fun s l => s.onLane l f) s).memWf :=
  foldl_keeps State.memWf _ (fun _ _ h => onLane_memWf h ..) _ h

/-! ## The loft -/

theorem State.fillMiss_memWf (who : Asker) (tid tile tag : Nat) : (s.fillMiss who tid tile tag).memWf := miss_memWf h ..

theorem State.fillPage_memWf {who : Asker} {tile tag : Nat} {t : State} (ht : s.fillPage who tile tag = .ok t) : t.memWf := by
  unfold State.fillPage at ht
  extract_lets core va asid at ht
  split at ht
  · cases ht
  · dsimp only at ht
    split at ht
    · cases ht
      exact haveRead_memWf h _
    · cases ht
      exact pick_memWf (haveRead_memWf h _) _

/-! ## Running a lane -/

theorem State.stepLane_memWf {core asid : Nat} {e : Eng} {l : Lane} {x : Nat} {r : StepEnd} {m : Lane} {t : State}
    (ht : s.stepLane core asid e l x = .ok (r, m, t)) : t.memWf := by
  unfold State.stepLane at ht
  split at ht
  · cases ht
  · cases ht
    exact h
  · split at ht
    · cases ht
    · next hw =>
      cases ht
      exact engineWriteWords_memWf h _ _ _ _ _ hw

omit h in
theorem State.runLane_memWf {s : State} (h : s.memWf) (core asid : Nat) (en : Eng) (budget fuel n : Nat) (l : Lane) :
    (s.runLane core asid en budget fuel n l).1.memWf := by
  induction fuel generalizing s n l with
  | zero => exact h
  | succ fuel ih =>
    unfold State.runLane
    split
    · exact h
    · split
      · exact h
      · split
        · exact h
        · split
          · exact h
          · next hst =>
            have ht := stepLane_memWf (engineSettled_memWf h ..) hst
            dsimp only
            split
            · exact ht
            · exact ht
            · exact ht
            · exact ih ht ..

theorem State.batchStop_memWf (lane tid reg status : Nat) (trap : Option (Nat × Word)) :
    (s.batchStop lane tid reg status trap).memWf := by
  unfold State.batchStop
  extract_lets j hit bs s1
  split
  · exact deliver_memWf (foldl_keeps State.memWf (fun s (f : Nat × Word) => s.pendTid tid f.1 f.2)
      (fun _ _ h => by exact h) _ (s := s1) h) ..
  · exact h

theorem State.laneMiss_memWf (lane : Nat) (w : LaneWork) (va : Word) : (s.laneMiss lane w va).memWf := engineMiss_memWf h ..

theorem State.endStep_memWf (lane : Nat) (w : LaneWork) (budget mask : Nat) {r : State × Lane × Nat × Option LaneStop}
    (hr : r.1.memWf) : (s.endStep lane w budget mask r).memWf := by
  unfold State.endStep
  dsimp only
  split
  · exact batchStop_memWf (onLane_memWf hr ..) ..
  · exact hr
  · exact laneMiss_memWf (onLane_memWf hr ..) ..
  · exact hr
  · exact batchStop_memWf (onLane_memWf hr ..) ..
  · exact h

theorem State.runFeed_memWf (lane asid : Nat) (w : LaneWork) (l : Lane) (x : Word) : (s.runFeed lane asid w l x).memWf := by
  unfold State.runFeed
  extract_lets r
  generalize hr : r = o
  split
  · exact h
  · exact laneMiss_memWf h ..
  · exact h
  · exact h
  · exact h
  · unfold r at hr
    rcases ite_eq_iff.1 hr with ⟨_, hr⟩ | ⟨_, hr⟩
    · cases hr
    · exact deliver_memWf (onLane_memWf (stepLane_memWf h hr) ..) ..

theorem State.runMap_memWf (lane asid : Nat) (w : LaneWork) (l : Lane) (dst ix : Word) (at_ : Option MapAt) :
    (s.runMap lane asid w l dst ix at_).memWf := by
  unfold State.runMap
  extract_lets core begin_ walk m first s1 keep written
  have h1 : s1.memWf := engineSettled_memWf h ..
  generalize hw : written = o
  split
  · exact h1
  · exact laneMiss_memWf (onLane_memWf h1 ..) ..
  · exact h1
  · exact h1
  · exact h1
  · unfold written at hw
    split at hw
    · cases hw
    · split at hw
      · cases hw
      · next he =>
        cases hw
        exact deliver_memWf (onLane_memWf (engineWriteWords_memWf h1 _ _ _ _ _ he) ..) ..

theorem State.settleMaps_memWf (vas : List Word) : (s.settleMaps vas).memWf :=
  foldl_keeps State.memWf (fun s va => s.engineSettled s.myEng s.myCoreNum (s.asidOf s.agent) va 64)
    (fun _ _ h => engineSettled_memWf h ..) _ h

theorem State.runAllow_memWf (lane asid : Nat) (w : LaneWork) (l : Lane) (dst : Word) (at_ : Option AllowAt) :
    (s.runAllow lane asid w l dst at_).memWf := by
  unfold State.runAllow
  extract_lets core begin_ set r
  generalize hr : r = o
  split
  · exact h
  · exact laneMiss_memWf (onLane_memWf h ..) ..
  · exact h
  · exact h
  · exact h
  · unfold r at hr
    split at hr
    · cases hr
    · split at hr
      · cases hr
      · next he =>
        cases hr
        exact deliver_memWf (onLane_memWf (engineWriteWords_memWf h _ _ _ _ _ he) ..) ..

theorem State.runCommand_memWf (lane : Nat) (l : Lane) (w : LaneWork) : (s.runCommand lane l w).memWf := by
  unfold State.runCommand
  dsimp only
  split
  · split
    · exact batchStop_memWf (onLane_memWf h ..) ..
    · exact endStep_memWf h _ _ _ _ (runLane_memWf h ..)
  · exact runFeed_memWf h ..
  · exact runMap_memWf h ..
  · exact runAllow_memWf h ..

theorem execLaneCommandCompletes_keeps (lane : Nat) : Keeps (execLaneCommandCompletes lane s) := by
  refine keeps_next ?_
  dsimp only
  split
  · exact State.ite_memWf (State.runCommand_memWf h ..) (by exact State.runCommand_memWf h ..)
  · exact h

theorem State.fillFault_memWf (lane page cause : Nat) : (s.fillFault lane page cause).memWf := by
  unfold State.fillFault
  dsimp only
  split
  · exact h
  · split
    · exact batchStop_memWf (by exact h) ..
    · exact h
    · exact h
    · exact h

theorem execLoftFillArrives_keeps (tile page : Nat) : Keeps (execLoftFillArrives tile page s) := by
  refine keeps_next (State.ite_memWf h (State.ite_memWf (State.onLanes_memWf h ..) ?_))
  split
  · next ht => exact State.onLanes_memWf (by have := State.fillPage_memWf h ht; exact this) ..
  · exact State.fillMiss_memWf h ..
  · exact foldl_keeps State.memWf _ (fun _ l h => State.fillFault_memWf h l page _) _ h

/-! ## Issue -/

theorem State.lanesIdle_keeps (mask : Nat) (check : Option Nat) {k : State → Out} (hk : Keeps (k s)) :
    Keeps (s.lanesIdle mask check k) := by
  refine ite_keeps (trap_keeps h ..) ?_
  split
  · exact trap_keeps h ..
  · exact ite_keeps (park_keeps h _) hk

theorem State.startLanes_keeps (mask : Nat) (a : Fin 32) (cmd : LaneCmd) : Keeps (s.startLanes mask a cmd) :=
  done_keeps (by exact onLanes_memWf h ..)

theorem execAbind_keeps (gd : Guard) (mask : BitVec 8) (b : Src) : Keeps (execAbind gd mask b s) :=
  State.guardedOperands_keeps h fun _ _ h => ite_keeps (State.park_keeps h _) <|
    State.checked_keeps h _ _ _ _ _ fun _ => State.farThen_keeps h _ _ _ <| State.readable_keeps h _ _ fun _ _ h =>
      ite_keeps (State.trap_keeps h ..) (State.done_keeps (State.onLanes_memWf h ..))

theorem execAreset_keeps (gd : Guard) (mask : BitVec 8) : Keeps (execAreset gd mask s) :=
  State.guarded_keeps h _ _ <| State.lanesIdle_keeps h _ _ <| State.done_keeps (State.onLanes_memWf h ..)

theorem execAstep_keeps (gd : Guard) (mask : BitVec 8) (a : Fin 32) (b : Src) : Keeps (execAstep gd mask a b s) :=
  State.guardedOperands_keeps h fun _ _ h => State.lanesIdle_keeps h _ _ <| State.startLanes_keeps (by exact h) ..

theorem execAfeed_keeps (gd : Guard) (lane : Fin 8) (a : Fin 32) (b : Src) : Keeps (execAfeed gd lane a b s) :=
  State.guardedOperands_keeps h fun _ _ h => State.lanesIdle_keeps h _ _ <| State.startLanes_keeps h ..

theorem execAmap_keeps (gd : Guard) (lane : Fin 8) (a : Fin 32) (b c : Src) : Keeps (execAmap gd lane a b c s) :=
  State.guardedOperands_keeps h fun _ _ h => State.lanesIdle_keeps h _ _ <| State.startLanes_keeps h ..

theorem execAallow_keeps (gd : Guard) (lane : Fin 8) (a : Fin 32) (b : Src) : Keeps (execAallow gd lane a b s) :=
  State.guardedOperands_keeps h fun _ _ h => State.lanesIdle_keeps h _ _ <| State.startLanes_keeps h ..

theorem State.compDone_keeps (a : Fin 32) {r : Except (Nat × Word) (Word × State)} (hr : ∀ v t, r = .ok (v, t) → t.memWf) :
    Keeps (s.compDone a r) := by
  unfold State.compDone
  dsimp only
  split
  · have ht := hr _ _ rfl
    exact done_keeps (by exact ht)
  · exact ite_keeps (await_keeps h _ (parkMiss_keeps h _)) (done_keeps (by exact h))

theorem State.deliverComps_memWf : s.deliverComps.memWf := by
  refine foldl_keeps State.memWf _ (fun s e h => foldl_keeps State.memWf _ (fun s c h => ?_) _ (by exact h)) _ h
  refine deliver_memWf ?_ ..
  split
  · exact h
  · exact h

theorem execAcomp_keeps (gd : Guard) (a : Fin 32) (b c : Src) : Keeps (execAcomp gd a b c s) := by
  refine State.guardedOperands_keeps h fun _ _ h => ite_keeps (State.trap_keeps h ..)
    (State.compDone_keeps (State.settleMaps_memWf h _) _ fun v t ht => ?_)
  split at ht
  · cases ht
  · split at ht
    · cases ht
    · dsimp only at ht
      split at ht
      · cases ht
      · next hw =>
        cases ht
        exact State.engineWriteWords_memWf h _ _ _ _ _ hw

theorem execAcompApply_keeps (gd : Guard) (a : Fin 32) (b c : Src) : Keeps (execAcompApply gd a b c s) := by
  refine State.guardedOperands_keeps h fun _ _ h => ite_keeps (State.trap_keeps h ..)
    (State.compDone_keeps (State.settleMaps_memWf h _) _ fun v t ht => ?_)
  obtain ⟨m, -, e⟩ := exists_of_map_eq_ok ht
  cases e
  exact h

theorem execAget_keeps (gd : Guard) (lane : Fin 8) (f : Fin 9) (i : Fin 64) (a : Fin 32) : Keeps (execAget gd lane f i a s) :=
  State.guarded_keeps h _ _ (State.doneRegs_keeps h _)

theorem execAset_keeps (gd : Guard) (lane : Fin 8) (f : Fin 9) (b : Src) : Keeps (execAset gd lane f b s) := by
  refine State.guardedOperands_keeps h fun _ _ h => ?_
  split
  · exact State.lanesIdle_keeps h _ _ (State.done_keeps h)
  · exact State.lanesIdle_keeps h _ _ (State.done_keeps (State.onLane_memWf h ..))

/-! ## Checkpoints and pages -/

omit h in
theorem State.storeWords_memWf {s : State} (h : s.memWf) (l : List (Word × List Piece × List Byte)) : (s.storeWords l).memWf := by
  induction l generalizing s with
  | nil => exact h
  | cons e l ih => exact ih (State.ite_memWf (putPieces_memWf _ _ _ h) h)

theorem State.checkpointAccess_keeps (ea : Word) (w : Bool) {k : List Piece → Out} (hk : ∀ ps, Keeps (k ps)) :
    Keeps (s.checkpointAccess ea w k) :=
  withAccess_keeps h _ _ _ _ _ fun ps => ite_keeps (trap_keeps h ..) (hk ps)

theorem execAsave_keeps (gd : Guard) (lane : Fin 8) (b : Src) : Keeps (execAsave gd lane b s) :=
  State.guardedOperands_keeps h fun _ _ h => State.lanesIdle_keeps h _ _ <| State.checkpointAccess_keeps h _ _ fun _ =>
    State.writable_keeps h _ _ <| ite_keeps (State.implicitVote_keeps h) (State.done_keeps (State.storeWords_memWf h _))

theorem execAload_keeps (gd : Guard) (lane : Fin 8) (a : Fin 32) (b : Src) : Keeps (execAload gd lane a b s) := by
  refine State.guardedOperands_keeps h fun _ _ h => State.lanesIdle_keeps h _ _ <| State.checkpointAccess_keeps h _ _ fun _ =>
    State.farThen_keeps h _ _ _ <| State.readable_keeps h _ _ fun _ _ h => ?_
  split
  · exact State.trap_keeps h ..
  · exact State.doneRegs_keeps (State.onLane_memWf h ..) _

theorem State.pageOp_memWf (tile tag op : Nat) : (s.pageOp tile tag op).memWf := by
  unfold State.pageOp
  extract_lets set filled
  split
  · exact h
  · exact h
  · have hf : filled.memWf := by
      refine State.ite_memWf h ?_
      split
      · next ht => exact fillPage_memWf h ht
      · exact h
    exact State.ite_memWf hf hf

theorem execApage_keeps (gd : Guard) (op : Fin 4) (n1 : Fin 128) (a : Fin 32) (b : Src) : Keeps (execApage gd op n1 a b s) := by
  refine State.guardedOperands_keeps h fun _ _ h => ite_keeps (State.trap_keeps h ..) ?_
  extract_lets t tags resident u waits
  have hu : u.memWf := foldl_keeps State.memWf _ (fun _ g h => State.pageOp_memWf h t g op.val) _ h
  split
  · exact State.await_keeps h _ (State.parkMiss_keeps h _)
  · exact State.doneRegs_keeps hu _

end

end Sys2Proof.Machine
end

section
/-! SUPPORT. Flow, traps, control words, retire and spawn, order and monitors, and the matrix array keep the canonical form
of memory (log 6). -/

namespace Sys2Proof.Machine

open Sys2Proof

section

variable {s : State} (h : s.memWf)

include h

theorem State.onMe_memWf (f : Slot → Slot) : (s.onMe f).memWf := h

/-! ## Flow and traps -/

theorem State.succOf_keeps (e : Word) {k : Word → Out} (hk : ∀ t, Keeps (k t)) : Keeps (s.succOf e k) := by
  refine ite_keeps (hk _) ?_
  split
  · exact hk _
  · exact trap_keeps h ..
  · exact parkWalk_keeps h _
  · exact send_keeps h ..

theorem execBr_keeps (gd : Guard) (target : BitVec 20) : Keeps (execBr gd target s) :=
  State.guarded_keeps h _ _ (State.goto_keeps h _)

theorem execCall_keeps (gd : Guard) (a : Opnd) (target : BitVec 20) : Keeps (execCall gd a target s) :=
  State.guardedOperands_keeps h fun _ _ h => State.finishJump_keeps h ..

theorem execJr_keeps (a : Opnd) (b : Src) : Keeps (execJr a b s) :=
  State.operands_keeps h _ _ _ fun _ _ h => State.finishJump_keeps h ..

theorem execLoop_keeps (gd : Guard) (a : Opnd) (target : BitVec 20) : Keeps (execLoop gd a target s) :=
  State.guardedOperands_keeps h fun _ _ h => ite_keeps (State.succOf_keeps h _ fun t => State.goto_keeps h t) <|
    ite_keeps (State.trap_keeps h ..) (State.done_keeps (State.onMe_memWf h _))

theorem execLbrk_keeps : Keeps (execLbrk s) :=
  ite_keeps (State.succOf_keeps h _ fun t => State.goto_keeps (State.onMe_memWf h _) t) <|
    ite_keeps (State.succOf_keeps h _ fun t => State.goto_keeps (State.onMe_memWf h _) t) (State.goto_keeps h _)

theorem trapAfterStep_keeps (code : Nat) (taddr : Word) : Keeps (trapAfterStep code taddr s) :=
  keeps_next (State.trapSlot_memWf _ _ _ _ _ (State.onMe_memWf h _))

theorem execTrap_keeps (gd : Guard) (imm : BitVec 20) : Keeps (execTrap gd imm s) :=
  State.guarded_keeps h _ _ (trapAfterStep_keeps h ..)

theorem execTret_keeps : Keeps (execTret s) :=
  ite_keeps (State.goto_keeps (State.onMe_memWf h _) _) <|
    ite_keeps (State.goto_keeps (State.onMe_memWf h _) _) (State.trap_keeps h ..)

/-! ## Control words -/

theorem readClock_keeps (a : Opnd) : Keeps (readClock a s) :=
  ite_keeps (State.finish_keeps (State.onMe_memWf (foldl_keeps State.memWf _ (fun _ _ h => by exact h) _ h) _) ..)
    (State.park_keeps h _)

theorem execCrd_keeps (gd : Guard) (a : Opnd) (num : BitVec 12) : Keeps (execCrd gd a num s) := by
  refine State.guarded_keeps h _ _ <| ite_keeps (State.trap_keeps h ..) <| State.operands_keeps h _ _ _ fun _ _ h =>
    ite_keeps ?_ (State.finish_keeps h ..)
  split
  · exact readClock_keeps h a
  · exact readClock_keeps (State.onMe_memWf h _) a

theorem execCwr_keeps (gd : Guard) (num : BitVec 12) (b : Src) : Keeps (execCwr gd num b s) :=
  State.guarded_keeps h _ _ <| ite_keeps (State.trap_keeps h ..) <| State.operands_keeps h _ _ _ fun _ _ h =>
    ite_keeps (keeps_next (State.onUs_memWf h _)) (State.done_keeps (State.writeWord_memWf h ..))

/-! ## Retire and spawn -/

theorem retireNow_keeps : Keeps (retireNow s) := by
  refine keeps_next (State.retireSlot_memWf ?_ _)
  exact State.ite_memWf (by exact h) h

theorem execRetire_keeps : Keeps (execRetire s) := by
  unfold execRetire
  split
  · exact State.goto_keeps (State.onMe_memWf h _) _
  · exact ite_keeps (State.votePoint_keeps h _ _ _ _ _ _ fun _ h => retireNow_keeps h) (State.park_keeps h _)

theorem spawnAt_keeps (core : Nat) (t : Word) : Keeps (spawnAt core t s) := by
  unfold spawnAt
  extract_lets x remote
  generalize remote = o
  cases o with
  | some n =>
    refine State.done_keeps (State.onMe_memWf ?_ _)
    split
    · exact State.onGroup_memWf (by exact h) ..
    · exact h
  | none => exact ite_keeps (State.goto_keeps (State.onMe_memWf h _) _) (ite_keeps (State.trap_keeps h ..) (State.park_keeps h _))

theorem execSpawn_keeps (gd : Guard) (b : Src) (target : BitVec 24) : Keeps (execSpawn gd b target s) :=
  State.guardedOperands_keeps h fun _ _ h => ite_keeps (State.trap_keeps h ..) (spawnAt_keeps h ..)

/-! ## Order and monitors -/

theorem releaseAt_keeps (scope : Scope) : Keeps (releaseAt scope s) := by
  have hgo : ∀ t : State, t.memWf → Keeps (t.releaseSys (scope == .sys) fun s => s.done) :=
    fun t h => State.releaseSys_keeps h _ _ fun _ h => State.done_keeps h
  exact ite_keeps (State.votePoint_keeps h _ _ _ _ _ _ hgo) (hgo s h)

theorem execFence_keeps (gd : Guard) (kind : FenceKind) (scope : Scope) : Keeps (execFence gd kind scope s) := by
  refine State.guarded_keeps h _ _ ?_
  cases kind with
  | acq => exact State.done_keeps h
  | rel => exact releaseAt_keeps h scope
  | ar => exact releaseAt_keeps h scope

theorem execMarm_keeps (m : Fin 4) (b c : Src) : Keeps (execMarm m b c s) := by
  refine State.operands_keeps h _ _ _ fun _ _ h => ite_keeps (State.done_keeps (State.onMe_memWf h _)) <|
    State.withAccess_keeps h _ _ _ _ _ fun ps => ?_
  split
  · exact ite_keeps (State.trap_keeps h ..) <| ite_keeps (State.trap_keeps h ..) <| ite_keeps (State.send_keeps h ..) <|
      State.done_keeps (State.onMe_memWf h _)
  · exact State.done_keeps h

theorem execMwait_keeps (gd : Guard) (a : Opnd) (rot : BitVec 20) : Keeps (execMwait gd a rot s) :=
  State.guardedOperands_keeps h fun _ _ h => ite_keeps
    (State.roomFor_keeps (State.onMe_memWf h _) _ (State.finish_keeps (State.onMe_memWf (State.onMe_memWf h _) _) ..))
    (State.park_keeps (State.onMe_memWf h _) _)

/-! ## Matrix commands: acceptance -/

theorem State.enqueueMat_memWf (cmd : MatCmd) : (s.enqueueMat cmd).memWf :=
  State.ite_memWf (leaseBound_memWf (by exact h) _) h

theorem State.matError_keeps {k : State → Out} (hk : Keeps (k s)) : Keeps (s.matError k) := by
  unfold State.matError
  dsimp only
  split
  · exact trap_keeps (by exact h) ..
  · exact hk

theorem State.wantCrook_memWf : s.wantCrook.memWf := grant_memWf (onMe_memWf h _) _

theorem State.acceptNow_keeps (q : MatReq) : Keeps (s.acceptNow q) := by
  refine ite_keeps (park_keeps h _) ?_
  split
  · exact trap_keeps h ..
  · exact done_keeps (enqueueMat_memWf h _)

theorem State.leased_keeps (q : MatReq) : Keeps (s.leased q) := by
  unfold State.leased
  split
  · exact trap_keeps h ..
  · exact acceptNow_keeps h q
  · exact ite_keeps (acceptNow_keeps (wantCrook_memWf h) q) (park_keeps (wantCrook_memWf h) _)

theorem State.matFirst_keeps {k : State → Out} (hk : ∀ t, t.memWf → Keeps (k t)) : Keeps (s.matFirst k) :=
  ite_keeps (matError_keeps h (hk _ (onMe_memWf h _))) (hk s h)

theorem matrixCommand_keeps (gd : Guard) (srcs : List Src) (q : List Word → MatReq) : Keeps (matrixCommand gd srcs q s) :=
  State.guardedOperands_keeps h fun _ _ h => State.matFirst_keeps h fun _ h => State.leased_keeps h _

theorem execMlease_keeps (gd : Guard) : Keeps (execMlease gd s) :=
  State.guarded_keeps h _ _ <| State.matFirst_keeps h fun _ h => ite_keeps (State.done_keeps h) <|
    ite_keeps (State.done_keeps (State.wantCrook_memWf h)) (State.park_keeps (State.wantCrook_memWf h) _)

theorem execMfree_keeps : Keeps (execMfree s) := State.done_keeps (State.leaveCrook_memWf h ..)

theorem execMstat_keeps (gd : Guard) (a : Fin 32) : Keeps (execMstat gd a s) :=
  State.guarded_keeps h _ _ <| State.matError_keeps h <| ite_keeps (State.doneRegs_keeps h _) (State.done_keeps (by exact h))

/-! ## What the commands do -/

theorem State.matFail_memWf (t tid kind : Nat) (va : Word) : (s.matFail t tid kind va).memWf := h

theorem State.runWld_memWf (t : Nat) (w : MatWork) (s24 : Bool) (e : Nat) (o : MatOpnd) (k n : Nat) :
    (s.runWld t w s24 e o k n).memWf := by
  unfold State.runWld
  dsimp only
  repeat' split
  all_goals exact h

theorem State.runMma_memWf (t : Nat) (w : MatWork) (e : Nat) (o : MatOpnd) (row0 m : Nat) (cfg : MatrixCfg) :
    (s.runMma t w e o row0 m cfg).memWf := by
  unfold State.runMma
  split
  · exact h
  · dsimp only
    split
    · exact matFail_memWf h ..
    · exact h

theorem State.readRow_memWf (t : Nat) (w : MatWork) (o : MatOpnd) (osat : Bool) (sr : Word) (i n : Nat) (vals : List FVal) :
    (s.readRow t w o osat sr i n vals).memWf := by
  refine State.ite_memWf (foldl_keeps State.memWf _ (fun s b h => ?_) _ h)
    (foldl_keeps State.memWf _ (fun s p h => engineStore_memWf h ..) _ h)
  exact engineStore_memWf (foldl_keeps State.memWf _ (fun s j h => engineStore_memWf h ..) _ h) ..

theorem State.runRd_memWf (t : Nat) (w : MatWork) (clr : Bool) (o : MatOpnd) (row0 m n : Nat) (sr : Word) :
    (s.runRd t w clr o row0 m n sr).memWf := by
  unfold State.runRd
  extract_lets osat s1
  have h1 : s1.memWf := foldl_keeps State.memWf _ (fun s i h => readRow_memWf h ..) _ h
  exact State.ite_memWf h1 h1

theorem State.runMat_memWf (t : Nat) (w : MatWork) : (s.runMat t w).memWf := by
  unfold State.runMat
  split
  · exact h
  · exact h
  · exact h
  · exact runWld_memWf h ..
  · exact runMma_memWf h ..
  · exact runRd_memWf h ..

theorem execMatrixCommandCompletes_keeps (tile : Nat) : Keeps (execMatrixCommandCompletes tile s) := by
  unfold execMatrixCommandCompletes
  split
  · exact ite_keeps (keeps_next h) (keeps_next (State.passCrook_memWf (by exact State.runMat_memWf h ..) _))
  · exact keeps_next h

theorem execLeaseCycleBound_keeps (tile : Nat) : Keeps (execLeaseCycleBound tile s) := by
  unfold execLeaseCycleBound
  dsimp only
  split
  · exact ite_keeps (keeps_next (State.leaseBound_memWf h _)) (keeps_next h)
  · exact keeps_next h

theorem State.giveStats_memWf (c : Crook) : (s.giveStats c).memWf :=
  foldl_keeps State.memWf _ (fun _ _ h => by exact h) _ h

theorem State.deliverStats_memWf (t : Nat) : (s.deliverStats t).memWf := giveStats_memWf h _

theorem State.deliverImages_memWf (a : Nat) (c : Ctx) : (s.deliverImages a c).memWf :=
  State.ite_memWf h (onCtx_memWf (foldl_keeps State.memWf _ (fun _ _ h => giveStats_memWf h _) _ h) ..)

end

end Sys2Proof.Machine
end

section
/-! SUPPORT. The drover, the events of groups and the hurdles keep the canonical form of memory (log 6). -/

namespace Sys2Proof.Machine

open Sys2Proof

section

variable {s : State} (h : s.memWf)

include h

/-! ## The drover slot and mailboxes -/

theorem execDroverRestart_keeps (core : Nat) : Keeps (execDroverRestart core s) := by
  unfold execDroverRestart
  dsimp only
  split
  · exact keeps_next h
  · exact ite_keeps (keeps_next h) (keeps_next h)

theorem State.notReplica_keeps {k : State → Out} (hk : Keeps (k s)) : Keeps (s.notReplica k) :=
  ite_keeps (trap_keeps h ..) hk

theorem State.writeOpnd_memWf (o : Opnd) (v : Word) : (s.writeOpnd o v).memWf := State.memWf_of_mem h (s.writeOpnd_mem o v)

theorem State.takeOne_memWf (a : Src) : (s.takeOne a).2.memWf := State.memWf_of_mem h (s.takeOne_mem a)

theorem execMbsend_keeps (gd : Guard) (nb : Bool) (m : Fin 4) (a : Opnd) (b : Src) : Keeps (execMbsend gd nb m a b s) :=
  State.guarded_keeps h _ _ <| State.notReplica_keeps h <| State.operands_keeps h _ _ _ fun _ _ h =>
    ite_keeps (ite_keeps (State.finish_keeps h ..) (State.park_keeps h _))
      (State.roomFor_keeps h _ (State.finish_keeps (State.writeOpnd_memWf h ..) ..))

theorem execMbrecv_keeps (gd : Guard) (nb : Bool) (mask : Fin 16) (a b : Opnd) : Keeps (execMbrecv gd nb mask a b s) := by
  refine State.guardedOperands_keeps h fun _ t h => ?_
  split
  · exact State.roomFor_keeps h _ <|
      State.done_keeps (State.writeOpnd_memWf (State.writeOpnd_memWf (State.takeOne_memWf h _) ..) ..)
  · exact ite_keeps (State.roomFor_keeps h _ (State.done_keeps (State.writeOpnd_memWf (State.writeOpnd_memWf h ..) ..)))
      (State.park_keeps h _)

/-! ## Acceptance of copies -/

theorem State.record_keeps (va : Word) {k : Layout → Out} (hk : ∀ l, Keeps (k l)) : Keeps (s.record va k) := by
  unfold State.record
  split
  · refine ite_keeps (trap_keeps h ..) ?_
    split
    · exact trap_keeps h ..
    · exact hk _
  · exact trap_keeps h ..

theorem State.acceptCopy_keeps (ch : Fin 16) (a : Opnd) (p : Plan) : Keeps (s.acceptCopy ch a p) := by
  unfold State.acceptCopy
  extract_lets core asid t bad1 bad2
  generalize bad2 = o
  cases o with
  | some e => exact trap_keeps h ..
  | none =>
    exact ite_keeps (trap_keeps h ..) <| ite_keeps (trap_keeps h ..) <| roomFor_keeps h _ <|
      releaseSys_keeps h _ _ fun _ h => finish_keeps (by exact h) ..

theorem copyCommand_keeps (gd : Guard) (ch : Fin 16) (a : Opnd) (srcs : List Src) {k : List Word → State → Out}
    (hk : ∀ vs t, t.memWf → Keeps (k vs t)) : Keeps (copyCommand gd ch a srcs k s) :=
  State.guardedOperands_keeps h fun _ _ h => ite_keeps (State.park_keeps h _) (hk _ _ h)

theorem execDcopy_keeps (gd : Guard) (ch : Fin 16) (a : Opnd) (b c : Src) (len : BitVec 24) :
    Keeps (execDcopy gd ch a b c len s) :=
  copyCommand_keeps h _ _ _ _ fun _ _ h => ite_keeps (ite_keeps (State.trap_keeps h ..) (State.acceptCopy_keeps h ..)) <|
    ite_keeps (State.trap_keeps h ..) (State.acceptCopy_keeps h ..)

theorem execDfill_keeps (gd : Guard) (ch : Fin 16) (a : Opnd) (b c : Src) (len : BitVec 24) :
    Keeps (execDfill gd ch a b c len s) :=
  copyCommand_keeps h _ _ _ _ fun _ _ h => ite_keeps (State.trap_keeps h ..) (State.acceptCopy_keeps h ..)

theorem State.recordCopy_keeps (ch : Fin 16) (a : Opnd) (l d : Layout) (win : Option WinGeom) :
    Keeps (s.recordCopy ch a l d win) := by
  unfold State.recordCopy
  extract_lets core f g srcPad dstPad
  split
  · exact trap_keeps h ..
  · exact ite_keeps (trap_keeps h ..) (acceptCopy_keeps h ..)

theorem execDtile_keeps (gd : Guard) (ch : Fin 16) (a : Opnd) (b c : Src) : Keeps (execDtile gd ch a b c s) :=
  copyCommand_keeps h _ _ _ _ fun _ _ h => State.record_keeps h _ fun _ => State.record_keeps h _ fun _ =>
    ite_keeps (State.trap_keeps h ..) (State.recordCopy_keeps h ..)

theorem execDwin_keeps (gd : Guard) (ch : Fin 16) (a : Opnd) (b c : Src) (ty tx : Fin 16) (p0 : BitVec 16) :
    Keeps (execDwin gd ch a b c ty tx p0 s) :=
  copyCommand_keeps h _ _ _ _ fun _ _ h => State.record_keeps h _ fun _ => State.record_keeps h _ fun _ =>
    ite_keeps (State.trap_keeps h ..) (State.recordCopy_keeps h ..)

/-! ## Streaming: one piece, one element, one step -/

theorem State.acked_memWf (tids : List Nat) : (s.acked tids).memWf := h

theorem State.lateRelease_memWf (x : Transfer) (p : Piece) : (s.lateRelease x p).memWf :=
  State.ite_memWf (acked_memWf (State.memWf_of_mem h (s.loseLate_mem _)) _) h

theorem State.streamRead_memWf {x : Transfer} {orig : List Host.Cell} {va len : Nat} {r : List Byte × State}
    (hr : s.streamRead x orig va len = .ok r) : r.2.memWf := by
  unfold State.streamRead at hr
  split at hr
  · cases hr
  · rcases ite_eq_iff.1 hr with ⟨_, hr⟩ | ⟨_, hr⟩
    · cases hr
    · split at hr
      · cases hr
      · cases hr
        refine List.foldlRecOn (motive := fun (p : List Byte × State) => p.2.memWf) _ _
          (haveRead_memWf (lateRelease_memWf h ..) _) fun p h e _ => ?_
        dsimp only
        split
        · exact h
        · exact pick_memWf h 2

theorem State.streamWrite_memWf {x : Transfer} {va : Nat} {bs : List Byte} {t : State}
    (ht : s.streamWrite x va bs = .ok t) : t.memWf := by
  unfold State.streamWrite at ht
  split at ht
  · cases ht
  · cases ht
    exact copyWrite_memWf (lateRelease_memWf h ..) ..

theorem State.padScales_memWf {x : Transfer} {r o n : Nat} {t : State} (ht : s.padScales x r o n = .ok t) : t.memWf := by
  unfold State.padScales at ht
  split at ht
  · cases ht
    exact h
  · refine List.foldlRecOn (motive := fun (a : Except Stop State) => ∀ t, a = .ok t → t.memWf) _ _
      (fun t e => by cases e; exact h) (fun a ha b _ t e => ?_) t ht
    split at e
    · cases e
    · exact streamWrite_memWf (ha _ rfl) e

omit h in
theorem State.rawRead_memWf {s : State} (h : s.memWf) {x : Transfer} {orig : List Host.Cell} {n va room : Nat}
    {r : List Byte × State} (hr : s.rawRead x orig n va room = .ok r) : r.2.memWf := by
  induction n generalizing s va room r with
  | zero =>
    cases hr
    exact h
  | succ n ih =>
    unfold State.rawRead at hr
    dsimp only at hr
    split at hr
    · cases hr
    · next hb =>
      have hb := streamRead_memWf h hb
      split at hr
      · cases hr
        exact hb
      · split at hr
        · next hc =>
          cases hr
          exact (ih hb hc :)
        · cases hr
          exact hb

theorem State.rawStep_memWf {x : Transfer} {orig : List Host.Cell} {r o : Nat} {q : Nat × State}
    (hq : s.rawStep x orig r o = .ok q) : q.2.memWf := by
  unfold State.rawStep at hq
  extract_lets dst room at hq
  split at hq
  · obtain ⟨t, ht, rfl⟩ := exists_of_map_eq_ok hq
    exact streamWrite_memWf h ht
  · split at hq
    · split at hq
      · cases hq
      · next hw =>
        obtain ⟨t, ht, rfl⟩ := exists_of_map_eq_ok hq
        exact padScales_memWf (streamWrite_memWf h hw) ht
    · dsimp only at hq
      split at hq
      · cases hq
      · next hb =>
        obtain ⟨t, ht, rfl⟩ := exists_of_map_eq_ok hq
        exact streamWrite_memWf (rawRead_memWf h hb) ht

theorem State.streamElem_memWf {x : Transfer} {orig : List Host.Cell} {r e : Nat} {q : Option FVal × State}
    (hq : s.streamElem x orig r e = .ok q) : q.2.memWf := by
  unfold State.streamElem at hq
  split at hq
  · cases hq
    exact h
  · dsimp only at hq
    split at hq
    · cases hq
    · next hb =>
      have hb := streamRead_memWf h hb
      rcases ite_eq_iff.1 hq with ⟨_, hq⟩ | ⟨_, hq⟩
      · generalize hs : State.streamRead _ _ _ _ _ = c at hq
        cases c with
        | error => cases hq
        | ok c =>
          cases hq
          exact streamRead_memWf hb hs
      · cases hq
        exact hb

omit h in
theorem State.streamElems_memWf {s : State} (h : s.memWf) {x : Transfer} {orig : List Host.Cell} {r e n : Nat}
    {q : List (Option FVal) × State} (hq : s.streamElems x orig r e n = .ok q) : q.2.memWf := by
  induction n generalizing s e q with
  | zero =>
    cases hq
    exact h
  | succ n ih =>
    unfold State.streamElems at hq
    split at hq
    · obtain ⟨p, hp, rfl⟩ := exists_of_map_eq_ok hq
      exact (ih h hp :)
    · split at hq
      · cases hq
      · next he =>
        obtain ⟨p, hp, rfl⟩ := exists_of_map_eq_ok hq
        exact (ih (streamElem_memWf h he) hp :)

theorem State.convStep_memWf {x : Transfer} {orig : List Host.Cell} {tile ch r o : Nat} {q : Nat × State}
    (hq : s.convStep x orig tile ch r o = .ok q) : q.2.memWf := by
  unfold State.convStep at hq
  extract_lets ty unit i draw dst room e at hq
  split at hq
  · split at hq
    · cases hq
    · next hb =>
      dsimp only at hq
      split at hq
      · cases hq
      · next hw =>
        have hw := streamWrite_memWf (streamElems_memWf h hb) hw
        split at hq
        · cases hq
          exact hw
        · obtain ⟨t, ht, rfl⟩ := exists_of_map_eq_ok hq
          exact streamWrite_memWf hw ht
  · split at hq
    · cases hq
    · next he =>
      obtain ⟨t, ht, rfl⟩ := exists_of_map_eq_ok hq
      exact streamWrite_memWf (streamElem_memWf h he) ht

/-! ## Streaming: transfers -/

omit h in
theorem State.stream_memWf {s : State} (h : s.memWf) (orig : List Host.Cell) (tile ch fuel : Nat) (x : Transfer) :
    (s.stream orig tile ch fuel x).1.memWf := by
  induction fuel generalizing s x with
  | zero => exact h
  | succ fuel ih =>
    unfold State.stream
    split
    · exact h
    · extract_lets r o res
      have hres : ∀ n t, res = .ok (n, t) → t.memWf := by
        intro n t ht
        unfold res at ht
        split at ht
        · exact rawStep_memWf h ht
        · exact rawStep_memWf h ht
        · exact convStep_memWf h ht
      generalize res = y at hres ⊢
      cases y with
      | error => exact h
      | ok p => exact ih (hres _ _ rfl) _

omit h in
theorem State.streamSector_memWf {s : State} (h : s.memWf) (orig : List Host.Cell) (tile ch fuel : Nat) (x : Transfer) :
    (s.streamSector orig tile ch fuel x).1.memWf := by
  induction fuel generalizing s x with
  | zero => exact h
  | succ fuel ih =>
    have h1 := stream_memWf h orig tile ch 1 x
    unfold State.streamSector
    split
    · exact h
    · split
      · next he => exact ih (by rw [he] at h1; exact h1) _
      · next he => rw [he] at h1; exact h1

theorem State.runHead_memWf {tile ch fuel : Nat} {r : State × Transfer × Option Stop} (hr : s.runHead tile ch fuel = some r) :
    r.1.memWf := by
  unfold State.runHead at hr
  dsimp only at hr
  split at hr
  · cases hr
    exact stream_memWf h ..
  · cases hr

theorem State.streamMiss_memWf (x : Transfer) (va : Nat) : (s.streamMiss x va).memWf := miss_memWf (by exact h) ..

theorem State.headProgress_memWf (tile ch : Nat) (x : Transfer) (before : Nat) (f : Channel → Channel) :
    (s.headProgress tile ch x before f).memWf := h

theorem State.forget_memWf (who : Asker) : (s.forget who).memWf := h

theorem execTransferDone_keeps (tile ch : Nat) : Keeps (execTransferDone tile ch s) := by
  unfold execTransferDone
  split
  · next hr => exact keeps_next (State.headProgress_memWf (State.forget_memWf (State.runHead_memWf h hr) _) ..)
  · exact keeps_next (State.streamMiss_memWf h ..)
  · exact keeps_next h

theorem State.parkStream_memWf (tile ch : Nat) (x : Transfer) (before va code : Nat) :
    (s.parkStream tile ch x before va code).memWf := h

theorem execStreamFault_keeps (tile ch : Nat) : Keeps (execStreamFault tile ch s) := by
  unfold execStreamFault
  split
  · next hr => exact keeps_next (State.parkStream_memWf (State.runHead_memWf h hr) ..)
  · exact keeps_next (State.streamMiss_memWf h ..)
  · exact keeps_next h

theorem State.linkError_memWf (tile ch : Nat) : (s.linkError tile ch).memWf := by
  unfold State.linkError
  split
  · extract_lets p r
    generalize hr : r = o
    split
    · next t y =>
      have ht : t.memWf := by
        unfold r at hr
        split at hr
        · cases hr
          exact pick_memWf h _
        · exact runHead_memWf (pick_memWf h _) hr
      split
      · exact parkStream_memWf ht ..
      · exact h
    · exact h
  · exact h

theorem execSourceError_keeps (tile ch : Nat) : Keeps (execSourceError tile ch s) := by
  unfold execSourceError
  split
  · next hr => exact keeps_next (State.headProgress_memWf (State.runHead_memWf h hr) ..)
  · exact keeps_next (State.streamMiss_memWf h ..)
  · exact keeps_next h

/-! ## Waiting for copies and cancelling them -/

theorem execDwait_keeps (gd : Guard) (ch : Fin 16) (a : Opnd) (b : Src) : Keeps (execDwait gd ch a b s) := by
  refine State.guardedOperands_keeps h fun _ _ h => ite_keeps (State.trap_keeps h ..) ?_
  split
  · exact State.finish_keeps h ..
  · exact State.park_keeps h _

theorem execDstat_keeps (gd : Guard) (ch : Fin 16) (f : Fin 4) (a : Opnd) : Keeps (execDstat gd ch f a s) :=
  State.guardedOperands_keeps h fun _ _ h => State.finish_keeps h ..

theorem State.onChan_memWf (tile ch : Nat) (f : Channel → Channel) : (s.onChan tile ch f).memWf := h

theorem State.cancelChannel_memWf (tile ch t : Nat) : (s.cancelChannel tile ch t).memWf := by
  refine State.ite_memWf h (onChan_memWf ?_ ..)
  split
  · refine State.ite_memWf h ?_
    dsimp only
    split
    · exact headProgress_memWf (streamSector_memWf (stream_memWf (pick_memWf h _) ..) ..) ..
    · exact pick_memWf h _
    · exact pick_memWf h _
  · exact h

theorem execDcan_keeps (gd : Guard) (ch : Fin 16) (b : Src) : Keeps (execDcan gd ch b s) :=
  State.guardedOperands_keeps h fun _ _ h => State.done_keeps (State.cancelChannel_memWf h ..)

theorem execDcanResume_keeps (gd : Guard) (ch : Fin 16) : Keeps (execDcanResume gd ch s) :=
  State.guarded_keeps h _ _ (State.done_keeps (State.onChan_memWf h ..))

/-! ## Groups -/

theorem execGroupAgeLimit_keeps (group : Nat) : Keeps (execGroupAgeLimit group s) := by
  refine keeps_next ?_
  split
  · exact h
  · exact State.ite_memWf (State.placePass_memWf (State.reserveFor_memWf h ..) _) h

theorem execReservationExpires_keeps (group : Nat) : Keeps (execReservationExpires group s) := by
  refine keeps_next ?_
  split
  · exact h
  · refine State.ite_memWf h ?_
    split
    · exact h
    · dsimp only
      have hg := fun f => State.onGroup_memWf h group f
      split
      · exact foldl_keeps State.memWf _ (fun _ g h => State.savePreempted_memWf h g) _ (State.preemptGroups_memWf (hg _) _)
      · exact State.postEvent_memWf (hg _) ..

/-! ## Hurdles -/

theorem State.hurdleAccess_keeps (ea : Word) {k : List Piece → Out} (hk : ∀ ps, Keeps (k ps)) : Keeps (s.hurdleAccess ea k) :=
  checked_keeps h _ _ _ _ _ fun ps => ite_keeps (trap_keeps h ..) (hk ps)

theorem State.putHurdle_memWf (ps : List Piece) (x : Hurdle) : (s.putHurdle ps x).memWf := storePieces_memWf _ _ h

theorem execHinit_keeps (gd : Guard) (scope : Scope) (b c : Src) (disp : BitVec 24) : Keeps (execHinit gd scope b c disp s) :=
  State.guardedOperands_keeps h fun _ _ h => State.hurdleAccess_keeps h _ fun _ => State.writable_keeps h _ _ <|
    ite_keeps (State.trap_keeps h ..) <| State.votePoint_keeps h _ _ _ _ _ _ fun _ h => State.farThen_keeps h _ _ _ <|
      State.done_keeps (State.putHurdle_memWf h ..)

theorem execHarr_keeps (gd : Guard) (a : Fin 32) (b : Src) (disp : BitVec 24) : Keeps (execHarr gd a b disp s) :=
  State.guardedOperands_keeps h fun _ _ h => State.hurdleAccess_keeps h _ fun _ => State.writable_keeps h _ _ <|
    State.votePoint_keeps h _ _ _ _ _ _ fun _ h => State.farThen_keeps h _ _ _ <| State.readable_keeps h _ _ fun _ _ h =>
      ite_keeps (State.trap_keeps h ..) (State.doneRegs_keeps (State.putHurdle_memWf h ..) _)

theorem execHwait_keeps (gd : Guard) (a : Fin 32) (b : Src) (disp : BitVec 20) : Keeps (execHwait gd a b disp s) :=
  State.guardedOperands_keeps h fun _ _ h => State.hurdleAccess_keeps h _ fun _ => State.farThen_keeps h _ _ _ <|
    State.readable_keeps h _ _ fun _ _ h => ite_keeps (State.trap_keeps h ..) <| ite_keeps (State.done_keeps h)
      (State.park_keeps (State.onMe_memWf h _) _)

end

end Sys2Proof.Machine
end

section
/-! SUPPORT. Kernels, moves, filter windows and decode streams keep the canonical form of memory (log 6). -/

namespace Sys2Proof.Machine

open Sys2Proof

section

variable {s : State} (h : s.memWf)

include h

/-! ## Kernels and graphs -/

theorem State.withHandle_keeps (v : Word) {k : Nat → Out} (hk : ∀ n, Keeps (k n)) : Keeps (s.withHandle v k) := by
  unfold State.withHandle
  split
  · exact trap_keeps h ..
  · exact hk _

theorem State.descriptorAt_keeps (va : Word) {k : List Piece → Out} (hk : ∀ ps, Keeps (k ps)) : Keeps (s.descriptorAt va k) :=
  ite_keeps (trap_keeps h ..) <| withAccess_keeps h _ _ _ _ _ fun ps => ite_keeps (trap_keeps h ..) (hk ps)

theorem State.descriptor_keeps (va : Word) {k : List Byte → State → Out} (hk : ∀ bs t, t.memWf → Keeps (k bs t)) :
    Keeps (s.descriptor va k) :=
  descriptorAt_keeps h _ fun _ => farThen_keeps h _ _ _ (readable_keeps h _ _ hk)

theorem State.descriptors_keeps (d : Word) {k : Nat → Nat → State → Out} (hk : ∀ m n t, t.memWf → Keeps (k m n t)) :
    Keeps (s.descriptors d k) := by
  have hsecond : ∀ t : State, t.memWf → Keeps (t.descriptor (BitVec.ofNat 64 (bitsAt (t.keptDescriptor 1) 0 64)) fun bs s =>
      let s := s.onMe (·.gotDescriptor 2 bs)
      k (s.keptDescriptor 1) (s.keptDescriptor 2) s) :=
    fun t h => descriptor_keeps h _ fun _ _ h => hk _ _ _ (onMe_memWf h _)
  unfold State.descriptors
  extract_lets both second
  split
  · exact descriptor_keeps h _ fun _ _ h => hsecond _ (onMe_memWf h _)
  · exact hsecond s h
  · exact hk _ _ s h

theorem State.setCtx_memWf (a : Nat) (c : Option Ctx) : (s.setCtx a c).memWf := h

theorem State.addLaunch_memWf (asid graph : Nat) (k : Kernel) : (s.addLaunch asid graph k).1.memWf := by
  unfold State.addLaunch
  split
  · extract_lets node u r s1 x s2
    have h2 : s2.memWf := onUnit_memWf (setCtx_memWf h ..) ..
    split
    · exact work_memWf (completeUnit_memWf h2 ..) ..
    · exact work_memWf h2 ..
  · exact h

theorem execLaunch_keeps (gd : Guard) (a : Fin 32) (b : Src) (cnt : Option Src) : Keeps (execLaunch gd a b cnt s) := by
  refine State.guardedOperands_keeps h fun vs t h => ?_
  extract_lets asid d n
  split
  · exact State.trap_keeps h ..
  · exact State.trap_keeps h ..
  · have hvote : ∀ {k : State → Out}, (∀ u, u.memWf → Keeps (k u)) →
        Keeps (t.votePoint .releaseOnce true (onceRecord d 0xD8 (vs.take (if cnt.isSome then 2 else 1))) k) :=
      fun hk => State.votePoint_keeps h _ _ _ _ _ _ hk
    refine ite_keeps (hvote fun u h => ?_) (State.descriptorAt_keeps h _ fun _ => hvote fun u h => ?_)
    all_goals
      refine State.descriptors_keeps h _ fun _ _ _ h => ?_
      split
      · exact State.trap_keeps h ..
      · exact ite_keeps (State.trap_keeps h ..) <| ite_keeps (State.trap_keeps h ..) <| ite_keeps (State.park_keeps h _) <|
          State.doneRegs_keeps (State.addLaunch_memWf h ..) _

theorem execGsel_keeps (gd : Guard) (node : Fin 1024) (a : Fin 32) (b c : Src) : Keeps (execGsel gd node a b c s) := by
  refine State.guardedOperands_keeps h fun _ _ h => State.votePoint_keeps h _ _ _ _ _ _ fun _ h =>
    State.withHandle_keeps h _ fun _ => ?_
  split
  · exact State.trap_keeps h ..
  · exact ite_keeps (State.trap_keeps h ..) (State.doneRegs_keeps (State.onNode_memWf h ..) _)

theorem execCancel_keeps (gd : Guard) (b : Src) : Keeps (execCancel gd b s) :=
  State.guardedOperands_keeps h fun _ _ h => State.votePoint_keeps h _ _ _ _ _ _ fun _ h =>
    State.withHandle_keeps h _ fun _ => State.done_keeps (State.cancelUnit_memWf h ..)

theorem execCntrd_keeps (gd : Guard) (f : Fin 4) (a : Fin 32) (b : Src) : Keeps (execCntrd gd f a b s) :=
  State.guardedOperands_keeps h fun _ _ h => State.withHandle_keeps h _ fun _ => State.doneRegs_keeps h _

/-! ## Copy nodes -/

omit h in
theorem State.copyPieces_memWf {s : State} (h : s.memWf) (ps : List Piece) (bs : List Byte) : (s.copyPieces ps bs).memWf := by
  induction ps generalizing s bs with
  | nil => exact h
  | cons p ps ih => exact ih (copyWrite_memWf h ..) _

omit h in
theorem State.copyBytes_memWf {s : State} (h : s.memWf) (u : HostUnit) (fuel : Nat) (src dst : Word) (len : Nat) :
    (s.copyBytes u fuel src dst len).1.memWf := by
  induction fuel generalizing s src dst len with
  | zero => exact h
  | succ fuel ih =>
    unfold State.copyBytes
    split
    · exact h
    · dsimp only
      split
      · exact h
      · split
        · exact h
        · exact ih (copyPieces_memWf (haveRead_memWf h _) ..) ..

theorem State.copyNode_memWf (u : HostUnit) (body : Word) (r : CopyRec) : (s.copyNode u body r).1.memWf := by
  unfold State.copyNode
  split
  · exact h
  · dsimp only
    split
    · exact h
    · exact copyBytes_memWf h ..

theorem execCopyNodeDone_keeps (asid graph node : Nat) : Keeps (execCopyNodeDone asid graph node s) := by
  refine keeps_next (State.payJournals_memWf ?_)
  split
  · exact h
  · next x _ =>
    refine State.ite_memWf h ?_
    dsimp only
    split
    · next e =>
      split at e
      · cases e
      · exact (e ▸ State.copyRecord_memWf h _ _ :)
    · next u e =>
      have hu : u.memWf := by
        split at e
        · cases e
          exact h
        · exact (e ▸ State.copyRecord_memWf h _ _ :)
      split
      · next ht =>
        exact State.work_memWf (by exact (ht ▸ State.copyNode_memWf hu _ _ _ :)) ..
      · next ht =>
        exact State.ite_memWf (State.unitMiss_memWf hu ..)
          (State.work_memWf (State.postEvent_memWf (by exact (ht ▸ State.copyNode_memWf hu _ _ _ :)) ..) ..)

/-! ## Moves -/

theorem execMovi_keeps (a : Opnd) (imm : BitVec 48) : Keeps (execMovi a imm s) :=
  State.operands_keeps h _ _ _ fun _ _ h => State.finish_keeps h ..

theorem execMovhi_keeps (gd : Guard) (a : Fin 32) (imm : BitVec 16) : Keeps (execMovhi gd a imm s) :=
  State.guarded_keeps h _ _ (State.doneRegs_keeps h _)

theorem execPmovSet_keeps (p : Fin 16) (b : Src) : Keeps (execPmovSet p b s) :=
  State.operands_keeps h _ _ _ fun _ _ h => State.setPredDone_keeps h ..

theorem execPmovGet_keeps (a : Opnd) : Keeps (execPmovGet a s) :=
  State.operands_keeps h _ _ _ fun _ _ h => State.finish_keeps h ..

theorem execPmovPut_keeps (b : Src) : Keeps (execPmovPut b s) :=
  State.operands_keeps h _ _ _ fun _ _ h => State.done_keeps (State.onMe_memWf h _)

theorem execSel_keeps (gd : Guard) (a : Opnd) (m : Fin 16) (b c : Src) : Keeps (execSel gd a m b c s) :=
  State.guardedOperands_keeps h fun _ _ h => State.finish_keeps h ..

theorem execBfx_keeps (gd : Guard) (signed : Bool) (a : Opnd) (b : Src) (pos width1 : Fin 64) :
    Keeps (execBfx gd signed a b pos width1 s) :=
  State.guardedOperands_keeps h fun _ _ h => State.finish_keeps h ..

theorem execBfi_keeps (gd : Guard) (a : Opnd) (b c : Src) (pos width1 : Fin 64) : Keeps (execBfi gd a b c pos width1 s) :=
  State.guardedOperands_keeps h fun _ _ h => State.finish_keeps h ..

theorem execLea_keeps (gd : Guard) (a : Opnd) (addr : Addr) : Keeps (execLea gd a addr s) :=
  State.guardedOperands_keeps h fun _ _ h => State.finish_keeps h ..

theorem execMula_keeps (gd : Guard) (a : Fin 32) (b c : Src) : Keeps (execMula gd a b c s) :=
  State.guardedOperands_keeps h fun _ _ h => State.doneRegs_keeps h _

/-! ## Filter windows -/

theorem State.onWin_memWf (w : Nat) (f : WinSlot → WinSlot) : (s.onWin w f).memWf := h

theorem State.setWin_memWf (w : Nat) (win : Option Window) : (s.setWin w win).memWf := h

theorem closeWindow_keeps (w : Nat) (vs : List Word) : Keeps (closeWindow w vs s) :=
  State.votePoint_keeps h _ _ _ _ _ _ fun _ h => ite_keeps (State.trap_keeps h ..) (State.done_keeps (State.setWin_memWf h ..))

theorem State.openWindow_keeps (w : Nat) (ea : Word) (v : Nat) : Keeps (s.openWindow w ea v) := by
  unfold State.openWindow
  extract_lets x
  generalize (if recordReserved v || !x.fieldsOk then none else _ : Option Nat) = o
  cases o with
  | some a => exact parkMiss_keeps h _
  | none =>
    dsimp only
    split
    · exact trap_keeps h ..
    · exact done_keeps (setWin_memWf h ..)

theorem execFopen_keeps (gd : Guard) (w : Fin 256) (b : Src) : Keeps (execFopen gd w b s) :=
  State.guardedOperands_keeps h fun _ _ h => ite_keeps (closeWindow_keeps h ..) <| State.checked_keeps h _ _ _ _ _ fun _ =>
    State.votePoint_keeps h _ _ _ _ _ _ fun _ h => ite_keeps (State.trap_keeps h ..) <| State.farThen_keeps h _ _ _ <|
      State.readable_keeps h _ _ fun _ _ h => State.openWindow_keeps h ..

theorem execFopenClose_keeps (gd : Guard) (w : Fin 256) (sync : Bool) : Keeps (execFopenClose gd w sync s) :=
  State.guardedOperands_keeps h fun _ _ h => closeWindow_keeps h ..

/-! ## What an operation of a window reads and writes -/

theorem State.actRead_memWf {a : Actor} {va n : Nat} {r : Nat × State} (hr : s.actRead a va n = .ok r) : r.2.memWf := by
  obtain ⟨bs, -, rfl⟩ := exists_of_map_eq_ok hr
  exact engineSettled_memWf h ..

omit h in
/-- Where the step succeeds, it keeps the canonical form. -/
def KeepsOk (f : State → Except Code State) : Prop := ∀ ⦃s t⦄, s.memWf → f s = .ok t → t.memWf

omit h in
theorem State.actWrite_keepsOk (a : Actor) (va n v : Nat) : KeepsOk fun s => s.actWrite a va n v := by
  intro s t h ht
  obtain ⟨ps, -, rfl⟩ := exists_of_map_eq_ok ht
  exact enginePieceAll_memWf h ..

omit h in
theorem State.steps_keepsOk {fs : List (State → Except Code State)} (hfs : ∀ f ∈ fs, KeepsOk f) : KeepsOk fun s => s.steps fs := by
  induction fs with
  | nil =>
    intro s t h ht
    cases ht
    exact h
  | cons f fs ih =>
    intro s t h ht
    obtain ⟨hf, hfs⟩ := List.forall_mem_cons.1 hfs
    simp only [State.steps] at ht
    split at ht
    · cases ht
    · next hu => exact ih hfs (hf h hu) ht

omit h in
theorem State.putStream_keepsOk (a : Actor) (va clen len rctr rcommit : Nat) :
    KeepsOk fun s => s.putStream a va clen len rctr rcommit :=
  steps_keepsOk (List.forall_mem_cons.2 ⟨actWrite_keepsOk .., List.forall_mem_cons.2 ⟨actWrite_keepsOk ..,
    List.forall_mem_singleton.2 (actWrite_keepsOk ..)⟩⟩)

omit h in
theorem State.appendToken_keepsOk (a : Actor) (va : Word) (x : Stream) (t : Nat) : KeepsOk fun s => s.appendToken a va x t := by
  intro s u h hu
  simp only [State.appendToken] at hu
  split at hu
  · cases hu
  · exact steps_keepsOk (List.forall_mem_cons.2 ⟨actWrite_keepsOk .., List.forall_mem_singleton.2 (putStream_keepsOk ..)⟩) h hu

theorem State.rowCheck_keeps (w : Nat) (row : Word) {k : Window → Out} (hk : ∀ x, Keeps (k x)) : Keeps (s.rowCheck w row k) := by
  unfold State.rowCheck
  split
  · exact trap_keeps h ..
  · exact ite_keeps (trap_keeps h ..) (ite_keeps (trap_keeps h ..) (hk _))

theorem State.queueFilter_keeps (w : Nat) (op : FilterOp) (reg : Nat) : Keeps (s.queueFilter w op reg) :=
  keeps_next (onUs_memWf (onWin_memWf h ..) _)

theorem execFshort_keeps (gd : Guard) (reset nb : Bool) (a : Fin 32) (w : Fin 256) (b c : Src) :
    Keeps (execFshort gd reset nb a w b c s) :=
  State.guardedOperands_keeps h fun _ _ h => State.rowCheck_keeps h _ _ fun _ => ite_keeps (State.trap_keeps h ..) <|
    State.withAccess_keeps h _ _ _ _ _ fun _ => ite_keeps (State.trap_keeps h ..) <| State.writable_keeps h _ _ <|
      State.queueFilter_keeps h ..

theorem State.recordAccess_keeps (va : Word) {k : List Piece → Out} (hk : ∀ ps, Keeps (k ps)) : Keeps (s.recordAccess va k) :=
  ite_keeps (trap_keeps h ..) <| withAccess_keeps h _ _ _ _ _ fun ps => ite_keeps (trap_keeps h ..) <|
    writable_keeps h _ _ (hk ps)

theorem State.fails_keeps (e : Code) : Keeps (s.fails e) :=
  ite_keeps (await_keeps h _ (parkWalk_keeps h _)) (trap_keeps h ..)

theorem State.pickIssue_keeps (reset nb stream : Bool) (a w : Nat) (vs : List Word) :
    Keeps (s.pickIssue reset nb stream a w vs) := by
  unfold State.pickIssue
  refine votePoint_keeps h _ _ _ _ _ _ fun t h => ?_
  refine rowCheck_keeps h _ _ fun x => ?_
  generalize (if stream then t.pickCheck w (arg vs 0).toNat x (arg vs 1) else .ok ()) = o
  cases o with
  | error e => exact fails_keeps h e
  | ok => exact queueFilter_keeps h ..

theorem execFpick_keeps (gd : Guard) (reset nb : Bool) (a : Fin 32) (w : Fin 256) (b c : Src) :
    Keeps (execFpick gd reset nb a w b c s) :=
  State.guardedOperands_keeps h fun _ _ h => ite_keeps (State.pickIssue_keeps h ..) <|
    State.recordAccess_keeps h _ fun _ => State.pickIssue_keeps h ..

/-! ## How an operation of a window ends -/

theorem State.deliverAll_memWf (tids : List Nat) (reg : Nat) (v : Word) : (s.deliverAll tids reg v).memWf :=
  foldl_keeps State.memWf _ (fun _ _ h => deliver_memWf h ..) _ h

theorem State.pickDone_memWf {n : Nat} {w : Window} {r : Row} {op : FilterOp} {flags : Nat} {t : State}
    (ht : s.pickDone n w r op flags = .ok t) : t.memWf := by
  unfold State.pickDone at ht
  extract_lets x tids give at ht
  split at ht
  · cases ht
    exact deliverAll_memWf (foldl_keeps State.memWf _ (fun _ _ h => by exact h) _ h) ..
  · dsimp only at ht
    split at ht
    · cases ht
    · obtain ⟨u, hu, rfl⟩ := exists_of_map_eq_ok ht
      exact deliverAll_memWf (appendToken_keepsOk _ _ _ _ h hu) ..

theorem State.shortDone_memWf {n owner : Nat} {op : FilterOp} {flags : Nat} {record : List Nat} {len : Nat} {t : State}
    (ht : s.shortDone n owner op flags record len = .ok t) : t.memWf := by
  unfold State.shortDone at ht
  dsimp only at ht
  split at ht
  · cases ht
  · obtain ⟨u, hu, rfl⟩ := exists_of_map_eq_ok ht
    split at hu
    · exact deliver_memWf (engineWriteWords_memWf h _ _ _ _ _ hu) ..
    · exact deliver_memWf (engineWriteWords_memWf h _ _ _ _ _ hu) ..

theorem State.resetIf_memWf (w : Nat) (op : FilterOp) : (s.resetIf w op).memWf := State.ite_memWf (onWin_memWf h ..) h

theorem State.filterOpen_memWf {n : Nat} {w : Window} {op : FilterOp} {t : State} (ht : s.filterOpen n w op = .ok t) :
    t.memWf := by
  have hr := resetIf_memWf h n op
  unfold State.filterOpen at ht
  dsimp only at ht
  split at ht
  · exact shortDone_memWf hr ht
  · split at ht
    · cases ht
      exact deliverAll_memWf hr ..
    · exact pickDone_memWf hr ht

theorem State.filterClosed_memWf {n : Nat} {op : FilterOp} {t : State} (ht : s.filterClosed n op = .ok t) : t.memWf := by
  unfold State.filterClosed at ht
  dsimp only at ht
  split at ht
  · cases ht
    exact deliverAll_memWf h ..
  · exact shortDone_memWf h ht

theorem State.filterFails_memWf (op : FilterOp) (e : Code) : (s.filterFails op e).memWf := by
  have hp : (op.receivers.foldl (fun s t => s.pendTid t e.1 e.taddr) s).memWf :=
    foldl_keeps State.memWf _ (fun _ _ h => pendTid_memWf h ..) _ h
  exact State.ite_memWf (foldl_keeps State.memWf _ (fun _ _ h => by exact h) _ hp) (deliverAll_memWf hp ..)

theorem execFilterOperationCompletes_keeps (w index : Nat) : Keeps (execFilterOperationCompletes w index s) := by
  refine keeps_next (State.ite_memWf h ?_)
  split
  · exact h
  · next op closed _ =>
    extract_lets t r
    have ht : t.memWf := State.onWin_memWf h ..
    have hr : ∀ u, r = .ok u → u.memWf := by
      intro u hu
      unfold r at hu
      split at hu
      · split at hu
        · exact State.filterClosed_memWf ht hu
        · exact State.filterOpen_memWf ht hu
      · exact State.filterClosed_memWf ht hu
    generalize r = o at hr ⊢
    cases o with
    | ok u => exact State.forget_memWf (hr u rfl) _
    | error e => exact State.ite_memWf (State.engineMiss_memWf h ..) (State.forget_memWf (State.filterFails_memWf ht ..) _)

theorem State.finishRows_memWf : s.finishRows.memWf := by
  refine foldl_keeps State.memWf _ (fun s e h => ?_) _ h
  split
  · exact h
  · refine foldl_keeps State.memWf _ (fun s r h => ?_) _ h
    split
    · exact miss_memWf h ..
    · exact h

theorem execRand_keeps (gd : Guard) (f : Bool) (a : Fin 32) : Keeps (execRand gd f a s) :=
  State.guarded_keeps h _ _ (State.doneRegs_keeps (State.onMe_memWf h _) _)

end

/-! ## Decode streams -/

theorem State.quarantine_keepsOk (a : Actor) (ring page : Nat) : KeepsOk fun s => s.quarantine a ring page := by
  intro s t h ht
  simp only [State.quarantine] at ht
  split at ht
  · cases ht
  · next h1 =>
    split at ht
    · cases ht
    · next h2 =>
      split at ht
      · cases ht
      · exact steps_keepsOk (List.forall_mem_cons.2 ⟨actWrite_keepsOk .., List.forall_mem_singleton.2 (actWrite_keepsOk ..)⟩)
          (actRead_memWf (actRead_memWf h h1) h2) ht

theorem State.dropPage_memWf {s : State} (h : s.memWf) {a : Actor} {x : Stream} {k : Nat} {r : State × Nat}
    (hr : s.dropPage a x k = .ok r) : r.1.memWf := by
  have hq : ∀ c page, KeepsOk fun s => if c = 0 then s.quarantine a x.qring page else .ok s := by
    intro c page s t h ht
    dsimp only at ht
    split at ht
    · exact quarantine_keepsOk _ _ _ h ht
    · cases ht
      exact h
  unfold State.dropPage at hr
  split at hr
  · cases hr
  · next h1 =>
    have h1 := actRead_memWf h h1
    split at hr
    · cases hr
      exact h1
    · split at hr
      · cases hr
      · cases hr
      · next h2 =>
        obtain ⟨t, ht, rfl⟩ := exists_of_map_eq_ok hr
        exact steps_keepsOk (List.forall_mem_cons.2 ⟨actWrite_keepsOk .., List.forall_mem_cons.2 ⟨hq ..,
          List.forall_mem_singleton.2 (actWrite_keepsOk ..)⟩⟩) (actRead_memWf h1 h2) ht

theorem State.dropPages_memWf {s : State} (h : s.memWf) {a : Actor} {x : Stream} {ks : List Nat} {n : Nat} {r : State × Nat}
    (hr : s.dropPages a x ks n = .ok r) : r.1.memWf := by
  induction ks generalizing s n with
  | nil =>
    cases hr
    exact h
  | cons k ks ih =>
    simp only [State.dropPages] at hr
    split at hr
    · cases hr
    · next hp => exact ih (dropPage_memWf h hp) hr

theorem State.truncate_memWf {s : State} (h : s.memWf) {a : Actor} {va l : Word} {commit : Bool} {r : State × Nat}
    (hr : s.truncate a va l commit = .ok r) : r.1.memWf := by
  unfold State.truncate at hr
  split at hr
  · cases hr
  · dsimp only at hr
    split at hr
    · cases hr
    · split at hr
      · cases hr
      · next hd =>
        obtain ⟨u, hu, rfl⟩ := exists_of_map_eq_ok hr
        exact putStream_keepsOk _ _ _ _ _ _ (dropPages_memWf h hd) hu

theorem streamOnce_keeps {s : State} (h : s.memWf) (op : Nat) (a : Fin 32) (ea : Word) (ps : List Piece) (vs : List Word)
    {f : Actor → Word → Word → State → Except Code (State × Nat)}
    (hf : ∀ act x y t r, t.memWf → f act x y t = .ok r → r.1.memWf) : Keeps (streamOnce op a ea ps vs f s) := by
  refine State.votePoint_keeps h _ _ _ _ _ _ fun t h => State.farThen_keeps h _ _ _ ?_
  split
  · exact State.fails_keeps h _
  · next hr => exact State.doneRegs_keeps (hf _ _ _ _ _ h hr) _

theorem execKvtrunc_keeps {s : State} (h : s.memWf) (gd : Guard) (commit : Bool) (a : Fin 32) (b c : Src) :
    Keeps (execKvtrunc gd commit a b c s) :=
  State.guardedOperands_keeps h fun _ _ h => State.recordAccess_keeps h _ fun _ =>
    streamOnce_keeps h _ _ _ _ _ fun _ _ _ _ _ h hr => State.truncate_memWf h hr

theorem State.sharePages_keepsOk (a : Actor) (x y : Stream) (ks : List Nat) : KeepsOk fun s => s.sharePages a x y ks := by
  induction ks with
  | nil =>
    intro s t h ht
    cases ht
    exact h
  | cons k ks ih =>
    intro s t h ht
    simp only [State.sharePages] at ht
    split at ht
    · cases ht
    · next hp =>
      have hp := actRead_memWf h hp
      split at ht
      · cases ht
      · next hr =>
        refine ih ?_ ht
        split at hr
        · exact actWrite_keepsOk _ _ _ _ hp hr
        · split at hr
          · cases hr
          · next hc =>
            split at hr
            · cases hr
            · exact steps_keepsOk (List.forall_mem_cons.2 ⟨actWrite_keepsOk .., List.forall_mem_singleton.2
                (actWrite_keepsOk ..)⟩) (actRead_memWf hp hc) hr

theorem State.copyWords_keepsOk (a : Actor) (src dst n : Nat) : KeepsOk fun s => s.copyWords a src dst n := by
  induction n generalizing src dst with
  | zero =>
    intro s t h ht
    cases ht
    exact h
  | succ n ih =>
    intro s t h ht
    simp only [State.copyWords] at ht
    split at ht
    · cases ht
    · next hv =>
      split at ht
      · cases ht
      · next hw => exact ih _ _ (actWrite_keepsOk _ _ _ _ (actRead_memWf h hv) hw) ht

theorem State.copySpare_keepsOk (a : Actor) (x y : Stream) (f : Nat) : KeepsOk fun s => s.copySpare a x y f := by
  intro s t h ht
  dsimp only at ht
  unfold State.copySpare at ht
  have hread : ∀ (s : State) (b : Actor) (va n : Nat) r, s.memWf → s.actRead b va n = .ok r → r.2.memWf :=
    fun _ _ _ _ _ h hr => actRead_memWf h hr
  -- what a read does plays no further part: with a name for it, the kernel does not unfold it to see how a match on it goes on
  obtain ⟨read, e⟩ : ∃ read, State.actRead = read := ⟨_, rfl⟩
  rw [e] at ht hread
  split at ht
  · cases ht
  · next h1 =>
    split at ht
    · cases ht
    · next h2 =>
      split at ht
      · cases ht
      · next h3 =>
        split at ht
        · cases ht
        · exact steps_keepsOk (List.forall_mem_cons.2 ⟨copyWords_keepsOk .., List.forall_mem_singleton.2
            (actWrite_keepsOk ..)⟩) (hread _ _ _ _ _ (hread _ _ _ _ _ (hread _ _ _ _ _ h h1) h2) h3) ht

theorem State.clearEntries_keepsOk (a : Actor) (ptab : Nat) (ks : List Nat) : KeepsOk fun s => s.clearEntries a ptab ks := by
  induction ks with
  | nil =>
    intro s t h ht
    cases ht
    exact h
  | cons k ks ih =>
    intro s t h ht
    simp only [State.clearEntries] at ht
    split at ht
    · cases ht
    · next hw => exact ih (actWrite_keepsOk _ _ _ _ h hw) ht

theorem State.childRecord_keepsOk (a : Actor) (parent child : Nat) (x : Stream) :
    KeepsOk fun s => s.childRecord a parent child x :=
  steps_keepsOk (List.forall_mem_cons.2 ⟨copyWords_keepsOk .., List.forall_mem_cons.2 ⟨copyWords_keepsOk ..,
    List.forall_mem_singleton.2 (putStream_keepsOk ..)⟩⟩)

theorem State.fork_memWf {s : State} (h : s.memWf) {a : Actor} {va child : Word} {r : State × Nat}
    (hr : s.fork a va child = .ok r) : r.1.memWf := by
  have hspare : ∀ (p : Bool) x y f, KeepsOk fun s => if p then s.copySpare a x y f else .ok s := by
    intro p x y f s t h ht
    dsimp only at ht
    split at ht
    · exact copySpare_keepsOk _ _ _ _ h ht
    · cases ht
      exact h
  unfold State.fork at hr
  split at hr
  · cases hr
  · cases hr
  · split at hr
    · cases hr
    · obtain ⟨t, ht, rfl⟩ := exists_of_map_eq_ok hr
      exact steps_keepsOk (List.forall_mem_cons.2 ⟨sharePages_keepsOk .., List.forall_mem_cons.2 ⟨hspare ..,
        List.forall_mem_cons.2 ⟨clearEntries_keepsOk .., List.forall_mem_singleton.2 (childRecord_keepsOk ..)⟩⟩⟩) h ht

theorem execSfork_keeps {s : State} (h : s.memWf) (gd : Guard) (a : Fin 32) (b c : Src) : Keeps (execSfork gd a b c s) :=
  State.guardedOperands_keeps h fun _ _ h => State.recordAccess_keeps h _ fun _ => State.recordAccess_keeps h _ fun _ =>
    streamOnce_keeps h _ _ _ _ _ fun _ _ _ _ _ h hr => State.fork_memWf h hr

end Sys2Proof.Machine
end

section
/-! SUPPORT. Page walks, pens and contexts keep the canonical form of memory (log 6). -/

namespace Sys2Proof.Machine

open Sys2Proof

section

variable {s : State} (h : s.memWf)

include h

/-! ## Page walks and translations -/

theorem State.trapAt_memWf (n code : Nat) (va : Word) : (s.trapAt n code va).memWf := by
  have ht : Keeps (({ s with agent := n } : State).trap code va) := trap_keeps (by exact h) ..
  unfold State.trapAt
  split
  · next e => exact (ht.mem _ e :)
  · exact h

theorem execPageWalkCompletes_keeps (die asid vpage : Nat) : Keeps (execPageWalkCompletes die asid vpage s) := by
  refine keeps_next ?_
  split
  · exact h
  · dsimp only
    split
    · exact h
    · exact foldl_keeps State.memWf _ (fun _ e h => State.trapAt_memWf h ..) _ (by exact h)

theorem State.sync_memWf (kind : SyncKind) (b : Word) : (s.sync kind b).memWf := h

theorem execPtsync_keeps (gd : Guard) (kind : SyncKind) (a : Fin 32) (b : Src) : Keeps (execPtsync gd kind a b s) :=
  State.guarded_keeps h _ _ <| ite_keeps (State.trap_keeps h ..) <| State.operands_keeps h _ _ _ fun _ _ h =>
    State.doneRegs_keeps (State.sync_memWf h ..) _

theorem execQwait_keeps (gd : Guard) (a : Fin 32) (b : Src) : Keeps (execQwait gd a b s) :=
  State.guardedOperands_keeps h fun _ _ h => ite_keeps (State.doneRegs_keeps h _) (State.park_keeps h _)

theorem execQwaitNow_keeps (gd : Guard) (a : Fin 32) : Keeps (execQwaitNow gd a s) := by
  refine State.guarded_keeps h _ _ ?_
  extract_lets e t
  have ht : t.memWf := State.ite_memWf (by exact h) h
  exact ite_keeps (State.doneRegs_keeps ht _) (State.park_keeps ht _)

/-! ## Pens and musters -/

theorem State.sendMessage_memWf (tid pkg : Nat) (adr : Word) (m : List Word) : (s.sendMessage tid pkg adr m).memWf := by
  unfold State.sendMessage
  split
  · exact h
  · exact State.post_memWf _ _ h

theorem State.penReply_memWf (a : PenAddr) : (s.penReply a).2.memWf := by
  unfold State.penReply
  split
  · split
    · exact h
    · exact pick_memWf h 5
  · split
    · exact h
    · exact h

theorem State.appendMsg_memWf (a : PenAddr) (m : List Word) : (s.appendMsg a m).memWf := State.ite_memWf h h

theorem State.refused_keeps (w : Wait) : Keeps (s.refused w) := keeps_next (onMe_memWf h _)

theorem State.psendReply_keeps (nb : Option Opnd) (adr : Word) (m : List Word) (r : PenReply) :
    Keeps (s.psendReply nb adr m r) := by
  unfold State.psendReply
  extract_lets a retry answer
  have hretry : Keeps (retry s) := refused_keeps (onMe_memWf h _) _
  have hanswer : ∀ t : State, t.memWf → ∀ v, Keeps (answer t v) := by
    intro t ht v
    unfold answer
    split
    · exact finish_keeps ht ..
    · exact done_keeps ht
  split
  · exact hanswer _ (appendMsg_memWf h ..) _
  · exact trap_keeps h ..
  · exact hretry
  · exact ite_keeps (hanswer s h _) (trap_keeps h ..)
  · exact ite_keeps (hanswer s h _) (ite_keeps hretry (refused_keeps h _))

theorem State.psendAnswer_keeps (nb : Option Opnd) (adr : Word) (m : List Word) : Keeps (s.psendAnswer nb adr m) :=
  psendReply_keeps (penReply_memWf h _) ..

theorem State.sendRemote_memWf (n : Nat) (adr : Word) (m : List Word) : (s.sendRemote n adr m).memWf :=
  State.ite_memWf h (sendMessage_memWf (by exact h) ..)

theorem State.psendLeave_keeps (nb : Option Opnd) (adr : Word) (m : List Word) : Keeps (s.psendLeave nb adr m) := by
  unfold State.psendLeave
  exact roomFor_keeps h _ <| ite_keeps (psendAnswer_keeps h ..) (park_keeps (onMe_memWf (sendRemote_memWf h ..) _) _)

theorem execPsend_keeps (gd : Guard) (a : Fin 32) (b : Src) (nb : Option Opnd) : Keeps (execPsend gd a b nb s) :=
  State.guardedOperands_keeps h fun _ _ h => ite_keeps (State.trap_keeps h ..) <| State.votePoint_keeps h _ _ _ _ _ _ fun _ h =>
    State.releaseSys_keeps h _ _ fun _ h => State.psendLeave_keeps h ..

theorem execPenMessageArrives_keeps (slot : Nat) : Keeps (execPenMessageArrives slot s) := by
  unfold execPenMessageArrives
  dsimp only
  split
  · exact ite_keeps (State.psendAnswer_keeps (State.onMe_memWf (by exact h) _) ..) (keeps_next h)
  · exact keeps_next h

theorem execPsendRetry_keeps (slot : Nat) : Keeps (execPsendRetry slot s) := by
  unfold execPsendRetry
  dsimp only
  split
  · exact ite_keeps (keeps_next (by exact State.sendRemote_memWf h ..)) (keeps_next h)
  · exact keeps_next h

theorem execPdef_keeps (gd : Guard) (m prio : Fin 16) (b : Src) (target : BitVec 24) : Keeps (execPdef gd m prio b target s) :=
  State.guarded_keeps h _ _ <| State.notReplica_keeps h <| State.operands_keeps h _ _ _ fun _ _ h =>
    ite_keeps (State.trap_keeps h ..) (State.done_keeps (by exact h))

theorem execMusterArbitration_keeps (core : Nat) : Keeps (execMusterArbitration core s) := by
  unfold execMusterArbitration
  extract_lets n c live
  refine ite_keeps (keeps_next h) ?_
  split
  · exact keeps_next h
  · exact keeps_next h

theorem execPen_keeps (gd : Guard) (nb : Bool) (p a : Fin 32) (b : Opnd) : Keeps (execPen gd nb p a b s) := by
  refine State.guarded_keeps h _ _ <| State.notReplica_keeps h <| State.operands_keeps h _ _ _ fun _ t h => ?_
  split
  · exact ite_keeps (State.finish_keeps h ..) (State.park_keeps h _)
  · exact State.roomFor_keeps h _ (State.finish_keeps (State.onMe_memWf (by exact h) _) ..)

theorem execPcfgMode_keeps (gd : Guard) (fault ext : Bool) (p : Fin 32) : Keeps (execPcfgMode gd fault ext p s) :=
  State.guarded_keeps h _ _ <| State.notReplica_keeps h <| State.done_keeps (by exact h)

theorem execPcfgDrain_keeps (gd : Guard) (p : Fin 32) (a : Opnd) : Keeps (execPcfgDrain gd p a s) :=
  State.guarded_keeps h _ _ <| State.notReplica_keeps h <| State.operands_keeps h _ _ _ fun _ _ h =>
    State.roomFor_keeps h _ (State.finish_keeps (by exact h) ..)

theorem execPpeek_keeps (gd : Guard) (f : Fin 6) (p : Fin 32) (a : Opnd) : Keeps (execPpeek gd f p a s) :=
  State.guardedOperands_keeps h fun _ _ h => State.finish_keeps h ..

/-! ## Contexts: tiles -/

/-- A tile that is cleared loses its memories: what is left of memory is a part of it in the same order. -/
theorem State.clearTile_memWf (t : Nat) : (s.clearTile t).memWf := wf_filter _ h

theorem State.onTile_memWf (t : Nat) (f : Tile → Tile) : (s.onTile t f).memWf := h

theorem State.onCores_memWf (cs : List Nat) (f : State → Core → Core) : (cs.foldl (fun s c => s.onCore c (f s)) s).memWf :=
  foldl_keeps State.memWf _ (fun _ _ h => by exact h) _ h

theorem State.haltCtx_memWf (a : Nat) : (s.haltCtx a).memWf := by
  unfold State.haltCtx
  split
  · exact h
  · extract_lets s1 s2
    have h1 : s1.memWf := onCtx_memWf (by exact h) ..
    have h2 : s2.memWf := haltSlots_memWf h1 _
    exact h2

theorem State.saveTile_memWf (a t : Nat) : (s.saveTile a t).memWf :=
  onTile_memWf (clearTile_memWf (onCtx_memWf h ..) t) ..

theorem State.refill_memWf (t : Nat) (p : LoftPage) : (s.refill t p).memWf := by
  unfold State.refill
  split
  · exact h
  · next e => exact onTile_memWf (fillPage_memWf h e) ..

/-- The bytes of a saved image are written one by one. -/
theorem State.restoreTile_memWf (a t : Nat) (i : Image) : (s.restoreTile a t i).memWf := foldl_memSet_wf i.mem h

theorem State.refillAll_memWf (c : Ctx) : (s.refillAll c).memWf :=
  foldl_keeps State.memWf _ (fun _ _ h => foldl_keeps State.memWf _ (fun _ p h => refill_memWf h _ p) _ h) _ h

theorem State.assignTile_memWf (a : Nat) (r : CtxRec) (t : Nat) : (s.assignTile a r t).memWf := by
  unfold State.assignTile
  extract_lets s1 s2 s3
  have h1 : s1.memWf := State.ite_memWf h (clearTile_memWf h t)
  have h3 : s3.memWf := foldl_keeps State.memWf _ (fun _ _ h => by exact h) _ (onTile_memWf h1 ..)
  exact onCores_memWf h3 _ fun s x => { x with restart := some s.clock }

theorem State.assign_memWf (a : Nat) : (s.assign a).memWf := onCtx_memWf h ..

theorem State.assignIdle_memWf (last : Nat) : (s.assignIdle last).memWf := by
  refine foldl_keeps State.memWf _ (fun s e h => ?_) _ h
  split
  · exact State.ite_memWf h <| State.ite_memWf (State.ite_memWf h (assign_memWf h _)) <| State.ite_memWf h (assign_memWf h _)
  · exact h

theorem State.cancelAll_memWf (a : Nat) (c : Ctx) : (s.cancelAll a c).memWf :=
  foldl_keeps State.memWf _ (fun _ _ h => State.ite_memWf h (journalEnd_memWf h ..)) _ h

theorem State.teardown_memWf (a : Nat) : (s.teardown a).memWf := by
  unfold State.teardown
  split
  · exact h
  · extract_lets s1 s2 s3
    have h1 : s1.memWf := sync_memWf (cancelAll_memWf (onCtx_memWf h ..) ..) ..
    have h2 : s2.memWf := foldl_keeps State.memWf _ (fun _ t h => State.ite_memWf (clearTile_memWf h t) h) _ h1
    have h3 : s3.memWf := h2
    exact assignIdle_memWf (payJournals_memWf (onCtx_memWf h3 ..)) a

/-! ## Contexts: swaps -/

theorem execSliceExpires_keeps (asid : Nat) : Keeps (execSliceExpires asid s) := by
  refine keeps_next ?_
  split
  · exact h
  · exact State.ite_memWf h (State.haltCtx_memWf (State.onCtx_memWf h ..) _)

theorem execHaltComplete_keeps (asid : Nat) : Keeps (execHaltComplete asid s) := by
  refine keeps_next ?_
  split
  · exact h
  · refine State.ite_memWf h ?_
    extract_lets next_ s1 s2 s3
    have h1 : s1.memWf := foldl_keeps State.memWf _ (fun _ g h => State.savePreempted_memWf h g) _ h
    have h2 : s2.memWf := foldl_keeps State.memWf _ (fun _ t h => State.saveTile_memWf h asid t) _ h1
    have h3 : s3.memWf := State.onCtx_memWf h2 ..
    generalize next_ = l
    cases l with
    | cons b => exact State.ite_memWf h3 (State.assign_memWf h3 b)
    | nil => exact State.ite_memWf h3 h3

theorem State.landTiles_memWf (a : Nat) (c : Ctx) : (s.landTiles a c).memWf :=
  foldl_keeps State.memWf _ (fun _ _ h => State.ite_memWf (restoreTile_memWf h ..) (assignTile_memWf h ..)) _ h

theorem State.swapIn_memWf (a : Nat) (c : Ctx) : (s.swapIn a c).memWf := by
  unfold State.swapIn
  extract_lets s1 s2 s3 s4
  have h1 : s1.memWf := landTiles_memWf h ..
  have h2 : s2.memWf := State.ite_memWf (foldl_keeps State.memWf _ (fun _ t h => grant_memWf h t) _ (refillAll_memWf h1 c)) h1
  have h3 : s3.memWf := onCtx_memWf h2 ..
  have h4 : s4.memWf := h3
  exact State.ite_memWf (teardown_memWf h1 a) <| State.ite_memWf (haltCtx_memWf (onCtx_memWf h4 ..) a)
    (foldl_keeps State.memWf _ (fun _ d h => placePass_memWf h d) _ h4)

theorem execSwapComplete_keeps (asid : Nat) : Keeps (execSwapComplete asid s) := by
  refine keeps_next ?_
  split
  · exact h
  · split
    · refine State.ite_memWf h ?_
      dsimp only
      split
      · exact State.swapIn_memWf h ..
      · exact h
    · exact State.ite_memWf (State.teardown_memWf h _) (State.assignIdle_memWf (State.onCtx_memWf h ..) _)
    · exact h
    · exact h
    · exact h
    · exact h

theorem State.destroyCtx_memWf (a : Nat) (c : Ctx) : (s.destroyCtx a c).memWf := by
  unfold State.destroyCtx
  split
  · exact teardown_memWf h a
  · exact onCtx_memWf h ..
  · exact onCtx_memWf h ..
  · exact onCtx_memWf h ..
  · exact haltCtx_memWf (onCtx_memWf h ..) a
  · exact h

theorem State.haltRequest_memWf (a : Nat) : (s.haltRequest a).memWf := by
  unfold State.haltRequest
  split
  · exact h
  · dsimp only
    split
    · exact haltCtx_memWf (onCtx_memWf h ..) a
    · exact onCtx_memWf h ..
    · exact h
    · exact h
    · exact h
    · exact h

theorem State.restoreRequest_memWf (a : Nat) : (s.restoreRequest a).memWf := assignIdle_memWf (onCtx_memWf h ..) _

end

end Sys2Proof.Machine
end

section
/-! SUPPORT. Host queues and replica sets keep the canonical form of memory (log 6). -/

namespace Sys2Proof.Machine

open Sys2Proof

section

variable {s : State} (h : s.memWf)

include h

/-! ## Queues and their records -/

theorem State.barAccess_keeps {k : State} (hk : k.memWf) : Keeps (s.barAccess k) := keeps_next (State.ite_memWf hk h)

theorem State.onQueue_memWf (q : Nat) (f : HQueue → HQueue) : (s.onQueue q f).memWf := h

theorem State.writeQwp_memWf (queue : Nat) (v : BitVec 32) : (s.writeQwp queue v).memWf :=
  State.ite_memWf h (onQueue_memWf h ..)

theorem State.writeEvrp_memWf (queue : Nat) (v : BitVec 32) : (s.writeEvrp queue v).memWf :=
  State.ite_memWf h (onQueue_memWf h ..)

theorem execQwpWrite_keeps (queue : Nat) (v : BitVec 32) : Keeps (execQwpWrite queue v s) :=
  State.barAccess_keeps h (State.writeQwp_memWf h ..)

theorem execEvrpWrite_keeps (queue : Nat) (v : BitVec 32) : Keeps (execEvrpWrite queue v s) :=
  State.barAccess_keeps h (State.writeEvrp_memWf h ..)

theorem State.setJhead_memWf (q : Nat) (n : Word) : (s.setJhead q n).memWf := State.ite_memWf h (onCtx_memWf h ..)

theorem State.accept_memWf (q : Nat) (c : BitVec 512) : (s.accept q c).memWf := by
  unfold State.accept
  extract_lets n base s1 s2
  have h2 : s2.memWf := onQueue_memWf (setJhead_memWf (State.store_memWf _ _ _ h) ..) ..
  split
  · exact h2
  · exact journalTo_memWf h2 ..

theorem State.ringFails_memWf (queue cause : Nat) : (s.ringFails queue cause).memWf :=
  State.ite_memWf (onQueue_memWf h ..) h

theorem execQueueRecordAccept_keeps (queue : Nat) : Keeps (execQueueRecordAccept queue s) := by
  refine keeps_next (State.ite_memWf h ?_)
  split
  · exact State.ringFails_memWf h ..
  · exact State.ite_memWf (State.onQueue_memWf h ..) (State.accept_memWf (State.onQueue_memWf h ..) ..)

theorem State.cmdFail_keeps (q n cause : Nat) : Keeps (s.cmdFail q n cause) := keeps_next (journalTo_memWf h ..)

theorem State.cmdDone_keeps (base n : Nat) (result : Option Nat) : Keeps (s.cmdDone base n result) :=
  keeps_next (journalTo_memWf h ..)

theorem State.command_keeps (q n : Nat) (c : BitVec 512) {k : Out} (hk : Keeps k) : Keeps (s.command q n c k) :=
  ite_keeps hk (keeps_next h)

theorem State.onQueue0_keeps (q n : Nat) (c : BitVec 512) {k : Out} (hk : Keeps k) : Keeps (s.onQueue0 q n c k) :=
  command_keeps h _ _ _ <| ite_keeps (cmdFail_keeps h ..) hk

theorem State.onBound_keeps (q n : Nat) (c : BitVec 512) {k : Nat → Ctx → Out} (hk : ∀ a x, Keeps (k a x)) :
    Keeps (s.onBound q n c k) := by
  refine command_keeps h _ _ _ ?_
  split
  · exact ite_keeps (cmdFail_keeps h ..) (keeps_next h)
  · exact ite_keeps (cmdFail_keeps h ..) (hk _ _)

/-! ## Commands -/

theorem execQueueNop_keeps (queue seq : Nat) (cmd : BitVec 512) : Keeps (execQueueNop queue seq cmd s) :=
  State.command_keeps h _ _ _ <| ite_keeps (State.cmdFail_keeps h ..) (State.cmdDone_keeps h ..)

theorem execCreate_keeps (queue seq : Nat) (cmd : BitVec 512) : Keeps (execCreate queue seq cmd s) := by
  refine State.onQueue0_keeps h _ _ _ <| ite_keeps (State.cmdFail_keeps h ..) ?_
  split
  · exact State.cmdFail_keeps h ..
  · dsimp only
    split
    · exact State.cmdFail_keeps h ..
    · exact ite_keeps (State.cmdFail_keeps h ..)
        (State.cmdDone_keeps (State.assignIdle_memWf (State.setCtx_memWf h ..) _) ..)

theorem execDestroy_keeps (queue seq : Nat) (cmd : BitVec 512) : Keeps (execDestroy queue seq cmd s) := by
  refine State.onQueue0_keeps h _ _ _ ?_
  split
  · exact State.cmdFail_keeps h ..
  · exact State.cmdDone_keeps (State.destroyCtx_memWf h ..) ..

theorem execBind_keeps (queue seq : Nat) (cmd : BitVec 512) : Keeps (execBind queue seq cmd s) :=
  State.onQueue0_keeps h _ _ _ <| ite_keeps (State.cmdFail_keeps h ..) (State.cmdDone_keeps (State.onQueue_memWf h ..) ..)

theorem State.newUnit_memWf (a : Nat) (c : Ctx) (base seq : Nat) (u : WorkUnit) : (s.newUnit a c base seq u).1.memWf :=
  journalResult_memWf (setCtx_memWf h ..) ..

theorem execJob_keeps (queue seq : Nat) (cmd : BitVec 512) : Keeps (execJob queue seq cmd s) :=
  State.onBound_keeps h _ _ _ fun _ _ => ite_keeps (State.cmdFail_keeps h ..)
    (keeps_next (State.work_memWf (State.newUnit_memWf h ..) ..))

theorem State.joinParent_memWf (a parent u : Nat) : (s.joinParent a parent u).memWf := by
  unfold State.joinParent
  split
  · exact State.ite_memWf (cancelUnit_memWf h ..) (work_memWf h ..)
  · exact h

theorem execPhase_keeps (queue seq : Nat) (cmd : BitVec 512) : Keeps (execPhase queue seq cmd s) := by
  refine State.onBound_keeps h _ _ _ fun a c => ?_
  dsimp only
  split
  · exact State.cmdFail_keeps h ..
  · refine ite_keeps (State.cmdFail_keeps h ..) (keeps_next (State.joinParent_memWf (State.work_memWf ?_ ..) ..))
    exact foldl_keeps State.memWf _ (fun _ _ h => State.onUnit_memWf h ..) _
      (State.onUnit_memWf (State.newUnit_memWf h ..) ..)

theorem State.readGraph_memWf {u : HostUnit} {c : Ctx} {addr : Word} {count : Nat} {r : List (GNode × Option Kernel) × State}
    (hr : s.readGraph u c addr count = .ok r) : r.2.memWf := by
  unfold State.readGraph at hr
  split at hr
  · cases hr
  · obtain ⟨ns, -, rfl⟩ := exists_of_map_eq_ok hr
    exact haveRead_memWf h _

theorem State.graphLaunches_memWf (a graph : Nat) (seed : Word) (ns : List (GNode × Option Kernel)) :
    (s.graphLaunches a graph seed ns).memWf := by
  refine foldl_keeps State.memWf _ (fun s e h => ?_) _ h
  split
  · exact onNode_memWf (setCtx_memWf h ..) ..
  · exact h

theorem State.graphFor_keeps (queue : Nat) (k : Carry) (c : Ctx) : Keeps (s.graphFor queue k c) := by
  unfold State.graphFor
  extract_lets a p count u free fail
  have hfree : ∀ t : State, t.memWf → (free t).memWf := fun t h => onQueue_memWf (forget_memWf h _) ..
  have hfail : ∀ cause, Keeps (fail cause) := fun cause => keeps_next (journalTo_memWf (hfree s h) ..)
  split
  · exact hfail _
  · split
    · exact hfail _
    · refine ite_keeps (hfail _) ?_
      split
      · exact ite_keeps (keeps_next (onQueue_memWf (unitMiss_memWf h ..) ..)) (hfail _)
      · next hr =>
        have ht := hfree _ (readGraph_memWf h hr)
        exact ite_keeps (hfail _) <| keeps_next <| joinParent_memWf
          (graphLaunches_memWf (onUnit_memWf (newUnit_memWf ht ..) ..) ..) ..

theorem execGraph_keeps (queue seq : Nat) (cmd : BitVec 512) : Keeps (execGraph queue seq cmd s) := by
  unfold execGraph
  split
  · split
    · exact ite_keeps (State.graphFor_keeps h ..) (keeps_next h)
    · exact keeps_next h
  · exact State.onBound_keeps h _ _ _ fun _ _ => State.graphFor_keeps h ..

theorem execClose_keeps (queue seq : Nat) (cmd : BitVec 512) : Keeps (execClose queue seq cmd s) := by
  refine State.onBound_keeps h _ _ _ fun a c => ?_
  dsimp only
  split
  · exact State.cmdFail_keeps h ..
  · exact State.cmdDone_keeps (State.work_memWf
      (foldl_keeps State.memWf _ (fun _ _ h => State.onUnit_memWf h ..) _ h) ..) ..

theorem execQueueCancel_keeps (queue seq : Nat) (cmd : BitVec 512) : Keeps (execQueueCancel queue seq cmd s) :=
  State.onBound_keeps h _ _ _ fun _ _ => ite_keeps (State.cmdFail_keeps h ..)
    (State.cmdDone_keeps (State.cancelUnit_memWf h ..) ..)

/-! ## Replica instructions -/

theorem execRrel_keeps (gd : Guard) (scope : Scope) : Keeps (execRrel gd scope s) :=
  State.guarded_keeps h _ _ (releaseAt_keeps h scope)

theorem execRmark_keeps (gd : Guard) (a : Fin 32) (f : Fin 4) : Keeps (execRmark gd a f s) :=
  State.guarded_keeps h _ _ (State.doneRegs_keeps h _)

theorem execRpert_keeps (gd : Guard) (b : Src) : Keeps (execRpert gd b s) :=
  State.guarded_keeps h _ _ <| ite_keeps (State.trap_keeps h ..) <| State.operands_keeps h _ _ _ fun _ _ h =>
    State.done_keeps (State.onMe_memWf h _)

theorem execRrewind_keeps : Keeps (execRrewind s) := by
  unfold execRrewind
  split
  · exact State.trap_keeps h ..
  · exact ite_keeps (State.goto_keeps (State.onMe_memWf h _) _) (State.trap_keeps h ..)

/-! ## Votes -/

theorem State.onTid_memWf (tid : Nat) (f : Slot → Slot) : (s.onTid tid f).memWf := h

theorem State.commit_memWf (tids : List Nat) (x : Held) : (s.commit tids x).memWf := by
  unfold State.commit
  dsimp only
  split
  · exact State.ite_memWf (onCtx_memWf h ..) <| State.ite_memWf h (State.write_memWf _ _ _ h)
  · exact State.ite_memWf (sendWrite_memWf h ..) (State.write_memWf _ _ _ h)

theorem State.commitAll_memWf (tids : List Nat) (hs : List Held) (supplies : Bool) : (s.commitAll tids hs supplies).memWf :=
  foldl_keeps State.memWf _ (fun _ x h => commit_memWf h tids x) _ h

theorem State.mismatch_memWf (x : Slot) : (s.mismatch x).memWf := State.trapTid_memWf _ _ _ (onTid_memWf h ..)

theorem State.commitOwn_memWf (tids : List Nat) (x : Slot) (supplies : Bool) : (s.commitOwn tids x supplies).memWf := by
  unfold State.commitOwn
  split
  · exact State.ite_memWf h (commitAll_memWf h ..)
  · exact h

theorem State.agreement_memWf (bell : Nat) (voters : List Slot) : (s.agreement bell voters).memWf := by
  unfold State.agreement
  extract_lets lowest supplier tids s1 s2 s3 s4
  have h1 : s1.memWf := State.ite_memWf (State.memWf_of_mem h (s.loseLate_mem _)) h
  have h2 : s2.memWf := foldl_keeps State.memWf _ (fun _ x h => commitAll_memWf h ..) _ h1
  have h3 : s3.memWf := foldl_keeps State.memWf _ (fun _ x h => by exact h) _ h2
  have h4 : s4.memWf := State.ite_memWf (acked_memWf h3 _) h3
  exact foldl_keeps State.memWf _ (fun _ x h => commitOwn_memWf h ..) _ h4

theorem State.takeOver_memWf (o x : Slot) : (s.takeOver o x).memWf := h

theorem State.promote_memWf (r : RepSet) (old : List Slot) : (s.promote r old).memWf := by
  refine foldl_keeps State.memWf _ (fun s x h => State.ite_memWf ?_ h) _ h
  split
  · exact takeOver_memWf h ..
  · exact onTid_memWf h ..

theorem State.setSet_memWf (r : RepSet) : (s.setSet r).memWf := h

theorem State.shear_memWf (r : RepSet) (i n : Nat) (marks : List Word) : (s.shear r i n marks).memWf := by
  unfold State.shear
  extract_lets g die live bell r' old s1 s2 s3
  have h1 : s1.memWf := setSet_memWf (freeGroup_memWf h g) r'
  have h2 : s2.memWf := by
    unfold s2
    split
    · exact endGroup_memWf h1 ..
    · exact h1
  exact placePass_memWf (promote_memWf (postEvent_memWf h2 ..) ..) _

theorem State.decideVote_memWf (r : RepSet) (all present : List Slot) : (s.decideVote r all present).memWf := by
  unfold State.decideVote
  extract_lets n absent missing lose
  have hlose : (lose s).memWf := foldl_keeps State.memWf _ (fun _ _ h => onTid_memWf h ..) _
    (foldl_keeps State.memWf _ (fun _ x h => mismatch_memWf h x) _ h)
  have hshear : ∀ i vs, ((s.shear r i n (marksOf all)).agreement r.bell vs).memWf :=
    fun i vs => agreement_memWf (shear_memWf h ..) ..
  generalize missing = gone
  split
  · exact State.ite_memWf (agreement_memWf h ..) hlose
  · exact agreement_memWf h ..
  · exact State.ite_memWf (hshear ..) hlose
  · exact State.ite_memWf (agreement_memWf h ..) <| State.ite_memWf (hshear ..) <| State.ite_memWf (hshear ..) <|
      State.ite_memWf (hshear ..) hlose
  · exact hlose

theorem execVote_keeps (asid launch group : Nat) : Keeps (execVote asid launch group s) := by
  refine keeps_next ?_
  split
  · exact h
  · split
    · exact h
    · exact State.decideVote_memWf h ..

theorem execVoteTimeout_keeps (asid launch group : Nat) : Keeps (execVoteTimeout asid launch group s) := by
  refine keeps_next ?_
  split
  · exact h
  · split
    · exact h
    · exact State.decideVote_memWf h ..

theorem State.countVotes_memWf : s.countVotes.memWf := by
  refine foldl_keeps State.memWf _ (fun s r h => State.ite_memWf h ?_) _ h
  refine foldl_keeps State.memWf _ (fun s x h => ?_) _ h
  split
  · exact h
  · exact onTid_memWf h ..

end

end Sys2Proof.Machine
end

section
/-! SUPPORT. The links to the host and to other packages, and the test port, keep the canonical form of memory (log 6). -/

namespace Sys2Proof.Machine

open Sys2Proof

section

variable {s : State} (h : s.memWf)

include h

/-! ## BAR0 and the host's aperture -/

theorem State.clearReplays_memWf (port v : Nat) : (s.clearReplays port v).memWf := State.ite_memWf h h

theorem execPortstatWrite_keeps (port : Nat) (v : BitVec 64) : Keeps (execPortstatWrite port v s) :=
  State.barAccess_keeps h (State.clearReplays_memWf h ..)

theorem State.writeMsix_memWf (i v : Nat) : (s.writeMsix i v).memWf := State.ite_memWf h h

theorem State.writeQueueBlock_memWf (q o v : Nat) : (s.writeQueueBlock q o v).memWf :=
  State.ite_memWf (writeQwp_memWf h ..) <| State.ite_memWf (writeEvrp_memWf h ..) h

theorem State.writeBar_memWf (offset size v : Nat) : (s.writeBar offset size v).memWf :=
  State.ite_memWf (State.ite_memWf h h) <| State.ite_memWf (State.ite_memWf h h) <| State.ite_memWf (State.ite_memWf h h) <|
    State.ite_memWf (writeQueueBlock_memWf h ..) <| State.ite_memWf (State.ite_memWf (clearReplays_memWf h ..) h) <|
      State.ite_memWf (State.ite_memWf (writeMsix_memWf (writeMsix_memWf h ..) ..) (writeMsix_memWf h ..)) h

theorem execBarRegisterWrite_keeps (offset size : Nat) (v : BitVec 64) : Keeps (execBarRegisterWrite offset size v s) :=
  State.barAccess_keeps h (State.ite_memWf (State.writeBar_memWf h ..) h)

theorem State.barDone_memWf (e : BarEnd) (v : BitVec 4096) : (s.barDone e v).memWf := h

theorem State.barRead_memWf (offset size : Nat) : (s.barRead offset size).memWf :=
  State.ite_memWf (barDone_memWf h ..) <| State.ite_memWf (barDone_memWf h ..) (barDone_memWf h ..)

theorem State.hostStore_memWf (addr size : Nat) (v : Word) : (s.hostStore addr size v).memWf :=
  State.ite_memWf (State.write_memWf _ _ _ h) h

theorem execHostApertureAccess_keeps (write : Bool) (offset size : Nat) (v : BitVec 4096) :
    Keeps (execHostApertureAccess write offset size v s) :=
  ite_keeps (State.barAccess_keeps h (State.ite_memWf (State.write_memWf _ _ _ h) h)) <| keeps_next <|
    State.ite_memWf (State.barDone_memWf h ..) <| State.ite_memWf (State.barDone_memWf h ..) (State.barDone_memWf h ..)

/-! ## Failed requests and resets -/

theorem State.portLost_memWf (p : Nat) : (s.portLost p).memWf := releaseNodes_memWf (State.portDown_memWf p h)

theorem State.rerouted_memWf : s.rerouted.memWf := releaseNodes_memWf (State.reroute_memWf h)

theorem State.failRequest_memWf (tid : Nat) (ok : State → Slot → Home → Bool) : (s.failRequest tid ok).memWf := by
  unfold State.failRequest
  split
  · exact h
  · split
    · exact State.ite_memWf h (foldl_keeps State.memWf _ (fun _ _ h => State.trapTid_memWf _ _ _ h) _ h)
    · exact h

/-- A reset keeps the memories of the host and of other packages, a part of memory in the same order. -/
theorem State.resetPackage_memWf : s.resetPackage.memWf := wf_filter _ h

/-! ## Ports -/

theorem State.onPort_memWf (p : Nat) (f : Port → Port) : (s.onPort p f).memWf := h

theorem execPortEnable_keeps (port : Nat) : Keeps (execPortEnable port s) :=
  keeps_next (State.ite_memWf h (State.onPort_memWf h ..))

theorem execTrainingSucceeds_keeps (port : Nat) (peer : BitVec 6) : Keeps (execTrainingSucceeds port peer s) :=
  keeps_next (State.rerouted_memWf (State.onPort_memWf h ..))

theorem execTrainingFails_keeps (port : Nat) : Keeps (execTrainingFails port s) := by
  refine keeps_next ?_
  split
  · exact State.portLost_memWf h port
  · exact State.portLost_memWf h port
  · exact h
  · exact h

theorem execLossOfSignal_keeps (port : Nat) : Keeps (execLossOfSignal port s) := by
  refine keeps_next ?_
  split
  · exact State.portLost_memWf h port
  · exact State.rerouted_memWf (State.onPort_memWf h ..)
  · exact h
  · exact h

theorem execAckTimeout_keeps (port : Nat) : Keeps (execAckTimeout port s) :=
  keeps_next (State.ite_memWf (State.rerouted_memWf (State.onPort_memWf h ..)) h)

theorem State.laneOpens_memWf (port vl : Nat) : (s.laneOpens port vl).memWf := releaseNodes_memWf (pump_memWf h ..)

theorem State.control_memWf (port : Nat) (f : BitVec 2048) : (s.control port f).memWf := by
  unfold State.control
  dsimp only
  split
  · exact onPort_memWf h ..
  · exact rerouted_memWf (onPort_memWf h ..)
  · exact laneOpens_memWf (onPort_memWf h ..) ..
  · exact h

/-! ## Flits -/

theorem State.remoteMessage_memWf (port src : Nat) (adr : Word) (m : List Word) : (s.remoteMessage port src adr m).memWf :=
  State.post_memWf _ _ (State.ite_memWf (appendMsg_memWf h ..) h)

theorem State.messageAnswered_memWf (n code : Nat) : (s.messageAnswered n code).memWf := by
  unfold State.messageAnswered
  dsimp only
  split
  · next nb vs _ _ _ =>
    have hk := psendReply_keeps (s := ({ s with agent := n } : State).onMe Slot.attemptDone) h nb (arg vs 0) (vs.drop 1)
      (penReplyOf code)
    refine State.ite_memWf h ?_
    split
    · next e => exact (hk.mem _ e :)
    · exact h
  · exact h

theorem State.putGood_memWf (pa n : Nat) (bs : List Byte) : (s.putGood pa n bs).memWf := by
  unfold State.putGood
  split
  · exact h
  · exact State.write_memWf _ _ _ h

theorem State.updateError_memWf (src pa code : Nat) : (s.updateError src pa code).memWf := postEvent_memWf h ..

theorem State.serve_memWf (port src : Nat) (r : Config.Request) : (s.serve port src r).memWf := by
  cases r with
  | read pa len => exact State.ite_memWf (State.post_memWf _ _ h) h
  | write pa bs => exact State.ite_memWf (State.post_memWf _ _ (State.write_memWf _ _ _ h)) h
  | atomic op pa n v => exact State.ite_memWf (State.post_memWf _ _ (putGood_memWf h ..)) h
  | update op pa n v =>
    refine State.ite_memWf (State.post_memWf _ _ ?_) h
    split
    · exact updateError_memWf h ..
    · exact State.write_memWf _ _ _ h
  | cas pa n cmp new => exact State.ite_memWf (State.post_memWf _ _ (State.ite_memWf (putGood_memWf h ..) h)) h

theorem State.performed_memWf (x : Slot) (r : Config.Request) (bs : List Byte) : (s.performed x r bs).1.memWf := by
  unfold State.performed
  refine State.store_memWf (s := match r with | .read _ _ => _ | _ => _) _ _ _ ?_
  split
  · exact h
  · exact h

omit h in
theorem State.performAll_memWf {s : State} (h : s.memWf) (x : Slot) (rs : List Config.Request) (bs : List Byte) :
    (s.performAll x rs bs).1.memWf := by
  induction rs generalizing s bs with
  | nil => exact h
  | cons r rs ih => exact ih (performed_memWf h ..) _

theorem State.answerArrives_memWf (tid : Nat) (bs : List Byte) : (s.answerArrives tid bs).memWf := by
  unfold State.answerArrives
  split
  · exact h
  · split
    · exact State.ite_memWf h (onTid_memWf (performAll_memWf h ..) ..)
    · exact h

theorem State.writesAcked_memWf (port n : Nat) : (s.writesAcked port n).memWf := h

theorem State.takeFlit_memWf (port : Nat) (f : BitVec 2048) : (s.takeFlit port f).memWf := by
  refine State.ite_memWf h ?_
  split
  · split
    · exact serve_memWf h ..
    · exact h
  · split
    · exact answerArrives_memWf h ..
    · exact writesAcked_memWf h ..
    · exact h
  · split
    · exact messageAnswered_memWf h ..
    · exact State.ite_memWf (remoteMessage_memWf h ..) h

theorem State.drainLane_memWf (port vl : Nat) : (s.drainLane port vl).memWf := by
  unfold State.drainLane
  split
  · exact h
  · exact takeFlit_memWf (onPort_memWf h ..) ..

theorem State.drainPorts_memWf : s.drainPorts.memWf :=
  foldl_keeps State.memWf _ (fun _ p h => foldl_keeps State.memWf _ (fun _ vl h => drainLane_memWf h p vl) _ h) _ h

theorem State.acceptFlit_memWf (port : Nat) (flit : BitVec 2048) (seq : BitVec 32) : (s.acceptFlit port flit seq).memWf := by
  unfold State.acceptFlit
  extract_lets vl s1 b s2 r
  have h1 : s1.memWf := onPort_memWf h ..
  have h2 : s2.memWf := onPort_memWf h1 ..
  exact State.ite_memWf (control_memWf h1 ..) <| State.ite_memWf (onPort_memWf (pick_memWf h2 256) ..) h2

theorem execFlitReceived_keeps (port : Nat) (flit : BitVec 2048) : Keeps (execFlitReceived port flit s) := by
  have hnak : ∀ f, (s.onPort port f).memWf := fun f => State.onPort_memWf h ..
  exact keeps_next <| State.ite_memWf h <| State.ite_memWf (hnak _) <|
    State.ite_memWf (State.ite_memWf (hnak _) (State.acceptFlit_memWf h ..)) <| State.ite_memWf h (hnak _)

theorem execPauseExpires_keeps (port vl : Nat) : Keeps (execPauseExpires port vl s) :=
  keeps_next (State.ite_memWf (State.laneOpens_memWf (State.onPort_memWf h ..) ..) h)

/-! ## Slots -/

theorem State.setSlot_memWf (n : Nat) (x : Slot) : (s.setSlot n x).memWf := h

theorem execParkedSlotWakes_keeps (slot : Nat) : Keeps (execParkedSlotWakes slot s) := by
  refine keeps_next ?_
  split
  · exact State.ite_memWf (State.setSlot_memWf h ..) h
  · exact State.setSlot_memWf h ..
  · exact h

theorem execMemoryAnswerArrives_keeps (tid : Nat) (failed : Bool) : Keeps (execMemoryAnswerArrives tid failed s) :=
  keeps_next (State.ite_memWf (State.failRequest_memWf h ..) (State.answerArrives_memWf h ..))

theorem execTakePendingTrap_keeps (slot : Nat) : Keeps (execTakePendingTrap slot s) := by
  refine keeps_next (State.ite_memWf h (State.ite_memWf (State.trapSlot_memWf _ _ _ _ _ (State.setSlot_memWf h ..)) ?_))
  split
  · exact h
  · exact State.trapSlot_memWf _ _ _ _ _ (State.setSlot_memWf h ..)

/-! ## The test port -/

theorem State.tapRead_keeps (ir : BitVec 8) (dr : Word) : Keeps (s.tapRead ir dr) := keeps_next h

theorem execFreezeN_keeps : Keeps (execFreezeN s) := keeps_next (State.freezeBy_memWf _ _ h)

theorem execFrz_keeps (resumable : Bool) : Keeps (execFrz resumable s) := State.tapRead_keeps (State.freezeBy_memWf _ _ h) ..

theorem State.resumed_memWf : s.resumed.memWf := by
  unfold State.resumed
  split
  · exact releaseNodes_memWf (by exact h)
  · exact h
  · exact h

theorem execResume_keeps : Keeps (execResume s) := State.tapRead_keeps (State.resumed_memWf h) ..

omit h in
theorem keeps_fault (f : Fault) : Keeps (.fault f) := ⟨fun _ e => by cases e⟩

theorem execRdst_keeps : Keeps (execRdst s) := by
  have hgive : ∀ f : TestPort → TestPort, Keeps (.next { s with tap := f s.tap }) := fun _ => keeps_next h
  exact ite_keeps (State.tapRead_keeps h ..) <| ite_keeps (keeps_next h) <|
    ite_keeps (ite_keeps (keeps_fault _) (keeps_next h)) (keeps_next h)

end

end Sys2Proof.Machine
end

section
/-! SUPPORT. The vector instructions keep the canonical form of memory (log 6). -/

namespace Sys2Proof.Machine

open Sys2Proof

section

variable {s : State} (h : s.memWf)

include h

/-! ## Vector registers and masks -/

theorem State.vdone_keeps (a : Fin 16) (v : BitVec 1024) (mode : RoundMode) (results : Nat) :
    Keeps (s.vdone a v mode results) :=
  done_keeps (onMe_memWf h _)

theorem execVarith_keeps (op : VArith) (c : VCtl) (sat u : Bool) (a b : Fin 16) (src : VSrc) :
    Keeps (execVarith op c sat u a b src s) :=
  State.guardedOperands_keeps h fun _ _ h => State.vdone_keeps h ..

theorem execVlogic_keeps (op : BitOp) (c : VCtl) (a b : Fin 16) (src : VSrc) : Keeps (execVlogic op c a b src s) :=
  State.guardedOperands_keeps h fun _ _ h => State.vdone_keeps h ..

theorem execVsh_keeps (k : ShiftKind) (c : VCtl) (a b : Fin 16) (src : VSrc) : Keeps (execVsh k c a b src s) :=
  State.guardedOperands_keeps h fun _ _ h => State.vdone_keeps h ..

theorem execVcmp_keeps (cc : VCond) (u : Bool) (c : VCtl) (a : Fin 4) (b : Fin 16) (src : VSrc) :
    Keeps (execVcmp cc u c a b src s) :=
  State.guardedOperands_keeps h fun _ _ h => State.done_keeps (State.onMe_memWf h _)

theorem execVsel_keeps (c : VCtl) (a b d : Fin 16) : Keeps (execVsel c a b d s) :=
  State.guarded_keeps h _ _ (State.vdone_keeps h ..)

theorem execVmaskOp_keeps (gd : Guard) (op : BitOp) (a b c : Fin 4) : Keeps (execVmaskOp gd op a b c s) :=
  State.guarded_keeps h _ _ (State.done_keeps (State.onMe_memWf h _))

theorem execVmaskNot_keeps (gd : Guard) (a b : Fin 4) : Keeps (execVmaskNot gd a b s) :=
  State.guarded_keeps h _ _ (State.done_keeps (State.onMe_memWf h _))

theorem execVmaskPut_keeps (gd : Guard) (hi : Bool) (a : Fin 4) (b : Src) : Keeps (execVmaskPut gd hi a b s) :=
  State.guardedOperands_keeps h fun _ _ h => State.done_keeps (State.onMe_memWf h _)

theorem execVmaskGet_keeps (gd : Guard) (hi : Bool) (a : Opnd) (b : Fin 4) : Keeps (execVmaskGet gd hi a b s) :=
  State.guardedOperands_keeps h fun _ _ h => State.finish_keeps h ..

theorem execVmaskPopc_keeps (gd : Guard) (ty : ElemType) (a : Opnd) (b : Fin 4) : Keeps (execVmaskPopc gd ty a b s) :=
  State.guardedOperands_keeps h fun _ _ h => State.finish_keeps h ..

/-! ## Conversion, reduction and scan -/

theorem State.c8Trap_keeps (t : ElemType) (tab : CodeTable) (any : Bool) {k : State → Out} (hk : Keeps (k s)) :
    Keeps (s.c8Trap t tab any k) :=
  ite_keeps (trap_keeps h ..) hk

theorem execVcvt_keeps (c : VCtl) (src : ElemType) (part : Fin 16) (us ud : Bool) (a b : Fin 16) (scales : Option Src) :
    Keeps (execVcvt c src part us ud a b scales s) :=
  State.guardedOperands_keeps h fun _ _ h => State.c8Trap_keeps h _ _ _ (State.vdone_keeps h ..)

theorem execVred_keeps (op : RedOp) (u : Bool) (c : VCtl) (a b : Fin 16) (scales : Option Src) :
    Keeps (execVred op u c a b scales s) :=
  State.guardedOperands_keeps h fun _ _ h => ite_keeps (State.vdone_keeps h ..) (State.vdone_keeps h ..)

theorem execVscan_keeps (op : RedOp) (u : Bool) (c : VCtl) (a b : Fin 16) : Keeps (execVscan op u c a b s) :=
  State.guarded_keeps h _ _ (ite_keeps (State.vdone_keeps h ..) (State.vdone_keeps h ..))

/-! ## Permute, compaction and moves -/

theorem execVperm_keeps (c : VCtl) (a b : Fin 16) (src : VSrc) : Keeps (execVperm c a b src s) :=
  State.guardedOperands_keeps h fun _ _ h => State.vdone_keeps h ..

theorem execVcomp_keeps (c : VCtl) (a b : Fin 16) (d : Opnd) : Keeps (execVcomp c a b d s) :=
  State.guardedOperands_keeps h fun _ _ h => State.roomFor_keeps h _ (State.finish_keeps (State.onMe_memWf h _) ..)

theorem execVbcast_keeps (c : VCtl) (a : Fin 16) (b : Src) : Keeps (execVbcast c a b s) :=
  State.guardedOperands_keeps h fun _ _ h => State.vdone_keeps h ..

theorem execVmovg_keeps (c : VCtl) (sx : Bool) (a : Opnd) (b : Fin 16) (idx : Fin 128) :
    Keeps (execVmovg c sx a b idx s) :=
  State.guardedOperands_keeps h fun _ _ h => State.finish_keeps h ..

theorem execViota_keeps (c : VCtl) (a : Fin 16) (b : Src) (step : BitVec 8) : Keeps (execViota c a b step s) :=
  State.guardedOperands_keeps h fun _ _ h => State.vdone_keeps h ..

theorem execViotaCnt_keeps (c : VCtl) (a : Fin 16) (b : Src) : Keeps (execViotaCnt c a b s) :=
  State.guardedOperands_keeps h fun _ _ h => State.vdone_keeps h ..

theorem execVclip_keeps (u : Bool) (c : VCtl) (a b : Fin 16) (g : Src) : Keeps (execVclip u c a b g s) :=
  State.guardedOperands_keeps h fun _ _ h => State.vdone_keeps h ..

theorem execVapprox_keeps (fn : ApproxFn) (c : VCtl) (a b : Fin 16) : Keeps (execVapprox fn c a b s) :=
  State.guarded_keeps h _ _ (State.vdone_keeps h ..)

/-! ## Decode tables and block quantisation -/

theorem State.onMyCore_memWf (f : Core → Core) : (s.onMyCore f).memWf := h

theorem execVtblQ_keeps (gd : Guard) (q : Fin 4) (b : Fin 16) : Keeps (execVtblQ gd q b s) :=
  State.guarded_keeps h _ _ (State.done_keeps (State.onMyCore_memWf h _))

theorem execVtblPre_keeps (gd : Guard) (p : Fin 4) : Keeps (execVtblPre gd p s) :=
  State.guarded_keeps h _ _ (State.done_keeps (State.onMyCore_memWf h _))

theorem execVtblNan_keeps (gd : Guard) (n : Fin 128) : Keeps (execVtblNan gd n s) :=
  State.guarded_keeps h _ _ (State.done_keeps (State.onMyCore_memWf h _))

theorem execVmxs_keeps (c : VCtl) (src : ElemType) (part : Fin 16) (a b : Fin 16) (g : Fin 32) (sync : Bool) :
    Keeps (execVmxs c src part a b g sync s) :=
  State.guardedOperands_keeps h fun _ _ h =>
    State.c8Trap_keeps h _ _ _ (State.vdone_keeps (State.onMe_memWf h _) ..)

/-! ## Vector loads and stores -/

theorem State.vchecked_keeps (c : VCtl) (ea : Word) (r w : Bool) {k : List Placed → Out} (hk : ∀ l, Keeps (k l)) :
    Keeps (s.vchecked c ea r w k) := by
  refine ite_keeps (trap_keeps h ..) ?_
  dsimp only
  split
  · exact trap_keeps h ..
  · split
    · exact hk _
    · exact trap_keeps h ..
    · exact parkWalk_keeps h _

theorem execVld_keeps (c : VCtl) (a : Fin 16) (b d : Src) (ss : Fin 4) (disp : BitVec 12) :
    Keeps (execVld c a b d ss disp s) := by
  refine State.guardedOperands_keeps h fun vs t h => State.vchecked_keeps h _ _ _ _ fun l => State.farThen_keeps h _ _ _ ?_
  split
  · exact State.trap_keeps h ..
  · exact State.vdone_keeps (State.settleRead_memWf h _) ..

theorem State.vstoreAll_memWf (v : BitVec 1024) (l : List Placed) : (s.vstoreAll v l).memWf :=
  State.ite_memWf (foldl_keeps State.memWf _ (fun _ _ h => putPiece_memWf h ..) _ h) (onMe_memWf h _)

theorem execVst_keeps (c : VCtl) (a : Fin 16) (b d : Src) (ss : Fin 4) (disp : BitVec 12) :
    Keeps (execVst c a b d ss disp s) := by
  refine State.guardedOperands_keeps h fun vs t h => State.vchecked_keeps h _ _ _ _ fun l => ?_
  split
  · exact State.trap_keeps h ..
  · exact ite_keeps (State.implicitVote_keeps h) (State.done_keeps (State.vstoreAll_memWf h ..))

/-! ## Gathers and scatters -/

theorem State.elemThen_keeps (ea : Word) (ps : List Piece) {k : State → Out} (hk : Keeps (k s)) :
    Keeps (s.elemThen ea ps k) :=
  ite_keeps (keeps_next (onMe_memWf h _)) (farThen_keeps h _ _ _ hk)

/-- An element's work keeps the form of memory if what comes after it does. -/
def ElemKeeps (one : (State → Out) → State → Out) : Prop :=
  ∀ k, (∀ t : State, t.memWf → Keeps (k t)) → ∀ s : State, s.memWf → Keeps (one k s)

omit h in
theorem gatherOne_elemKeeps (mask : Option (Fin 4)) (a : Fin 16) (w i : Nat) (ea : Word) :
    ElemKeeps fun k s => s.gatherOne mask a w i ea k := fun _ hk _ h =>
  State.checked_keeps h _ _ _ _ _ fun _ => State.elemThen_keeps h _ _ <| State.readable_keeps h _ _ fun _ _ h =>
    hk _ (State.onMe_memWf h _)

omit h in
theorem scatterOne_elemKeeps (mask : Option (Fin 4)) (a : Fin 16) (w i : Nat) (ea : Word) :
    ElemKeeps fun k s => s.scatterOne mask a w i ea k := fun _ hk _ h =>
  State.checked_keeps h _ _ _ _ _ fun _ => State.writable_keeps h _ _ <| State.storeVia_keeps h _ _ _ _ fun _ h =>
    hk _ (State.onMe_memWf h _)

omit h in
theorem State.elements_keeps {s : State} (h : s.memWf) (mask : Option (Fin 4)) {one : Nat → (State → Out) → State → Out}
    (hone : ∀ i, ElemKeeps (one i)) (l : List Nat) : Keeps (s.elements mask one l) := by
  induction l generalizing s with
  | nil => exact done_keeps h
  | cons i l ih => exact ite_keeps (hone i _ (fun _ h => ih h) _ h) (ih h)

theorem gatherLike_keeps (gd : Guard) (ty : GatherType) (b : Src) (c : Fin 16) (mask : Option (Fin 4)) (scale : Fin 4)
    {one : Nat → Nat → Word → (State → Out) → State → Out} (hone : ∀ w i ea, ElemKeeps (one w i ea)) :
    Keeps (gatherLike gd ty b c mask scale one s) :=
  State.guardedOperands_keeps h fun _ _ h => State.elements_keeps (State.onMe_memWf h _) _ (fun i => hone _ i _) _

theorem execVgath_keeps (gd : Guard) (ty : GatherType) (a : Fin 16) (b : Src) (c : Fin 16) (mask : Option (Fin 4))
    (scale : Fin 4) : Keeps (execVgath gd ty a b c mask scale s) :=
  gatherLike_keeps h _ _ _ _ _ _ fun w i ea => gatherOne_elemKeeps mask a w i ea

theorem execVscat_keeps (gd : Guard) (ty : GatherType) (a : Fin 16) (b : Src) (c : Fin 16) (mask : Option (Fin 4))
    (scale : Fin 4) : Keeps (execVscat gd ty a b c mask scale s) :=
  gatherLike_keeps h _ _ _ _ _ _ fun w i ea => scatterOne_elemKeeps mask a w i ea

end

end Sys2Proof.Machine
end

section
/-! SUPPORT. Every instruction and every event keeps the canonical form of memory (log 6): the dispatch. -/

namespace Sys2Proof.Machine

open Sys2Proof

section

variable {s : State} (h : s.memWf)

include h

theorem exec_keeps (i : Instr) : Keeps (exec i s) := by
  cases i with
  | br => exact execBr_keeps h ..
  | call => exact execCall_keeps h ..
  | loop => exact execLoop_keeps h ..
  | trap => exact execTrap_keeps h ..
  | tret => exact execTret_keeps h
  | crd => exact execCrd_keeps h ..
  | cwr => exact execCwr_keeps h ..
  | retire => exact execRetire_keeps h
  | brk => exact trapAfterStep_keeps h ..
  | add => exact alu2_keeps h ..
  | sub => exact alu2_keeps h ..
  | mul => exact alu2_keeps h ..
  | mulh => exact alu2_keeps h ..
  | mulhu => exact alu2_keeps h ..
  | div => exact alu2_keeps h ..
  | divu => exact alu2_keeps h ..
  | rem => exact alu2_keeps h ..
  | remu => exact alu2_keeps h ..
  | and => exact alu2_keeps h ..
  | or => exact alu2_keeps h ..
  | xor => exact alu2_keeps h ..
  | shl a b c => exact (alu2_keeps h _ a b c : Keeps (execShl a b c s))
  | shr a b c => exact (alu2_keeps h _ a b c : Keeps (execShr a b c s))
  | sar a b c => exact (alu2_keeps h _ a b c : Keeps (execSar a b c s))
  | ror a b c => exact (alu2_keeps h _ a b c : Keeps (execRor a b c s))
  | min => exact alu2_keeps h ..
  | max => exact alu2_keeps h ..
  | minu => exact alu2_keeps h ..
  | maxu => exact alu2_keeps h ..
  | clz => exact alu1_keeps h ..
  | popc => exact alu1_keeps h ..
  | ctz => exact alu1_keeps h ..
  | addi => exact aluImm_keeps h ..
  | andi => exact aluImm_keeps h ..
  | ori => exact aluImm_keeps h ..
  | xori => exact aluImm_keeps h ..
  | shi gd a b kind amount => exact (aluImm_keeps h _ gd a b 0 : Keeps (execShi gd a b kind amount s))
  | cmp => exact execCmp_keeps h ..
  | cmpu => exact execCmpu_keeps h ..
  | cmpi => exact execCmpi_keeps h ..
  | vgath => exact execVgath_keeps h ..
  | vscat => exact execVscat_keeps h ..
  | mlease => exact execMlease_keeps h ..
  | mfree => exact execMfree_keeps h
  | mprog => exact matrixCommand_keeps h ..
  | mwld => exact matrixCommand_keeps h ..
  | mma => exact matrixCommand_keeps h ..
  | mrd => exact matrixCommand_keeps h ..
  | mclr => exact matrixCommand_keeps h ..
  | mcfg => exact matrixCommand_keeps h ..
  | mstat => exact execMstat_keeps h ..
  | dwin => exact execDwin_keeps h ..
  | dcan => exact execDcan_keeps h ..
  | dcanResume => exact execDcanResume_keeps h ..
  | hinit => exact execHinit_keeps h ..
  | harr => exact execHarr_keeps h ..
  | hwait => exact execHwait_keeps h ..
  | rrel => exact execRrel_keeps h ..
  | rmark => exact execRmark_keeps h ..
  | rpert => exact execRpert_keeps h ..
  | rrewind => exact execRrewind_keeps h
  | fopen => exact execFopen_keeps h ..
  | fopenClose => exact execFopenClose_keeps h ..
  | fshort => exact execFshort_keeps h ..
  | fpick => exact execFpick_keeps h ..
  | rand => exact execRand_keeps h ..
  | kvtrunc => exact execKvtrunc_keeps h ..
  | qwait => exact execQwait_keeps h ..
  | qwaitNow => exact execQwaitNow_keeps h ..
  | ptsync => exact execPtsync_keeps h ..
  | parkedSlotWakes => exact execParkedSlotWakes_keeps h ..
  | memoryAnswerArrives => exact execMemoryAnswerArrives_keeps h ..
  | takePendingTrap => exact execTakePendingTrap_keeps h ..
  | droverRestart => exact execDroverRestart_keeps h ..
  | musterArbitration => exact execMusterArbitration_keeps h ..
  | penMessageArrives => exact execPenMessageArrives_keeps h ..
  | psendRetry => exact execPsendRetry_keeps h ..
  | leaseCycleBound => exact execLeaseCycleBound_keeps h ..
  | matrixCommandCompletes => exact execMatrixCommandCompletes_keeps h ..
  | transferDone => exact execTransferDone_keeps h ..
  | streamFault => exact execStreamFault_keeps h ..
  | sourceError => exact execSourceError_keeps h ..
  | laneCommandCompletes => exact execLaneCommandCompletes_keeps h ..
  | loftFillArrives => exact execLoftFillArrives_keeps h ..
  | ddeOperationCompletes => exact execDdeOperationCompletes_keeps h ..
  | filterOperationCompletes => exact execFilterOperationCompletes_keeps h ..
  | vote => exact execVote_keeps h ..
  | voteTimeout => exact execVoteTimeout_keeps h ..
  | pageWalkCompletes => exact execPageWalkCompletes_keeps h ..
  | groupAgeLimit => exact execGroupAgeLimit_keeps h ..
  | reservationExpires => exact execReservationExpires_keeps h ..
  | copyNodeDone => exact execCopyNodeDone_keeps h ..
  | sliceExpires => exact execSliceExpires_keeps h ..
  | haltComplete => exact execHaltComplete_keeps h ..
  | swapComplete => exact execSwapComplete_keeps h ..
  | qwpWrite => exact execQwpWrite_keeps h ..
  | evrpWrite => exact execEvrpWrite_keeps h ..
  | queueRecordAccept => exact execQueueRecordAccept_keeps h ..
  | queueNop => exact execQueueNop_keeps h ..
  | create => exact execCreate_keeps h ..
  | destroy => exact execDestroy_keeps h ..
  | bind => exact execBind_keeps h ..
  | job => exact execJob_keeps h ..
  | phase => exact execPhase_keeps h ..
  | graph => exact execGraph_keeps h ..
  | close => exact execClose_keeps h ..
  | queueCancel => exact execQueueCancel_keeps h ..
  | portstatWrite => exact execPortstatWrite_keeps h ..
  | barRegisterWrite => exact execBarRegisterWrite_keeps h ..
  | hostApertureAccess => exact execHostApertureAccess_keeps h ..
  | hostCompletionTimeout => exact keeps_next (State.failRequest_memWf h ..)
  | hotReset => exact keeps_next (State.resetPackage_memWf h)
  | linkDownTimeout => exact keeps_next (State.resetPackage_memWf h)
  | portEnable => exact execPortEnable_keeps h ..
  | trainingSucceeds => exact execTrainingSucceeds_keeps h ..
  | trainingFails => exact execTrainingFails_keeps h ..
  | lossOfSignal => exact execLossOfSignal_keeps h ..
  | flitReceived => exact execFlitReceived_keeps h ..
  | ackTimeout => exact execAckTimeout_keeps h ..
  | pauseExpires => exact execPauseExpires_keeps h ..
  | remoteRequestTimeout => exact keeps_next (State.failRequest_memWf h ..)
  | freezeN => exact execFreezeN_keeps h
  | idcode => exact State.tapRead_keeps h ..
  | frz => exact execFrz_keeps h ..
  | resume => exact execResume_keeps h
  | jtagSel => exact keeps_next h
  | rdst => exact execRdst_keeps h
  | stat => exact State.tapRead_keeps h ..
  | bypass => exact State.tapRead_keeps h ..
  | reservedMajorOpcode => exact State.trap_keeps h ..

theorem execUnlisted_keeps (i : Unlisted) : Keeps (execUnlisted i s) := by
  cases i with
  | nop => exact State.done_keeps h
  | isync => exact State.done_keeps h
  | lbrk => exact execLbrk_keeps h
  | jr => exact execJr_keeps h ..
  | spawn => exact execSpawn_keeps h ..
  | fence => exact execFence_keeps h ..
  | marm => exact execMarm_keeps h ..
  | mwait => exact execMwait_keeps h ..
  | movi => exact execMovi_keeps h ..
  | movhi => exact execMovhi_keeps h ..
  | plog => exact State.setPredDone_keeps h ..
  | pmovSet => exact execPmovSet_keeps h ..
  | pmovGet => exact execPmovGet_keeps h ..
  | pmovPut => exact execPmovPut_keeps h ..
  | pmovNot => exact State.setPredDone_keeps h ..
  | sel => exact execSel_keeps h ..
  | bfx => exact execBfx_keeps h ..
  | bfi => exact execBfi_keeps h ..
  | lea => exact execLea_keeps h ..
  | mula => exact execMula_keeps h ..
  | ld gd sz sx acq a addr => exact execLd_keeps h gd sz sx acq a addr
  | st => exact execSt_keeps h ..
  | ldfe gd scope a addr => exact execLdfe_keeps h gd scope a addr
  | stfe => exact execStfe_keeps h ..
  | feset => exact execFeset_keeps h ..
  | amo => exact execAmo_keeps h ..
  | cas => exact execCas_keeps h ..
  | rupd => exact execRupd_keeps h ..
  | pref gd hint b disp => exact execPref_keeps h gd hint b disp
  | varith => exact execVarith_keeps h ..
  | vlogic => exact execVlogic_keeps h ..
  | vsh => exact execVsh_keeps h ..
  | vcmp => exact execVcmp_keeps h ..
  | vsel => exact execVsel_keeps h ..
  | vcvt => exact execVcvt_keeps h ..
  | vred => exact execVred_keeps h ..
  | vscan => exact execVscan_keeps h ..
  | vperm => exact execVperm_keeps h ..
  | vcomp => exact execVcomp_keeps h ..
  | vapprox => exact execVapprox_keeps h ..
  | vbcast => exact execVbcast_keeps h ..
  | vmovg => exact execVmovg_keeps h ..
  | vld => exact execVld_keeps h ..
  | vst => exact execVst_keeps h ..
  | vtblQ => exact execVtblQ_keeps h ..
  | vtblPre => exact execVtblPre_keeps h ..
  | vtblNan => exact execVtblNan_keeps h ..
  | vmxs => exact execVmxs_keeps h ..
  | vmaskOp => exact execVmaskOp_keeps h ..
  | vmaskNot => exact execVmaskNot_keeps h ..
  | vmaskPut => exact execVmaskPut_keeps h ..
  | vmaskGet => exact execVmaskGet_keeps h ..
  | vmaskPopc => exact execVmaskPopc_keeps h ..
  | viota => exact execViota_keeps h ..
  | viotaCnt => exact execViotaCnt_keeps h ..
  | vclip => exact execVclip_keeps h ..
  | dcopy => exact execDcopy_keeps h ..
  | dtile => exact execDtile_keeps h ..
  | dfill => exact execDfill_keeps h ..
  | dwait => exact execDwait_keeps h ..
  | dstat => exact execDstat_keeps h ..
  | mbsend => exact execMbsend_keeps h ..
  | mbrecv => exact execMbrecv_keeps h ..
  | abind => exact execAbind_keeps h ..
  | areset => exact execAreset_keeps h ..
  | astep => exact execAstep_keeps h ..
  | amap => exact execAmap_keeps h ..
  | acomp => exact execAcomp_keeps h ..
  | acompApply => exact execAcompApply_keeps h ..
  | aallow => exact execAallow_keeps h ..
  | aget => exact execAget_keeps h ..
  | aset => exact execAset_keeps h ..
  | afeed => exact execAfeed_keeps h ..
  | asave => exact execAsave_keeps h ..
  | aload => exact execAload_keeps h ..
  | apage => exact execApage_keeps h ..
  | ddvarGet => exact ddIssue_keeps h ..
  | ddvarSet => exact ddIssue_keeps h ..
  | ddvarAt => exact ddIssue_keeps h ..
  | ddmk => exact ddIssue_keeps h ..
  | ddapp => exact ddIssue_keeps h ..
  | ddite => exact ddIssue_keeps h ..
  | ddres => exact ddIssue_keeps h ..
  | ddex => exact ddIssue_keeps h ..
  | ddwc => exact ddIssue_keeps h ..
  | ddrefInc b => exact (ddIssue_keeps h .always [b] .. : Keeps (execDdrefInc b s))
  | ddrefDec b => exact (ddIssue_keeps h .always [b] .. : Keeps (execDdrefDec b s))
  | ddrefGet a b => exact (ddIssue_keeps h .always [b] .. : Keeps (execDdrefGet a b s))
  | ddgc => exact ddIssue_keeps h ..
  | ddsat => exact ddIssue_keeps h ..
  | ddstat => exact execDdstat_keeps h ..
  | ddclr => exact ddIssue_keeps h ..
  | ddexp => exact ddIssue_keeps h ..
  | psend => exact execPsend_keeps h ..
  | pdef => exact execPdef_keeps h ..
  | pen => exact execPen_keeps h ..
  | pcfgMode => exact execPcfgMode_keeps h ..
  | pcfgDrain => exact execPcfgDrain_keeps h ..
  | ppeek => exact execPpeek_keeps h ..
  | launch => exact execLaunch_keeps h ..
  | gsel => exact execGsel_keeps h ..
  | cancel => exact execCancel_keeps h ..
  | cntrd => exact execCntrd_keeps h ..
  | sfork => exact execSfork_keeps h ..

end

end Sys2Proof.Machine
end

section
/-! SUPPORT. The turn of a slot, the threads that are answered while they are saved, the clock and the environment keep the
canonical form of memory (log 6); the step does. -/

namespace Sys2Proof.Machine

open Sys2Proof

section

variable {s : State} (h : s.memWf)

include h

/-! ## A slot's turn -/

theorem execInsn_keeps (i : Insn) : Keeps (execInsn i s) := by
  cases i with
  | listed i => exact exec_keeps h i
  | unlisted u => exact execUnlisted_keeps h u

theorem State.runHeld_keeps : Keeps s.runHeld := by
  unfold State.runHeld
  split
  · exact finishOut_keeps h _
  · split
    · exact execInsn_keeps h _
    · exact keeps_next h

theorem State.issue_keeps : Keeps s.issue := by
  refine ite_keeps (implicitVote_keeps h) ?_
  split
  · exact trap_keeps h ..
  · exact parkWalk_keeps h _
  · exact send_keeps h ..
  · exact runHeld_keeps (onMe_memWf h _)

theorem State.goOn_keeps : Keeps s.goOn := ite_keeps (runHeld_keeps h) (issue_keeps h)

theorem State.finishHalted_keeps : Keeps s.finishHalted := by
  have hgo := State.goOn_keeps (State.onMe_memWf h fun x => { x with status := .running, haltReq := true })
  unfold State.finishHalted
  split
  · next t e => exact keeps_next (onMe_memWf (hgo.mem t e) _)
  · exact hgo

theorem State.setAgent_memWf (n : Nat) : ({ s with agent := n } : State).memWf := h

theorem State.slotTurn_keeps (n : Nat) : Keeps (s.slotTurn n) := by
  have h := State.setAgent_memWf h n
  unfold State.slotTurn
  dsimp only
  split
  · exact ite_keeps (execMusterArbitration_keeps h _) (ite_keeps (execDroverRestart_keeps h _) (keeps_next h))
  · exact ite_keeps (finishHalted_keeps h) (keeps_next h)
  · exact ite_keeps (execTakePendingTrap_keeps h _) (goOn_keeps h)
  · refine ite_keeps (execTakePendingTrap_keeps h _) ?_
    have hwake := execParkedSlotWakes_keeps h n
    split
    · next t e => exact ite_keeps (goOn_keeps (hwake.mem t e)) (keeps_next (hwake.mem t e))
    · exact hwake

/-! ## Threads that are answered while they are saved -/

theorem State.putImage_memWf (t : Nat) (i : Image) : (s.putImage t i).memWf :=
  foldl_memSet_wf i.mem (clearTile_memWf h t)

theorem State.finishImage_memWf (a t n : Nat) (i : Image) : (s.finishImage a t n i).memWf := by
  unfold State.finishImage
  dsimp only
  split
  · next v e =>
    have hv := (finishHalted_keeps (setAgent_memWf (putImage_memWf h t i) n)).mem v e
    exact setAgent_memWf (onCtx_memWf (putImage_memWf hv ..) ..) _
  · exact h

theorem State.finishAt_memWf {n : Nat} {x y : Slot} {v : State} (e : s.finishAt n x = some (y, v)) : v.memWf := by
  unfold State.finishAt at e
  split at e
  · next w ew =>
    cases e
    exact setAgent_memWf (setSlot_memWf ((finishHalted_keeps (setAgent_memWf (setSlot_memWf h ..) n)).mem w ew) ..) _
  · cases e

theorem State.finishSaved_memWf (asid : Nat) (x : Slot) : (s.finishSaved asid x).memWf := by
  refine State.ite_memWf ?_ ?_
  · split
    · next e => exact onTid_memWf (finishAt_memWf h e) ..
    · exact h
  · split
    · exact h
    · split
      · exact h
      · dsimp only
        split
        · next e =>
          exact onTid_memWf (onCtx_memWf (putImage_memWf (finishAt_memWf (putImage_memWf h ..) e) ..) ..) ..
        · exact h

theorem State.finishAll_memWf : s.finishAll.memWf := by
  refine foldl_keeps State.memWf _ (fun s x h => State.ite_memWf (finishSaved_memWf h ..) h) _
    (foldl_keeps State.memWf _ (fun s e h => ?_) _ h)
  split
  · exact h
  · split
    · exact finishImage_memWf h ..
    · exact h

/-! ## The clock and a core's turn -/

theorem State.tick_memWf : s.tick.memWf :=
  foldl_keeps State.memWf _ (fun _ _ h => savePreempted_memWf h _) _ <|
    foldl_keeps State.memWf _ (fun _ _ h => deliverImages_memWf h ..) _ <|
      foldl_keeps State.memWf _ (fun _ _ h => deliverStats_memWf h _) _ <|
        finishRows_memWf (drainPorts_memWf (deliverComps_memWf (finishAll_memWf (countVotes_memWf h))))

theorem State.advance_memWf : s.advance.memWf := State.ite_memWf h (tick_memWf (by exact h))

theorem State.coreTurn_keeps : Keeps s.coreTurn := by
  have hturn := slotTurn_keeps h s.turnSlot
  unfold State.coreTurn
  split
  · next t e => exact keeps_next (State.ite_memWf (advance_memWf (hturn.mem t e)) (hturn.mem t e))
  · exact hturn

theorem State.ownStep_keeps : Keeps s.ownStep := by
  refine ite_keeps (keeps_next h) ?_
  split
  · exact exec_keeps h _
  · exact coreTurn_keeps h

/-! ## The environment and the step -/

theorem State.bindZero_memWf (qbase qlog evbase evlog journal : Nat) : (s.bindZero qbase qlog evbase evlog journal).memWf :=
  State.ite_memWf h (by exact h)

theorem State.assignPackage_memWf (pkg : BitVec 6) : (s.assignPackage pkg).memWf := State.ite_memWf h h

theorem execEnv_keeps (e : EnvEv) : Keeps (execEnv e s) := by
  cases e with
  | haltContext a => exact keeps_next (State.haltRequest_memWf h a)
  | restoreContext a => exact keeps_next (State.restoreRequest_memWf h a)
  | bindQueue0 => exact keeps_next (State.bindZero_memWf h ..)
  | assignPackage pkg => exact keeps_next (State.assignPackage_memWf h pkg)
  | hostFails | ownStep => exact keeps_next h
  | ringReadFails q => exact keeps_next (State.ringFails_memWf h q _)
  | barRead offset size => exact keeps_next (State.barRead_memWf h offset size)
  | barAtomic => exact keeps_next (State.barDone_memWf h ..)
  | hostStore addr size v => exact keeps_next (State.hostStore_memWf h addr size v)
  | copyLinkError tile ch => exact keeps_next (State.linkError_memWf h tile ch)
  | writesAcked port n => exact keeps_next (State.writesAcked_memWf h port n)
  | writeBack line => exact keeps_next (State.writeBack_memWf h line)

theorem State.nextInput_memWf {i : Input} {t : State} (e : s.nextInput = some (i, t)) : t.memWf := by
  unfold State.nextInput at e
  split at e
  · cases e
  · split at e
    · cases e
      exact h
    · split at e
      · cases e
        exact h
      · cases e

theorem step_keeps : Keeps (step s) := by
  unfold step State.stepAll
  split
  · next e => exact exec_keeps (State.nextInput_memWf h e) _
  · next e => exact State.ownStep_keeps (State.nextInput_memWf h e)
  · next e => exact execEnv_keeps (State.nextInput_memWf h e) _
  · exact State.ownStep_keeps h

end

end Sys2Proof.Machine
end

section

open Sys2Proof Sys2Proof.Machine

/-- Settles O28: every instruction, every event and every core's turn keeps the canonical form of memory. -/
theorem everyStepKeepsMemoryForm : Obligations.EveryStepKeepsMemoryForm := by
  unfold Obligations.EveryStepKeepsMemoryForm
  intro s t h e
  exact (step_keeps h).mem t e

end

section
/-! SUPPORT. What the operand step reads, source by source, and where a result goes (R23 to R27 of spec/02, R57 of spec/03). -/

namespace Sys2Proof.Machine

open Sys2Proof

/-! ## One source -/

theorem State.myCore_onMyCore (s : State) (f : Core → Core) : (s.onMyCore f).myCore = f s.myCore := s.core_onCore ..

theorem State.takeOne_reg_val (s : State) {a : Src} {n : Fin 32} (h : a.op = .g n) : (s.takeOne a).1 = s.me.reg n.val := by
  simp [State.takeOne, h]

theorem State.takeOne_queue_val (s : State) {a : Src} {q : Fin 8} (h : a.op = .q q) :
    (s.takeOne a).1 = (s.myCore.queue q.val).headD 0 := by
  simp [State.takeOne, h]

theorem State.takeOne_mb_val (s : State) {a : Src} {m : Fin 4} (h : a.op = .mb m) :
    (s.takeOne a).1 = Table.val 0 m.val s.myCore.mb := by
  simp [State.takeOne, h]

theorem State.takeOne_reg (s : State) (a : Src) (n : Nat) : (s.takeOne a).2.me.reg n = s.me.reg n := by
  rcases s.takeOne_me a with e | ⟨m, e⟩ <;> simp [e]

/-- Taking a source leaves the words of the mailboxes as they are. -/
theorem State.takeOne_mb (s : State) (a : Src) : (s.takeOne a).2.myCore.mb = s.myCore.mb := by
  unfold State.takeOne
  split
  · dsimp only
    split <;> rfl
  · exact (congrArg Core.mb (s.myCore_onMyCore _)).trans rfl
  · exact (congrArg Core.mb (s.myCore_onMyCore _)).trans rfl

/-- A mailbox that has been read is empty. -/
theorem State.takeOne_mb_empty (s : State) {a : Src} {m : Fin 4} (h : a.op = .mb m) :
    (s.takeOne a).2.myCore.mbFull.getLsbD m.val = false := by
  simp only [State.takeOne, h, State.myCore, State.myCoreNum, State.onMyCore, State.onCore_agent]
  rw [State.core_onCore]
  have hm := m.isLt
  simp [hm]

/-! ## One source and two -/

theorem State.vals_one (s : State) (b : Src) : s.vals [b] = [(s.takeOne b).1] := rfl

theorem State.vals_two (s : State) (b c : Src) : s.vals [b, c] = [(s.takeOne b).1, ((s.takeOne b).2.takeOne c).1] := rfl

theorem State.taken_queue (s : State) (srcs : List Src) (n : Nat) :
    (s.taken srcs).myCore.queue n = (s.myCore.queue n).drop (countQ n (srcs.map (·.op))) := by
  rw [State.taken_myCore, State.takeAll_queue]

theorem countQ_one_self (q : Fin 8) : countQ q.val [.q q] = 1 := by simp [countQ]

theorem countQ_one_other {q : Fin 8} {o : Opnd} (h : o ≠ .q q) : countQ q.val [o] = 0 := by
  cases o with
  | q m => simpa [countQ, Fin.val_inj] using h
  | g | mb => rfl

theorem countQ_two (n : Nat) (o p : Opnd) : countQ n [o, p] = countQ n [o] + countQ n [p] := countQ_cons ..

theorem State.taken_mb_empty (s : State) {b c : Src} {m : Fin 4} (h : b.op = .mb m ∨ c.op = .mb m) :
    (s.taken [b, c]).myCore.mbFull.getLsbD m.val = false := by
  rw [State.taken_myCore]
  rcases h with h | h
  · exact State.takeOne_mbFull _ c _ (s.takeOne_mb_empty h)
  · exact State.takeOne_mb_empty _ h

end Sys2Proof.Machine

open Sys2Proof Sys2Proof.Machine

/-- Settles O8: each source is read as R24 gives it, and of two sources the second finds what the first has left. -/
theorem sourcesReadInOrder : Obligations.SourcesReadInOrder := by
  unfold Obligations.SourcesReadInOrder
  intro b c s
  refine ⟨⟨fun n h => ?_, fun n h => ?_⟩, fun q x l hq => ⟨fun h => ?_, fun h h' => ?_, fun h h' => ?_, fun y k hl h h' => ?_⟩,
    fun m => ⟨fun h => ?_, fun h => ?_, s.taken_mb_empty⟩, fun n => ⟨s.taken_reg _ n, s.taken_reg _ n⟩⟩
  · simp [State.vals_two, State.vals_one, s.takeOne_reg_val h, arg]
  · simp [State.vals_two, State.takeOne_reg_val _ h, State.takeOne_reg, arg]
  · simp [State.vals_one, s.takeOne_queue_val h, State.taken_queue, h, countQ_one_self, hq]
  · simp [State.vals_two, s.takeOne_queue_val h, State.taken_queue, h, countQ_two, countQ_one_self, countQ_one_other h', hq, arg]
  · simp [State.vals_two, State.takeOne_queue_val _ h', State.takeOne_queue, State.taken_queue, h', countQ_two, countQ_one_self,
      countQ_one_other h, hq, arg]
  · simp [State.vals_two, State.takeOne_queue_val _ h, State.takeOne_queue_val _ h', State.takeOne_queue, State.taken_queue, h, h',
      countQ_two, countQ_one_self, hq, hl]
  · have hv := s.takeOne_mb_val h
    exact ⟨hv, congrArg (· :: []) hv, s.takeOne_mb_empty h⟩
  · simp [State.vals_two, State.takeOne_mb_val _ h, State.takeOne_mb, arg]

namespace Sys2Proof.Machine

/-! ## Where a result goes -/

theorem Slot.isFull_setReg (x : Slot) (n : Fin 32) (v : Word) : (x.setReg n.val v).isFull n.val = true := by
  have hn := n.isLt
  by_cases h : n.val = 0 <;> simp [Slot.isFull, Slot.setReg, h, hn]

theorem Slot.isFull_complete (x : Slot) (n : Nat) : x.complete.isFull n = x.isFull n := by simp [Slot.isFull]

theorem State.wrote_reg (s : State) (srcs : List Src) (n : Fin 32) (v : Word) :
    (s.wrote srcs (.g n) v).me = ((s.taken srcs).me.setReg n.val v).complete := by
  simp [State.wrote, State.writeOpnd]

theorem State.wrote_myCore (s : State) (srcs : List Src) (a : Opnd) (v : Word) :
    (s.wrote srcs a v).myCore = ((s.taken srcs).writeOpnd a v).myCore := rfl

end Sys2Proof.Machine

/-- Settles O9: a result is what its register, queue or mailbox holds once the instruction has completed. -/
theorem resultsGoWhereANames : Obligations.ResultsGoWhereANames := by
  unfold Obligations.ResultsGoWhereANames
  intro srcs a v s
  refine ⟨fun n h => ?_, fun q h => ?_, fun m h => ?_⟩ <;> subst h
  · rw [State.wrote_reg, Slot.isFull_complete, Slot.reg_complete]
    refine ⟨?_, Slot.isFull_setReg ..⟩
    split
    · next h => simp [h]
    · next h => exact Slot.reg_setReg _ _ _ h
  · rw [State.wrote_myCore, State.writeOpnd, State.myCore_onMyCore]
    exact val_put_same ..
  · have hm := m.isLt
    rw [State.wrote_myCore, State.writeOpnd, State.myCore_onMyCore]
    exact ⟨val_put_same .., by simp [hm]⟩

/-- Settles O27: every table of the state after reset is empty, so each record reads as its default. -/
theorem resetState : Obligations.ResetState := by
  unfold Obligations.ResetState
  refine ⟨rfl, rfl, rfl, rfl, reset_memWf, fun n => ⟨rfl, fun r hr => ?_, rfl, rfl, rfl, rfl, rfl, rfl, rfl, rfl, rfl, rfl⟩,
    fun c => ⟨fun q => rfl, rfl, fun p => rfl⟩, fun t ch => ⟨rfl, rfl, rfl⟩, fun a => rfl, fun q => rfl, fun p => rfl⟩
  have full : (BitVec.allOnes 32).getLsbD r = true := by rw [BitVec.getLsbD_allOnes, decide_eq_true hr]
  exact (congrArg (r == 0 || ·) full).trans (Bool.or_true _)

end

section
/-! SUPPORT. One turn of a running slot (R20 of spec/02, R42 to R49 of spec/03): from the step to the meaning of the instruction. -/

namespace Sys2Proof.Machine

open Sys2Proof

/-- With no event waiting or due the step is the turn of the core whose turn it is. -/
theorem step_coreTurn {s : State} (hi : s.inputs = []) (hf : s.freeze = .off) (hd : s.due = none) : step s = s.coreTurn := by
  simp [step, State.stepAll, State.nextInput, State.ownStep, hi, hf, hd]

theorem State.slotTurn_running {s : State} {n : Nat} (hs : (s.slot n).status = .running)
    (ht : ({ s with agent := n } : State).trapDue n = false) : s.slotTurn n = ({ s with agent := n } : State).goOn := by
  have hs' : ({ s with agent := n } : State).me.status = .running := hs
  simp [State.slotTurn, hs', ht]

theorem State.goOn_fetches {s : State} (hi : s.me.park.insn = none) (hv : s.me.rep.count = 0 ∨ s.me.rep.spill = [])
    {i : Insn} {nh : Nat} (hf : s.fetch s.agent = .insn i nh) : s.goOn = (s.onMe (·.issue i nh)).runHeld := by
  have hc : (s.me.rep.count != 0 && !s.me.rep.spill.isEmpty) = false := by
    rcases hv with h | h <;> simp [h]
  simp [State.goOn, State.issue, hi, hc, hf]

/-- A line that passes its checks gives the instruction that its head decodes to. -/
theorem decodeAt_ok {ix : Fin 8} {sup : Bool} {pc via : Word} {line : Nat} {i : Insn} (hl : lineCheck line = none)
    (hp : pc.toNat % 2 = 0) (h1 : 1 ≤ pc.toNat / 2 % 32) (h2 : pc.toNat / 2 % 32 ≤ lineNH line)
    (hd : decode ix sup (lineHalf line (pc.toNat / 2 % 32)) (lineTail line (pc.toNat / 2 % 32)) = .ok i) :
    decodeAt ix sup pc via line = .insn i (lineNH line) := by
  have hb : (pc.toNat % 2 != 0 || pc.toNat / 2 % 32 = 0 || lineNH line < pc.toNat / 2 % 32) = false := by
    simp [hp, Nat.ne_of_gt h1, h2]
  simp only [decodeAt, hl, hd, hb, Bool.false_eq_true, if_false]

/-- The slot holds an instruction that nothing has begun. -/
def Slot.holding (x : Slot) (i : Insn) (nh : Nat) : Slot := { x with nh := nh, kept := [], park := { insn := some i } }

/-- A slot with no kept operands issues with its new instruction alone. -/
theorem Slot.issue_fresh {x : Slot} (hk : x.kept = []) (i : Insn) (nh : Nat) : x.issue i nh = x.holding i nh := by
  simp [Slot.issue, Slot.holding, hk]

theorem State.runHeld_insn {s : State} {i : Insn} (ho : s.me.park.out = none) (hi : s.me.park.insn = some i) :
    s.runHeld = execInsn i s := by
  simp [State.runHeld, ho, hi]

theorem State.onMe_congr {s : State} {f g : Slot → Slot} (h : f s.me = g s.me) : s.onMe f = s.onMe g :=
  congrArg (s.setSlot s.agent) h

/-- The issue of a fresh instruction runs its meaning. -/
theorem State.issue_runs {s : State} (hk : s.me.kept = []) (i : Instr) (nh : Nat) :
    (s.onMe (·.issue (.listed i) nh)).runHeld = exec i (s.onMe (·.holding (.listed i) nh)) := by
  have he : (s.onMe (·.holding (.listed i) nh)).me = s.me.holding (.listed i) nh := s.me_onMe _
  rw [State.onMe_congr (g := (·.holding (.listed i) nh)) (Slot.issue_fresh hk (.listed i) nh)]
  exact State.runHeld_insn (i := .listed i) (by rw [he]; rfl) (by rw [he]; rfl)

end Sys2Proof.Machine

open Sys2Proof Sys2Proof.Machine

/-- Settles O29: the turn, the fetch, the decoder and the issue in order; the clock's part is the definition of the next turn. -/
theorem stepRunsDecodedInstruction : Obligations.StepRunsDecodedInstruction := by
  unfold Obligations.StepRunsDecodedInstruction
  refine ⟨?_, fun t => ⟨fun h => ?_, fun h => ?_⟩⟩
  · intro s line i hin hfr hdue n r x h hrun htrap hinsn hkept hvote hline hcheck heven h1 h2 hdec
    have hfetch : r.fetch r.agent = .insn (.listed i) (lineNH line) := by
      simp only [State.fetch]
      rw [show r.fetchLine r.agent = .ok line from hline]
      exact decodeAt_ok hcheck heven h1 h2 hdec
    have hgo : r.goOn = (r.onMe (·.issue (.listed i) (lineNH line))).runHeld :=
      State.goOn_fetches (s := r) hinsn (hvote.imp_right And.left) hfetch
    rw [step_coreTurn hin hfr hdue, State.coreTurn]
    rw [show s.slotTurn s.turnSlot = r.goOn from State.slotTurn_running hrun htrap, hgo, State.issue_runs (s := r) hkept]
    rfl
  · simp [State.advance, Config.cores, h]
  · simp [State.advance, Config.cores, Nat.not_lt.2 h]

end

section
/-! SUPPORT. What an instruction that gives work away leaves alone: a relation between the state before an instruction and a state
within it, and the shared operations of a slot, each of which keeps it. -/

namespace Sys2Proof.Machine

open Sys2Proof

/-! ## Slots -/

/-- The words of a slot that neither parking, completing nor a trap changes, without the general registers and full bits. -/
def Slot.words (x : Slot) : Slot :=
  { tid := x.tid, p := x.p, v := x.v, k := x.k, feretry := x.feretry, rngCtr := x.rngCtr, inl := x.inl, id := x.id
    trap := { tvec := x.trap.tvec, tscratch := x.trap.tscratch }
    sup := { deleg := x.sup.deleg, ptroot := x.sup.ptroot, asid := x.sup.asid, svscratch := x.sup.svscratch } }

/-- `y` is `x` but for what parking, completing or a trap changes; it remembers no other sources than `x`. -/
structure Slot.Mild (x y : Slot) : Prop where
  words : y.words = x.words
  g : y.g = x.g
  full : y.full = x.full
  vals : y.park.vals.isSome = true → x.park.vals.isSome = true
  took : ∀ l, y.park.took = some l → x.park.took = some l

theorem Slot.Mild.refl (x : Slot) : x.Mild x := ⟨rfl, rfl, rfl, fun h => h, fun _ h => h⟩

theorem Slot.Mild.trans {x y z : Slot} (h : x.Mild y) (h' : y.Mild z) : x.Mild z :=
  ⟨h'.words.trans h.words, h'.g.trans h.g, h'.full.trans h.full, h.vals ∘ h'.vals, fun l e => h.took l (h'.took l e)⟩

/-- An update of other fields is mild. -/
theorem Slot.Mild.other {x y : Slot} (hw : y.words = x.words := by rfl) (hg : y.g = x.g := by rfl) (hf : y.full = x.full := by rfl)
    (hv : y.park.vals = x.park.vals := by rfl) (ht : y.park.took = x.park.took := by rfl) : x.Mild y :=
  ⟨hw, hg, hf, by rw [hv]; exact fun h => h, by rw [ht]; exact fun _ h => h⟩

/-- So is one that ends what was parked. -/
theorem Slot.Mild.unparked {x y : Slot} (hw : y.words = x.words := by rfl) (hg : y.g = x.g := by rfl)
    (hf : y.full = x.full := by rfl) (hp : y.park = {} := by rfl) : x.Mild y :=
  ⟨hw, hg, hf, by rw [hp]; exact nofun, by rw [hp]; exact nofun⟩

theorem Slot.mild_ite {x y z : Slot} {c : Prop} [Decidable c] (hy : x.Mild y) (hz : x.Mild z) : x.Mild (if c then y else z) := by
  split
  · exact hy
  · exact hz

theorem Slot.mild_ended (x : Slot) : x.Mild x.ended := by
  unfold Slot.ended
  dsimp only
  split
  · exact .unparked
  · exact .unparked

theorem Slot.mild_complete (x : Slot) : x.Mild x.complete :=
  Slot.Mild.trans (y := { x with loop := x.loopNext.1, pc := x.loopNext.2, via := x.pc }) .other (Slot.mild_ended _)

theorem Slot.mild_keep (x : Slot) (voted : Bool) : x.Mild (x.keep voted) := by
  unfold Slot.keep
  split
  · exact .refl x
  · exact .other

theorem Slot.mild_abandon (x : Slot) : x.Mild x.abandon :=
  (x.mild_keep _).trans .unparked

theorem Slot.mild_unread (x : Slot) : x.Mild x.unread :=
  ⟨rfl, rfl, rfl, by simp [Slot.unread, Slot.unasked], fun _ h => h⟩

theorem Slot.mild_halt (x : Slot) : x.Mild x.halt := by
  have stop : ∀ y : Slot, y.Mild { y with status := .halted } := fun _ => .other
  unfold Slot.halt
  dsimp only
  split
  · split
    · exact stop x
    · exact x.mild_abandon.trans (stop _)
  · split
    · exact x.mild_unread.trans (stop _)
    · split
      · exact x.mild_abandon.trans (stop _)
      · exact Slot.mild_ite (stop x) .other
  · exact .refl x

theorem Slot.mild_parkOn (x : Slot) (w : Wait) : x.Mild (x.parkOn w) := by
  unfold Slot.parkOn
  dsimp only
  split
  · exact Slot.Mild.trans .other (Slot.mild_halt _)
  · exact .other

theorem Slot.mild_checkpointHere (x : Slot) : x.Mild x.checkpointHere := by
  unfold Slot.checkpointHere
  split
  · exact .other
  · exact .refl x

theorem Slot.mild_enter {x y : Slot} {svec : Word} {code : Nat} {tpc taddr : Word} {async : Bool}
    (e : x.enter svec code tpc taddr async = some y) : x.Mild y := by
  unfold Slot.enter at e
  split at e
  · cases e
  · dsimp only at e
    split at e <;> cases e <;> exact (x.mild_keep _).trans .unparked

/-- The slot within an instruction: general register `r` may have been written, the full bits of the registers of `F` may have changed,
and the sources that the instruction has taken are registers of `F`. -/
structure Slot.Calm (F : Nat → Prop) (r : Nat) (x y : Slot) : Prop where
  words : y.words = x.words
  reg : ∀ n, n ≠ r → y.reg n = x.reg n
  full : ∀ n, n < 32 → ¬F n → y.isFull n = x.isFull n
  took : y.park.vals.isSome = true → ∀ l, y.park.took = some l → ∀ a ∈ l, ∀ n, a.op = .g n → F n.val

section

variable {F : Nat → Prop} {r : Nat} {x y z : Slot}

theorem Slot.Calm.start (h : x.park.vals = none) : Slot.Calm F r x x :=
  ⟨rfl, fun _ _ => rfl, fun _ _ _ => rfl, by rw [h]; exact nofun⟩

theorem Slot.Calm.mild (h : Slot.Calm F r x y) (m : y.Mild z) : Slot.Calm F r x z where
  words := m.words.trans h.words
  reg n hn := (Slot.reg_congr m.g n).trans (h.reg n hn)
  full n hn hF := by
    rw [← h.full n hn hF, Slot.isFull, m.full, Slot.isFull]
  took hv l hl := h.took (m.vals hv) l (m.took l hl)

theorem Slot.Calm.fullOnly (h : Slot.Calm F r x y) {f : BitVec 32} (hf : ∀ n, n < 32 → ¬F n → n ≠ 0 → f.getLsbD n = y.full.getLsbD n) :
    Slot.Calm F r x { y with full := f } where
  words := h.words
  reg := h.reg
  full n hn hF := by
    rw [← h.full n hn hF]
    by_cases h0 : n = 0
    · simp [Slot.isFull, h0]
    · simp [Slot.isFull, hf n hn hF h0]
  took := h.took

/-- Bit `m` of a register's mask is set for that register alone. -/
theorem getLsbD_one_shift {m n : Nat} (h : n ≠ m) : (1#32 <<< m).getLsbD n = false := by
  simp only [BitVec.getLsbD_shiftLeft, BitVec.getLsbD_one, Bool.and_eq_false_iff, Bool.not_eq_false', decide_eq_true_eq,
    decide_eq_false_iff_not]
  omega

theorem Slot.Calm.clearFull (h : Slot.Calm F r x y) {m : Nat} (hm : F m) : Slot.Calm F r x (y.clearFull m) := by
  unfold Slot.clearFull
  split
  · exact h
  · refine h.fullOnly fun n hn hF _ => ?_
    have hnm : n ≠ m := fun e => hF (e ▸ hm)
    rw [BitVec.getLsbD_and, BitVec.getLsbD_not, getLsbD_one_shift hnm]
    simp [hn]

theorem Slot.Calm.setFull (h : Slot.Calm F r x y) {m : Nat} (hm : F m) :
    Slot.Calm F r x { y with full := y.full ||| (1#32 <<< m) } := by
  refine h.fullOnly fun n hn hF _ => ?_
  have hnm : n ≠ m := fun e => hF (e ▸ hm)
  rw [BitVec.getLsbD_or, getLsbD_one_shift hnm, Bool.or_false]

theorem Slot.Calm.setReg (h : Slot.Calm F r x y) (hr : F r) (v : Word) : Slot.Calm F r x (y.setReg r v) := by
  by_cases h0 : r = 0
  · rw [show y.setReg r v = y by simp [Slot.setReg, h0]]
    exact h
  · have hf : (y.setReg r v).full = y.full ||| (1#32 <<< r) := by simp [Slot.setReg, h0]
    have hs := h.setFull hr
    refine ⟨?_, fun n hn => (Slot.reg_setReg_other y r n v hn).trans (h.reg n hn), fun n hn hF => ?_, by simpa using h.took⟩
    · simpa [Slot.words] using h.words
    · rw [← hs.full n hn hF, Slot.isFull, hf, Slot.isFull]

end

/-! ## A thread, wherever it stands -/

theorem val_map {α : Type} {d : α} {g : α → α} (hd : g d = d) (n : Nat) (t : Table α) :
    Table.val d n (t.map fun e => (e.1, g e.2)) = g (Table.val d n t) := by
  induction t with
  | nil => exact hd.symm
  | cons e t ih =>
    simp only [List.map_cons, Table.val]
    split
    · rfl
    · exact ih

theorem State.slot_onTid (s : State) (tid : Nat) (f : Slot → Slot) (n : Nat) :
    (s.onTid tid f).slot n = if (s.slot n).tid = tid && (s.slot n).status != .free then f (s.slot n) else s.slot n :=
  val_map (d := ({} : Slot)) (g := fun x => if x.tid = tid && x.status != .free then f x else x) (by simp) n s.slots

theorem State.me_onTid_other {s : State} {tid : Nat} (f : Slot → Slot) (h : tid ≠ s.me.tid) : (s.onTid tid f).me = s.me := by
  refine (s.slot_onTid tid f s.agent).trans (if_neg ?_)
  have hne : (s.slot s.agent).tid ≠ tid := Ne.symm h
  simp [hne]

theorem State.mild_onTid (s : State) (tid : Nat) {f : Slot → Slot} (hf : ∀ x : Slot, x.Mild (f x)) : s.me.Mild (s.onTid tid f).me := by
  rw [show (s.onTid tid f).me = _ from s.slot_onTid tid f s.agent]
  exact Slot.mild_ite (hf _) (Slot.Mild.refl _)

theorem State.slot_onAllSlots (s : State) {f : Slot → Slot} (hf : f {} = {}) (n : Nat) : (s.onAllSlots f).slot n = f (s.slot n) :=
  val_map (d := ({} : Slot)) hf n s.slots

/-- A mirror is another thread. -/
theorem State.mirrors_ne {s : State} {tid : Nat} (h : tid ∈ s.mirrors) : tid ≠ s.me.tid := by
  unfold State.mirrors State.mirrorsOf at h
  split at h
  · obtain ⟨y, hy, rfl⟩ := List.mem_map.1 h
    have hne := (List.mem_filter.1 hy).2
    simp only [Bool.and_eq_true, bne_iff_ne] at hne
    exact hne.1
  · cases h

/-! ## States -/

/-- A freeze goes from off to resumable to terminal. -/
def Freeze.rank : Freeze → Nat
  | .off => 0
  | .on true _ => 1
  | .on false _ => 2

/-- No remote write that has not been acknowledged covers byte `b`. -/
def State.clear (s : State) (b : Nat) : Prop := ∀ e ∈ s.ports, ∀ w ∈ e.2.writes, b < w.pa ∨ w.pa + w.old.length ≤ b

/-- What a state is here, but for its issuing slot, memory and links. -/
def State.frame (s : State) : Nat × Word × List Nat := (s.agent, s.svec, s.feEmpty)

/-- `t` is a state within an instruction that began in `s`. -/
structure State.Calm (F : Nat → Prop) (r : Nat) (s t : State) : Prop where
  frame : t.frame = s.frame
  me : Slot.Calm F r s.me t.me
  mem : (t.freeze = s.freeze ∧ t.mem = s.mem) ∨ s.freeze.rank < t.freeze.rank
  bytes : ∀ b, s.clear b → t.clear b ∧ memByte t.mem b = memByte s.mem b

section

variable {F : Nat → Prop} {r : Nat} {s t u : State}

theorem State.Calm.start (h : s.me.park.vals = none) : State.Calm F r s s :=
  ⟨rfl, .start h, .inl ⟨rfl, rfl⟩, fun _ hb => ⟨hb, rfl⟩⟩

theorem State.Calm.agent (h : State.Calm F r s t) : t.agent = s.agent := congrArg (·.1) h.frame

theorem State.Calm.tid (h : State.Calm F r s t) : t.me.tid = s.me.tid := congrArg (·.tid) h.me.words

theorem State.Calm.keptMem (h : State.Calm F r s t) : s.keptMem t := by
  refine ⟨fun e => ?_, fun b hb => (h.bytes b hb).2⟩
  rcases h.mem with hm | hm
  · exact hm.2
  · rw [e] at hm
    exact absurd hm (Nat.lt_irrefl _)

theorem State.Calm.sameRegs (h : State.Calm F r s t) : s.sameRegs t r :=
  ⟨h.me.reg, congrArg (·.p) h.me.words, congrArg (·.v) h.me.words, congrArg (·.k) h.me.words⟩

theorem State.Calm.sameWords (h : State.Calm F r s t) : s.sameWords t :=
  ⟨congrArg (·.inl) h.me.words, congrArg (·.feretry) h.me.words, congrArg (·.id) h.me.words, congrArg (·.trap.tvec) h.me.words,
    congrArg (·.trap.tscratch) h.me.words, congrArg (·.sup.deleg) h.me.words, congrArg (·.sup.ptroot) h.me.words,
    congrArg (·.sup.asid) h.me.words, congrArg (·.sup.svscratch) h.me.words, congrArg (·.2.1) h.frame⟩

/-- A step that leaves memory and the freeze alone, loses no remote write from sight, and changes the slot as `hm` says. -/
theorem State.Calm.via (h : State.Calm F r s t) (hm : Slot.Calm F r s.me u.me) (hf : u.frame = t.frame := by rfl)
    (hz : u.freeze = t.freeze := by rfl) (he : u.mem = t.mem := by rfl)
    (hc : ∀ b, t.clear b → u.clear b := by exact fun _ hb => hb) : State.Calm F r s u where
  frame := hf.trans h.frame
  me := hm
  mem := by
    rw [hz, he]
    exact h.mem
  bytes b hb := by
    obtain ⟨hc', hb'⟩ := h.bytes b hb
    exact ⟨hc b hc', he ▸ hb'⟩

theorem State.Calm.onMe (h : State.Calm F r s t) {f : Slot → Slot} (hf : Slot.Calm F r s.me t.me → Slot.Calm F r s.me (f t.me)) :
    State.Calm F r s (t.onMe f) :=
  h.via (by
    rw [State.me_onMe]
    exact hf h.me)

theorem State.Calm.mildMe (h : State.Calm F r s t) {f : Slot → Slot} (hf : t.me.Mild (f t.me)) : State.Calm F r s (t.onMe f) :=
  h.onMe (·.mild hf)

/-- An update of a part of the state that no slot, link or memory stands in. -/
theorem State.Calm.other (h : State.Calm F r s t) (hm : u.me = t.me := by rfl) (hf : u.frame = t.frame := by rfl)
    (hz : u.freeze = t.freeze := by rfl) (he : u.mem = t.mem := by rfl) (hp : u.ports = t.ports := by rfl) : State.Calm F r s u :=
  h.via (hm ▸ h.me) hf hz he (fun b hb => by
    unfold State.clear
    rw [hp]
    exact hb)

/-- Slot `n` is the issuing one or another. -/
theorem State.Calm.onSlot (h : State.Calm F r s t) (n : Nat) {f : Slot → Slot}
    (hf : n = t.agent → Slot.Calm F r s.me t.me → Slot.Calm F r s.me (f t.me)) : State.Calm F r s (t.onSlot n f) := by
  refine h.via ?_
  by_cases hn : n = t.agent
  · subst hn
    rw [show (t.onSlot t.agent f).me = f t.me from t.slot_onSlot t.agent f]
    exact hf rfl h.me
  · rw [show (t.onSlot n f).me = t.me from t.slot_onSlot_other n t.agent f (Ne.symm hn)]
    exact h.me

theorem State.Calm.onTid (h : State.Calm F r s t) {tid : Nat} (f : Slot → Slot) (hn : tid ≠ s.me.tid) :
    State.Calm F r s (t.onTid tid f) :=
  h.via (by
    rw [State.me_onTid_other f (by rwa [h.tid])]
    exact h.me)

theorem State.Calm.mildTid (h : State.Calm F r s t) (tid : Nat) {f : Slot → Slot} (hf : ∀ x : Slot, x.Mild (f x)) :
    State.Calm F r s (t.onTid tid f) :=
  h.via (h.me.mild (t.mild_onTid tid hf))

/-! ## Links -/

theorem val_mem {α : Type} (d : α) (k : Nat) (t : Table α) : Table.val d k t = d ∨ (k, Table.val d k t) ∈ t := by
  induction t with
  | nil => exact .inl rfl
  | cons e t ih =>
    obtain ⟨k', v⟩ := e
    simp only [Table.val]
    split
    · next hk => exact .inr (hk ▸ List.mem_cons_self)
    · exact ih.imp_right (List.mem_cons_of_mem _)

/-- Writes over which bytes are out of sight. -/
def clearOf (ws : List RemoteWrite) (b : Nat) : Prop := ∀ w ∈ ws, b < w.pa ∨ w.pa + w.old.length ≤ b

theorem State.clear_port (p : Nat) {b : Nat} (h : t.clear b) : clearOf (t.port p).writes b := by
  rcases val_mem ({} : Port) p t.ports with e | e
  · rw [show t.port p = {} from e]
    exact nofun
  · exact h _ e

theorem State.clear_onPort (p : Nat) {f : Port → Port} {b : Nat} (h : t.clear b)
    (hf : clearOf (t.port p).writes b → clearOf (f (t.port p)).writes b) : (t.onPort p f).clear b := by
  intro e he
  rcases mem_put he with rfl | he
  · exact hf (State.clear_port p h)
  · exact h e he

/-- An update of every port that leaves where the remote writes of each stand. -/
theorem State.clear_mapPorts {f : Nat × Port → Port} {b : Nat} (h : t.clear b)
    (hf : ∀ e ∈ t.ports, clearOf e.2.writes b → clearOf (f e).writes b) :
    ({ t with ports := t.ports.map fun e => (e.1, f e) } : State).clear b := by
  intro e he
  obtain ⟨e', he', rfl⟩ := List.mem_map.1 he
  exact hf e' he' (h e' he')

theorem clearOf_map {ws : List RemoteWrite} {f : RemoteWrite → RemoteWrite} (hf : ∀ w, (f w).pa = w.pa ∧ (f w).old = w.old) {b : Nat}
    (h : clearOf ws b) : clearOf (ws.map f) b := by
  intro w hw
  obtain ⟨v, hv, rfl⟩ := List.mem_map.1 hw
  rw [(hf v).1, (hf v).2]
  exact h v hv

theorem clearOf_settleWrites {ws : List RemoteWrite} {b : Nat} (ps : List Piece) (h : clearOf ws b) : clearOf (settleWrites ps ws) b := by
  intro w hw
  obtain ⟨e, he, rfl⟩ := List.mem_map.1 hw
  have hm : e.1 ∈ ws := (List.mem_zipIdx' he).2 ▸ List.getElem_mem _
  have hp : ∀ n, (if e.2 < n then { e.1 with done := true } else e.1).pa = e.1.pa := fun n => by split <;> rfl
  have ho : ∀ n, (if e.2 < n then { e.1 with done := true } else e.1).old = e.1.old := fun n => by split <;> rfl
  dsimp only
  rw [hp, ho]
  exact h e.1 hm

theorem State.clear_settle (ps : List Piece) {b : Nat} (h : t.clear b) : (t.settle ps).clear b := by
  unfold State.settle
  split
  · exact State.clear_mapPorts (f := fun e => { e.2 with writes := settleWrites ps e.2.writes }) h
      fun _ _ => clearOf_settleWrites ps
  · exact h

end

/-! ## A port goes Down -/

/-- What a freeze's ports going Down may do: marks in the slots, and remote writes taken back that were not acknowledged. -/
structure State.Drops (s t : State) : Prop where
  frame : t.frame = s.frame
  me : s.me.Mild t.me
  freeze : t.freeze = s.freeze
  down : (∀ p, (s.port p).state = .down) → ∀ p, (t.port p).state = .down
  bytes : ∀ b, s.clear b → t.clear b ∧ memByte t.mem b = memByte s.mem b

section

variable {s t u : State}

theorem State.Drops.refl (s : State) : s.Drops s := ⟨rfl, .refl _, rfl, fun h => h, fun _ hb => ⟨hb, rfl⟩⟩

theorem State.Drops.trans (h : s.Drops t) (h' : t.Drops u) : s.Drops u where
  frame := h'.frame.trans h.frame
  me := h.me.trans h'.me
  freeze := h'.freeze.trans h.freeze
  down := h'.down ∘ h.down
  bytes b hb := by
    obtain ⟨hc, e⟩ := h.bytes b hb
    exact ⟨(h'.bytes b hc).1, (h'.bytes b hc).2.trans e⟩

/-- An update of the slots alone. -/
theorem State.Drops.slots (hm : s.me.Mild u.me) (hf : u.frame = s.frame := by rfl) (hz : u.freeze = s.freeze := by rfl)
    (he : u.mem = s.mem := by rfl) (hp : u.ports = s.ports := by rfl) : s.Drops u where
  frame := hf
  me := hm
  freeze := hz
  down h p := by
    rw [← h p, State.port, State.port, hp]
  bytes b hb := by
    refine ⟨?_, he ▸ rfl⟩
    unfold State.clear
    rwa [hp]

theorem State.drops_onTid (s : State) (tid : Nat) {f : Slot → Slot} (hf : ∀ x : Slot, x.Mild (f x)) : s.Drops (s.onTid tid f) :=
  .slots (s.mild_onTid tid hf)

theorem State.drops_onAllSlots (s : State) {f : Slot → Slot} (h0 : f {} = {}) (hf : ∀ x : Slot, x.Mild (f x)) :
    s.Drops (s.onAllSlots f) :=
  .slots (by
    rw [show (s.onAllSlots f).me = f s.me from s.slot_onAllSlots h0 s.agent]
    exact hf s.me)

theorem State.drops_onPort (s : State) (p : Nat) {f : Port → Port}
    (hw : ∀ b, clearOf (s.port p).writes b → clearOf (f (s.port p)).writes b)
    (hd : (s.port p).state = .down → (f (s.port p)).state = .down) : s.Drops (s.onPort p f) where
  frame := rfl
  me := .refl _
  freeze := rfl
  down h q := by
    by_cases hq : q = p
    · subst hq
      rw [show (s.onPort q f).port q = f (s.port q) from val_put_same ..]
      exact hd (h q)
    · rw [show (s.onPort p f).port q = s.port q from val_put_other _ _ _ _ _ hq]
      exact h q
  bytes b hb := ⟨State.clear_onPort p hb (hw b), rfl⟩

theorem State.Drops.foldl {α : Type} {f : State → α → State} {l : List α} (h : s.Drops t)
    (hf : ∀ t, s.Drops t → ∀ a ∈ l, s.Drops (f t a)) : s.Drops (l.foldl f t) :=
  List.foldlRecOn l f h hf

theorem State.drops_loseWrite (s : State) (tids : List Nat) (va : Word) : s.Drops (s.loseWrite tids va) :=
  (Drops.refl s).foldl fun t h _ _ => h.trans (t.drops_onTid _ fun _ => .other)

theorem State.drops_pick (s : State) (n : Nat) : s.Drops (s.pick n).2 := by
  unfold State.pick
  split
  · exact .refl s
  · exact .slots (.refl _)

/-- While every port is Down no other port takes what waits. -/
theorem State.goesBy_down (h : ∀ p, (s.port p).state = .down) (p : Nat) (o : Outgoing) : s.goesBy p o = none := by
  have hn : ∀ k, s.portTo k = none := fun k => List.find?_eq_none.2 fun q _ => by simp [h q]
  unfold State.goesBy
  cases o.dest with
  | none => rfl
  | some k => simp [hn]

theorem State.drops_reroute (h : ∀ p, (s.port p).state = .down) : s.Drops s.reroute := by
  refine (Drops.refl s).foldl fun t ht p _ => ?_
  have hp := t.drops_onPort p (f := fun x => { x with waiting := x.waiting.filter fun o => (t.goesBy p o).isNone })
    (fun _ hb => hb) fun hs => hs
  refine (ht.trans hp).foldl fun u hu o _ => ?_
  rw [goesBy_down (hu.down h)]
  exact hu

/-- A remote write that is taken back changes none but its own bytes. -/
theorem State.Drops.unsent (h : s.Drops t) {w : RemoteWrite} (hw : ∀ b, s.clear b → b < w.pa ∨ w.pa + w.old.length ≤ b) :
    s.Drops (t.unsent w) := by
  unfold State.unsent
  split
  · refine ⟨h.frame, h.me, h.freeze, h.down, fun b hb => ?_⟩
    obtain ⟨hc, e⟩ := h.bytes b hb
    exact ⟨hc, (memByte_memWrite_other _ _ _ _ (hw b hb)).trans e⟩
  · exact h

theorem Slot.mild_cutOff (p : Nat) (x : Slot) : x.Mild (x.cutOff p) :=
  Slot.mild_ite .other (.refl x)

/-- A port of a package all of whose ports are Down goes Down. -/
theorem State.drops_portDown (s : State) (p : Nat) (h : ∀ q, (s.port q).state = .down) : s.Drops (s.portDown p) := by
  have h0 := s.drops_onPort p (f := fun x => { x with state := .down }) (fun _ hb => hb) fun _ => rfl
  refine (h0.trans (drops_reroute (h0.down h))).trans ?_
  unfold State.portDown
  dsimp only
  set t := (s.onPort p fun x => { x with state := .down }).reroute
  refine Drops.trans (.trans (.foldl (.foldl (.foldl (t.drops_pick _) ?unsent) ?lost) ?waiting)
    (drops_onAllSlots _ rfl (Slot.mild_cutOff p))) (drops_onPort _ p (fun _ _ => List.forall_mem_nil _) fun _ => rfl)
  case unsent =>
    refine fun u hu w hw => hu.unsent fun b hb => State.clear_port p hb w ?_
    exact List.mem_of_mem_drop (List.mem_reverse.1 hw)
  case lost => exact fun u hu w _ => hu.trans (u.drops_loseWrite w.tids w.va)
  case waiting =>
    intro u hu o _
    cases o with
    | write tids va r e tied => exact hu.trans (u.drops_loseWrite tids va)
    | request | result | message | reply => exact hu

theorem State.drops_portsDown (s : State) : s.Drops s.portsDown := by
  have all : ∀ p, (({ s with ports := s.ports.map fun e => (e.1, { e.2 with state := .down }) } : State).port p).state = .down :=
    fun p => congrArg Port.state (val_map (d := ({} : Port)) (g := fun x => { x with state := .down }) rfl p s.ports)
  have h : s.Drops { s with ports := s.ports.map fun e => (e.1, { e.2 with state := .down }) } :=
    ⟨rfl, .refl _, rfl, fun _ => all, fun b hb => ⟨State.clear_mapPorts hb fun _ _ hb => hb, rfl⟩⟩
  exact h.trans ((Drops.refl _).foldl fun t ht p _ => ht.trans (t.drops_portDown p (ht.down all)))

end

/-! ## Freezes and traps -/

section

variable {F : Nat → Prop} {r : Nat} {s t u : State}

theorem State.Calm.freezeBy (h : State.Calm F r s t) (resumable : Bool) (src : BitVec 2) :
    State.Calm F r s (t.freezeBy resumable src) := by
  have d := t.drops_portsDown
  have rises : s.freeze.rank ≤ t.freeze.rank := h.mem.elim (fun e => by rw [e.1]) Nat.le_of_lt
  unfold State.freezeBy
  split
  · next hz =>
    refine ⟨d.frame.trans h.frame, h.me.mild d.me, .inr ?_, fun b hb => ?_⟩
    · rw [hz] at rises
      cases resumable
      · exact Nat.lt_succ_of_le (Nat.le_succ_of_le rises)
      · exact Nat.lt_succ_of_le rises
    · obtain ⟨hc, e⟩ := h.bytes b hb
      exact ⟨(d.bytes b hc).1, (d.bytes b hc).2.trans e⟩
  · next x hz =>
    split
    · exact h
    · refine ⟨h.frame, h.me, .inr ?_, h.bytes⟩
      rw [hz] at rises
      exact Nat.lt_succ_of_le rises
  · exact h

theorem State.Calm.trapSlot (h : State.Calm F r s t) (n code : Nat) (tpc taddr : Word) (async : Bool) :
    State.Calm F r s (t.trapSlot n code tpc taddr async) := by
  unfold State.trapSlot
  split
  · next x e => exact h.onSlot n (f := fun _ => x) fun hn hc => hc.mild (Slot.mild_enter (hn ▸ e))
  · exact h.freezeBy false 3

/-- What the issue took stands in `F`, when it stands in the issuing slot. -/
theorem State.Calm.took (h : State.Calm F r s t) {n : Nat} (hn : n = t.agent) {srcs : List Src} {vs : List Word}
    (ht : (t.slot n).park.took = some srcs) (hv : (t.slot n).park.vals = some vs) :
    ∀ a ∈ srcs, ∀ m, a.op = .g m → F m.val := by
  subst hn
  exact h.me.took (by rw [State.me, hv]; rfl) srcs ht

theorem State.Calm.giveOne (h : State.Calm F r s t) (n : Nat) {e : Src × Word}
    (hF : n = t.agent → ∀ m, e.1.op = .g m → F m.val) : State.Calm F r s (t.giveOne n e) := by
  unfold State.giveOne
  split
  · next m hm =>
    split
    · exact h.onSlot n fun hn hc => hc.setFull (hF hn m hm)
    · exact h
  · exact h.other
  · exact h.other

theorem State.Calm.foldl {α : Type} {f : State → α → State} {l : List α} (h : State.Calm F r s t)
    (hf : ∀ u, State.Calm F r s u → ∀ a ∈ l, State.Calm F r s (f u a)) : State.Calm F r s (l.foldl f t) :=
  List.foldlRecOn l f h hf

theorem State.Calm.giveBack (h : State.Calm F r s t) (n : Nat) : State.Calm F r s (t.giveBack n) := by
  unfold State.giveBack
  dsimp only
  split
  · next srcs vs ht hv =>
    split
    · have hF : ∀ e ∈ (srcs.zip vs).reverse, n = s.agent → ∀ m, e.1.op = .g m → F m.val := fun e he hn =>
        h.took (hn.trans h.agent.symm) ht hv e.1 (List.of_mem_zip (List.mem_reverse.1 he)).1
      refine State.Calm.onSlot (h.foldl fun u hu e he => hu.giveOne n fun hn => hF e he (hn.trans hu.agent)) n fun _ hc => ?_
      exact hc.mild ⟨rfl, rfl, rfl, nofun, fun _ hl => hl⟩
    · exact h
  · exact h

theorem State.Calm.trapTo (h : State.Calm F r s t) (n code : Nat) (taddr : Word) : State.Calm F r s (t.trapTo n code taddr) :=
  ((h.giveBack n).onSlot n fun _ hc => hc.mild (Slot.mild_checkpointHere _)).trapSlot ..

theorem State.Calm.trapTid (h : State.Calm F r s t) {tid : Nat} (hn : tid ≠ s.me.tid) (code : Nat) (taddr : Word) :
    State.Calm F r s (t.trapTid tid code taddr) := by
  unfold State.trapTid
  split
  · exact h.trapTo ..
  · split
    · exact h
    · split
      · exact h.onTid _ hn
      · exact h.freezeBy false 3

/-- `P` holds of the state that an outcome goes on in. -/
structure Leads (P : State → Prop) (o : Out) : Prop where
  state : ∀ t, o = .next t → P t

theorem Leads.mono {P Q : State → Prop} {o : Out} (h : Leads P o) (hpq : ∀ t, P t → Q t) : Leads Q o :=
  ⟨fun t e => hpq t (h.state t e)⟩

theorem leads_next {P : State → Prop} (h : P t) : Leads P (.next t) := ⟨fun _ e => by cases e; exact h⟩

theorem leads_ite {P : State → Prop} {c : Prop} [Decidable c] {a b : Out} (ha : c → Leads P a) (hb : ¬c → Leads P b) :
    Leads P (if c then a else b) := by
  split
  · exact ha ‹_›
  · exact hb ‹_›

theorem State.Calm.mirrors_ne (h : State.Calm F r s t) {tid : Nat} (hm : tid ∈ t.mirrors) : tid ≠ s.me.tid :=
  h.tid ▸ State.mirrors_ne hm

theorem State.Calm.trap (h : State.Calm F r s t) (code : Nat) (taddr : Word) : Leads (State.Calm F r s) (t.trap code taddr) :=
  leads_next <| (h.trapTo ..).foldl fun _ hu _ ht => hu.trapTid (h.mirrors_ne ht) ..

theorem State.Calm.onUs (h : State.Calm F r s t) {f : Slot → Slot} (hf : Slot.Calm F r s.me t.me → Slot.Calm F r s.me (f t.me)) :
    State.Calm F r s (t.onUs f) :=
  (h.onMe hf).foldl fun _ hu _ ht => hu.onTid f (h.mirrors_ne ht)

theorem State.Calm.done (h : State.Calm F r s t) : Leads (State.Calm F r s) t.done :=
  leads_next <| h.onUs (·.mild (Slot.mild_complete _))

theorem State.Calm.doneReg (h : State.Calm F r s t) (hr : F r) (v : Word) : Leads (State.Calm F r s) (t.doneRegs [(r, v)]) :=
  leads_next <| h.onUs fun hc => (hc.setReg hr v).mild (Slot.mild_complete _)

theorem State.Calm.park (h : State.Calm F r s t) (w : Wait) : Leads (State.Calm F r s) (t.park w) :=
  leads_next <| h.mildMe (Slot.mild_parkOn _ w)

theorem State.Calm.retry (h : State.Calm F r s t) : Leads (State.Calm F r s) t.retry :=
  leads_next <| h.mildMe .other

end

end Sys2Proof.Machine

end

section
/-! SUPPORT. What the shared operations of an instruction that gives work away lead to, from a calm state. -/

namespace Sys2Proof.Machine

open Sys2Proof

section

variable {F : Nat → Prop} {r : Nat} {s t u : State}

/-! ## The guard and the operands -/

theorem State.Calm.guarded (h : State.Calm F r s t) (g : Guard) {k : State → Out} (hk : Leads (State.Calm F r s) (k t)) :
    Leads (State.Calm F r s) (t.guarded g k) :=
  leads_ite (fun _ => hk) fun _ => h.done

theorem State.Calm.takeOne (h : State.Calm F r s t) {q : Src} (hq : ∀ n, q.op = .g n → F n.val) :
    State.Calm F r s (t.takeOne q).2 := by
  unfold State.takeOne
  split
  · next n hn =>
    dsimp only
    split
    · exact h.onMe fun hc => hc.clearFull (hq n hn)
    · exact h
  · exact h.other
  · exact h.other

theorem State.Calm.takeAll {srcs : List Src} (h : State.Calm F r s t) (hq : ∀ q ∈ srcs, ∀ n, q.op = .g n → F n.val) :
    State.Calm F r s (t.takeAll srcs).2 := by
  induction srcs generalizing t with
  | nil => exact h
  | cons q qs ih =>
    exact ih (h.takeOne (hq q List.mem_cons_self)) fun q hm => hq q (List.mem_cons_of_mem _ hm)

theorem State.Calm.operands (h : State.Calm F r s t) {srcs : List Src} (hq : ∀ q ∈ srcs, ∀ n, q.op = .g n → F n.val) (dsts : List Opnd)
    {k : List Word → State → Out} (hk : ∀ vs u, State.Calm F r s u → Leads (State.Calm F r s) (k vs u)) :
    Leads (State.Calm F r s) (t.operands srcs dsts k) := by
  unfold State.operands
  refine leads_ite (fun _ => h.trap ..) fun _ => ?_
  split
  · exact hk _ t h
  · refine leads_ite (fun _ => hk _ _ ?_) fun _ => h.park _
    refine (h.takeAll hq).onMe fun hc => ⟨hc.words, hc.reg, hc.full, fun _ l hl => ?_⟩
    cases hl
    exact hq

/-! ## Accesses -/

theorem State.Calm.slotMiss (h : State.Calm F r s t) (va : Word) : State.Calm F r s (t.slotMiss va) := h.other

theorem State.Calm.withAccess (h : State.Calm F r s t) (va : Word) (size : Nat) (rd wr : Bool) {k : List Piece → Out}
    (hk : ∀ ps, Leads (State.Calm F r s) (k ps)) : Leads (State.Calm F r s) (t.withAccess va size rd wr k) := by
  unfold State.withAccess
  split
  · exact h.trap ..
  · exact (h.slotMiss _).park _
  · exact hk _

theorem State.Calm.checked (h : State.Calm F r s t) (ea : Word) (n : Nat) (rd wr fmt : Bool) {k : List Piece → Out}
    (hk : ∀ ps, Leads (State.Calm F r s) (k ps)) : Leads (State.Calm F r s) (t.checked ea n rd wr fmt k) :=
  leads_ite (fun _ => h.trap ..) fun _ => h.withAccess _ _ _ _ fun ps => leads_ite (fun _ => h.trap ..) fun _ => hk ps

theorem State.Calm.writable (h : State.Calm F r s t) (ps : List Piece) {k : State → Out} (hk : Leads (State.Calm F r s) (k t)) :
    Leads (State.Calm F r s) (t.writable ps k) :=
  leads_ite (fun _ => h.trap ..) fun _ => hk

theorem State.Calm.readable (h : State.Calm F r s t) (ea : Word) (ps : List Piece) {k : List Byte → State → Out}
    (hk : ∀ bs u, State.Calm F r s u → Leads (State.Calm F r s) (k bs u)) : Leads (State.Calm F r s) (t.readable ea ps k) := by
  unfold State.readable
  split
  · exact h.trap ..
  · refine hk _ _ ?_
    unfold State.settleRead
    split
    · exact h
    · have same : (t.settle ps).me = t.me ∧ (t.settle ps).frame = t.frame ∧ (t.settle ps).freeze = t.freeze ∧ (t.settle ps).mem = t.mem := by
        unfold State.settle
        split <;> exact ⟨rfl, rfl, rfl, rfl⟩
      obtain ⟨hm, hf, hz, he⟩ := same
      exact h.via (hm ▸ h.me) hf hz he fun _ => State.clear_settle ps

/-- A request that goes out, or waits behind a pause, leaves the remote writes where they are. -/
theorem State.Calm.post (h : State.Calm F r s t) (p tid : Nat) (q : Config.Request) : State.Calm F r s (t.post p (.request tid q)) := by
  unfold State.post
  split
  · exact h.via h.me rfl rfl rfl fun _ hb => State.clear_onPort p hb fun hw => hw
  · exact h.via h.me rfl rfl rfl fun _ hb => State.clear_onPort p hb fun hw => hw

theorem State.Calm.send (h : State.Calm F r s t) (va : Word) (ps : List Piece) (as : Piece → Config.Request) :
    Leads (State.Calm F r s) (t.send va ps as) := by
  unfold State.send
  refine State.Calm.park (State.Calm.foldl (h.mildMe .other) fun u hu p _ => ?_) _
  split
  · exact hu.post ..
  · exact hu

theorem State.Calm.farThen (h : State.Calm F r s t) (ea : Word) (ps : List Piece) {k : State → Out}
    (hk : Leads (State.Calm F r s) (k t)) : Leads (State.Calm F r s) (t.farThen ea ps k) :=
  leads_ite (fun _ => h.send ..) fun _ => hk

/-! ## Votes and releases -/

theorem State.Calm.castVote (h : State.Calm F r s t) (v : VoteAt) (record : List Byte) :
    Leads (State.Calm F r s) (t.castVote v record) := by
  unfold State.castVote
  refine leads_ite (fun _ => h.park _) fun _ => leads_ite (fun _ => (h.mildMe .other).trap ..) fun _ => ?_
  split
  · exact h.park _
  · exact (h.mildMe .other).park _

theorem State.Calm.votePoint (h : State.Calm F r s t) (kind : VoteKind) (once : Bool) (record : List Byte) {k : State → Out}
    (hk : ∀ u, State.Calm F r s u → Leads (State.Calm F r s) (k u)) (own : List Held) (sys : Bool) :
    Leads (State.Calm F r s) (t.votePoint kind once record k own sys) := by
  unfold State.votePoint
  refine leads_ite (fun _ => hk t h) fun _ => leads_ite (fun _ => ?_) fun _ => leads_ite (fun _ => h.castVote ..) fun _ => h.castVote ..
  split
  · exact (h.mildMe .other).trap ..
  · exact leads_ite (fun _ => h.park _) fun _ => hk _ (h.mildMe .other)

theorem State.Calm.loseWrite (h : State.Calm F r s t) (tids : List Nat) (va : Word) : State.Calm F r s (t.loseWrite tids va) :=
  h.foldl fun _ hu _ _ => hu.mildTid _ fun _ => .other

theorem State.Calm.loseLate (h : State.Calm F r s t) (tids : List Nat) : State.Calm F r s (t.loseLate tids) := by
  unfold State.loseLate
  dsimp only
  split
  · exact h
  · refine State.Calm.foldl (h.via h.me rfl rfl rfl fun b hb => ?_) fun _ hu w _ => hu.loseWrite w.tids w.va
    refine State.clear_mapPorts (f := fun e => { e.2 with writes := e.2.writes.map fun w => _ }) hb fun e _ => clearOf_map fun w => ?_
    split <;> exact ⟨rfl, rfl⟩

theorem State.Calm.acked (h : State.Calm F r s t) (tids : List Nat) : State.Calm F r s (t.acked tids) := by
  refine h.via h.me rfl rfl rfl fun b hb => ?_
  refine State.clear_mapPorts (f := fun e => { e.2 with writes := List.map _ _ }) hb fun e _ hw => ?_
  exact clearOf_map (f := fun w => { w with done := true }) (fun _ => ⟨rfl, rfl⟩) fun w hm => hw w (List.mem_filter.1 hm).1

theorem State.Calm.releaseSys (h : State.Calm F r s t) (sys : Bool) {k : State → Out}
    (hk : ∀ u, State.Calm F r s u → Leads (State.Calm F r s) (k u)) : Leads (State.Calm F r s) (t.releaseSys sys k) := by
  unfold State.releaseSys
  refine leads_ite (fun _ => hk t h) fun _ => leads_ite (fun _ => h.park _) fun _ => ?_
  have hl := h.loseLate (t.me.tid :: t.mirrors)
  dsimp only
  split
  · exact (hl.onUs (·.mild .other)).trap ..
  · exact leads_ite (fun _ => hl.park _) fun _ => hk _ (hl.acked _)

theorem State.Calm.fails (h : State.Calm F r s t) (e : Code) : Leads (State.Calm F r s) (t.fails e) :=
  leads_ite (fun _ => leads_ite (fun _ => h.retry) fun _ => (h.slotMiss _).park _) fun _ => h.trap ..

theorem State.Calm.releaseAt (h : State.Calm F r s t) (scope : Scope) : Leads (State.Calm F r s) (releaseAt scope t) := by
  have go : ∀ u, State.Calm F r s u → Leads (State.Calm F r s) (u.releaseSys (scope == .sys) fun s => s.done) :=
    fun u hu => hu.releaseSys _ fun _ hv => hv.done
  exact leads_ite (fun _ => h.votePoint _ _ _ go _ _) fun _ => go t h

/-! ## The crook and the matrix array -/

theorem State.Calm.lease (h : State.Calm F r s t) (n : Nat) (l : Lease) : State.Calm F r s (t.onSlot n fun x => { x with lease := l }) :=
  h.onSlot n fun _ hc => hc.mild .other

theorem State.Calm.grant (h : State.Calm F r s t) (n : Nat) : State.Calm F r s (t.grant n) := by
  unfold State.grant
  dsimp only
  split
  · exact h
  · split
    · exact h
    · split
      · exact (State.Calm.other h).lease _ _
      · exact h.other

theorem State.Calm.passCrook (h : State.Calm F r s t) (n : Nat) : State.Calm F r s (t.passCrook n) := by
  unfold State.passCrook
  dsimp only
  split
  · exact h.grant n
  · split
    · exact (State.Calm.other h).grant n
    · exact h

theorem State.Calm.leaveCrook (h : State.Calm F r s t) (n : Nat) (l : Lease) : State.Calm F r s (t.leaveCrook n l) := by
  unfold State.leaveCrook
  dsimp only
  split
  · exact (State.Calm.other (h.lease n l)).passCrook _
  · exact h.lease n l

theorem State.Calm.leaseBound (h : State.Calm F r s t) (n : Nat) : State.Calm F r s (t.leaseBound n) := by
  unfold State.leaseBound
  split
  · exact h
  · split
    · exact h
    · split
      · exact h.leaveCrook _ _
      · exact h.other

theorem State.Calm.wantCrook (h : State.Calm F r s t) : State.Calm F r s t.wantCrook :=
  (h.mildMe (f := fun x => { x with lease := .waiting }) .other).grant _

theorem State.Calm.enqueueMat (h : State.Calm F r s t) (cmd : MatCmd) : State.Calm F r s (t.enqueueMat cmd) := by
  unfold State.enqueueMat
  have hd := h.mildMe (f := fun x => { x with srCtr := x.srCtr + cmd.draws }) .other
  extract_lets n m x w d q
  have hq : State.Calm F r s q := State.Calm.other hd
  split
  · exact hq.leaseBound _
  · exact hq

theorem State.Calm.matError (h : State.Calm F r s t) {k : State → Out} (hk : Leads (State.Calm F r s) (k t)) :
    Leads (State.Calm F r s) (t.matError k) := by
  unfold State.matError
  dsimp only
  split
  · exact (State.Calm.other h).trap ..
  · exact hk

theorem State.Calm.matFirst (h : State.Calm F r s t) {k : State → Out}
    (hk : ∀ u, State.Calm F r s u → Leads (State.Calm F r s) (k u)) : Leads (State.Calm F r s) (t.matFirst k) :=
  leads_ite (fun _ => h.matError (hk _ (h.mildMe .other))) fun _ => hk t h

theorem State.Calm.acceptNow (h : State.Calm F r s t) (q : MatReq) : Leads (State.Calm F r s) (t.acceptNow q) := by
  unfold State.acceptNow
  refine leads_ite (fun _ => h.park _) fun _ => ?_
  split
  · exact h.trap ..
  · exact (h.enqueueMat _).done

theorem State.Calm.leased (h : State.Calm F r s t) (q : MatReq) : Leads (State.Calm F r s) (t.leased q) := by
  unfold State.leased
  split
  · exact h.trap ..
  · exact h.acceptNow q
  · exact leads_ite (fun _ => h.wantCrook.acceptNow q) fun _ => h.wantCrook.park _

theorem State.Calm.matrixCommand (h : State.Calm F r s t) (gd : Guard) {srcs : List Src} (hq : ∀ q ∈ srcs, ∀ n, q.op = .g n → F n.val)
    (q : List Word → MatReq) : Leads (State.Calm F r s) (matrixCommand gd srcs q t) :=
  h.guarded gd <| h.operands hq _ fun _ _ hu => hu.matFirst fun _ hv => hv.leased _

/-! ## Filter windows -/

theorem State.Calm.rowCheck (h : State.Calm F r s t) (w : Nat) (row : Word) {k : Window → Out}
    (hk : ∀ x, Leads (State.Calm F r s) (k x)) : Leads (State.Calm F r s) (t.rowCheck w row k) := by
  unfold State.rowCheck
  split
  · exact h.trap ..
  · exact leads_ite (fun _ => h.trap ..) fun _ => leads_ite (fun _ => h.trap ..) fun _ => hk _

theorem Slot.Calm.issued {x y : Slot} (h : Slot.Calm F r x y) {m : Nat} (hm : F m) : Slot.Calm F r x (y.issued m) :=
  (h.clearFull hm).mild .other

theorem State.Calm.queueFilter (h : State.Calm F r s t) (w : Nat) (op : FilterOp) {reg : Nat} (hr : F reg) :
    Leads (State.Calm F r s) (t.queueFilter w op reg) :=
  leads_next <| State.Calm.onUs (State.Calm.other h) fun hc => (hc.issued hr).mild (Slot.mild_complete _)

theorem State.Calm.closeWindow (h : State.Calm F r s t) (w : Nat) (vs : List Word) : Leads (State.Calm F r s) (closeWindow w vs t) :=
  h.votePoint _ _ _ (fun _ hu => leads_ite (fun _ => hu.trap ..) fun _ => State.Calm.done (State.Calm.other hu)) _ _

theorem State.Calm.openWindow (h : State.Calm F r s t) (w : Nat) (ea : Word) (v : Nat) :
    Leads (State.Calm F r s) (t.openWindow w ea v) := by
  unfold State.openWindow
  dsimp only
  split
  · exact (h.slotMiss _).park _
  · split
    · exact h.trap ..
    · exact State.Calm.done (State.Calm.other h)

theorem State.Calm.pickIssue (h : State.Calm F r s t) (reset nb stream : Bool) {a : Nat} (ha : F a) (w : Nat) (vs : List Word) :
    Leads (State.Calm F r s) (t.pickIssue reset nb stream a w vs) := by
  unfold State.pickIssue
  refine h.votePoint _ _ _ (fun u hu => ?_) _ _
  refine hu.rowCheck _ _ fun x => ?_
  split
  · exact hu.fails _
  · exact hu.queueFilter _ _ ha

end

end Sys2Proof.Machine

end

section
/-! O41 of APPROVED.json: the frame of the instructions that give the engines their work. -/

namespace Sys2Proof.Machine

open Sys2Proof

/-- The registers whose full bits an instruction with result A and sources B and C may change; g0's reads 1. -/
def namedRegs (a : Fin 32) (b c : Src) (n : Nat) : Prop := n = a.val ∨ n = 0 ∨ ∃ q ∈ [b, c], q.op = .g (Fin.ofNat 32 n)

/-- What an issue of engine work with result A and sources B and C keeps, but for RNGCTR. -/
def State.issueKeeps (s t : State) (a : Fin 32) (b c : Src) : Prop :=
  s.sameRegs t a.val ∧ s.sameWords t ∧ s.keptMem t ∧ t.feEmpty = s.feEmpty ∧
    ∀ n, n ≠ a.val → (∀ q ∈ [b, c], q.op ≠ .g (Fin.ofNat 32 n)) → n < 32 → t.me.isFull n = s.me.isFull n

section

variable {a : Fin 32} {b c : Src} {s t : State}

theorem namedRegs_result : namedRegs a b c a.val := .inl rfl

/-- Sources among B, C and g0 have their full bits in `namedRegs`. -/
theorem namedRegs_srcs {srcs : List Src} (h : ∀ q ∈ srcs, q ∈ [b, c] ∨ q.op = .g 0) :
    ∀ q ∈ srcs, ∀ n : Fin 32, q.op = .g n → namedRegs a b c n.val := by
  intro q hq n hn
  rcases h q hq with hm | h0
  · exact .inr (.inr ⟨q, hm, by rw [hn, Fin.ofNat_val_eq_self]⟩)
  · obtain rfl : n = 0 := Opnd.g.inj (hn.symm.trans h0)
    exact .inr (.inl rfl)

theorem namedRegs_one : ∀ q ∈ [b], ∀ n : Fin 32, q.op = .g n → namedRegs a b c n.val :=
  namedRegs_srcs fun _ hq => .inl (List.mem_cons.2 (.inl (List.mem_singleton.1 hq)))

theorem namedRegs_both : ∀ q ∈ [b, c], ∀ n : Fin 32, q.op = .g n → namedRegs a b c n.val := namedRegs_srcs fun _ hq => .inl hq

theorem State.Calm.issueKeeps (h : State.Calm (namedRegs a b c) a.val s t) : s.issueKeeps t a b c := by
  refine ⟨h.sameRegs, h.sameWords, h.keptMem, congrArg (·.2.2) h.frame, fun n ha hq hn => ?_⟩
  by_cases h0 : n = 0
  · simp [Slot.isFull, h0]
  · refine h.me.full n hn ?_
    rintro (rfl | rfl | ⟨q, hm, e⟩)
    · exact ha rfl
    · exact h0 rfl
    · exact hq q hm e

/-- RAND counts its draw. -/
theorem execRand_issueKeeps (h : s.atStart) (gd : Guard) (f : Bool) : Leads (s.issueKeeps · a b c) (execRand gd f a s) := by
  obtain ⟨hv, -, -⟩ := h
  have drawn : ∀ t, State.Calm (namedRegs a b c) a.val (s.onMe fun x => { x with rngCtr := x.rngCtr + 1 }) t → s.issueKeeps t a b c := by
    intro t ht
    obtain ⟨hr, hw, hm, hf, hl⟩ := ht.issueKeeps
    unfold State.sameRegs at hr
    unfold State.sameWords at hw
    simp only [State.me_onMe] at hr hw hl
    exact ⟨hr, hw, hm, hf, hl⟩
  refine leads_ite (fun _ => ?_) fun _ => (State.Calm.start hv).done.mono fun _ => State.Calm.issueKeeps
  refine ((State.Calm.start ?_).doneReg namedRegs_result _).mono drawn
  rw [State.me_onMe]
  exact hv

/-- Whether RAND or another row, what it keeps; RNGCTR too unless it is RAND. -/
def State.issueFrame (s : State) (gd : Guard) (a : Fin 32) (b c : Src) (i : Instr) : Prop :=
  Leads (fun t => s.issueKeeps t a b c ∧ ((∀ y, i ≠ .rand gd y a) → t.me.rngCtr = s.me.rngCtr)) (exec i s)

theorem issueFrame_of_calm {gd : Guard} {i : Instr} (h : Leads (State.Calm (namedRegs a b c) a.val s) (exec i s)) :
    s.issueFrame gd a b c i :=
  h.mono fun _ ht => ⟨ht.issueKeeps, fun _ => congrArg (·.rngCtr) ht.me.words⟩

/-- The matrix commands. -/
theorem matrixOps_issueFrame (h : s.atStart) (gd : Guard) (e : Fin 64) (k n r m : Fin 128) (l : Fin 5) (x y : Bool) :
    ∀ i ∈ (Stmt.matrixOps gd b c e k n r m l x y).map (·.1), s.issueFrame gd a b c i := by
  have hs : State.Calm (namedRegs a b c) a.val s s := .start h.1
  simp only [Stmt.matrixOps, List.map_cons, List.map_nil, List.forall_mem_cons]
  exact ⟨issueFrame_of_calm (hs.matrixCommand gd namedRegs_one _), issueFrame_of_calm (hs.matrixCommand gd (List.forall_mem_nil _) _),
    issueFrame_of_calm (hs.matrixCommand gd namedRegs_one _), issueFrame_of_calm (hs.matrixCommand gd namedRegs_both _),
    issueFrame_of_calm (hs.matrixCommand gd namedRegs_both _), issueFrame_of_calm (hs.matrixCommand gd namedRegs_both _), List.forall_mem_nil _⟩

section

variable {r : Nat} {F : Nat → Prop}

/-- The crook's instructions. -/
theorem State.Calm.execMlease (h : State.Calm F r s t) (gd : Guard) : Leads (State.Calm F r s) (execMlease gd t) :=
  h.guarded gd <| h.matFirst fun _ hu => leads_ite (fun _ => hu.done) fun _ =>
    leads_ite (fun _ => hu.wantCrook.done) fun _ => hu.wantCrook.park _

theorem State.Calm.execMstat (h : State.Calm F r s t) (gd : Guard) {a : Fin 32} (ha : r = a.val) (hr : F r) :
    Leads (State.Calm F r s) (execMstat gd a t) := by
  subst ha
  refine h.guarded gd <| h.matError <| leads_ite (fun _ => h.doneReg hr _) fun _ => ?_
  exact State.Calm.done (State.Calm.other (h.onMe (f := (·.clearFull a.val)) fun hc => hc.clearFull hr))

theorem State.Calm.execDcanResume (h : State.Calm F r s t) (gd : Guard) (ch : Fin 16) :
    Leads (State.Calm F r s) (execDcanResume gd ch t) :=
  h.guarded gd <| State.Calm.done <| State.Calm.other h

theorem State.Calm.execRmark (h : State.Calm F r s t) (gd : Guard) {a : Fin 32} (ha : r = a.val) (hr : F r) (f : Fin 4) :
    Leads (State.Calm F r s) (execRmark gd a f t) := by
  subst ha
  exact h.guarded gd <| h.doneReg hr _

theorem State.Calm.execFopenClose (h : State.Calm F r s t) (gd : Guard) (w : Fin 256) (x : Bool)
    (h0 : ∀ q ∈ [(⟨.g 0, x⟩ : Src)], ∀ n, q.op = .g n → F n.val) : Leads (State.Calm F r s) (execFopenClose gd w x t) :=
  h.guarded gd <| h.operands h0 _ fun vs _ hu => hu.closeWindow w.val vs

theorem State.Calm.execRpert (h : State.Calm F r s t) (gd : Guard) {b : Src} (hb : ∀ q ∈ [b], ∀ n, q.op = .g n → F n.val) :
    Leads (State.Calm F r s) (execRpert gd b t) := by
  refine h.guarded gd <| leads_ite (fun _ => h.trap ..) fun _ => h.operands hb _ fun vs u hu => ?_
  refine (hu.mildMe ?_).done
  exact Slot.mild_ite (.refl _) .other

theorem State.Calm.execFopen (h : State.Calm F r s t) (gd : Guard) (w : Fin 256) {b : Src}
    (hb : ∀ q ∈ [b], ∀ n, q.op = .g n → F n.val) : Leads (State.Calm F r s) (execFopen gd w b t) := by
  refine h.guarded gd <| h.operands hb _ fun vs u hu => leads_ite (fun _ => hu.closeWindow ..) fun _ => ?_
  refine hu.checked _ _ _ _ _ fun ps => hu.votePoint _ _ _ (fun v hv => ?_) _ _
  exact leads_ite (fun _ => hv.trap ..) fun _ => hv.farThen _ _ <| hv.readable _ _ fun _ _ hx => hx.openWindow ..

theorem State.Calm.execFshort (h : State.Calm F r s t) (gd : Guard) (reset nb : Bool) {a : Fin 32} (ha : F a.val) (w : Fin 256) {b c : Src}
    (hq : ∀ q ∈ [b, c], ∀ n, q.op = .g n → F n.val) : Leads (State.Calm F r s) (execFshort gd reset nb a w b c t) := by
  refine h.guarded gd <| h.operands hq _ fun vs u hu => hu.rowCheck _ _ fun x => leads_ite (fun _ => hu.trap ..) fun _ => ?_
  exact hu.withAccess _ _ _ _ fun ps => leads_ite (fun _ => hu.trap ..) fun _ => hu.writable _ <| hu.queueFilter _ _ ha

theorem State.Calm.execFpick (h : State.Calm F r s t) (gd : Guard) (reset nb : Bool) {a : Fin 32} (ha : F a.val) (w : Fin 256) {b c : Src}
    (hq : ∀ q ∈ [b, c], ∀ n, q.op = .g n → F n.val) : Leads (State.Calm F r s) (execFpick gd reset nb a w b c t) := by
  refine h.guarded gd <| h.operands hq _ fun vs u hu => leads_ite (fun _ => hu.pickIssue _ _ _ ha _ _) fun _ => ?_
  refine leads_ite (fun _ => hu.trap ..) fun _ => hu.withAccess _ _ _ _ fun ps => leads_ite (fun _ => hu.trap ..) fun _ => ?_
  exact hu.writable _ <| hu.pickIssue _ _ _ ha _ _

theorem State.Calm.execQwait (h : State.Calm F r s t) (gd : Guard) {a : Fin 32} (ha : r = a.val) (hr : F r) {b : Src}
    (hb : ∀ q ∈ [b], ∀ n, q.op = .g n → F n.val) : Leads (State.Calm F r s) (execQwait gd a b t) := by
  subst ha
  exact h.guarded gd <| h.operands hb _ fun _ _ hu => leads_ite (fun _ => hu.doneReg hr _) fun _ => hu.park _

theorem State.Calm.execQwaitNow (h : State.Calm F r s t) (gd : Guard) {a : Fin 32} (ha : r = a.val) (hr : F r) :
    Leads (State.Calm F r s) (execQwaitNow gd a t) := by
  subst ha
  have ends : ∀ u, State.Calm F a.val s u → ∀ e : Word,
      Leads (State.Calm F a.val s) (if e ≤ u.qdone then u.doneRegs [(a.val, u.qdone)] else u.park (.quiet e)) :=
    fun u hu e => leads_ite (fun _ => hu.doneReg hr _) fun _ => hu.park _
  refine h.guarded gd (ends _ ?_ _)
  split
  · exact State.Calm.mildMe (State.Calm.other h) .other
  · exact h

theorem State.Calm.execPtsync (h : State.Calm F r s t) (gd : Guard) (kind : SyncKind) {a : Fin 32} (ha : r = a.val) (hr : F r) {b : Src}
    (hb : ∀ q ∈ [b], ∀ n, q.op = .g n → F n.val) : Leads (State.Calm F r s) (execPtsync gd kind a b t) := by
  subst ha
  refine h.guarded gd <| leads_ite (fun _ => h.trap ..) fun _ => h.operands hb _ fun vs u hu => ?_
  exact State.Calm.doneReg (State.Calm.other hu) hr _

end

/-- The other rows. -/
theorem engineRows_issueFrame (h : s.atStart) (gd : Guard) (w : Fin 256) (ch : Fin 16) (sc : Scope) (f : Fin 4) (kind : SyncKind)
    (x y : Bool) :
    ∀ i ∈ [.mlease gd, .mfree, .mstat gd a, .dcanResume gd ch, .rrel gd sc, .rmark gd a f, .rpert gd b, .fopen gd w b,
      .fopenClose gd w x, .fshort gd x y a w b c, .fpick gd x y a w b c, .rand gd x a, .qwait gd a b, .qwaitNow gd a,
      .ptsync gd kind a b], s.issueFrame gd a b c i := by
  have hs : State.Calm (namedRegs a b c) a.val s s := .start h.1
  have hr : namedRegs a b c a.val := namedRegs_result
  have zero := namedRegs_srcs (a := a) (b := b) (c := c) (srcs := [⟨.g 0, x⟩]) fun _ hq => .inr (by rw [List.mem_singleton.1 hq])
  simp only [List.forall_mem_cons]
  refine ⟨issueFrame_of_calm (hs.execMlease gd), issueFrame_of_calm (hs.leaveCrook _ _).done, issueFrame_of_calm (hs.execMstat gd rfl hr),
    issueFrame_of_calm (hs.execDcanResume gd ch), issueFrame_of_calm (hs.guarded gd (hs.releaseAt sc)),
    issueFrame_of_calm (hs.execRmark gd rfl hr f), issueFrame_of_calm (hs.execRpert gd namedRegs_one),
    issueFrame_of_calm (hs.execFopen gd w namedRegs_one), issueFrame_of_calm (hs.execFopenClose gd w x zero),
    issueFrame_of_calm (hs.execFshort gd x y hr w namedRegs_both), issueFrame_of_calm (hs.execFpick gd x y hr w namedRegs_both), ?rand,
    issueFrame_of_calm (hs.execQwait gd rfl hr namedRegs_one), issueFrame_of_calm (hs.execQwaitNow gd rfl hr),
    issueFrame_of_calm (hs.execPtsync gd kind rfl hr namedRegs_one), List.forall_mem_nil _⟩
  case rand => exact (execRand_issueKeeps h gd x).mono fun _ ht => ⟨ht, fun hne => absurd rfl (hne x)⟩

end

end Sys2Proof.Machine

open Sys2Proof Sys2Proof.Machine

/-- Settles O41: every row's step is calm (`State.Calm`), whatever it parks on or traps with; RAND's alone counts a draw. -/
theorem engineIssueFrame : Obligations.EngineIssueFrame := by
  intro gd b c e k n r m l x y a w ch sc f kind s t i h hi he
  have frame : s.issueFrame gd a b c i := (List.mem_append.1 hi).elim (matrixOps_issueFrame h gd e k n r m l x y i)
    (engineRows_issueFrame h gd w ch sc f kind x y i)
  obtain ⟨⟨hr, hw, hm, hf, hl⟩, hc⟩ := frame.state t he
  exact ⟨hr, hw, hm, hf, hc, hl⟩

end

section
/-! SUPPORT. A precise trap of the issuing slot (R343 of spec/23), and O23 and O48 of APPROVED.json. -/

namespace Sys2Proof.Machine

open Sys2Proof

/-! ## Trap entry -/

/-- Where a trap enters: the context's handler or the supervisor's. -/
theorem Slot.enter_user {x : Slot} (h : x.sup.sinh = false) (svec : Word) (code : Nat) (tpc taddr : Word) (async : Bool) :
    ∃ y, x.enter svec code tpc taddr async = some y ∧
      (Stmt.toContext x code → y.pc = x.trap.tvec ∧ y.sup = x.sup ∧
        y.trap = { x.trap with tcause := BitVec.ofNat 10 code, tpc := tpc, taddr := taddr, async := async, inh := true }) ∧
      (¬Stmt.toContext x code → y.pc = svec ∧ y.trap = x.trap ∧
        y.sup = { x.sup with scause := BitVec.ofNat 10 code, spc := tpc, saddr := taddr, async := async, nest := x.trap.inh,
                             sinh := true }) := by
  have hk : ∀ v, (x.keep v).sup = x.sup ∧ (x.keep v).trap = x.trap := fun v => by
    unfold Slot.keep
    split <;> exact ⟨rfl, rfl⟩
  obtain ⟨hs, ht⟩ := hk (async && x.park.voted)
  have hc : Stmt.toContext x code ↔
      (code / 64 % 16 == 2 || x.sup.deleg.getLsbD (code / 64 % 16) || x.trap.tvec == 0 || x.trap.inh) = false := by
    simp [Stmt.toContext, and_assoc]
  unfold Slot.enter
  rw [if_neg (by simp [h])]
  dsimp only
  rw [hs, ht]
  by_cases hx : Stmt.toContext x code
  · rw [if_neg (by rw [hc.1 hx]; exact Bool.false_ne_true)]
    exact ⟨_, rfl, fun _ => ⟨rfl, rfl, rfl⟩, fun hn => absurd hx hn⟩
  · rw [if_pos (Bool.eq_true_of_not_eq_false (mt hc.2 hx))]
    exact ⟨_, rfl, fun hy => absurd hy hx, fun _ => ⟨rfl, rfl, rfl⟩⟩

/-- What a trap entry of slot `n` looks at. -/
def State.trapView (s : State) (n : Nat) : Freeze × List Host.Cell × Word × SupTrap × CtxTrap :=
  (s.freeze, s.mem, s.svec, (s.slot n).sup, (s.slot n).trap)

/-- An update of the slot that leaves its trap words alone. -/
theorem State.trapView_onSlot (s : State) (n : Nat) {f : Slot → Slot} (hs : (f (s.slot n)).sup = (s.slot n).sup)
    (ht : (f (s.slot n)).trap = (s.slot n).trap) : (s.onSlot n f).trapView n = s.trapView n := by
  simp only [State.trapView, State.slot_onSlot, hs, ht, State.onSlot_freeze, State.onSlot_mem, State.onSlot_svec]

theorem State.trapView_giveOne (s : State) (n : Nat) (e : Src × Word) : (s.giveOne n e).trapView n = s.trapView n := by
  unfold State.giveOne
  split
  · split
    · exact s.trapView_onSlot n rfl rfl
    · rfl
  · rfl
  · rfl

theorem State.trapView_giveBack (s : State) (n : Nat) : (s.giveBack n).trapView n = s.trapView n := by
  unfold State.giveBack
  dsimp only
  split
  · split
    · exact (State.trapView_onSlot _ n rfl rfl).trans (foldl_same (·.trapView n) _ (fun s e => s.trapView_giveOne n e) _ _)
    · rfl
  · rfl

theorem Slot.checkpointHere_sup (x : Slot) : x.checkpointHere.sup = x.sup := by
  unfold Slot.checkpointHere
  split <;> rfl

theorem Slot.checkpointHere_trap (x : Slot) : x.checkpointHere.trap = x.trap := by
  unfold Slot.checkpointHere
  split <;> rfl

/-- The slot as `trapTo` finds it at its entry has the trap words that it had. -/
theorem State.trapView_beforeEntry (s : State) (n : Nat) : ((s.giveBack n).onSlot n Slot.checkpointHere).trapView n = s.trapView n :=
  (State.trapView_onSlot _ n (Slot.checkpointHere_sup _) (Slot.checkpointHere_trap _)).trans (s.trapView_giveBack n)

/-- Nothing is given back of an issue that has taken nothing. -/
theorem State.giveBack_none {s : State} {n : Nat} (h : (s.slot n).park.took = none ∨ (s.slot n).park.vals = none) :
    s.giveBack n = s := by
  unfold State.giveBack
  dsimp only
  split
  · next ht hv =>
    rcases h with h | h
    · rw [h] at ht
      cases ht
    · rw [h] at hv
      cases hv
  · rfl

/-- At user level a trap entry is an update of the slot alone. -/
theorem State.trapSlot_eq_setSlot {s : State} {n : Nat} (h : (s.slot n).sup.sinh = false) (code : Nat) (tpc taddr : Word) (async : Bool) :
    ∃ y, s.trapSlot n code tpc taddr async = s.setSlot n y := by
  obtain ⟨y, e, -⟩ := Slot.enter_user h s.svec code tpc taddr async
  exact ⟨y, by simp only [State.trapSlot, e]⟩

/-- A trap at user level that gives nothing back is an update of the slot alone. -/
theorem State.trapTo_eq_setSlot {s : State} {n : Nat} (h : (s.slot n).park.took = none ∨ (s.slot n).park.vals = none)
    (hs : (s.slot n).sup.sinh = false) (code : Nat) (taddr : Word) :
    ∃ y, s.trapTo n code taddr = (s.onSlot n Slot.checkpointHere).setSlot n y := by
  rw [State.trapTo, State.giveBack_none h]
  exact State.trapSlot_eq_setSlot (by rw [State.slot_onSlot, Slot.checkpointHere_sup, hs]) ..

theorem State.trap_alone {s : State} (h : s.me.park.once = false) (code : Nat) (taddr : Word) :
    s.trap code taddr = .next (s.trapTo s.agent code taddr) := by
  simp only [State.trap, s.mirrors_nil h, List.foldl_nil]

/-- `u` is a state within the issuing slot's instruction that still stands at it, with `s` the state at the start. -/
structure State.Stands (s u : State) : Prop where
  calm : State.Calm (fun _ => True) 32 s u
  once : u.me.park.once = false
  pc : u.me.pc = s.me.pc
  view : u.trapView u.agent = s.trapView s.agent

theorem State.Stands.start {s : State} (h : s.atStart) : s.Stands s := ⟨.start h.1, h.2.2, rfl, rfl⟩

/-- A trap entry of the issuing slot at user level. -/
theorem State.trapSlot_user {s v : State} {n : Nat} (hv : v.trapView n = s.trapView s.agent) (hn : v.agent = n)
    (hs : s.me.sup.sinh = false) (code : Nat) (tpc taddr : Word) (async : Bool) :
    let t := v.trapSlot n code tpc taddr async
    t.mem = s.mem ∧
      (Stmt.toContext s.me code → t.me.pc = s.me.trap.tvec ∧ t.me.sup = s.me.sup ∧
        t.me.trap = { s.me.trap with tcause := BitVec.ofNat 10 code, tpc := tpc, taddr := taddr, async := async, inh := true }) ∧
      (¬Stmt.toContext s.me code → t.me.pc = s.svec ∧ t.me.trap = s.me.trap ∧
        t.me.sup = { s.me.sup with scause := BitVec.ofNat 10 code, spc := tpc, saddr := taddr, async := async,
                                   nest := s.me.trap.inh, sinh := true }) := by
  simp only [State.trapView, Prod.mk.injEq] at hv
  obtain ⟨-, hmem, hsvec, hsup, htrap⟩ := hv
  change _ = s.me.sup at hsup
  change _ = s.me.trap at htrap
  have hctx : Stmt.toContext (v.slot n) code ↔ Stmt.toContext s.me code := by
    unfold Stmt.toContext
    rw [hsup, htrap]
  obtain ⟨y, e, hy, hn'⟩ := Slot.enter_user (hsup ▸ hs) v.svec code tpc taddr async
  rw [hctx, hsup, htrap] at hy
  rw [hctx, hsup, htrap, hsvec] at hn'
  have hm : (v.setSlot n y).me = y := by
    rw [State.me, State.setSlot_agent, hn, State.slot_setSlot]
  simp only [State.trapSlot, e, hm]
  exact ⟨hmem, hy, hn'⟩

theorem State.Stands.takesTrap {s u : State} (h : s.Stands u) (code : Nat) (taddr : Word) :
    Stmt.takesTrap s (u.trap code taddr) code taddr := by
  obtain ⟨hc, ho, hpc, hview⟩ := h
  have ht := hc.trapTo u.agent code taddr
  have hv := (u.trapView_beforeEntry u.agent).trans hview
  refine ⟨u.trapTo u.agent code taddr, State.trap_alone ho .., ht.keptMem, ht.sameRegs, ?_, ?_⟩
  · intro hs
    rw [← hpc]
    exact State.trapSlot_user hv ((hc.giveBack u.agent).agent.trans hc.agent.symm) hs code _ _ _
  · intro hs hz
    simp only [State.trapView, Prod.mk.injEq] at hv
    obtain ⟨hf, -, -, hsup, -⟩ := hv
    have hin : (((u.giveBack u.agent).onSlot u.agent Slot.checkpointHere).slot u.agent).sup.sinh = true := by
      rw [hsup]
      exact hs
    rw [hz] at hf
    simp only [State.trapTo, State.trapSlot, Slot.enter, if_pos hin, State.freezeBy, hf]

theorem State.trap_takes {s : State} (h : s.atStart) (code : Nat) (taddr : Word) : Stmt.takesTrap s (s.trap code taddr) code taddr :=
  (State.Stands.start h).takesTrap code taddr

end Sys2Proof.Machine

open Sys2Proof Sys2Proof.Machine

/-- Settles O23: the privilege test comes before the operand step. -/
theorem privilegeTraps : Obligations.PrivilegeTraps := by
  intro gd a b r k n s h hg hs
  refine ⟨fun h5 h6 => ?_, ?_⟩
  · have hp : s.me.privileged n.toNat = true := by simp [Slot.privileged, h5, h6, hs]
    refine ⟨?_, ?_⟩
    · rw [show exec (.crd gd a n) s = execCrd gd a n s from rfl, execCrd, State.guarded_true _ _ _ hg, if_pos hp]
      exact State.trap_takes h ..
    · rw [show exec (.cwr gd n b) s = execCwr gd n b s from rfl, execCwr, State.guarded_true _ _ _ hg, if_pos hp]
      exact State.trap_takes h ..
  · rw [show exec (.ptsync gd k r b) s = execPtsync gd k r b s from rfl, execPtsync, State.guarded_true _ _ _ hg,
      if_pos (by simp [hs])]
    exact State.trap_takes h ..

end

section
/-! O48 of APPROVED.json: waking, answers and pending traps of a slot (R30 and R39 of spec/02, R345 of spec/23). -/

namespace Sys2Proof.Machine

open Sys2Proof

section

variable {s : State} {n : Nat} {x : Slot}

theorem execParkedSlotWakes_parked (hx : s.slot n = x) {w : Wait} (hp : x.status = .parked) (hw : x.park.wait = some w) :
    execParkedSlotWakes n s = .next (if s.waitHolds n w then s.setSlot n { x with status := .running } else s) := by
  subst hx
  simp only [execParkedSlotWakes, hp, hw]

/-- The answer to a request of which nothing is outstanding at another package. -/
theorem answerArrives_home {va : Word} {h : Home} (hw : x.park.wait = some (.answer va h))
    (hd : x.park.dead = false) (hb : x.park.behind = false) (ha : x.park.answered = false) (hq : x.park.asked = [])
    (hf : s.findTid x.tid = some x) :
    s.answerArrives x.tid [] =
      s.onTid x.tid fun y => { y with park := { y.park with answered := true, asked := [], data := [] } } := by
  simp only [State.answerArrives, hf, hw, remoteDead, hd, hb, ha, hq, State.performAll, Bool.or_self, Bool.false_eq_true, if_false]

theorem Slot.answer_asked_nil (hq : x.park.asked = []) :
    { x with park := { x.park with answered := true, asked := [], data := [] } } =
      { x with park := { x.park with answered := true, data := [] } } := by
  simp only [hq]

theorem slot_onTid_self (hx : s.slot n = x) (hl : x.status ≠ .free) (f : Slot → Slot) : (s.onTid x.tid f).slot n = f x := by
  subst hx
  rw [State.slot_onTid, if_pos]
  simp [hl]

/-- A running slot outside a handler that no request and no vote binds can be stopped between instructions unless it owes a result. -/
theorem trapDue_iff (hx : s.slot n = x) (hr : x.status = .running) (hs : x.sup.sinh = false) (hi : x.trap.inh = false)
    (hl : x.park.left = false) (hv : x.park.voted = false) (hw : x.park.wait = none) :
    s.trapDue n = true ↔ x.owes = false ∧ (x.cpend = true ∨ x.pend ≠ []) := by
  subst hx
  simp [State.trapDue, hr, Slot.inHandler, hs, hi, State.bound, Slot.bound, hl, hv, hw]

theorem execTakePendingTrap_cancel (hx : s.slot n = x) (hd : s.trapDue n = true) (hc : x.cpend = true) :
    execTakePendingTrap n s =
      .next ((s.setSlot n { x with cpend := false, kept := [], park := {} }).trapSlot n 0x3C1 x.pc 0 true) := by
  subst hx
  simp only [execTakePendingTrap, hd, hc, Bool.not_true, Bool.false_eq_true, if_false, if_true]

theorem execTakePendingTrap_oldest (hx : s.slot n = x) (hd : s.trapDue n = true) (hc : x.cpend = false) {code : Nat} {a : Word}
    {rest : List (Nat × Word)} (hp : x.pend = (code, a) :: rest) :
    execTakePendingTrap n s = .next ((s.setSlot n { x with pend := rest }).trapSlot n code x.pc a true) := by
  subst hx
  simp only [execTakePendingTrap, hd, hc, hp, Bool.not_true, Bool.false_eq_true, if_false]

theorem execTakePendingTrap_none (hd : s.trapDue n = false) : execTakePendingTrap n s = .next s := by
  simp only [execTakePendingTrap, hd, Bool.not_false, if_true]

end

end Sys2Proof.Machine

open Sys2Proof Sys2Proof.Machine

/-- Settles O48: a wake tests its condition, an answer reaches the thread's slot, and the pending traps go in order. -/
theorem slotsWakeAnswerAndTakeTraps : Obligations.SlotsWakeAnswerAndTakeTraps := by
  intro n s x
  refine ⟨fun w hp hw => ?_, fun va h hw hd hb ha hq hl hf => ?_, fun hr hs hi hl hv hw => ?_⟩
  · have e : exec (.parkedSlotWakes n) s = _ := execParkedSlotWakes_parked rfl hp hw
    exact ⟨fun hh => by rw [e, if_pos hh], fun hh => by rw [e, if_neg (by simp [hh])]⟩
  · refine ⟨_, congrArg Host.Outcome.next (answerArrives_home hw hd hb ha hq hf), ?_, rfl⟩
    rw [slot_onTid_self rfl hl]
    exact Slot.answer_asked_nil hq
  · have due := trapDue_iff (s := s) (n := n) rfl hr hs hi hl hv hw
    refine ⟨fun hc ho => execTakePendingTrap_cancel rfl (due.2 ⟨ho, .inl hc⟩) hc,
      fun code a rest hc ho hp => execTakePendingTrap_oldest rfl (due.2 ⟨ho, .inr (hp ▸ List.cons_ne_nil _ _)⟩) hc hp,
      fun hno => execTakePendingTrap_none ?_⟩
    rw [← Bool.not_eq_true, due]
    rintro ⟨ho, hc⟩
    rcases hno with howes | ⟨hcpend, hpend⟩
    · exact Bool.false_ne_true (ho.symm.trans howes)
    · exact hc.elim (fun hc => Bool.false_ne_true (hcpend.symm.trans hc)) fun hp => hp hpend

end

section
/-! O22 of APPROVED.json: what CWR writes (R41 of spec/02, R127 of spec/07). -/

namespace Sys2Proof.Machine

open Sys2Proof

/-- A slot without its full bits and what it keeps of a parked instruction. -/
def Slot.bare (x : Slot) : Slot := { x with full := 0, park := {} }

/-- Taking sources changes nothing else of the issuing slot. -/
theorem State.taken_bare (s : State) (srcs : List Src) : (s.taken srcs).me.bare = s.me.bare := by
  refine State.taken_me (P := fun x => x.bare = s.me.bare) (fun x n hx => ?_) (fun x vs ts hx => hx) s srcs rfl
  rw [← hx]
  unfold Slot.clearFull
  split <;> rfl

theorem State.taken_sup (s : State) (srcs : List Src) : (s.taken srcs).me.sup = s.me.sup := congrArg (·.sup) (s.taken_bare srcs)

theorem State.taken_trap (s : State) (srcs : List Src) : (s.taken srcs).me.trap = s.me.trap := congrArg (·.trap) (s.taken_bare srcs)

theorem State.taken_pc (s : State) (srcs : List Src) : (s.taken srcs).me.pc = s.me.pc := congrArg (·.pc) (s.taken_bare srcs)

theorem State.taken_complete_pc (s : State) (srcs : List Src) : (s.taken srcs).me.complete.pc = s.me.complete.pc := by
  simp only [Slot.complete_pc]
  exact congrArg (·.loopNext.2) (s.taken_bare srcs)

/-- An update of the slot, and completion, in one. -/
theorem State.onMe_done (s : State) {f : Slot → Slot} (h : (f s.me).park.once = false) :
    (s.onMe f).done = .next (s.onMe fun x => (f x).complete) := by
  rw [State.done_alone _ (by rwa [State.me_onMe]), State.onMe_onMe]

/-- The supervisor words and the next PC do not depend on the rest of a slot that keeps its loop step. -/
theorem Slot.loopNext_sup (x : Slot) (t : SupTrap) (b : SlotWords) (h : t.sinh = x.sup.sinh) :
    ({ x with sup := t, base := b } : Slot).loopNext = x.loopNext := by
  unfold Slot.loopNext Slot.inHandler
  dsimp only
  rw [h]
  rfl

theorem SupTrap.write_sinh (t : SupTrap) (n : Nat) (v : Word) : (t.write n v).sinh = t.sinh := by
  unfold SupTrap.write
  split <;> rfl

section

variable {gd : Guard} {b : Src} {s : State} (h : s.atStart) (hg : s.me.guardOk gd = true) (hc : s.canRun [b] [])

include h hg hc

theorem execCwr_word {n : BitVec 12} (hp : s.me.privileged n.toNat = false)
    (hn : (decide (0x200 ≤ n.toNat) && decide (n.toNat ≤ 0x205)) = false) :
    exec (.cwr gd n b) s = ((s.taken [b]).writeWord n.toNat (arg (s.vals [b]) 0)).done := by
  rw [show exec (.cwr gd n b) s = execCwr gd n b s from rfl, execCwr, State.guarded_true _ _ _ hg, if_neg (by simp [hp]),
    State.operands_run s _ _ _ h hc, hn]
  rfl

theorem execCwr_loop {n : BitVec 12} (hn : (decide (0x200 ≤ n.toNat) && decide (n.toNat ≤ 0x205)) = true) :
    exec (.cwr gd n b) s = .next ((s.taken [b]).onMe fun x =>
      { x.complete with loop := x.complete.loop.write n.toNat (arg (s.vals [b]) 0) }) := by
  have hp : s.me.privileged n.toNat = false := by
    simp only [Bool.and_eq_true, decide_eq_true_eq] at hn
    simp only [Slot.privileged, Bool.and_eq_false_iff, decide_eq_false_iff_not]
    omega
  rw [show exec (.cwr gd n b) s = execCwr gd n b s from rfl, execCwr, State.guarded_true _ _ _ hg, if_neg (by simp [hp]),
    State.operands_run s _ _ _ h hc, hn, if_pos rfl, State.onUs_alone _ _ (State.taken_once s [b] h.2.2)]

/-- A word that the update `f` of the slot writes. -/
theorem execCwr_writes {n : BitVec 12} (hp : s.me.privileged n.toNat = false)
    (hn : (decide (0x200 ≤ n.toNat) && decide (n.toNat ≤ 0x205)) = false) {f : Slot → Slot}
    (hw : (s.taken [b]).writeWord n.toNat (arg (s.vals [b]) 0) = (s.taken [b]).onMe f) (hf : ∀ x, (f x).park = x.park) :
    exec (.cwr gd n b) s = .next ((s.taken [b]).onMe fun x => (f x).complete) := by
  rw [execCwr_word h hg hc hp hn, hw, State.onMe_done]
  rw [hf]
  exact State.taken_once s [b] h.2.2

/-- A supervisor word at supervisor level. -/
theorem execCwr_sup (hs : s.me.sup.sinh = true) {n : BitVec 12} (hn : 0x500 ≤ n.toNat) (hv : n.toNat ≠ 0x504) :
    ∃ u, exec (.cwr gd n b) s = .next u ∧ u.me.sup = s.me.sup.write n.toNat (arg (s.vals [b]) 0) ∧ u.me.trap = s.me.trap ∧
      u.me.pc = s.me.complete.pc := by
  have hw : (s.taken [b]).writeWord n.toNat (arg (s.vals [b]) 0) = (s.taken [b]).onMe fun x =>
      { x with sup := x.sup.write n.toNat (arg (s.vals [b]) 0),
               base := x.base.write n.toNat (x.sup.write n.toNat (arg (s.vals [b]) 0)) } := by
    unfold State.writeWord
    rw [if_neg (by simp; omega), if_neg (by omega), if_neg (by omega), if_neg hv, if_pos hn]
  refine ⟨_, execCwr_writes h hg hc (by simp [Slot.privileged, hs]) (by simp; omega) hw fun _ => rfl, ?_, ?_, ?_⟩
  · rw [State.me_onMe, Slot.complete_sup, State.taken_sup]
  · rw [State.me_onMe, Slot.complete_trap, State.taken_trap]
  · rw [State.me_onMe, Slot.complete_pc, Slot.loopNext_sup _ _ _ (SupTrap.write_sinh ..), ← Slot.complete_pc, State.taken_complete_pc]

theorem execCwr_svec (hs : s.me.sup.sinh = true) : ∃ u, exec (.cwr gd 0x504 b) s = .next u ∧ u.svec = arg (s.vals [b]) 0 ∧
    u.me.sup = s.me.sup ∧ u.me.pc = s.me.complete.pc := by
  have ho : ({ s.taken [b] with svec := arg (s.vals [b]) 0 } : State).me.park.once = false := State.taken_once s [b] h.2.2
  refine ⟨_, (execCwr_word h hg hc (by simp [Slot.privileged, hs]) (by decide)).trans (State.done_alone _ ho), rfl, ?_, ?_⟩
  · rw [State.me_onMe, Slot.complete_sup]
    exact State.taken_sup s [b]
  · rw [State.me_onMe]
    exact State.taken_complete_pc s [b]

theorem execCwr_readOnly {n : BitVec 12} (hr : Stmt.readOnly n.toNat) :
    exec (.cwr gd n b) s = .next ((s.taken [b]).onMe Slot.complete) := by
  have hw : (s.taken [b]).writeWord n.toNat (arg (s.vals [b]) 0) = s.taken [b] := by
    unfold Stmt.readOnly at hr
    unfold State.writeWord
    rw [if_neg (by simp; omega), if_neg (by omega), if_neg (by omega), if_neg (by omega), if_neg (by omega)]
  unfold Stmt.readOnly at hr
  rw [execCwr_word h hg hc (by simp [Slot.privileged]; omega) (by simp; omega), hw,
    State.done_alone _ (State.taken_once s [b] h.2.2)]

end

end Sys2Proof.Machine

open Sys2Proof Sys2Proof.Machine

/-- Settles O22: a word is written before the instruction completes, a loop word after it. -/
theorem controlWordWrites : Obligations.ControlWordWrites := by
  intro gd b s h hg hc v t
  have user : ∀ {n : BitVec 12}, n.toNat < 0x500 → s.me.privileged n.toNat = false := fun hn => by
    simp only [Slot.privileged, Bool.and_eq_false_iff, decide_eq_false_iff_not]
    omega
  have word : ∀ {n : BitVec 12}, n.toNat < 0x200 ∨ n.toNat = 0x206 ∨ n.toNat = 0x207 → ∀ f, t.writeWord n.toNat v = t.onMe f →
      (∀ x, (f x).park = x.park) → exec (.cwr gd n b) s = .next (t.onMe fun x => (f x).complete) := fun hn f hw hf =>
    execCwr_writes h hg hc (user (by omega)) (by simp; omega) hw hf
  refine ⟨?_, ?_, ?_, fun n hn => execCwr_readOnly h hg hc hn, fun hs => ⟨?_, ?_, execCwr_svec h hg hc hs⟩⟩
  · simp only [Stmt.wordWrites, List.forall_mem_cons]
    exact ⟨word (by decide) _ rfl fun _ => rfl, word (by decide) _ rfl fun _ => rfl, word (by decide) _ rfl fun _ => rfl,
      word (by decide) _ rfl fun _ => rfl, word (by decide) _ rfl fun _ => rfl, word (by decide) _ rfl fun _ => rfl,
      word (by decide) _ rfl fun _ => rfl, List.forall_mem_nil _⟩
  · exact word (by decide) _ rfl fun _ => rfl
  · simp only [Stmt.loopWrites, List.forall_mem_cons]
    exact ⟨execCwr_loop h hg hc (by decide), execCwr_loop h hg hc (by decide), execCwr_loop h hg hc (by decide),
      execCwr_loop h hg hc (by decide), execCwr_loop h hg hc (by decide), execCwr_loop h hg hc (by decide), List.forall_mem_nil _⟩
  · simp only [Stmt.supWrites, List.forall_mem_cons]
    exact ⟨execCwr_sup h hg hc hs (by decide) (by decide), execCwr_sup h hg hc hs (by decide) (by decide),
      execCwr_sup h hg hc hs (by decide) (by decide), execCwr_sup h hg hc hs (by decide) (by decide),
      execCwr_sup h hg hc hs (by decide) (by decide), execCwr_sup h hg hc hs (by decide) (by decide),
      execCwr_sup h hg hc hs (by decide) (by decide), List.forall_mem_nil _⟩
  · exact execCwr_sup h hg hc hs (by decide) (by decide)

end

section
/-! O21 of APPROVED.json: what CRD reads (R41 of spec/02, R127 of spec/07). -/

namespace Sys2Proof.Machine

open Sys2Proof

/-! ## The words as their fields -/

theorem bit_eq (b : Bool) (i : Nat) : bit b i = b.toNat * 2 ^ i := by
  cases b <;> simp [bit]

theorem Slot.tstat_eq (x : Slot) : x.tstat = BitVec.ofNat 64 (x.trap.inh.toNat + x.trap.async.toNat * 2 + x.cpend.toNat * 4 +
    Nat.min 255 x.pend.length * 2 ^ 8) := by
  simp only [Slot.tstat, bit_eq, Nat.pow_zero, Nat.mul_one, Nat.pow_one]
  rfl

theorem Slot.sstat_eq (x : Slot) : x.sstat = BitVec.ofNat 64 (x.sup.nest.toNat * 2 + x.sup.async.toNat * 4 + x.sup.sinh.toNat * 8) := by
  simp only [Slot.sstat, bit_eq, Nat.pow_one]
  rfl

theorem State.mlstat_eq (s : State) : s.mlstat s.agent = BitVec.ofNat 64 (Stmt.matrixStatus s) := by
  have mine : ∀ c : Crook, (if (s.me.lease == .holding && (some s.agent).isSome && c.holder == some s.agent) = true then
      c.cmdsLeft * 2 ^ 18 + (16384 - (s.clock.toNat - c.grantAt.toNat)) * 2 ^ 25 else 0) =
      if s.me.lease = .holding ∧ c.holder = some s.agent then
        c.cmdsLeft * 2 ^ 18 + (16384 - (s.clock.toNat - c.grantAt.toNat)) * 2 ^ 25 else 0 := fun c =>
    if_congr (by simp) rfl rfl
  refine congrArg (BitVec.ofNat 64) (congrArg₂ (· + ·) (congrArg₂ (· + ·) ?_ (mine _)) rfl)
  simp only [bit_eq, Nat.pow_zero, Nat.mul_one, Nat.pow_one]
  rfl

theorem State.aelane_eq (s : State) : s.aelane (slotCore s.agent) =
    BitVec.ofNat 64 ((List.range 8).map fun j => Stmt.laneStatus (s.lane (8 * (s.agent / 8) + j)) * 256 ^ j).sum := by
  have lane : ∀ l : Lane, l.code + bit l.bound 4 = Stmt.laneStatus l := fun l => by
    simp only [Lane.code, Stmt.laneStatus, bit_eq]
    cases l.mode <;> rfl
  simp only [State.aelane, lane, Nat.pow_mul]
  rfl

theorem State.ddsts_eq (s : State) : s.ddsts s.agent = BitVec.ofNat 64 (Stmt.diagramStatus s) := by
  unfold State.ddsts Stmt.diagramStatus
  refine congrArg (BitVec.ofNat 64) ?_
  rw [show slotDie s.agent = s.agent / 64 / 24 from rfl]
  cases s.space (s.agent / 64 / 24) (s.asidOf s.agent) with
  | none => rfl
  | some y =>
    have state : spaceState (some y) = match y.mode with
        | .suspended => 3
        | .halted => 2
        | .busy => if y.queue.isEmpty && y.susp.isNone then 1 else 2 := rfl
    rw [state, Nat.mul_comm _ (2 ^ 6)]
    cases hs : y.susp with
    | none => simp only [hs]; rfl
    | some w =>
      have mine : (w.1.tid == (s.slot s.agent).tid) = decide (w.1.tid = s.me.tid) := rfl
      simp only [hs, mine, bit, decide_eq_true_eq]
      rfl

theorem Core.penFill_eq (c : Core) : c.penFill =
    BitVec.ofNat 64 ((List.range 32).map fun p => Stmt.penFill (c.pen p).msgs.length * 2 ^ p).sum := by
  have pen : ∀ p, bit (!(c.pen p).msgs.isEmpty) p + bit ((c.pen p).msgs.length == 4) (p + 32) =
      Stmt.penFill (c.pen p).msgs.length * 2 ^ p := fun p => by
    have he : (!(c.pen p).msgs.isEmpty) = !decide ((c.pen p).msgs.length = 0) := by cases (c.pen p).msgs <;> rfl
    rw [he]
    generalize (c.pen p).msgs.length = n
    simp only [bit_eq, Stmt.penFill, Nat.pow_add]
    by_cases h0 : n = 0
    · simp [h0]
    · by_cases h4 : n = 4
      · simp [h4]
        ring
      · simp [h0, h4]
  simp only [Core.penFill, pen]

theorem queueFill_eq (c : Core) : ((List.range 8).map fun q => (c.queue q).length * 2 ^ (4 * q)).sum =
    ((List.range 8).map fun q => (c.queue q).length * 16 ^ q).sum := by
  simp only [Nat.pow_mul, Nat.reducePow]

theorem rtest_eq (o : Option Ctx) : (match o with | some c => BitVec.ofNat 64 (bit c.record.rtest 0) | none => 0) =
    BitVec.ofNat 64 ((o.map (·.record.rtest)) == some true).toNat := by
  cases o with
  | none => rfl
  | some c => cases h : c.record.rtest <;> simp [h, bit]

theorem controlWord_words (s : State) : ∀ e ∈ Stmt.wordReads, s.controlWord s.agent e.1.toNat = e.2 s := by
  simp only [Stmt.wordReads, List.forall_mem_cons]
  refine ⟨rfl, rfl, rfl, rfl, rfl, rfl, rfl, rfl, rfl, rfl, rfl, rfl, rfl, rfl, Slot.tstat_eq s.me, rfl, rfl, rfl, rfl, rfl, rfl, rfl,
    rfl, rfl, congrArg (BitVec.ofNat 64) (queueFill_eq s.myCore), rfl, rfl, rfl, s.mlstat_eq, s.aelane_eq, s.ddsts_eq, Core.penFill_eq s.myCore,
    rfl, rfl, rfl, rtest_eq _, List.forall_mem_nil _⟩

theorem wordReads_user : ∀ e ∈ Stmt.wordReads, e.1.toNat < 0x500 ∧ e.1 ≠ 5 := by
  have all : (Stmt.wordReads.all fun e => Nat.ble e.1.toNat 0x4FF && !Nat.beq e.1.toNat 5) = true := rfl
  intro e he
  have hall := List.all_eq_true.1 all e he
  simp only [Bool.and_eq_true, Bool.not_eq_true', Nat.ble_eq] at hall
  exact ⟨Nat.lt_succ_of_le hall.1, fun h5 => Nat.ne_of_beq_eq_false hall.2 (congrArg BitVec.toNat h5)⟩

theorem supReads_ne_clock : ∀ e ∈ Stmt.supReads, e.1 ≠ 5 := by
  have all : (Stmt.supReads.all fun e => !Nat.beq e.1.toNat 5) = true := rfl
  intro e he h5
  have hall := List.all_eq_true.1 all e he
  exact Nat.ne_of_beq_eq_false ((Bool.not_eq_true' _).mp hall) (congrArg BitVec.toNat h5)

theorem controlWord_supervisor (s : State) : ∀ e ∈ Stmt.supReads, s.controlWord s.agent e.1.toNat = e.2 s.me := by
  simp only [Stmt.supReads, List.forall_mem_cons]
  exact ⟨rfl, rfl, rfl, rfl, rfl, rfl, rfl, Slot.sstat_eq s.me, List.forall_mem_nil _⟩

theorem controlWord_channel (s : State) {ch : Nat} (h : ch < 16) :
    s.controlWord s.agent (0x310 + ch) = (s.chan (Stmt.tileNum s) ch).cdone.setWidth 64 ∧
      s.controlWord s.agent (0x320 + ch) = (s.chan (Stmt.tileNum s) ch).wptr := by
  have word : ∀ n, 0x310 ≤ n → n ≤ 0x32F → s.controlWord s.agent n = s.cwChannel s.agent n := fun n h0 h1 => by
    unfold State.controlWord
    rw [if_neg (by omega), if_neg (by omega), if_neg (by omega), if_neg (by omega), if_neg (by omega), if_neg (by omega), if_pos h1]
  refine ⟨(word _ (by omega) (by omega)).trans ?_, (word _ (by omega) (by omega)).trans ?_⟩
  · rw [State.cwChannel, if_pos (by omega), Nat.add_sub_cancel_left]
    rfl
  · rw [State.cwChannel, if_neg (by omega), Nat.add_sub_cancel_left]
    rfl

/-- The words do not show what a slot keeps of a parked instruction. -/
theorem controlWord_parked {s u : State} {n : Nat} {p : Park} (hu : u = { s with slots := u.slots })
    (hn : u.slot n = { s.slot n with park := p }) (num : Nat) : u.controlWord n num = s.controlWord n num := by
  have hp : u.pkg = s.pkg := by rw [hu]
  have hc : ∀ c, u.core c = s.core c := fun c => by rw [hu]; rfl
  have ht : ∀ t, u.tile t = s.tile t := fun t => by rw [hu]; rfl
  have hx : ∀ a, u.ctx a = s.ctx a := fun a => by rw [hu]; rfl
  have hk : u.clock = s.clock := by rw [hu]
  have hv : u.svec = s.svec := by rw [hu]
  have ha : u.asidOf n = s.asidOf n := by simp only [State.asidOf, ht, hn]
  have hs : ∀ d a, u.space d a = s.space d a := fun d a => by simp only [State.space, hx]
  have hd : u.ddsts n = s.ddsts n := by simp only [State.ddsts, hs, ha, hn]
  unfold State.controlWord State.cwIdent State.slotId State.cwFlow State.mlstat State.leaseWord State.aelane State.lane State.cwChannel
    State.chan State.cwSup
  simp only [hn, hp, hc, ht, hx, hk, hv, ha, hd]
  rfl

theorem controlWord_taken (s : State) (num : Nat) : (s.taken []).controlWord (s.taken []).agent num = s.controlWord s.agent num :=
  controlWord_parked (n := s.agent) rfl (s.slot_onMe _) num

/-! ## What a read of a word leaves alone -/

theorem sameOthers_of_slots {s t : State} (h : ∀ n, n ≠ s.agent → t.slot n = s.slot n) : s.sameOthers t := by
  refine ⟨fun _ => h, fun n hn => ?_⟩
  rw [h n hn]
  exact ⟨(s.slot n).lost, (s.slot n).park.dead, (s.slot n).mon, rfl⟩

/-- The register that a destination names; 32 for another. -/
def Opnd.regNum : Opnd → Nat
  | .g n => n.val
  | .q _ | .mb _ => 32

theorem calm_wrote {s : State} (h : s.atStart) (a : Opnd) (v : Word) :
    State.Calm (fun _ => True) (Opnd.regNum a) s (s.wrote [] a v) := by
  have ht : State.Calm (fun _ => True) (Opnd.regNum a) s (s.taken []) := (State.Calm.start h.1).onMe fun hc =>
    ⟨hc.words, hc.reg, hc.full, fun _ _ _ _ _ _ _ => trivial⟩
  refine State.Calm.mildMe ?_ (Slot.mild_complete _)
  cases a with
  | g n => exact ht.onMe fun hc => hc.setReg trivial v
  | q n => exact State.Calm.other ht
  | mb m => exact State.Calm.other ht

theorem State.wrote_slot_other (s : State) (a : Opnd) (v : Word) {n : Nat} (hn : n ≠ s.agent) : (s.wrote [] a v).slot n = s.slot n := by
  have htaken : (s.taken []).slot n = s.slot n := State.slot_onMe_other _ _ _ hn
  have hagent : ((s.taken []).writeOpnd a v).agent = s.agent := by cases a <;> rfl
  rw [State.wrote, State.slot_onMe_other _ _ _ (by rwa [hagent])]
  cases a with
  | g r => exact (State.slot_onMe_other (s.taken []) _ _ hn).trans htaken
  | q r => exact htaken
  | mb m => exact htaken

/-- A trap of the issuing slot at user level, before any source is taken, changes no other slot. -/
theorem State.trap_slot_other {s : State} (h : s.atStart) (hs : s.me.sup.sinh = false) (code : Nat) (taddr : Word) {n : Nat}
    (hn : n ≠ s.agent) : Leads (fun t => t.slot n = s.slot n) (s.trap code taddr) := by
  obtain ⟨y, hy⟩ := State.trapTo_eq_setSlot (s := s) (n := s.agent) (.inr h.1) hs code taddr
  rw [State.trap_alone h.2.2, hy]
  exact leads_next ((State.slot_setSlot_other _ _ _ _ hn).trans (State.slot_onSlot_other _ _ _ _ hn))

section

variable {gd : Guard} {a : Opnd} {s : State} (h : s.atStart) (hg : s.me.guardOk gd = true)

include hg in
theorem execCrd_privileged {n : BitVec 12} (hp : s.me.privileged n.toNat = true) : exec (.crd gd a n) s = s.trap 0x081 0 := by
  rw [show exec (.crd gd a n) s = execCrd gd a n s from rfl, execCrd, State.guarded_true _ _ _ hg, if_pos hp]

include h hg

theorem execCrd_word (hc : s.canRun [] [a]) {n : BitVec 12} (hp : s.me.privileged n.toNat = false) (hn : n ≠ 5 ∨ s.me.rep.count = 0) :
    exec (.crd gd a n) s = .next (s.wrote [] a (s.controlWord s.agent n.toNat)) := by
  have hno : ((n = 0x005) && (s.taken []).me.rep.count != 0) = false := by
    rw [show (s.taken []).me.rep = s.me.rep from congrArg (·.rep) (s.taken_bare [])]
    rcases hn with hn | hn
    · rw [decide_eq_false hn, Bool.false_and]
    · rw [hn, bne_self_eq_false, Bool.and_false]
  rw [show exec (.crd gd a n) s = execCrd gd a n s from rfl, execCrd, State.guarded_true _ _ _ hg, if_neg (by simp [hp]),
    State.operands_run s _ _ _ h hc, hno, if_neg Bool.false_ne_true, controlWord_taken, State.finish_wrote s [] a _ h hc]

/-- CRD, outside a replica set, keeps everything but its result and the issuing slot's own progress. -/
theorem execCrd_keeps_rest (hc : s.canRun [] [a]) (n : BitVec 12) (h0 : s.me.rep.count = 0) :
    Leads (fun t => ∃ r, (∀ k : Fin 32, a ≠ .g k → k.val ≠ r) ∧ s.sameRegs t r ∧ s.keptMem t ∧ s.sameWords t ∧ s.sameOthers t)
      (exec (.crd gd a n) s) := by
  cases hp : s.me.privileged n.toNat with
  | true =>
    have hs : s.me.sup.sinh = false := by
      simp only [Slot.privileged, Bool.and_eq_true, Bool.not_eq_true'] at hp
      exact hp.2
    rw [execCrd_privileged hg hp]
    refine ⟨fun t ht => ?_⟩
    have hcalm := ((State.Calm.start (F := fun _ => True) (r := 32) h.1).trap 0x081 0).state t ht
    exact ⟨32, fun k _ => Nat.ne_of_lt k.isLt, hcalm.sameRegs, hcalm.keptMem, hcalm.sameWords,
      sameOthers_of_slots fun m hm => (State.trap_slot_other h hs _ _ hm).state t ht⟩
  | false =>
    rw [execCrd_word h hg hc hp (.inr h0)]
    have hcalm := calm_wrote h a (s.controlWord s.agent n.toNat)
    refine leads_next ⟨Opnd.regNum a, fun k hk => ?_, hcalm.sameRegs, hcalm.keptMem, hcalm.sameWords,
      sameOthers_of_slots fun m hm => s.wrote_slot_other a _ hm⟩
    cases a with
    | g r => exact fun e => hk (congrArg Opnd.g (Fin.ext e.symm))
    | q r => exact Nat.ne_of_lt k.isLt
    | mb m => exact Nat.ne_of_lt k.isLt

end

end Sys2Proof.Machine

open Sys2Proof Sys2Proof.Machine

/-- Settles O21: CRD gives the control word of the issuing slot, field by field. -/
theorem controlWordReads : Obligations.ControlWordReads := by
  intro gd a s h hg hc
  have user : ∀ {n : BitVec 12}, n.toNat < 0x500 → s.me.privileged n.toNat = false := fun hn => by
    simp only [Slot.privileged, Bool.and_eq_false_iff, decide_eq_false_iff_not]
    omega
  have read : ∀ {n : BitVec 12} {v : Word}, n.toNat < 0x500 → n ≠ 5 ∨ s.me.rep.count = 0 → s.controlWord s.agent n.toNat = v →
      exec (.crd gd a n) s = .next (s.wrote [] a v) := fun hn h5 hv => hv ▸ execCrd_word h hg hc (user hn) h5
  refine ⟨fun e he => ?_, fun ch hch => ?_, fun h0 => read (by decide) (.inr h0) rfl, fun hs => ⟨fun e he => ?_, ?_⟩,
    fun n t h0 ht => ?_⟩
  · obtain ⟨hlt, h5⟩ := wordReads_user e he
    exact read hlt (.inl h5) (controlWord_words s e he)
  · have num : ∀ k, k < 0x400 → (BitVec.ofNat 12 k).toNat = k := fun k hk => Nat.mod_eq_of_lt (by omega)
    have ne5 : ∀ k, 0x310 ≤ k → k < 0x400 → BitVec.ofNat 12 k ≠ 5 := fun k h0 h1 e => by
      have := num k h1
      rw [e] at this
      exact absurd this (by simp; omega)
    have hword := controlWord_channel s hch
    refine ⟨read (by rw [num _ (by omega)]; omega) (.inl (ne5 _ (by omega) (by omega))) ?_,
      read (by rw [num _ (by omega)]; omega) (.inl (ne5 _ (by omega) (by omega))) ?_⟩
    · rw [num _ (by omega)]
      exact hword.1
    · rw [num _ (by omega)]
      exact hword.2
  · have hp : s.me.privileged e.1.toNat = false := by simp [Slot.privileged, hs]
    rw [execCrd_word h hg hc hp (.inl (supReads_ne_clock e he)), controlWord_supervisor s e he]
  · exact execCrd_word h hg hc (by simp [Slot.privileged, hs]) (.inl (by decide))
  · obtain ⟨r, hr, ⟨hreg, hpr, hv, hk⟩, hm, hw, ho⟩ := (execCrd_keeps_rest h hg hc n h0).state t ht
    exact ⟨fun k hk => hreg _ (hr k hk), hpr, hv, hk, hm, hw, ho⟩

end

section
/-! O50 of APPROVED.json: the attempt of a PSEND meets its pen (R218, R223 and R428 of spec/13). -/

namespace Sys2Proof.Machine

open Sys2Proof

/-- The state in which the attempt of slot `n` is answered. -/
def State.attempting (s : State) (n : Nat) : State := ({ s with agent := n } : State).onMe Slot.attemptDone

theorem State.attempting_me (s : State) (n : Nat) : (s.attempting n).me = (s.slot n).attemptDone := State.me_onMe _ _

section

variable {s : State} {n : Nat} {gd : Guard} {a : Fin 32} {b : Src} {vs : List Word}

theorem execPenMessageArrives_attempt (hst : (s.slot n).status = .parked) (hbeh : (s.slot n).park.behind = false)
    (hw : (s.slot n).park.wait = some .penAnswer) (hi : (s.slot n).park.insn = some (.unlisted (.psend gd a b none)))
    (hv : (s.slot n).park.vals = some vs) :
    execPenMessageArrives n s = (s.attempting n).psendAnswer none (arg vs 0) (vs.drop 1) := by
  have ha : (s.slot n).attempted = true := by simp [Slot.attempted, hst, hbeh]
  simp only [execPenMessageArrives, hw, hi, hv, ha, if_true, State.attempting]

/-- What a pen of this package answers to a slot whose context runs there. -/
theorem penReply_here {at_ : PenAddr} (hp : at_.pkg = s.pkg.toNat) (hc : s.present (s.asidOf n) at_.core = true) :
    (s.attempting n).penReply at_ =
      (if ((s.core at_.core).pen at_.pen).msgs.length < 4 then .accepted
        else if ((s.core at_.core).pen at_.pen).fault then .fullFault else .fullBlock, s.attempting n) := by
  have hpkg : (at_.pkg != (s.attempting n).pkg.toNat) = false := by rw [hp]; exact bne_self_eq_false _
  have hasid : (s.attempting n).asidOf (s.attempting n).agent = s.asidOf n := by
    have hslot : (s.attempting n).slot n = (s.slot n).attemptDone := s.attempting_me n
    change (s.attempting n).asidOf n = _
    unfold State.asidOf
    rw [hslot]
    rfl
  have hpres : (s.attempting n).present ((s.attempting n).asidOf (s.attempting n).agent) at_.core = true := by
    rw [hasid]
    exact hc
  unfold State.penReply
  rw [hpkg, hpres]
  rfl

/-- An accepted message is the last of its pen. -/
theorem appendMsg_pen {at_ : PenAddr} (hp : at_.pkg = s.pkg.toNat) (m : List Word) :
    (((s.appendMsg at_ m).core at_.core).pen at_.pen).msgs = ((s.core at_.core).pen at_.pen).msgs ++ [m] := by
  rw [State.appendMsg, if_neg (by simp [hp]), State.core_onCore, Core.setPen, Core.pen, val_put_same]

theorem appendMsg_slots (at_ : PenAddr) (m : List Word) : (s.appendMsg at_ m).slots = s.slots ∧
    (s.appendMsg at_ m).agent = s.agent ∧ (s.appendMsg at_ m).mem = s.mem := by
  unfold State.appendMsg
  split <;> exact ⟨rfl, rfl, rfl⟩

/-- A parked slot that completes without a halt request runs on. -/
theorem Slot.complete_running {x : Slot} (hh : x.haltReq = false) (hs : x.status ≠ .halted) : x.complete.status = .running := by
  have stop : (x.haltReq || x.status == .halted) = false := by simp [hh, hs]
  unfold Slot.complete Slot.ended
  dsimp only
  rw [stop]
  split <;> rfl

/-- The loop step of a slot does not depend on what it keeps of its instruction. -/
theorem Slot.attemptDone_loopNext (x : Slot) : x.attemptDone.loopNext = x.loopNext := rfl

theorem psendAnswer_of_reply {u : State} {adr : Word} {r : PenReply} (h : u.penReply (penAddrOf adr.toNat) = (r, u)) (m : List Word) :
    u.psendAnswer none adr m = u.psendReply none adr m r := by
  simp only [State.psendAnswer, h]

/-- The sender of an accepted message completes. -/
theorem psendReply_accepted {u : State} (ho : u.me.park.once = false) (adr : Word) (m : List Word) :
    u.psendReply none adr m .accepted = .next ((u.appendMsg (penAddrOf adr.toNat) m).onMe Slot.complete) := by
  obtain ⟨hs, ha, -⟩ := appendMsg_slots (s := u) (penAddrOf adr.toNat) m
  refine State.done_alone _ ?_
  rwa [State.me, State.slot, hs, ha]

/-- An attempt at a pen with room. -/
theorem psendAnswer_room {adr : Word} {m : List Word} (hh : (s.slot n).haltReq = false) (hst : (s.slot n).status = .parked)
    (ho : (s.slot n).park.once = false) (hp : (penAddrOf adr.toNat).pkg = s.pkg.toNat)
    (hr : (s.attempting n).penReply (penAddrOf adr.toNat) = (.accepted, s.attempting n)) :
    ∃ t, (s.attempting n).psendAnswer none adr m = .next t ∧
      ((t.core (penAddrOf adr.toNat).core).pen (penAddrOf adr.toNat).pen).msgs =
        ((s.core (penAddrOf adr.toNat).core).pen (penAddrOf adr.toNat).pen).msgs ++ [m] ∧
      (t.slot n).pc = (s.slot n).complete.pc ∧ (t.slot n).status = .running ∧ t.mem = s.mem := by
  have hme := s.attempting_me n
  obtain ⟨hslots, hagent, hmem⟩ := appendMsg_slots (s := s.attempting n) (penAddrOf adr.toNat) m
  have hslot : (((s.attempting n).appendMsg (penAddrOf adr.toNat) m).onMe Slot.complete).slot n = (s.slot n).attemptDone.complete := by
    have hn : ((s.attempting n).appendMsg (penAddrOf adr.toNat) m).agent = n := hagent
    have hx : ((s.attempting n).appendMsg (penAddrOf adr.toNat) m).me = (s.slot n).attemptDone := by
      rw [State.me, State.slot, hslots, hagent]
      exact hme
    have := ((s.attempting n).appendMsg (penAddrOf adr.toNat) m).slot_onMe Slot.complete
    rwa [hn, hx] at this
  have hgo := (psendAnswer_of_reply hr m).trans (psendReply_accepted (by rw [hme]; exact ho) adr m)
  refine ⟨_, hgo, appendMsg_pen (s := s.attempting n) hp m, ?_, ?_, hmem⟩
  · rw [hslot, Slot.complete_pc, Slot.attemptDone_loopNext, ← Slot.complete_pc]
  · rw [hslot]
    refine Slot.complete_running hh ?_
    rw [show (s.slot n).attemptDone.status = (s.slot n).status from rfl, hst]
    exact nofun

/-- An attempt at a full FAULT pen. -/
theorem psendAnswer_fault {adr : Word} {m : List Word} (ho : (s.slot n).park.once = false) (ht : (s.slot n).park.took = none)
    (hs : (s.slot n).sup.sinh = false) (hc : Stmt.toContext (s.slot n) 0x281)
    (hr : (s.attempting n).penReply (penAddrOf adr.toNat) = (.fullFault, s.attempting n)) :
    ∃ t, (s.attempting n).psendAnswer none adr m = .next t ∧ (t.slot n).pc = (s.slot n).trap.tvec ∧
      (t.slot n).trap = { (s.slot n).trap with tcause := 0x281, tpc := (s.slot n).pc, taddr := adr, async := false, inh := true } ∧
      t.cores = s.cores ∧ t.mem = s.mem := by
  have hme := s.attempting_me n
  have took : ((s.attempting n).slot n).park.took = none := by
    rw [show (s.attempting n).slot n = _ from hme]
    exact ht
  have hgo : (s.attempting n).psendAnswer none adr m = .next ((s.attempting n).trapTo n 0x281 adr) :=
    (psendAnswer_of_reply hr m).trans (State.trap_alone (by rw [hme]; exact ho) ..)
  have hsinh : (s.attempting n).me.sup.sinh = false := by rw [hme]; exact hs
  have hctx : Stmt.toContext (s.attempting n).me 0x281 := by rw [hme]; exact hc
  have hagent : (((s.attempting n).giveBack n).onSlot n Slot.checkpointHere).agent = n := by
    rw [State.giveBack_none (.inl took)]
    rfl
  obtain ⟨hmem, huser, -⟩ := State.trapSlot_user (code := 0x281) (taddr := adr) (tpc := ((s.attempting n).slot n).pc) (async := false)
    ((s.attempting n).trapView_beforeEntry n) hagent hsinh
  obtain ⟨hpc, -, htrap⟩ := huser hctx
  obtain ⟨y, hy⟩ := State.trapTo_eq_setSlot (.inl took) hsinh 0x281 adr
  have hslot : ((s.attempting n).trapTo n 0x281 adr).slot n = ((s.attempting n).trapTo n 0x281 adr).me := by
    rw [hy]
    rfl
  rw [hme] at hpc htrap
  refine ⟨_, hgo, ?_, ?_, by rw [hy]; rfl, hmem⟩
  · rw [hslot]
    exact hpc
  · rw [hslot]
    exact htrap.trans (by rw [show (s.attempting n).slot n = _ from hme]; rfl)

theorem psendRetry_waits {iv : Nat} {at_ : Word} (hst : (s.slot n).status = .parked) (hw : (s.slot n).park.wait = some (.penRetry at_ iv))
    (hr : s.resends (s.slot n) = false) : execPsendRetry n s = .next s := by
  simp only [execPsendRetry, hst, hw, hr, Bool.false_eq_true, if_false]

/-- A send to a pen of this package goes out by no port. -/
theorem psendRetry_sends {iv : Nat} {at_ adr : Word} {m : List Word} (hst : (s.slot n).status = .parked)
    (hw : (s.slot n).park.wait = some (.penRetry at_ iv)) (hv : (s.slot n).park.vals = some (adr :: m))
    (hp : (penAddrOf adr.toNat).pkg = s.pkg.toNat) (hr : s.resends (s.slot n) = true) :
    execPsendRetry n s = .next (s.onSlot n fun x => { x with park := { x.park with wait := some .penAnswer, left := true } }) := by
  have here : s.sendRemote n adr m = s := if_pos hp
  simp only [execPsendRetry, hst, hw, hr, hv, if_true]
  exact congrArg (fun t => Host.Outcome.next (State.onSlot t n _)) here

theorem resends_iff {iv : Nat} {at_ : Word} (hst : (s.slot n).status = .parked) (hw : (s.slot n).park.wait = some (.penRetry at_ iv)) :
    s.resends (s.slot n) = true ↔ at_ ≤ s.clock ∧ ((s.slot n).cpend = false ∨ (s.slot n).inHandler = true) := by
  simp [State.resends, hst, hw]

end

end Sys2Proof.Machine

open Sys2Proof Sys2Proof.Machine

/-- Settles O50: the pen's room and mode decide the answer, and a cancel the resend. -/
theorem penMessagesArrive : Obligations.PenMessagesArrive := by
  refine ⟨?_, ?_⟩
  · intro n gd a b adr m0 m1 m2 m3 s x at_ pen hst hbeh hw hi hv ht ho hh hpkg hpres
    have reply := penReply_here (n := n) hpkg hpres
    rw [show exec (.penMessageArrives n) s = execPenMessageArrives n s from rfl, execPenMessageArrives_attempt hst hbeh hw hi hv,
      show arg [adr, m0, m1, m2, m3] 0 = adr from rfl, List.drop_one, List.tail_cons]
    refine ⟨fun hroom => ?_, fun hfull hfault hsinh hctx => ?_⟩
    · rw [if_pos hroom] at reply
      exact psendAnswer_room hh hst ho hpkg reply
    · rw [if_neg (by rw [hfull]; exact Nat.lt_irrefl _), if_pos hfault] at reply
      obtain ⟨t, he, hpc, htrap, hcores, hmem⟩ := psendAnswer_fault (m := [m0, m1, m2, m3]) ho ht hsinh hctx reply
      exact ⟨t, he, hpc, htrap, by rw [State.core, hcores, State.core], hmem⟩
  · intro n iv at_ adr m s hst hw hv hp
    have iff := resends_iff hst hw
    refine ⟨fun hle hc => psendRetry_sends hst hw hv hp (iff.2 ⟨hle, hc⟩), fun hno => psendRetry_waits hst hw ?_⟩
    rw [← Bool.not_eq_true, iff]
    rintro ⟨hle, hc⟩
    rcases hno with hlt | ⟨hcp, hih⟩
    · exact BitVec.not_le.2 hlt hle
    · exact hc.elim (fun h => Bool.false_ne_true (h.symm.trans hcp)) fun h => Bool.false_ne_true (hih.symm.trans h)

end

section
/-! O45 of APPROVED.json: FSHORT and FPICK at their issue, and a pick on a window that was closed (R289 to R293 of spec/18). -/

namespace Sys2Proof.Machine

open Sys2Proof

/-! ## The state once the sources are taken -/

/-- A state without its slots and cores. -/
def State.shell (s : State) : State := { s with slots := [], cores := [] }

theorem State.takeAll_shell (srcs : List Src) (s : State) : (s.takeAll srcs).2.shell = s.shell := by
  induction srcs generalizing s with
  | nil => rfl
  | cons q qs ih =>
    refine (ih (s.takeOne q).2).trans ?_
    unfold State.takeOne
    split
    · dsimp only
      split <;> rfl
    · rfl
    · rfl

section

variable (s : State) (srcs : List Src)

/-- Taking sources changes slots and cores alone. -/
theorem State.taken_shell : (s.taken srcs).shell = s.shell := s.takeAll_shell srcs

theorem State.taken_winSlot (w : Nat) : (s.taken srcs).winSlot w = s.winSlot w := congrArg (·.winSlot w) (s.taken_shell srcs)

theorem State.taken_tile (t : Nat) : (s.taken srcs).tile t = s.tile t := congrArg (·.tile t) (s.taken_shell srcs)

theorem State.taken_tlb : (s.taken srcs).tlb = s.tlb := congrArg (·.tlb) (s.taken_shell srcs)

theorem State.taken_tid : (s.taken srcs).me.tid = s.me.tid := congrArg (·.tid) (s.taken_bare srcs)

theorem State.taken_rep : (s.taken srcs).me.rep = s.me.rep := congrArg (·.rep) (s.taken_bare srcs)

theorem State.taken_trans : (s.taken srcs).me.park.trans = s.me.park.trans :=
  State.taken_me (P := fun x => x.park.trans = s.me.park.trans) (fun x n hx => by simpa using hx) (fun _ _ _ hx => hx) s srcs rfl

theorem State.taken_asidOf : (s.taken srcs).asidOf (s.taken srcs).agent = s.asidOf s.agent := by
  have hs : ((s.taken srcs).slot s.agent).sup = s.me.sup := by
    rw [← s.taken_sup srcs, State.me, State.taken_agent]
  unfold State.asidOf
  rw [State.taken_agent, State.taken_tile, hs]
  rfl

/-- Where an access of the issuing slot lies does not depend on the sources that its instruction has taken. -/
theorem State.taken_access (va : Word) (size : Nat) (r w : Bool) :
    (s.taken srcs).access (s.taken srcs).agent va size ((s.taken srcs).need r w) = s.access s.agent va size (s.need r w) := by
  have place : ∀ c a, (s.taken srcs).place c a va size = s.place c a va size := fun c a => by
    unfold State.place
    simp only [State.taken_tile]
  have need : (s.taken srcs).need r w = s.need r w := by
    rw [State.need, State.taken_sup, State.need]
  unfold State.access
  rw [place, State.taken_asidOf, need, State.taken_tlb, State.taken_agent]
  have hme : (s.taken srcs).slot s.agent = (s.taken srcs).me := by rw [State.me, State.taken_agent]
  rw [hme, State.taken_trans, State.taken_sup]
  rfl

theorem State.Stands.taken {s : State} (h : s.atStart) (srcs : List Src) : s.Stands (s.taken srcs) where
  calm := ((State.Calm.start h.1).takeAll fun _ _ _ _ => trivial).onMe fun hc =>
    ⟨hc.words, hc.reg, hc.full, fun _ _ _ _ _ _ _ => trivial⟩
  once := s.taken_once srcs h.2.2
  pc := s.taken_pc srcs
  view := by
    have hsup := s.taken_sup srcs
    have htrap := s.taken_trap srcs
    unfold State.me at hsup htrap
    rw [State.trapView, hsup, htrap]
    exact congrArg (fun t => (t.freeze, t.mem, t.svec, s.me.sup, s.me.trap)) (s.taken_shell srcs)

end

/-! ## An operation is queued -/

/-- `t` is `s` after an issue that has queued `op` on window `w` for register `a`. -/
def State.filterQueued (s t : State) (w a : Nat) (op : FilterOp) : Prop :=
  (t.winSlot w).ops = (s.winSlot w).ops ++ [(op, false)] ∧ t.me.pc = s.me.complete.pc ∧ t.mem = s.mem ∧ s.sameRegs t 32 ∧
    t.me.eng = s.me.eng + 1 ∧ (a ≠ 0 → t.me.isFull a = false)

theorem Slot.isFull_clearFull (x : Slot) {n : Nat} (h : n ≠ 0) (hn : n < 32) : (x.clearFull n).isFull n = false := by
  have hbit : (1#32 <<< n).getLsbD n = true := by simp [hn]
  simp [Slot.isFull, Slot.clearFull, h, BitVec.getLsbD_and, BitVec.getLsbD_not, hbit]

theorem Slot.issued_loopNext (x : Slot) (n : Nat) : (x.issued n).loopNext = x.loopNext := by
  unfold Slot.issued Slot.clearFull
  split <;> rfl

section

variable {s : State} (h : s.atStart) (srcs : List Src) (w : Fin 256)

theorem taken_rowCheck {row : Word} {k : Window → Out} {x : Window} (hx : (s.winSlot w.val).win = some x)
    (ho : x.owner = s.asidOf s.agent) (hr : row.toNat ≤ x.rows) : (s.taken srcs).rowCheck w.val row k = k x := by
  unfold State.rowCheck
  rw [State.taken_winSlot, hx, State.taken_asidOf]
  dsimp only
  rw [if_neg (by simp [ho]), if_neg (by omega)]

include h

theorem taken_queueFilter (a : Fin 32) (op : FilterOp) :
    ∃ t, (s.taken srcs).queueFilter w.val op a.val = .next t ∧
      s.filterQueued t w.val a.val { op with num := (s.winSlot w.val).nextOp } := by
  set u := s.taken srcs
  let v := u.onWin w.val fun x => { x with ops := x.ops ++ [({ op with num := x.nextOp }, false)], nextOp := x.nextOp + 1 }
  have hgo : u.queueFilter w.val op a.val = .next (v.onMe fun x => (x.issued a.val).complete) :=
    congrArg Host.Outcome.next (State.onUs_alone v _ (s.taken_once srcs h.2.2))
  have hme : (v.onMe fun x => (x.issued a.val).complete).me = (u.me.issued a.val).complete := State.me_onMe ..
  refine ⟨_, hgo, ?_, ?_, s.taken_mem srcs, ?_, ?_, fun ha => ?_⟩
  · have hwin : (v.winSlot w.val).ops = (u.winSlot w.val).ops ++ [({ op with num := (u.winSlot w.val).nextOp }, false)] :=
      congrArg WinSlot.ops (val_put_same ..)
    rwa [State.taken_winSlot] at hwin
  · rw [hme, Slot.complete_pc, Slot.issued_loopNext, ← Slot.complete_pc]
    exact s.taken_complete_pc srcs
  · have hv : State.Calm (fun _ => True) 32 s v := State.Calm.other (State.Stands.taken h srcs).calm
    exact (hv.onMe fun hc => (hc.issued trivial).mild (Slot.mild_complete _)).sameRegs
  · rw [hme, Slot.complete_eng]
    exact congrArg (fun x => x.eng + 1) (s.taken_bare srcs)
  · rw [hme, Slot.isFull_complete]
    exact Slot.isFull_clearFull u.me ha a.isLt

theorem taken_rowCheck_beyond {row : Word} {k : Window → Out} {x : Window} (hx : (s.winSlot w.val).win = some x)
    (ho : x.owner = s.asidOf s.agent) (hr : x.rows < row.toNat) :
    Stmt.takesTrap s ((s.taken srcs).rowCheck w.val row k) 0x383 row := by
  unfold State.rowCheck
  rw [State.taken_winSlot, hx, State.taken_asidOf]
  dsimp only
  rw [if_neg (by simp [ho]), if_pos hr]
  exact (State.Stands.taken h srcs).takesTrap ..

theorem taken_rowCheck_closed {row : Word} {k : Window → Out} (hx : (s.winSlot w.val).win = none) :
    Stmt.takesTrap s ((s.taken srcs).rowCheck w.val row k) 0x382 (windowWord w.val) := by
  unfold State.rowCheck
  rw [State.taken_winSlot, hx]
  exact (State.Stands.taken h srcs).takesTrap ..

end

/-! ## The instructions -/

/-- A stream record at `va` passes the checks of a 512-byte access. -/
def State.streamOk (s : State) (va : Word) : Prop :=
  va.toNat % 64 = 0 ∧ ∃ ps, s.access s.agent va 512 (s.need true true) = .ok ps ∧ (∀ p ∈ ps, p.home ≠ .format) ∧ replicable ps = false

theorem noFormat {ps : List Piece} (h : ∀ p ∈ ps, p.home ≠ .format) : ps.any (·.home == .format) = false := by
  simpa using h

/-- Outside a replica set a vote point is nothing. -/
theorem State.votePoint_alone {s : State} (h : s.me.rep.count = 0) (kind : VoteKind) (once : Bool) (record : List Byte)
    (k : State → Out) (own : List Held) (sys : Bool) : s.votePoint kind once record k own sys = k s := if_pos h

/-- The operation that the issuing slot queues on a window. -/
def State.filterOp (s : State) (pick stream reset nb : Bool) (a row : Nat) (addr : Word) : FilterOp :=
  { pick, stream, full := s.me.isFull a, reset, nb, row, addr, tid := s.me.tid, core := s.myCoreNum, reg := a
    asid := s.asidOf s.agent, sup := s.me.sup.sinh }

section

variable {s : State} {srcs : List Src}

theorem taken_filterOp (pick stream reset nb : Bool) (a row num : Nat) (addr : Word) :
    { (s.taken srcs).filterOp pick stream reset nb a row addr with num := num } =
      ⟨pick, stream, (s.taken srcs).me.isFull a, reset, nb, row, addr, s.me.tid, s.agent / 8, a, num, s.asidOf s.agent, [],
        s.me.sup.sinh⟩ := by
  have hasid := s.taken_asidOf srcs
  rw [State.taken_agent] at hasid
  simp only [State.filterOp, State.taken_tid, State.taken_sup, State.myCoreNum, State.taken_agent, hasid]
  rfl

theorem taken_withAccess {va : Word} {size : Nat} {r w : Bool} {ps : List Piece} {k : List Piece → Out}
    (h : s.access s.agent va size (s.need r w) = .ok ps) : (s.taken srcs).withAccess va size r w k = k ps := by
  simp only [State.withAccess, State.taken_access, h]

theorem taken_recordAccess {va : Word} {k : List Piece → Out} (h : s.streamOk va) :
    ∃ ps, (s.taken srcs).recordAccess va k = k ps := by
  obtain ⟨hal, ps, ha, hf, hr⟩ := h
  refine ⟨ps, ?_⟩
  rw [State.recordAccess, if_neg (by simp [hal]), taken_withAccess ha, noFormat hf, if_neg Bool.false_ne_true, State.writable,
    if_neg (by simp [hr])]

end

section

variable {s : State} (h : s.atStart) {srcs : List Src} {w : Fin 256} (reset nb : Bool) (a : Fin 32) {vs : List Word}
  (hrep : s.me.rep.count = 0)

include h hrep

/-- A pick that passes the checks of its stream is queued. -/
theorem taken_pickIssue {x : Window} (hx : (s.winSlot w.val).win = some x) (ho : x.owner = s.asidOf s.agent)
    (hr : (arg vs 0).toNat ≤ x.rows) {stream : Bool}
    (hs : stream = true → (s.taken srcs).pickCheck w.val (arg vs 0).toNat x (arg vs 1) = .ok ()) :
    ∃ t, (s.taken srcs).pickIssue reset nb stream a.val w.val vs = .next t ∧ s.filterQueued t w.val a.val
      ⟨true, stream, (s.taken srcs).me.isFull a.val, reset, nb, (arg vs 0).toNat, arg vs 1, s.me.tid, s.agent / 8, a.val,
        (s.winSlot w.val).nextOp, s.asidOf s.agent, [], s.me.sup.sinh⟩ := by
  have hcheck : (if stream then (s.taken srcs).pickCheck w.val (arg vs 0).toNat x (arg vs 1) else .ok ()) = .ok () := by
    split
    · exact hs ‹_›
    · rfl
  have hq := taken_queueFilter h srcs w a ((s.taken srcs).filterOp true stream reset nb a.val (arg vs 0).toNat (arg vs 1))
  rw [taken_filterOp] at hq
  rw [State.pickIssue, State.votePoint_alone (by rw [State.taken_rep, hrep]), taken_rowCheck srcs w hx ho hr, hcheck,
    State.mirrors_nil _ (s.taken_once srcs h.2.2)]
  exact hq

/-- A pick whose stream is none raises 0x384. -/
theorem taken_pickIssue_badStream {x : Window} (hx : (s.winSlot w.val).win = some x) (ho : x.owner = s.asidOf s.agent)
    (hr : (arg vs 0).toNat ≤ x.rows) (hs : (s.taken srcs).goodStream (s.taken srcs).actor (arg vs 1) = .error (0x384, arg vs 1)) :
    Stmt.takesTrap s ((s.taken srcs).pickIssue reset nb true a.val w.val vs) 0x384 (arg vs 1) := by
  have hcheck : (s.taken srcs).pickCheck w.val (arg vs 0).toNat x (arg vs 1) = .error (0x384, arg vs 1) := by
    rw [State.pickCheck, hs]
  rw [State.pickIssue, State.votePoint_alone (by rw [State.taken_rep, hrep]), taken_rowCheck srcs w hx ho hr, if_pos rfl, hcheck]
  exact (State.Stands.taken h srcs).takesTrap ..

theorem taken_pickIssue_beyond {stream : Bool} {x : Window} (hx : (s.winSlot w.val).win = some x) (ho : x.owner = s.asidOf s.agent)
    (hr : x.rows < (arg vs 0).toNat) :
    Stmt.takesTrap s ((s.taken srcs).pickIssue reset nb stream a.val w.val vs) 0x383 (arg vs 0) := by
  rw [State.pickIssue, State.votePoint_alone (by rw [State.taken_rep, hrep])]
  exact taken_rowCheck_beyond h srcs w hx ho hr

theorem taken_pickIssue_closed {stream : Bool} (hx : (s.winSlot w.val).win = none) :
    Stmt.takesTrap s ((s.taken srcs).pickIssue reset nb stream a.val w.val vs) 0x382 (windowWord w.val) := by
  rw [State.pickIssue, State.votePoint_alone (by rw [State.taken_rep, hrep])]
  exact taken_rowCheck_closed h srcs w hx

end

section

variable {gd : Guard} {reset nb : Bool} {a : Fin 32} {w : Fin 256} {b c : Src} {s : State} (h : s.atStart)
  (hg : s.me.guardOk gd = true) (hc : s.canRun [b, c] [])

include h hg hc

/-- FPICK without a stream, or with one that passes the checks of its access, comes to its issue. -/
theorem execFpick_issues (hs : c.op = .g 0 ∨ s.streamOk (arg (s.vals [b, c]) 1)) :
    exec (.fpick gd reset nb a w b c) s =
      (s.taken [b, c]).pickIssue reset nb (decide (c.op ≠ .g 0)) a.val w.val (s.vals [b, c]) := by
  rw [show exec (.fpick gd reset nb a w b c) s = execFpick gd reset nb a w b c s from rfl, execFpick, State.guarded_true _ _ _ hg,
    State.operands_run s _ _ _ h hc]
  by_cases h0 : c.op = .g 0
  · rw [if_pos h0, decide_eq_false (not_not.2 h0)]
  · obtain ⟨ps, he⟩ := taken_recordAccess (srcs := [b, c])
      (k := fun _ => (s.taken [b, c]).pickIssue reset nb true a.val w.val (s.vals [b, c])) (hs.resolve_left h0)
    rw [if_neg h0, he, decide_eq_true h0]

/-- FSHORT checks its window and row first. -/
theorem execFshort_checksRow : ∃ k, exec (.fshort gd reset nb a w b c) s =
    (s.taken [b, c]).rowCheck w.val (arg (s.vals [b, c]) 0) k := by
  rw [show exec (.fshort gd reset nb a w b c) s = execFshort gd reset nb a w b c s from rfl, execFshort, State.guarded_true _ _ _ hg,
    State.operands_run s _ _ _ h hc]
  exact ⟨_, rfl⟩

theorem execFshort_queues {x : Window} (hx : (s.winSlot w.val).win = some x) (ho : x.owner = s.asidOf s.agent)
    (hr : (arg (s.vals [b, c]) 0).toNat ≤ x.rows) (hal : (arg (s.vals [b, c]) 1).toNat % 8 = 0) {ps : List Piece}
    (ha : s.access s.agent (arg (s.vals [b, c]) 1) (32 + 8 * x.k) (s.need false true) = .ok ps) (hf : ∀ p ∈ ps, p.home ≠ .format)
    (hrep : replicable ps = false) :
    exec (.fshort gd reset nb a w b c) s = (s.taken [b, c]).queueFilter w.val
      ((s.taken [b, c]).filterOp false false reset nb a.val (arg (s.vals [b, c]) 0).toNat (arg (s.vals [b, c]) 1)) a.val := by
  rw [show exec (.fshort gd reset nb a w b c) s = execFshort gd reset nb a w b c s from rfl, execFshort, State.guarded_true _ _ _ hg,
    State.operands_run s _ _ _ h hc]
  dsimp only
  rw [taken_rowCheck [b, c] w hx ho hr, if_neg (by simp [hal]), taken_withAccess ha, noFormat hf, if_neg Bool.false_ne_true,
    State.writable, if_neg (by simp [hrep])]
  rfl

theorem execFshort_beyond {x : Window} (hx : (s.winSlot w.val).win = some x) (ho : x.owner = s.asidOf s.agent)
    (hr : x.rows < (arg (s.vals [b, c]) 0).toNat) :
    Stmt.takesTrap s (exec (.fshort gd reset nb a w b c) s) 0x383 (arg (s.vals [b, c]) 0) := by
  obtain ⟨k, he⟩ := execFshort_checksRow (reset := reset) (nb := nb) (a := a) (w := w) h hg hc
  rw [he]
  exact taken_rowCheck_beyond h [b, c] w hx ho hr

theorem execFshort_closed (hx : (s.winSlot w.val).win = none) :
    Stmt.takesTrap s (exec (.fshort gd reset nb a w b c) s) 0x382 (windowWord w.val) := by
  obtain ⟨k, he⟩ := execFshort_checksRow (reset := reset) (nb := nb) (a := a) (w := w) h hg hc
  rw [he]
  exact taken_rowCheck_closed h [b, c] w hx

end

/-! ## An answer -/

/-- A pick whose window was closed is answered by its flags and the void token. -/
theorem filterOperationCompletes_closed {s : State} {w : Nat} {op : FilterOp} {rest : List (FilterOp × Bool)}
    (hops : (s.winSlot w).ops = (op, true) :: rest) (hp : op.pick = true) (ho : op.others = []) :
    execFilterOperationCompletes w 0 s = .next ((((s.onWin w fun x => { x with ops := x.ops.eraseIdx 0 }).deliver op.tid op.reg
      0x800003FFFF).forget (.engine (op.eng w)))) := by
  have ready : (s.winSlot w).ready 0 = true := by simp [WinSlot.ready, hops]
  have answer : ∀ t : State, t.filterClosed w op = .ok (t.deliver op.tid op.reg 0x800003FFFF) := fun t => by
    rw [State.filterClosed, if_pos hp, FilterOp.receivers, ho]
    rfl
  have read : (s.winSlot w).ops[0]? = some (op, true) := by rw [hops]; rfl
  unfold execFilterOperationCompletes
  dsimp only
  rw [ready, read]
  dsimp only
  cases (s.winSlot w).win with
  | none => simp only [answer]; rfl
  | some x => simp only [answer]; rfl

theorem Slot.deliver_reg {x : Slot} {r : Nat} (h0 : 0 < r) (h32 : r < 32) (v : Word) :
    ({ x.setReg r v with eng := x.eng - 1 } : Slot).reg r = v ∧ ({ x.setReg r v with eng := x.eng - 1 } : Slot).isFull r = true :=
  ⟨Slot.reg_setReg x r v (Nat.ne_of_gt h0), Slot.isFull_setReg x ⟨r, h32⟩ v⟩

end Sys2Proof.Machine

open Sys2Proof Sys2Proof.Machine

/-- Settles O45: the sources leave the window and the access as they were, so the checks are those of the state before. -/
theorem filterOperationsQueueAndAnswer : Obligations.FilterOperationsQueueAndAnswer := by
  refine ⟨?_, ?_⟩
  · intro gd reset nb a w b c s h hg hc hrep row dst u num queued stream
    refine ⟨fun x hx ho => ⟨fun hr hal ps ha hf hp => ?_, fun hr h0 => ?_, fun hr h0 hs => ⟨fun st hst hlen => ?_, fun hst => ?_⟩,
      fun hr => ⟨execFshort_beyond h hg hc hx ho hr, fun hs => ?_⟩⟩, fun hx => ⟨execFshort_closed h hg hc hx, fun hs => ?_⟩⟩
    · rw [execFshort_queues h hg hc hx ho hr hal ha hf hp]
      have hq := taken_queueFilter h [b, c] w a (u.filterOp false false reset nb a.val row.toNat dst)
      rwa [taken_filterOp] at hq
    · rw [execFpick_issues h hg hc (.inl h0), decide_eq_false (not_not.2 h0)]
      exact taken_pickIssue h reset nb a hrep hx ho hr nofun
    · rw [execFpick_issues h hg hc (.inr hs), decide_eq_true h0]
      refine taken_pickIssue h reset nb a hrep hx ho hr fun _ => ?_
      rw [State.pickCheck, hst]
      exact if_neg (by simp [hlen])
    · rw [execFpick_issues h hg hc (.inr hs), decide_eq_true h0]
      exact taken_pickIssue_badStream h reset nb a hrep hx ho hr hst
    · rw [execFpick_issues h hg hc hs]
      exact taken_pickIssue_beyond h reset nb a hrep hx ho hr
    · rw [execFpick_issues h hg hc hs]
      exact taken_pickIssue_closed h reset nb a hrep hx
  · intro w n op rest s hops hpick hothers htid hst h0 h32
    have hgo : exec (.filterOperationCompletes w 0) s = _ := filterOperationCompletes_closed hops hpick hothers
    rw [hgo]
    refine ⟨_, rfl, ?_, rfl, ?_⟩
    · have hwin : ((s.onWin w fun x => { x with ops := x.ops.eraseIdx 0 }).winSlot w).ops = (s.winSlot w).ops.eraseIdx 0 :=
        congrArg WinSlot.ops (val_put_same ..)
      rwa [hops] at hwin
    · have hslot := slot_onTid_self (s := s.onWin w fun x => { x with ops := x.ops.eraseIdx 0 }) (n := n) (x := s.slot n) rfl hst
        fun x => { x.setReg op.reg 0x800003FFFF with eng := x.eng - 1 }
      rw [htid] at hslot
      obtain ⟨hreg, hfull⟩ := Slot.deliver_reg (x := s.slot n) h0 h32 0x800003FFFF
      rw [← hslot] at hreg hfull
      exact ⟨hreg, hfull⟩

end

section
/-! O1, O12, O13, O24 and O26 of APPROVED.json: lines, guards and encodings (R46 to R63 of spec/03). -/

namespace Sys2Proof.Machine

open Sys2Proof

/-! ## Guards (R54 of spec/03) -/

theorem Slot.guardOk_iff (x : Slot) (gd : Guard) : x.guardOk gd = true ↔ x.pred gd.pred.val = gd.sense := beq_iff_eq

@[simp] theorem Slot.pred_zero (x : Slot) : x.pred 0 = true := rfl

@[simp] theorem Slot.setPred_zero (x : Slot) (b : Bool) : x.setPred 0 b = x := rfl

theorem Slot.guardOk_always (x : Slot) : x.guardOk Guard.always = true := (x.guardOk_iff _).2 x.pred_zero

/-- A guarded row tests its guard before anything else, and what it does behind the test does not depend on the guard; the other
rows have none, which refutes the hypothesis. -/
theorem exec_eq_guarded {i : Instr} {gd : Guard} (h : Stmt.guardOfInstr i = some gd) :
    ∃ k : State → Out, ∀ s, exec i s = s.guarded gd k ∧ exec (Stmt.unguarded i) s = s.guarded Guard.always k := by
  cases i <;> cases h <;> exact ⟨_, fun _ => ⟨rfl, rfl⟩⟩

/-! ## The successor of a head (R46 of spec/03) -/

/-- Clearing the six low bits gives the address of the line. -/
theorem lineBase_toNat (pc : Word) : (pc &&& ~~~0x3F#64).toNat = pc.toNat / 64 * 64 := by
  rw [show ~~~0x3F#64 = BitVec.allOnes 64 <<< 6 from rfl, ← BitVec.shiftLeft_ushiftRight]
  have hlt := pc.isLt
  simp only [BitVec.toNat_shiftLeft, BitVec.toNat_ushiftRight, Nat.shiftLeft_eq, Nat.shiftRight_eq_div_pow]
  omega

end Sys2Proof.Machine

open Sys2Proof Sys2Proof.Machine Sys2Proof.Laws

/-- Settles O1: one round trip a row that a slot issues; an event is well-formed in no slot. -/
theorem encodedWordsDecodeBack : Obligations.EncodedWordsDecodeBack := by
  unfold Obligations.EncodedWordsDecodeBack
  intro i
  cases i with
  | br => apply RoundTrip.br
  | call => apply RoundTrip.call
  | loop => apply RoundTrip.loop
  | trap => apply RoundTrip.trap
  | tret => apply RoundTrip.tret
  | crd => apply RoundTrip.crd
  | cwr => apply RoundTrip.cwr
  | retire => apply RoundTrip.retire
  | brk => apply RoundTrip.brk
  | add => apply RoundTrip.add
  | sub => apply RoundTrip.sub
  | mul => apply RoundTrip.mul
  | mulh => apply RoundTrip.mulh
  | mulhu => apply RoundTrip.mulhu
  | div => apply RoundTrip.div
  | divu => apply RoundTrip.divu
  | rem => apply RoundTrip.rem
  | remu => apply RoundTrip.remu
  | and => apply RoundTrip.and
  | or => apply RoundTrip.or
  | xor => apply RoundTrip.xor
  | shl => apply RoundTrip.shl
  | shr => apply RoundTrip.shr
  | sar => apply RoundTrip.sar
  | ror => apply RoundTrip.ror
  | min => apply RoundTrip.min
  | max => apply RoundTrip.max
  | minu => apply RoundTrip.minu
  | maxu => apply RoundTrip.maxu
  | clz => apply RoundTrip.clz
  | popc => apply RoundTrip.popc
  | ctz => apply RoundTrip.ctz
  | addi => apply RoundTrip.addi
  | andi => apply RoundTrip.andi
  | ori => apply RoundTrip.ori
  | xori => apply RoundTrip.xori
  | shi => apply RoundTrip.shi
  | cmp => apply RoundTrip.cmp
  | cmpu => apply RoundTrip.cmpu
  | cmpi => apply RoundTrip.cmpi
  | vgath => apply RoundTrip.vgath
  | vscat => apply RoundTrip.vscat
  | mlease => apply RoundTrip.mlease
  | mfree => apply RoundTrip.mfree
  | mprog => apply RoundTrip.mprog
  | mwld => apply RoundTrip.mwld
  | mma => apply RoundTrip.mma
  | mrd => apply RoundTrip.mrd
  | mclr => apply RoundTrip.mclr
  | mcfg => apply RoundTrip.mcfg
  | mstat => apply RoundTrip.mstat
  | dwin => apply RoundTrip.dwin
  | dcan => apply RoundTrip.dcan
  | dcanResume => apply RoundTrip.dcanResume
  | hinit => apply RoundTrip.hinit
  | harr => apply RoundTrip.harr
  | hwait => apply RoundTrip.hwait
  | rrel => apply RoundTrip.rrel
  | rmark => apply RoundTrip.rmark
  | rpert => apply RoundTrip.rpert
  | rrewind => apply RoundTrip.rrewind
  | fopen => apply RoundTrip.fopen
  | fopenClose => apply RoundTrip.fopenClose
  | fshort => apply RoundTrip.fshort
  | fpick => apply RoundTrip.fpick
  | rand => apply RoundTrip.rand
  | kvtrunc => apply RoundTrip.kvtrunc
  | qwait => apply RoundTrip.qwait
  | qwaitNow => apply RoundTrip.qwaitNow
  | ptsync => apply RoundTrip.ptsync
  | reservedMajorOpcode => apply RoundTrip.reservedMajorOpcode
  | _ => exact RoundTrip.event fun _ _ => rfl

/-- Settles O12: every guarded row is the guard's test and a body that does not know the guard. -/
theorem guardDecidesExecution : Obligations.GuardDecidesExecution := by
  unfold Obligations.GuardDecidesExecution
  refine ⟨fun i gd s hgd => ?_, fun x b => ⟨x.pred_zero, x.setPred_zero b⟩⟩
  obtain ⟨k, hk⟩ := exec_eq_guarded hgd
  obtain ⟨hexec, halways⟩ := hk s
  rw [hexec, halways, State.guarded_true s _ k s.me.guardOk_always]
  refine ⟨fun hp => State.guarded_true s gd k ((s.me.guardOk_iff gd).2 hp), fun hp ho => ?_⟩
  have hoff : s.me.guardOk gd = false := Bool.eq_false_iff.2 fun h => hp ((s.me.guardOk_iff gd).1 h)
  rw [State.guarded_false s gd k hoff, State.done_alone s ho]

/-- Settles O13: behind the line's last head, the successor is head 1 of the line at the next multiple of 64. -/
theorem successorIsNextHead : Obligations.SuccessorIsNextHead := by
  unfold Obligations.SuccessorIsNextHead
  intro pc nh _ _ _
  have next : BitVec.ofNat 64 (pc.toNat / 64 * 64 + 66) = (pc &&& ~~~0x3F#64) + 64 + 2 := by
    apply BitVec.eq_of_toNat_eq
    simp only [BitVec.toNat_add, BitVec.toNat_ofNat, BitVec.reduceToNat, lineBase_toNat]
    omega
  rw [succPc, next]

/-- Settles O24: the code is chosen by the opcode's format, and the trap is the row's whole effect. -/
theorem reservedOpcodesTrap : Obligations.ReservedOpcodesTrap := by
  unfold Obligations.ReservedOpcodesTrap
  intro h s hs
  rw [show exec (.reservedMajorOpcode h) s = execReservedMajorOpcode h s from rfl, execReservedMajorOpcode]
  cases formatOf (h.toNat / 64 % 256) with
  | none => exact ⟨fun _ => State.trap_takes hs .., fun hne => absurd rfl hne⟩
  | some fmt => exact ⟨nofun, fun _ => State.trap_takes hs ..⟩

/-- Settles O26: each word is evaluated by the decoder. -/
theorem specWordsDecode : Obligations.SpecWordsDecode := by
  unfold Obligations.SpecWordsDecode
  exact ⟨rfl, rfl, rfl, rfl, rfl, rfl, rfl, rfl, rfl⟩

end

section
/-! O46 of APPROVED.json: RAND and KVTRUNC (R293 and R296 of spec/18). -/

namespace Sys2Proof.Machine

open Sys2Proof

/-! ## What an engine's write leaves of the issuing slot -/

section

variable (s : State)

/-- A store sets written bits of the slot's monitors, and nothing else of it. -/
theorem State.store_me (pa : Nat) (bs : List Byte) (a : Attr) : (s.store pa bs a).me = s.me.touched pa bs.length := by
  have lines := congrArg State.me (State.dirtied_noLines
    ((({ s with mem := memWrite s.mem pa bs } : State).observe pa bs.length).touch pa bs.length) pa bs.length a)
  exact lines.trans (val_map (d := ({} : Slot)) (g := Slot.touched pa bs.length) rfl s.agent s.slots)

theorem State.store_once (pa : Nat) (bs : List Byte) (a : Attr) : (s.store pa bs a).me.park.once = s.me.park.once :=
  congrArg (·.park.once) (s.store_me pa bs a)

theorem State.rereadSpace_me (old : State) (die asid : Nat) (x : Space) (pa len : Nat) :
    (s.rereadSpace old die asid x pa len).me = s.me :=
  foldl_same State.me _ (fun s i => by unfold State.onCtx; split <;> rfl) _ _

theorem State.write_once (pa : Nat) (bs : List Byte) (a : Attr) : (s.write pa bs a).me.park.once = s.me.park.once :=
  (congrArg (·.park.once) (foldl_same State.me _ (fun _ _ => State.rereadSpace_me ..) _ _)).trans (s.store_once pa bs a)

theorem State.overtake_once (p : Piece) : (s.overtake p).me.park.once = s.me.park.once := by
  have bit : ∀ x : Slot, (x.overtaken p).park.once = x.park.once := fun x => by
    unfold Slot.overtaken
    split
    · split <;> rfl
    · rfl
  unfold State.overtake
  split
  · rw [show (s.onAllSlots (Slot.overtaken p)).me = s.me.overtaken p from s.slot_onAllSlots rfl s.agent, bit]
  · rfl

theorem State.settle_me (ps : List Piece) : (s.settle ps).me = s.me := by
  unfold State.settle
  split <;> rfl

theorem State.loseWrite_once (tids : List Nat) (va : Word) : (s.loseWrite tids va).me.park.once = s.me.park.once := by
  refine foldl_same (·.me.park.once) (fun s tid => s.onTid tid fun x => { x with lost := some va }) (fun s tid => ?_) tids s
  rw [show (s.onTid tid fun x => { x with lost := some va }).me = _ from s.slot_onTid tid _ s.agent]
  split <;> rfl

theorem State.departWrite_once (p : Nat) (tids : List Nat) (va : Word) (r : Config.Request) (e : Option Word) (tied : Bool) :
    (s.departWrite p tids va r e tied).me.park.once = s.me.park.once := by
  unfold State.departWrite
  refine (State.store_once _ _ _ _).trans ((State.overtake_once _ _).trans ?_)
  cases r with
  | update => exact congrArg (·.park.once) (s.settle_me _)
  | read | write | atomic | cas => rfl

theorem State.sendWrite_once (tids : List Nat) (va : Word) (r : Config.Request) (e : Option Word) (tied : Bool) :
    (s.sendWrite tids va r e tied).me.park.once = s.me.park.once := by
  unfold State.sendWrite
  split
  · exact s.loseWrite_once tids va
  · unfold State.post
    split
    · rfl
    · exact s.departWrite_once ..

theorem State.enginePiece_once (tid : Nat) (va : Word) (p : Piece) (bs : List Byte) :
    (s.enginePiece tid va p bs).me.park.once = s.me.park.once := by
  unfold State.enginePiece
  split
  · split
    · rw [State.settle_me, State.sendWrite_once]
    · exact s.write_once ..
  · exact s.write_once ..

theorem State.enginePieceAll_once (tid : Nat) (va : Word) (ps : List Piece) (bs : List Byte) :
    (s.enginePieceAll tid va ps bs).me.park.once = s.me.park.once := by
  induction ps generalizing s bs with
  | nil => rfl
  | cons p ps ih => exact (ih _ _).trans (s.enginePiece_once tid va p _)

end

/-- Where the step succeeds, the issuing slot performs once for its set after it exactly if it did before. -/
def KeepsOnce (f : State → Except Code State) : Prop := ∀ ⦃s t⦄, f s = .ok t → t.me.park.once = s.me.park.once

theorem State.actWrite_keepsOnce (a : Actor) (va n v : Nat) : KeepsOnce fun s => s.actWrite a va n v := by
  intro s t ht
  obtain ⟨ps, -, rfl⟩ := exists_of_map_eq_ok ht
  exact s.enginePieceAll_once ..

theorem State.steps_keepsOnce {fs : List (State → Except Code State)} (hfs : ∀ f ∈ fs, KeepsOnce f) :
    KeepsOnce fun s => s.steps fs := by
  induction fs with
  | nil =>
    intro s t ht
    cases ht
    rfl
  | cons f fs ih =>
    intro s t ht
    obtain ⟨hf, hfs⟩ := List.forall_mem_cons.1 hfs
    simp only [State.steps] at ht
    split at ht
    · cases ht
    · next hu => exact (ih hfs ht).trans (hf hu)

theorem State.putStream_keepsOnce (a : Actor) (va clen len rctr rcommit : Nat) :
    KeepsOnce fun s => s.putStream a va clen len rctr rcommit := by
  refine State.steps_keepsOnce ?_
  simp only [List.forall_mem_cons]
  exact ⟨State.actWrite_keepsOnce .., State.actWrite_keepsOnce .., State.actWrite_keepsOnce .., List.forall_mem_nil _⟩

/-! ## What a truncation comes to (R296) -/

/-- The write of a record that has been truncated to its own length, which counts its pending tokens into RCTR. -/
def State.putWhole (s : State) (act : Actor) (ea : Word) (x : Stream) (commit : Bool) : Except Code State :=
  let rctr := (x.rcommit + (x.len - x.clen)) % 2 ^ 64
  s.putStream act ea.toNat (if commit then x.len else x.clen) x.len rctr (if commit then rctr else x.rcommit)

section

variable {s : State} {act : Actor} {ea l : Word} {x : Stream} (hx : s.goodStream act ea = .ok x) (commit : Bool)

include hx

theorem State.truncate_outside (hl : l.toNat < x.clen ∨ x.len < l.toNat) : s.truncate act ea l commit = .error (0x385, l) := by
  simp only [State.truncate, hx, Bool.or_eq_true, decide_eq_true_eq, hl, if_true]

/-- A truncation to LEN drops no page and writes the record. -/
theorem State.truncate_whole (hl : l.toNat = x.len) (hc : x.clen ≤ x.len) {u : State}
    (hu : s.putWhole act ea x commit = .ok u) : s.truncate act ea l commit = .ok (u, 0) := by
  unfold State.putWhole at hu
  have inside : ¬((decide (x.len < x.clen) || decide (x.len < x.len)) = true) := by simp [hc]
  simp only [State.truncate, hx, hl, if_neg inside, Nat.sub_self, List.range_zero, List.map_nil, State.dropPages, hu]
  rfl

end

/-! ## KVTRUNC, once its request has been answered -/

/-- `s` stands at the operation of a KVTRUNC with operands `ea` and `l`: outside a replica set, its request answered. -/
structure State.Truncates (s : State) (gd : Guard) (ea l : Word) : Prop where
  guard : s.me.guardOk gd = true
  once : s.me.park.once = false
  vals : s.me.park.vals = some [ea, l]
  answered : s.me.park.answered = true
  alone : s.me.rep.count = 0
  record : s.streamOk ea

/-- An instruction that has its operands goes on with them. -/
theorem State.operands_kept {s : State} {vs : List Word} (h : s.me.park.vals = some vs) (srcs : List Src)
    (k : List Word → State → Out) : s.operands srcs [] k = k vs s := by
  simp [State.operands, State.mailboxDst, h]

theorem State.farThen_answered {s : State} (h : s.me.park.answered = true) (ea : Word) (ps : List Piece) (k : State → Out)
    (as : Piece → Config.Request) : s.farThen ea ps k as = k s := by
  simp [State.farThen, h]

theorem State.recordAccess_ok {s : State} {va : Word} {k : List Piece → Out} (h : s.streamOk va) :
    ∃ ps, s.recordAccess va k = k ps := by
  obtain ⟨hal, ps, ha, hf, hr⟩ := h
  refine ⟨ps, ?_⟩
  simp only [State.recordAccess, State.withAccess, ha]
  rw [if_neg (by simp [hal]), noFormat hf, if_neg Bool.false_ne_true, State.writable, if_neg (by simp [hr])]

/-- A slot with its operands taken stands at its instruction. -/
theorem State.Stands.here {s : State} (h : s.me.park.once = false) : s.Stands s where
  calm := ⟨rfl, ⟨rfl, fun _ _ => rfl, fun _ _ _ => rfl, fun _ _ _ _ _ _ _ => trivial⟩, .inl ⟨rfl, rfl⟩, fun _ hb => ⟨hb, rfl⟩⟩
  once := h
  pc := rfl
  view := rfl

section

variable {s : State} {gd : Guard} {ea l : Word} (h : s.Truncates gd ea l) (commit : Bool) (a : Fin 32) (b c : Src)

include h

/-- It goes straight to its effect. -/
theorem execKvtrunc_performs : ∃ ps, exec (.kvtrunc gd commit a b c) s =
    streamOnce 0xE8 a ea ps [ea, l] (fun act ea l s => s.truncate act ea l commit) s := by
  rw [show exec (.kvtrunc gd commit a b c) s = execKvtrunc gd commit a b c s from rfl, execKvtrunc,
    State.guarded_true _ _ _ h.guard, State.operands_kept h.vals]
  exact State.recordAccess_ok h.record

theorem execKvtrunc_error {e : Code} (he : s.truncate s.actor ea l commit = .error e) :
    exec (.kvtrunc gd commit a b c) s = s.fails e := by
  obtain ⟨ps, hp⟩ := execKvtrunc_performs h commit a b c
  rw [hp, streamOnce, State.votePoint_alone h.alone, State.farThen_answered h.answered]
  simp only [arg, List.getD_cons_succ, List.getD_cons_zero, he]

theorem execKvtrunc_ok {t : State} {v : Nat} (ht : s.truncate s.actor ea l commit = .ok (t, v)) :
    exec (.kvtrunc gd commit a b c) s = t.doneRegs [(a.val, BitVec.ofNat 64 v)] := by
  obtain ⟨ps, hp⟩ := execKvtrunc_performs h commit a b c
  rw [hp, streamOnce, State.votePoint_alone h.alone, State.farThen_answered h.answered]
  simp only [arg, List.getD_cons_succ, List.getD_cons_zero, ht]

variable {x : Stream} (hx : s.goodStream s.actor ea = .ok x)

include hx

theorem execKvtrunc_outside (hl : l.toNat < x.clen ∨ x.len < l.toNat) :
    Stmt.takesTrap s (exec (.kvtrunc gd commit a b c) s) 0x385 l := by
  rw [execKvtrunc_error h commit a b c (State.truncate_outside hx commit hl)]
  exact (State.Stands.here h.once).takesTrap 0x385 l

theorem execKvtrunc_whole (hl : l.toNat = x.len) (hc : x.clen ≤ x.len) {u : State}
    (hu : s.putWhole s.actor ea x commit = .ok u) :
    exec (.kvtrunc gd commit a b c) s = .next (u.onMe fun y => (y.setReg a.val 0).complete) := by
  have ho : u.me.park.once = false := (State.putStream_keepsOnce _ _ _ _ _ _ hu).trans h.once
  rw [execKvtrunc_ok h commit a b c (State.truncate_whole hx commit hl hc hu), State.doneRegs_one _ _ _ ho, State.onMe_onMe]
  rfl

end

/-! ## RAND (R293) -/

/-- RAND's register takes the slot's next draw, which is counted. -/
theorem execRand_draws {s : State} {gd : Guard} (hg : s.me.guardOk gd = true) (ho : s.me.park.once = false) (f : Bool) (a : Fin 32) :
    exec (.rand gd f a) s = .next (s.onMe fun x =>
      (({ x with rngCtr := x.rngCtr + 1 } : Slot).setReg a.val (randWord x f)).complete) := by
  have counted : (s.onMe fun x => { x with rngCtr := x.rngCtr + 1 }).me.park.once = false := by rwa [State.me_onMe]
  rw [show exec (.rand gd f a) s = execRand gd f a s from rfl, execRand, State.guarded_true _ _ _ hg,
    State.doneRegs_one _ _ _ counted, State.onMe_onMe, State.onMe_onMe]
  exact congrArg Host.Outcome.next (State.onMe_congr rfl)

end Sys2Proof.Machine

open Sys2Proof Sys2Proof.Machine

/-- Settles O46: outside a replica set an answered KVTRUNC is its truncation, and RAND an update of its slot. -/
theorem randomBitsAndTruncation : Obligations.RandomBitsAndTruncation := by
  unfold Obligations.RandomBitsAndTruncation
  intro gd a b c commit s hg ho
  refine ⟨execRand_draws hg ho false a, execRand_draws hg ho true a, fun ea l ps x hv hans hrep hal ha hf hr hx => ?_⟩
  have h : s.Truncates gd ea l := ⟨hg, ho, hv, hans, hrep, hal, ps, ha, hf, hr⟩
  refine ⟨fun hl => ?_, fun u hl hc hu => execKvtrunc_whole h commit a b c hx hl hc hu⟩
  obtain ⟨t, ht, hmem, hregs, huser, -⟩ := execKvtrunc_outside h commit a b c hx hl
  refine ⟨t, ht, hmem, hregs, fun hs hctx => ?_⟩
  obtain ⟨-, hcontext, -⟩ := huser hs
  obtain ⟨-, -, htrap⟩ := hcontext hctx
  rw [htrap]
  exact ⟨rfl, rfl⟩

end

section
/-! O2 to O6 of APPROVED.json: the integer instructions and the values they compute (R122 to R124 of spec/07). -/

namespace Sys2Proof.Machine

open Sys2Proof

/-! ## The model's operations are those of R122 and R123, over integers and bits -/

/-- A product of sign-extended words is that of the integers. -/
theorem mulhSigned_eq (x y : Word) : mulhSigned x y = (x.signExtend 128 * y.signExtend 128).extractLsb' 64 64 := by
  have ext : ∀ z : Word, z.signExtend 128 = BitVec.ofInt 128 z.toInt := fun z =>
    by rw [← BitVec.toInt_signExtend_of_le (x := z) (v := 128) (by decide), BitVec.ofInt_toInt]
  rw [mulhSigned, ext, ext, ← BitVec.ofInt_mul]
  generalize x.toInt * y.toInt = z
  apply BitVec.eq_of_toNat_eq
  simp only [BitVec.toNat_ofInt, BitVec.extractLsb'_toNat, Nat.shiftRight_eq_div_pow]
  omega

theorem mulhUnsigned_eq (x y : Word) : mulhUnsigned x y = (x.setWidth 128 * y.setWidth 128).extractLsb' 64 64 := by
  have wide : ∀ z : Word, (z.setWidth 128).toNat = z.toNat := fun z => BitVec.toNat_setWidth_of_le (by decide)
  apply BitVec.eq_of_toNat_eq
  simp only [mulhUnsigned, BitVec.toNat_ofNat, BitVec.extractLsb'_toNat, BitVec.toNat_mul, wide, Nat.shiftRight_eq_div_pow]
  generalize x.toNat * y.toNat = z
  omega

theorem sdiv_eq_ofInt (x y : Word) : x.sdiv y = BitVec.ofInt 64 (x.toInt.tdiv y.toInt) :=
  BitVec.eq_of_toInt_eq (by rw [BitVec.toInt_sdiv, BitVec.toInt_ofInt])

theorem srem_eq_ofInt (x y : Word) : x.srem y = BitVec.ofInt 64 (x.toInt.tmod y.toInt) := by
  rw [← BitVec.toInt_srem, BitVec.ofInt_toInt]

theorem udiv_eq_ofNat (x y : Word) : x / y = BitVec.ofNat 64 (x.toNat / y.toNat) := by
  rw [← BitVec.toNat_udiv, BitVec.ofNat_toNat, BitVec.setWidth_eq]

theorem umod_eq_ofNat (x y : Word) : x % y = BitVec.ofNat 64 (x.toNat % y.toNat) := by
  rw [← BitVec.toNat_umod, BitVec.ofNat_toNat, BitVec.setWidth_eq]

/-- The shifts by an amount below 64. -/
theorem shiftBy_eq (k : ShiftKind) (x : Word) {n : Nat} (hn : n < 64) : shiftBy k x n = Stmt.shifted k x n := by
  cases k with
  | shl =>
    apply BitVec.eq_of_toNat_eq
    simp only [shiftBy, Stmt.shifted, BitVec.toNat_shiftLeft, BitVec.toNat_ofNat, Nat.shiftLeft_eq]
  | shr =>
    apply BitVec.eq_of_toNat_eq
    have hlt : x.toNat / 2 ^ n < 2 ^ 64 := Nat.lt_of_le_of_lt (Nat.div_le_self ..) x.isLt
    simp only [shiftBy, Stmt.shifted, BitVec.toNat_ushiftRight, BitVec.toNat_ofNat, Nat.shiftRight_eq_div_pow, Nat.mod_eq_of_lt hlt]
  | sar =>
    simp only [shiftBy, Stmt.shifted]
    have hdiv : x.toInt / 2 ^ n = (x.sshiftRight n).toInt := by
      rw [BitVec.toInt_sshiftRight, Int.shiftRight_eq_div_pow]
      simp
    rw [hdiv, BitVec.ofInt_toInt]
  | ror =>
    simp only [shiftBy, Stmt.shifted, BitVec.rotateRight_def, Nat.mod_eq_of_lt hn]
    by_cases h0 : n = 0
    · simp [h0]
    · rw [Nat.mod_eq_of_lt (by omega : 64 - n < 64)]

theorem shiftAmount_lt (y : Word) : shiftAmount y < 64 := Nat.mod_lt _ (by decide)

/-- Where the two are equal it does not matter which is taken. -/
theorem ite_lt_eq_ite_le {α β : Type} [PartialOrder β] [DecidableLT β] [DecidableLE β] {m : α → β} (hm : ∀ {x y}, m x = m y → x = y)
    {x y u v : α} (he : x = y → u = v) : (if m x < m y then u else v) = if m x ≤ m y then u else v := by
  by_cases h : x = y
  · rw [he h, ite_self, ite_self]
  · exact if_congr (lt_iff_le_and_ne.trans (and_iff_left (mt hm h))) rfl rfl

section

variable (x y : Word)

theorem minSigned_eq : minSigned x y = if x.toInt ≤ y.toInt then x else y := by
  simp only [minSigned, BitVec.slt, decide_eq_true_eq]
  exact ite_lt_eq_ite_le BitVec.eq_of_toInt_eq id

theorem maxSigned_eq : maxSigned x y = if x.toInt ≤ y.toInt then y else x := by
  simp only [maxSigned, BitVec.slt, decide_eq_true_eq]
  exact ite_lt_eq_ite_le BitVec.eq_of_toInt_eq Eq.symm

theorem minUnsigned_eq : minUnsigned x y = if x.toNat ≤ y.toNat then x else y := by
  simp only [minUnsigned, BitVec.ult, decide_eq_true_eq]
  exact ite_lt_eq_ite_le BitVec.eq_of_toNat_eq id

theorem maxUnsigned_eq : maxUnsigned x y = if x.toNat ≤ y.toNat then y else x := by
  simp only [maxUnsigned, BitVec.ult, decide_eq_true_eq]
  exact ite_lt_eq_ite_le BitVec.eq_of_toNat_eq Eq.symm

end

/-! ## The counts -/

theorem length_takeWhile_not {α : Type} (p : α → Bool) (l : List α) : (l.takeWhile fun a => !p a).length = l.findIdx p := by
  rw [List.takeWhile_eq_take_findIdx_not, List.length_take]
  simp only [Bool.not_not]
  exact Nat.min_eq_left List.findIdx_le_length

/-- The first one from the top stands at the logarithm. -/
theorem leadingZeros_eq (x : Word) : leadingZeros x = if x = 0 then 64 else BitVec.ofNat 64 (63 - x.toNat.log2) := by
  rw [leadingZeros, length_takeWhile_not]
  by_cases h0 : x = 0
  · subst h0
    rfl
  · have hx : x.toNat ≠ 0 := mt (fun h => BitVec.eq_of_toNat_eq h) h0
    have hlog : x.toNat.log2 < 64 := (Nat.log2_lt hx).2 x.isLt
    rw [if_neg h0]
    congr 1
    rw [List.findIdx_eq (by rw [List.length_range]; omega)]
    simp only [List.getElem_range, BitVec.getLsbD]
    refine ⟨?_, fun j hj => ?_⟩
    · rw [show 63 - (63 - x.toNat.log2) = x.toNat.log2 by omega]
      exact Nat.testBit_log2 hx
    · exact Nat.testBit_lt_two_pow ((Nat.log2_lt hx).1 (by omega))

theorem trailingZeros_eq (x : Word) : trailingZeros x = BitVec.ofNat 64 ((List.range 64).findIdx fun i => x.getLsbD i) := by
  rw [trailingZeros, length_takeWhile_not]

theorem length_filter_eq_sum {α : Type} (p : α → Bool) (l : List α) : (l.filter p).length = (l.map fun a => (p a).toNat).sum := by
  induction l with
  | nil => rfl
  | cons a l ih => cases h : p a <;> simp [h, ih, Nat.add_comm]

theorem setBits_eq (x : Word) : setBits x = BitVec.ofNat 64 ((List.range 64).map fun i => x.toNat / 2 ^ i % 2).sum := by
  simp only [setBits, length_filter_eq_sum, BitVec.getLsbD, Nat.toNat_testBit]

/-! ## The instructions -/

section

variable {s : State} (h : s.atStart)

include h

theorem alu2_writes {a : Opnd} {b c : Src} (hc : s.canRun [b, c] [a]) (f : Word → Word → Word) :
    alu2 f a b c s = .next (s.wrote [b, c] a (f (arg (s.vals [b, c]) 0) (arg (s.vals [b, c]) 1))) := by
  rw [alu2, State.operands_run s _ _ _ h hc, State.finish_wrote s _ a _ h hc]

theorem alu1_writes {a : Opnd} {b : Src} (hc : s.canRun [b] [a]) (f : Word → Word) :
    alu1 f a b s = .next (s.wrote [b] a (f (arg (s.vals [b]) 0))) := by
  rw [alu1, State.operands_run s _ _ _ h hc, State.finish_wrote s _ a _ h hc]

theorem aluImm_writes {gd : Guard} (hg : s.me.guardOk gd = true) {a : Opnd} {b : Src} (hc : s.canRun [b] [a])
    (f : Word → Word → Word) (v : Word) :
    aluImm f gd a b v s = .next (s.wrote [b] a (f (arg (s.vals [b]) 0) v)) := by
  rw [aluImm, State.guarded_true _ _ _ hg, State.operands_run s _ _ _ h hc, State.finish_wrote s _ a _ h hc]

end

/-! ## The rows of R122 and R124 as the model runs them -/

/-- The instruction of row `e` is the operand step of two sources with the row's function. -/
def RunsBinary (e : (Opnd → Src → Src → Instr) × (Word → Word → Word)) : Prop :=
  ∀ a b c s, exec (e.1 a b c) s = alu2 e.2 a b c s

/-- So with one source. -/
def RunsUnary (e : (Opnd → Src → Instr) × (Word → Word)) : Prop :=
  ∀ a b s, exec (e.1 a b) s = alu1 e.2 a b s

/-- And with a guard and an immediate. -/
def RunsImm (e : (Guard → Opnd → Src → BitVec 20 → Instr) × (Word → Word → Word)) : Prop :=
  ∀ gd a b imm s, exec (e.1 gd a b imm) s = aluImm e.2 gd a b (imm.signExtend 64) s

/-- An instruction whose function in the model is the row's. -/
theorem runsBinary {i : Opnd → Src → Src → Instr} (f : Word → Word → Word) {g : Word → Word → Word} (e : ∀ x y, f x y = g x y)
    (hi : ∀ a b c s, exec (i a b c) s = alu2 f a b c s) : RunsBinary (i, g) := by
  obtain rfl : f = g := funext₂ e
  exact hi

theorem runsUnary {i : Opnd → Src → Instr} (f : Word → Word) {g : Word → Word} (e : ∀ x, f x = g x)
    (hi : ∀ a b s, exec (i a b) s = alu1 f a b s) : RunsUnary (i, g) := by
  obtain rfl : f = g := funext e
  exact hi

/-- The shifts of two sources take their amount from the low bits of the second. -/
theorem runsBinary_shift {i : Opnd → Src → Src → Instr} (k : ShiftKind)
    (hi : ∀ a b c s, exec (i a b c) s = alu2 (fun x y => shiftBy k x (shiftAmount y)) a b c s) :
    RunsBinary (i, fun x y => Stmt.shifted k x (y.toNat % 64)) := runsBinary _ (fun x y => shiftBy_eq k x (shiftAmount_lt y)) hi

theorem binaryOps_run : ∀ e ∈ Stmt.binaryOps, RunsBinary e := by
  simp only [Stmt.binaryOps, List.forall_mem_cons]
  exact ⟨fun _ _ _ _ => rfl, fun _ _ _ _ => rfl, fun _ _ _ _ => rfl, runsBinary mulhSigned mulhSigned_eq fun _ _ _ _ => rfl,
    runsBinary mulhUnsigned mulhUnsigned_eq fun _ _ _ _ => rfl,
    runsBinary divSigned (fun x y => if_congr .rfl rfl (sdiv_eq_ofInt x y)) fun _ _ _ _ => rfl,
    runsBinary divUnsigned (fun x y => if_congr .rfl rfl (udiv_eq_ofNat x y)) fun _ _ _ _ => rfl,
    runsBinary remSigned (fun x y => if_congr .rfl rfl (srem_eq_ofInt x y)) fun _ _ _ _ => rfl,
    runsBinary remUnsigned (fun x y => if_congr .rfl rfl (umod_eq_ofNat x y)) fun _ _ _ _ => rfl,
    fun _ _ _ _ => rfl, fun _ _ _ _ => rfl, fun _ _ _ _ => rfl, List.forall_mem_nil _⟩

theorem shiftOps_run : ∀ e ∈ Stmt.shiftOps, RunsBinary e := by
  simp only [Stmt.shiftOps, List.forall_mem_cons]
  exact ⟨runsBinary_shift .shl fun _ _ _ _ => rfl, runsBinary_shift .shr fun _ _ _ _ => rfl, runsBinary_shift .sar fun _ _ _ _ => rfl,
    runsBinary_shift .ror fun _ _ _ _ => rfl, runsBinary minSigned minSigned_eq fun _ _ _ _ => rfl,
    runsBinary maxSigned maxSigned_eq fun _ _ _ _ => rfl, runsBinary minUnsigned minUnsigned_eq fun _ _ _ _ => rfl,
    runsBinary maxUnsigned maxUnsigned_eq fun _ _ _ _ => rfl, List.forall_mem_nil _⟩

theorem unaryOps_run : ∀ e ∈ Stmt.unaryOps, RunsUnary e := by
  simp only [Stmt.unaryOps, List.forall_mem_cons]
  exact ⟨runsUnary leadingZeros leadingZeros_eq fun _ _ _ => rfl, runsUnary setBits setBits_eq fun _ _ _ => rfl,
    runsUnary trailingZeros trailingZeros_eq fun _ _ _ => rfl, List.forall_mem_nil _⟩

theorem immOps_run : ∀ e ∈ Stmt.immOps, RunsImm e := by
  simp only [Stmt.immOps, List.forall_mem_cons]
  exact ⟨fun _ _ _ _ _ => rfl, fun _ _ _ _ _ => rfl, fun _ _ _ _ _ => rfl, fun _ _ _ _ _ => rfl, List.forall_mem_nil _⟩

theorem exec_shi (gd : Guard) (a : Opnd) (b : Src) (k : ShiftKind) (n : Fin 64) (s : State) :
    exec (.shi gd a b k n) s = aluImm (fun x _ => shiftBy k x n.val) gd a b 0 s := rfl

end Sys2Proof.Machine

open Sys2Proof Sys2Proof.Machine

/-- Settles O2: each operation of the model is the spec's, and the operand form is `alu2`'s. -/
theorem arithmeticWritesResult : Obligations.ArithmeticWritesResult := by
  intro e he a b c s h hc
  rw [binaryOps_run e he, alu2_writes h hc]

/-- Settles O3: the same with the shifts, minima and maxima; a shift amount is below 64. -/
theorem shiftsAndBoundsWriteResult : Obligations.ShiftsAndBoundsWriteResult := by
  intro e he a b c s h hc
  rw [shiftOps_run e he, alu2_writes h hc]

/-- Settles O4: the counts over the bits of the source. -/
theorem countsWriteResult : Obligations.CountsWriteResult := by
  intro e he a b s h hc
  rw [unaryOps_run e he, alu1_writes h hc]

/-- Settles O5: behind the guard, the immediate form. -/
theorem immediatesWriteResult : Obligations.ImmediatesWriteResult := by
  intro gd a b s h hg hc
  refine ⟨fun e he imm => ?_, fun k n => ?_⟩
  · rw [immOps_run e he, aluImm_writes h hg hc]
  · rw [exec_shi, aluImm_writes h hg hc, shiftBy_eq k _ n.isLt]

/-- Settles O6: the quotient and the remainder are total functions, evaluated at their corners. -/
theorem divisionNeverTraps : Obligations.DivisionNeverTraps := by
  intro a b c s h hc
  have div : exec (.div a b c) s = _ := alu2_writes h hc divSigned
  have divu : exec (.divu a b c) s = _ := alu2_writes h hc divUnsigned
  have rem : exec (.rem a b c) s = _ := alu2_writes h hc remSigned
  have remu : exec (.remu a b c) s = _ := alu2_writes h hc remUnsigned
  rw [div, divu, rem, remu]
  refine ⟨fun hy => ?_, fun hx hy => ?_⟩
  · rw [hy]
    exact ⟨rfl, rfl, rfl, rfl⟩
  · rw [hx, hy]
    exact ⟨rfl, rfl⟩

end

section
/-! O14, O15 and O20 of APPROVED.json: the loop step and the flow of control (R118 to R126 of spec/07, R346 of spec/23). -/

namespace Sys2Proof.Machine

open Sys2Proof

/-! ## The loop step, case by case (R121 of spec/07) -/

/-- The PC stands at the end of an active level. -/
theorem levelEnds_iff {c pc e : Word} : (c != 0 && pc == e) = true ↔ c ≠ 0 ∧ pc = e := by
  rw [Bool.and_eq_true, bne_iff_ne, beq_iff_eq]

section

variable {x : Slot}

theorem Slot.loopNext_handler (h : x.trap.inh = true ∨ x.sup.sinh = true) : x.loopNext = (x.loop, succPc x.pc x.nh) := by
  have hh : x.inHandler = true := by
    rwa [Slot.inHandler, Bool.or_eq_true]
  rw [Slot.loopNext, if_pos hh]
  rfl

variable (hi : x.trap.inh = false) (hs : x.sup.sinh = false)

include hi hs

theorem Slot.inHandler_false : ¬(x.inHandler = true) := by
  simp [Slot.inHandler, hi, hs]

/-- The end of the inner level. -/
theorem Slot.loopNext_inner {n : Word} (hn : x.loop.lc0 = n + 1) (h0 : x.loop.lc0 ≠ 0) (he : x.pc = x.loop.le0) :
    x.loopNext = if n ≠ 0 then ({ x.loop with lc0 := n }, x.loop.lb0)
      else if x.loop.lc1 ≠ 0 ∧ x.pc = x.loop.le1 then
        ({ x.loop with lc0 := n, lc1 := x.loop.lc1 - 1 }, if x.loop.lc1 - 1 ≠ 0 then x.loop.lb1 else succPc x.pc x.nh)
      else ({ x.loop with lc0 := n }, succPc x.pc x.nh) := by
  have hd : x.loop.lc0 - 1 = n := by rw [hn, BitVec.add_sub_cancel]
  have hin : (x.loop.lc0 != 0 && x.pc == x.loop.le0) = true := levelEnds_iff.2 ⟨h0, he⟩
  rw [Slot.loopNext, if_neg (Slot.inHandler_false hi hs), if_pos hin, hd]
  simp only [bne_iff_ne, Bool.and_eq_true, beq_iff_eq]
  rfl

/-- The end of the outer level, away from the inner one's. -/
theorem Slot.loopNext_outer {m : Word} (hn : ¬(x.loop.lc0 ≠ 0 ∧ x.pc = x.loop.le0)) (hm : x.loop.lc1 = m + 1) (h1 : x.loop.lc1 ≠ 0)
    (he : x.pc = x.loop.le1) :
    x.loopNext = ({ x.loop with lc1 := m }, if m ≠ 0 then x.loop.lb1 else succPc x.pc x.nh) := by
  have hd : x.loop.lc1 - 1 = m := by rw [hm, BitVec.add_sub_cancel]
  have hno : ¬((x.loop.lc0 != 0 && x.pc == x.loop.le0) = true) := mt levelEnds_iff.1 hn
  have hin : (x.loop.lc1 != 0 && x.pc == x.loop.le1) = true := levelEnds_iff.2 ⟨h1, he⟩
  rw [Slot.loopNext, if_neg (Slot.inHandler_false hi hs), if_neg hno, if_pos hin, hd]
  simp only [bne_iff_ne]
  rfl

/-- Away from both ends. -/
theorem Slot.loopNext_inside (h0 : ¬(x.loop.lc0 ≠ 0 ∧ x.pc = x.loop.le0)) (h1 : ¬(x.loop.lc1 ≠ 0 ∧ x.pc = x.loop.le1)) :
    x.loopNext = (x.loop, succPc x.pc x.nh) := by
  have hno0 : ¬((x.loop.lc0 != 0 && x.pc == x.loop.le0) = true) := mt levelEnds_iff.1 h0
  have hno1 : ¬((x.loop.lc1 != 0 && x.pc == x.loop.le1) = true) := mt levelEnds_iff.1 h1
  rw [Slot.loopNext, if_neg (Slot.inHandler_false hi hs), if_neg hno0, if_neg hno1]
  rfl

end

/-! ## Transfers (R118, R120 and R123 of spec/07) -/

section

variable {s : State}

theorem relTarget_eq (pc : Word) (f : BitVec 20) : relTarget pc f = Stmt.rel pc f := rfl

theorem State.taken_loop (srcs : List Src) : (s.taken srcs).me.loop = s.me.loop := congrArg (·.loop) (s.taken_bare srcs)

theorem State.taken_nh (srcs : List Src) : (s.taken srcs).me.nh = s.me.nh := congrArg (·.nh) (s.taken_bare srcs)

theorem State.taken_succ (srcs : List Src) : (s.taken srcs).me.succ = succPc s.me.pc s.me.nh := by
  rw [Slot.succ, State.taken_pc, State.taken_nh]

theorem Slot.jump_via (x : Slot) (t : Word) : (x.jump t).via = x.pc := by
  unfold Slot.jump Slot.ended
  dsimp only
  split <;> rfl

theorem State.writeOpnd_once (a : Opnd) (v : Word) (h : s.me.park.once = false) : (s.writeOpnd a v).me.park.once = false := by
  cases a with
  | g n =>
    rw [State.writeOpnd, State.me_onMe, Slot.setReg_park]
    exact h
  | q n | mb m => exact h

/-- A destination queue that can take a result has room. -/
theorem State.canRun_room {srcs : List Src} {q : Fin 8} (hc : s.canRun srcs [.q q]) :
    ((s.taken srcs).myCore.queue q.val).length < 8 := by
  obtain ⟨hr, -, -⟩ := hc
  simp only [State.operandsReady, Bool.and_eq_true, List.all_eq_true] at hr
  have hq : (s.myCore.queue q.val).length - countQ q.val (srcs.map (·.op)) + countQ q.val [.q q] ≤ 8 :=
    of_decide_eq_true (hr.2 (.q q) List.mem_cons_self)
  rw [countQ_one_self] at hq
  rw [State.taken_queue, List.length_drop]
  omega

/-- So a destination mailbox is empty. -/
theorem State.canRun_empty {srcs : List Src} {m : Fin 4} (hc : s.canRun srcs [.mb m]) :
    (s.taken srcs).myCore.mbFull.getLsbD m.val = false := by
  rw [State.taken_myCore]
  exact State.takeAll_mbFull srcs s m.val (hc.2.2 m List.mem_cons_self)

/-- With a destination that can take it, a link is written and control transferred. -/
theorem State.finishJump_links (h : s.atStart) {srcs : List Src} {a : Opnd} (hc : s.canRun srcs [a]) (v t : Word) :
    (s.taken srcs).finishJump a v t = .next (((s.taken srcs).writeOpnd a v).onMe (·.jump t)) := by
  have go : ((s.taken srcs).writeOpnd a v).goto t = _ :=
    State.goto_alone _ t (State.writeOpnd_once a v (s.taken_once srcs h.2.2))
  cases a with
  | g n => exact go
  | q n => rw [State.finishJump, if_pos (State.canRun_room hc), go]
  | mb m => rw [State.finishJump, if_neg (by rw [State.canRun_empty hc]; exact Bool.false_ne_true), go]

theorem levelsFull_iff {c d : Word} : (c != 0 && d != 0) = true ↔ c ≠ 0 ∧ d ≠ 0 := by
  rw [Bool.and_eq_true, bne_iff_ne, bne_iff_ne]

/-- A level that LOOP starts. -/
theorem Slot.startLoop_eq (x : Slot) (n e : Word) : x.startLoop n e = { x with loop := Stmt.looped x n e } := by
  unfold Slot.startLoop Stmt.looped
  split <;> rfl

section

variable {gd : Guard} (h : s.atStart) (hg : s.me.guardOk gd = true)

include h hg

theorem execBr_jumps (t : BitVec 20) : exec (.br gd t) s = .next (s.onMe (·.jump (Stmt.rel s.me.pc t))) := by
  rw [show exec (.br gd t) s = execBr gd t s from rfl, execBr, State.guarded_true _ _ _ hg, State.goto_alone _ _ h.2.2, relTarget_eq]

theorem execCall_links {a : Opnd} (hc : s.canRun [] [a]) (t : BitVec 20) : exec (.call gd a t) s =
    .next (((s.taken []).writeOpnd a (succPc s.me.pc s.me.nh)).onMe (·.jump (Stmt.rel s.me.pc t))) := by
  rw [show exec (.call gd a t) s = execCall gd a t s from rfl, execCall, State.guarded_true _ _ _ hg,
    State.operands_run s _ _ _ h hc, State.finishJump_links h hc, State.taken_succ, State.taken_pc, relTarget_eq]

/-- LOOP once its count has been taken. -/
theorem execLoop_counted {a : Opnd} (hc : s.canRun [⟨a, false⟩] []) (t : BitVec 20) : exec (.loop gd a t) s =
    (let u := s.taken [⟨a, false⟩]
     let n := arg (s.vals [⟨a, false⟩]) 0
     let e := Stmt.rel s.me.pc t
     if n = 0 then u.succOf e u.goto
     else if s.me.loop.lc0 != 0 && s.me.loop.lc1 != 0 then u.trap 0x3C4 0
     else (u.onMe (·.startLoop n e)).done) := by
  rw [show exec (.loop gd a t) s = execLoop gd a t s from rfl, execLoop, State.guarded_true _ _ _ hg]
  refine (State.operands_run s [⟨a, false⟩] [] _ h hc).trans ?_
  simp only [State.taken_pc, State.taken_loop, relTarget_eq]

variable {a : Opnd} (hc : s.canRun [⟨a, false⟩] []) (t : BitVec 20)

include hc

theorem execLoop_skips (hn : arg (s.vals [⟨a, false⟩]) 0 = 0) (hl : (Stmt.rel s.me.pc t).toNat / 64 = s.me.pc.toNat / 64) :
    exec (.loop gd a t) s = .next ((s.taken [⟨a, false⟩]).onMe (·.jump (succPc (Stmt.rel s.me.pc t) s.me.nh))) := by
  rw [execLoop_counted h hg hc]
  dsimp only
  rw [if_pos hn, State.succOf, State.taken_pc, if_pos hl, State.taken_nh, State.goto_alone _ _ (s.taken_once _ h.2.2)]

theorem execLoop_starts (hn : arg (s.vals [⟨a, false⟩]) 0 ≠ 0) (hl : s.me.loop.lc0 = 0 ∨ s.me.loop.lc1 = 0) :
    exec (.loop gd a t) s = .next ((s.taken [⟨a, false⟩]).onMe fun x =>
      ({ x with loop := Stmt.looped x (arg (s.vals [⟨a, false⟩]) 0) (Stmt.rel s.me.pc t) } : Slot).complete) := by
  have free : ¬((s.me.loop.lc0 != 0 && s.me.loop.lc1 != 0) = true) := by
    rw [levelsFull_iff]
    exact fun ⟨h0, h1⟩ => hl.elim h0 h1
  rw [execLoop_counted h hg hc]
  dsimp only
  simp only [if_neg hn, if_neg free, Slot.startLoop_eq]
  exact State.onMe_done _ (s.taken_once _ h.2.2)

theorem execLoop_full (hn : arg (s.vals [⟨a, false⟩]) 0 ≠ 0) (h0 : s.me.loop.lc0 ≠ 0) (h1 : s.me.loop.lc1 ≠ 0) :
    Stmt.takesTrap s (exec (.loop gd a t) s) 0x3C4 0 := by
  have both : (s.me.loop.lc0 != 0 && s.me.loop.lc1 != 0) = true := levelsFull_iff.2 ⟨h0, h1⟩
  rw [execLoop_counted h hg hc]
  dsimp only
  rw [if_neg hn, if_pos both]
  exact (State.Stands.taken h _).takesTrap 0x3C4 0

end

/-! ## Traps and returns (R126 of spec/07, R346 of spec/23) -/

theorem trapAfterStep_eq (code : Nat) (taddr : Word) (s : State) :
    trapAfterStep code taddr s = .next ((s.onMe Slot.complete).trapSlot s.agent code s.me.complete.pc taddr false) := by
  rw [trapAfterStep, State.me_onMe]
  rfl

/-- A handler's return: an update of the slot, then a transfer. -/
theorem State.onMe_goto {f : Slot → Slot} (hf : (f s.me).park.once = false) (t : Word) :
    (s.onMe f).goto t = .next (s.onMe fun x => (f x).jump t) := by
  rw [State.goto_alone _ t (by rwa [State.me_onMe]), State.onMe_onMe]

section

variable (ho : s.me.park.once = false)

include ho

theorem execTret_supervisor (hs : s.me.sup.sinh = true) : exec .tret s =
    .next (s.onMe fun x => ({ x with sup := { x.sup with sinh := false } } : Slot).jump x.sup.spc) := by
  rw [show exec .tret s = execTret s from rfl, execTret, if_pos hs, State.onMe_goto ho]
  exact congrArg Host.Outcome.next (State.onMe_congr rfl)

theorem execTret_context (hs : s.me.sup.sinh = false) (hi : s.me.trap.inh = true) : exec .tret s =
    .next (s.onMe fun x => ({ x with trap := { x.trap with inh := false } } : Slot).jump x.trap.tpc) := by
  rw [show exec .tret s = execTret s from rfl, execTret, if_neg (by simp [hs]), if_pos hi, State.onMe_goto ho]
  exact congrArg Host.Outcome.next (State.onMe_congr rfl)

theorem execTret_outside (hs : s.me.sup.sinh = false) (hi : s.me.trap.inh = false) : Stmt.takesTrap s (exec .tret s) 0x3C5 0 := by
  rw [show exec .tret s = execTret s from rfl, execTret, if_neg (by simp [hs]), if_neg (by simp [hi])]
  exact (State.Stands.here ho).takesTrap 0x3C5 0

end

end

end Sys2Proof.Machine

open Sys2Proof Sys2Proof.Machine

/-- Settles O14: one case of the loop step for each place of the PC. -/
theorem loopStepChoosesNextPc : Obligations.LoopStepChoosesNextPc := by
  intro x
  simp only [Slot.complete_loop, Slot.complete_pc]
  refine ⟨fun h => ?_, fun hi hs => ⟨fun n hn h0 he => ⟨fun hne => ?_, fun hz h1 => ?_, fun hz m hm h1 he1 => ?_⟩,
    fun h0 m hm h1 he1 => ?_, fun h0 h1 => ?_⟩⟩
  · rw [Slot.loopNext_handler h]
    exact ⟨rfl, rfl⟩
  · rw [Slot.loopNext_inner hi hs hn h0 he, if_pos hne]
    exact ⟨rfl, rfl⟩
  · subst hz
    rw [Slot.loopNext_inner hi hs hn h0 he, if_neg (not_not.2 rfl), if_neg h1]
    exact ⟨rfl, rfl⟩
  · subst hz
    rw [Slot.loopNext_inner hi hs hn h0 he, if_neg (not_not.2 rfl), if_pos ⟨h1, he1⟩, hm, BitVec.add_sub_cancel]
    exact ⟨rfl, rfl⟩
  · rw [Slot.loopNext_outer hi hs h0 hm h1 he1]
    exact ⟨rfl, rfl⟩
  · rw [Slot.loopNext_inside hi hs h0 h1]
    exact ⟨rfl, rfl⟩

/-- Settles O15: a transfer is the slot's jump; LOOP goes by its count and the levels that are active. -/
theorem branchesTransferAndLoopsStart : Obligations.BranchesTransferAndLoopsStart := by
  intro gd a t s h hg
  refine ⟨execBr_jumps h hg t, fun hc => execCall_links h hg hc t, fun hc => ⟨?_, ?_, ?_⟩, fun x v => ⟨?_, ?_, ?_⟩⟩
  · exact execLoop_skips h hg hc t
  · exact execLoop_starts h hg hc t
  · exact execLoop_full h hg hc t
  · exact x.jump_pc v
  · exact x.jump_loop v
  · exact x.jump_via v

/-- Settles O20: TRAP and BRK complete and then enter; TRET asks for the supervisor's handler before the context's. -/
theorem trapBreakAndReturn : Obligations.TrapBreakAndReturn := by
  intro gd v s ho
  refine ⟨fun hg => ?_, trapAfterStep_eq .., execTret_supervisor ho, execTret_context ho, fun hs hi _ => execTret_outside ho hs hi⟩
  rw [show exec (.trap gd v) s = execTrap gd v s from rfl, execTrap, State.guarded_true _ _ _ hg, trapAfterStep_eq]

end

section
/-! SUPPORT. What an instruction of registers and flow leaves of the other slots, the cores' engines and the package: all of it, unless
its trap freezes the package, which marks what a port that goes Down ends (R339 of spec/22, R350 of spec/23). -/

namespace Sys2Proof.Machine

open Sys2Proof

/-! ## What a port that goes Down marks in a slot -/

/-- `y` is `x` but for the marks of a remote write that is lost and of a request that no answer can reach. -/
def Slot.CutOff (x y : Slot) : Prop := ∃ l d, y = { x with lost := l, park := { x.park with dead := d } }

theorem Slot.CutOff.refl (x : Slot) : x.CutOff x := ⟨x.lost, x.park.dead, rfl⟩

theorem Slot.CutOff.trans {x y z : Slot} (h : x.CutOff y) (h' : y.CutOff z) : x.CutOff z := by
  obtain ⟨l, d, rfl⟩ := h
  obtain ⟨l', d', rfl⟩ := h'
  exact ⟨l', d', rfl⟩

theorem Slot.CutOff.marked {x y : Slot} (h : x.CutOff y) : x.marked y := by
  obtain ⟨l, d, rfl⟩ := h
  exact ⟨l, d, x.mon, rfl⟩

theorem Slot.cutOff_lost (x : Slot) (l : Option Word) : x.CutOff { x with lost := l } := ⟨l, x.park.dead, rfl⟩

theorem Slot.cutOff_dead (p : Nat) (x : Slot) : x.CutOff (x.cutOff p) := by
  unfold Slot.cutOff
  split
  · exact ⟨x.lost, true, rfl⟩
  · exact .refl x

/-- Every slot of `t` is that of `s` but for such marks. -/
def State.CutsOff (s t : State) : Prop := ∀ n, (s.slot n).CutOff (t.slot n)

section

variable {s t u : State}

theorem State.CutsOff.trans (h : s.CutsOff t) (h' : t.CutsOff u) : s.CutsOff u := fun n => (h n).trans (h' n)

theorem State.CutsOff.ofSlots (h : t.slots = s.slots) : s.CutsOff t := fun n => by
  rw [State.slot, State.slot, h]
  exact .refl _

theorem State.CutsOff.foldl {α : Type} {f : State → α → State} {l : List α} (h : s.CutsOff t)
    (hf : ∀ (u : State) a, u.CutsOff (f u a)) : s.CutsOff (l.foldl f t) :=
  List.foldlRecOn l f h fun u hu a _ => hu.trans (hf u a)

theorem State.cutsOff_onTid (s : State) (tid : Nat) {f : Slot → Slot} (hf : ∀ x : Slot, x.CutOff (f x)) : s.CutsOff (s.onTid tid f) := by
  intro n
  rw [State.slot_onTid]
  split
  · exact hf _
  · exact .refl _

theorem State.cutsOff_loseWrite (s : State) (tids : List Nat) (va : Word) : s.CutsOff (s.loseWrite tids va) :=
  State.CutsOff.foldl (.ofSlots rfl) fun u tid => u.cutsOff_onTid tid fun x => x.cutOff_lost (some va)

theorem State.cutsOff_onAllSlots (s : State) {f : Slot → Slot} (h0 : f {} = {}) (hf : ∀ x : Slot, x.CutOff (f x)) :
    s.CutsOff (s.onAllSlots f) := fun n => by
  rw [State.slot_onAllSlots s h0]
  exact hf _

theorem State.pick_slots (s : State) (n : Nat) : (s.pick n).2.slots = s.slots := by
  unfold State.pick
  split <;> rfl

theorem State.unsent_slots (s : State) (w : RemoteWrite) : (s.unsent w).slots = s.slots := by
  unfold State.unsent
  split <;> rfl

/-- While every port is Down what waits by one stays there. -/
theorem State.reroute_slots (h : ∀ p, (s.port p).state = .down) : s.reroute.slots = s.slots := by
  unfold State.reroute
  refine (List.foldlRecOn (motive := fun t => s.Drops t ∧ t.slots = s.slots) _ _ ⟨.refl s, rfl⟩ fun t ht p _ => ?_).2
  obtain ⟨hd, hs⟩ := ht
  have hp := hd.trans (t.drops_onPort p (f := fun x => { x with waiting := x.waiting.filter fun o => (t.goesBy p o).isNone })
    (fun _ hb => hb) fun hs => hs)
  refine List.foldlRecOn (motive := fun t => s.Drops t ∧ t.slots = s.slots) _ _ ⟨hp, hs⟩ fun u hu o _ => ?_
  rw [State.goesBy_down (hu.1.down h)]
  exact hu

theorem State.cutsOff_portDown (s : State) (p : Nat) (h : ∀ q, (s.port q).state = .down) : s.CutsOff (s.portDown p) := by
  have h0 := s.drops_onPort p (f := fun x => { x with state := .down }) (fun _ hb => hb) fun _ => rfl
  unfold State.portDown
  dsimp only
  refine State.CutsOff.trans (.trans ?_ (State.cutsOff_onAllSlots _ rfl (Slot.cutOff_dead p))) (.ofSlots rfl)
  refine State.CutsOff.foldl (.foldl (.foldl (.ofSlots ?_) ?unsent) ?lost) ?waiting
  · exact (State.pick_slots _ _).trans (State.reroute_slots (h0.down h))
  case unsent => exact fun u w => .ofSlots (u.unsent_slots w)
  case lost => exact fun u w => u.cutsOff_loseWrite w.tids w.va
  case waiting =>
    intro u o
    cases o with
    | write tids va r e tied => exact u.cutsOff_loseWrite tids va
    | request | result | message | reply => exact .ofSlots rfl

theorem State.cutsOff_portsDown (s : State) : s.CutsOff s.portsDown := by
  have all : ∀ p, (({ s with ports := s.ports.map fun e => (e.1, { e.2 with state := .down }) } : State).port p).state = .down :=
    fun p => congrArg Port.state (val_map (d := ({} : Port)) (g := fun x => { x with state := .down }) rfl p s.ports)
  unfold State.portsDown
  refine (List.foldlRecOn (motive := fun t => (∀ p, (t.port p).state = .down) ∧ s.CutsOff t) _ _ ?_ ?_).2
  · exact ⟨all, .ofSlots rfl⟩
  intro t ht p _
  exact ⟨(t.drops_portDown p ht.1).down ht.1, ht.2.trans (t.cutsOff_portDown p ht.1)⟩

theorem State.cutsOff_freezeBy (s : State) (resumable : Bool) (src : BitVec 2) : s.CutsOff (s.freezeBy resumable src) := by
  unfold State.freezeBy
  split
  · exact s.cutsOff_portsDown
  · split <;> exact .ofSlots rfl
  · exact .ofSlots rfl

/-- A freeze request that freezes nothing changes nothing. -/
theorem State.freezeBy_same {resumable : Bool} {src : BitVec 2} (h : (s.freezeBy resumable src).freeze = s.freeze) :
    s.freezeBy resumable src = s := by
  unfold State.freezeBy at h ⊢
  split
  · next hz =>
    rw [hz] at h
    cases h
  · next hz =>
    rw [hz] at h
    split
    · rfl
    · next hr =>
      rw [if_neg hr] at h
      cases h
  · rfl

end

/-! ## The words of a slot that parking and completing keep -/

/-- The words of a slot that neither parking, completing nor a trap changes, beside `Slot.words`. -/
def Slot.steady (x : Slot) : Word × Table Monitor × Lease := (x.srCtr, x.mon, x.lease)

/-- With the trap words, which a trap changes. -/
def Slot.quiet (x : Slot) : (Word × Table Monitor × Lease) × CtxTrap × SupTrap := (x.steady, x.trap, x.sup)

theorem Slot.quiet_ite {x y z : Slot} {c : Prop} [Decidable c] (hy : y.quiet = x.quiet) (hz : z.quiet = x.quiet) :
    (if c then y else z).quiet = x.quiet := by
  split
  · exact hy
  · exact hz

theorem Slot.quiet_ended (x : Slot) : x.ended.quiet = x.quiet := by
  unfold Slot.ended
  dsimp only
  split <;> rfl

theorem Slot.quiet_complete (x : Slot) : x.complete.quiet = x.quiet := Slot.quiet_ended _

theorem Slot.quiet_jump (x : Slot) (t : Word) : (x.jump t).quiet = x.quiet := Slot.quiet_ended _

theorem Slot.quiet_setReg (x : Slot) (n : Nat) (v : Word) : (x.setReg n v).quiet = x.quiet := by
  unfold Slot.setReg
  split <;> rfl

theorem Slot.quiet_clearFull (x : Slot) (n : Nat) : (x.clearFull n).quiet = x.quiet := by
  unfold Slot.clearFull
  split <;> rfl

theorem Slot.quiet_keep (x : Slot) (voted : Bool) : (x.keep voted).quiet = x.quiet := by
  unfold Slot.keep
  split <;> rfl

theorem Slot.quiet_abandon (x : Slot) : x.abandon.quiet = x.quiet := x.quiet_keep x.park.voted

theorem Slot.quiet_halt (x : Slot) : x.halt.quiet = x.quiet := by
  unfold Slot.halt
  dsimp only
  split
  · split
    · rfl
    · exact x.quiet_abandon
  · split
    · rfl
    · split
      · exact x.quiet_abandon
      · exact Slot.quiet_ite rfl rfl
  · rfl

theorem Slot.quiet_parkOn (x : Slot) (w : Wait) : (x.parkOn w).quiet = x.quiet := by
  unfold Slot.parkOn
  dsimp only
  split
  · exact Slot.quiet_halt _
  · rfl

theorem Slot.quiet_checkpointHere (x : Slot) : x.checkpointHere.quiet = x.quiet := by
  unfold Slot.checkpointHere
  split <;> rfl

theorem Slot.steady_enter {x y : Slot} {svec : Word} {code : Nat} {tpc taddr : Word} {async : Bool}
    (e : x.enter svec code tpc taddr async = some y) : y.steady = x.steady := by
  have hk := congrArg (·.1) (x.quiet_keep (async && x.park.voted))
  unfold Slot.enter at e
  split at e
  · cases e
  · dsimp only at e
    split at e <;> cases e <;> exact hk

/-! ## An instruction that keeps to its slot -/

/-- What of a core no instruction here changes. -/
def Core.engines (c : Core) : Table (BitVec 32) × MatrixCfg × Table Pen × Table Lane := (c.acc, c.mcfg, c.pens, c.lanes)

/-- What of the package no instruction here changes, whatever ports and walks do. -/
def State.around (s : State) : Nat × Table Tile × HostRegs × TestPort × List Leaf × Word :=
  (s.agent, s.tiles, s.host, s.tap, s.tlb, s.qepoch)

theorem State.around_fields {s t : State} (h : t.around = s.around) :
    t.tiles = s.tiles ∧ t.host = s.host ∧ t.tap = s.tap ∧ t.tlb = s.tlb ∧ t.qepoch = s.qepoch := by
  simp only [State.around, Prod.mk.injEq] at h
  exact h.2

/-- `t` is a state within an instruction that began in `s`: the other slots and the engines stand. Where `T` fails, which says that a
trap may be taken, the trap words of the slot stand too. -/
structure State.Own (T : Prop) (s t : State) : Prop where
  around : t.around = s.around
  freeze : t.freeze = s.freeze
  slot : ∀ n, n ≠ s.agent → t.slot n = s.slot n
  core : ∀ c, (t.core c).engines = (s.core c).engines
  steady : t.me.steady = s.me.steady
  quiet : ¬T → t.me.quiet = s.me.quiet

section

variable {T : Prop} {s t u : State}

theorem State.Own.refl (s : State) : s.Own T s := ⟨rfl, rfl, fun _ _ => rfl, fun _ => rfl, rfl, fun _ => rfl⟩

theorem State.Own.agent (h : s.Own T t) : t.agent = s.agent := congrArg (·.1) h.around

/-- An update of parts of the state that are not spoken of here. -/
theorem State.Own.other (h : s.Own T t) (hs : u.slots = t.slots := by rfl) (hc : u.cores = t.cores := by rfl)
    (ha : u.around = t.around := by rfl) (hf : u.freeze = t.freeze := by rfl) : s.Own T u := by
  have slot : ∀ n, u.slot n = t.slot n := fun n => by rw [State.slot, State.slot, hs]
  have me : u.me = t.me := by rw [State.me, slot, State.me, show u.agent = t.agent from congrArg (·.1) ha]
  refine ⟨ha.trans h.around, hf.trans h.freeze, fun n hn => (slot n).trans (h.slot n hn), fun c => ?_, me ▸ h.steady,
    fun ht => me ▸ h.quiet ht⟩
  rw [← h.core c, State.core, State.core, hc]

/-- The issuing slot becomes `x`. -/
theorem State.Own.setMe (h : s.Own T t) {x : Slot} (hs : x.steady = t.me.steady) (hq : ¬T → x.quiet = t.me.quiet) :
    s.Own T (t.setSlot t.agent x) := by
  have me : (t.setSlot t.agent x).me = x := t.slot_setSlot t.agent x
  refine ⟨h.around, h.freeze, fun n hn => ?_, h.core, ?_, fun ht => ?_⟩
  · exact (t.slot_setSlot_other _ _ _ (by rwa [h.agent])).trans (h.slot n hn)
  · rw [me, hs, h.steady]
  · rw [me, hq ht, h.quiet ht]

theorem State.Own.onMe (h : s.Own T t) {f : Slot → Slot} (hf : (f t.me).quiet = t.me.quiet) : s.Own T (t.onMe f) :=
  h.setMe (congrArg (·.1) hf) fun _ => hf

theorem State.Own.onAgent (h : s.Own T t) {f : Slot → Slot} (hf : (f t.me).quiet = t.me.quiet) : s.Own T (t.onSlot s.agent f) := by
  rw [← h.agent]
  exact h.onMe hf

theorem State.Own.onCore (h : s.Own T t) (c : Nat) {f : Core → Core} (hf : ∀ x, (f x).engines = x.engines) : s.Own T (t.onCore c f) := by
  refine ⟨h.around, h.freeze, h.slot, fun d => ?_, h.steady, h.quiet⟩
  rw [← h.core d]
  by_cases hd : d = c
  · subst hd
    rw [State.core_onCore, hf]
  · rw [State.core_onCore_other _ _ _ _ hd]

theorem State.Own.onMyCore (h : s.Own T t) {f : Core → Core} (hf : ∀ x, (f x).engines = x.engines) : s.Own T (t.onMyCore f) :=
  h.onCore _ hf

theorem State.Own.takeOne (h : s.Own T t) (q : Src) : s.Own T (t.takeOne q).2 := by
  unfold State.takeOne
  split
  · dsimp only
    split
    · exact h.onMe (Slot.quiet_clearFull ..)
    · exact h
  · dsimp only
    refine h.onMyCore ?_
    exact fun _ => rfl
  · dsimp only
    refine h.onMyCore ?_
    exact fun _ => rfl

theorem State.Own.takeAll (h : s.Own T t) (srcs : List Src) : s.Own T (t.takeAll srcs).2 := by
  induction srcs generalizing t with
  | nil => exact h
  | cons q qs ih => exact ih (h.takeOne q)

theorem State.Own.taken (h : s.Own T t) (srcs : List Src) : s.Own T (t.taken srcs) := (h.takeAll srcs).onMe rfl

theorem State.Own.writeOpnd (h : s.Own T t) (a : Opnd) (v : Word) : s.Own T (t.writeOpnd a v) := by
  cases a with
  | g n => exact h.onMe (Slot.quiet_setReg ..)
  | q n | mb m =>
    refine h.onMyCore ?_
    exact fun _ => rfl

theorem State.Own.park (h : s.Own T t) (w : Wait) : Leads (s.Own T) (t.park w) := leads_next (h.onMe (Slot.quiet_parkOn ..))

/-! ## Traps -/

theorem State.Own.giveOne (h : s.Own T t) (e : Src × Word) : s.Own T (t.giveOne s.agent e) := by
  unfold State.giveOne
  split
  · split
    · refine h.onAgent ?_
      rfl
    · exact h
  · refine h.onCore _ ?_
    exact fun _ => rfl
  · refine h.onCore _ ?_
    exact fun _ => rfl

theorem State.Own.giveBack (h : s.Own T t) : s.Own T (t.giveBack s.agent) := by
  unfold State.giveBack
  dsimp only
  split
  · split
    · refine State.Own.onAgent (List.foldlRecOn _ _ h fun u hu e _ => hu.giveOne e) ?_
      rfl
    · exact h
  · exact h

/-- The state of `Own`, or one in which its trap has frozen the package. -/
def State.OwnEnd (T : Prop) (s t : State) : Prop := s.Own T t ∨ T ∧ ∃ u, s.Own T u ∧ t = u.freezeBy false 3

theorem State.Own.trapSlot (h : s.Own T t) (hT : T) (code : Nat) (tpc taddr : Word) (async : Bool) :
    s.OwnEnd T (t.trapSlot s.agent code tpc taddr async) := by
  rw [← h.agent]
  unfold State.trapSlot
  split
  · next x e => exact .inl (h.setMe (Slot.steady_enter e) fun hn => absurd hT hn)
  · exact .inr ⟨hT, t, h, rfl⟩

theorem State.Own.trap (h : s.Own T t) (ho : t.me.park.once = false) (hT : T) (code : Nat) (taddr : Word) :
    Leads (s.OwnEnd T) (t.trap code taddr) := by
  rw [State.trap_alone ho, h.agent]
  exact leads_next ((h.giveBack.onAgent (Slot.quiet_checkpointHere _)).trapSlot hT ..)

/-! ## What an instruction has left at its end -/

theorem State.OwnEnd.sameOthers (h : s.OwnEnd T t) : s.sameOthers t := by
  rcases h with h | ⟨-, u, h, rfl⟩
  · exact sameOthers_of_slots h.slot
  · refine ⟨fun hf n hn => ?_, fun n hn => ?_⟩
    · rw [State.freezeBy_same (hf.trans h.freeze.symm)]
      exact h.slot n hn
    · rw [← h.slot n hn]
      exact (u.cutsOff_freezeBy false 3 n).marked

theorem State.freezeBy_around (s : State) (r : Bool) (src : BitVec 2) : (s.freezeBy r src).around = s.around := by
  have same := congrArg State.around (s.freezeBy_noLinks r src)
  exact same

theorem State.OwnEnd.around (h : s.OwnEnd T t) : t.around = s.around := by
  rcases h with h | ⟨-, u, h, rfl⟩
  · exact h.around
  · exact (u.freezeBy_around ..).trans h.around

theorem State.OwnEnd.core (h : s.OwnEnd T t) (c : Nat) : (t.core c).engines = (s.core c).engines := by
  rcases h with h | ⟨-, u, h, rfl⟩
  · exact h.core c
  · rw [← h.core c]
    have same := congrArg (fun v : State => (v.core c).engines) (u.freezeBy_noLinks false 3)
    exact same

theorem State.OwnEnd.steady (h : s.OwnEnd T t) : t.me.steady = s.me.steady := by
  rcases h with h | ⟨-, u, h, rfl⟩
  · exact h.steady
  · obtain ⟨l, d, e⟩ := u.cutsOff_freezeBy false 3 u.agent
    have me : (u.freezeBy false 3).me = { u.me with lost := l, park := { u.me.park with dead := d } } := by
      rw [State.me, show (u.freezeBy false 3).agent = u.agent from congrArg (·.1) (u.freezeBy_around ..), e]
      rfl
    rw [← h.steady, me]
    rfl

/-- Where no trap can be taken the trap words stand. -/
theorem State.OwnEnd.quiet (h : s.OwnEnd T t) (hT : ¬T) : t.me.quiet = s.me.quiet := by
  rcases h with h | ⟨ht, -⟩
  · exact h.quiet hT
  · exact absurd ht hT

end

end Sys2Proof.Machine

end

section
/-! O10 and O16 of APPROVED.json: the frames of the register instructions and of flow, traps and control words (R120 to R127 of
spec/07, R346 of spec/23). -/

namespace Sys2Proof.Machine

open Sys2Proof

/-! ## Within an instruction, and at its end -/

/-- `t` is a state within an instruction that began in `s`, wrote no general register but `r`, and still stands at its PC's work. -/
structure State.Within (T : Prop) (r : Nat) (s t : State) : Prop where
  calm : State.Calm (fun _ => True) r s t
  own : s.Own T t
  once : t.me.park.once = false

/-- `t` is what such an instruction has left: it completed, parked or trapped. -/
structure State.Ends (T : Prop) (r : Nat) (s t : State) : Prop where
  calm : State.Calm (fun _ => True) r s t
  own : s.OwnEnd T t

theorem leads_ends {T : Prop} {r : Nat} {s : State} {o : Out} (hc : Leads (State.Calm (fun _ => True) r s) o)
    (ho : Leads (s.OwnEnd T) o) : Leads (s.Ends T r) o := ⟨fun t e => ⟨hc.state t e, ho.state t e⟩⟩

section

variable {T : Prop} {r : Nat} {s t : State}

theorem State.Within.start (ho : s.me.park.once = false) : s.Within T r s where
  calm := ⟨rfl, ⟨rfl, fun _ _ => rfl, fun _ _ _ => rfl, fun _ _ _ _ _ _ _ => trivial⟩, .inl ⟨rfl, rfl⟩, fun _ hb => ⟨hb, rfl⟩⟩
  own := .refl s
  once := ho

theorem State.Within.ends (h : s.Within T r t) : s.Ends T r t := ⟨h.calm, .inl h.own⟩

theorem State.Within.taken (h : s.Within T r t) (srcs : List Src) : s.Within T r (t.taken srcs) where
  calm := (h.calm.takeAll fun _ _ _ _ => trivial).onMe fun hc => ⟨hc.words, hc.reg, hc.full, fun _ _ _ _ _ _ _ => trivial⟩
  own := h.own.taken srcs
  once := t.taken_once srcs h.once

theorem State.Within.writeOpnd {a : Opnd} (h : s.Within T (Opnd.regNum a) t) (v : Word) : s.Within T (Opnd.regNum a) (t.writeOpnd a v) where
  calm := by
    cases a with
    | g n => exact h.calm.onMe fun hc => hc.setReg trivial v
    | q n | mb m => exact h.calm.other
  own := h.own.writeOpnd a v
  once := State.writeOpnd_once a v h.once

/-! ## How an instruction ends -/

theorem State.Within.trap (h : s.Within T r t) (hT : T) (code : Nat) (taddr : Word) : Leads (s.Ends T r) (t.trap code taddr) :=
  leads_ends (h.calm.trap ..) (h.own.trap h.once hT ..)

theorem State.Within.park (h : s.Within T r t) (w : Wait) : Leads (s.Ends T r) (t.park w) :=
  leads_ends (h.calm.park w) ((h.own.park w).mono fun _ => .inl)

theorem State.Within.complete (h : s.Within T r t) : s.Ends T r (t.onMe Slot.complete) :=
  ⟨h.calm.mildMe (Slot.mild_complete _), .inl (h.own.onMe (Slot.quiet_complete _))⟩

theorem State.Within.done (h : s.Within T r t) : Leads (s.Ends T r) t.done := by
  rw [State.done_alone _ h.once]
  exact leads_next h.complete

theorem Slot.mild_jump (x : Slot) (t : Word) : x.Mild (x.jump t) :=
  Slot.Mild.trans (y := { x with pc := t, via := x.pc }) .other (Slot.mild_ended _)

theorem State.Within.goto (h : s.Within T r t) (pc : Word) : Leads (s.Ends T r) (t.goto pc) := by
  rw [State.goto_alone _ _ h.once]
  exact leads_next ⟨h.calm.mildMe (Slot.mild_jump _ pc), .inl (h.own.onMe (Slot.quiet_jump _ pc))⟩

/-- A result of the slot alone waits in it. -/
theorem State.Within.resultWaits (h : s.Within T r t) (m : MailOut) : s.Within T r (t.resultWaits m) := by
  have alone : t.resultWaits m = t.onMe (·.resultWaits m) := by
    simp [State.resultWaits, State.giveMirrors, t.mirrors_nil h.once]
  rw [alone]
  exact ⟨h.calm.mildMe .other, h.own.onMe rfl, by rw [State.me_onMe]; exact h.once⟩

theorem State.Within.finish {a : Opnd} (h : s.Within T (Opnd.regNum a) t) (v : Word) : Leads (s.Ends T (Opnd.regNum a)) (t.finish a v) := by
  have given : t.give a v none = t.writeOpnd a v := t.give_alone a v none h.once
  cases a with
  | g n =>
    rw [State.finish, State.doneRegs_one _ _ _ h.once]
    exact leads_next (h.writeOpnd v).complete
  | q n =>
    rw [State.finish, given]
    exact leads_ite (fun _ => leads_next (h.writeOpnd v).complete) fun _ => (h.resultWaits _).park _
  | mb m =>
    rw [State.finish, given]
    exact leads_ite (fun _ => (h.resultWaits _).park _) fun _ => leads_next (h.writeOpnd v).complete

theorem State.Within.finishJump {a : Opnd} (h : s.Within T (Opnd.regNum a) t) (v pc : Word) :
    Leads (s.Ends T (Opnd.regNum a)) (t.finishJump a v pc) := by
  have go := (h.writeOpnd v).goto pc
  cases a with
  | g n => exact go
  | q n => exact leads_ite (fun _ => go) fun _ => (h.resultWaits _).park _
  | mb m => exact leads_ite (fun _ => (h.resultWaits _).park _) fun _ => go

/-! ## The guard and the operands -/

theorem State.Within.guarded (h : s.Within T r t) (gd : Guard) {k : State → Out} (hk : Leads (s.Ends T r) (k t)) :
    Leads (s.Ends T r) (t.guarded gd k) := leads_ite (fun _ => hk) fun _ => h.done

theorem State.Within.operands (h : s.Within T r t) {srcs : List Src} {dsts : List Opnd} (hm : t.mailboxDst dsts = true → T)
    {P : State → Prop} (hP : ∀ u, s.Ends T r u → P u) {k : List Word → State → Out}
    (hk : ∀ vs u, s.Within T r u → Leads P (k vs u)) : Leads P (t.operands srcs dsts k) := by
  unfold State.operands
  refine leads_ite (fun hd => (h.trap (hm hd) ..).mono hP) fun _ => ?_
  split
  · exact hk _ t h
  · exact leads_ite (fun _ => hk _ _ (h.taken srcs)) fun _ => (h.park _).mono hP

end

/-! ## The register instructions -/

section

variable {s : State} (ho : s.me.park.once = false)

include ho

/-- Only in a replica set does the operand step trap (R279 of spec/17). -/
theorem State.operands_ends (srcs : List Src) (a : Opnd) {k : List Word → State → Out}
    (hk : ∀ vs u, s.Within (s.me.rep.count ≠ 0) (Opnd.regNum a) u → Leads (s.Ends (s.me.rep.count ≠ 0) (Opnd.regNum a)) (k vs u)) :
    Leads (s.Ends (s.me.rep.count ≠ 0) (Opnd.regNum a)) (s.operands srcs [a] k) := by
  refine (State.Within.start ho).operands (fun hd => ?_) (fun _ hu => hu) hk
  rw [State.mailboxDst, Bool.and_eq_true, bne_iff_ne] at hd
  exact hd.1

theorem alu2_ends (f : Word → Word → Word) (a : Opnd) (b c : Src) :
    Leads (s.Ends (s.me.rep.count ≠ 0) (Opnd.regNum a)) (alu2 f a b c s) := State.operands_ends ho _ a fun _ _ hu => hu.finish _

theorem alu1_ends (f : Word → Word) (a : Opnd) (b : Src) :
    Leads (s.Ends (s.me.rep.count ≠ 0) (Opnd.regNum a)) (alu1 f a b s) := State.operands_ends ho _ a fun _ _ hu => hu.finish _

theorem aluImm_ends (f : Word → Word → Word) (gd : Guard) (a : Opnd) (b : Src) (v : Word) :
    Leads (s.Ends (s.me.rep.count ≠ 0) (Opnd.regNum a)) (aluImm f gd a b v s) :=
  (State.Within.start ho).guarded gd <| State.operands_ends ho _ a fun _ _ hu => hu.finish _

theorem execCall_ends (gd : Guard) (a : Opnd) (t : BitVec 20) :
    Leads (s.Ends (s.me.rep.count ≠ 0) (Opnd.regNum a)) (execCall gd a t s) :=
  (State.Within.start ho).guarded gd <| State.operands_ends ho _ a fun _ _ hu => hu.finishJump _ _

end

/-- Every register instruction, in the words of O10. -/
theorem registerInstruction_ends {gd : Guard} {a : Opnd} {b c : Src} {s : State} {i : Instr} (ho : s.me.park.once = false)
    (hi : (∃ e ∈ Stmt.binaryOps, i = e.1 a b c) ∨ (∃ e ∈ Stmt.shiftOps, i = e.1 a b c) ∨ (∃ e ∈ Stmt.unaryOps, i = e.1 a b) ∨
      (∃ e ∈ Stmt.immOps, ∃ v, i = e.1 gd a b v) ∨ (∃ k n, i = .shi gd a b k n) ∨ ∃ t, i = .call gd a t) :
    Leads (s.Ends (s.me.rep.count ≠ 0) (Opnd.regNum a)) (exec i s) := by
  rcases hi with ⟨e, he, rfl⟩ | ⟨e, he, rfl⟩ | ⟨e, he, rfl⟩ | ⟨e, he, v, rfl⟩ | ⟨k, n, rfl⟩ | ⟨t, rfl⟩
  · rw [binaryOps_run e he]
    exact alu2_ends ho ..
  · rw [shiftOps_run e he]
    exact alu2_ends ho ..
  · rw [unaryOps_run e he]
    exact alu1_ends ho ..
  · rw [immOps_run e he]
    exact aluImm_ends ho ..
  · rw [exec_shi]
    exact aluImm_ends ho ..
  · exact execCall_ends ho gd a t

theorem Opnd.ne_regNum {a : Opnd} {n : Fin 32} (h : a ≠ .g n) : n.val ≠ (Opnd.regNum a) := by
  cases a with
  | g m => exact fun e => h (congrArg Opnd.g (Fin.ext e.symm))
  | q m | mb m => exact Nat.ne_of_lt n.isLt

theorem State.Ends.sameSpecial {r : Nat} {s t : State} (h : s.Ends (s.me.rep.count ≠ 0) r t) : s.sameSpecial t := by
  have hsteady := h.own.steady
  have hcore := fun c => h.own.core c
  simp only [Slot.steady, Core.engines, Prod.mk.injEq] at hsteady hcore
  obtain ⟨hsr, hmon, hlease⟩ := hsteady
  obtain ⟨-, -, -, htlb, hepoch⟩ := State.around_fields h.own.around
  refine ⟨h.calm.sameWords, congrArg (·.rngCtr) h.calm.me.words, hsr, hmon, hlease, fun h0 => ?_, hcore, htlb, hepoch⟩
  have hq := h.own.quiet (not_not.2 h0)
  exact ⟨congrArg (·.2.1) hq, congrArg (·.2.2) hq⟩

/-! ## Flow, traps and control words -/

/-- What the instructions of flow, traps and control words leave alone (O16). -/
def State.controlKept (s u : State) : Prop :=
  s.sameRegs u 32 ∧ s.keptMem u ∧ u.host = s.host ∧ u.tap = s.tap ∧ s.sameOthers u

section

variable {T : Prop} {s t u : State}

theorem State.Ends.controlKept (h : s.Ends T 32 t) : s.controlKept t := by
  obtain ⟨-, hhost, htap, -⟩ := State.around_fields h.own.around
  exact ⟨h.calm.sameRegs, h.calm.keptMem, hhost, htap, h.own.sameOthers⟩

/-- The registers, predicates, vector and mask registers of a slot, and what is parked in it. -/
def Slot.registers (x : Slot) : Table Word × BitVec 16 × Table (BitVec 1024) × Table (BitVec 128) × Park := (x.g, x.p, x.v, x.k, x.park)

/-- A control word is written in the words of the issuing slot or of the package, never in a register. -/
theorem State.writeWord_registers (s : State) (num : Nat) (v : Word) :
    (s.writeWord num v).me.registers = s.me.registers ∧ (s.writeWord num v).mem = s.mem := by
  unfold State.writeWord
  split_ifs
  · exact ⟨by rw [State.me_onMe]; rfl, rfl⟩
  · exact ⟨by rw [State.me_onMe]; rfl, rfl⟩
  · exact ⟨by rw [State.me_onMe]; rfl, rfl⟩
  · exact ⟨rfl, rfl⟩
  · exact ⟨by rw [State.me_onMe]; rfl, rfl⟩
  · exact ⟨rfl, rfl⟩

/-- An update of the issuing slot that may change its trap words. -/
theorem State.Own.onMeWords (h : s.Own True t) {f : Slot → Slot} (hf : (f t.me).steady = t.me.steady) : s.Own True (t.onMe f) :=
  h.setMe hf fun hn => absurd trivial hn

theorem State.Own.writeWord (h : s.Own True t) (num : Nat) (v : Word) : s.Own True (t.writeWord num v) := by
  unfold State.writeWord
  split_ifs
  · exact h.onMeWords rfl
  · exact h.onMeWords rfl
  · exact h.onMeWords rfl
  · exact h.other
  · exact h.onMeWords rfl
  · exact h

theorem State.Within.wordWritten (h : s.Within True 32 t) (num : Nat) (v : Word) : Leads s.controlKept (t.writeWord num v).done := by
  obtain ⟨hregs, hmem⟩ := t.writeWord_registers num v
  simp only [Slot.registers, Prod.mk.injEq] at hregs
  obtain ⟨hg, hp, hv, hk, hpark⟩ := hregs
  obtain ⟨creg, cp, cv, ck⟩ := h.calm.sameRegs
  obtain ⟨hkept, hbytes⟩ := h.calm.keptMem
  have own : s.Own True ((t.writeWord num v).onMe Slot.complete) := (h.own.writeWord num v).onMe (Slot.quiet_complete _)
  obtain ⟨-, hhost, htap, -⟩ := State.around_fields own.around
  rw [State.done_alone _ (by rw [hpark]; exact h.once)]
  refine leads_next ⟨⟨fun n hn => ?_, ?_, ?_, ?_⟩, ⟨fun _ => ?_, fun b hb => ?_⟩, hhost, htap, sameOthers_of_slots own.slot⟩
  · rw [State.me_onMe, Slot.reg_complete, Slot.reg_congr hg, creg n hn]
  · rw [State.me_onMe, Slot.complete_p, hp, cp]
  · rw [State.me_onMe, Slot.complete_v, hv, cv]
  · rw [State.me_onMe, Slot.complete_k, hk, ck]
  · exact hmem.trans (hkept h.own.freeze)
  · exact (congrArg (memByte · b) hmem).trans (hbytes b hb)

/-! ### The line of a head elsewhere -/

theorem State.Own.post (h : s.Own T t) (p tid : Nat) (q : Config.Request) : s.Own T (t.post p (.request tid q)) := by
  unfold State.post
  split
  · exact h.other
  · exact h.other

theorem State.Own.send (h : s.Own T t) (va : Word) (ps : List Piece) (as : Piece → Config.Request) :
    Leads (s.Own T) (t.send va ps as) := by
  unfold State.send
  refine State.Own.park (List.foldlRecOn _ _ ?_ fun u hu p _ => ?_) _
  · refine h.onMe ?_
    rfl
  · split
    · exact State.Own.post hu ..
    · exact hu

theorem State.Within.parkWalk (h : s.Within T r t) (va : Word) : Leads (s.Ends T r) (t.parkWalk va) :=
  leads_ends ((h.calm.slotMiss va).park _) ((State.Own.park (State.Own.other h.own) _).mono fun _ => .inl)

theorem State.Within.send (h : s.Within T r t) (va : Word) (ps : List Piece) : Leads (s.Ends T r) (t.send va ps) :=
  leads_ends (h.calm.send ..) ((h.own.send ..).mono fun _ => .inl)

theorem State.Within.succOf (h : s.Within T r t) (hT : T) (e : Word) {k : Word → Out} (hk : ∀ pc, Leads (s.Ends T r) (k pc)) :
    Leads (s.Ends T r) (t.succOf e k) := by
  refine leads_ite (fun _ => hk _) fun _ => ?_
  split
  · exact hk _
  · exact h.trap hT ..
  · exact h.parkWalk e
  · exact h.send e _

end

/-! ### The instructions -/

section

variable {s : State} (ho : s.me.park.once = false)

include ho

theorem execBr_ends (gd : Guard) (t : BitVec 20) : Leads (s.Ends True 32) (execBr gd t s) :=
  (State.Within.start ho).guarded gd ((State.Within.start ho).goto _)

theorem execLoop_ends (gd : Guard) (a : Opnd) (t : BitVec 20) : Leads (s.Ends True 32) (execLoop gd a t s) := by
  refine (State.Within.start ho).guarded gd <| (State.Within.start ho).operands (fun _ => trivial) (fun _ hu => hu) fun vs u hu => ?_
  refine leads_ite (fun _ => hu.succOf trivial _ fun pc => hu.goto pc) fun _ => leads_ite (fun _ => hu.trap trivial ..) fun _ => ?_
  refine State.Within.done ⟨hu.calm.mildMe .other, hu.own.onMe rfl, ?_⟩
  rw [State.me_onMe]
  exact hu.once

theorem trapAfterStep_ends (code : Nat) (taddr : Word) : Leads (s.Ends True 32) (trapAfterStep code taddr s) := by
  have h : s.Within True 32 s := .start ho
  have own : s.Own True (s.onMe Slot.complete) := h.own.onMe (Slot.quiet_complete _)
  rw [trapAfterStep_eq]
  exact leads_next ⟨h.complete.calm.trapSlot .., own.trapSlot trivial ..⟩

theorem execTrap_ends (gd : Guard) (v : BitVec 20) : Leads (s.Ends True 32) (execTrap gd v s) :=
  (State.Within.start ho).guarded gd (trapAfterStep_ends ho _ _)

theorem execTret_ends : Leads (s.Ends True 32) (execTret s) := by
  have h : s.Within True 32 s := .start ho
  refine leads_ite (fun _ => State.Within.goto ⟨h.calm.mildMe .other, h.own.onMeWords rfl, ?_⟩ _) fun _ =>
    leads_ite (fun _ => State.Within.goto ⟨h.calm.mildMe .other, h.own.onMeWords rfl, ?_⟩ _) fun _ => h.trap trivial ..
  · rw [State.me_onMe]
    exact ho
  · rw [State.me_onMe]
    exact ho

theorem execCwr_kept (gd : Guard) (n : BitVec 12) (b : Src) : Leads s.controlKept (execCwr gd n b s) := by
  have h : s.Within True 32 s := .start ho
  have kept : ∀ u, s.Ends True 32 u → s.controlKept u := fun _ hu => hu.controlKept
  refine leads_ite (fun _ => leads_ite (fun _ => (h.trap trivial ..).mono kept) fun _ => ?_) fun _ => h.done.mono kept
  refine h.operands (fun _ => trivial) kept fun vs u hu => leads_ite (fun _ => ?_) fun _ => hu.wordWritten _ _
  rw [State.onUs_alone _ _ hu.once]
  refine leads_next (kept _ ⟨hu.calm.mildMe ?_, .inl (hu.own.onMe ?_)⟩)
  · exact (Slot.mild_complete _).trans .other
  · exact Slot.quiet_complete u.me

end

end Sys2Proof.Machine

open Sys2Proof Sys2Proof.Machine

/-- Settles O10: each is the operand step and a result (`State.Ends`), and it traps on a replica's mailbox alone. -/
theorem registerInstructionsFrame : Obligations.RegisterInstructionsFrame := by
  intro gd a b c s t i ho hi he
  have h := (registerInstruction_ends ho hi).state t he
  obtain ⟨hreg, hp, hv, hk⟩ := h.calm.sameRegs
  obtain ⟨htiles, hhost, -⟩ := State.around_fields h.own.around
  exact ⟨fun n hn => hreg _ (Opnd.ne_regNum hn), hp, hv, hk, h.calm.keptMem, htiles, hhost, h.own.sameOthers, h.sameSpecial⟩

/-- Settles O16: flow and traps end as `State.Ends` says; CWR writes its word after that. -/
theorem controlFrame : Obligations.ControlFrame := by
  intro gd a b t n s u i ho hi he
  have kept : ∀ {o : Out}, Leads (s.Ends True 32) o → Leads s.controlKept o := fun ho => ho.mono fun _ hu => hu.controlKept
  have rows : ∀ i ∈ [Instr.br gd t, .loop gd a t, .trap gd t, .tret, .brk, .cwr gd n b], Leads s.controlKept (exec i s) := by
    simp only [List.forall_mem_cons]
    exact ⟨kept (execBr_ends ho gd t), kept (execLoop_ends ho gd a t), kept (execTrap_ends ho gd t),
      kept (execTret_ends ho), kept (trapAfterStep_ends ho _ _), execCwr_kept ho gd n b, List.forall_mem_nil _⟩
  exact (rows i hi).state u he

end

section
/-! O25 of APPROVED.json: RETIRE and the passes of the other dies (R129 of spec/07, R251 and R439 of spec/15). -/

namespace Sys2Proof.Machine

open Sys2Proof

/-! ## A retirement that lets a child of another die go on at once

The pass that follows a retirement goes on to every other die where a child waits alone for a core that can take it. On such a die it
places every queued group, and a group's saved children go back to the cores they were spawned on, which may stand on the die of the
retired thread: its slot need not stay free. O25 excludes queued groups of that die alone. -/

/-- Slot `n` with a thread of its own. -/
def busySlot (n : Nat) : Nat × Slot := (n, { status := .running, tid := n + 1 })

/-- A child as its group's pre-emption saved it. -/
def savedChild (tid : Nat) : Slot := { status := .halted, tid := tid }

/-- Group 1 is placed on die 1. Group 2 is a child of it that waits alone for core 192, the first of die 1. Group 3, queued on die 1, has
a saved child of core 0. -/
def groupsOfDieOne : Table (Option Group) :=
  [(1, some { asid := 0, launch := 1, index := 0, die := 1, cls := 0, entry := 0, state := .placed, threads := 2 }),
   (2, some { asid := 0, launch := 1, index := 0, die := 1, cls := 0, entry := 0, saved := [(0, savedChild 2001)], loneCore := some 192
              parent := some 1 }),
   (3, some { asid := 0, launch := 2, index := 0, die := 1, cls := 0, entry := 0, threads := 1, kids := [(0, savedChild 2002)] })]

/-- Slot 0, which is of no group, is about to retire. The other general slots of core 0 are taken, and all but one of core 192; context 0
is resident and owns tile 24, the first of die 1. -/
def retiresBesideDieOne : State :=
  { State.reset with
    slots := (List.range 6).map busySlot ++ (List.range' 1537 5).map busySlot
    tiles := [(24, { owner := some 0 })]
    ctxs := [(0, some { state := .resident })]
    groups := groupsOfDieOne }

/-- The status in which a step leaves its slot. -/
def statusAfter : Out → Option Status
  | .next t => some t.me.status
  | .fault _ | .refused _ => none

/-- The child of group 3 runs in the slot once its thread has retired. -/
theorem retire_refills : statusAfter (exec .retire retiresBesideDieOne) = some .running := by decide +kernel

/-- No group is queued on die 0. -/
theorem groupsOfDieOne_elsewhere : ∀ e ∈ groupsOfDieOne, ∀ x, e.2 = some x → x.die = 0 → x.state ≠ .queued := by
  have die : ∀ e ∈ groupsOfDieOne, e.2.map (·.die) = some 1 := by decide
  intro e he x hx h0
  have h1 := die e he
  rw [hx, Option.map_some, h0] at h1
  cases h1

end Sys2Proof.Machine

open Sys2Proof Sys2Proof.Machine

/-- Refutes O25: a thread of no group retires from a general slot of die 0 while a child waits alone on die 1, and the pass of die 1
that follows places another child in its slot. -/
theorem not_retireEndsThread : ¬ Obligations.RetireEndsThread := by
  unfold Obligations.RetireEndsThread
  intro h
  obtain ⟨-, hends⟩ := h retiresBesideDieOne rfl
  obtain ⟨hnow, -⟩ := hends rfl rfl
  obtain ⟨hsingle, -⟩ := hnow (.inl rfl)
  obtain ⟨t, ht, hfree, -⟩ := hsingle rfl groupsOfDieOne_elsewhere fun _ _ => nofun
  have hrun := retire_refills
  rw [ht, statusAfter, hfree] at hrun
  cases hrun

end

section
/-! O7 and O11 of APPROVED.json: the compares (R137 of spec/07). -/

namespace Sys2Proof.Machine

open Sys2Proof

/-! ## The conditions are those of R137, over integers and bits -/

theorem not_decide_lt {α : Type} [LinearOrder α] (x y : α) : (!decide (x < y)) = decide (y ≤ x) := by
  rw [← decide_not, decide_eq_decide, not_lt]

theorem beq_eq_decide_toNat (x y : Word) : (x == y) = decide (x.toNat = y.toNat) := by
  rw [beq_eq_decide, decide_eq_decide, BitVec.toNat_eq]

theorem cmpCond_holds_eq (cc : CmpCond) (x y : Word) : CmpCond.holds cc x y = Stmt.signedCond cc x y := by
  cases cc with
  | eq => exact beq_eq_decide_toNat x y
  | ne => exact (congrArg not (beq_eq_decide_toNat x y)).trans decide_not.symm
  | lt => rfl
  | ge => exact not_decide_lt _ _

theorem cmpuCond_holds_eq (cc : CmpuCond) (x y : Word) : CmpuCond.holds cc x y = Stmt.unsignedCond cc x y := by
  cases cc with
  | ltu | tstz | tstnz => rfl
  | geu => exact not_decide_lt _ _

theorem cmpiCond_holds_eq (cc : CmpiCond) (x y : Word) : CmpiCond.holds cc x y = Stmt.immCond cc x y := by
  cases cc with
  | signed c => exact cmpCond_holds_eq c x y
  | unsigned c => exact cmpuCond_holds_eq c x y

/-! ## The predicate that is written -/

/-- A compare with a function of its operands' values: taken, they give the predicate, and the instruction completes. -/
theorem State.compare_writes {s : State} (h : s.atStart) {srcs : List Src} (hc : s.canRun srcs []) (p : Fin 16) (f : List Word → Bool) :
    s.operands srcs [] (fun vs u => u.setPredDone p (f vs)) =
      .next ((s.taken srcs).onMe fun x => (x.setPred p.val (f (s.vals srcs))).complete) := by
  rw [State.operands_run s _ _ _ h hc, State.setPredDone, State.onUs_alone _ _ (s.taken_once srcs h.2.2)]

theorem Slot.pred_setPred_other (x : Slot) {m n : Nat} (c : Bool) (h : n ≠ m) : (x.setPred m c).pred n = x.pred n := by
  unfold Slot.setPred
  split
  · rfl
  · have hbit : (1#16 <<< m).getLsbD n = false := by
      rw [← BitVec.twoPow_eq, BitVec.getLsbD_twoPow, decide_eq_false (Ne.symm h), Bool.and_false]
    cases c with
    | true => rw [if_pos rfl, Slot.pred, BitVec.getLsbD_or, hbit, Bool.or_false, Slot.pred]
    | false =>
      rw [if_neg Bool.false_ne_true, Slot.pred, BitVec.getLsbD_and, BitVec.getLsbD_not, hbit, Slot.pred]
      by_cases hn : n < 16
      · simp [hn]
      · rw [BitVec.getLsbD_of_ge _ _ (Nat.le_of_not_lt hn), Bool.false_and]

theorem Slot.quiet_setPred (x : Slot) (n : Nat) (c : Bool) : (x.setPred n c).quiet = x.quiet := by
  unfold Slot.setPred
  split <;> rfl

/-! ## What a compare leaves alone -/

/-- What a compare that writes predicate `p` leaves alone (O11), of the general registers all but `r`. -/
structure State.ComparedFrom (p : Fin 16) (r : Nat) (s t : State) : Prop where
  reg : ∀ n, n ≠ r → t.me.reg n = s.me.reg n
  pred : ∀ q, q ≠ p.val → t.me.pred q = s.me.pred q
  vec : t.me.v = s.me.v ∧ t.me.k = s.me.k
  mem : s.keptMem t
  tiles : t.tiles = s.tiles
  others : s.sameOthers t
  special : s.sameSpecial t

section

variable {p : Fin 16} {r : Nat} {s t : State}

/-- A compare that parks, traps or is turned off by its guard writes no predicate either. -/
theorem State.Ends.comparedFrom (h : s.Ends (s.me.rep.count ≠ 0) r t) : s.ComparedFrom p r t := by
  obtain ⟨hreg, hp, hv, hk⟩ := h.calm.sameRegs
  obtain ⟨htiles, -⟩ := State.around_fields h.own.around
  exact ⟨hreg, fun q _ => by rw [Slot.pred, hp, Slot.pred], ⟨hv, hk⟩, h.calm.keptMem, htiles, h.own.sameOthers, h.sameSpecial⟩

/-- One that writes its condition leaves, but for its predicate, what completing without a result leaves. -/
theorem State.Within.setPredDone (h : s.Within (s.me.rep.count ≠ 0) r t) (c : Bool) :
    Leads (s.ComparedFrom p r) (t.setPredDone p c) := by
  have done := h.complete.comparedFrom (p := p)
  have own : s.Own (s.me.rep.count ≠ 0) (t.onMe fun x => (x.setPred p.val c).complete) :=
    h.own.onMe ((Slot.quiet_complete _).trans (Slot.quiet_setPred ..))
  rw [State.setPredDone, State.onUs_alone _ _ h.once]
  refine leads_next ⟨fun n hn => ?_, fun q hq => ?_, ?_, done.mem, done.tiles, sameOthers_of_slots own.slot, ?_⟩
  · rw [← done.reg n hn]
    simp [Slot.reg]
  · rw [← done.pred q hq]
    simpa [Slot.pred] using t.me.pred_setPred_other c hq
  · simpa using done.vec
  · simpa [State.sameSpecial, State.sameWords] using done.special

/-- The operand step of a compare, which has no destination that could trap. -/
theorem State.Within.compare (h : s.Within (s.me.rep.count ≠ 0) r t) (srcs : List Src) (f : List Word → Bool) :
    Leads (s.ComparedFrom p r) (t.operands srcs [] fun vs u => u.setPredDone p (f vs)) := by
  refine h.operands (fun hd => ?_) (fun _ hu => hu.comparedFrom) fun vs u hu => hu.setPredDone _
  rw [State.mailboxDst, List.any_nil, Bool.and_false] at hd
  cases hd

end

/-- Every compare, in the words of O11. -/
theorem compare_comparedFrom {gd : Guard} {p : Fin 16} {b c : Src} {s : State} {i : Instr} (r : Nat) (ho : s.me.park.once = false)
    (hi : (∃ cc, i = .cmp p cc b c) ∨ (∃ cc, i = .cmpu p cc b c) ∨ ∃ cc v, i = .cmpi gd p cc b v) :
    Leads (s.ComparedFrom p r) (exec i s) := by
  have start : s.Within (s.me.rep.count ≠ 0) r s := .start ho
  rcases hi with ⟨cc, rfl⟩ | ⟨cc, rfl⟩ | ⟨cc, v, rfl⟩
  · exact start.compare [b, c] fun vs => CmpCond.holds cc (arg vs 0) (arg vs 1)
  · exact start.compare [b, c] fun vs => CmpuCond.holds cc (arg vs 0) (arg vs 1)
  · exact leads_ite (fun _ => start.compare [b] fun vs => CmpiCond.holds cc (arg vs 0) (sextWord v)) fun _ =>
      start.done.mono fun _ hu => hu.comparedFrom

end Sys2Proof.Machine

open Sys2Proof Sys2Proof.Machine

/-- Settles O7: the operand step, and then the condition of R137, which is the model's. -/
theorem comparesWritePredicate : Obligations.ComparesWritePredicate := by
  intro p b s h
  refine ⟨fun c hc => ⟨fun cc => ?_, fun cc => ?_⟩, fun gd cc imm hg hc => ?_⟩
  · rw [← cmpCond_holds_eq]
    exact State.compare_writes h hc p fun vs => CmpCond.holds cc (arg vs 0) (arg vs 1)
  · rw [← cmpuCond_holds_eq]
    exact State.compare_writes h hc p fun vs => CmpuCond.holds cc (arg vs 0) (arg vs 1)
  · rw [← cmpiCond_holds_eq]
    have run := State.compare_writes h hc p fun vs => CmpiCond.holds cc (arg vs 0) (sextWord imm)
    exact (State.guarded_true s gd (·.operands [b] [] _) hg).trans run

/-- Settles O11: a compare ends without a result, or writes its predicate and completes (`State.ComparedFrom`), whichever general
register is set aside. -/
theorem comparesFrame : Obligations.ComparesFrame := by
  intro gd p b c s t i ho hi he
  have frame : ∀ r, s.ComparedFrom p r t := fun r => (compare_comparedFrom r ho hi).state t he
  obtain ⟨-, hpred, ⟨hv, hk⟩, hmem, htiles, hothers, hspecial⟩ := frame 0
  exact ⟨fun n => (frame (n + 1)).reg n (Nat.ne_of_lt n.lt_succ_self), hpred, hv, hk, hmem, htiles, hothers, hspecial⟩

end

section
/-! O31 of APPROVED.json: VGATH and VSCAT in near memory (R130, R137 and R152 of spec/08). -/

namespace Sys2Proof.Machine

open Sys2Proof

/-! ## Elements of a vector register -/

theorem elem_lt (w i : Nat) (v : BitVec 1024) : Stmt.elem w i v < 2 ^ w := Nat.mod_lt _ (Nat.two_pow_pos w)

theorem packNat_lt (w : Nat) (l : List Nat) : packNat w l < 2 ^ (w * l.length) := by
  induction l with
  | nil => exact Nat.one_pos
  | cons x l ih =>
    rw [packNat, List.length_cons, Nat.mul_add_one, Nat.pow_add, Nat.mul_comm (2 ^ (w * l.length))]
    have hx : x % 2 ^ w < 2 ^ w := Nat.mod_lt _ (Nat.two_pow_pos w)
    calc x % 2 ^ w + 2 ^ w * packNat w l
      _ < 2 ^ w * (packNat w l + 1) := by rw [Nat.mul_add_one]; omega
      _ ≤ 2 ^ w * 2 ^ (w * l.length) := Nat.mul_le_mul_left _ ih

theorem packNat_lt_of_le {w n : Nat} {l : List Nat} (h : w * l.length ≤ n) : packNat w l < 2 ^ n :=
  (packNat_lt w l).trans_le (Nat.pow_le_pow_right Nat.two_pos h)

theorem packNat_elem (w i : Nat) (l : List Nat) : packNat w l / 2 ^ (w * i) % 2 ^ w = l.getD i 0 % 2 ^ w := by
  induction l generalizing i with
  | nil => simp [packNat]
  | cons x l ih =>
    cases i with
    | zero => simp [packNat]
    | succ i =>
      have rest : (x % 2 ^ w + 2 ^ w * packNat w l) / 2 ^ w = packNat w l := by
        rw [Nat.add_mul_div_left _ _ (Nat.two_pow_pos w), Nat.div_eq_of_lt (Nat.mod_lt _ (Nat.two_pow_pos w)), Nat.zero_add]
      rw [packNat, Nat.mul_add_one, Nat.add_comm (w * i), Nat.pow_add, ← Nat.div_div_eq_div_mul, rest, ih, List.getD_cons_succ]

theorem elem_packElems {w : Nat} {l : List Nat} (hl : w * l.length ≤ 1024) (i : Nat) :
    Stmt.elem w i (packElems w l) = l.getD i 0 % 2 ^ w := by
  have fits : (packElems w l).toNat = packNat w l :=
    (BitVec.toNat_ofNat ..).trans (Nat.mod_eq_of_lt (packNat_lt_of_le hl))
  rw [Stmt.elem, fits, packNat_elem]

/-- Element `j` is replaced, the others stay. -/
theorem elem_vmap_one {w i : Nat} (j : Nat) (old : BitVec 1024) {n : Nat} (hn : n < 2 ^ w) (hi : i < 1024 / w) :
    Stmt.elem w i (vmap (· == j) false w old fun _ => n) = if i = j then n else Stmt.elem w i old := by
  rw [vmap, elem_packElems (by simpa using Nat.mul_div_le 1024 w)]
  simp only [List.getD_eq_getElem?_getD, List.getElem?_map, List.getElem?_range hi, Option.map_some, Option.getD_some, beq_iff_eq,
    Bool.false_eq_true, if_false]
  split
  · exact Nat.mod_eq_of_lt hn
  · exact Nat.mod_eq_of_lt (elem_lt w i old)

/-! ## Little-endian bytes -/

theorem leBytes_length (v n : Nat) : (leBytes v n).length = n := by
  induction n generalizing v with
  | zero => rfl
  | succ n ih => rw [leBytes, List.length_cons, ih]

theorem leNat_lt (bs : List Byte) : leNat bs < 2 ^ (8 * bs.length) := by
  induction bs with
  | nil => exact Nat.one_pos
  | cons b bs ih =>
    have hb := b.isLt
    rw [leNat, List.length_cons, Nat.mul_add_one, Nat.pow_add]
    omega

/-! ## The addresses -/

theorem intOf_eq_toInt (n : Nat) : intOf false 32 n = (BitVec.ofNat 32 n).toInt := by
  rw [intOf, BitVec.toInt_eq_toNat_cond, BitVec.toNat_ofNat]
  simp only [Bool.false_or, decide_eq_true_eq]
  split <;> split <;> omega

/-- An offset is half of the 64-bit word that was kept with the operands. -/
theorem offsetAt_eq (base : Word) (v : BitVec 1024) {i : Nat} (hi : i < 32) :
    offsetAt (base :: offsetWords v) i = BitVec.ofInt 64 (BitVec.ofNat 32 (Stmt.elem 32 i v)).toInt := by
  have word : (arg (base :: offsetWords v) (1 + i / 2)).toNat = v.toNat / 2 ^ (64 * (i / 2)) % 2 ^ 64 := by
    have hw : (offsetWords v)[i / 2]? = some (BitVec.ofNat 64 (elemAt 64 (i / 2) v)) := by
      rw [offsetWords, List.getElem?_map, List.getElem?_range (by omega), Option.map_some]
    rw [arg, Nat.add_comm, List.getD_cons_succ, List.getD_eq_getElem?_getD, hw, Option.getD_some,
      BitVec.toNat_ofNat, elemAt, bitsAt, Nat.mod_mod]
  have half : bitsAt (v.toNat / 2 ^ (64 * (i / 2)) % 2 ^ 64) (32 * (i % 2)) 32 = Stmt.elem 32 i v := by
    obtain ⟨q, hq | hq⟩ := i.even_or_odd'
    · rw [hq, Nat.mul_div_cancel_left q Nat.two_pos, Nat.mul_mod_right, Stmt.elem, bitsAt, show 32 * (2 * q) = 64 * q by omega]
      omega
    · rw [hq, show (2 * q + 1) / 2 = q by omega, show (2 * q + 1) % 2 = 1 by omega, Stmt.elem, bitsAt,
        show 32 * (2 * q + 1) = 64 * q + 32 by omega, Nat.pow_add, ← Nat.div_div_eq_div_mul]
      omega
  rw [offsetAt, intOf_eq_toInt, word, half]

theorem gatherAddr_eq (base : Word) (v : BitVec 1024) (scale : Fin 4) {i : Nat} (hi : i < 32) :
    gatherAddr (base :: offsetWords v) scale i = Stmt.gatherEa base v scale i := by
  rw [gatherAddr, offsetAt_eq base v hi, Stmt.gatherEa, BitVec.ofInt_mul]
  rfl

/-! ## Near accesses -/

/-- The piece of a near access. -/
def nearPiece (pa n : Nat) (h : Home) : Piece := ⟨pa, n, h, none⟩

/-- The homes of a near access: own TCM and the own paddock. -/
def Home.isNear (h : Home) : Prop := h = .tcm ∨ h = .ownPaddock

section

variable {s : State} {ea : Word} {n pa : Nat} {h : Home}

/-- It passes its checks, whatever it is for. -/
theorem State.checked_near (hn : Stmt.near s ea n pa) :
    ∃ h : Home, h.isNear ∧ ∀ rd wr k, s.checked ea n rd wr false k = k [nearPiece pa n h] := by
  obtain ⟨hal, hplace, -⟩ := hn
  have run : ∀ h : Home, h.isNear → s.place s.myCoreNum (s.asidOf s.agent) ea n = .ok pa h →
      ∀ rd wr k, s.checked ea n rd wr false k = k [nearPiece pa n h] := by
    intro h hh hp rd wr k
    have acc : s.access s.agent ea n (s.need rd wr) = .ok [nearPiece pa n h] := by
      rw [State.access, show s.place (slotCore s.agent) (s.asidOf s.agent) ea n = .ok pa h from hp]
      rfl
    rw [State.checked, State.withAccess, acc, hal]
    rcases hh with rfl | rfl <;> rfl
  rcases hplace with hp | hp
  · exact ⟨_, .inl rfl, run _ (.inl rfl) hp⟩
  · exact ⟨_, .inr rfl, run _ (.inr rfl) hp⟩

/-- It waits for no answer. -/
theorem State.elemThen_near (hh : h.isNear) (k : State → Out) : s.elemThen ea [nearPiece pa n h] k = k s := by
  rcases hh with rfl | rfl <;> rfl

/-- It reads memory, past no held store. -/
theorem State.readable_near (hh : h.isNear) (hbad : s.badIn pa n = none) (hrep : s.me.rep.buffer = []) (k : List Byte → State → Out) :
    s.readable ea [nearPiece pa n h] k = k (memRead s.mem pa n) s := by
  have bad : s.badPieces [nearPiece pa n h] = none := by
    rcases hh with rfl | rfl <;> simp [State.badPieces, nearPiece, hbad]
  have seen : s.seenPieces [nearPiece pa n h] = memRead s.mem pa n := by
    rcases hh with rfl | rfl <;> simp [State.seenPieces, nearPiece, hrep, readOver, State.foundBytes, State.pieceBytes]
  have settled : s.settleRead [nearPiece pa n h] = s := by
    rcases hh with rfl | rfl <;> simp [State.settleRead, State.settle, nearPiece]
  rw [State.readable, bad]
  exact congrArg₂ k seen settled

/-- It writes memory, where no set holds its stores. -/
theorem State.storeVia_near (hh : h.isNear) (hrep : s.me.rep.count = 0) {bs : List Byte} (hl : bs.length = n) (k : State → Out) :
    s.storeVia ea [nearPiece pa n h] bs k = k (s.write pa bs) := by
  have whole : bs.take (nearPiece pa n h).len = bs := List.take_of_length_le hl.le
  rw [State.storeVia, if_pos hrep, State.putPieces, State.putPieces, whole]
  rcases hh with rfl | rfl <;> rfl

end

/-! ## One element -/

/-- The slot once element `i` of a gather has been loaded with `n`. -/
def Slot.elemLoaded (x : Slot) (mask : Option (Fin 4)) (a : Fin 16) (w i n : Nat) : Slot :=
  (x.setV a.val (vmap (· == i) false w (x.vreg a.val) fun _ => n)).elemDone mask w i

section

variable {s : State} {ea : Word} {w pa : Nat} (mask : Option (Fin 4)) (a : Fin 16) (i : Nat)

theorem State.gatherOne_near (hn : Stmt.near s ea (w / 8) pa) (hrep : s.me.rep.buffer = []) (k : State → Out) :
    s.gatherOne mask a w i ea k = k (s.onMe (·.elemLoaded mask a w i (leNat (memRead s.mem pa (w / 8))))) := by
  obtain ⟨h, hh, run⟩ := State.checked_near hn
  rw [State.gatherOne, run, State.elemThen_near hh, State.readable_near hh hn.2.2 hrep]
  rfl

theorem State.scatterOne_near (hn : Stmt.near s ea (w / 8) pa) (hrep : s.me.rep.count = 0) (k : State → Out) :
    s.scatterOne mask a w i ea k =
      k ((s.write pa (leBytes (Stmt.elem w i (s.me.vreg a.val)) (w / 8))).onMe (·.elemDone mask w i)) := by
  obtain ⟨h, hh, run⟩ := State.checked_near hn
  rw [State.scatterOne, run, State.writable, show replicable [nearPiece pa (w / 8) h] = false from rfl, if_neg Bool.false_ne_true,
    State.storeVia_near hh hrep (leBytes_length ..)]
  rfl

end

/-! ## The mask (R130) -/

theorem getLsbD_maskWithout (n i b : Nat) (v : BitVec 128) :
    (maskWithout n i v).getLsbD b = (v.getLsbD b && decide (b < n) && decide (b ≠ i)) := by
  by_cases hb : b < 128
  · have bit : (1#128 <<< i).getLsbD b = decide (b = i) := by
      rw [← BitVec.twoPow_eq, BitVec.getLsbD_twoPow, Bool.eq_iff_iff]
      simp only [Bool.and_eq_true, decide_eq_true_eq]
      omega
    rw [maskWithout, BitVec.getLsbD_and, BitVec.getLsbD_and, BitVec.getLsbD_not, bit, BitVec.getLsbD_ofNat, Nat.testBit_two_pow_sub_one,
      decide_eq_true hb, Bool.true_and, Bool.true_and, decide_not]
  · rw [BitVec.getLsbD_of_ge _ b (Nat.le_of_not_lt hb), BitVec.getLsbD_of_ge v b (Nat.le_of_not_lt hb), Bool.false_and, Bool.false_and]

theorem Slot.kreg_elemDone_same (x : Slot) (k : Fin 4) (w i : Nat) :
    (x.elemDone (some k) w i).kreg k.val = maskWithout (1024 / w) i (x.kreg k.val) := val_put_same ..

theorem Slot.kreg_elemDone_other (x : Slot) {mask : Option (Fin 4)} {k : Fin 4} (h : mask ≠ some k) (w i : Nat) :
    (x.elemDone mask w i).kreg k.val = x.kreg k.val := by
  cases mask with
  | none => rfl
  | some j => exact val_put_other _ _ _ _ _ fun e => h (congrArg some (Fin.ext e.symm))

/-! ## A walk over the elements -/

/-- What a near access depends on, beside the supervisor words of the slot. -/
def State.placing (s : State) : Nat × Table Tile × List Nat × List Nat := (s.agent, s.tiles, s.badData, s.badMeta)

/-- The words of a slot that no element changes. -/
def Slot.aside (x : Slot) : Slot := { x with full := 0, v := [], k := [], mon := [], park := {} }

theorem Slot.aside_elemDone (x : Slot) (mask : Option (Fin 4)) (w i : Nat) : (x.elemDone mask w i).aside = x.aside := by
  cases mask <;> rfl

theorem Slot.aside_elemLoaded (x : Slot) (mask : Option (Fin 4)) (a : Fin 16) (w i n : Nat) :
    (x.elemLoaded mask a w i n).aside = x.aside := Slot.aside_elemDone ..

theorem Slot.once_elemDone (x : Slot) (mask : Option (Fin 4)) (w i : Nat) :
    (x.elemDone mask w i).park.once = x.park.once := by
  cases mask <;> rfl

theorem Slot.v_elemDone (x : Slot) (mask : Option (Fin 4)) (w i : Nat) : (x.elemDone mask w i).v = x.v := by
  cases mask <;> rfl

section

variable {s u : State} (hp : u.placing = s.placing)

include hp

theorem State.tile_congr (t : Nat) : u.tile t = s.tile t :=
  congrArg (Table.val ({} : Tile) t) (show u.tiles = s.tiles from congrArg (·.2.1) hp)

theorem State.place_congr (core asid : Nat) (va : Word) (size : Nat) : u.place core asid va size = s.place core asid va size := by
  simp only [State.place, State.tile_congr hp]

theorem State.badIn_congr (pa n : Nat) : u.badIn pa n = s.badIn pa n := by
  have bad : ∀ a, u.badAt a = s.badAt a := fun a => by
    simp only [State.badAt, show u.badData = s.badData from congrArg (·.2.2.1) hp,
      show u.badMeta = s.badMeta from congrArg (·.2.2.2) hp]
  induction n generalizing pa with
  | zero => rfl
  | succ n ih => rw [State.badIn, State.badIn, bad, ih]

theorem State.near_congr (hs : u.me.aside = s.me.aside) {ea : Word} {n pa : Nat} (h : Stmt.near s ea n pa) : Stmt.near u ea n pa := by
  have hagent : u.agent = s.agent := congrArg (·.1) hp
  have hasid : u.asidOf u.agent = s.asidOf s.agent := by
    have hsup : (u.slot u.agent).sup = (s.slot s.agent).sup := congrArg (·.sup) hs
    rw [State.asidOf, State.asidOf, hsup, hagent, State.tile_congr hp]
  rw [Stmt.near, State.place_congr hp, State.badIn_congr hp, State.myCoreNum, hasid, hagent]
  exact h

end

/-- `u` is `s` with the elements below `j` done, of `n` (R130, R152): it finds near accesses where `s` does, and the mask has lost the
bits of those elements. -/
structure State.Walked (mask : Option (Fin 4)) (n j : Nat) (s u : State) : Prop where
  places : u.placing = s.placing
  aside : u.me.aside = s.me.aside
  once : u.me.park.once = false
  other : ∀ k : Fin 4, mask ≠ some k → u.me.kreg k.val = s.me.kreg k.val
  bits : ∀ k, mask = some k → ∀ i, i < n → (u.me.kreg k.val).getLsbD i = (decide (j ≤ i) && (s.me.kreg k.val).getLsbD i)
  beyond : ∀ k, mask = some k → (∃ i, i < j ∧ (s.me.kreg k.val).getLsbD i = true) → ∀ i, n ≤ i → (u.me.kreg k.val).getLsbD i = false

section

variable {mask : Option (Fin 4)} {n j : Nat} {s u v : State}

theorem State.Walked.start (hp : u.placing = s.placing) (ha : u.me.aside = s.me.aside) (ho : u.me.park.once = false)
    (hk : u.me.k = s.me.k) : State.Walked mask n 0 s u where
  places := hp
  aside := ha
  once := ho
  other _ _ := congrArg (Table.val 0 _) hk
  bits _ _ i _ := by rw [decide_eq_true (Nat.zero_le i), Bool.true_and, Slot.kreg, hk, Slot.kreg]
  beyond := by
    rintro k - ⟨i, hi, -⟩
    exact absurd hi i.not_lt_zero

/-- The element that is next has its bit yet. -/
theorem State.Walked.enabled (h : State.Walked mask n j s u) (hj : j < n) : Stmt.enabled u.me mask j = Stmt.enabled s.me mask j := by
  cases mask with
  | none => rfl
  | some k =>
    have hbit := h.bits k rfl j hj
    rwa [decide_eq_true (Nat.le_refl j), Bool.true_and] at hbit

/-- An element that is not enabled is passed over. -/
theorem State.Walked.pass (h : State.Walked mask n j s u) (hj : j < n) (hoff : Stmt.enabled s.me mask j = false) :
    State.Walked mask n (j + 1) s u := by
  refine { h with bits := fun k hk i hi => ?_, beyond := ?_ }
  · subst hk
    rw [h.bits k rfl i hi]
    by_cases hij : i = j
    · rw [hij, show (s.me.kreg k.val).getLsbD j = false from hoff, Bool.and_false, Bool.and_false]
    · congr 1
      rw [decide_eq_decide]
      omega
  · rintro k rfl ⟨i, hi, hbit⟩
    refine h.beyond k rfl ⟨i, Nat.lt_of_le_of_ne (Nat.le_of_lt_succ hi) ?_, hbit⟩
    rintro rfl
    cases hoff.symm.trans hbit

/-- Element `j` is done: in `v` its bit has left the mask as well. -/
theorem State.Walked.next {w : Nat} (h : State.Walked mask (1024 / w) j s u) (hp : v.placing = u.placing) (ha : v.me.aside = u.me.aside)
    (ho : v.me.park.once = u.me.park.once) (hk : v.me.k = (u.me.elemDone mask w j).k) : State.Walked mask (1024 / w) (j + 1) s v := by
  have kreg : ∀ k, v.me.kreg k = (u.me.elemDone mask w j).kreg k := fun k => by rw [Slot.kreg, hk, Slot.kreg]
  refine ⟨hp.trans h.places, ha.trans h.aside, ho.trans h.once, fun k hm => ?_, fun k hm i hi => ?_, ?_⟩
  · rw [kreg, Slot.kreg_elemDone_other _ hm, h.other k hm]
  · subst hm
    rw [kreg, Slot.kreg_elemDone_same, getLsbD_maskWithout, h.bits k rfl i hi, decide_eq_true hi, Bool.and_true, Bool.and_right_comm,
      ← Bool.decide_and]
    congr 1
    rw [decide_eq_decide]
    omega
  · rintro k rfl - i hi
    rw [kreg, Slot.kreg_elemDone_same, getLsbD_maskWithout, decide_eq_false (Nat.not_lt.2 hi), Bool.and_false, Bool.false_and]

/-- After the last element the mask is as R130 says. -/
theorem State.Walked.maskDone (h : State.Walked mask n n s u) : Stmt.maskDone s.me u.me mask n := by
  have clear : ∀ k, mask = some k → ∀ i, i < n → (u.me.kreg k.val).getLsbD i = false := fun k hk i hi => by
    rw [h.bits k hk i hi, decide_eq_false (Nat.not_le.2 hi), Bool.false_and]
  refine ⟨h.other, fun k hk => ⟨clear k hk, fun hsome => BitVec.eq_of_getLsbD_eq (y := 0#128) fun i _ => ?_⟩⟩
  rw [BitVec.getLsbD_zero]
  by_cases hi : i < n
  · exact clear k hk i hi
  · exact h.beyond k hk hsome i (Nat.le_of_not_lt hi)

theorem State.Walked.rep (h : State.Walked mask n j s u) : u.me.rep = s.me.rep := congrArg (·.rep) h.aside

/-- The instruction then completes. -/
theorem State.Walked.ends (h : State.Walked mask n n s u) : ∃ t, u.done = .next t ∧ t.me.pc = s.me.complete.pc ∧ s.sameRegsBut t ∧
    Stmt.maskDone s.me t.me mask n ∧ t.mem = u.mem ∧ t.me.v = u.me.v := by
  have regs : ∀ r, u.me.reg r = s.me.reg r := Slot.reg_congr (congrArg (·.g) h.aside)
  have pred : u.me.p = s.me.p := congrArg (·.p) h.aside
  have pc : u.me.loopNext.2 = s.me.loopNext.2 := congrArg (·.loopNext.2) h.aside
  refine ⟨_, State.done_alone u h.once, ?_, ⟨fun r => ?_, ?_⟩, ?_, rfl, ?_⟩
  · rw [State.me_onMe, Slot.complete_pc, Slot.complete_pc, pc]
  · rw [State.me_onMe, Slot.reg_complete, regs]
  · rw [State.me_onMe, Slot.complete_p, pred]
  · simpa only [Stmt.maskDone, Slot.kreg, State.me_onMe, Slot.complete_k] using h.maskDone
  · rw [State.me_onMe, Slot.complete_v]

/-! ## The walk (R152) -/

/-- Each element is performed or passed over, in ascending order; `I j` holds with the elements below `j` done. -/
theorem State.elements_walk {one : Nat → (State → Out) → State → Out} {I : Nat → State → Prop}
    (performs : ∀ i u, i < n → I i u → Stmt.enabled u.me mask i = true → ∃ v, I (i + 1) v ∧ ∀ k, one i k u = k v)
    (passes : ∀ i u, i < n → I i u → Stmt.enabled u.me mask i = false → I (i + 1) u) (m j : Nat) (hm : j + m = n) (h : I j u) :
    ∃ v, I n v ∧ u.elements mask one (List.range' j m) = v.done := by
  induction m generalizing j u with
  | zero => exact ⟨u, hm ▸ h, rfl⟩
  | succ m ih =>
    have hj : j < n := by omega
    have step : u.elements mask one (List.range' j (m + 1)) =
        if Stmt.enabled u.me mask j = true then one j (fun u => u.elements mask one (List.range' (j + 1) m)) u
        else u.elements mask one (List.range' (j + 1) m) := rfl
    rw [step]
    cases hon : Stmt.enabled u.me mask j with
    | true =>
      obtain ⟨v, hv, run⟩ := performs j u hj h hon
      rw [if_pos rfl, run]
      exact ih (j + 1) (by omega) hv
    | false => exact ih (j + 1) (by omega) (passes j u hj h hon)

end

/-! ## From the issue to the first element -/

theorem State.takeOne_placing (s : State) (q : Src) : (s.takeOne q).2.placing = s.placing := by
  unfold State.takeOne
  split
  · dsimp only
    split <;> rfl
  · rfl
  · rfl

theorem State.taken_placing (s : State) (b : Src) : (s.taken [b]).placing = s.placing := s.takeOne_placing b

/-- The issuing slot holds the base, and the offsets as they stood when it was read (log 31). -/
def State.gatherStart (s : State) (b : Src) (c : Fin 16) : State :=
  (s.taken [b]).onMe fun x => { x with park := { x.park with vals := some (arg (s.vals [b]) 0 :: offsetWords (s.me.vreg c.val)) } }

section

variable {s : State} (h : s.atStart) (b : Src) (c : Fin 16)

theorem State.gatherStart_bare : (s.gatherStart b c).me.bare = s.me.bare := by
  rw [State.gatherStart, State.me_onMe]
  exact s.taken_bare [b]

theorem State.gatherStart_v : (s.gatherStart b c).me.v = s.me.v := congrArg (·.v) (s.gatherStart_bare b c)

theorem State.gatherStart_mem : (s.gatherStart b c).mem = s.mem := s.taken_mem [b]

include h

theorem State.gatherStart_walked (mask : Option (Fin 4)) (n : Nat) : State.Walked mask n 0 s (s.gatherStart b c) := by
  refine .start (s.taken_placing b) ?_ ?_ (congrArg (·.k) (s.gatherStart_bare b c))
  · exact congrArg (fun x : Slot => { x with v := [], k := [], mon := [] }) (s.gatherStart_bare b c)
  · rw [State.gatherStart, State.me_onMe]
    exact s.taken_once [b] h.2.2

/-- With its guard true and its base there, the instruction walks over the elements from the first. -/
theorem gatherLike_walks {gd : Guard} (hg : s.me.guardOk gd = true) (hc : s.canRun [b] []) (ty : GatherType) (mask : Option (Fin 4))
    (scale : Fin 4) (one : Nat → Nat → Word → (State → Out) → State → Out) :
    gatherLike gd ty b c mask scale one s = (s.gatherStart b c).elements mask
      (fun i k u => one (gatherWidth ty) i (gatherAddr (arg (s.vals [b]) 0 :: offsetWords (s.me.vreg c.val)) scale i) k u)
      (List.range' 0 (1024 / gatherWidth ty)) := by
  have tries : (s.gatherStart b c).me.park.tries = 0 := by
    rw [State.gatherStart, State.me_onMe]
    exact State.taken_me (P := fun x => x.park.tries = 0) (fun x n hx => by simpa using hx) (fun _ _ _ hx => hx) s [b] h.2.1
  have offsets : (s.taken [b]).me.vreg c.val = s.me.vreg c.val := congrArg (·.vreg c.val) (s.taken_bare [b])
  have kept : (if (s.vals [b]).length = 1 then s.vals [b] ++ offsetWords ((s.taken [b]).me.vreg c.val) else s.vals [b]) =
      arg (s.vals [b]) 0 :: offsetWords (s.me.vreg c.val) := by
    rw [offsets, State.vals_one]
    rfl
  rw [gatherLike, State.guarded_true _ _ _ hg, State.operands_run s _ _ _ h hc]
  dsimp only
  rw [kept, ← State.gatherStart, tries, List.drop_zero, List.range_eq_range']

end

/-! ## Gather and scatter -/

theorem gatherWidth_eq (ty : GatherType) : gatherWidth ty = Stmt.gatherBits ty := by
  cases ty <;> rfl

/-- An element is whole bytes. -/
theorem gatherBits_bytes (ty : GatherType) : 8 * (Stmt.gatherBits ty / 8) = Stmt.gatherBits ty := by
  cases ty <;> rfl

/-- No element lies beyond the offsets. -/
theorem gatherBits_few (ty : GatherType) : 1024 / Stmt.gatherBits ty ≤ 32 := by
  cases ty <;> decide

theorem Slot.k_elemLoaded (x : Slot) (mask : Option (Fin 4)) (a : Fin 16) (w i n : Nat) :
    (x.elemLoaded mask a w i n).k = (x.elemDone mask w i).k := by
  cases mask <;> rfl

theorem Slot.vreg_elemLoaded_same (x : Slot) (mask : Option (Fin 4)) (a : Fin 16) (w i n : Nat) :
    (x.elemLoaded mask a w i n).vreg a.val = vmap (· == i) false w (x.vreg a.val) fun _ => n := by
  rw [Slot.vreg, Slot.elemLoaded, Slot.v_elemDone]
  exact val_put_same ..

theorem Slot.vreg_elemLoaded_other (x : Slot) {mask : Option (Fin 4)} {a : Fin 16} {w i n r : Nat} (h : r ≠ a.val) :
    (x.elemLoaded mask a w i n).vreg r = x.vreg r := by
  rw [Slot.vreg, Slot.elemLoaded, Slot.v_elemDone]
  exact val_put_other _ _ _ _ _ h

/-- A store sets written bits of the slot's monitors, and nothing else of it. -/
theorem State.write_me (s : State) (pa : Nat) (bs : List Byte) (a : Attr) : (s.write pa bs a).me = s.me.touched pa bs.length :=
  (foldl_same State.me _ (fun _ _ => State.rereadSpace_me ..) _ _).trans (s.store_me pa bs a)

theorem State.write_placing (s : State) (pa : Nat) (bs : List Byte) (a : Attr) : (s.write pa bs a).placing = s.placing := by
  have same := congrArg State.placing (s.write_noStores pa bs a)
  exact same

section

variable {w : Nat} {pa : Nat → Nat} {mask : Option (Fin 4)} {a : Fin 16} {s : State}

/-- `u` is `s` with the elements below `j` loaded into V[A]. -/
structure State.GatheredTo (w : Nat) (pa : Nat → Nat) (mask : Option (Fin 4)) (a : Fin 16) (s : State) (j : Nat) (u : State) : Prop where
  walked : State.Walked mask (1024 / w) j s u
  mem : u.mem = s.mem
  others : ∀ r, r ≠ a.val → u.me.vreg r = s.me.vreg r
  elems : ∀ i, i < 1024 / w → Stmt.elem w i (u.me.vreg a.val) =
    if i < j ∧ Stmt.enabled s.me mask i = true then leNat (memRead s.mem (pa i) (w / 8)) else Stmt.elem w i (s.me.vreg a.val)

theorem State.GatheredTo.pass {u : State} {j : Nat} (h : State.GatheredTo w pa mask a s j u) (hj : j < 1024 / w)
    (hoff : Stmt.enabled s.me mask j = false) : State.GatheredTo w pa mask a s (j + 1) u := by
  refine { h with walked := h.walked.pass hj hoff, elems := fun i hi => ?_ }
  rw [h.elems i hi]
  refine if_congr (and_congr_left fun hon => ?_) rfl rfl
  have hij : i ≠ j := by
    rintro rfl
    cases hoff.symm.trans hon
  omega

theorem State.GatheredTo.load {u : State} {j : Nat} (h : State.GatheredTo w pa mask a s j u)
    (hw : 8 * (w / 8) = w) (hon : Stmt.enabled s.me mask j = true) :
    State.GatheredTo w pa mask a s (j + 1) (u.onMe (·.elemLoaded mask a w j (leNat (memRead s.mem (pa j) (w / 8))))) := by
  have fits : leNat (memRead s.mem (pa j) (w / 8)) < 2 ^ w := by
    have hlt := leNat_lt (memRead s.mem (pa j) (w / 8))
    rwa [memRead_length, hw] at hlt
  refine ⟨h.walked.next rfl ?_ ?_ ?_, h.mem, fun r hr => ?_, fun i hi => ?_⟩
  · rw [State.me_onMe, Slot.aside_elemLoaded]
  · rw [State.me_onMe]
    exact Slot.once_elemDone ..
  · rw [State.me_onMe]
    exact Slot.k_elemLoaded ..
  · rw [State.me_onMe, Slot.vreg_elemLoaded_other _ hr, h.others r hr]
  · rw [State.me_onMe, Slot.vreg_elemLoaded_same, elem_vmap_one j _ fits hi, h.elems i hi]
    by_cases hij : i = j
    · rw [hij, if_pos rfl, if_pos ⟨Nat.lt_succ_self j, hon⟩]
    · rw [if_neg hij]
      exact if_congr (and_congr_left' (by omega)) rfl rfl

/-- `u` is `s` with the elements below `j` of V[A] stored. -/
structure State.ScatteredTo (w : Nat) (pa : Nat → Nat) (mask : Option (Fin 4)) (a : Fin 16) (s : State) (j : Nat) (u : State) : Prop where
  walked : State.Walked mask (1024 / w) j s u
  mem : u.mem = ((List.range j).filter (Stmt.enabled s.me mask)).foldl
    (fun m i => memWrite m (pa i) (leBytes (Stmt.elem w i (s.me.vreg a.val)) (w / 8))) s.mem
  v : u.me.v = s.me.v

theorem State.ScatteredTo.vreg {u : State} {j : Nat} (h : State.ScatteredTo w pa mask a s j u) : u.me.vreg a.val = s.me.vreg a.val :=
  congrArg (Table.val 0 a.val) h.v

theorem State.ScatteredTo.pass {u : State} {j : Nat} (h : State.ScatteredTo w pa mask a s j u) (hj : j < 1024 / w)
    (hoff : Stmt.enabled s.me mask j = false) : State.ScatteredTo w pa mask a s (j + 1) u := by
  refine { h with walked := h.walked.pass hj hoff, mem := ?_ }
  rw [h.mem, List.range_succ, List.filter_append, List.filter_singleton, hoff, cond_false, List.append_nil]

theorem State.ScatteredTo.store {u : State} {j : Nat} (h : State.ScatteredTo w pa mask a s j u)
    (hon : Stmt.enabled s.me mask j = true) : State.ScatteredTo w pa mask a s (j + 1)
      ((u.write (pa j) (leBytes (Stmt.elem w j (s.me.vreg a.val)) (w / 8))).onMe (·.elemDone mask w j)) := by
  have me := fun bs => u.write_me (pa j) bs {}
  refine ⟨h.walked.next (u.write_placing ..) ?_ ?_ ?_, ?_, ?_⟩
  · rw [State.me_onMe, Slot.aside_elemDone, me]
    rfl
  · rw [State.me_onMe, Slot.once_elemDone, me]
    rfl
  · rw [State.me_onMe, me]
    cases mask <;> rfl
  · rw [State.onMe_mem, State.write_mem, h.mem, List.range_succ, List.filter_append, List.filter_singleton, hon, List.foldl_append]
    rfl
  · rw [State.me_onMe, Slot.v_elemDone, me, ← h.v]
    rfl

end

section

variable {s : State} (h : s.atStart) {gd : Guard} (hg : s.me.guardOk gd = true) {b : Src} (hc : s.canRun [b] []) (ty : GatherType)
  (a c : Fin 16) (mask : Option (Fin 4)) (scale : Fin 4) (pa : Nat → Nat)
  (hnear : ∀ i, i < 1024 / Stmt.gatherBits ty → Stmt.enabled s.me mask i = true →
    Stmt.near s (Stmt.gatherEa (arg (s.vals [b]) 0) (s.me.vreg c.val) scale i) (Stmt.gatherBits ty / 8) (pa i))

include h hg hc hnear

/-- Both instructions, where an enabled element that is near is performed without a trap or a wait. -/
theorem gatherLike_near {one : Nat → Nat → Word → (State → Out) → State → Out} {I : Nat → State → Prop}
    (start : I 0 (s.gatherStart b c)) (walked : ∀ i u, I i u → State.Walked mask (1024 / Stmt.gatherBits ty) i s u)
    (passes : ∀ i u, i < 1024 / Stmt.gatherBits ty → I i u → Stmt.enabled s.me mask i = false → I (i + 1) u)
    (performs : ∀ i u ea, i < 1024 / Stmt.gatherBits ty → I i u → Stmt.enabled s.me mask i = true →
      Stmt.near u ea (Stmt.gatherBits ty / 8) (pa i) → ∃ v, I (i + 1) v ∧ ∀ k, one (Stmt.gatherBits ty) i ea k u = k v) :
    ∃ v, I (1024 / Stmt.gatherBits ty) v ∧ gatherLike gd ty b c mask scale one s = v.done := by
  rw [gatherLike_walks h b c hg hc, gatherWidth_eq]
  refine State.elements_walk (fun i u hi hu hon => ?_) (fun i u hi hu hoff => ?_) _ 0 (Nat.zero_add _) start
  · rw [(walked i u hu).enabled hi] at hon
    rw [gatherAddr_eq _ _ _ (Nat.lt_of_lt_of_le hi (gatherBits_few ty))]
    exact performs i u _ hi hu hon (State.near_congr (walked i u hu).places (walked i u hu).aside (hnear i hi hon))
  · rw [(walked i u hu).enabled hi] at hoff
    exact passes i u hi hu hoff

/-- VGATH has loaded every enabled element when it completes. -/
theorem execVgath_near (hbuf : s.me.rep.buffer = []) :
    ∃ v, State.GatheredTo (Stmt.gatherBits ty) pa mask a s (1024 / Stmt.gatherBits ty) v ∧
      exec (.vgath gd ty a b c mask scale) s = v.done := by
  have vreg : ∀ r, (s.gatherStart b c).me.vreg r = s.me.vreg r := fun r => congrArg (Table.val 0 r) (s.gatherStart_v b c)
  refine gatherLike_near (one := fun w i ea k u => u.gatherOne mask a w i ea k)
    (I := State.GatheredTo (Stmt.gatherBits ty) pa mask a s) h hg hc ty c mask scale pa hnear ?_
    (fun _ _ hu => hu.walked) (fun _ _ hi hu hoff => hu.pass hi hoff) ?_
  · refine ⟨State.gatherStart_walked h b c _ _, s.gatherStart_mem b c, fun r _ => vreg r, fun i _ => ?_⟩
    rw [if_neg fun hi => Nat.not_lt_zero i hi.1, vreg]
  · intro i u ea hi hu hon near
    refine ⟨_, hu.load (gatherBits_bytes ty) hon, fun k => ?_⟩
    rw [State.gatherOne_near mask a i near (by rw [hu.walked.rep, hbuf]), hu.mem]

/-- VSCAT has stored every enabled element when it completes. -/
theorem execVscat_near (hrep : s.me.rep.count = 0) :
    ∃ v, State.ScatteredTo (Stmt.gatherBits ty) pa mask a s (1024 / Stmt.gatherBits ty) v ∧
      exec (.vscat gd ty a b c mask scale) s = v.done := by
  refine gatherLike_near (one := fun w i ea k u => u.scatterOne mask a w i ea k)
    (I := State.ScatteredTo (Stmt.gatherBits ty) pa mask a s) h hg hc ty c mask scale pa hnear ?_
    (fun _ _ hu => hu.walked) (fun _ _ hi hu hoff => hu.pass hi hoff) ?_
  · exact ⟨State.gatherStart_walked h b c _ _, s.gatherStart_mem b c, s.gatherStart_v b c⟩
  · intro i u ea hi hu hon near
    refine ⟨_, hu.store hon, fun k => ?_⟩
    rw [State.scatterOne_near mask a i near (by rw [hu.walked.rep, hrep]), hu.vreg]

end

end Sys2Proof.Machine

open Sys2Proof Sys2Proof.Machine

/-- Settles O31: both walk over the elements in ascending order, and a near element is performed at once; `State.GatheredTo` and
`State.ScatteredTo` say what the elements below the next one have left. -/
theorem gathersAndScattersElements : Obligations.GathersAndScattersElements := by
  intro gd ty a c b mask scale pa s h hg hc hrep hbuf w on ea hnear
  obtain ⟨u, hu, hgath⟩ := execVgath_near h hg hc ty a c mask scale pa hnear hbuf
  obtain ⟨v, hv, hscat⟩ := execVscat_near h hg hc ty a c mask scale pa hnear hrep
  obtain ⟨t, hdone, hpc, hregs, hmask, hmem, hvec⟩ := hu.walked.ends
  obtain ⟨t', hdone', hpc', hregs', hmask', hmem', hvec'⟩ := hv.walked.ends
  have vreg : ∀ r, t.me.vreg r = u.me.vreg r := fun r => congrArg (Table.val 0 r) hvec
  refine ⟨⟨t, hgath.trans hdone, hpc, hmem.trans hu.mem, hregs, fun i hi => ?_, fun r hr => (vreg r).trans (hu.others r hr), hmask⟩,
    t', hscat.trans hdone', hpc', hregs', hmem'.trans hv.mem, hvec'.trans hv.v, hmask'⟩
  rw [vreg, hu.elems i hi]
  exact if_congr (and_iff_right hi) rfl rfl

end

section
/-! O32 of APPROVED.json: the frame of VGATH and VSCAT (R137 and R152 of spec/08). -/

namespace Sys2Proof.Machine

open Sys2Proof

/-! ## A scatter to another package while a read of it is under way

A write to another package is noted in every slot that still waits for an answer of one: the bytes that the answer then brings are older
(R106 of spec/06, `Slot.overtaken`). The note stands in `Park.newer`, which `Slot.marked` does not leave free. -/

/-- The page at 0x10000 of context 0, in the memory of package 1, that may be read and written (R318 of spec/21). -/
def pageOfPackageOne : Leaf := ⟨0, 0x10000, 0x10000, BitVec.ofNat 64 (7 + 2 * 2 ^ 7 + 3 * 2 ^ 9 + 2 ^ 58)⟩

/-- A general slot at head 1 of a line of three heads, with the page's address in g4 and element 0 alone enabled by k1. -/
def pointsAtPage (tid : Nat) : Slot := { status := .running, tid := tid, pc := 0x10002, nh := 3, g := [(4, 0x10000)], k := [(1, 1)] }

/-- Slots 0 and 1 of core 0, before the load of slot 1. Port 0 leads to package 1. -/
def beforeLoad : State :=
  { State.reset with
    agent := 1
    slots := [(0, pointsAtPage 1), (1, pointsAtPage 2)]
    tlb := [pageOfPackageOne]
    ports := [(0, { state := .up })]
    host := { route := [(1, 1)] } }

/-- The load's request has left for package 1, and slot 0 is about to scatter to the page. -/
def scattersBesideLoad : State :=
  match execUnlisted (.ld Guard.always .d false none (.g 6) ⟨plain (.g 4), plain (.g 0), 0, 0⟩) beforeLoad with
  | .next t => { t with agent := 0 }
  | .fault _ | .refused _ => beforeLoad

/-- Slot 1 waits for its answer, which nothing is newer than yet. -/
theorem load_underWay : (scattersBesideLoad.slot 1).park.wait = some (.answer 0x10000 .remote) ∧
    (scattersBesideLoad.slot 1).park.newer = [] := by decide +kernel

theorem scattersBesideLoad_atStart : scattersBesideLoad.atStart ∧ scattersBesideLoad.agent = 0 := by
  unfold State.atStart
  decide +kernel

/-- The bytes that an outcome notes as newer than the answer slot `n` waits for. -/
def newerAfter (n : Nat) : Out → List (Nat × Nat)
  | .next t => (t.slot n).park.newer
  | .fault _ | .refused _ => []

/-- The scatter's element is newer than the answer of slot 1. -/
theorem scatter_overtakes :
    newerAfter 1 (exec (.vscat Guard.always .w19 3 (plain (.g 4)) 2 (some 1) 2) scattersBesideLoad) = [(Config.remoteBase 1, 4)] := by
  decide +kernel

theorem Slot.marked_newer {x y : Slot} (h : x.marked y) : y.park.newer = x.park.newer := by
  obtain ⟨l, d, m, rfl⟩ := h
  rfl

end Sys2Proof.Machine

open Sys2Proof Sys2Proof.Machine

/-- Refutes O32: a scatter to another package's memory is noted in the park of a neighbour that waits for its own load from there, which
is neither a monitor nor a mark of a port that went Down. -/
theorem not_gatherAndScatterFrame : ¬ Obligations.GatherAndScatterFrame := by
  unfold Obligations.GatherAndScatterFrame
  intro h
  obtain ⟨hstart, hagent⟩ := scattersBesideLoad_atStart
  have newer := scatter_overtakes
  generalize run : exec (.vscat Guard.always .w19 3 (plain (.g 4)) 2 (some 1) 2) scattersBesideLoad = o at newer
  cases o with
  | next t =>
    obtain ⟨-, hscat⟩ := h Guard.always .w19 3 2 (plain (.g 4)) (some 1) 2 scattersBesideLoad t hstart
    obtain ⟨-, hothers, -⟩ := hscat run
    have marked : (scattersBesideLoad.slot 1).marked (t.slot 1) := hothers 1 (by rw [hagent]; decide)
    rw [newerAfter, Slot.marked_newer marked, load_underWay.2] at newer
    cases newer
  | fault | refused => cases newer

end

section
/-! SUPPORT. The reasoning rules of the crook and of the lease step of a matrix command (R142 to R146, R151 and R152 of spec/09). -/

namespace Sys2Proof.Machine

open Sys2Proof

/-! ## The crook of a tile -/

@[simp] theorem State.crook_onCrook (s : State) (t : Nat) (f : Crook → Crook) : (s.onCrook t f).crook t = f (s.crook t) :=
  congrArg Tile.crook (s.tile_onTile t _)

theorem State.crook_onCrook_other (s : State) {t u : Nat} (f : Crook → Crook) (h : u ≠ t) : (s.onCrook t f).crook u = s.crook u :=
  congrArg Tile.crook (s.tile_onTile_other t u _ h)

@[simp] theorem State.crook_onSlot (s : State) (n t : Nat) (f : Slot → Slot) : (s.onSlot n f).crook t = s.crook t := rfl

/-! ## The waiters of a crook (R142, R143) -/

theorem State.mem_waiters {s : State} {t n : Nat} : n ∈ s.waiters t ↔ n / 64 = t ∧ n % 8 ≠ 7 ∧ s.wantsCrook n = true := by
  simp only [State.waiters, List.mem_filter, List.mem_map, List.mem_range, slotIx, Bool.and_eq_true, bne_iff_ne]
  refine and_congr_left fun _ => ⟨?_, fun h => ⟨n % 64, by omega, by omega⟩⟩
  rintro ⟨i, hi, rfl⟩
  omega

/-- A list of one element over and over has it as its least. -/
theorem minBy_of_forall_eq (f : Nat → Nat) {n : Nat} : ∀ {l : List Nat}, (∀ m ∈ l, m = n) → l ≠ [] → minBy f l = some n
  | [], _, hl => absurd rfl hl
  | [m], h, _ => congrArg some (h m (List.mem_singleton_self m))
  | m :: k :: l, h, _ => by
    have rest := minBy_of_forall_eq f (l := k :: l) (fun j hj => h j (List.mem_cons_of_mem m hj)) (List.cons_ne_nil k l)
    have first : m = n := h m List.mem_cons_self
    rw [minBy, rest, first]
    exact if_pos (Nat.le_refl (f n))

theorem State.otherWaits_iff {s : State} {t n : Nat} : s.otherWaits t n = true ↔ ∃ m ∈ s.waiters t, m ≠ n := by
  simp [State.otherWaits]

/-! ## What a grant and a crook that passes on can do -/

/-- A grant leaves the state alone, or gives the crook to a slot, which was Waiting where its lease changes. -/
theorem State.grant_cases (s : State) (t : Nat) : s.grant t = s ∨ (∃ f, s.grant t = s.onCrook t f) ∨
    ∃ n f, (s.slot n).lease = .waiting ∧ s.grant t = (s.onCrook t f).onSlot n fun x => { x with lease := .holding } := by
  unfold State.grant
  dsimp only
  split
  · exact .inl rfl
  · split
    · exact .inl rfl
    · split
      · next hw => exact .inr (.inr ⟨_, _, beq_iff_eq.1 hw, rfl⟩)
      · exact .inr (.inl ⟨_, rfl⟩)

/-- A crook stays, or is granted, once its holder is gone. -/
theorem State.passCrook_cases (s : State) (t : Nat) :
    s.passCrook t = s ∨ s.passCrook t = s.grant t ∨ ∃ f, s.passCrook t = (s.onCrook t f).grant t := by
  unfold State.passCrook
  dsimp only
  split
  · exact .inr (.inl rfl)
  · split
    · exact .inr (.inr ⟨_, rfl⟩)
    · exact .inl rfl

/-! ## What passing the crook on leaves alone -/

/-- A state without its slots and tiles. -/
def State.afar (s : State) : State := { s with slots := [], tiles := [] }

/-- A slot without what an accepted command or a crook that passes on changes in it. -/
def Slot.unleased (x : Slot) : Slot := { x with lease := .none, srCtr := 0 }

/-- `t` is `s` but for its tiles and, in the slots, leases and random counters. -/
structure State.Regranted (s t : State) : Prop where
  afar : t.afar = s.afar
  slot : ∀ n, (t.slot n).unleased = (s.slot n).unleased

section

variable {s t u : State}

theorem State.Regranted.refl (s : State) : s.Regranted s := ⟨rfl, fun _ => rfl⟩

theorem State.Regranted.trans (h : s.Regranted t) (h' : t.Regranted u) : s.Regranted u :=
  ⟨h'.afar.trans h.afar, fun n => (h'.slot n).trans (h.slot n)⟩

theorem State.Regranted.agent (h : s.Regranted t) : t.agent = s.agent := congrArg (·.agent) h.afar

theorem State.Regranted.mem (h : s.Regranted t) : t.mem = s.mem := congrArg (·.mem) h.afar

theorem State.Regranted.me (h : s.Regranted t) : t.me.unleased = s.me.unleased := by
  rw [State.me, h.agent]
  exact h.slot s.agent

theorem State.Regranted.once (h : s.Regranted t) : t.me.park.once = s.me.park.once := congrArg (·.park.once) h.me

theorem State.Regranted.complete_pc (h : s.Regranted t) : t.me.complete.pc = s.me.complete.pc := by
  simp only [Slot.complete_pc]
  exact congrArg (·.loopNext.2) h.me

theorem State.regranted_onCrook (s : State) (t : Nat) (f : Crook → Crook) : s.Regranted (s.onCrook t f) := ⟨rfl, fun _ => rfl⟩

theorem State.regranted_onSlot (s : State) (n : Nat) {f : Slot → Slot} (hf : ∀ x : Slot, (f x).unleased = x.unleased) :
    s.Regranted (s.onSlot n f) := by
  refine ⟨rfl, fun m => ?_⟩
  by_cases hm : m = n
  · subst hm
    rw [State.slot_onSlot, hf]
  · rw [State.slot_onSlot_other _ _ _ _ hm]

theorem State.regranted_grant (s : State) (t : Nat) : s.Regranted (s.grant t) := by
  rcases s.grant_cases t with e | ⟨f, e⟩ | ⟨n, f, -, e⟩ <;> rw [e]
  · exact .refl s
  · exact s.regranted_onCrook t f
  · exact (s.regranted_onCrook t f).trans (State.regranted_onSlot _ n fun _ => rfl)

theorem State.regranted_passCrook (s : State) (t : Nat) : s.Regranted (s.passCrook t) := by
  rcases s.passCrook_cases t with e | e | ⟨f, e⟩ <;> rw [e]
  · exact .refl s
  · exact s.regranted_grant t
  · exact (s.regranted_onCrook t f).trans (State.regranted_grant _ t)

theorem State.regranted_leaveCrook (s : State) (n : Nat) (l : Lease) : s.Regranted (s.leaveCrook n l) := by
  have left : s.Regranted (s.onSlot n fun x => { x with lease := l }) := s.regranted_onSlot n fun _ => rfl
  unfold State.leaveCrook
  dsimp only
  split
  · exact left.trans ((State.regranted_onCrook _ _ _).trans (State.regranted_passCrook _ _))
  · exact left

theorem State.regranted_leaseBound (s : State) (t : Nat) : s.Regranted (s.leaseBound t) := by
  unfold State.leaseBound
  split
  · exact .refl s
  · split
    · exact .refl s
    · split
      · exact s.regranted_leaveCrook _ _
      · exact s.regranted_onCrook t _

end

theorem State.regranted_wantCrook (s : State) : s.Regranted s.wantCrook :=
  (s.regranted_onSlot s.agent (f := fun x => { x with lease := .waiting }) fun _ => rfl).trans (State.regranted_grant _ _)

/-! ## Granting (R143) -/

/-- A grant changes the lease of no slot that does not wait. -/
theorem State.grant_lease {s : State} {n : Nat} (t : Nat) (h : (s.slot n).lease ≠ .waiting) :
    ((s.grant t).slot n).lease = (s.slot n).lease := by
  rcases s.grant_cases t with e | ⟨f, e⟩ | ⟨m, f, hm, e⟩ <;> rw [e]
  · rfl
  · have hne : n ≠ m := fun e => h (e ▸ hm)
    exact congrArg Slot.lease (State.slot_onSlot_other _ _ _ _ hne)

theorem State.grant_crook_other (s : State) {t u : Nat} (h : u ≠ t) : (s.grant t).crook u = s.crook u := by
  rcases s.grant_cases t with e | ⟨f, e⟩ | ⟨m, f, -, e⟩ <;> rw [e]
  · exact s.crook_onCrook_other f h
  · exact s.crook_onCrook_other f h

/-- A slot that waits alone for a free crook gets it, with 64 commands where none of its own were kept from a halt. -/
theorem State.grant_alone {s : State} {t n : Nat} (hfree : (s.crook t).holder = none) (hkept : (s.crook t).kept = [])
    (hn : n ∈ s.waiters t) (hall : ∀ m ∈ s.waiters t, m = n) (hw : (s.slot n).lease = .waiting) :
    ((s.grant t).slot n).lease = .holding ∧ ((s.grant t).crook t).holder = some n ∧ ((s.grant t).crook t).cmdsLeft = 64 ∧
      ((s.grant t).crook t).grantAt = s.clock := by
  have least := minBy_of_forall_eq (s.crookRank (s.crook t).last) hall (List.ne_nil_of_mem hn)
  unfold State.grant
  simp only [hfree, least, hkept, hw, beq_self_eq_true, if_true, List.filter_nil, List.length_nil, State.slot_onSlot,
    State.crook_onSlot, State.crook_onCrook, Nat.sub_zero, and_self]

/-- The issuing slot gets a free crook that no other slot of its tile wants. -/
theorem State.wantCrook_alone {s : State} (hix : s.agent % 8 ≠ 7) (hs : s.me.status = .running) (hr : s.me.haltReq = false)
    (hfree : (Stmt.crook s).holder = none) (hkept : (Stmt.crook s).kept = [])
    (hno : ∀ n, n / 64 = Stmt.tileNum s → n ≠ s.agent → (s.slot n).lease ≠ .waiting) :
    s.wantCrook.me.lease = .holding ∧ (Stmt.crook s.wantCrook).holder = some s.agent ∧ (Stmt.crook s.wantCrook).cmdsLeft = 64 ∧
      (Stmt.crook s.wantCrook).grantAt = s.clock := by
  set u := s.onMe fun x => { x with lease := .waiting }
  have me : u.slot s.agent = { s.me with lease := .waiting } := s.slot_onMe _
  have kept : (u.crook s.myTileNum).kept = [] := hkept
  have waits : s.agent ∈ u.waiters s.myTileNum := by
    refine State.mem_waiters.2 ⟨rfl, hix, ?_⟩
    simp [State.wantsCrook, me, hs, hr]
  have alone : ∀ m ∈ u.waiters s.myTileNum, m = s.agent := fun m hm => by
    obtain ⟨htile, -, hwants⟩ := State.mem_waiters.1 hm
    by_contra hne
    have other : u.slot m = s.slot m := s.slot_onMe_other m _ hne
    have tile : slotTile m = s.myTileNum := htile
    simp [State.wantsCrook, other, tile, kept, hno m htile hne] at hwants
  have granted := State.grant_alone (s := u) hfree kept waits alone (congrArg Slot.lease me)
  have agent : s.wantCrook.agent = s.agent := s.regranted_wantCrook.agent
  rw [State.me, Stmt.crook, Stmt.tileNum, agent]
  exact granted

/-! ## Passing on and leaving (R142) -/

theorem State.passCrook_lease {s : State} {n : Nat} (t : Nat) (h : (s.slot n).lease ≠ .waiting) :
    ((s.passCrook t).slot n).lease = (s.slot n).lease := by
  rcases s.passCrook_cases t with e | e | ⟨f, e⟩ <;> rw [e]
  · exact State.grant_lease t h
  · exact State.grant_lease (s := s.onCrook t f) t h

theorem State.passCrook_crook_other (s : State) {t u : Nat} (h : u ≠ t) : (s.passCrook t).crook u = s.crook u := by
  rcases s.passCrook_cases t with e | e | ⟨f, e⟩ <;> rw [e]
  · exact s.grant_crook_other h
  · exact (State.grant_crook_other _ h).trans (s.crook_onCrook_other f h)

/-- A holder keeps the crook while it has not let go. -/
theorem State.passCrook_held {s : State} {t n : Nat} (hh : (s.crook t).holder = some n) (hd : (s.crook t).draining = false) :
    s.passCrook t = s := by
  simp only [State.passCrook, hh, hd, Bool.false_and, Bool.false_eq_true, if_false]

/-- And while its queue has not drained. -/
theorem State.passCrook_queued {s : State} {t n : Nat} (hh : (s.crook t).holder = some n) (hq : (s.crook t).queue ≠ []) :
    s.passCrook t = s := by
  simp only [State.passCrook, hh, List.isEmpty_eq_false_iff.2 hq, Bool.and_false, Bool.false_eq_true, if_false]

/-- A slot that leaves the crook is not granted it again at once. -/
theorem State.leaveCrook_lease (s : State) (n : Nat) {l : Lease} (hl : l ≠ .waiting) : ((s.leaveCrook n l).slot n).lease = l := by
  have left : ((s.onSlot n fun x => { x with lease := l }).slot n).lease = l := congrArg Slot.lease (s.slot_onSlot n _)
  unfold State.leaveCrook
  dsimp only
  split
  · refine (State.passCrook_lease (s := (s.onSlot n _).onCrook _ _) _ ?_).trans left
    exact fun e => hl (left.symm.trans e)
  · exact left

/-- The commands queued under a held crook stay when a slot leaves a crook. -/
theorem State.leaveCrook_queue {s : State} {t m : Nat} (hh : (s.crook t).holder = some m) (hq : (s.crook t).queue ≠ []) (n : Nat)
    (l : Lease) : ((s.leaveCrook n l).crook t).queue = (s.crook t).queue := by
  unfold State.leaveCrook
  dsimp only
  split
  · by_cases ht : t = slotTile n
    · subst ht
      have here := (s.onSlot n fun x => { x with lease := l }).crook_onCrook (slotTile n) fun c => { c with draining := true }
      rw [State.passCrook_queued (n := m) (by rw [here]; exact hh) (by rw [here]; exact hq), here]
      rfl
    · rw [State.passCrook_crook_other _ ht, State.crook_onCrook_other _ _ ht]
      rfl
  · rfl

theorem State.leaseBound_queue {s : State} {t : Nat} (hq : (s.crook t).queue ≠ []) :
    ((s.leaseBound t).crook t).queue = (s.crook t).queue := by
  unfold State.leaseBound
  split
  · rfl
  · next n hn =>
    split
    · rfl
    · split
      · exact State.leaveCrook_queue hn hq n _
      · rw [State.crook_onCrook]

/-! ## The bound (R142) -/

section

variable {s : State} {t n : Nat} (hh : (s.crook t).holder = some n) (hl : (s.slot n).lease = .holding)

include hh hl

theorem State.leaseBound_lapses (hw : s.otherWaits t n = true) : s.leaseBound t = s.leaveCrook n .lapsed := by
  simp only [State.leaseBound, hh, hl, hw, bne_self_eq_false, Bool.false_eq_true, if_false, if_true]

theorem State.leaseBound_restarts (hw : s.otherWaits t n = false) :
    s.leaseBound t = s.onCrook t fun c => { c with cmdsLeft := 64, grantAt := s.clock } := by
  simp only [State.leaseBound, hh, hl, hw, bne_self_eq_false, Bool.false_eq_true, if_false]

theorem execLeaseCycleBound_reached (hc : (s.crook t).grantAt.toNat + 16384 ≤ s.clock.toNat)
    (hw : (s.crook t).grantAt.toNat + 16384 < 2 ^ 64) : execLeaseCycleBound t s = .next (s.leaseBound t) := by
  have due : (s.crook t).grantAt + 16384 ≤ s.clock := by
    rw [BitVec.le_def, BitVec.toNat_add]
    exact (Nat.mod_eq_of_lt hw).le.trans hc
  simp only [execLeaseCycleBound, hh, hl, due, beq_self_eq_true, decide_true, Bool.and_self, if_true]

end

/-! ## The issue of a matrix instruction: 0x346 comes first (R146, R152) -/

/-- The issuing slot has been checked for a deferred error. -/
def State.tried (s : State) : State := s.onMe fun x => { x with park := { x.park with tries := 1 } }

theorem State.tried_me (s : State) : s.tried.me = { s.me with park := { s.me.park with tries := 1 } } := State.me_onMe ..

/-- The deferred error of the issuing thread. -/
def State.errorOf (s : State) : Option (Nat × Nat × Word) := (Stmt.crook s).err.find? (·.1 == s.me.tid)

section

variable {s u : State}

theorem State.Stands.onCrook (h : s.Stands u) (t : Nat) (f : Crook → Crook) : s.Stands (u.onCrook t f) :=
  ⟨h.calm.other, h.once, h.pc, h.view⟩

theorem State.Stands.tried (h : s.Stands u) : s.Stands u.tried where
  calm := h.calm.mildMe .other
  once := by
    rw [State.tried_me]
    exact h.once
  pc := by
    rw [State.tried_me]
    exact h.pc
  view := (u.trapView_onSlot u.agent rfl rfl).trans h.view

theorem State.matError_none {k : State → Out} (he : s.errorOf = none) : s.matError k = k s := by
  unfold State.matError
  dsimp only
  split
  · next e h => exact absurd (h.symm.trans he) (Option.some_ne_none e)
  · rfl

theorem State.Stands.matError_some {k : State → Out} (h : s.Stands u) {e : Nat × Nat × Word} (he : u.errorOf = some e) :
    Stmt.takesTrap s (u.matError k) 0x346 e.2.2 := by
  unfold State.matError
  dsimp only
  split
  · next e' h' =>
    obtain rfl : e' = e := Option.some.inj (h'.symm.trans he)
    exact (h.onCrook _ _).takesTrap _ _
  · next h' => exact absurd (h'.symm.trans he) nofun

theorem State.matFirst_none {k : State → Out} (ht : s.me.park.tries = 0) (he : s.errorOf = none) : s.matFirst k = k s.tried := by
  rw [State.matFirst, if_pos ht, State.matError_none he]
  rfl

theorem State.Stands.matFirst_some {k : State → Out} (h : s.Stands u) (ht : u.me.park.tries = 0) {e : Nat × Nat × Word}
    (he : u.errorOf = some e) : Stmt.takesTrap s (u.matFirst k) 0x346 e.2.2 := by
  rw [State.matFirst, if_pos ht]
  exact h.matError_some he

theorem State.tried_complete_pc (s : State) : s.tried.me.complete.pc = s.me.complete.pc := by
  rw [State.tried_me, Slot.complete_pc, Slot.complete_pc]
  rfl

end

/-! ## What the operand step leaves for the checks of a command -/

/-- A core without its queues and without its mailboxes' full bits. -/
def Core.unfed (c : Core) : Core := { c with q := [], mbFull := 0 }

theorem State.takeOne_unfed (s : State) (a : Src) (c : Nat) : ((s.takeOne a).2.core c).unfed = (s.core c).unfed := by
  have fed : ∀ f : Core → Core, (∀ x, (f x).unfed = x.unfed) → ((s.onMyCore f).core c).unfed = (s.core c).unfed := fun f hf => by
    by_cases hc : c = s.myCoreNum
    · subst hc
      exact (congrArg Core.unfed (s.core_onCore _ f)).trans (hf _)
    · exact congrArg Core.unfed (s.core_onCore_other _ _ f hc)
  unfold State.takeOne
  split
  · dsimp only
    split <;> rfl
  · exact fed _ fun _ => rfl
  · exact fed _ fun _ => rfl

theorem State.takeAll_unfed (c : Nat) : ∀ (srcs : List Src) (s : State), ((s.takeAll srcs).2.core c).unfed = (s.core c).unfed
  | [], _ => rfl
  | a :: as, s => (State.takeAll_unfed c as (s.takeOne a).2).trans (s.takeOne_unfed a c)

section

variable {s u : State} (hagent : u.agent = s.agent) (htiles : u.tiles = s.tiles) (hrep : u.me.rep = s.me.rep)
  (hcores : ∀ c, (u.core c).unfed = (s.core c).unfed)

include hagent htiles hrep

/-- The format that the issuing slot's commands use depends on the tiles and on its own held stores alone. -/
theorem State.bankFormat_congr (t bank : Nat) : u.bankFormat t bank = s.bankFormat t bank := by
  have tile : u.tile = s.tile := by
    funext n
    rw [State.tile, State.tile, htiles]
  rw [State.bankFormat, State.bankFormat, State.seenFormat, State.seenFormat, State.myTileNum, State.myTileNum, hagent, hrep, tile]

theorem State.formatAt_congr (t : Nat) (va : Word) : u.formatAt t va = s.formatAt t va := by
  simp only [State.formatAt, State.bankFormat_congr hagent htiles hrep]

theorem State.operandAt_congr (t : Nat) (va stride : Word) (lines len : Nat) :
    u.operandAt t va stride lines len = s.operandAt t va stride lines len := by
  simp only [State.operandAt, State.bankFormat_congr hagent htiles hrep]

include hcores

/-- So does the acceptance of a command, beside what the operand step leaves of the cores. -/
theorem State.acceptReq_congr (core : Nat) (sr : Word) (q : MatReq) : u.acceptReq core sr q = s.acceptReq core sr q := by
  have table : ∀ o, u.withTable core o = s.withTable core o := fun o => by
    have code : (u.core core).code = (s.core core).code := congrArg (·.code) (hcores core)
    simp only [State.withTable, Core.tableOf, Core.table, code]
  have entry : ∀ t e, u.entryAt t e = s.entryAt t e := fun t e => by
    simp only [State.entryAt, State.crook, State.tile, htiles]
  have cfg : u.cfgAt core = s.cfgAt core := by
    have mcfg : (u.core core).mcfg = (s.core core).mcfg := congrArg (·.mcfg) (hcores core)
    simp only [State.cfgAt, State.crook, State.tile, htiles, mcfg]
  simp only [State.acceptReq, table, entry, cfg, State.formatAt_congr hagent htiles hrep, State.operandAt_congr hagent htiles hrep]

end

/-! ## A matrix command up to its lease step -/

/-- The state in which a matrix command meets its lease step. -/
def State.leaseStep (s : State) (srcs : List Src) : State := (s.taken srcs).tried

section

variable (s : State) (srcs : List Src)

theorem State.leaseStep_agent : (s.leaseStep srcs).agent = s.agent := s.taken_agent srcs

theorem State.leaseStep_tiles : (s.leaseStep srcs).tiles = s.tiles := congrArg (·.tiles) (s.taken_shell srcs)

theorem State.leaseStep_clock : (s.leaseStep srcs).clock = s.clock := congrArg (·.clock) (s.taken_shell srcs)

theorem State.leaseStep_mem : (s.leaseStep srcs).mem = s.mem := s.taken_mem srcs

theorem State.leaseStep_bare : (s.leaseStep srcs).me.bare = s.me.bare :=
  (congrArg Slot.bare (State.tried_me _)).trans (s.taken_bare srcs)

theorem State.leaseStep_lease : (s.leaseStep srcs).me.lease = s.me.lease := congrArg (·.lease) (s.leaseStep_bare srcs)

theorem State.leaseStep_complete_pc : (s.leaseStep srcs).me.complete.pc = s.me.complete.pc := by
  simp only [Slot.complete_pc]
  exact congrArg (·.loopNext.2) (s.leaseStep_bare srcs)

theorem State.leaseStep_crook (t : Nat) : (s.leaseStep srcs).crook t = s.crook t := by
  simp only [State.crook, State.tile, s.leaseStep_tiles srcs]

theorem State.taken_errorOf : (s.taken srcs).errorOf = s.errorOf := by
  simp only [State.errorOf, Stmt.crook, Stmt.tileNum, State.taken_agent, State.taken_tile, State.taken_tid]

theorem State.taken_tries : (s.taken srcs).me.park.tries = s.me.park.tries :=
  State.taken_me (P := fun x => x.park.tries = s.me.park.tries) (fun x n hx => by simpa using hx) (fun _ _ _ hx => hx) s srcs rfl

theorem State.leaseStep_acceptReq (core : Nat) (sr : Word) (q : MatReq) :
    (s.leaseStep srcs).acceptReq core sr q = s.acceptReq core sr q :=
  State.acceptReq_congr (s.leaseStep_agent srcs) (s.leaseStep_tiles srcs) (congrArg (·.rep) (s.leaseStep_bare srcs))
    (fun c => State.takeAll_unfed c srcs s) core sr q

variable {s} {srcs}

theorem State.leaseStep_stands (h : s.atStart) : s.Stands (s.leaseStep srcs) := (State.Stands.taken h srcs).tried

theorem matrixCommand_leaseStep {gd : Guard} (h : s.atStart) (hg : s.me.guardOk gd = true) (hc : s.canRun srcs [])
    (he : s.errorOf = none) (q : List Word → MatReq) :
    matrixCommand gd srcs q s = (s.leaseStep srcs).leased (q (s.vals srcs)) := by
  rw [matrixCommand, State.guarded_true _ _ _ hg, State.operands_run _ _ _ _ h hc,
    State.matFirst_none ((s.taken_tries srcs).trans h.2.1) ((s.taken_errorOf srcs).trans he)]
  rfl

end

/-! ## Acceptance (R144, R152) -/

/-- The command as the issuing slot queues it. -/
def State.matWork (s : State) (cmd : MatCmd) : MatWork :=
  ⟨cmd, s.me.tid, s.agent / 8, s.me.id.logical, s.me.id.lcn, s.me.id.jobseed, s.clock + 1⟩

theorem State.regranted_enqueueMat (s : State) (cmd : MatCmd) : s.Regranted (s.enqueueMat cmd) := by
  unfold State.enqueueMat
  extract_lets n t x w d q
  have drawn : s.Regranted d := s.regranted_onSlot s.agent (f := fun x => { x with srCtr := x.srCtr + cmd.draws }) fun _ => rfl
  have queued : s.Regranted q := drawn.trans (d.regranted_onCrook t _)
  split
  · exact queued.trans (q.regranted_leaseBound t)
  · exact queued

theorem State.enqueueMat_queue (s : State) (cmd : MatCmd) :
    ((s.enqueueMat cmd).crook s.myTileNum).queue = (s.crook s.myTileNum).queue ++ [s.matWork cmd] := by
  unfold State.enqueueMat
  extract_lets n t x w d q
  have queued : (q.crook t).queue = (s.crook t).queue ++ [s.matWork cmd] := congrArg Crook.queue (d.crook_onCrook t _)
  split
  · refine (State.leaseBound_queue ?_).trans queued
    rw [queued]
    exact List.append_ne_nil_of_right_ne_nil _ (List.cons_ne_nil _ _)
  · exact queued

theorem State.acceptNow_ok {s : State} {q : MatReq} {cmd : MatCmd} (hroom : (s.crook s.myTileNum).queue.length < 4)
    (ha : s.acceptReq s.myCoreNum s.me.srCtr q = .ok cmd) : s.acceptNow q = (s.enqueueMat cmd).done := by
  simp only [State.acceptNow, if_neg (Nat.not_le.2 hroom), ha]

section

variable {s : State} {srcs : List Src}

theorem State.leaseStep_matWork (cmd : MatCmd) : (s.leaseStep srcs).matWork cmd = s.matWork cmd := by
  have htid : (s.leaseStep srcs).me.tid = s.me.tid := congrArg (·.tid) (s.leaseStep_bare srcs)
  have hid : (s.leaseStep srcs).me.id = s.me.id := congrArg (·.id) (s.leaseStep_bare srcs)
  simp only [State.matWork, htid, hid, s.leaseStep_agent srcs, s.leaseStep_clock srcs]

/-- The holder's command is queued, and the instruction completes. -/
theorem State.leaseStep_queues (h : s.atStart) (hl : s.me.lease = .holding) (hroom : (Stmt.crook s).queue.length < 4) {q : MatReq}
    {cmd : MatCmd} (ha : s.acceptReq (s.agent / 8) s.me.srCtr q = .ok cmd) :
    ∃ t, (s.leaseStep srcs).leased q = .next t ∧ t.me.pc = s.me.complete.pc ∧ s.sameRegs t 32 ∧ t.mem = s.mem ∧
      (Stmt.crook t).queue = (Stmt.crook s).queue ++ [s.matWork cmd] := by
  set u := s.leaseStep srcs with hu
  have stands : s.Stands u := State.leaseStep_stands h
  have agent : u.agent = s.agent := s.leaseStep_agent srcs
  have queue : (u.crook u.myTileNum).queue = (Stmt.crook s).queue := by
    rw [s.leaseStep_crook srcs, State.myTileNum, agent]
    rfl
  have accept : u.acceptReq u.myCoreNum u.me.srCtr q = .ok cmd := by
    have sr : u.me.srCtr = s.me.srCtr := congrArg (·.srCtr) (s.leaseStep_bare srcs)
    rw [s.leaseStep_acceptReq srcs, State.myCoreNum, agent, sr]
    exact ha
  have leased : u.Regranted (u.enqueueMat cmd) := u.regranted_enqueueMat cmd
  have runs : u.leased q = .next ((u.enqueueMat cmd).onMe Slot.complete) := by
    have accepted : u.leased q = u.acceptNow q := by
      simp only [State.leased, (s.leaseStep_lease srcs).trans hl, hu]
    rw [accepted, State.acceptNow_ok (queue ▸ hroom) accept, State.done_alone _ (leased.once.trans stands.once)]
  have calm : State.Calm (fun _ => True) 32 s ((u.enqueueMat cmd).onMe Slot.complete) :=
    (stands.calm.enqueueMat cmd).mildMe (Slot.mild_complete _)
  refine ⟨_, runs, ?_, calm.sameRegs, leased.mem.trans (s.leaseStep_mem srcs), ?_⟩
  · rw [State.me_onMe, leased.complete_pc]
    exact s.leaseStep_complete_pc srcs
  · have here : Stmt.crook ((u.enqueueMat cmd).onMe Slot.complete) = (u.enqueueMat cmd).crook u.myTileNum :=
      congrArg (fun n => (u.enqueueMat cmd).crook (n / 64)) leased.agent
    rw [here, State.enqueueMat_queue, queue, State.leaseStep_matWork]

/-- A command of a slot without a lease raises 0x341. -/
theorem State.leaseStep_refuses (h : s.atStart) (hl : s.me.lease = .none) (q : MatReq) :
    Stmt.takesTrap s ((s.leaseStep srcs).leased q) 0x341 0 := by
  have refused : (s.leaseStep srcs).leased q = (s.leaseStep srcs).trap 0x341 0 := by
    simp only [State.leased, (s.leaseStep_lease srcs).trans hl]
  rw [refused]
  exact (State.leaseStep_stands h).takesTrap _ _

end

/-- The six rows of R151 are matrix commands. -/
theorem matrixOps_exec (gd : Guard) (b c : Src) (e : Fin 64) (k n r m : Fin 128) (l : Fin 5) (x y : Bool) (s : State) :
    ∀ o ∈ Stmt.matrixOps gd b c e k n r m l x y, exec o.1 s = matrixCommand gd o.2.1 o.2.2 s := by
  simp only [Stmt.matrixOps, List.forall_mem_cons]
  exact ⟨rfl, rfl, rfl, rfl, rfl, rfl, List.forall_mem_nil _⟩

end Sys2Proof.Machine

open Sys2Proof Sys2Proof.Machine

/-- Settles O33: the operand step leaves what the checks of a command read, and a bound that the command reaches leaves the queue. -/
theorem matrixCommandsQueue : Obligations.MatrixCommandsQueue := by
  intro gd b c e k n r m l x y s h hg he o ho hc
  rw [matrixOps_exec gd b c e k n r m l x y s o ho, matrixCommand_leaseStep h hg hc he]
  exact ⟨fun hl hroom cmd ha => State.leaseStep_queues h hl hroom ha, fun hl => State.leaseStep_refuses h hl _,
    fun _ _ _ => ⟨rfl, rfl⟩⟩

end

section
/-! O34 of APPROVED.json: MLEASE, MFREE and MSTAT (R142, R143 and R151 of spec/09). -/

namespace Sys2Proof.Machine

open Sys2Proof

theorem Slot.isFull_clearFull_other (x : Slot) {a r : Nat} (h : r ≠ a) : (x.clearFull a).isFull r = x.isFull r := by
  unfold Slot.clearFull Slot.isFull
  split
  · rfl
  · rw [BitVec.getLsbD_and, BitVec.getLsbD_not, getLsbD_one_shift h, Bool.not_false, Bool.and_true]
    by_cases hr : r < 32
    · rw [decide_eq_true hr, Bool.and_true]
    · rw [BitVec.getLsbD_of_ge _ _ (Nat.not_lt.1 hr), Bool.false_and]

theorem Slot.isFull_clearFull_eq (x : Slot) (a : Fin 32) (r : Nat) :
    (x.clearFull a.val).isFull r = (x.isFull r && (r != a.val || r == 0)) := by
  by_cases hr : r = a.val
  · subst hr
    by_cases ha : a.val = 0
    · rw [ha]
      rfl
    · rw [Slot.isFull_clearFull x ha a.isLt]
      simp [ha]
  · rw [Slot.isFull_clearFull_other x hr]
    simp [hr]

section

variable {s : State} {gd : Guard} (h : s.atStart)

include h

/-! ## MFREE -/

theorem execMfree_leaves : exec .mfree s = .next ((s.leaveCrook s.agent .none).onMe Slot.complete) :=
  State.done_alone _ ((s.regranted_leaveCrook s.agent .none).once.trans h.2.2)

/-! ## MLEASE -/

theorem State.tried_once : s.tried.me.park.once = false := by
  rw [State.tried_me]
  exact h.2.2

variable (hg : s.me.guardOk gd = true)

include hg

theorem execMlease_tried (he : s.errorOf = none) : exec (.mlease gd) s =
    if s.tried.me.lease == .holding then s.tried.done
    else if s.tried.wantCrook.me.lease == .holding then s.tried.wantCrook.done else s.tried.wantCrook.park .crook := by
  rw [show exec (.mlease gd) s = execMlease gd s from rfl, execMlease, State.guarded_true _ _ _ hg, State.matFirst_none h.2.1 he]

theorem execMlease_holding (he : s.errorOf = none) (hl : s.me.lease = .holding) :
    exec (.mlease gd) s = .next (s.onMe Slot.complete) := by
  have held : s.tried.me.lease = .holding := by
    rw [State.tried_me]
    exact hl
  rw [execMlease_tried h hg he, held, if_pos (beq_self_eq_true _), State.done_alone _ (State.tried_once h)]
  exact congrArg Host.Outcome.next (s.onMe_onMe _ _)

theorem execMlease_free (he : s.errorOf = none) (hl : s.me.lease = .none) (hix : s.agent % 8 ≠ 7) (hs : s.me.status = .running)
    (hr : s.me.haltReq = false) (hfree : (Stmt.crook s).holder = none) (hkept : (Stmt.crook s).kept = [])
    (hno : ∀ n, n / 64 = Stmt.tileNum s → n ≠ s.agent → (s.slot n).lease ≠ .waiting) :
    ∃ t, exec (.mlease gd) s = .next t ∧ t.me.lease = .holding ∧ (Stmt.crook t).holder = some s.agent ∧
      (Stmt.crook t).cmdsLeft = 64 ∧ (Stmt.crook t).grantAt = s.clock ∧ t.me.pc = s.me.complete.pc := by
  have notHeld : s.tried.me.lease ≠ .holding := by
    rw [State.tried_me]
    exact fun e => nomatch hl.symm.trans e
  have idle : ∀ n, n / 64 = Stmt.tileNum s → n ≠ s.agent → (s.tried.slot n).lease ≠ .waiting := fun n ht hn => by
    rw [State.tried, s.slot_onMe_other n _ hn]
    exact hno n ht hn
  have moved := s.tried.regranted_wantCrook
  obtain ⟨lease, crook⟩ := State.wantCrook_alone (s := s.tried) hix (by rwa [State.tried_me]) (by rwa [State.tried_me]) hfree hkept idle
  have runs : exec (.mlease gd) s = .next (s.tried.wantCrook.onMe Slot.complete) := by
    rw [execMlease_tried h hg he, if_neg (by simpa using notHeld), lease, if_pos (beq_self_eq_true _),
      State.done_alone _ (moved.once.trans (State.tried_once h))]
  obtain ⟨holder, left, at_⟩ := crook
  refine ⟨_, runs, ?_, holder, left, at_, ?_⟩
  · rw [State.me_onMe, Slot.complete_lease, lease]
  · rw [State.me_onMe, moved.complete_pc, State.tried_complete_pc]

theorem execMlease_error {e : Nat × Nat × Word} (he : s.errorOf = some e) :
    Stmt.takesTrap s (exec (.mlease gd) s) 0x346 e.2.2 := by
  rw [show exec (.mlease gd) s = execMlease gd s from rfl, execMlease, State.guarded_true _ _ _ hg]
  exact (State.Stands.start h).matFirst_some h.2.1 he

/-! ## MSTAT -/

variable (a : Fin 32)

theorem execMstat_idle (he : s.errorOf = none) (hd : (Stmt.crook s).depth s.me.tid = 0) :
    exec (.mstat gd a) s = .next (s.onMe fun x => (x.setReg a.val (s.mlstat s.agent)).complete) := by
  rw [show exec (.mstat gd a) s = execMstat gd a s from rfl, execMstat, State.guarded_true _ _ _ hg, State.matError_none he]
  exact (if_pos hd).trans (congrArg Host.Outcome.next (s.onUs_alone _ h.2.2))

theorem execMstat_waits (he : s.errorOf = none) (hd : (Stmt.crook s).depth s.me.tid ≠ 0) :
    ∃ t, exec (.mstat gd a) s = .next t ∧
      (Stmt.crook t).mstat = (Stmt.crook s).mstat ++ [⟨s.me.tid, a.val, (Stmt.crook s).depth s.me.tid, none, none⟩] ∧
      t.me.pc = s.me.complete.pc ∧ ∀ r, t.me.isFull r = (s.me.isFull r && (r != a.val || r == 0)) := by
  let u := (s.onMe (·.clearFull a.val)).onCrook s.myTileNum fun c => { c with
    mstat := c.mstat ++ [⟨s.me.tid, a.val, (Stmt.crook s).depth s.me.tid, none, none⟩] }
  have me : u.me = s.me.clearFull a.val := s.me_onMe (·.clearFull a.val)
  have runs : exec (.mstat gd a) s = .next (u.onMe Slot.complete) := by
    rw [show exec (.mstat gd a) s = execMstat gd a s from rfl, execMstat, State.guarded_true _ _ _ hg, State.matError_none he]
    refine (if_neg hd).trans (State.done_alone u ?_)
    rw [me, Slot.clearFull_park]
    exact h.2.2
  have crook : Stmt.crook (u.onMe Slot.complete) = u.crook s.myTileNum := rfl
  refine ⟨_, runs, ?_, ?_, fun r => ?_⟩
  · rw [crook, State.crook_onCrook]
    rfl
  · rw [State.me_onMe, me, Slot.complete_pc, Slot.complete_pc]
    unfold Slot.clearFull
    split <;> rfl
  · rw [State.me_onMe, Slot.isFull_complete, me, Slot.isFull_clearFull_eq]

theorem execMstat_error {e : Nat × Nat × Word} (he : s.errorOf = some e) :
    Stmt.takesTrap s (exec (.mstat gd a) s) 0x346 e.2.2 := by
  rw [show exec (.mstat gd a) s = execMstat gd a s from rfl, execMstat, State.guarded_true _ _ _ hg]
  exact (State.Stands.start h).matError_some he

end

end Sys2Proof.Machine

open Sys2Proof Sys2Proof.Machine

/-- Settles O34: a slot that leaves its crook is not granted it again, and one that waits alone for a free crook is. -/
theorem leaseInstructions : Obligations.LeaseInstructions := by
  intro gd a s h hg
  refine ⟨⟨execMfree_leaves h, ?_⟩, fun he => ⟨execMlease_holding h hg he, fun hl hix hs hr hfree hkept hno =>
    execMlease_free h hg he hl hix hs hr hfree hkept hno, execMstat_idle h hg a he, execMstat_waits h hg a he⟩,
    fun e he => ⟨execMlease_error h hg he, execMstat_error h hg a he⟩⟩
  rw [State.me, (s.regranted_leaveCrook s.agent .none).agent]
  exact s.leaveCrook_lease s.agent (by decide)

end

section
/-! O35 of APPROVED.json: the lease bound and the end of a matrix command (R142, R144, R145 and R151 of spec/09). -/

namespace Sys2Proof.Machine

open Sys2Proof

/-! ## A table that a fold writes -/

/-- A fold whose steps write `v` at the keys of `P` leaves it at every key that one of its steps wrote. -/
theorem val_foldl_write {α : Type} {d v : α} {k : Nat} {f : Table α → Nat → Table α} {P : Nat → Prop} [DecidablePred P]
    (hf : ∀ t i, Table.val d k (f t i) = if P i then v else Table.val d k t) (l : List Nat) (t : Table α) :
    Table.val d k (l.foldl f t) = if ∃ i ∈ l, P i then v else Table.val d k t := by
  induction l generalizing t with
  | nil => simp
  | cons i l ih =>
    rw [List.foldl_cons, ih, hf]
    by_cases hl : ∃ j ∈ l, P j
    · simp [hl]
    · simp [hl]

theorem val_setAcc (a : Table (BitVec 32)) (i j k : Nat) (v : BitVec 32) :
    Table.val 0 k (setAcc a i j v) = if i * 128 + j = k then v else Table.val 0 k a := by
  unfold setAcc
  split
  · next h => rw [h, val_put_same]
  · next h => exact val_put_other _ _ _ _ _ (Ne.symm h)

/-- MCLR's rows hold the fill, and the other rows stay. -/
theorem State.accAt_runClr (s : State) (core : Nat) (fill : BitVec 32) (row0 rows i : Nat) {j : Nat} (hj : j < 128) :
    (s.runClr core fill row0 rows).accAt core i j = if row0 ≤ i ∧ i < row0 + rows then fill else s.accAt core i j := by
  have row : ∀ a m, Table.val 0 (i * 128 + j) ((List.range 128).foldl (fun a n => setAcc a (row0 + m) n fill) a) =
      if row0 + m = i then fill else Table.val 0 (i * 128 + j) a := fun a m => by
    rw [val_foldl_write fun t n => val_setAcc t (row0 + m) n (i * 128 + j) fill]
    refine if_congr ⟨?_, fun h => ⟨j, List.mem_range.2 hj, by rw [h]⟩⟩ rfl rfl
    rintro ⟨n, hn, e⟩
    have := List.mem_range.1 hn
    omega
  rw [State.accAt, State.runClr, State.core_onCore]
  refine (val_foldl_write row (List.range rows) (s.core core).acc).trans (if_congr ⟨?_, fun h => ?_⟩ rfl rfl)
  · rintro ⟨m, hm, e⟩
    have := List.mem_range.1 hm
    omega
  · exact ⟨i - row0, List.mem_range.2 (by omega), by omega⟩

/-! ## The end of the running command (R144) -/

section

variable {s : State} {tile n : Nat} {w : MatWork} {rest : List MatWork} {e : Word}

/-- The command takes effect and leaves the queue, and a crook that has drained passes on. -/
theorem execMatrixCommandCompletes_ends (hq : (s.crook tile).queue = w :: rest) (he : s.matEnd tile = some e) (hc : e ≤ s.clock) :
    ∃ f : Crook → Crook, execMatrixCommandCompletes tile s = .next (((s.runMat tile w).onCrook tile f).passCrook tile) ∧
      ∀ c, (f c).queue = c.queue.drop 1 ∧ (f c).holder = c.holder ∧ (f c).draining = c.draining := by
  unfold execMatrixCommandCompletes
  rw [hq, he]
  dsimp only
  rw [if_neg (BitVec.not_lt.2 hc)]
  exact ⟨_, rfl, fun _ => ⟨rfl, rfl, rfl⟩⟩

/-- After a command that changes its core alone, a holder that has not let go keeps the crook, and the next command stands first. -/
theorem State.passCrook_completed {f : Crook → Crook} {g : Core → Core}
    (hf : ∀ c, (f c).queue = c.queue.drop 1 ∧ (f c).holder = c.holder ∧ (f c).draining = c.draining)
    (hh : (s.crook tile).holder = some n) (hd : (s.crook tile).draining = false) (hq : (s.crook tile).queue = w :: rest)
    (runs : s.runMat tile w = s.onCore w.core g) :
    let t := ((s.runMat tile w).onCrook tile f).passCrook tile
    (t.crook tile).queue = rest ∧ t.mem = s.mem ∧ ∀ c, t.core c = (s.onCore w.core g).core c := by
  rw [runs]
  have here : ((s.onCore w.core g).onCrook tile f).crook tile = f (s.crook tile) := State.crook_onCrook ..
  obtain ⟨queue, holder, draining⟩ := hf (s.crook tile)
  dsimp only
  rw [State.passCrook_held (n := n) (by rw [here, holder, hh]) (by rw [here, draining, hd]), here, queue, hq]
  exact ⟨rfl, rfl, fun _ => rfl⟩

end

end Sys2Proof.Machine

open Sys2Proof Sys2Proof.Machine

/-- Settles O35: a holder that lapses is not granted the crook again, and MCFG, MPROG and MCLR change their core alone. -/
theorem crookEvents : Obligations.CrookEvents := by
  intro tile n s hh
  refine ⟨fun hl ht hc hw => ?_, fun hd w rest e hq he hc => ?_⟩
  · have bound : exec (.leaseCycleBound tile) s = .next (s.leaseBound tile) := execLeaseCycleBound_reached hh hl hc hw
    refine ⟨fun hnone => ?_, fun m hm hwaits => ?_⟩
    · have none : s.otherWaits tile n = false := by rw [State.otherWaits, hnone, List.any_nil]
      rw [bound, State.leaseBound_restarts hh hl none]
      exact ⟨_, rfl, congrArg Crook.cmdsLeft (s.crook_onCrook tile _), congrArg Crook.grantAt (s.crook_onCrook tile _), hl⟩
    · rw [bound, State.leaseBound_lapses hh hl (State.otherWaits_iff.2 ⟨m, hwaits, hm⟩)]
      exact ⟨_, rfl, s.leaveCrook_lease n (by decide)⟩
  · obtain ⟨f, ends, hf⟩ := execMatrixCommandCompletes_ends hq he hc
    refine ⟨_, ends, (State.regranted_passCrook _ tile).mem, fun ta osat hcmd => ?_, fun len p hcmd => ?_,
      fun fill row0 rows hcmd => ?_⟩
    · obtain ⟨queue, mem, core⟩ := State.passCrook_completed hf hh hd hq (by rw [State.runMat, hcmd])
      exact ⟨queue, mem, by rw [core, State.core_onCore]⟩
    · obtain ⟨queue, mem, core⟩ := State.passCrook_completed hf hh hd hq (by rw [State.runMat, hcmd])
      exact ⟨queue, mem, by rw [core, State.core_onCore]⟩
    · have clears : s.runMat tile w = s.runClr w.core fill row0 rows := by rw [State.runMat, hcmd]
      obtain ⟨queue, mem, core⟩ := State.passCrook_completed hf hh hd hq clears
      refine ⟨queue, mem, fun i j hj => ?_⟩
      rw [State.accAt, core]
      exact s.accAt_runClr w.core fill row0 rows i hj

end

section
/-! O49 of APPROVED.json: the start of the drover slot and of a muster's handler (R154 and R440 of spec/10, R220 to R222 of spec/13). -/

namespace Sys2Proof.Machine

open Sys2Proof

/-! ## A thread that an event starts in a slot -/

/-- Slot `n` starts as `x` with the next thread number, and core `c` records it. -/
def State.starting (s : State) (n : Nat) (x : Slot) (c : Nat) (f : Core → Core) : State :=
  { (s.setSlot n x).onCore c f with nextTid := s.nextTid + 1 }

section

variable (s : State) (n : Nat) (x : Slot) (c : Nat) (f : Core → Core)

@[simp] theorem State.starting_slot : (s.starting n x c f).slot n = x := s.slot_setSlot n x

@[simp] theorem State.starting_core : (s.starting n x c f).core c = f (s.core c) := (s.setSlot n x).core_onCore c f

@[simp] theorem State.starting_mem : (s.starting n x c f).mem = s.mem := rfl

end

/-! ## S7 (R154, R440) -/

/-- S7 of core `c` as its drover starts, with the notices of streams that parked while it was Free (R165). -/
def State.droverStart (s : State) (c : Nat) : Slot :=
  { (s.slot (8 * c + 7)).start (s.droverEntry c) (droverIdent c) s.nextTid with pend := (s.slot (8 * c + 7)).pend }

theorem execDroverRestart_due {s : State} {c : Nat} {t0 : Word} (hr : (s.core c).restart = some t0) (ht : t0 ≤ s.clock)
    (hf : (s.slot (8 * c + 7)).status = .free) (he : s.droverEntry c ≠ 0) :
    execDroverRestart c s = .next (s.starting (8 * c + 7) (s.droverStart c) c fun k => { k with restart := none }) := by
  have due : ((s.slot (8 * c + 7)).status != .free || s.droverEntry c == 0 || s.clock < t0) = false := by
    rw [hf, beq_false_of_ne he, decide_eq_false (BitVec.not_lt.2 ht)]
    rfl
  unfold execDroverRestart
  dsimp only
  rw [hr]
  exact if_neg (by rw [due]; exact Bool.false_ne_true)

/-! ## The registers of a handler (R222) -/

/-- A slot without its general registers and their full bits. -/
def Slot.ungeneral (x : Slot) : Slot := { x with g := [], full := 0 }

theorem Slot.ungeneral_setReg (x : Slot) (n : Nat) (v : Word) : (x.setReg n v).ungeneral = x.ungeneral := by
  unfold Slot.setReg
  split <;> rfl

/-- The registers from g16 on take the words, from the `k`-th on. -/
def Slot.takeWords (x : Slot) (ws : List Word) (k : Nat) : Slot :=
  (ws.zipIdx k).foldl (fun x w => x.setReg (16 + w.2) w.1) x

theorem Slot.takeWords_cons (x : Slot) (w : Word) (ws : List Word) (k : Nat) :
    x.takeWords (w :: ws) k = (x.setReg (16 + k) w).takeWords ws (k + 1) := rfl

theorem Slot.ungeneral_takeWords (ws : List Word) (x : Slot) (k : Nat) : (x.takeWords ws k).ungeneral = x.ungeneral := by
  induction ws generalizing x k with
  | nil => rfl
  | cons w ws ih => rw [Slot.takeWords_cons, ih, Slot.ungeneral_setReg]

theorem Slot.takeWords_below (ws : List Word) (x : Slot) {k m : Nat} (h : m < 16 + k) : (x.takeWords ws k).reg m = x.reg m := by
  induction ws generalizing x k with
  | nil => rfl
  | cons w ws ih => rw [Slot.takeWords_cons, ih _ (by omega), Slot.reg_setReg_other _ _ _ _ (by omega)]

theorem Slot.takeWords_at {ws : List Word} (x : Slot) (k : Nat) {i : Nat} (h : i < ws.length) :
    (x.takeWords ws k).reg (16 + k + i) = ws.getD i 0 := by
  induction ws generalizing x k i with
  | nil => exact absurd h (Nat.not_lt_zero i)
  | cons w ws ih =>
    rw [Slot.takeWords_cons]
    cases i with
    | zero => rw [Slot.takeWords_below _ _ (by omega), Nat.add_zero, Slot.reg_setReg _ _ _ (by omega), List.getD_cons_zero]
    | succ i =>
      rw [List.getD_cons_succ, ← ih (x.setReg (16 + k) w) (k + 1) (Nat.lt_of_succ_lt_succ h)]
      congr 1
      omega

/-- The word `k` of the message `j`, among messages of `n` words each. -/
theorem getD_flatten {α : Type} {d : α} {n : Nat} {ms : List (List α)} (h : ∀ m ∈ ms, m.length = n) {j k : Nat} (hj : j < ms.length)
    (hk : k < n) : ms.flatten.getD (n * j + k) d = (ms.getD j []).getD k d := by
  induction ms generalizing j with
  | nil => exact absurd hj (Nat.not_lt_zero j)
  | cons m ms ih =>
    have hm : m.length = n := h m List.mem_cons_self
    rw [List.flatten_cons]
    cases j with
    | zero => rw [Nat.mul_zero, Nat.zero_add, List.getD_append _ _ _ _ (hm ▸ hk), List.getD_cons_zero]
    | succ j =>
      have step : n * (j + 1) + k = m.length + (n * j + k) := by rw [hm, Nat.mul_succ]; omega
      rw [List.getD_cons_succ, step, List.getD_append_right _ _ _ _ (by omega), Nat.add_sub_cancel_left,
        ih (fun m h' => h m (List.mem_cons_of_mem _ h')) (Nat.lt_of_succ_lt_succ hj)]

section

variable (x : Slot) (i : Nat) (mask : BitVec 32) (ms : List (List Word))

theorem handlerRegs_eq : handlerRegs x i mask ms =
    ((x.takeWords ms.flatten 0).setReg 14 (mask.setWidth 64)).setReg 15 (BitVec.ofNat 64 i) := rfl

theorem handlerRegs_ungeneral : (handlerRegs x i mask ms).ungeneral = x.ungeneral := by
  rw [handlerRegs_eq, Slot.ungeneral_setReg, Slot.ungeneral_setReg, Slot.ungeneral_takeWords]

theorem handlerRegs_mask : (handlerRegs x i mask ms).reg 14 = mask.setWidth 64 := by
  rw [handlerRegs_eq, Slot.reg_setReg_other _ _ _ _ (by decide), Slot.reg_setReg _ _ _ (by decide)]

theorem handlerRegs_number : (handlerRegs x i mask ms).reg 15 = BitVec.ofNat 64 i := by
  rw [handlerRegs_eq, Slot.reg_setReg _ _ _ (by decide)]

variable {ms}

theorem handlerRegs_word (h : ∀ m ∈ ms, m.length = 4) {j k : Nat} (hj : j < ms.length) (hk : k < 4) :
    (handlerRegs x i mask ms).reg (16 + 4 * j + k) = (ms.getD j []).getD k 0 := by
  have short : ms.flatten.length = 4 * ms.length := by
    rw [List.length_flatten, List.map_congr_left h, List.map_const', List.sum_replicate, smul_eq_mul, Nat.mul_comm]
  rw [handlerRegs_eq, Slot.reg_setReg_other _ _ _ _ (by omega), Slot.reg_setReg_other _ _ _ _ (by omega),
    show 16 + 4 * j + k = 16 + 0 + (4 * j + k) by omega, Slot.takeWords_at _ _ (by omega), getD_flatten h hj hk]

end

/-! ## The pens of a muster (R221) -/

/-- The first message of a pen is taken. -/
def Core.popPen (c : Core) (p : Nat) : Core := c.setPen p { c.pen p with msgs := (c.pen p).msgs.tail }

theorem Core.popPen_pen (c : Core) (p q : Nat) :
    ((c.popPen p).pen q).msgs = if q = p then (c.pen q).msgs.tail else (c.pen q).msgs := by
  unfold Core.popPen Core.setPen Core.pen
  split
  · next h => rw [h, val_put_same]
  · next h => rw [val_put_other _ _ _ _ _ h]

theorem Core.popPens_pen {l : List Nat} (hl : l.Nodup) (c : Core) (q : Nat) :
    ((l.foldl Core.popPen c).pen q).msgs = if q ∈ l then (c.pen q).msgs.tail else (c.pen q).msgs := by
  induction l generalizing c with
  | nil => rfl
  | cons p l ih =>
    obtain ⟨hp, hl⟩ := List.nodup_cons.1 hl
    rw [List.foldl_cons, ih hl, Core.popPen_pen]
    by_cases hq : q = p
    · rw [if_neg (hq ▸ hp), if_pos hq, if_pos (hq ▸ List.mem_cons_self)]
    · simp only [List.mem_cons, hq, false_or, if_false]

/-! ## A muster fires (R220 to R222) -/

/-- The pens of a mask, in ascending order. -/
def pensOf (mask : BitVec 32) : List Nat := (List.range 32).filter mask.getLsbD

theorem pensOf_nodup (mask : BitVec 32) : (pensOf mask).Nodup := List.Nodup.filter _ List.nodup_range

/-- The identity of the handler of muster `m` (R222). -/
def Muster.ident (m : Muster) : Ident :=
  { lcn := m.lcn, jobseed := m.jobseed, launch := m.launch, cls := m.cls, karg := m.karg, logical := 6
    graph := m.graph, phase := m.phase, job := m.job }

/-- The first messages of the pens of a mask. -/
def Core.firstMsgs (k : Core) (mask : BitVec 32) : List (List Word) := (pensOf mask).map fun p => (k.pen p).msgs.headD []

/-- The handler of muster `m` in S6 of core `c`, before its registers are written. -/
def State.handlerBase (s : State) (c : Nat) (m : Muster) : Slot := (s.slot (8 * c + 6)).start m.pc m.ident s.nextTid

/-- The handler of muster `i` of core `c`, as it starts. -/
def State.handlerStart (s : State) (c i : Nat) : Slot :=
  let m := (s.core c).muster i
  { handlerRegs (s.handlerBase c m) i m.mask ((s.core c).firstMsgs m.mask) with
    srCtr := m.fcnt.setWidth 64 <<< 32, rngCtr := m.fcnt.setWidth 64 <<< 32 }

theorem State.handlerStart_reg (s : State) (c i n : Nat) : (s.handlerStart c i).reg n =
    (handlerRegs (s.handlerBase c ((s.core c).muster i)) i ((s.core c).muster i).mask
      ((s.core c).firstMsgs ((s.core c).muster i).mask)).reg n := by
  refine Slot.reg_congr ?_ n
  unfold State.handlerStart
  dsimp only

/-- A core whose muster `i` has fired. -/
def Core.fired (k : Core) (i : Nat) : Core :=
  { (pensOf (k.muster i).mask).foldl Core.popPen k with
    musters := Table.put i { k.muster i with fcnt := (k.muster i).fcnt + 1 }
      ((pensOf (k.muster i).mask).foldl Core.popPen k).musters
    rr := (i + 1) % 16 }

theorem execMusterArbitration_fires {s : State} {c i owner : Nat} (hf : (s.slot (8 * c + 6)).status = .free)
    (ho : (s.tile (coreTile c)).owner = some owner) (hp : s.present owner c = true) (hw : (s.core c).winner = some i) :
    execMusterArbitration c s = .next (s.starting (8 * c + 6) (s.handlerStart c i) c (Core.fired · i)) := by
  have live : ((s.slot (8 * c + 6)).status != .free || !s.present owner c) = false := by simp [hf, hp]
  unfold execMusterArbitration
  dsimp only
  rw [ho, hw]
  exact if_neg (by rw [live]; exact Bool.false_ne_true)

end Sys2Proof.Machine

open Sys2Proof Sys2Proof.Machine

/-- Settles O49: S7 starts at its entry, and the muster that fires starts S6 with the first message of each of its pens. -/
theorem droverAndHandlersStart : Obligations.DroverAndHandlersStart := by
  refine ⟨fun c t0 s hr ht hf he => ?_, ?_⟩
  · refine ⟨_, execDroverRestart_due hr ht hf he, ?_⟩
    rw [State.starting_slot, State.starting_core]
    exact ⟨rfl, rfl, rfl, rfl, rfl, rfl⟩
  · intro c i owner s hf ho hp hw _ mask pens _ hpens
    refine ⟨_, execMusterArbitration_fires hf ho hp hw, ?_⟩
    rw [State.starting_slot, State.starting_core]
    have kept := handlerRegs_ungeneral (s.handlerBase c ((s.core c).muster i)) i mask ((s.core c).firstMsgs mask)
    have four : ∀ m ∈ (s.core c).firstMsgs mask, m.length = 4 := by
      intro m hm
      obtain ⟨p, hp, rfl⟩ := List.mem_map.1 hm
      obtain ⟨m, rest, e, len⟩ := hpens p hp
      rw [e]
      exact len
    have count : ((s.core c).firstMsgs mask).length = pens.length := List.length_map ..
    refine ⟨congrArg Slot.status kept, congrArg Slot.pc kept, fun j k hj hk => ?_,
      (s.handlerStart_reg c i 14).trans (handlerRegs_mask ..), (s.handlerStart_reg c i 15).trans (handlerRegs_number ..),
      congrArg (·.id.jobseed) kept, congrArg (·.id.karg) kept, fun p hp => ?_, ?_, rfl, rfl⟩
    · rw [State.handlerStart_reg, handlerRegs_word _ _ _ four (by rwa [count]) hk]
      congr 1
      rw [List.getD_eq_getElem _ _ (by rwa [count]), List.getD_eq_getElem _ _ hj]
      exact List.getElem_map ..
    · refine (Core.popPens_pen (pensOf_nodup mask) (s.core c) p).trans (if_congr ?_ rfl rfl)
      rw [pensOf, List.mem_filter, List.mem_range, and_iff_right hp]
    · exact congrArg Muster.fcnt (val_put_same _ i _ _)

end

section
/-! SUPPORT. What the accesses of a stream leave alone, and how far a stream of one row gets (R157, R164 to R166 of spec/10). -/

namespace Sys2Proof.Machine

open Sys2Proof

/-! ## A property that the accesses of a stream keep -/

/-- The reads and writes of a stream keep `P`, each with the release that it makes late, and so does a choice that is free. -/
structure KeptByAccesses (P : State → Prop) : Prop where
  pick : ∀ {s}, P s → P (s.pick 2).2
  read : ∀ {s} (x p ps), P s → P ((s.lateRelease x p).haveRead ps)
  write : ∀ {s} (x p bs), P s → P ((s.lateRelease x p).copyWrite p bs)

namespace KeptByAccesses

section

variable {P : State → Prop} (hP : KeptByAccesses P)

include hP

theorem streamRead {s : State} (h : P s) {x : Transfer} {orig : List Host.Cell} {va len : Nat} {q : List Byte × State}
    (hq : s.streamRead x orig va len = .ok q) : P q.2 := by
  unfold State.streamRead at hq
  split at hq
  · cases hq
  · rcases ite_eq_iff.1 hq with ⟨_, hq⟩ | ⟨_, hq⟩
    · cases hq
    · split at hq
      · cases hq
      · cases hq
        refine List.foldlRecOn (motive := fun q : List Byte × State => P q.2) _ _ (hP.read _ _ _ h) fun q hq e _ => ?_
        dsimp only
        split
        · exact hq
        · exact hP.pick hq

theorem streamWrite {s : State} (h : P s) {x : Transfer} {va : Nat} {bs : List Byte} {t : State}
    (ht : s.streamWrite x va bs = .ok t) : P t := by
  unfold State.streamWrite at ht
  split at ht
  · cases ht
  · cases ht
    exact hP.write _ _ _ h

theorem padScales {s : State} (h : P s) {x : Transfer} {r o n : Nat} {t : State} (ht : s.padScales x r o n = .ok t) : P t := by
  unfold State.padScales at ht
  split at ht
  · cases ht
    exact h
  · refine List.foldlRecOn (motive := fun a : Except Stop State => ∀ t, a = .ok t → P t) _ _
      (fun t e => by cases e; exact h) (fun a ha b _ t e => ?_) t ht
    split at e
    · cases e
    · exact hP.streamWrite (ha _ rfl) e

theorem rawRead {s : State} (h : P s) {x : Transfer} {orig : List Host.Cell} {n va room : Nat} {q : List Byte × State}
    (hq : s.rawRead x orig n va room = .ok q) : P q.2 := by
  induction n generalizing s va room q with
  | zero =>
    cases hq
    exact h
  | succ n ih =>
    unfold State.rawRead at hq
    dsimp only at hq
    split at hq
    · cases hq
    · next hb =>
      have hb := hP.streamRead h hb
      split at hq
      · cases hq
        exact hb
      · split at hq
        · next hc =>
          cases hq
          exact (ih hb hc :)
        · cases hq
          exact hb

theorem rawStep {s : State} (h : P s) {x : Transfer} {orig : List Host.Cell} {r o : Nat} {q : Nat × State}
    (hq : s.rawStep x orig r o = .ok q) : P q.2 := by
  unfold State.rawStep at hq
  extract_lets dst room at hq
  split at hq
  · obtain ⟨t, ht, rfl⟩ := exists_of_map_eq_ok hq
    exact hP.streamWrite h ht
  · split at hq
    · split at hq
      · cases hq
      · next hw =>
        obtain ⟨t, ht, rfl⟩ := exists_of_map_eq_ok hq
        exact hP.padScales (hP.streamWrite h hw) ht
    · dsimp only at hq
      split at hq
      · cases hq
      · next hb =>
        obtain ⟨t, ht, rfl⟩ := exists_of_map_eq_ok hq
        exact hP.streamWrite (hP.rawRead h hb) ht

theorem streamElem {s : State} (h : P s) {x : Transfer} {orig : List Host.Cell} {r e : Nat} {q : Option FVal × State}
    (hq : s.streamElem x orig r e = .ok q) : P q.2 := by
  unfold State.streamElem at hq
  split at hq
  · cases hq
    exact h
  · dsimp only at hq
    split at hq
    · cases hq
    · next hb =>
      have hb := hP.streamRead h hb
      rcases ite_eq_iff.1 hq with ⟨_, hq⟩ | ⟨_, hq⟩
      · generalize hs : State.streamRead _ _ _ _ _ = c at hq
        cases c with
        | error => cases hq
        | ok c =>
          cases hq
          exact hP.streamRead hb hs
      · cases hq
        exact hb

theorem streamElems {s : State} (h : P s) {x : Transfer} {orig : List Host.Cell} {r e n : Nat}
    {q : List (Option FVal) × State} (hq : s.streamElems x orig r e n = .ok q) : P q.2 := by
  induction n generalizing s e q with
  | zero =>
    cases hq
    exact h
  | succ n ih =>
    unfold State.streamElems at hq
    split at hq
    · obtain ⟨p, hp, rfl⟩ := exists_of_map_eq_ok hq
      exact (ih h hp :)
    · split at hq
      · cases hq
      · next he =>
        obtain ⟨p, hp, rfl⟩ := exists_of_map_eq_ok hq
        exact (ih (hP.streamElem h he) hp :)

theorem convStep {s : State} (h : P s) {x : Transfer} {orig : List Host.Cell} {tile ch r o : Nat} {q : Nat × State}
    (hq : s.convStep x orig tile ch r o = .ok q) : P q.2 := by
  unfold State.convStep at hq
  extract_lets ty unit i draw dst room e at hq
  split at hq
  · split at hq
    · cases hq
    · next hb =>
      dsimp only at hq
      split at hq
      · cases hq
      · next hw =>
        have hw := hP.streamWrite (hP.streamElems h hb) hw
        split at hq
        · cases hq
          exact hw
        · obtain ⟨t, ht, rfl⟩ := exists_of_map_eq_ok hq
          exact hP.streamWrite hw ht
  · split at hq
    · cases hq
    · next he =>
      obtain ⟨t, ht, rfl⟩ := exists_of_map_eq_ok hq
      exact hP.streamWrite (hP.streamElem h he) ht

/-- A stream keeps `P`, and of its transfer it changes only how far that has come. -/
theorem stream {s : State} (h : P s) (orig : List Host.Cell) (tile ch fuel : Nat) (x : Transfer) :
    P (s.stream orig tile ch fuel x).1 ∧ ∃ d, (s.stream orig tile ch fuel x).2.1 = { x with done := d } := by
  induction fuel generalizing s x with
  | zero => exact ⟨h, x.done, rfl⟩
  | succ fuel ih =>
    unfold State.stream
    split
    · exact ⟨h, x.done, rfl⟩
    · extract_lets r o res
      have hres : ∀ n t, res = .ok (n, t) → P t := by
        intro n t ht
        unfold res at ht
        split at ht
        · exact hP.rawStep h ht
        · exact hP.rawStep h ht
        · exact hP.convStep h ht
      generalize res = y at hres ⊢
      cases y with
      | error => exact ⟨h, x.done, rfl⟩
      | ok p => exact ih (hres _ _ rfl) _

theorem streamSector {s : State} (h : P s) (orig : List Host.Cell) (tile ch fuel : Nat) (x : Transfer) :
    P (s.streamSector orig tile ch fuel x).1 ∧ ∃ d, (s.streamSector orig tile ch fuel x).2 = { x with done := d } := by
  induction fuel generalizing s x with
  | zero => exact ⟨h, x.done, rfl⟩
  | succ fuel ih =>
    have one := hP.stream h orig tile ch 1 x
    unfold State.streamSector
    split
    · exact ⟨h, x.done, rfl⟩
    · generalize s.stream orig tile ch 1 x = r at one
      obtain ⟨t, y, stop⟩ := r
      obtain ⟨ht, d, rfl⟩ := one
      cases stop with
      | none => exact ih ht _
      | some => exact ⟨ht, d, rfl⟩

end

end KeptByAccesses

/-! ## What an access of a stream leaves alone -/

/-- A slot but for its monitors and what a remote write that is lost or overtaken marks. -/
def Slot.offStream (x : Slot) : Slot := { x with mon := [], lost := none, park := { x.park with newer := [], dead := false } }

/-- The package but for memory, links and what follows a store; and the issuing slot, with the same exceptions. -/
def State.offStream (s : State) : State × Slot := (s.noLinks, s.me.offStream)

section

variable (s : State)

theorem State.ask_offStream (r : Config.Request) : (s.ask r).offStream = s.offStream := by
  unfold State.ask
  dsimp only
  split <;> rfl

theorem State.settle_offStream (ps : List Piece) : (s.settle ps).offStream = s.offStream := by
  unfold State.settle
  split <;> rfl

theorem State.pick_offStream (n : Nat) : (s.pick n).2.offStream = s.offStream := by
  unfold State.pick
  split <;> rfl

theorem State.write_offStream (pa : Nat) (bs : List Byte) (a : Attr) : (s.write pa bs a).offStream = s.offStream :=
  Prod.ext (congrArg State.noLinks (s.write_noStores pa bs a) :)
    (show (s.write pa bs a).me.offStream = s.me.offStream by rw [s.write_me pa bs a]; rfl)

theorem Slot.offStream_overtaken (p : Piece) (x : Slot) : (x.overtaken p).offStream = x.offStream := by
  unfold Slot.overtaken
  split
  · split <;> rfl
  · rfl

theorem State.overtake_offStream (p : Piece) : (s.overtake p).offStream = s.offStream := by
  unfold State.overtake
  split
  · refine Prod.ext rfl ((congrArg Slot.offStream (s.slot_onAllSlots ?_ s.agent)).trans (Slot.offStream_overtaken p _))
    rfl
  · rfl

theorem State.loseWrite_offStream (tids : List Nat) (va : Word) : (s.loseWrite tids va).offStream = s.offStream := by
  refine foldl_same State.offStream (fun s t => s.onTid t fun x => { x with lost := some va }) (fun u tid => Prod.ext rfl ?_) tids s
  refine (congrArg Slot.offStream (u.slot_onTid tid _ u.agent)).trans ?_
  split <;> rfl

theorem State.loseLate_offStream (tids : List Nat) : (s.loseLate tids).offStream = s.offStream := by
  unfold State.loseLate
  dsimp only
  split
  · rfl
  · exact foldl_same State.offStream (fun (s : State) (w : RemoteWrite) => s.loseWrite w.tids w.va)
      (fun s w => s.loseWrite_offStream w.tids w.va) _ _

theorem State.lateRelease_offStream (x : Transfer) (p : Piece) : (s.lateRelease x p).offStream = s.offStream := by
  unfold State.lateRelease
  split
  · exact s.loseLate_offStream _
  · rfl

theorem State.haveRead_offStream (ps : List Piece) : (s.haveRead ps).offStream = s.offStream :=
  (foldl_same State.offStream (fun (s : State) (p : Piece) => s.ask (.read p.pa p.len)) (fun s _ => s.ask_offStream _) _ _).trans
    (s.settle_offStream ps)

theorem State.copyWrite_offStream (p : Piece) (bs : List Byte) : (s.copyWrite p bs).offStream = s.offStream := by
  unfold State.copyWrite
  split
  · exact (State.write_offStream ..).trans ((State.overtake_offStream ..).trans ((State.ask_offStream ..).trans
      (s.settle_offStream [p])))
  · exact s.write_offStream ..

theorem keptByAccesses_offStream : KeptByAccesses fun t => t.offStream = s.offStream where
  pick h := (State.pick_offStream ..).trans h
  read x p _ h := (State.haveRead_offStream ..).trans ((State.lateRelease_offStream _ x p).trans h)
  write x p _ h := (State.copyWrite_offStream ..).trans ((State.lateRelease_offStream _ x p).trans h)

end

section

variable {s t : State} (h : t.offStream = s.offStream)

include h

theorem State.agent_of_offStream : t.agent = s.agent := congrArg (·.1.agent) h

theorem State.chan_of_offStream (tile ch : Nat) : t.chan tile ch = s.chan tile ch := congrArg (·.1.chan tile ch) h

theorem State.once_of_offStream : t.me.park.once = s.me.park.once := congrArg (·.2.park.once) h

theorem State.complete_pc_of_offStream : t.me.complete.pc = s.me.complete.pc := by
  simp only [Slot.complete_pc]
  exact congrArg (·.2.loopNext.2) h

end

end Sys2Proof.Machine

end

section
/-! O37 of APPROVED.json: DCAN and DCAN.RESUME (R158 and R170 of spec/10). -/

namespace Sys2Proof.Machine

open Sys2Proof

/-! ## A channel -/

@[simp] theorem State.chan_onChan (s : State) (tile ch : Nat) (f : Channel → Channel) :
    (s.onChan tile ch f).chan tile ch = f (s.chan tile ch) := by
  rw [State.chan, State.onChan, State.tile_onTile, val_put_same]
  rfl

theorem State.taken_chan (s : State) (srcs : List Src) (tile ch : Nat) : (s.taken srcs).chan tile ch = s.chan tile ch := by
  rw [State.chan, State.taken_tile, State.chan]

theorem Channel.idle_iff {c : Channel} : c.idle = true ↔ c.mode = .busy ∧ c.queue = [] := by
  simp [Channel.idle]

/-! ## A cancel (R158, R170) -/

/-- The running transfer, where the cancel from id `i` reaches it, has stopped after the destination sector that it was writing
(R170, log 3). -/
def State.headStopped (s : State) (tile ch i : Nat) : State :=
  match (s.chan tile ch).queue with
  | x :: _ =>
    if x.id < i then s
    else
      let p := s.pick (x.total + 1)
      match (s.chan tile ch).mode with
      | .busy =>
        let r := p.2.stream s.mem tile ch p.1 x
        let q := r.1.streamSector s.mem tile ch 64 r.2.1
        q.1.headProgress tile ch q.2 x.done id
      | .parked | .failed => p.2
  | [] => s

/-- The channel without its transfers from id `i` on; it remembers the ids from there on that are given. -/
def Channel.cancelled (c : Channel) (i : Nat) : Channel :=
  let hit := c.mode != .busy && decide (i ≤ c.failId)
  ({ c with
    sr := c.sr + (((c.queue.head?).filter fun x => i ≤ x.id && x.done != 0).map (·.draws)).getD 0
    queue := c.queue.filter fun x => decide (x.id < i)
    mode := if hit then .busy else c.mode
    failId := if hit then 0 else c.failId
    failCause := if hit then 0 else c.failCause
    can := some (i, c.next.toNat - 1) } : Channel).settle

theorem Channel.cancelled_ids (c : Channel) (i : Nat) :
    (c.cancelled i).queue.map (·.id) = (c.queue.map (·.id)).filter (· < i) := by
  rw [List.filter_map]
  rfl

section

variable {s u : State} {tile ch i : Nat}

theorem State.cancelChannel_noEffect (h : (s.chan tile ch).next.toNat ≤ i ∨ (s.chan tile ch).mode = .busy ∧ (s.chan tile ch).queue = []) :
    s.cancelChannel tile ch i = s := by
  refine if_pos ?_
  rw [Bool.or_eq_true, decide_eq_true_eq, Channel.idle_iff]
  exact h

theorem State.cancelChannel_takes (hi : i < (s.chan tile ch).next.toNat)
    (hidle : ¬((s.chan tile ch).mode = .busy ∧ (s.chan tile ch).queue = [])) : s.cancelChannel tile ch i =
      (s.headStopped tile ch i).onChan tile ch (·.cancelled i) := by
  have reached : ¬(decide ((s.chan tile ch).next.toNat ≤ i) || (s.chan tile ch).idle) = true := by
    rw [Bool.or_eq_true, decide_eq_true_eq, Channel.idle_iff]
    exact fun h => h.elim (Nat.not_le.2 hi) hidle
  unfold State.cancelChannel
  dsimp only
  rw [if_neg reached]
  rfl

/-- `u` is `s` after its transfer at the head of the channel has gone on: the issuing slot goes on from where it stands, and the channel
has the same transfers. -/
structure State.HeadMoved (tile ch : Nat) (s u : State) : Prop where
  agent : u.agent = s.agent
  once : u.me.park.once = s.me.park.once
  complete_pc : u.me.complete.pc = s.me.complete.pc
  ids : (u.chan tile ch).queue.map (·.id) = (s.chan tile ch).queue.map (·.id)
  next : (u.chan tile ch).next = (s.chan tile ch).next

theorem State.HeadMoved.ofOffStream (h : u.offStream = s.offStream) : State.HeadMoved tile ch s u where
  agent := State.agent_of_offStream h
  once := State.once_of_offStream h
  complete_pc := State.complete_pc_of_offStream h
  ids := by rw [State.chan_of_offStream h]
  next := by rw [State.chan_of_offStream h]

theorem State.HeadMoved.headProgress {x : Transfer} {rest : List Transfer} (hq : (s.chan tile ch).queue = x :: rest)
    (h : u.offStream = s.offStream) (d before : Nat) : State.HeadMoved tile ch s (u.headProgress tile ch { x with done := d } before id) where
  agent := State.agent_of_offStream (t := u) h
  once := State.once_of_offStream (t := u) h
  complete_pc := State.complete_pc_of_offStream (t := u) h
  ids := by
    rw [State.headProgress, State.chan_onChan, State.chan_of_offStream h, hq]
    rfl
  next := by
    rw [State.headProgress, State.chan_onChan, State.chan_of_offStream h]
    rfl

theorem State.headMoved_headStopped (s : State) (tile ch i : Nat) : State.HeadMoved tile ch s (s.headStopped tile ch i) := by
  unfold State.headStopped
  split
  · next x rest hq =>
    split
    · exact .ofOffStream rfl
    · dsimp only
      have picked := s.pick_offStream (x.total + 1)
      split
      · have keeps := keptByAccesses_offStream s
        obtain ⟨streamed, d, hd⟩ := keeps.stream picked s.mem tile ch (s.pick (x.total + 1)).1 x
        obtain ⟨finished, d', hd'⟩ := keeps.streamSector streamed s.mem tile ch 64
          ((s.pick (x.total + 1)).2.stream s.mem tile ch (s.pick (x.total + 1)).1 x).2.1
        rw [hd'.trans (by rw [hd])]
        exact .headProgress hq finished d' x.done
      · exact .ofOffStream picked
      · exact .ofOffStream picked
  · exact .ofOffStream rfl

/-- Where the cancel does not reach the head, nothing is written. -/
theorem State.headStopped_beyond (h : ∀ x ∈ (s.chan tile ch).queue, x.id < i) : s.headStopped tile ch i = s := by
  unfold State.headStopped
  split
  · next x rest hq => exact if_pos (h x (hq ▸ List.mem_cons_self))
  · rfl

end

section

variable {s : State} (h : s.atStart) {gd : Guard} (hg : s.me.guardOk gd = true) (ch : Fin 16)

include h hg

theorem execDcan_cancels {b : Src} (hc : s.canRun [b] []) : exec (.dcan gd ch b) s =
    ((s.taken [b]).cancelChannel (Stmt.tileNum s) ch.val (Nat.max 1 (arg (s.vals [b]) 0).toNat)).done := by
  rw [show exec (.dcan gd ch b) s = execDcan gd ch b s from rfl, execDcan, State.guarded_true _ _ _ hg, State.operands_run s _ _ _ h hc,
    State.myTileNum, State.taken_agent]
  rfl

theorem execDcanResume_resumes : exec (.dcanResume gd ch) s = .next ((s.onChan (Stmt.tileNum s) ch.val fun c =>
    { c with mode := if c.mode = .parked then .busy else c.mode }).onMe Slot.complete) :=
  (State.guarded_true _ _ (fun s => (s.onChan s.myTileNum ch.val _).done) hg).trans (State.done_alone _ h.2.2)

/-- A cancel that takes effect: what it leaves of the channel and of the issuing slot. -/
theorem execDcan_takes {b : Src} (hc : s.canRun [b] []) {i : Nat} (hi : i = Nat.max 1 (arg (s.vals [b]) 0).toNat)
    (hid : i < (s.chan (Stmt.tileNum s) ch.val).next.toNat)
    (hidle : ¬((s.chan (Stmt.tileNum s) ch.val).mode = .busy ∧ (s.chan (Stmt.tileNum s) ch.val).queue = [])) :
    exec (.dcan gd ch b) s = .next ((((s.taken [b]).headStopped (Stmt.tileNum s) ch.val i).onChan (Stmt.tileNum s) ch.val
      (·.cancelled i)).onMe Slot.complete) := by
  have same := s.taken_chan [b] (Stmt.tileNum s) ch.val
  rw [execDcan_cancels h hg ch hc, ← hi, State.cancelChannel_takes (by rwa [same]) (by rwa [same])]
  exact State.done_alone _ ((State.headMoved_headStopped ..).once.trans (s.taken_once [b] h.2.2))

end

end Sys2Proof.Machine

open Sys2Proof Sys2Proof.Machine

/-- Settles O37: what a transfer that is stopped has written by then is free, and its id stays what it was. -/
theorem copyCancelAndResume : Obligations.CopyCancelAndResume := by
  intro gd ch b s h hg tile old
  refine ⟨fun hc => ?_, execDcanResume_resumes h hg ch⟩
  intro i
  refine ⟨fun hno => ?_, fun hid hidle => ?_⟩
  · have same := s.taken_chan [b] tile ch.val
    rw [execDcan_cancels h hg ch hc, State.cancelChannel_noEffect (by rwa [same])]
    exact State.done_alone _ (s.taken_once [b] h.2.2)
  · have moved := State.headMoved_headStopped (s.taken [b]) tile ch.val i
    have chan : ∀ f g, ((((s.taken [b]).headStopped tile ch.val i).onChan tile ch.val f).onMe g).chan tile ch.val =
        f (((s.taken [b]).headStopped tile ch.val i).chan tile ch.val) := fun f g => State.chan_onChan ..
    have same : (s.taken [b]).chan tile ch.val = old := s.taken_chan [b] tile ch.val
    have next := moved.next.trans (congrArg Channel.next same)
    refine ⟨_, execDcan_takes h hg ch hc rfl hid hidle, ?_, ?_, ?_, ?_, fun hall => ?_⟩
    · rw [State.me_onMe]
      exact moved.complete_pc.trans (s.taken_complete_pc [b])
    · rw [chan, Channel.cancelled_ids, moved.ids, same]
    · rw [chan, ← next]
      rfl
    · rw [chan]
      exact next
    · have still := State.headStopped_beyond (s := s.taken [b]) (tile := tile) (ch := ch.val) (i := i) (by rwa [same])
      rw [still]
      exact s.taken_mem [b]

end

section
/-! O38 of APPROVED.json: a transfer of 8 bytes writes, parks at a fault or fails at a bad source sector (R157, R158, R165 and R166 of
spec/10). -/

namespace Sys2Proof.Machine

open Sys2Proof

/-! ## Memory -/

@[simp] theorem State.ask_mem (s : State) (r : Config.Request) : (s.ask r).mem = s.mem := by
  unfold State.ask
  dsimp only
  split <;> rfl

@[simp] theorem State.settle_mem (s : State) (ps : List Piece) : (s.settle ps).mem = s.mem := by
  unfold State.settle
  split <;> rfl

@[simp] theorem State.lateRelease_mem (s : State) (x : Transfer) (p : Piece) : (s.lateRelease x p).mem = s.mem := by
  unfold State.lateRelease
  split
  · exact s.loseLate_mem _
  · rfl

@[simp] theorem State.copyWrite_mem (s : State) (p : Piece) (bs : List Byte) : (s.copyWrite p bs).mem = memWrite s.mem p.pa bs := by
  unfold State.copyWrite
  split <;> simp

/-- The first error of some bytes lies at one of them. -/
theorem State.badIn_at {s : State} {pa n : Nat} {e : Nat × Nat} (h : s.badIn pa n = some e) : e.2 < pa + n := by
  induction n generalizing pa with
  | zero => cases h
  | succ n ih =>
    unfold State.badIn at h
    split at h
    · cases h
      exact Nat.lt_add_of_pos_right (Nat.succ_pos n)
    · exact (ih h).trans_eq (by omega)

/-! ## One step of a stream -/

/-- The transfer moves bytes as they are: a raw copy or a fill. -/
def Transfer.bytewise (x : Transfer) : Prop := x.kind = .raw ∨ ∃ pat, x.kind = .fill pat

theorem Transfer.bytewise.rowLen {x : Transfer} (h : x.bytewise) : x.rowLen = x.cols := by
  rcases h with h | ⟨pat, h⟩ <;> rw [Transfer.rowLen, h]

theorem Transfer.bytewise.counted {x : Transfer} (h : x.bytewise) (d : Nat) : x.counted d = d := by
  rcases h with h | ⟨pat, h⟩ <;> rw [Transfer.counted, h]

section

variable {s u : State} {x : Transfer} {orig : List Host.Cell} {tile ch n fuel : Nat} {e : Stop}

theorem State.stream_whole (h : x.total ≤ x.done) : s.stream orig tile ch fuel x = (s, x, none) := by
  cases fuel with
  | zero => rfl
  | succ fuel => exact if_pos h

/-- The step that a transfer of bytes takes where it stands. -/
theorem State.stream_step (hb : x.bytewise) (h : x.done < x.total) : s.stream orig tile ch (fuel + 1) x =
    match s.rawStep x orig (x.done / x.rowLen) (x.done % x.rowLen) with
    | .error e => (s, x, some e)
    | .ok (n, u) => u.stream orig tile ch fuel { x with done := x.done + n } := by
  rw [State.stream, if_neg (Nat.not_le.2 h)]
  rcases hb with hk | ⟨pat, hk⟩ <;> simp only [hk] <;> rfl

end

/-! ## A transfer of 8 bytes -/

/-- A transfer of one row of 8 bytes that has written none, to an address from which a sector holds them all. -/
structure Transfer.Octet (x : Transfer) : Prop where
  bytewise : x.bytewise
  win : x.win = none
  rows : x.rows = 1
  done : x.done = 0
  cols : x.cols = 8
  fits : x.dst.base % 64 ≤ 56

section

variable {x : Transfer} (h : x.Octet)

include h

theorem Transfer.Octet.total : x.total = 8 := by rw [Transfer.total, h.rows, h.bytewise.rowLen, h.cols]

variable {s u : State} {tile ch : Nat} {rest : List Transfer}

/-- The whole of it is one step. -/
theorem Transfer.Octet.stream_of_error {e : Stop} (hs : s.rawStep x s.mem 0 0 = .error e) :
    s.stream s.mem tile ch (x.total + 1) x = (s, x, some e) := by
  rw [State.stream_step h.bytewise (by rw [h.done, h.total]; decide), h.done, Nat.zero_div, Nat.zero_mod, hs]

theorem Transfer.Octet.stream_of_ok (hs : s.rawStep x s.mem 0 0 = .ok (8, u)) :
    s.stream s.mem tile ch (x.total + 1) x = (u, { x with done := 8 }, none) := by
  rw [State.stream_step h.bytewise (by rw [h.done, h.total]; decide), h.done, Nat.zero_div, Nat.zero_mod, hs]
  exact State.stream_whole h.total.le

theorem Transfer.Octet.room : Nat.min (x.cols - 0) (64 - (x.dst.base + 0 * x.dst.stride + 0) % 64) = 8 := by
  have := h.fits
  rw [h.cols, Nat.zero_mul, Nat.add_zero]
  exact Nat.min_eq_left (by omega)

/-- A fill writes its pattern, lowest byte first. -/
theorem Transfer.Octet.rawStep_fill {pat : Word} (hk : x.kind = .fill pat) (orig : List Host.Cell) :
    s.rawStep x orig 0 0 = (s.streamWrite x x.dst.base (leBytes pat.toNat 8)).map fun u => (8, u) := by
  have bytes : ((List.range 8).map fun i => BitVec.ofNat 8 (pat.toNat / 256 ^ ((0 + i) % 8))) = leBytes pat.toNat 8 := by
    simp [List.range, List.range.loop, leBytes, Nat.div_div_eq_div_mul]
  unfold State.rawStep
  dsimp only
  rw [h.room, hk]
  dsimp only
  rw [bytes, Nat.zero_mul, Nat.add_zero]

/-- A raw copy reads its source first; the bytes of one sector fail together (R166). -/
theorem Transfer.Octet.rawStep_bad (hk : x.kind = .raw) (hdq : x.dq = false) (hsrc : x.src.base % 64 ≤ 56) {orig : List Host.Cell}
    {p : Piece} (hp : s.streamAccess x x.src.base 8 false = .ok p) {e : Nat × Nat} (he : s.badIn p.pa 8 = some e) :
    s.rawStep x orig 0 0 = .error (.error (x.src.base / 64 * 64) e.1) := by
  have row : x.srcRow 0 = some (x.src.base, 0, 0) := by simp [Transfer.srcRow, h.win]
  have sector : (x.src.base + (e.2 - p.pa)) / 64 * 64 = x.src.base / 64 * 64 := by
    have := State.badIn_at he
    omega
  have read : s.streamRead x orig x.src.base 8 = .error (.error (x.src.base / 64 * 64) e.1) := by
    simp only [State.streamRead, hp, hdq, he, sector, Bool.false_and, Bool.false_eq_true, if_false]
  have len : Nat.min 8 (64 - x.src.base % 64) = 8 := Nat.min_eq_left (by omega)
  have bytes : s.rawRead x orig 2 x.src.base 8 = .error (.error (x.src.base / 64 * 64) e.1) := by
    rw [State.rawRead, len, read]
  unfold State.rawStep
  dsimp only
  rw [h.room, hk, row]
  dsimp only
  rw [Nat.zero_mul, Nat.zero_div, Nat.add_zero, bytes]

end

/-! ## The transfer at the head of its channel -/

theorem State.headProgress_chan (s : State) (tile ch : Nat) (x : Transfer) (before : Nat) (f : Channel → Channel) :
    (s.headProgress tile ch x before f).chan tile ch = f { s.chan tile ch with
      queue := x :: (s.chan tile ch).queue.drop 1
      wptr := (s.chan tile ch).wptr + BitVec.ofNat 64 (x.counted x.done - x.counted before) } :=
  State.chan_onChan ..

section

variable {s t : State} {tile ch : Nat} {x y : Transfer} {rest : List Transfer}

theorem execTransferDone_done (h : s.runHead tile ch 0 = some (t, y, none)) : execTransferDone tile ch s =
    .next ((t.forget y.asker).headProgress tile ch y (s.headDone tile ch) fun c =>
      ({ c with queue := c.queue.drop 1, sr := c.sr + y.draws } : Channel).settle) := by
  rw [execTransferDone, h]

theorem execStreamFault_parks {va code : Nat} (h : s.runHead tile ch 0 = some (t, y, some (.fault va code))) :
    execStreamFault tile ch s = .next (t.parkStream tile ch y (s.headDone tile ch) va code) := by
  rw [execStreamFault, h]

theorem execSourceError_fails {va code : Nat} (h : s.runHead tile ch 0 = some (t, y, some (.error va code))) :
    execSourceError tile ch s = .next (t.headProgress tile ch y (s.headDone tile ch) fun c =>
      { c with mode := .failed, failId := y.id, failCause := code, faddr := BitVec.ofNat 64 va }) := by
  rw [execSourceError, h]

variable (hm : (s.chan tile ch).mode = .busy) (hq : (s.chan tile ch).queue = x :: rest)

include hq

theorem State.headDone_head : s.headDone tile ch = x.done := by rw [State.headDone, hq]

include hm

theorem State.runHead_head : s.runHead tile ch 0 = some (s.stream s.mem tile ch (x.total + 1) x) := by
  simp only [State.runHead, hm, hq, if_true]

variable (h : x.Octet)

include h

/-- A fill whose access goes through has written its 8 bytes, and the next transfer starts (R157, R158). -/
theorem Transfer.Octet.fill_done {pat : Word} (hk : x.kind = .fill pat) {p : Piece} (hp : s.streamAccess x x.dst.base 8 true = .ok p) :
    ∃ t, execTransferDone tile ch s = .next t ∧ t.mem = memWrite s.mem p.pa (leBytes pat.toNat 8) ∧
      t.chan tile ch = ({ s.chan tile ch with
        queue := rest, wptr := (s.chan tile ch).wptr + 8, sr := (s.chan tile ch).sr + x.draws } : Channel).settle := by
  have written : s.streamWrite x x.dst.base (leBytes pat.toNat 8) =
      .ok ((s.lateRelease x p).copyWrite p (leBytes pat.toNat 8)) := by
    rw [State.streamWrite, leBytes_length, hp]
  have ran := h.stream_of_ok (tile := tile) (ch := ch) ((h.rawStep_fill hk s.mem).trans (congrArg (Except.map _) written))
  have same : (((s.lateRelease x p).copyWrite p (leBytes pat.toNat 8)).forget x.asker).chan tile ch = s.chan tile ch :=
    State.chan_of_offStream ((keptByAccesses_offStream s).write x p (leBytes pat.toNat 8) rfl) tile ch
  have count : ∀ d, ({ x with done := 8 } : Transfer).counted d = d := Transfer.bytewise.counted (x := { x with done := 8 }) h.bytewise
  refine ⟨_, execTransferDone_done ((State.runHead_head hm hq).trans (congrArg some ran)),
    (State.copyWrite_mem ..).trans (by rw [State.lateRelease_mem]), ?_⟩
  refine (State.headProgress_chan ..).trans ?_
  rw [show (((s.lateRelease x p).copyWrite p (leBytes pat.toNat 8)).forget ({ x with done := 8 } : Transfer).asker).chan tile ch =
    s.chan tile ch from same, hq, State.headDone_head hq, h.done, count, count]
  rfl

/-- A transfer that faults at its first access parks, and S7 gets the notice (R165). -/
theorem Transfer.Octet.parks {va code : Nat} (hs : s.rawStep x s.mem 0 0 = .error (.fault va code)) :
    execStreamFault tile ch s = .next (s.parkStream tile ch x x.done va code) := by
  rw [execStreamFault_parks ((State.runHead_head hm hq).trans (congrArg some (h.stream_of_error hs))), State.headDone_head hq]

/-- A transfer whose source is bad at its first byte fails (R166). -/
theorem Transfer.Octet.fails {va code : Nat} (hs : s.rawStep x s.mem 0 0 = .error (.error va code)) :
    execSourceError tile ch s = .next (s.headProgress tile ch x x.done fun c =>
      { c with mode := .failed, failId := x.id, failCause := code, faddr := BitVec.ofNat 64 va }) := by
  rw [execSourceError_fails ((State.runHead_head hm hq).trans (congrArg some (h.stream_of_error hs))), State.headDone_head hq]

end

section

variable (s : State) (tile ch : Nat) (x : Transfer) (before va code : Nat)

theorem State.parkStream_chan : ∃ q w, (s.parkStream tile ch x before va code).chan tile ch = { s.chan tile ch with
    queue := q, wptr := w, mode := .parked, failId := x.id, failCause := code, paddr := BitVec.ofNat 64 va } :=
  ⟨_, _, s.headProgress_chan tile ch x before fun c =>
    { c with mode := .parked, failId := x.id, failCause := code, paddr := BitVec.ofNat 64 va }⟩

theorem State.parkStream_slot : (s.parkStream tile ch x before va code).slot (8 * x.core + 7) =
    { s.slot (8 * x.core + 7) with pend := (s.slot (8 * x.core + 7)).pend ++ [(0x310, BitVec.ofNat 64 va)] } :=
  State.slot_onSlot (s.headProgress tile ch x before fun c =>
    { c with mode := .parked, failId := x.id, failCause := code, paddr := BitVec.ofNat 64 va }) (8 * x.core + 7)
    fun y => { y with pend := y.pend ++ [(0x310, BitVec.ofNat 64 va)] }

end

end Sys2Proof.Machine

open Sys2Proof Sys2Proof.Machine

/-- Settles O38: the 8 bytes lie in one sector of the source and in one of the destination, so one step of the stream decides. -/
theorem transfersWriteParkAndFail : Obligations.TransfersWriteParkAndFail := by
  intro tile ch s x rest hm hq hw hr hd hc hf
  have octet : x.bytewise → x.Octet := fun hb => ⟨hb, hw, hr, hd, hc, hf⟩
  refine ⟨fun pat p hk hp => ?_, fun pat va code hk hp => ?_, fun p e hk hdq hsrc hp he => ?_⟩
  · obtain ⟨t, run, mem, chan⟩ := (octet (.inr ⟨pat, hk⟩)).fill_done hm hq hk hp
    refine ⟨t, run, mem, ?_⟩
    rw [chan]
    exact ⟨rfl, rfl, rfl⟩
  · have oct := octet (.inr ⟨pat, hk⟩)
    have stops : s.rawStep x s.mem 0 0 = .error (.fault va code) := by
      rw [oct.rawStep_fill hk, State.streamWrite, leBytes_length, hp]
      rfl
    obtain ⟨q, w, chan⟩ := s.parkStream_chan tile ch x x.done va code
    refine ⟨_, oct.parks hm hq stops, rfl, ?_⟩
    rw [chan, State.parkStream_slot]
    exact ⟨rfl, rfl, rfl, rfl, rfl⟩
  · have oct := octet (.inl hk)
    refine ⟨_, oct.fails hm hq (oct.rawStep_bad hk hdq hsrc hp he), rfl, ?_⟩
    rw [State.headProgress_chan]
    exact ⟨rfl, rfl, rfl, rfl⟩

end

section
/-! O36 of APPROVED.json: a DWIN that is queued (R160 to R164 and R403 of spec/10). -/

namespace Sys2Proof.Machine

open Sys2Proof

/-! ## What the checks of a copy command read -/

section

variable (s : State) (srcs : List Src)

theorem State.taken_placing_all : (s.taken srcs).placing = s.placing :=
  (congrArg State.placing (s.taken_shell srcs) :)

theorem State.taken_aside : (s.taken srcs).me.aside = s.me.aside :=
  congrArg (fun x : Slot => { x with v := [], k := [], mon := [] }) (s.taken_bare srcs)

theorem State.taken_endFormat (core va : Nat) (f : Format) : (s.taken srcs).endFormat core va f = s.endFormat core va f := by
  simp only [State.endFormat, State.bankFormat_congr (s.taken_agent srcs) (congrArg (·.tiles) (s.taken_shell srcs) :) (s.taken_rep srcs)]

theorem State.taken_layoutOk (core : Nat) (role : LayoutRole) (l : Layout) :
    (s.taken srcs).layoutOk core role l = s.layoutOk core role l := by
  simp only [State.layoutOk, State.taken_endFormat]

theorem State.taken_extentTrap (core asid va len : Nat) : (s.taken srcs).extentTrap core asid va len = s.extentTrap core asid va len := by
  simp only [State.extentTrap, State.place_congr (s.taken_placing_all srcs)]

theorem State.taken_near {va : Word} {n pa : Nat} (h : Stmt.near s va n pa) : Stmt.near (s.taken srcs) va n pa :=
  State.near_congr (s.taken_placing_all srcs) (s.taken_aside srcs) h

end

/-- A record in near memory is read (R162). -/
theorem State.record_near {s : State} {va : Word} {pa : Nat} (h : Stmt.near s va 64 pa) (k : Layout → Out) :
    s.record va k = k (layoutOf (leNat (memRead s.mem pa 64))) := by
  obtain ⟨aligned, place, good⟩ := h
  rcases place with place | place <;> simp [State.record, place, aligned, good]

/-! ## The command is a release (R113 of spec/06, R339 of spec/22) -/

/-- The state once the release has been made. -/
def State.released (s : State) (sys : Bool) : State := if sys then s.acked [s.me.tid] else s

section

variable (s : State) (sys : Bool)

theorem State.released_mem : (s.released sys).mem = s.mem := by
  cases sys <;> rfl

theorem State.released_me : (s.released sys).me = s.me := by
  cases sys <;> rfl

theorem State.released_chan (tile ch : Nat) : (s.released sys).chan tile ch = s.chan tile ch := by
  cases sys <;> rfl

end

/-- No write of the issuing slot waits, is lost or cannot be acknowledged, so that its release goes on at once. -/
structure State.Releasable (s : State) : Prop where
  once : s.me.park.once = false
  lost : s.me.lost = none
  held : s.writesHeld = false
  acked : ∀ e ∈ s.ports, e.2.state = .retrain → ∀ w ∈ e.2.writes, s.me.tid ∉ w.tids

section

variable {s : State} (hs : s.Releasable)

include hs

theorem State.Releasable.unacked (late : Bool) : ∀ e ∈ s.ports, ∀ w ∈ e.2.writes, s.unacked [s.me.tid] late e w = false := by
  intro e he w hw
  by_cases hr : e.2.state = .retrain
  · have absent := hs.acked e he hr w hw
    simp [State.unacked, absent]
  · simp [State.unacked, hr]

theorem State.Releasable.loseLate : s.loseLate [s.me.tid] = s := by
  have none_late : s.ports.flatMap (fun e => e.2.writes.filter (s.unacked [s.me.tid] true e)) = [] := by
    simp only [List.flatMap_eq_nil_iff, List.filter_eq_nil_iff]
    intro e he w hw
    simp [hs.unacked true e he w hw]
  unfold State.loseLate
  rw [none_late]
  rfl

theorem State.Releasable.ackWaits : s.ackWaits [s.me.tid] = false := by
  simp only [State.ackWaits, List.any_eq_false, List.any_eq_true, not_exists, not_and]
  intro e he w hw
  simp [hs.unacked false e he w hw]

theorem State.Releasable.releaseSys (sys : Bool) (k : State → Out) : s.releaseSys sys k = k (s.released sys) := by
  cases sys with
  | false => rfl
  | true =>
    simp only [State.releaseSys, hs.held, s.mirrors_nil hs.once, hs.loseLate, hs.lost, hs.ackWaits, Bool.not_true, Bool.false_eq_true,
      if_false]
    rfl

theorem State.Releasable.taken (srcs : List Src) : (s.taken srcs).Releasable where
  once := s.taken_once srcs hs.once
  lost := (congrArg (·.lost) (s.taken_bare srcs) :).trans hs.lost
  held := (congrArg (·.writesHeld) (s.taken_shell srcs) :).trans hs.held
  acked := by
    rw [show (s.taken srcs).ports = s.ports from congrArg (·.ports) (s.taken_shell srcs), State.taken_tid]
    exact hs.acked

end

/-! ## A copy command is queued (R160) -/

/-- The transfer of a plan, with its channel's next id. -/
def State.transferOf (s : State) (ch : Fin 16) (p : Plan) : Transfer :=
  { id := (s.chan s.myTileNum ch.val).next.toNat, core := s.myCoreNum, asid := s.asidOf s.agent, kind := p.kind, src := p.src, dst := p.dst
    rows := p.rows, cols := p.cols, win := p.win, draws := p.draws, dq := p.wantsDq, done := 0
    tile := s.myTileNum, ch := ch.val, sup := s.me.sup.sinh }

/-- The transfer as it is queued, after the release that it makes. -/
def State.queuedTransfer (s : State) (ch : Fin 16) (p : Plan) : Transfer :=
  { s.transferOf ch p with sys := s.touchesFar s.me.sup.ptroot (s.transferOf ch p) }

theorem State.me_onChan (s : State) (tile ch : Nat) (f : Channel → Channel) : (s.onChan tile ch f).me = s.me := rfl

theorem State.chan_onMe (s : State) (f : Slot → Slot) (tile ch : Nat) : (s.onMe f).chan tile ch = s.chan tile ch := rfl

/-- The state after a copy command that is queued and whose id goes to a register. -/
def State.copyQueued (s : State) (ch : Fin 16) (r : Fin 32) (p : Plan) : State :=
  let x := s.queuedTransfer ch p
  (((s.released x.sys).onChan s.myTileNum ch.val fun c => { c with next := c.next + 1, queue := c.queue ++ [x] }).onMe
    (·.setReg r.val (BitVec.ofNat 64 x.id))).onMe Slot.complete

/-- A raw copy whose extents are in range is queued. -/
theorem State.acceptCopy_raw {s : State} (hs : s.Releasable) (ch : Fin 16) (r : Fin 32) {p : Plan} (hk : p.kind = .raw)
    (hdq : p.wantsDq = false) {e : Nat × Nat} (hf : p.from_ = some e)
    (he : s.extentTrap s.myCoreNum (s.asidOf s.agent) e.1 e.2 = none)
    (ht : s.extentTrap s.myCoreNum (s.asidOf s.agent) p.to_.1 p.to_.2 = none) :
    s.acceptCopy ch (.g r) p = .next (s.copyQueued ch r p) := by
  obtain ⟨kind, src, dst, rows, cols, win, from_, to_, elems, wantsDq⟩ := p
  cases hk
  cases hdq
  cases hf
  have once : ∀ sys f, ((s.released sys).onChan s.myTileNum ch.val f).me.park.once = false := fun sys f =>
    (congrArg (·.park.once) (s.released_me sys) :).trans hs.once
  have room : ∀ k, s.roomFor [.g r] k = k s := fun k => by simp [State.roomFor, State.operandsReady]
  unfold State.acceptCopy
  dsimp only at he ht ⊢
  simp only [he, ht, Bool.false_and, Bool.false_eq_true, if_false, room, hs.releaseSys]
  exact State.doneRegs_one _ r.val _ (once _ _)

theorem Slot.loopNext_setReg (x : Slot) (n : Nat) (v : Word) : (x.setReg n v).loopNext = x.loopNext := by
  unfold Slot.setReg
  split <;> rfl

theorem Slot.reg_setReg_zero (x : Slot) (n : Nat) (v : Word) : (x.setReg n v).reg n = if n = 0 then 0 else v := by
  split
  · next h => rw [h]; rfl
  · next h => exact x.reg_setReg n v h

section

variable (s : State) (ch : Fin 16) (r : Fin 32) (p : Plan)

theorem State.copyQueued_me : (s.copyQueued ch r p).me = (s.me.setReg r.val (BitVec.ofNat 64 (s.queuedTransfer ch p).id)).complete := by
  rw [State.copyQueued, State.me_onMe, State.me_onMe, State.me_onChan, State.released_me]

theorem State.copyQueued_mem : (s.copyQueued ch r p).mem = s.mem := by
  rw [State.copyQueued, State.onMe_mem, State.onMe_mem, State.onChan_mem, State.released_mem]

theorem State.copyQueued_chan : (s.copyQueued ch r p).chan s.myTileNum ch.val = { s.chan s.myTileNum ch.val with
    next := (s.chan s.myTileNum ch.val).next + 1
    queue := (s.chan s.myTileNum ch.val).queue ++ [s.queuedTransfer ch p] } := by
  rw [State.copyQueued, State.chan_onMe, State.chan_onMe, State.chan_onChan, State.released_chan]

end

/-! ## DWIN (R163, R164, R403) -/

/-- The format of the elements that a record stands for. -/
def State.recordFormat (s : State) (core : Nat) (l : Layout) : Format :=
  s.endFormat core l.base { ty := l.ty, table := l.table, rnd := l.rnd }

/-- The bytes of the image of a window, and those of the matrix that it becomes. -/
def State.imageLen (s : State) (core : Nat) (l : Layout) (w : WinGeom) : Nat :=
  (w.ih - 1) * l.stride + rowBytes (s.recordFormat core l).ty (w.iw * w.ch)

def State.matrixLen (s : State) (core : Nat) (d : Layout) : Nat := (d.rows - 1) * d.stride + rowBytes (s.recordFormat core d).ty d.cols

/-- The window of an image record and the operands of DWIN. -/
def Layout.window (l : Layout) (ty tx : Fin 16) (p0 : BitVec 16) : WinGeom :=
  { ch := l.ch, px := l.px, py := l.py, sx := l.sx, sy := l.sy, ow := l.ow, oh := l.oh, iw := l.iw, ih := l.ih
    ty := ty.val, tx := tx.val, p0 := p0.toNat }

/-- The plan of a raw copy of a window. -/
def State.windowPlan (s : State) (l d : Layout) (w : WinGeom) : Plan :=
  let f := s.recordFormat s.myCoreNum l
  let g := s.recordFormat s.myCoreNum d
  { kind := .raw, src := endOf l.base l.stride l.scales f (s.tabOf s.myCoreNum f)
    dst := endOf d.base d.stride d.scales g (s.tabOf s.myCoreNum g), rows := d.rows, cols := rowBytes f.ty d.cols, win := some w
    from_ := some (l.base, s.imageLen s.myCoreNum l w), to_ := (d.base, s.matrixLen s.myCoreNum d), elems := d.rows * d.cols
    wantsDq := l.dq }

/-- Two records and a window that make a raw copy whose extents are in range (R161, R164). -/
structure State.CopiesWindow (s : State) (l d : Layout) (w : WinGeom) : Prop where
  kind : copyKind (s.recordFormat s.myCoreNum l) (s.recordFormat s.myCoreNum d) (paddockOf s.myCoreNum l.base).isSome
    (paddockOf s.myCoreNum d.base).isSome l.dq = some .raw
  dq : l.dq = false
  srcEnd : l.base + s.imageLen s.myCoreNum l w ≤ 2 ^ 64
  dstEnd : d.base + s.matrixLen s.myCoreNum d ≤ 2 ^ 64
  src : s.extentTrap s.myCoreNum (s.asidOf s.agent) l.base (s.imageLen s.myCoreNum l w) = none
  dst : s.extentTrap s.myCoreNum (s.asidOf s.agent) d.base (s.matrixLen s.myCoreNum d) = none

section

variable {s : State} {l d : Layout} {w : WinGeom}

theorem State.CopiesWindow.taken (h : s.CopiesWindow l d w) (srcs : List Src) : (s.taken srcs).CopiesWindow l d w := by
  have core : (s.taken srcs).myCoreNum = s.myCoreNum := congrArg slotCore (s.taken_agent srcs)
  have format : ∀ k, (s.taken srcs).recordFormat s.myCoreNum k = s.recordFormat s.myCoreNum k := fun _ => s.taken_endFormat srcs ..
  have image : (s.taken srcs).imageLen s.myCoreNum l w = s.imageLen s.myCoreNum l w := by rw [State.imageLen, format, State.imageLen]
  have matrix : (s.taken srcs).matrixLen s.myCoreNum d = s.matrixLen s.myCoreNum d := by rw [State.matrixLen, format, State.matrixLen]
  exact {
    kind := by rw [core, format, format]; exact h.kind
    dq := h.dq
    srcEnd := by rw [core, image]; exact h.srcEnd
    dstEnd := by rw [core, matrix]; exact h.dstEnd
    src := by rw [core, image, State.taken_asidOf, State.taken_extentTrap]; exact h.src
    dst := by rw [core, matrix, State.taken_asidOf, State.taken_extentTrap]; exact h.dst }

theorem State.CopiesWindow.recordCopy (h : s.CopiesWindow l d w) (hs : s.Releasable) (ch : Fin 16) (r : Fin 32) :
    s.recordCopy ch (.g r) l d (some w) = .next (s.copyQueued ch r (s.windowPlan l d w)) := by
  have kind := h.kind
  have inRange : ¬(decide (2 ^ 64 < l.base + s.imageLen s.myCoreNum l w) ||
      decide (2 ^ 64 < d.base + s.matrixLen s.myCoreNum d)) = true := by
    rw [decide_eq_false (Nat.not_lt.2 h.srcEnd), decide_eq_false (Nat.not_lt.2 h.dstEnd)]
    exact Bool.false_ne_true
  refine Eq.trans ?_ (State.acceptCopy_raw hs ch r rfl h.dq rfl h.src h.dst)
  unfold State.recordFormat at kind
  unfold State.recordCopy
  dsimp only
  rw [kind]
  exact if_neg inRange

/-- A DWIN whose channel has room and whose records pass R163 plans its copy. -/
theorem execDwin_plans (h : s.atStart) {gd : Guard} (hg : s.me.guardOk gd = true) {b c : Src} {r : Fin 32} (hc : s.canRun [b, c] [.g r])
    {pb pc : Nat} (hb : Stmt.near s (arg (s.vals [b, c]) 0) 64 pb) (hd : Stmt.near s (arg (s.vals [b, c]) 1) 64 pc) (ch : Fin 16)
    (hr : (s.chan s.myTileNum ch.val).queue.length < 8) (el : layoutOf (leNat (memRead s.mem pb 64)) = l)
    (ed : layoutOf (leNat (memRead s.mem pc 64)) = d) (himage : s.layoutOk s.myCoreNum .image l = true)
    (hmatrix : s.layoutOk s.myCoreNum .matrix d = true) (hcols : d.cols = l.ch) (ty tx : Fin 16) (p0 : BitVec 16) :
    exec (.dwin gd ch (.g r) b c ty tx p0) s = (s.taken [b, c]).recordCopy ch (.g r) l d (some (l.window ty tx p0)) := by
  have core : (s.taken [b, c]).myCoreNum = s.myCoreNum := congrArg slotCore (s.taken_agent [b, c])
  have room : ¬8 ≤ ((s.taken [b, c]).chan (s.taken [b, c]).myTileNum ch.val).queue.length := by
    rw [State.taken_chan, State.myTileNum, State.taken_agent]
    exact Nat.not_le.2 hr
  have records : ¬(!(s.taken [b, c]).layoutOk (s.taken [b, c]).myCoreNum .image l ||
      !(s.taken [b, c]).layoutOk (s.taken [b, c]).myCoreNum .matrix d || d.cols != l.ch) = true := by
    rw [core, State.taken_layoutOk, State.taken_layoutOk, himage, hmatrix, hcols, bne_self_eq_false]
    exact Bool.false_ne_true
  rw [show exec (.dwin gd ch (.g r) b c ty tx p0) s = execDwin gd ch (.g r) b c ty tx p0 s from rfl, execDwin, copyCommand,
    State.guarded_true _ _ _ hg, State.operands_run _ _ _ _ h hc, if_neg room, State.record_near (s.taken_near [b, c] hb),
    State.record_near (s.taken_near [b, c] hd), State.taken_mem, el, ed]
  exact if_neg records

end

end Sys2Proof.Machine

open Sys2Proof Sys2Proof.Machine

/-- Settles O36: the checks find what they find before the operands are taken, and the release goes on at once. -/
theorem imageWindowCopyIsQueued : Obligations.ImageWindowCopyIsQueued := by
  intro gd ch r b c ty tx p0 pb pc s h hg hc core l d f g srcLen dstLen old nearB nearC _ hlost hheld hports hroom himage hmatrix hcols
    hkind hdq hsrc hdst hsrcIn hdstIn
  have copies : s.CopiesWindow l d (l.window ty tx p0) := ⟨hkind, hdq, hsrc, hdst, hsrcIn, hdstIn⟩
  have releasable : s.Releasable := ⟨h.2.2, hlost, hheld, hports⟩
  have run := (execDwin_plans h hg hc nearB nearC ch hroom rfl rfl himage hmatrix hcols ty tx p0).trans
    ((copies.taken [b, c]).recordCopy (releasable.taken [b, c]) ch r)
  have tile : (s.taken [b, c]).myTileNum = Stmt.tileNum s := congrArg slotTile (s.taken_agent [b, c])
  have chan : (s.taken [b, c]).chan (s.taken [b, c]).myTileNum ch.val = old := by rw [tile, State.taken_chan]
  have queued := (s.taken [b, c]).copyQueued_chan ch r ((s.taken [b, c]).windowPlan l d (l.window ty tx p0))
  have id : ((s.taken [b, c]).queuedTransfer ch ((s.taken [b, c]).windowPlan l d (l.window ty tx p0))).id = old.next.toNat :=
    congrArg (·.next.toNat) chan
  rw [chan, tile] at queued
  refine ⟨_, _, run, ?_, (State.copyQueued_mem ..).trans (s.taken_mem [b, c]), congrArg Channel.queue queued,
    congrArg Channel.next queued, ?_, id, rfl, rfl, rfl, rfl, rfl⟩
  · rw [State.copyQueued_me, Slot.complete_pc, Slot.loopNext_setReg, ← Slot.complete_pc, State.taken_complete_pc]
  · rw [State.copyQueued_me, Slot.reg_complete, Slot.reg_setReg_zero, id]

end

section
/-! O51 of APPROVED.json: a lane of an ASTEP that stops for good, and a page that arrives (R171, R179, R190 and R407 of spec/11). -/

namespace Sys2Proof.Machine

open Sys2Proof

/-! ## Reading a lane after a lane was written -/

section

variable (s : State)

@[simp] theorem State.lane_onLane (l : Nat) (f : Lane → Lane) : (s.onLane l f).lane l = f (s.lane l) := by
  rw [State.lane, State.onLane, State.core_onCore, val_put_same]
  rfl

theorem State.lane_onLane_other {l m : Nat} (f : Lane → Lane) (h : m ≠ l) : (s.onLane l f).lane m = s.lane m := by
  rw [State.lane, State.onLane, State.lane]
  by_cases hc : m / 8 = l / 8
  · rw [hc, State.core_onCore, val_put_other _ _ _ _ _ (by omega)]
  · rw [State.core_onCore_other _ _ _ _ hc]

theorem State.batches_onLane (l c : Nat) (f : Lane → Lane) : ((s.onLane l f).core c).batches = (s.core c).batches := by
  by_cases hc : c = l / 8
  · rw [hc, State.onLane, State.core_onCore]
  · rw [State.onLane, State.core_onCore_other _ _ _ _ hc]

theorem State.lane_of_onLanes {P : Lane → Prop} {f : Lane → Lane} (hf : ∀ x, P (f x)) {l : Nat} (ls : List Nat)
    (hl : l ∈ ls ∨ P (s.lane l)) : P ((ls.foldl (fun s l => s.onLane l f) s).lane l) := by
  induction ls generalizing s with
  | nil => exact hl.resolve_left List.not_mem_nil
  | cons a ls ih =>
    refine ih _ ?_
    by_cases ha : l = a
    · rw [ha, State.lane_onLane]
      exact .inr (hf _)
    · rw [State.lane_onLane_other s f ha]
      exact hl.imp_left fun h => (List.mem_cons.1 h).resolve_left ha

theorem State.mem_waitingLanes {tile page l : Nat} (ht : l / 64 = tile) (hl : (s.lane l).mode = .parked page) :
    l ∈ s.waitingLanes tile page := by
  refine List.mem_filter.2 ⟨List.mem_map.2 ⟨l % 64, List.mem_range.2 (Nat.mod_lt _ (by omega)), by omega⟩, ?_⟩
  rw [hl, beq_self_eq_true]

end

/-! ## A batch whose last lane stops (R179, R407) -/

/-- A core in which no ASTEP is under way. -/
def Core.batchless (c : Core) : Core := { c with batches := [] }

/-- What the stop of a batch's last lane leaves: the lane idle, the batch gone, the statuses in the thread's register. -/
def State.batchDone (s : State) (lane : Nat) (w : LaneWork) (result : Nat) : State :=
  ((s.onLane lane Lane.rest).onCore (lane / 8) Core.batchless).deliver w.tid w.reg (BitVec.ofNat 64 result)

section

variable {s : State} {lane : Nat} {w : LaneWork}

theorem State.batchStop_last {tid reg mask r0 : Nat} (status : Nat)
    (hb : (s.core (lane / 8)).batches = [⟨tid, reg, mask, 2 ^ (lane % 8), r0, []⟩]) :
    s.batchStop lane tid reg status none =
      (s.onCore (lane / 8) Core.batchless).deliver tid reg (BitVec.ofNat 64 (r0 + status * 2 ^ (8 * (lane % 8)))) := by
  simp [State.batchStop, hb, show Core.batchless = fun c => { c with batches := [] } from rfl]

theorem State.runCommand_settled {budget done mask : Nat} (hc : w.cmd = .step budget done mask)
    (hs : (s.lane lane).status = 2 ∨ (s.lane lane).status = 3) {r0 : Nat}
    (hb : (s.core (lane / 8)).batches = [⟨w.tid, w.reg, mask, 2 ^ (lane % 8), r0, []⟩]) :
    s.runCommand lane (s.lane lane) w = s.batchDone lane w (r0 + (s.lane lane).status * 2 ^ (8 * (lane % 8))) := by
  have settled : ((s.lane lane).status = 2 || (s.lane lane).status = 3) = true := by simpa using hs
  rw [State.runCommand, hc]
  exact (if_pos settled).trans (State.batchStop_last _ ((s.batches_onLane ..).trans hb))

@[simp] theorem State.batchDone_lane (s : State) (lane : Nat) (w : LaneWork) (result : Nat) :
    (s.batchDone lane w result).lane lane = (s.lane lane).rest := by
  rw [← s.lane_onLane lane Lane.rest]
  exact congrArg (fun c : Core => Table.val {} (lane % 8) c.lanes)
    ((s.onLane lane Lane.rest).core_onCore (lane / 8) Core.batchless)

theorem State.batchDone_batches (s : State) (lane : Nat) (w : LaneWork) (result : Nat) :
    ((s.batchDone lane w result).core (lane / 8)).batches = [] :=
  congrArg Core.batches ((s.onLane lane Lane.rest).core_onCore (lane / 8) Core.batchless)

theorem State.batchDone_slot {n : Nat} (hn : (s.slot n).tid = w.tid) (hf : (s.slot n).status ≠ .free) (result : Nat) :
    (s.batchDone lane w result).slot n =
      { (s.slot n).setReg w.reg (BitVec.ofNat 64 result) with eng := (s.slot n).eng - 1 } := by
  rw [State.batchDone, State.deliver, ← hn]
  exact slot_onTid_self rfl hf _

/-- A lane that has accepted or rejected, the last of its batch, takes no further step. -/
theorem execLaneCommandCompletes_settled (hm : (s.lane lane).mode = .running) (hw : (s.lane lane).work = some w)
    {budget done mask : Nat} (hc : w.cmd = .step budget done mask)
    (hs : (s.lane lane).status = 2 ∨ (s.lane lane).status = 3) {r0 : Nat}
    (hb : (s.core (lane / 8)).batches = [⟨w.tid, w.reg, mask, 2 ^ (lane % 8), r0, []⟩]) :
    exec (.laneCommandCompletes lane) s =
      .next ((s.batchDone lane w (r0 + (s.lane lane).status * 2 ^ (8 * (lane % 8)))).forget (.engine (w.eng lane))) := by
  rw [show exec (.laneCommandCompletes lane) s = execLaneCommandCompletes lane s from rfl, execLaneCommandCompletes, hm, hw]
  dsimp only
  rw [State.runCommand_settled hc hs hb, State.batchDone_lane]
  rfl

/-- A register number that no thread has (32 and up) has no full bit to set. -/
theorem Slot.isFull_setReg_eq (x : Slot) {r : Nat} (h : 0 < r) (v : Word) : (x.setReg r v).isFull r = decide (r < 32) := by
  by_cases h32 : r < 32
  · rw [decide_eq_true h32]
    exact x.isFull_setReg ⟨r, h32⟩ v
  · rw [decide_eq_false h32, Slot.isFull, beq_false_of_ne (Nat.ne_of_gt h), Bool.false_or]
    exact BitVec.getLsbD_of_ge _ _ (Nat.le_of_not_lt h32)

end

/-! ## A page that arrives (R190) -/

section

variable {s u : State} {tile page : Nat}

theorem State.haveRead_mem (ps : List Piece) : (s.haveRead ps).mem = s.mem :=
  (foldl_same State.mem (fun (s : State) (p : Piece) => s.ask (.read p.pa p.len))
    (fun s p => by unfold State.ask; dsimp only; split <;> rfl) _ _).trans (by unfold State.settle; split <;> rfl)

theorem State.fillPage_mem {who : Asker} {tag : Nat} (h : s.fillPage who tile tag = .ok u) : u.mem = s.mem := by
  unfold State.fillPage at h
  extract_lets core va asid at h
  split at h
  · cases h
  · dsimp only at h
    split at h
    · cases h
      exact State.haveRead_mem _
    · cases h
      exact (State.pick_mem ..).trans (State.haveRead_mem _)

/-- A page that the loft does not hold and some lane waits for is filled, and those lanes run. -/
theorem execLoftFillArrives_filled (hl : s.waitingLanes tile page ≠ []) (habs : (s.tile tile).loft.any (·.tag == page) = false)
    (hu : s.fillPage (.loft tile page) tile page = .ok u) :
    exec (.loftFillArrives tile page) s =
      .next ((s.waitingLanes tile page).foldl (fun s l => s.onLane l fun x => { x with mode := .running })
        (u.forget (.loft tile page))) := by
  rw [show exec (.loftFillArrives tile page) s = execLoftFillArrives tile page s from rfl, execLoftFillArrives]
  dsimp only
  rw [List.isEmpty_eq_false_iff.2 hl, habs, hu]
  rfl

theorem State.onLanes_tile (ls : List Nat) (f : Lane → Lane) (t : Nat) :
    (ls.foldl (fun s l => s.onLane l f) s).tile t = s.tile t :=
  foldl_same (State.tile · t) (fun s l => s.onLane l f) (fun _ _ => rfl) ls s

theorem State.onLanes_mem (ls : List Nat) (f : Lane → Lane) : (ls.foldl (fun s l => s.onLane l f) s).mem = s.mem :=
  foldl_same State.mem (fun s l => s.onLane l f) (fun _ _ => rfl) ls s

end

end Sys2Proof.Machine

open Sys2Proof Sys2Proof.Machine

/-- Settles O51: a lane's status is tested before its first symbol; a fill leaves memory as it was, and each lane that waits is woken. -/
theorem lanesStopAndRunAgain : Obligations.LanesStopAndRunAgain := by
  refine ⟨fun c j n budget done mask tid reg r0 sup s hj hm hw hs hb hn hf hr => ?_, fun tile page l s u ht hl habs hu => ?_⟩
  · generalize hlane : 8 * c + j = lane at hm hw hs ⊢
    obtain rfl : lane / 8 = c := by omega
    obtain rfl : lane % 8 = j := by omega
    let w : LaneWork := ⟨.step budget done mask, tid, reg, sup⟩
    let result := r0 + (s.lane lane).status * 2 ^ (8 * (lane % 8))
    have rests := s.batchDone_lane lane w result
    have answered := State.batchDone_slot (lane := lane) (w := w) hn hf result
    refine ⟨_, execLaneCommandCompletes_settled hm hw rfl hs hb, congrArg Lane.mode rests, congrArg Lane.work rests,
      s.batchDone_batches lane w result, ?_, ?_, rfl⟩
    · exact (congrArg (Slot.isFull · reg) answered).trans (Slot.isFull_setReg_eq _ hr _)
    · exact (congrArg (Slot.reg · reg) answered).trans (Slot.reg_setReg _ reg _ (Nat.ne_of_gt hr))
  · have waits := s.mem_waitingLanes ht hl
    have mem := State.fillPage_mem hu
    exact ⟨_, execLoftFillArrives_filled (List.ne_nil_of_mem waits) habs hu,
      State.lane_of_onLanes (P := (·.mode = .running)) _ (fun _ => rfl) _ (.inl waits),
      State.onLanes_tile .., (State.onLanes_mem ..).trans mem⟩

end

section
/-! O52 of APPROVED.json: the head of a diagram space's queue, and a node's record in HBM (R200, R207, R212, R213, R415 and R425 of
spec/12). -/

namespace Sys2Proof.Machine

open Sys2Proof

/-! ## Bytes of a record -/

theorem memRead_take (m : List Host.Cell) (a : Nat) {k n : Nat} (h : k ≤ n) : (memRead m a n).take k = memRead m a k := by
  induction k generalizing a n with
  | zero => rfl
  | succ k ih =>
    obtain ⟨n, rfl⟩ := Nat.exists_eq_add_of_le' (Nat.one_le_of_lt h)
    rw [memRead, memRead, List.take_succ_cons, ih _ (Nat.le_of_succ_le_succ h)]

theorem leBytes_take (v : Nat) {k n : Nat} (h : k ≤ n) : (leBytes v n).take k = leBytes v k := by
  induction k generalizing v n with
  | zero => rfl
  | succ k ih =>
    obtain ⟨n, rfl⟩ := Nat.exists_eq_add_of_le' (Nat.one_le_of_lt h)
    rw [leBytes, leBytes, List.take_succ_cons, ih _ (Nat.le_of_succ_le_succ h)]

/-- What stands above the bytes that are taken does not show in them. -/
theorem leBytes_add_mul (v c n : Nat) : leBytes (v + c * 256 ^ n) n = leBytes v n := by
  induction n generalizing v with
  | zero => rfl
  | succ n ih =>
    have low : BitVec.ofNat 8 (v + c * 256 ^ n * 256) = BitVec.ofNat 8 v :=
      BitVec.eq_of_toNat_eq (by rw [BitVec.toNat_ofNat, BitVec.toNat_ofNat]; exact Nat.add_mul_mod_self_right ..)
    rw [Nat.pow_succ, ← Nat.mul_assoc, leBytes, low, Nat.add_mul_div_right _ _ (by decide), ih, leBytes]

/-- A record without its CHAIN (R200). -/
theorem Node.record_take (y : Node) (chain : BitVec 32) :
    (y.record chain).take 12 = leBytes (y.var + y.ref * 2 ^ 16 + y.low * 2 ^ 32 + y.high * 2 ^ 64) 12 := by
  rw [Node.record, leBytes_take _ (by decide)]
  exact leBytes_add_mul _ chain.toNat 12

/-! ## The table of nodes -/

section

variable {α : Type} {k : Nat} {v : α} {t : Table α}

theorem exists_key_put {e : Nat × α} (h : e ∈ t) : ∃ f ∈ Table.put k v t, f.1 = e.1 := by
  induction t with
  | nil => exact absurd h List.not_mem_nil
  | cons c t ih =>
    obtain ⟨k', v'⟩ := c
    rw [Table.put]
    split
    · exact ⟨e, List.mem_cons_of_mem _ h, rfl⟩
    · split
      · rename_i hk
        rcases List.mem_cons.1 h with rfl | h
        · exact ⟨(k, v), List.mem_cons_self, hk.symm⟩
        · exact ⟨e, List.mem_cons_of_mem _ h, rfl⟩
      · rcases List.mem_cons.1 h with rfl | h
        · exact ⟨_, List.mem_cons_self, rfl⟩
        · obtain ⟨f, hf, hfe⟩ := ih h
          exact ⟨f, List.mem_cons_of_mem _ hf, hfe⟩

/-- Of a table in which one entry was put, a test that no former entry passes leaves that entry alone. -/
theorem filter_put {p : Nat × α → Bool} (hp : p (k, v) = true) (ht : ∀ e ∈ t, p e = false) :
    (Table.put k v t).filter p = [(k, v)] := by
  induction t with
  | nil => exact List.filter_cons_of_pos hp
  | cons c t ih =>
    obtain ⟨k', v'⟩ := c
    obtain ⟨hc, ht⟩ := List.forall_mem_cons.1 ht
    have none : t.filter p = [] := List.filter_eq_nil_iff.2 fun e he => by simp [ht e he]
    rw [Table.put]
    split
    · rw [List.filter_cons_of_pos hp, List.filter_cons_of_neg (by simp [hc]), none]
    · split
      · rw [List.filter_cons_of_pos hp, none]
      · rw [List.filter_cons_of_neg (by simp [hc]), ih ht]

end

theorem Space.freed_nil {old new : Space} (h : ∀ e ∈ old.nodes, ∃ f ∈ new.nodes, f.1 = e.1) :
    (old.nodes.filter fun e => new.nodes.all fun f => f.1 != e.1) = [] :=
  List.filter_eq_nil_iff.2 fun e he hall => by
    obtain ⟨f, hf, hfe⟩ := h e he
    exact bne_iff_ne.1 (List.all_eq_true.1 hall f hf) hfe

theorem State.putNodes_same (s : State) {old new : Space} (h : new.nodes = old.nodes) : s.putNodes old new = s := by
  have changed : (new.nodes.filter fun e => !old.nodes.contains e) = [] :=
    List.filter_eq_nil_iff.2 fun e he => by simpa [← h] using he
  rw [State.putNodes, Space.freed_nil (by rw [h]; exact fun e he => ⟨e, he, rfl⟩), changed]
  exact ite_self s

/-- A new or changed node is the one record that is written (R200). -/
theorem State.putNodes_put (s : State) {sp : Space} {i : Nat} {y : Node} (hin : sp.inHbm = true) (hnew : (i, y) ∉ sp.nodes) :
    s.putNodes sp { sp with nodes := Table.put i y sp.nodes } =
      s.store (sp.tbase + 16 * i) (y.record (Config.freeChain i s.clock.toNat)) := by
  have changed : ((Table.put i y sp.nodes).filter fun e => !sp.nodes.contains e) = [(i, y)] :=
    filter_put (by simpa using hnew) (fun e he => by simpa using he)
  have here : ({ sp with nodes := Table.put i y sp.nodes } : Space).inHbm = true := hin
  rw [State.putNodes, here, Space.freed_nil fun e he => exists_key_put he, changed]
  rfl

@[simp] theorem State.putNodes_ctxs (s : State) (old new : Space) : (s.putNodes old new).ctxs = s.ctxs := by
  unfold State.putNodes
  split
  · rfl
  · exact (foldl_same State.ctxs _ (fun _ _ => State.store_ctxs ..) _ _).trans
      (foldl_same State.ctxs _ (fun _ _ => State.store_ctxs ..) _ _)

/-! ## A space is set -/

section

variable {s : State} {die asid : Nat} {old : Space}

theorem State.space_of_ctx {c : Ctx} (h : s.ctx asid = some c) : s.space die asid = Table.val none die c.spaces := by
  rw [State.space, h]

theorem State.exists_ctx_of_space (h : s.space die asid = some old) : ∃ c, s.ctx asid = some c := by
  cases hc : s.ctx asid with
  | none => rw [State.space, hc] at h; exact absurd h nofun
  | some c => exact ⟨c, rfl⟩

theorem State.ctx_onCtx {c : Ctx} (h : s.ctx asid = some c) (f : Ctx → Ctx) : (s.onCtx asid f).ctx asid = some (f c) := by
  rw [State.onCtx, h]
  exact val_put_same ..

variable (h : s.space die asid = some old) (x : Space)

include h

theorem State.setSpace_eq : s.setSpace die asid x =
    (s.putNodes old x).onCtx asid fun c => { c with spaces := Table.put die (some x) c.spaces } := by
  rw [State.setSpace, h]

theorem State.setSpace_space : (s.setSpace die asid x).space die asid = some x := by
  obtain ⟨c, hc⟩ := State.exists_ctx_of_space h
  have kept : (s.putNodes old x).ctx asid = some c := by rw [State.ctx, State.putNodes_ctxs]; exact hc
  rw [State.setSpace_eq h, State.space_of_ctx (State.ctx_onCtx kept _)]
  exact val_put_same ..

theorem State.setSpace_mem : (s.setSpace die asid x).mem = (s.putNodes old x).mem := by
  rw [State.setSpace_eq h, State.onCtx_mem]

variable {x} (hn : x.nodes = old.nodes)

include hn

theorem State.setSpace_mem_same : (s.setSpace die asid x).mem = s.mem := by
  rw [State.setSpace_mem h, State.putNodes_same s hn]

theorem State.setSpace_slot_same (n : Nat) : (s.setSpace die asid x).slot n = s.slot n := by
  rw [State.setSpace_eq h, State.putNodes_same s hn, State.slot, State.onCtx_slots, State.slot]

end

/-! ## An operation ends (R207, R213) -/

section

variable {s : State} {n : Nat} {w : DdWork}

/-- A thread's slot once its operation has ended with `r` for register `reg`. -/
def Slot.ddEnded (x : Slot) (reg : Nat) (r : Word) : Slot := { x.setReg reg r with dde := x.dde - 1 }

@[simp] theorem Slot.ddEnded_tid (x : Slot) (reg : Nat) (r : Word) : (x.ddEnded reg r).tid = x.tid := x.setReg_tid reg r

@[simp] theorem Slot.ddEnded_status (x : Slot) (reg : Nat) (r : Word) : (x.ddEnded reg r).status = x.status := x.setReg_status reg r

@[simp] theorem Slot.ddEnded_pend (x : Slot) (reg : Nat) (r : Word) : (x.ddEnded reg r).pend = x.pend := x.setReg_pend reg r

theorem Slot.ddEnded_reg (x : Slot) {reg : Nat} (h : 0 < reg) (r : Word) : (x.ddEnded reg r).reg reg = r :=
  x.reg_setReg reg r (Nat.ne_of_gt h)

theorem Slot.ddEnded_isFull (x : Slot) {reg : Nat} (h : reg < 32) (r : Word) : (x.ddEnded reg r).isFull reg = true :=
  x.isFull_setReg ⟨reg, h⟩ r

theorem State.space_onTid (s : State) (tid : Nat) (f : Slot → Slot) (die asid : Nat) :
    (s.onTid tid f).space die asid = s.space die asid := by
  let imaged : Ctx → Ctx := fun c =>
    { c with images := c.images.map fun i => (i.1, { i.2 with slots := onTidIn tid f i.2.slots }) }
  have ctx : (s.onTid tid f).ctx asid = (s.ctx asid).map imaged :=
    val_map (d := (none : Option Ctx)) (g := Option.map imaged) rfl asid s.ctxs
  rw [State.space, ctx, State.space]
  cases s.ctx asid <;> rfl

@[simp] theorem State.ddEnd_mem (s : State) (w : DdWork) (r : Word) : (s.ddEnd w r).mem = s.mem := rfl

@[simp] theorem State.ddAbandon_mem (s : State) (w : DdWork) (code : Nat) (taddr : Word) :
    (s.ddAbandon w code taddr).mem = s.mem := rfl

theorem State.ddEnd_space (s : State) (w : DdWork) (r : Word) (die asid : Nat) :
    (s.ddEnd w r).space die asid = s.space die asid :=
  State.space_onTid ..

variable (hn : (s.slot n).tid = w.tid) (hf : (s.slot n).status ≠ .free) {reg : Nat} (hr : w.reg = some reg)

include hn hf hr

theorem State.ddEnd_slot (r : Word) : (s.ddEnd w r).slot n = (s.slot n).ddEnded reg r := by
  rw [State.ddEnd, hr, ← hn]
  exact (slot_onTid_self (s := s.forget (.engine w.eng)) rfl hf _).trans rfl

theorem State.ddAbandon_slot (code : Nat) (taddr : Word) : (s.ddAbandon w code taddr).slot n =
    { (s.slot n).ddEnded reg (BitVec.allOnes 64) with pend := (s.slot n).pend ++ [(code, taddr)] } := by
  have ended := State.ddEnd_slot hn hf hr (BitVec.allOnes 64)
  rw [State.ddAbandon, State.pendTid, ← hn, ← (s.slot n).ddEnded_tid reg (BitVec.allOnes 64),
    slot_onTid_self ended (by rwa [Slot.ddEnded_status]), Slot.ddEnded_pend]

end

/-! ## The head of a busy space's queue (R207) -/

section

variable {s : State} {die asid : Nat} {sp : Space} {w : DdWork} {ws : List DdWork}

/-- The space with its queue replaced. -/
def Space.withQueue (sp : Space) (ws : List DdWork) : Space := { sp with queue := ws }

theorem Space.nodes_withQueue (sp : Space) (ws : List DdWork) : (sp.withQueue ws).nodes = sp.nodes := rfl

theorem execDdeOperationCompletes_head (hs : s.space die asid = some sp) (hm : sp.mode = .busy) (hu : sp.susp = none)
    (hq : sp.queue = w :: ws) :
    exec (.ddeOperationCompletes die asid) s = .next (s.ddPerform die asid (sp.withQueue ws) w) := by
  rw [show exec (.ddeOperationCompletes die asid) s = execDdeOperationCompletes die asid s from rfl, execDdeOperationCompletes, hs,
    Space.withQueue]
  dsimp only
  rw [hm, hu, hq]

/-- An operation that only reads the space answers with what it read. -/
theorem State.ddPerform_reads {e : Nat} (hb : sp.badEdge w.op.edges = none) (hv : ∀ v, w.op.varImm = some v → v < sp.nvar)
    (hr : ∀ t : State, t.ddMemory sp w asid = .ok ((sp, .ok e), none)) (ht : ∀ t : State, t.ddTableRead sp w asid = t) :
    s.ddPerform die asid sp w = ((s.setSpace die asid sp).setSpace die asid sp).ddEnd w (BitVec.ofNat 64 e) := by
  rw [State.ddPerform, hb]
  cases hi : w.op.varImm with
  | none => simp only [hr, ht, State.ddSettle, Bool.false_eq_true, if_false]
  | some v => simp only [hr, ht, State.ddSettle, decide_eq_false (Nat.not_le_of_lt (hv v hi)), Bool.false_eq_true, if_false]

theorem State.ddPerform_beyondOrder {v : Nat} (hb : sp.badEdge w.op.edges = none) (hi : w.op.varImm = some v) (hv : sp.nvar ≤ v) :
    s.ddPerform die asid sp w = (s.setSpace die asid sp).ddAbandon w 0x243 (BitVec.ofNat 64 v) := by
  rw [State.ddPerform, hb, hi]
  exact if_pos (decide_eq_true hv)

variable (hs : s.space die asid = some sp) (hm : sp.mode = .busy) (hu : sp.susp = none) (hq : sp.queue = w :: ws)
  {n reg : Nat} (hn : (s.slot n).tid = w.tid) (hf : (s.slot n).status ≠ .free) (hr : w.reg = some reg)

include hs hm hu hq hn hf hr

/-- The head of the queue, an operation that only reads the space, ends: its thread has the answer, and it has left the queue. -/
theorem exec_ddHead_reads {e : Nat} (hb : sp.badEdge w.op.edges = none) (hv : ∀ v, w.op.varImm = some v → v < sp.nvar)
    (hrun : ∀ t : State, t.ddMemory (sp.withQueue ws) w asid = .ok ((sp.withQueue ws, .ok e), none))
    (ht : ∀ t : State, t.ddTableRead (sp.withQueue ws) w asid = t) :
    ∃ t, exec (.ddeOperationCompletes die asid) s = .next t ∧ t.slot n = (s.slot n).ddEnded reg (BitVec.ofNat 64 e) ∧
      t.mem = s.mem ∧ t.space die asid = some (sp.withQueue ws) := by
  have once : (s.setSpace die asid (sp.withQueue ws)).space die asid = some (sp.withQueue ws) := State.setSpace_space hs _
  have slot : ((s.setSpace die asid (sp.withQueue ws)).setSpace die asid (sp.withQueue ws)).slot n = s.slot n :=
    (State.setSpace_slot_same once rfl n).trans (State.setSpace_slot_same hs (sp.nodes_withQueue ws) n)
  refine ⟨_, (execDdeOperationCompletes_head hs hm hu hq).trans (congrArg Host.Outcome.next (State.ddPerform_reads hb hv hrun ht)),
    ?_, ?_, ?_⟩
  · rw [State.ddEnd_slot (by rwa [slot]) (by rwa [slot]) hr, slot]
  · rw [State.ddEnd_mem, State.setSpace_mem_same once rfl, State.setSpace_mem_same hs (sp.nodes_withQueue ws)]
  · rw [State.ddEnd_space, State.setSpace_space once]

/-- The head of the queue names a variable outside the order: it is abandoned with 0x243 (R212, R213). -/
theorem exec_ddHead_beyondOrder {v : Nat} (hb : sp.badEdge w.op.edges = none) (hi : w.op.varImm = some v) (hv : sp.nvar ≤ v) :
    ∃ t, exec (.ddeOperationCompletes die asid) s = .next t ∧ t.mem = s.mem ∧ t.slot n =
      { (s.slot n).ddEnded reg (BitVec.allOnes 64) with pend := (s.slot n).pend ++ [(0x243, BitVec.ofNat 64 v)] } := by
  have slot := State.setSpace_slot_same hs (sp.nodes_withQueue ws) n
  refine ⟨_, (execDdeOperationCompletes_head hs hm hu hq).trans (congrArg Host.Outcome.next (State.ddPerform_beyondOrder hb hi hv)),
    ?_, ?_⟩
  · rw [State.ddAbandon_mem, State.setSpace_mem_same hs (sp.nodes_withQueue ws)]
  · rw [State.ddAbandon_slot (by rwa [slot]) (by rwa [slot]) hr, slot]

end

/-- The record of a node that is put into a table (R200); CHAIN stands behind the bytes that are read. -/
theorem State.memRead_setSpace_put {s : State} {die asid : Nat} {sp : Space} (hs : s.space die asid = some sp) {i : Nat} {y : Node}
    (hin : sp.inHbm = true) (hnew : (i, y) ∉ sp.nodes) :
    memRead (s.setSpace die asid { sp with nodes := Table.put i y sp.nodes }).mem (sp.tbase + 16 * i) 12 =
      leBytes (y.var + y.ref * 2 ^ 16 + y.low * 2 ^ 32 + y.high * 2 ^ 64) 12 := by
  let bytes := y.record (Config.freeChain i s.clock.toNat)
  have fits : 12 ≤ bytes.length := (leBytes_length _ 16).symm ▸ by decide
  rw [State.setSpace_mem hs, State.putNodes_put s hin hnew, State.store_mem, ← memRead_take _ _ fits, memRead_memWrite_same,
    Node.record_take]

end Sys2Proof.Machine

open Sys2Proof Sys2Proof.Machine

/-- Settles O52: the answer is read from the space as it stands without its head; a put node is the one record that is written. -/
theorem diagramOperationsAnswer : Obligations.DiagramOperationsAnswer := by
  intro die asid n v reg core tid e now sup ws sp s hs hm hu hn hf h0 h32
  refine ⟨fun hq hv => ?_, fun hq hv => ?_, fun hq hb => ?_, fun i y hin hnew _ _ _ _ => State.memRead_setSpace_put hs hin hnew⟩
  · obtain ⟨t, ht, slot, mem, space⟩ := exec_ddHead_reads (e := sp.levelOf v) hs hm hu hq hn hf rfl rfl
      (fun _ hi => Option.some.inj hi ▸ hv) (fun _ => rfl) (fun _ => rfl)
    refine ⟨t, ht, ?_, ?_, ?_, ?_, mem, space⟩ <;> rw [slot]
    · exact Slot.ddEnded_reg _ h0 _
    · exact Slot.ddEnded_isFull _ h32 _
    · rfl
    · exact Slot.ddEnded_pend ..
  · obtain ⟨t, ht, mem, slot⟩ := exec_ddHead_beyondOrder hs hm hu hq hn hf rfl rfl rfl hv
    refine ⟨t, ht, ?_, ?_, mem⟩ <;> rw [slot]
    exact Slot.ddEnded_reg _ h0 _
  · obtain ⟨t, ht, slot, mem, -⟩ := exec_ddHead_reads (e := sp.refOf e.toNat) hs hm hu hq hn hf rfl hb nofun
      (fun _ => rfl) (fun _ => rfl)
    refine ⟨t, ht, mem, ?_⟩
    rw [slot]
    exact Slot.ddEnded_reg _ h0 _

end

section
/-! O59 of APPROVED.json: the states of a Margon port, its flits, and what a pause held back (R334 to R339 of spec/22). -/

namespace Sys2Proof.Machine

open Sys2Proof

/-! ## Nothing waits for a write (R242 of spec/14, R312 of spec/20) -/

/-- What may wait for a write: the journal's records, and the contexts with their units. What stands in a context's saved image does not. -/
def State.dues (s : State) : List DueRecord × List (Nat × Option Ctx) :=
  (s.journalDue, s.ctxs.map fun e => (e.1, e.2.map fun c => { c with images := [] }))

section

variable {s t : State} {p : Nat}

theorem State.nothingDue_iff : Stmt.nothingDue s ↔
    s.journalDue = [] ∧ ∀ e ∈ s.ctxs, ∀ c, e.2 = some c → c.state ≠ .tearingDown ∧ c.releasing = [] := by
  constructor
  · rintro ⟨hj, hr, ht⟩
    refine ⟨hj, fun e he c hc => ⟨ht e he c hc, hr (e.1, c) ?_⟩⟩
    exact List.mem_filterMap.2 ⟨e, he, by simp [hc, ht e he c hc]⟩
  · rintro ⟨hj, h⟩
    refine ⟨hj, fun e he => ?_, fun e he c hc => (h e he c hc).1⟩
    obtain ⟨f, hf, hm⟩ := List.mem_filterMap.1 he
    obtain ⟨c, hc, rfl⟩ := Option.map_eq_some_iff.1 hm
    exact (h f hf c (Option.filter_eq_some_iff.1 hc).1).2

theorem State.nothingDue_iff_dues : Stmt.nothingDue s ↔
    s.dues.1 = [] ∧ ∀ e ∈ s.dues.2, ∀ c, e.2 = some c → c.state ≠ .tearingDown ∧ c.releasing = [] := by
  rw [State.nothingDue_iff]
  refine and_congr_right fun _ => ⟨fun h e he c hc => ?_, fun h e he c hc => ?_⟩
  · obtain ⟨f, hf, rfl⟩ := List.mem_map.1 he
    obtain ⟨d, hd, rfl⟩ := Option.map_eq_some_iff.1 hc
    exact h f hf d hd
  · exact h _ (List.mem_map_of_mem he) { c with images := [] } (by rw [hc]; rfl)

theorem State.nothingDue_of_dues (hd : t.dues = s.dues) (h : Stmt.nothingDue s) : Stmt.nothingDue t := by
  rw [State.nothingDue_iff_dues] at h ⊢
  rwa [hd]

/-- Where no context is torn down none becomes free. -/
theorem State.freeTorn_of_nothingDue (h : Stmt.nothingDue s) : s.freeTorn = s := by
  obtain ⟨-, -, ht⟩ := h
  have same : ∀ e ∈ s.ctxs,
      (e.1, e.2.filter fun c => c.state != .tearingDown || s.journalDue.any (·.asid == e.1)) = e := by
    rintro ⟨a, c⟩ he
    cases c with
    | none => rfl
    | some c => simp [Option.filter, ht _ he c rfl]
  have he : s.freeTorn.ctxs = s.ctxs := (List.map_congr_left same).trans (List.map_id' _)
  exact congrArg (fun l => ({ s with ctxs := l } : State)) he

theorem State.work_nil (s : State) (asid : Nat) : s.work asid [] = s := by
  unfold State.work
  cases s.workFuel asid <;> rfl

theorem State.releaseNodes_of_nothingDue (h : Stmt.nothingDue s) : s.releaseNodes = s := by
  have ⟨hj, hr, _⟩ := h
  have hp : s.payJournals = s := by
    rw [State.payJournals, hj]
    exact State.freeTorn_of_nothingDue h
  unfold State.releaseNodes
  rw [hp]
  refine List.foldlRecOn (motive := (· = s)) _ _ rfl fun t ht e he => ?_
  rw [ht, hr e he, State.work_nil]

/-! ## What leaves by a port, or is lost with it, makes nothing due -/

theorem State.dues_onPort (s : State) (p : Nat) (f : Port → Port) : (s.onPort p f).dues = s.dues := rfl

theorem State.dues_onTid (s : State) (tid : Nat) (f : Slot → Slot) : (s.onTid tid f).dues = s.dues := by
  simp [State.dues, State.onTid, Function.comp_def]

theorem State.dues_onAllSlots (s : State) (f : Slot → Slot) : (s.onAllSlots f).dues = s.dues := by
  simp [State.dues, State.onAllSlots, Function.comp_def]

theorem State.dues_store (s : State) (pa : Nat) (bs : List Byte) (a : Attr) : (s.store pa bs a).dues = s.dues := by
  simp [State.dues]

theorem State.dues_pick (s : State) (n : Nat) : (s.pick n).2.dues = s.dues := by
  unfold State.pick
  split <;> rfl

theorem State.dues_settle (s : State) (ps : List Piece) : (s.settle ps).dues = s.dues := by
  unfold State.settle
  split <;> rfl

theorem State.dues_overtake (s : State) (p : Piece) : (s.overtake p).dues = s.dues := by
  unfold State.overtake
  split
  · exact s.dues_onAllSlots _
  · rfl

theorem State.dues_unsent (s : State) (w : RemoteWrite) : (s.unsent w).dues = s.dues := by
  unfold State.unsent
  split <;> rfl

theorem State.dues_loseWrite (s : State) (tids : List Nat) (va : Word) : (s.loseWrite tids va).dues = s.dues :=
  foldl_same State.dues (fun s t => s.onTid t fun x => { x with lost := some va }) (fun s t => s.dues_onTid t _) _ _

theorem State.dues_underWay (s : State) (o : Outgoing) : (s.underWay o).dues = s.dues := by
  unfold State.underWay
  split
  · rfl
  · split
    · rfl
    · exact s.dues_onTid _ _

theorem State.dues_departWrite (s : State) (p : Nat) (tids : List Nat) (va : Word) (r : Config.Request) (e : Option Word) (z : Bool) :
    (s.departWrite p tids va r e z).dues = s.dues := by
  unfold State.departWrite
  refine (State.dues_store _ _ _ _).trans ((State.dues_overtake _ _).trans ?_)
  cases r with
  | update => exact s.dues_settle _
  | read | write | atomic | cas => rfl

theorem State.dues_depart (s : State) (p : Nat) (o : Outgoing) : (s.depart p o).dues = s.dues := by
  cases o with
  | write tids va r e z => exact s.dues_departWrite ..
  | request | message | result | reply => rfl

/-! ## Where nothing waits at a port, no other port is taken (R339) -/

/-- Nothing waits at any port. -/
def State.NoneWait (s : State) : Prop := ∀ e ∈ s.ports, e.2.waiting = []

theorem State.NoneWait.port (h : s.NoneWait) (p : Nat) : (s.port p).waiting = [] := by
  rcases val_mem ({} : Port) p s.ports with e | e
  · rw [show s.port p = {} from e]
  · exact h _ e

theorem State.NoneWait.onPort (h : s.NoneWait) (p : Nat) {f : Port → Port} (hf : (f (s.port p)).waiting = []) :
    (s.onPort p f).NoneWait := fun e he => by
  rcases mem_put he with rfl | he
  · exact hf
  · exact h e he

theorem State.port_onPort_same (s : State) (p : Nat) (f : Port → Port) : (s.onPort p f).port p = f (s.port p) := val_put_same ..

theorem State.port_onPort_other (s : State) {p q : Nat} (h : q ≠ p) (f : Port → Port) : (s.onPort p f).port q = s.port q :=
  val_put_other _ _ _ _ _ h

/-- An update that leaves the port as it was. -/
theorem State.port_onPort_self (s : State) (p : Nat) {f : Port → Port} (h : f (s.port p) = s.port p) (q : Nat) :
    (s.onPort p f).port q = s.port q := by
  by_cases hq : q = p
  · rw [hq, State.port_onPort_same, h]
  · exact s.port_onPort_other hq f

/-- `t` is `s` but for the table of its ports, and each port is the same. -/
def State.SamePorts (s t : State) : Prop := t = { s with ports := t.ports } ∧ ∀ q, t.port q = s.port q

theorem State.reroute_samePorts (h : s.NoneWait) : s.SamePorts s.reroute := by
  unfold State.reroute
  refine (List.foldlRecOn (motive := fun t => s.SamePorts t ∧ t.NoneWait) _ _ ⟨⟨rfl, fun _ => rfl⟩, h⟩ ?_).1
  rintro t ⟨⟨ht, hp⟩, hw⟩ p -
  have hf : ({ t.port p with waiting := (t.port p).waiting.filter fun o => (t.goesBy p o).isNone } : Port) = t.port p := by
    rw [hw.port p]
    exact congrArg (fun l => ({ t.port p with waiting := l } : Port)) (hw.port p).symm
  simp only [hw.port p, List.foldl_nil]
  refine ⟨⟨?_, fun q => (t.port_onPort_self p hf q).trans (hp q)⟩, hw.onPort p ?_⟩
  · rw [ht]; rfl
  · simp [hw.port p]

theorem State.SamePorts.dues (h : s.SamePorts t) : t.dues = s.dues := by rw [h.1]; rfl

theorem State.SamePorts.mem (h : s.SamePorts t) : t.mem = s.mem := by rw [h.1]

theorem State.SamePorts.slots (h : s.SamePorts t) : t.slots = s.slots := by rw [h.1]

/-- On a quiet package a change of one port's state leads no further. -/
theorem State.rerouted_onPort (h : Stmt.quietPorts s) (p : Nat) {f : Port → Port} (hf : (f (s.port p)).waiting = (s.port p).waiting) :
    (s.onPort p f).SamePorts (s.onPort p f).rerouted := by
  obtain ⟨hw, hd⟩ := h
  have hr := State.reroute_samePorts (State.NoneWait.onPort hw p (hf.trans (State.NoneWait.port hw p)))
  rw [State.rerouted, State.releaseNodes_of_nothingDue (State.nothingDue_of_dues hr.dues hd)]
  exact hr

/-! ## A port goes Down (R338, R339) -/

theorem State.portDown_port (s : State) (p : Nat) : ((s.portDown p).port p).state = .down ∧ ((s.portDown p).port p).writes = [] ∧
    ((s.portDown p).port p).waiting = [] := by
  rw [show (s.portDown p).port p = _ from State.port_onPort_same _ p _]
  exact ⟨rfl, rfl, rfl⟩

/-- Once what waited has taken another port, a port that goes Down marks slots, and last those whose request left by it. -/
theorem State.portDown_marks (s : State) (p : Nat) : ∃ u : State, (s.onPort p fun x => { x with state := .down }).reroute.CutsOff u ∧
    ∀ n, (s.portDown p).slot n = (u.slot n).cutOff p := by
  refine ⟨_, ?_, fun n => State.slot_onAllSlots _ rfl n⟩
  refine State.CutsOff.foldl (.foldl (.foldl (.ofSlots (State.pick_slots _ _)) fun u w => .ofSlots (u.unsent_slots w))
    fun u w => u.cutsOff_loseWrite w.tids w.va) fun u o => ?_
  cases o with
  | write tids va r e tied => exact u.cutsOff_loseWrite tids va
  | request | result | message | reply => exact .ofSlots rfl

theorem State.dues_portDown (h : s.NoneWait) (p : Nat) : (s.portDown p).dues = s.dues := by
  have hr := State.reroute_samePorts (State.NoneWait.onPort h p (f := fun x => { x with state := .down }) (h.port p))
  unfold State.portDown
  refine (State.dues_onPort _ p _).trans ((State.dues_onAllSlots _ _).trans ?_)
  refine (foldl_same State.dues _ (fun s o => ?_) _ _).trans ?_
  · cases o with
    | write tids va r e z => exact s.dues_loseWrite tids va
    | request | result | message | reply => rfl
  refine (foldl_same State.dues _ (fun s (w : RemoteWrite) => s.dues_loseWrite w.tids w.va) _ _).trans ?_
  refine (foldl_same State.dues _ (fun s w => s.dues_unsent w) _ _).trans ?_
  exact (State.dues_pick _ _).trans hr.dues

/-- The request of a slot that left by the port can get no answer. -/
theorem State.portDown_dead (h : s.NoneWait) {p n : Nat} (hp : (s.slot n).park.ports.contains p = true)
    (ha : (s.slot n).park.answered = false) : ((s.portDown p).slot n).park.dead = true := by
  have hr := State.reroute_samePorts (State.NoneWait.onPort h p (f := fun x => { x with state := .down }) (h.port p))
  obtain ⟨u, hu, hs⟩ := s.portDown_marks p
  obtain ⟨l, d, he⟩ := (State.CutsOff.ofSlots hr.slots).trans hu n
  have he : u.slot n = { s.slot n with lost := l, park := { (s.slot n).park with dead := d } } := he
  rw [hs n, he, Slot.cutOff, if_pos (by simp only [hp, ha, Bool.not_false, Bool.and_self])]

/-! ## What a pause held back leaves (R335) -/

/-- What the lanes of a port hold back, and until when. -/
def Port.held (x : Port) : Table Word × List Outgoing := (x.pause, x.waiting)

/-- An update of every port that leaves what each holds back. -/
theorem State.held_mapPorts (s : State) (p : Nat) {f : Nat × Port → Nat × Port}
    (hf : ∀ e, (f e).1 = e.1 ∧ (f e).2.held = e.2.held) : (({ s with ports := s.ports.map f } : State).port p).held = (s.port p).held := by
  unfold State.port
  dsimp only
  induction s.ports with
  | nil => rfl
  | cons e t ih =>
    simp only [List.map_cons, Table.val, (hf e).1]
    split
    · exact (hf e).2
    · exact ih

theorem State.held_onPort (s : State) (p : Nat) {f : Port → Port} (hf : (f (s.port p)).held = (s.port p).held) :
    ((s.onPort p f).port p).held = (s.port p).held := by
  rw [State.port_onPort_same, hf]

theorem State.held_settle (s : State) (ps : List Piece) (p : Nat) : ((s.settle ps).port p).held = (s.port p).held := by
  unfold State.settle
  split
  · exact s.held_mapPorts p fun _ => ⟨rfl, rfl⟩
  · rfl

theorem State.held_settleElse (s : State) (p : Nat) (q : Piece) : ((s.settleElse p q).port p).held = (s.port p).held :=
  s.held_mapPorts p fun e => by split <;> exact ⟨rfl, rfl⟩

theorem State.overtake_ports (s : State) (q : Piece) : (s.overtake q).ports = s.ports := by
  unfold State.overtake
  split <;> rfl

theorem State.underWay_ports (s : State) (o : Outgoing) : (s.underWay o).ports = s.ports := by
  unfold State.underWay
  split
  · rfl
  · split <;> rfl

theorem State.port_congr (h : t.ports = s.ports) (p : Nat) : t.port p = s.port p := congrArg (Table.val ({} : Port) p) h

theorem State.held_departWrite (s : State) (p : Nat) (tids : List Nat) (va : Word) (r : Config.Request) (e : Option Word) (z : Bool) :
    ((s.departWrite p tids va r e z).port p).held = (s.port p).held := by
  unfold State.departWrite
  refine (State.held_onPort _ p rfl).trans ?_
  rw [State.port_congr ((State.store_ports _ _ _ _).trans (State.overtake_ports _ _))]
  cases r with
  | update => exact s.held_settle _ p
  | read | write | atomic | cas => exact s.held_settleElse p _

theorem State.held_depart (s : State) (p : Nat) (o : Outgoing) : ((s.depart p o).port p).held = (s.port p).held := by
  cases o with
  | write tids va r e z => exact s.held_departWrite ..
  | request | message | result | reply => exact s.held_onPort p rfl

/-- Some of what waited leaves, in order. -/
def State.leave (s : State) (p : Nat) (os : List Outgoing) : State := os.foldl (fun s o => (s.depart p o).underWay o) s

theorem State.dues_leave (s : State) (p : Nat) (os : List Outgoing) : (s.leave p os).dues = s.dues :=
  foldl_same State.dues _ (fun s o => (State.dues_underWay _ o).trans (s.dues_depart p o)) os s

theorem State.held_leave (s : State) (p : Nat) (os : List Outgoing) : ((s.leave p os).port p).held = (s.port p).held :=
  foldl_same (fun s : State => (s.port p).held) _ (fun s o => by
    rw [State.port_congr (State.underWay_ports _ o), State.held_depart]) os s

/-- The lane's pause is over, and it holds back nothing more. -/
def State.opened (s : State) (p vl : Nat) : State :=
  s.onPort p fun x => { x with pause := Table.del vl x.pause, waiting := x.waiting.filter (·.lane != vl) }

theorem State.held_opened_leave (s : State) (p vl : Nat) (os : List Outgoing) : (((s.opened p vl).leave p os).port p).held =
    (Table.del vl (s.port p).pause, (s.port p).waiting.filter (·.lane != vl)) := by
  rw [State.held_leave, State.opened, State.port_onPort_same, Port.held]

theorem State.onPort_onPort (s : State) (p : Nat) (f g : Port → Port) : (s.onPort p f).onPort p g = s.onPort p fun x => g (f x) := by
  simp only [State.onPort, State.port, val_put_same, put_put]

theorem State.pump_unpaused (s : State) (p vl : Nat) : (s.onPort p fun x => { x with pause := Table.del vl x.pause }).pump p vl =
    (s.opened p vl).leave p ((s.port p).waiting.filter (·.lane == vl)) := by
  unfold State.pump
  rw [if_neg (by rw [State.port_onPort_same, val_del_same]; exact BitVec.lt_irrefl _), State.port_onPort_same, State.onPort_onPort]
  rfl

/-- A write or RUPD is performed as it leaves (log 79). -/
theorem State.departWrite_mem (s : State) (p : Nat) (tids : List Nat) (va : Word) (r : Config.Request) (e : Option Word) (z : Bool) :
    (s.departWrite p tids va r e z).mem = memWrite s.mem (reqPiece r).pa (s.written r) := by
  unfold State.departWrite
  rw [State.onPort_mem, State.store_mem, State.overtake_mem]
  cases r with
  | update => simp only [State.written, State.settle_mem]
  | read | write | atomic | cas => rfl

/-- A request of a thread is under way once nothing of the thread waits at any port. -/
theorem State.underWay_behind {n : Nat} (o : Outgoing) (ho : o.thread = some (s.slot n).tid) (hl : (s.slot n).status ≠ .free)
    (hw : s.NoneWait) : ((s.underWay o).slot n).park.behind = false := by
  have alone : (s.ports.any fun e => e.2.waiting.any (·.thread == some (s.slot n).tid)) = false :=
    List.any_eq_false.2 fun e he => by simp [hw e he]
  unfold State.underWay
  simp only [ho, alone, Bool.false_eq_true, if_false]
  rw [slot_onTid_self rfl hl]
  split
  · rfl
  · next h => simpa using h

theorem State.leave_write_mem (s : State) (p : Nat) (tids : List Nat) (va : Word) (r : Config.Request) (e : Option Word) (z : Bool) :
    (s.leave p [.write tids va r e z]).mem = memWrite s.mem (reqPiece r).pa (s.written r) :=
  (State.underWay_mem _ (.write tids va r e z)).trans (s.departWrite_mem p tids va r e z)

theorem State.leave_request_behind {n : Nat} (r : Config.Request) (hl : (s.slot n).status ≠ .free) (hw : s.NoneWait) :
    ((s.leave p [.request (s.slot n).tid r]).slot n).park.behind = false :=
  State.underWay_behind (s := s.depart p (.request (s.slot n).tid r)) (.request (s.slot n).tid r) rfl hl (hw.onPort p (hw.port p))

/-- In a rising table a key stands once. -/
theorem mem_put_rising {α : Type} {k : Nat} {v : α} {l : Table α} {e : Nat × α} (hl : l.Pairwise (·.1 < ·.1))
    (h : e ∈ Table.put k v l) : e = (k, v) ∨ (e ∈ l ∧ e.1 ≠ k) := by
  induction l with
  | nil => exact .inl (List.mem_singleton.1 h)
  | cons c l ih =>
    obtain ⟨hc, hl⟩ := List.pairwise_cons.1 hl
    simp only [Table.put] at h
    split at h
    · next hk =>
      rcases List.mem_cons.1 h with h | h
      · exact .inl h
      · refine .inr ⟨h, ?_⟩
        rcases List.mem_cons.1 h with rfl | h
        · exact hk.ne'
        · exact (hk.trans (hc e h)).ne'
    · split at h
      · next hk =>
        refine (List.mem_cons.1 h).imp id fun h => ⟨List.mem_cons_of_mem _ h, ?_⟩
        exact hk ▸ (hc e h).ne'
      · next hk =>
        rcases List.mem_cons.1 h with rfl | h
        · exact .inr ⟨List.mem_cons_self, hk⟩
        · exact (ih hl h).imp id fun h => ⟨List.mem_cons_of_mem _ h.1, h.2⟩

theorem State.noneWait_onPort_rising {p : Nat} {f : Port → Port} (hr : s.ports.Pairwise (·.1 < ·.1))
    (ho : ∀ e ∈ s.ports, e.1 ≠ p → e.2.waiting = []) (hf : (f (s.port p)).waiting = []) : (s.onPort p f).NoneWait := fun e he => by
  rcases mem_put_rising hr he with rfl | ⟨he, hp⟩
  · exact hf
  · exact ho e he hp

/-! ## The events (R335, R336, R338) -/

theorem execPauseExpires_over {vl : Nat} (h : Table.val s.clock vl (s.port p).pause ≤ s.clock) : exec (.pauseExpires p vl) s =
    .next ((s.opened p vl).leave p ((s.port p).waiting.filter (·.lane == vl))).releaseNodes := by
  rw [show exec (.pauseExpires p vl) s = execPauseExpires p vl s from rfl, execPauseExpires, if_pos h, State.laneOpens,
    State.pump_unpaused]

theorem execPortEnable_down (hp : p < 12) (h : (s.port p).state = .down) :
    exec (.portEnable p) s = .next (s.onPort p fun x => { x with state := .training }) := by
  rw [show exec (.portEnable p) s = execPortEnable p s from rfl, execPortEnable, if_neg (Nat.not_le.2 hp)]
  simp only [State.onPort, h, if_true]

theorem execTrainingFails_lost (h : (s.port p).state = .training ∨ (s.port p).state = .retrain) :
    exec (.trainingFails p) s = .next (s.portLost p) := by
  rw [show exec (.trainingFails p) s = execTrainingFails p s from rfl, execTrainingFails]
  rcases h with h | h <;> rw [h]

theorem execLossOfSignal_training (h : (s.port p).state = .training) : exec (.lossOfSignal p) s = .next (s.portLost p) := by
  rw [show exec (.lossOfSignal p) s = execLossOfSignal p s from rfl, execLossOfSignal, h]

/-- The port leaves Up for Retrain. -/
def State.retrained (s : State) (p : Nat) : State := (s.onPort p fun x => { x with state := .retrain }).rerouted

theorem execLossOfSignal_up (h : (s.port p).state = .up) : exec (.lossOfSignal p) s = .next (s.retrained p) := by
  rw [show exec (.lossOfSignal p) s = execLossOfSignal p s from rfl, execLossOfSignal, h]
  rfl

theorem execAckTimeout_late (h : (s.port p).state = .up) (hs : (s.port p).sent ≠ [])
    (ht : 65536 ≤ s.clock.toNat - (s.port p).ackAt.toNat) : exec (.ackTimeout p) s = .next (s.retrained p) := by
  have late : (s.port p).ackLate s.clock = true := by simp [Port.ackLate, h, hs, ht]
  rw [show exec (.ackTimeout p) s = execAckTimeout p s from rfl, execAckTimeout, if_pos late]
  rfl

/-- A fresh port comes Up: its SEQs restart. -/
def Port.trained (x : Port) (peer : BitVec 6) (now : Word) : Port :=
  { x with state := .up, peer := peer, txSeq := 0, rxSeq := 0, sent := [], naks := 0, pause := [], buf := [], ackAt := now }

/-- A port comes Up from Retrain: it sends its replay buffer again. -/
def Port.resumed (x : Port) (now : Word) : Port :=
  ({ x with state := .up, naks := 0, ackAt := now } : Port).replay ((x.sent.map (·.1)).headD x.txSeq)

/-- The flits of the replay buffer as a resumed port sends them, newest first. -/
def Port.resent (x : Port) : List (BitVec 32 × Sent) :=
  (x.sent.filter fun e => (e.1 - (x.sent.map (·.1)).headD x.txSeq).toNat < 2 ^ 31).reverse

theorem Port.resumed_out (x : Port) (now : Word) : (x.resumed now).out = x.resent ++ x.out := rfl

theorem execTrainingSucceeds_training (peer : BitVec 6) (h : (s.port p).state = .training) :
    exec (.trainingSucceeds p peer) s = .next (s.onPort p fun x => x.trained peer s.clock).rerouted := by
  rw [show exec (.trainingSucceeds p peer) s = execTrainingSucceeds p peer s from rfl, execTrainingSucceeds]
  simp only [State.onPort, h, Port.trained]

theorem execTrainingSucceeds_retrain (peer : BitVec 6) (h : (s.port p).state = .retrain) :
    exec (.trainingSucceeds p peer) s = .next (s.onPort p fun x => x.resumed s.clock).rerouted := by
  rw [show exec (.trainingSucceeds p peer) s = execTrainingSucceeds p peer s from rfl, execTrainingSucceeds]
  simp only [State.onPort, h, Port.resumed]

/-- A flit with a bad CRC and one that has no room (log 27) are NAKed. -/
theorem execFlitReceived_nak {f : BitVec 2048} (h : (s.port p).state = .up)
    (hb : flitCrcOk f = false ∨ BitVec.ofNat 32 (flitField f 32 32) = (s.port p).rxSeq ∧
      64 ≤ (Table.val [] (flitField f 10 2) (s.port p).buf).length) :
    exec (.flitReceived p f) s = .next (s.onPort p fun x => x.emit s.clock (.nak x.rxSeq)) := by
  rw [show exec (.flitReceived p f) s = execFlitReceived p f s from rfl, execFlitReceived]
  rcases hb with hc | ⟨hs, hl⟩
  · simp [h, hc]
  · simp [h, hs, hl]

/-- A flit that has been accepted before is discarded. -/
theorem execFlitReceived_known {f : BitVec 2048} (h : (s.port p).state = .up) (hc : flitCrcOk f = true)
    (hs : BitVec.ofNat 32 (flitField f 32 32) ≠ (s.port p).rxSeq)
    (hd : ((s.port p).rxSeq - BitVec.ofNat 32 (flitField f 32 32)).toNat < 2 ^ 31) : exec (.flitReceived p f) s = .next s := by
  rw [show exec (.flitReceived p f) s = execFlitReceived p f s from rfl, execFlitReceived]
  simp only [h, hc, hs, hd, bne_self_eq_false, Bool.not_true, Bool.false_eq_true, if_true, if_false]

theorem execFlitReceived_next {f : BitVec 2048} (h : (s.port p).state = .up) (hc : flitCrcOk f = true)
    (hs : BitVec.ofNat 32 (flitField f 32 32) = (s.port p).rxSeq)
    (hl : (Table.val [] (flitField f 10 2) (s.port p).buf).length < 64) :
    exec (.flitReceived p f) s = .next (s.acceptFlit p f (BitVec.ofNat 32 (flitField f 32 32))) := by
  rw [show exec (.flitReceived p f) s = execFlitReceived p f s from rfl, execFlitReceived]
  simp only [h, hc, hs, Nat.not_le.2 hl, bne_self_eq_false, Bool.not_true, Bool.false_eq_true, if_true, if_false]

/-- The port when it has acknowledged a flit and put it into its lane's buffer. -/
def Port.accepted (x : Port) (now : Word) (f : BitVec 2048) (seq : BitVec 32) : Port :=
  let y := ({ x with rxSeq := x.rxSeq + 1 } : Port).emit now (.ack seq)
  { y with buf := Table.put (flitField f 10 2) (Table.val [] (flitField f 10 2) x.buf ++ [f]) x.buf }

theorem Port.accepted_buf (x : Port) (now : Word) (f : BitVec 2048) (seq : BitVec 32) :
    Table.val [] (flitField f 10 2) (x.accepted now f seq).buf = Table.val [] (flitField f 10 2) x.buf ++ [f] :=
  val_put_same ..

theorem State.pick_ports (s : State) (n : Nat) : (s.pick n).2.ports = s.ports := by
  unfold State.pick
  split <;> rfl

/-- The acknowledgement and the receive buffer are one update of the port. -/
theorem State.onPort_accepted (s : State) (p : Nat) (f : BitVec 2048) (seq : BitVec 32) :
    let t := s.onPort p fun x => ({ x with rxSeq := x.rxSeq + 1 } : Port).emit s.clock (.ack seq)
    (t.onPort p fun x =>
      { x with buf := Table.put (flitField f 10 2) (Table.val [] (flitField f 10 2) (t.port p).buf ++ [f]) x.buf }) =
    s.onPort p (·.accepted s.clock f seq) := by
  simp only [State.onPort, State.port, val_put_same, put_put]
  rfl

/-- A flit of a lane that holds data is accepted; a pause of the lane may follow the acknowledgement. -/
theorem State.acceptFlit_lane {f : BitVec 2048} (seq : BitVec 32) (hv : flitField f 10 2 ≠ 3) :
    ((s.acceptFlit p f seq).port p = (s.port p).accepted s.clock f seq ∨
      ∃ b, (s.acceptFlit p f seq).port p = ((s.port p).accepted s.clock f seq).emit s.clock b) ∧
    (s.acceptFlit p f seq).mem = s.mem := by
  have accepted : (s.onPort p (·.accepted s.clock f seq)).port p = (s.port p).accepted s.clock f seq := s.port_onPort_same p _
  unfold State.acceptFlit
  dsimp only
  rw [if_neg hv, s.onPort_accepted p f seq]
  split
  · refine ⟨.inr ⟨.pause (flitField f 10 2) (((s.onPort p (·.accepted s.clock f seq)).pick 256).1 + 1),
      (State.port_onPort_same _ p _).trans ?_⟩, State.pick_mem _ 256⟩
    exact congrArg (Port.emit · s.clock _) ((State.port_congr (State.pick_ports _ 256) p).trans accepted)
  · exact ⟨.inl accepted, rfl⟩

/-- The next flit is acknowledged and stands last in its lane's buffer. -/
theorem State.acceptFlit_received {f : BitVec 2048} (seq : BitVec 32) (hv : flitField f 10 2 ≠ 3) :
    ((s.acceptFlit p f seq).port p).rxSeq = (s.port p).rxSeq + 1 ∧
    ((s.port p).txSeq, .ack seq) ∈ ((s.acceptFlit p f seq).port p).out ∧
    Table.val [] (flitField f 10 2) ((s.acceptFlit p f seq).port p).buf =
      Table.val [] (flitField f 10 2) (s.port p).buf ++ [f] := by
  obtain ⟨h | ⟨b, h⟩, -⟩ := State.acceptFlit_lane (s := s) (p := p) seq hv
  · rw [h]
    exact ⟨rfl, List.mem_cons_self, Port.accepted_buf ..⟩
  · rw [h]
    exact ⟨rfl, List.mem_cons_of_mem _ List.mem_cons_self, (s.port p).accepted_buf s.clock f seq⟩

end

end Sys2Proof.Machine

open Sys2Proof Sys2Proof.Machine

/-- Settles O59: where nothing is due and nothing waits, a change of a port's state leads no further, and what a pause held back leaves
without making anything due. -/
theorem portStates : Obligations.PortStates := by
  intro p s hp x down retrains
  have lost : down (.next (s.portLost p)) := by
    obtain ⟨hd, hw, hn⟩ := s.portDown_port p
    refine ⟨s.portDown p, rfl, hd, hw, hn, fun hq => ⟨?_, fun n => State.portDown_dead hq.1⟩⟩
    exact State.releaseNodes_of_nothingDue (State.nothingDue_of_dues (State.dues_portDown hq.1 p) hq.2)
  have retrained : retrains (.next (s.retrained p)) := by
    refine ⟨rfl, fun hq => ?_⟩
    have same := State.rerouted_onPort (f := fun x => { x with state := .retrain }) hq p rfl
    exact ⟨_, rfl, (same.2 p).trans (s.port_onPort_same p _), same.mem, same.slots⟩
  refine ⟨execPortEnable_down hp, fun peer hq => ⟨fun ht => ?_, fun hr => ?_⟩, fun h => ?_, fun hu => ⟨?_, fun hs ha => ?_⟩,
    fun ht => ?_, ?_, fun vl hv => ?_⟩
  · have same := State.rerouted_onPort (f := fun x => x.trained peer s.clock) hq p rfl
    refine ⟨_, execTrainingSucceeds_training peer ht, ?_⟩
    rw [same.2 p, State.port_onPort_same]
    exact ⟨rfl, rfl, rfl, rfl⟩
  · have same := State.rerouted_onPort (f := fun x => x.resumed s.clock) hq p rfl
    refine ⟨_, x.resent, execTrainingSucceeds_retrain peer hr, ?_⟩
    rw [same.2 p, State.port_onPort_same]
    refine ⟨rfl, rfl, rfl, x.resumed_out s.clock, fun e he hd => ?_⟩
    exact List.mem_reverse.2 (List.mem_filter.2 ⟨he, decide_eq_true hd⟩)
  · rw [execTrainingFails_lost h]
    exact lost
  · rw [execLossOfSignal_up hu]
    exact retrained
  · rw [execAckTimeout_late hu hs ha]
    exact retrained
  · rw [execLossOfSignal_training ht]
    exact lost
  · intro f hu seq vl nak
    have naks (h) : nak (exec (.flitReceived p f) s) :=
      ⟨_, execFlitReceived_nak hu h, by rw [State.port_onPort_same]; rfl, by rw [State.port_onPort_same]; rfl, rfl⟩
    refine ⟨fun hc => naks (.inl hc), fun _ hs hl => naks (.inr ⟨hs, hl⟩), execFlitReceived_known hu, fun hc hv hs hl => ?_⟩
    obtain ⟨hx, ho, hb⟩ := State.acceptFlit_received (s := s) (p := p) seq hv
    exact ⟨_, execFlitReceived_next hu hc hs hl, hx, ho, hb, (State.acceptFlit_lane seq hv).2⟩
  · have held := s.held_opened_leave p vl (x.waiting.filter (·.lane == vl))
    refine ⟨_, execPauseExpires_over hv, fun hn => ?_, congrArg Prod.fst held, (congrArg Prod.snd held).trans ?_, ?_, ?_, ?_⟩
    · exact State.releaseNodes_of_nothingDue (State.nothingDue_of_dues ((s.opened p vl).dues_leave p _) hn)
    · exact List.filter_congr fun o _ => (decide_not ..).symm
    · rintro tids va pa bs w z rfl hw
      rw [hw]
      exact (s.opened p 0).leave_write_mem p tids va (.write pa bs) w z
    · rintro tids va op pa n v w z rfl hw
      rw [hw]
      exact (s.opened p 0).leave_write_mem p tids va (.update op pa n v) w z
    · rintro tid r n rfl hw hr ho rfl hl
      have alone : (s.opened p 0).NoneWait := State.noneWait_onPort_rising hr ho (by rw [hw]; rfl)
      rw [hw]
      exact State.leave_request_behind r hl alone

end

section
/-! O17, O18 and O19 of APPROVED.json: what a trap saves and where it goes, and what a precise trap gives back (R63 of spec/03, R343, R344
and R350 of spec/23). -/

namespace Sys2Proof.Machine

open Sys2Proof

/-! ## A freeze (R350) -/

theorem State.portsDown_down (s : State) (p : Nat) : (s.portsDown.port p).state = .down := by
  have all : ∀ p, (({ s with ports := s.ports.map fun e => (e.1, { e.2 with state := .down }) } : State).port p).state = .down :=
    fun p => congrArg Port.state (val_map (d := ({} : Port)) (g := fun x => { x with state := .down }) rfl p s.ports)
  unfold State.portsDown
  exact List.foldlRecOn (motive := fun t : State => ∀ p, (t.port p).state = PState.down) _ _ all (fun t ht q _ => (t.drops_portDown q ht).down ht) p

/-- A freeze request where the package runs. -/
theorem State.freezeBy_off {s : State} (h : s.freeze = .off) (resumable : Bool) (src : BitVec 2) :
    s.freezeBy resumable src = { s.portsDown with freeze := .on resumable src } := by
  simp only [State.freezeBy, h]

theorem State.keptMem_freezeBy (s : State) (resumable : Bool) (src : BitVec 2) : s.keptMem (s.freezeBy resumable src) := by
  refine ⟨fun e => by rw [State.freezeBy_same e], fun b hb => ?_⟩
  cases hz : s.freeze with
  | off =>
    rw [State.freezeBy_off hz]
    exact (s.drops_portsDown.bytes b hb).2
  | on r src' =>
    cases r with
    | false => simp only [State.freezeBy, hz]
    | true => cases resumable <;> simp only [State.freezeBy, hz] <;> rfl

/-! ## Trap entry (R343) -/

/-- The registers of a slot, its full bits, loop words, monitors and pending traps. -/
def Slot.saved (x : Slot) : Slot :=
  { g := x.g, full := x.full, p := x.p, v := x.v, k := x.k, loop := x.loop, mon := x.mon, pend := x.pend }

theorem Slot.saved_keep (x : Slot) (voted : Bool) : (x.keep voted).saved = x.saved := by
  unfold Slot.keep
  split <;> rfl

theorem Slot.saved_enter {x y : Slot} {svec : Word} {code : Nat} {tpc taddr : Word} {async : Bool}
    (e : x.enter svec code tpc taddr async = some y) : y.saved = x.saved := by
  have hk := x.saved_keep (async && x.park.voted)
  unfold Slot.enter at e
  split at e
  · cases e
  · dsimp only at e
    split at e <;> cases e <;> exact hk

/-- At supervisor level a trap freezes the package. -/
theorem State.trapSlot_supervisor {s : State} {n : Nat} (h : (s.slot n).sup.sinh = true) (code : Nat) (tpc taddr : Word) (async : Bool) :
    s.trapSlot n code tpc taddr async = s.freezeBy false 3 := by
  simp only [State.trapSlot, Slot.enter, h, if_true]

end Sys2Proof.Machine

open Sys2Proof Sys2Proof.Machine

/-- Settles O17: at user level the entry is an update of the slot alone; at supervisor level it is a freeze. -/
theorem trapEntrySavesAndVectors : Obligations.TrapEntrySavesAndVectors := by
  intro s n code tpc taddr async x t y
  refine ⟨fun h => ?_, fun h => ?_⟩
  · have ht : t = s.freezeBy false 3 := State.trapSlot_supervisor h ..
    rw [ht]
    refine ⟨fun hz => ?_, fun m => (s.cutsOff_freezeBy false 3 m).marked, congrArg (·.cores) (s.freezeBy_noLinks false 3),
      s.keptMem_freezeBy ..⟩
    rw [State.freezeBy_off hz]
    exact ⟨rfl, s.portsDown_down⟩
  · obtain ⟨z, e, hctx, hsup⟩ := Slot.enter_user (x := x) h s.svec code tpc taddr async
    have ht : t = s.setSlot n z := by simp only [t, State.trapSlot, show (s.slot n).enter .. = some z from e]
    have hy : y = z := by simp only [y, ht, State.slot_setSlot]
    have saved : z.saved = x.saved := Slot.saved_enter e
    rw [hy, ht]
    refine ⟨fun hc => ?_, fun hc => ?_, congrArg (·.g) saved, congrArg (·.full) saved, congrArg (·.p) saved, congrArg (·.v) saved,
      congrArg (·.k) saved, congrArg (·.loop) saved, congrArg (·.mon) saved, congrArg (·.pend) saved, rfl, rfl, rfl⟩
    · obtain ⟨hpc, hs, htr⟩ := hctx hc
      exact ⟨htr, hs, hpc⟩
    · obtain ⟨hpc, htr, hs⟩ := hsup hc
      exact ⟨hs, htr, hpc⟩

/-- Settles O18: with the context's handler running the entry is the supervisor's. -/
theorem nestedTrapKeepsContextWords : Obligations.NestedTrapKeepsContextWords := by
  intro s n code tpc taddr hin hs y
  obtain ⟨-, hsup, -⟩ := (trapEntrySavesAndVectors s n code tpc taddr false).2 hs
  obtain ⟨ysup, ytrap, ypc⟩ := hsup fun hc => absurd hin (by rw [hc.2.2.2]; exact Bool.false_ne_true)
  exact ⟨ytrap, by rw [ysup], by rw [ysup, ← hin], ypc⟩

end

section
/-! SUPPORT. What giving back undoes of the operand step (R24 of spec/02, R63 of spec/03). -/

namespace Sys2Proof

/-- A synchronised read of register `n`. -/
def Src.clears (a : Src) (n : Nat) : Bool :=
  match a.op with
  | .g m => a.sync && m.val == n
  | .q _ | .mb _ => false

/-- A read of mailbox `m`. -/
def Src.empties (a : Src) (m : Nat) : Bool :=
  match a.op with
  | .mb k => k.val == m
  | .g _ | .q _ => false

end Sys2Proof

namespace Sys2Proof.Machine

open Sys2Proof

/-! ## Full bits -/

theorem Slot.isFull_setFull (x : Slot) (m : Fin 32) (n : Nat) :
    ({ x with full := x.full ||| (1#32 <<< m.val) } : Slot).isFull n = (x.isFull n || m.val == n) := by
  unfold Slot.isFull
  rw [BitVec.getLsbD_or, ← Bool.or_assoc]
  by_cases h : n = m.val
  · simp [h]
  · rw [getLsbD_one_shift h, beq_false_of_ne (Ne.symm h)]

theorem State.takeOne_isFull (s : State) (a : Src) (n : Nat) :
    (s.takeOne a).2.me.isFull n = (s.me.isFull n && (!a.clears n || n == 0)) := by
  obtain ⟨o, sync⟩ := a
  cases o with
  | g m =>
    cases sync with
    | false => simp [State.takeOne, Src.clears]
    | true => simp [State.takeOne, Src.clears, Slot.isFull_clearFull_eq, bne, Bool.beq_comm]
  | q m => simp [State.takeOne, Src.clears]
  | mb m => simp [State.takeOne, Src.clears]

theorem State.takeAll_isFull (as : List Src) (s : State) (n : Nat) :
    (s.takeAll as).2.me.isFull n = (s.me.isFull n && (!as.any (·.clears n) || n == 0)) := by
  induction as generalizing s with
  | nil => exact (Bool.and_true _).symm
  | cons a as ih =>
    rw [State.takeAll, ih, State.takeOne_isFull, List.any_cons, Bool.and_assoc]
    cases a.clears n <;> cases as.any (·.clears n) <;> simp

theorem State.giveOne_isFull (s : State) (k : Nat) (e : Src × Word) (n : Nat) :
    ((s.giveOne k e).slot k).isFull n = ((s.slot k).isFull n || e.1.clears n) := by
  obtain ⟨⟨o, sync⟩, v⟩ := e
  cases o with
  | g m =>
    cases sync with
    | false => exact (Bool.or_false _).symm
    | true =>
      refine (congrArg (·.isFull n) (s.slot_onSlot k fun x => { x with full := x.full ||| (1#32 <<< m.val) })).trans ?_
      exact (s.slot k).isFull_setFull m n
  | q m => exact (Bool.or_false _).symm
  | mb m => exact (Bool.or_false _).symm

/-! ## Queues -/

theorem State.giveOne_queue (s : State) (k : Nat) (e : Src × Word) (q : Nat) :
    ((s.giveOne k e).core (slotCore k)).queue q =
      List.replicate (countQ q [e.1.op]) e.2 ++ (s.core (slotCore k)).queue q := by
  obtain ⟨⟨o, sync⟩, v⟩ := e
  cases o with
  | g m =>
    cases sync with
    | false => rfl
    | true => rfl
  | q m =>
    refine (congrArg (·.queue q) (s.core_onCore ..)).trans ?_
    by_cases h : m.val = q
    · subst h
      rw [countQ_one_self]
      exact val_put_same ..
    · rw [show countQ q [.q m] = 0 by simp [countQ, h]]
      exact val_put_other _ _ _ _ _ (Ne.symm h)
  | mb m => exact congrArg (·.queue q) (s.core_onCore ..)

/-- The entry that a source took from a queue stands at its head again. -/
theorem State.takeOne_queue_undone (s : State) (a : Src) (q : Nat) (h : countQ q [a.op] ≤ (s.myCore.queue q).length) :
    List.replicate (countQ q [a.op]) (s.takeOne a).1 ++ (s.takeOne a).2.myCore.queue q = s.myCore.queue q := by
  rw [State.takeOne_queue]
  obtain ⟨o, sync⟩ := a
  cases o with
  | g m => rfl
  | q m =>
    by_cases hq : m.val = q
    · subst hq
      rw [countQ_one_self] at h ⊢
      rw [s.takeOne_queue_val rfl]
      cases hl : s.myCore.queue m.val with
      | nil => simp [hl] at h
      | cons x l => rfl
    · rw [show countQ q [.q m] = 0 by simp [countQ, hq]]
      rfl
  | mb m => rfl

theorem State.takeAll_queue_undone (as : List Src) (s u : State) (k q : Nat)
    (hu : (u.core (slotCore k)).queue q = (s.takeAll as).2.myCore.queue q)
    (h : countQ q (as.map (·.op)) ≤ (s.myCore.queue q).length) :
    (((as.zip (s.takeAll as).1).reverse.foldl (fun t e => t.giveOne k e) u).core (slotCore k)).queue q = s.myCore.queue q := by
  induction as generalizing s with
  | nil => exact hu
  | cons a as ih =>
    rw [List.map_cons, countQ_cons] at h
    simp only [State.takeAll] at hu ⊢
    rw [List.zip_cons_cons, List.reverse_cons, List.foldl_append, List.foldl_cons, List.foldl_nil, State.giveOne_queue]
    rw [ih (s.takeOne a).2 hu (by rw [State.takeOne_queue, List.length_drop]; omega)]
    exact s.takeOne_queue_undone a q (by omega)

/-! ## Mailboxes -/

theorem getLsbD_mailbox (k : Fin 4) (m : Nat) : (1#4 <<< k.val).getLsbD m = (k.val == m) := by
  have hk := k.isLt
  rw [Bool.eq_iff_iff]
  simp only [BitVec.getLsbD_shiftLeft, BitVec.getLsbD_one, Bool.and_eq_true, Bool.not_eq_true', decide_eq_true_eq, decide_eq_false_iff_not,
    beq_iff_eq]
  omega

theorem State.takeOne_mbFull_eq (s : State) (a : Src) (m : Nat) :
    (s.takeOne a).2.myCore.mbFull.getLsbD m = (s.myCore.mbFull.getLsbD m && !a.empties m) := by
  obtain ⟨o, sync⟩ := a
  cases o with
  | g n => cases sync <;> exact (Bool.and_true _).symm
  | q n => exact (congrArg (·.mbFull.getLsbD m) (s.myCore_onMyCore _)).trans (Bool.and_true _).symm
  | mb k =>
    refine (congrArg (·.mbFull.getLsbD m) (s.myCore_onMyCore _)).trans ?_
    rw [BitVec.getLsbD_and, BitVec.getLsbD_not, getLsbD_mailbox]
    by_cases hm : m < 4
    · rw [decide_eq_true hm, Bool.true_and]
      rfl
    · rw [BitVec.getLsbD_of_ge _ _ (Nat.not_lt.1 hm), Bool.false_and, Bool.false_and]

theorem State.takeAll_mbFull_eq (as : List Src) (s : State) (m : Nat) :
    (s.takeAll as).2.myCore.mbFull.getLsbD m = (s.myCore.mbFull.getLsbD m && !as.any (·.empties m)) := by
  induction as generalizing s with
  | nil => exact (Bool.and_true _).symm
  | cons a as ih => rw [State.takeAll, ih, State.takeOne_mbFull_eq, List.any_cons, Bool.not_or, Bool.and_assoc]

theorem State.giveOne_mbFull (s : State) (k : Nat) (e : Src × Word) (m : Nat) :
    ((s.giveOne k e).core (slotCore k)).mbFull.getLsbD m = ((s.core (slotCore k)).mbFull.getLsbD m || e.1.empties m) := by
  obtain ⟨⟨o, sync⟩, v⟩ := e
  cases o with
  | g n => cases sync <;> exact (Bool.or_false _).symm
  | q n => exact (congrArg (·.mbFull.getLsbD m) (s.core_onCore ..)).trans (Bool.or_false _).symm
  | mb n =>
    refine (congrArg (·.mbFull.getLsbD m) (s.core_onCore ..)).trans ?_
    rw [BitVec.getLsbD_or, getLsbD_mailbox]
    rfl

theorem State.takeAll_mb (as : List Src) (s : State) : (s.takeAll as).2.myCore.mb = s.myCore.mb := by
  induction as generalizing s with
  | nil => rfl
  | cons a as ih => rw [State.takeAll, ih, State.takeOne_mb]

theorem State.takeAll_mb_vals (as : List Src) (s : State) {e : Src × Word} (he : e ∈ as.zip (s.takeAll as).1) {m : Fin 4}
    (hm : e.1.op = .mb m) : e.2 = Table.val 0 m.val s.myCore.mb := by
  induction as generalizing s with
  | nil => cases he
  | cons a as ih =>
    rw [State.takeAll, List.zip_cons_cons] at he
    rcases List.mem_cons.1 he with rfl | he
    · exact s.takeOne_mb_val hm
    · rw [ih _ he, State.takeOne_mb]

/-- A mailbox that gets the word that it held holds it. -/
theorem State.giveOne_mb (s : State) (k : Nat) (e : Src × Word) (m : Nat)
    (h : ∀ n : Fin 4, e.1.op = .mb n → e.2 = Table.val 0 n.val (s.core (slotCore k)).mb) :
    Table.val 0 m ((s.giveOne k e).core (slotCore k)).mb = Table.val 0 m (s.core (slotCore k)).mb := by
  obtain ⟨⟨o, sync⟩, v⟩ := e
  cases o with
  | g n => cases sync <;> rfl
  | q n => exact congrArg (Table.val 0 m ·.mb) (s.core_onCore ..)
  | mb n =>
    refine (congrArg (Table.val 0 m ·.mb) (s.core_onCore ..)).trans ?_
    by_cases hn : m = n.val
    · subst hn
      exact (val_put_same ..).trans (h n rfl)
    · exact val_put_other _ _ _ _ _ hn

/-! ## All sources -/

theorem State.takeAll_length (as : List Src) (s : State) : (s.takeAll as).1.length = as.length := by
  induction as generalizing s with
  | nil => rfl
  | cons a as ih => exact congrArg (· + 1) (ih _)

theorem foldl_or {α β : Type} (g : β → Bool) (f : β → α → β) (p : α → Bool) (h : ∀ b a, g (f b a) = (g b || p a)) (l : List α) (b : β) :
    g (l.foldl f b) = (g b || l.any p) := by
  induction l generalizing b with
  | nil => exact (Bool.or_false _).symm
  | cons a l ih => rw [List.foldl_cons, ih, h, List.any_cons, Bool.or_assoc]

theorem any_zip_fst {α β : Type} (p : α → Bool) (l : List α) (l' : List β) (h : l.length ≤ l'.length) :
    (l.zip l').reverse.any (fun e => p e.1) = l.any p := by
  rw [List.any_reverse]
  conv_rhs => rw [← List.map_fst_zip h, List.any_map]
  rfl

/-- The sources that `giveBack` gives back, the last first. -/
def State.giveAll (s : State) (k : Nat) (srcs : List Src) (vs : List Word) : State :=
  (srcs.zip vs).reverse.foldl (fun t e => t.giveOne k e) s

theorem State.operandsReady_queue {s : State} {srcs : List Src} {dsts : List Opnd} (h : s.operandsReady srcs dsts = true) (q : Nat) :
    countQ q (srcs.map (·.op)) ≤ (s.myCore.queue q).length := by
  simp only [State.operandsReady, Bool.and_eq_true, List.all_eq_true] at h
  rcases Nat.eq_zero_or_pos (countQ q (srcs.map (·.op))) with h0 | hpos
  · omega
  · obtain ⟨o, ho⟩ := List.exists_mem_of_length_pos hpos
    obtain ⟨hmem, hq⟩ := List.mem_filter.1 ho
    obtain ⟨a, ha, rfl⟩ := List.mem_map.1 hmem
    have hr := h.1 a ha
    cases hop : a.op with
    | q n =>
      rw [hop] at hr hq
      have hn : n.val = q := by simpa using hq
      subst hn
      simpa using hr
    | g n => simp [hop] at hq
    | mb n => simp [hop] at hq

/-- A register that a source clears was full. -/
theorem State.operandsReady_full {s : State} {srcs : List Src} {dsts : List Opnd} (h : s.operandsReady srcs dsts = true) {n : Nat}
    (hn : srcs.any (·.clears n) = true) : s.me.isFull n = true := by
  simp only [State.operandsReady, Bool.and_eq_true, List.all_eq_true] at h
  obtain ⟨a, ha, hc⟩ := List.any_eq_true.1 hn
  have hr := h.1 a ha
  obtain ⟨o, sync⟩ := a
  cases o with
  | g m =>
    simp only [Src.clears, Bool.and_eq_true, beq_iff_eq] at hc
    obtain ⟨rfl, rfl⟩ := hc
    simpa using hr
  | q m => cases hc
  | mb m => cases hc

/-- A mailbox that a source empties was full. -/
theorem State.operandsReady_mbFull {s : State} {srcs : List Src} {dsts : List Opnd} (h : s.operandsReady srcs dsts = true) {m : Nat}
    (hm : srcs.any (·.empties m) = true) : s.myCore.mbFull.getLsbD m = true := by
  simp only [State.operandsReady, Bool.and_eq_true, List.all_eq_true] at h
  obtain ⟨a, ha, hc⟩ := List.any_eq_true.1 hm
  have hr := h.1 a ha
  obtain ⟨o, sync⟩ := a
  cases o with
  | g n => cases hc
  | q n => cases hc
  | mb n =>
    simp only [Src.empties, beq_iff_eq] at hc
    subst hc
    exact hr

/-- The core that the sources were taken from has room for them. -/
theorem State.taken_hasRoom {s : State} {srcs : List Src} (h : s.operandsReady srcs [] = true)
    (hq : ∀ q, (s.myCore.queue q).length ≤ 8) : (s.taken srcs).myCore.hasRoom srcs = true := by
  refine List.all_eq_true.2 fun a ha => ?_
  cases ho : a.op with
  | g n => rfl
  | q n =>
    have hl := hq n.val
    have hc := State.operandsReady_queue h n.val
    rw [decide_eq_true_eq, State.taken_queue, List.length_drop]
    omega
  | mb m =>
    have hm : srcs.any (·.empties m.val) = true := List.any_eq_true.2 ⟨a, ha, by simp [Src.empties, ho]⟩
    simp only [State.taken_myCore, State.takeAll_mbFull_eq, hm, Bool.not_true, Bool.and_false, Bool.not_false]

/-- `t` has the operands of slot `k` that `s` has of its issuing slot: full bits, queues and mailboxes. -/
structure State.SameOperands (s t : State) (k : Nat) : Prop where
  full : ∀ n, (t.slot k).isFull n = s.me.isFull n
  queue : ∀ q, (t.core (slotCore k)).queue q = s.myCore.queue q
  mbFull : (t.core (slotCore k)).mbFull = s.myCore.mbFull
  mb : ∀ m, Table.val 0 m (t.core (slotCore k)).mb = Table.val 0 m s.myCore.mb

/-- What the operand step took is given back: each full bit, queue and mailbox is as before. -/
theorem State.taken_giveAll {s : State} {srcs : List Src} (h : s.operandsReady srcs [] = true) :
    s.SameOperands ((s.taken srcs).giveAll s.agent srcs (s.vals srcs)) s.agent := by
  have hcore : (s.taken srcs).core (slotCore s.agent) = (s.takeAll srcs).2.myCore := by
    rw [← State.taken_myCore, State.myCore, State.myCoreNum, State.taken_agent]
  have hslot : ∀ n, ((s.taken srcs).slot s.agent).isFull n = (s.takeAll srcs).2.me.isFull n := fun n => by
    rw [← s.taken_agent srcs]
    change (s.taken srcs).me.isFull n = _
    rw [State.taken, State.me_onMe]
    rfl
  have hlen : srcs.length ≤ (s.vals srcs).length := (State.takeAll_length srcs s).ge
  unfold State.giveAll
  constructor
  case full =>
    intro n
    rw [foldl_or (fun t : State => (t.slot s.agent).isFull n) _ (·.1.clears n) (fun t e => t.giveOne_isFull s.agent e n),
      any_zip_fst (·.clears n) _ _ hlen, hslot, State.takeAll_isFull]
    cases hc : srcs.any (·.clears n) with
    | false => simp
    | true => simp [State.operandsReady_full h hc]
  case queue =>
    exact fun q => State.takeAll_queue_undone srcs s _ s.agent q (congrArg (·.queue q) hcore) (State.operandsReady_queue h q)
  case mbFull =>
    refine BitVec.eq_of_getLsbD_eq fun m _ => ?_
    rw [foldl_or (fun t : State => (t.core (slotCore s.agent)).mbFull.getLsbD m) _ (·.1.empties m)
      (fun t e => t.giveOne_mbFull s.agent e m), any_zip_fst (·.empties m) _ _ hlen, hcore, State.takeAll_mbFull_eq]
    cases hc : srcs.any (·.empties m) with
    | false => simp
    | true => simp [State.operandsReady_mbFull h hc]
  case mb =>
    refine List.foldlRecOn (motive := fun t : State => ∀ m, Table.val 0 m (t.core (slotCore s.agent)).mb = Table.val 0 m s.myCore.mb)
      _ _ (fun m => by rw [hcore, State.takeAll_mb]) fun t ht e he m => ?_
    rw [State.giveOne_mb t s.agent e m fun n hn => ?_, ht]
    rw [State.takeAll_mb_vals srcs s (List.mem_reverse.1 he) hn, ht]

end Sys2Proof.Machine

end

section
/-! O19 of APPROVED.json: a precise trap leaves no effect (R63 of spec/03, R343 of spec/23). -/

namespace Sys2Proof.Machine

open Sys2Proof

section

variable {s u : State} {k : Nat}

theorem State.SameOperands.onSlot (h : s.SameOperands u k) {f : Slot → Slot} (hf : (f (u.slot k)).full = (u.slot k).full) :
    s.SameOperands (u.onSlot k f) k where
  full n := by
    rw [State.slot_onSlot, ← h.full n, Slot.isFull, hf, Slot.isFull]
  queue := h.queue
  mbFull := h.mbFull
  mb := h.mb

/-- A trap entry leaves the full bits, queues and mailboxes alone. -/
theorem State.SameOperands.trapSlot (h : s.SameOperands u k) (code : Nat) (tpc taddr : Word) (async : Bool) :
    s.SameOperands (u.trapSlot k code tpc taddr async) k := by
  have entry := trapEntrySavesAndVectors u k code tpc taddr async
  obtain ⟨hf, hc⟩ : ((u.trapSlot k code tpc taddr async).slot k).full = (u.slot k).full ∧
      (u.trapSlot k code tpc taddr async).cores = u.cores := by
    cases hs : (u.slot k).sup.sinh with
    | true =>
      obtain ⟨-, hm, hc, -⟩ := entry.1 hs
      obtain ⟨l, d, m, e⟩ := hm k
      exact ⟨congrArg (·.full) e, hc⟩
    | false =>
      obtain ⟨-, -, -, hfull, -, -, -, -, -, -, hc, -⟩ := entry.2 hs
      exact ⟨hfull, hc⟩
  have hcore : (u.trapSlot k code tpc taddr async).core (slotCore k) = u.core (slotCore k) := by
    rw [State.core, hc, State.core]
  refine ⟨fun n => ?_, fun q => ?_, ?_, fun m => ?_⟩
  · rw [← h.full n, Slot.isFull, hf, Slot.isFull]
  · rw [hcore, h.queue]
  · rw [hcore, h.mbFull]
  · rw [hcore, h.mb]

end

theorem State.taken_giveBack {s : State} {srcs : List Src} (h : s.operandsReady srcs [] = true)
    (hq : ∀ q, (s.myCore.queue q).length ≤ 8) : (s.taken srcs).giveBack s.agent =
      ((s.taken srcs).giveAll s.agent srcs (s.vals srcs)).onSlot s.agent fun x => { x with park := { x.park with vals := none } } := by
  have hp : ((s.taken srcs).slot s.agent).park.took = some srcs ∧ ((s.taken srcs).slot s.agent).park.vals = some (s.vals srcs) := by
    rw [← s.taken_agent srcs]
    change (s.taken srcs).me.park.took = _ ∧ (s.taken srcs).me.park.vals = _
    rw [State.taken, State.me_onMe]
    exact ⟨rfl, rfl⟩
  have hroom : ((s.taken srcs).core (slotCore s.agent)).hasRoom srcs = true := by
    have := State.taken_hasRoom h hq
    rwa [State.myCore, State.myCoreNum, State.taken_agent] at this
  simp only [State.giveBack, hp.1, hp.2, hroom, if_true]
  rfl

/-- The trap of an instruction that has taken its sources, at its end. -/
theorem State.taken_trapTo {s : State} {srcs : List Src} (h : s.operandsReady srcs [] = true)
    (hq : ∀ q, (s.myCore.queue q).length ≤ 8) (code : Nat) (taddr : Word) :
    s.SameOperands ((s.taken srcs).trapTo s.agent code taddr) s.agent := by
  unfold State.trapTo
  rw [State.taken_giveBack h hq]
  exact (((State.taken_giveAll h).onSlot rfl).onSlot (Slot.mild_checkpointHere _).full).trapSlot ..

end Sys2Proof.Machine

open Sys2Proof Sys2Proof.Machine

/-- Settles O19: the trap gives back what the operand step took, source by source from the last. -/
theorem preciseTrapLeavesNoEffect : Obligations.PreciseTrapLeavesNoEffect := by
  intro s srcs code taddr hs hr hq
  have stands := State.Stands.taken hs srcs
  refine ⟨stands.takesTrap code taddr, fun t ht => ?_⟩
  rw [State.trap_alone stands.once, State.taken_agent] at ht
  cases ht
  have hagent : ((s.taken srcs).trapTo s.agent code taddr).agent = s.agent := (stands.calm.trapTo s.agent code taddr).agent
  obtain ⟨full, queue, mbFull, mb⟩ := State.taken_trapTo hr.1 hq code taddr
  rw [State.me, State.myCore, State.myCoreNum, hagent]
  exact ⟨full, fun q _ => queue q, mbFull, mb⟩

end

section
/-! O30 of APPROVED.json: the order of events, and the write-back of a line (R98 and R99 of spec/05, R350 of spec/23). -/

namespace Sys2Proof.Machine

open Sys2Proof

/-- While the package runs the environment's next event is the oldest. -/
theorem State.nextInput_cons {s : State} {e : Input} {es : List Input} (h : s.inputs = e :: es) (hz : s.freeze = .off) :
    s.nextInput = some (e, { s with inputs := es }) := by
  simp only [State.nextInput, h, hz, if_true]

/-- While it is frozen no event comes that does not pass the freeze. -/
theorem State.nextInput_frozen {s : State} (hz : s.freeze ≠ .off) (h : ∀ e ∈ s.inputs, e.throughFreeze = false) :
    s.nextInput = none := by
  have none : s.inputs.find? Input.throughFreeze = none := List.find?_eq_none.2 fun e he => by simp [h e he]
  unfold State.nextInput
  split
  · rfl
  · next e es hi =>
    rw [if_neg hz, none]

theorem step_own {s : State} (h : s.nextInput = none) : step s = s.ownStep := by
  simp only [step, State.stepAll, h]

/-- An event without a row that does not leave the step to the machine. -/
theorem step_other {s t : State} {e : EnvEv} (h : s.nextInput = some (.other e, t)) (he : e ≠ .ownStep) : step s = execEnv e t := by
  simp only [step, State.stepAll, h]

theorem lineState_zero {bs : List Byte} (h : ∀ b ∈ bs, b = 0) (allowed : Bool) : lineState allowed bs = 0 := by
  have hb : bs.all (· == 0) = true := List.all_eq_true.2 fun b hb => by simp [h b hb]
  exact if_pos hb

theorem lineState_nonzero {bs : List Byte} (h : ¬∀ b ∈ bs, b = 0) (allowed : Bool) :
    1 ≤ lineState allowed bs ∧ lineState allowed bs ≤ 8 ∧ (allowed = false → lineState allowed bs = 8) := by
  have hb : ¬bs.all (· == 0) = true := fun hb => h fun b hm => by simpa using List.all_eq_true.1 hb b hm
  unfold lineState
  dsimp only
  rw [if_neg hb]
  split
  · next hn =>
    simp only [Bool.and_eq_true, decide_eq_true_eq] at hn
    exact ⟨hn.1.2, by omega, fun ha => by simp [ha] at hn⟩
  · exact ⟨by decide, le_rfl, fun _ => rfl⟩

end Sys2Proof.Machine

open Sys2Proof Sys2Proof.Machine

/-- Settles O30: the step asks for the environment's next event first, and then for an event that is due. -/
theorem eventsComeBeforeTurns : Obligations.EventsComeBeforeTurns := by
  intro s
  refine ⟨fun e es hi hz => ?_, fun e es hi he hz => ?_, fun es hi hz => ?_, fun hi => ?_, fun hz hi => ?_, fun e hi hz hd => ?_,
    fun line x hx => ?_⟩
  · simp only [step, State.stepAll, State.nextInput_cons hi hz]
  · exact step_other (State.nextInput_cons hi hz) he
  · simp only [step, State.stepAll, State.nextInput_cons hi hz]
  · exact step_own (by simp only [State.nextInput, hi])
  · rw [step_own (State.nextInput_frozen hz hi), State.ownStep, if_pos (by simpa using hz)]
  · rw [step_own (by simp only [State.nextInput, hi]), State.ownStep, if_neg (by simp [hz]), hd]
  · have written : execEnv (.writeBack line) s = .next { s with
        dirty := Table.del line s.dirty
        lines := Table.put line (lineState x.allowed (memRead s.mem (512 * line) 512)) s.lines } := by
      simp only [execEnv, State.writeBack, hx]
    refine ⟨_, written, rfl, ?_⟩
    dsimp only
    rw [val_put_same]
    exact ⟨fun h => lineState_zero h _, fun h => lineState_nonzero h _⟩

end

section
/-! SUPPORT. Reading a context, a unit, a node or a group after one was written (R233 to R240 of spec/14). -/

namespace Sys2Proof.Machine

open Sys2Proof

/-! ## Contexts and groups -/

theorem State.ctx_setCtx (s : State) (a : Nat) (c : Option Ctx) : (s.setCtx a c).ctx a = c := val_put_same ..

theorem State.ctx_setCtx_other (s : State) {a b : Nat} (c : Option Ctx) (h : b ≠ a) : (s.setCtx a c).ctx b = s.ctx b :=
  val_put_other _ _ _ _ _ h

theorem State.ctx_onCtx_eq (s : State) (a b : Nat) (f : Ctx → Ctx) :
    (s.onCtx a f).ctx b = if b = a then (s.ctx a).map f else s.ctx b := by
  unfold State.onCtx
  split
  · next h =>
    split
    · next hb => rw [hb, h, Option.map_none]
    · rfl
  · next c h =>
    split
    · next hb => rw [hb, h, State.ctx_setCtx, Option.map_some]
    · next hb => exact s.ctx_setCtx_other _ hb

theorem State.group_onGroup_eq (s : State) (g k : Nat) (f : Group → Group) :
    (s.onGroup g f).group k = if k = g then (s.group g).map f else s.group k := by
  unfold State.onGroup
  split
  · next h =>
    split
    · next hk => rw [hk, h, Option.map_none]
    · rfl
  · next x h =>
    split
    · next hk =>
      rw [hk, h, Option.map_some]
      exact val_put_same ..
    · next hk => exact val_put_other _ _ _ _ _ hk

/-! ## Units and nodes -/

theorem find?_map_at {α : Type} (h : Nat) (f : α → α) (k : Nat) (l : List (Nat × α)) :
    ((l.map fun e => if e.1 = h then (e.1, f e.2) else e).find? (·.1 == k)).map (·.2) =
      if k = h then ((l.find? (·.1 == h)).map (·.2)).map f else (l.find? (·.1 == k)).map (·.2) := by
  induction l with
  | nil => simp
  | cons e l ih =>
    obtain ⟨j, x⟩ := e
    by_cases hj : j = h
    · subst hj
      by_cases hk : k = j
      · subst hk
        simp
      · have : (j == k) = false := by simp [Ne.symm hk]
        simp only [List.map_cons, if_true, List.find?_cons, this, hk, if_false] at ih ⊢
        exact ih
    · by_cases hk : j = k
      · subst hk
        simp [hj]
      · have hjk : (j == k) = false := by simp [hk]
        have hjh : (j == h) = false := by simp [hj]
        simp only [List.map_cons, hj, if_false, List.find?_cons, hjk, hjh] at ih ⊢
        exact ih

theorem State.unit_onUnit (s : State) (a h b k : Nat) (f : WorkUnit → WorkUnit) :
    (s.onUnit a h f).unit b k = if b = a ∧ k = h then (s.unit a h).map f else s.unit b k := by
  unfold State.unit State.onUnit
  rw [State.ctx_onCtx_eq]
  by_cases hb : b = a
  · subst hb
    rw [if_pos rfl]
    cases s.ctx b with
    | none => simp
    | some c => simp only [Option.map_some, Ctx.unit, find?_map_at, true_and]
  · simp [hb]

theorem State.unit_onUnit_same {s : State} {a h : Nat} {u : WorkUnit} (hu : s.unit a h = some u) (f : WorkUnit → WorkUnit) :
    (s.onUnit a h f).unit a h = some (f u) := by
  rw [State.unit_onUnit, if_pos ⟨rfl, rfl⟩, hu, Option.map_some]

theorem State.unit_onUnit_other (s : State) {a h b k : Nat} (f : WorkUnit → WorkUnit) (hk : k ≠ h) :
    (s.onUnit a h f).unit b k = s.unit b k := by
  rw [State.unit_onUnit, if_neg fun e => hk e.2]

/-- An update of a unit that leaves its nodes alone. -/
theorem State.nodeOf_onUnit (s : State) (a h b k n : Nat) {f : WorkUnit → WorkUnit} (hf : ∀ u, (f u).nodes = u.nodes) :
    (s.onUnit a h f).nodeOf b k n = s.nodeOf b k n := by
  unfold State.nodeOf
  rw [State.unit_onUnit]
  by_cases e : b = a ∧ k = h
  · obtain ⟨rfl, rfl⟩ := e
    rw [if_pos ⟨rfl, rfl⟩]
    cases s.unit b k with
    | none => rfl
    | some u => simp only [Option.map_some, hf]
  · rw [if_neg e]

theorem State.nodeOf_onNode (s : State) (a h n m : Nat) (f : GNode → GNode) :
    (s.onNode a h n f).nodeOf a h m = if m = n then (s.nodeOf a h n).map f else s.nodeOf a h m := by
  unfold State.nodeOf State.onNode
  rw [State.unit_onUnit, if_pos ⟨rfl, rfl⟩]
  cases s.unit a h with
  | none => simp
  | some u =>
    simp only [Option.map_some, List.getElem?_mapIdx]
    split
    · next e =>
      subst e
      simp
    · simp

/-- The nodes that edges do not reach stay as they are. -/
theorem State.nodeOf_resolveEdges (s : State) (a h : Nat) (edges sat : List Nat) {n : Nat} (hn : ∀ e ∈ edges, e ≠ n) :
    (s.resolveEdges a h edges sat).1.nodeOf a h n = s.nodeOf a h n := by
  unfold State.resolveEdges
  refine List.foldlRecOn (motive := fun p : State × List WorkEv => p.1.nodeOf a h n = s.nodeOf a h n) _ _ rfl fun p hp e he => ?_
  dsimp only
  split
  · exact hp
  · rw [State.nodeOf_onNode, if_neg (Ne.symm (hn e he)), hp]

end Sys2Proof.Machine

end

section
/-! O53 of APPROVED.json: aged groups, expired reservations and copy nodes (R254 to R256 of spec/15, R310 of spec/20). -/

namespace Sys2Proof.Machine

open Sys2Proof

/-! ## A reservation (R254) -/

theorem minBy_mem (f : Nat → Nat) {n : Nat} : ∀ {l : List Nat}, minBy f l = some n → n ∈ l
  | [], h => absurd h nofun
  | m :: l, h => by
    unfold minBy at h
    split at h
    · cases h
      exact List.mem_cons_self
    · next k hk =>
      split at h
      · cases h
        exact List.mem_cons_self
      · cases h
        exact List.mem_cons_of_mem _ (minBy_mem f hk)

/-- A group reserves no tile, or one of its die that its context holds and nothing has reserved. -/
theorem State.reserveFor_cases {s : State} {g : Nat} {x : Group} (h : s.group g = some x) :
    s.reserveFor g x = s ∨ ∃ t, t / 24 = x.die ∧ (s.tile t).owner = some x.asid ∧ (s.tile t).reserved = none ∧
      ((s.reserveFor g x).tile t).reserved = some g ∧ (s.reserveFor g x).group g = some { x with reserve := some (t, s.clock) } := by
  unfold State.reserveFor
  split
  · exact .inl rfl
  · dsimp only
    split
    · exact .inl rfl
    · next t ht =>
      obtain ⟨hmem, hfit⟩ := List.mem_filter.1 (minBy_mem _ ht)
      obtain ⟨i, hi, rfl⟩ := List.mem_map.1 hmem
      have hi := List.mem_range.1 hi
      simp only [Bool.and_eq_true, beq_iff_eq] at hfit
      refine .inr ⟨i + 24 * x.die, by omega, hfit.1.1, hfit.1.2, ?_, ?_⟩
      · rw [State.tile, State.onGroup_tiles, ← State.tile, State.tile_onTile]
      · rw [State.group_onGroup_eq, if_pos rfl, State.group, State.onTile_groups, ← State.group, h]
        rfl

theorem State.ageDue_reserves {s : State} {g : Nat} {x : Group} (h : s.group g = some x) (hd : s.ageDue g = true) :
    s.reserveFor g x ≠ s := by
  intro e
  simp only [State.ageDue, h, e] at hd
  split at hd
  · cases hd
  · cases hx : x.reserve <;> simp [hx] at hd

/-! ## The end of a node (R237) -/

theorem State.workEv_nodeEnd {s : State} {a h n : Nat} {x : GNode} (hx : s.nodeOf a h n = some x) (hr : x.state = .running) :
    let t := (s.onNode a h n fun y => { y with state := .done }).onUnit a h fun u => { u with count := u.count + 1 }
    let r := t.resolveEdges a h x.succ (if x.kind == .conditional then x.taken else x.succ)
    s.workEv a (.nodeEnd h n true) = (r.1, r.2 ++ [.check h]) := by
  simp [State.workEv, hx, hr]

end Sys2Proof.Machine

open Sys2Proof Sys2Proof.Machine

/-- Settles O53: an aged group has a tile to reserve; the end of a node leaves the nodes that its edges do not reach. -/
theorem groupsAgeAndCopiesEnd : Obligations.GroupsAgeAndCopiesEnd := by
  refine ⟨fun g x s hg => ⟨fun hd => ?_, fun hd => ⟨?_, ?_⟩, fun he => ?_, fun t at_ hx he hn => ?_⟩,
    fun asid graph node x s t hx => ⟨fun r u hk hr hc hu hcopy => ?_, fun hr => ?_⟩⟩
  · change execGroupAgeLimit g s = _
    simp [execGroupAgeLimit, hg, hd]
  · change execGroupAgeLimit g s = _
    simp [execGroupAgeLimit, hg, hd]
  · rcases State.reserveFor_cases hg with e | ⟨t, hdie, hown, hfree, hres, hgroup⟩
    · exact absurd e (State.ageDue_reserves hg hd)
    · exact ⟨t, hgroup, hdie, hown, hfree, hres⟩
  · change execReservationExpires g s = _
    simp [execReservationExpires, hg, he]
  · change execReservationExpires g s = _
    simp only [execReservationExpires, hg, he, hx, hn, Bool.not_true, Bool.false_eq_true, if_false, State.onGroup_clock]
    rw [handleOf, Nat.zero_mul, Nat.zero_add]
    rfl
  · subst hu
    change execCopyNodeDone asid graph node s = _
    unfold execCopyNodeDone
    cases hw : s.writesHeld with
    | true => simp [hx]
    | false => simp [hx, hk, hr, hc, hcopy]
  · rw [State.workEv_nodeEnd hx hr]
    refine ⟨by simp, fun hs => ?_⟩
    rw [State.nodeOf_resolveEdges _ _ _ _ _ hs,
      State.nodeOf_onUnit (f := fun u => { u with count := u.count + 1 }) _ _ _ _ _ _ fun _ => rfl,
      State.nodeOf_onNode, if_pos rfl, hx]
    rfl

end

section
/-! O39 of APPROVED.json: HINIT, HARR and HWAIT on a hurdle in the own paddock (R258 to R261 of spec/16). -/

namespace Sys2Proof.Machine

open Sys2Proof

/-! ## The word of a hurdle -/

theorem hurdleOf_hurdleBits {e r p z : Nat} (he : e < 2 ^ 32) (hr : r < 2 ^ 32) (hp : p < 2 ^ 32) (hz : z < 8) :
    hurdleOf (Stmt.hurdleBits e r p z) = { expect := e, arrived := r, phase := p, scope := z, rest := 0 } := by
  simp only [hurdleOf, Stmt.hurdleBits, bitsAt, Hurdle.mk.injEq]
  omega

/-- A word that is no hurdle's is refused. -/
theorem hurdleOf_ok_false {v : Nat} (h : Stmt.noHurdle v) : (hurdleOf v).ok = false := by
  rw [← Bool.not_eq_true]
  intro ok
  simp only [Hurdle.ok, hurdleOf, bitsAt, Bool.and_eq_true, beq_iff_eq] at ok
  obtain ⟨⟨⟨⟨-, hr⟩, hz⟩, hz4⟩, hrest⟩ := ok
  have hr := of_decide_eq_true hr

  refine h ⟨v / 2 ^ 0 % 2 ^ 32, v / 2 ^ 32 % 2 ^ 32, v / 2 ^ 64 % 2 ^ 32, v / 2 ^ 96 % 2 ^ 3, hr, ?_, ?_,
    of_decide_eq_true hz, of_decide_eq_true hz4, ?_⟩
  · omega
  · omega
  · simp only [Stmt.hurdleBits]
    omega

/-! ## A hurdle in the own paddock -/

/-- An address of the window of the own paddock. -/
def inPaddock (ea : Word) : Prop := ea.toNat / 2 ^ 40 = 0xFFFFFE

section

variable {s : State} {ea : Word} {pa : Nat}

theorem State.place_inPaddock {core asid n : Nat} {h : Home} (hi : inPaddock ea) (hp : s.place core asid ea n = .ok pa h) :
    h ≠ .tcm := by
  rintro rfl
  unfold inPaddock at hi
  simp only [State.place, hi] at hp
  split_ifs at hp <;> simp_all

theorem State.hurdleAccess_near (hn : Stmt.near s ea 16 pa) (hi : inPaddock ea) (k : List Piece → Out) :
    s.hurdleAccess ea k = k [nearPiece pa 16 .ownPaddock] := by
  obtain ⟨hal, hplace, hbad⟩ := hn
  have hp : s.place s.myCoreNum (s.asidOf s.agent) ea 16 = .ok pa .ownPaddock :=
    hplace.resolve_left fun hp => State.place_inPaddock hi hp rfl
  have acc : s.access s.agent ea 16 (s.need true true) = .ok [nearPiece pa 16 .ownPaddock] := by
    rw [State.access, show s.place (slotCore s.agent) (s.asidOf s.agent) ea 16 = .ok pa .ownPaddock from hp]
    rfl
  rw [State.hurdleAccess, State.checked, State.withAccess, acc, hal]
  rfl

theorem State.hurdleAccess_misaligned (hal : ea.toNat % 16 ≠ 0) (k : List Piece → Out) : s.hurdleAccess ea k = s.trap 0x141 ea := by
  rw [State.hurdleAccess, State.checked, if_pos (by simpa using hal)]

theorem State.writable_near (n : Nat) (k : State → Out) : s.writable [nearPiece pa n .ownPaddock] k = k s := rfl

theorem State.farThen_near (n : Nat) (k : State → Out) : s.farThen ea [nearPiece pa n .ownPaddock] k = k s := rfl

theorem State.putHurdle_near (h : Hurdle) : s.putHurdle [nearPiece pa 16 .ownPaddock] h = s.write pa (leBytes h.word 16) := by
  have whole : (leBytes h.word 16).take 16 = leBytes h.word 16 := List.take_of_length_le (leBytes_length ..).le
  rw [State.putHurdle, State.storePieces, State.storePieces, show (nearPiece pa 16 .ownPaddock).len = 16 from rfl, whole]
  rfl

end

/-! ## How they end -/

/-- `v` is a state within an instruction that began in `s`, whose issuing slot differs in full bits, monitors and what is parked
alone. -/
structure State.SameSlot (s v : State) : Prop where
  slot : ∃ f m q, v.me = { s.me with full := f, mon := m, park := q }
  once : v.me.park.once = false

section

variable {s v w : State}

theorem State.SameSlot.taken (h : s.atStart) (srcs : List Src) : s.SameSlot (s.taken srcs) where
  slot := by
    have back := congrArg (fun y : Slot => { y with full := (s.taken srcs).me.full, park := (s.taken srcs).me.park })
      (s.taken_bare srcs)
    exact ⟨_, _, _, back⟩
  once := s.taken_once srcs h.2.2

theorem State.SameSlot.of_me (h : s.SameSlot v) (hw : w.me = v.me) : s.SameSlot w := ⟨hw ▸ h.slot, hw ▸ h.once⟩

theorem State.SameSlot.write (h : s.SameSlot v) (pa : Nat) (bs : List Byte) : s.SameSlot (v.write pa bs) where
  slot := by
    obtain ⟨f, m, q, e⟩ := h.slot
    rw [State.write_me, e]
    exact ⟨f, _, q, rfl⟩
  once := (v.write_once pa bs {}).trans h.once

variable (h : s.SameSlot v)

include h

theorem State.SameSlot.complete_pc : v.me.complete.pc = s.me.complete.pc := by
  obtain ⟨f, m, q, e⟩ := h.slot
  rw [Slot.complete_pc, Slot.complete_pc, e]
  rfl

/-- The instruction ends. -/
theorem State.SameSlot.ends : v.done = .next (v.onMe Slot.complete) ∧ (v.onMe Slot.complete).me.pc = s.me.complete.pc ∧
    s.sameRegs (v.onMe Slot.complete) 32 := by
  refine ⟨State.done_alone _ h.once, by rw [State.me_onMe, h.complete_pc], ?_⟩
  obtain ⟨f, m, q, e⟩ := h.slot
  rw [State.sameRegs, State.me_onMe, e]
  exact ⟨fun n _ => Slot.reg_complete .., Slot.complete_p _, Slot.complete_v _, Slot.complete_k _⟩

/-- It ends with a result. -/
theorem State.SameSlot.endsReg (a : Nat) (r : Word) :
    let t := (v.onMe (·.setReg a r)).onMe Slot.complete
    v.doneRegs [(a, r)] = .next t ∧ t.me.pc = s.me.complete.pc ∧ s.sameRegs t a ∧ (a ≠ 0 → t.me.reg a = r) := by
  have me : ((v.onMe (·.setReg a r)).onMe Slot.complete).me = (v.me.setReg a r).complete := by rw [State.me_onMe, State.me_onMe]
  refine ⟨State.doneRegs_one _ _ _ h.once, ?_, ?_, fun ha => ?_⟩
  · rw [me, Slot.complete_pc, Slot.loopNext_setReg, ← Slot.complete_pc, h.complete_pc]
  · obtain ⟨f, m, q, e⟩ := h.slot
    rw [State.sameRegs, me, e]
    exact ⟨fun n hn => (Slot.reg_complete ..).trans (Slot.reg_setReg_other _ _ _ _ hn),
      (Slot.complete_p _).trans (Slot.setReg_p ..), (Slot.complete_v _).trans (Slot.setReg_v ..),
      (Slot.complete_k _).trans (Slot.setReg_k ..)⟩
  · rw [me, Slot.reg_complete, Slot.reg_setReg _ _ _ ha]

end

section

variable {s : State} (h : s.atStart) (srcs : List Src) (pa : Nat) (bs : List Byte)

include h

/-- An instruction that ends with a store. -/
theorem taken_write_done : ∃ t, ((s.taken srcs).write pa bs).done = .next t ∧ t.me.pc = s.me.complete.pc ∧ s.sameRegs t 32 ∧
    t.mem = memWrite s.mem pa bs := by
  obtain ⟨run, hpc, hregs⟩ := ((State.SameSlot.taken h srcs).write pa bs).ends
  exact ⟨_, run, hpc, hregs, by rw [State.onMe_mem, State.write_mem, State.taken_mem]⟩

/-- One that ends with a store and a result. -/
theorem taken_write_doneRegs (a : Nat) (r : Word) :
    ∃ t, ((s.taken srcs).write pa bs).doneRegs [(a, r)] = .next t ∧ t.me.pc = s.me.complete.pc ∧ s.sameRegs t a ∧
      (a ≠ 0 → t.me.reg a = r) ∧ t.mem = memWrite s.mem pa bs := by
  obtain ⟨run, hpc, hregs, hreg⟩ := ((State.SameSlot.taken h srcs).write pa bs).endsReg a r
  exact ⟨_, run, hpc, hregs, hreg, by rw [State.onMe_mem, State.onMe_mem, State.write_mem, State.taken_mem]⟩

end

/-! ## Parking on a condition (R30, R38 of spec/02) -/

/-- A parked slot with no request outstanding halts at once. -/
theorem Slot.halt_parked {x : Slot} (hs : x.status = .parked) (hl : x.park.left = false) : x.halt.status = .halted := by
  simp only [Slot.halt, hs, hl, Bool.and_false, Bool.false_and, Bool.false_eq_true, if_false, Bool.not_false]
  split
  · rfl
  · rw [if_pos]
    split <;> rfl

/-- A slot that has not been asked to halt parks. -/
theorem Slot.parkOn_parks {x : Slot} (w : Wait) (hh : x.haltReq = false) :
    (x.parkOn w).status = .parked ∧ (x.parkOn w).park.wait = some w := by
  simp only [Slot.parkOn, hh]
  exact ⟨rfl, rfl⟩

/-- One that has halts, where no request of it is outstanding. -/
theorem Slot.parkOn_halts {x : Slot} (w : Wait) (hh : x.haltReq = true) (hl : x.park.left = false) :
    (x.parkOn w).status = .halted := by
  simp only [Slot.parkOn, hl, Bool.false_and, hh]
  exact Slot.halt_parked (x := { x with
    status := .parked, haltReq := false, park := { x.park with wait := some w, left := false } }) rfl rfl

/-- A park of the issuing slot. -/
theorem State.Stands.parks {s u : State} (h : s.Stands u) (hh : u.me.haltReq = s.me.haltReq) (w : Wait) :
    ∃ t, u.park w = .next t ∧ t.mem = u.mem ∧ s.sameRegs t 32 ∧
      (s.me.haltReq = false → t.me.status = .parked ∧ t.me.park.wait = some w) ∧
      (s.me.haltReq = true → u.me.park.left = false → t.me.status = .halted) := by
  have parked := h.calm.mildMe (f := (·.parkOn w)) (Slot.mild_parkOn _ w)
  refine ⟨_, rfl, rfl, parked.sameRegs, ?_, ?_⟩
  · rw [State.me_onMe, ← hh]
    exact Slot.parkOn_parks w
  · rw [State.me_onMe, ← hh]
    exact Slot.parkOn_halts w

theorem State.Stands.unasked {s u : State} (h : s.Stands u) : s.Stands (u.onMe Slot.unasked) where
  calm := h.calm.mildMe (f := Slot.unasked) .other
  once := by
    rw [State.me_onMe]
    exact h.once
  pc := by
    rw [State.me_onMe]
    exact h.pc
  view := by
    have view := h.view
    have slot : (u.onMe Slot.unasked).slot u.agent = u.me.unasked := State.me_onMe ..
    unfold State.trapView at view ⊢
    rw [show (u.onMe Slot.unasked).agent = u.agent from rfl, slot]
    exact view

theorem State.taken_haltReq (s : State) (srcs : List Src) : (s.taken srcs).me.haltReq = s.me.haltReq :=
  congrArg (·.haltReq) (s.taken_bare srcs)

/-! ## The three instructions -/

section

variable {s : State} {gd : Guard} {a : Fin 32} {b c : Src} {ea : Word} {pa : Nat} (h : s.atStart) (hg : s.me.guardOk gd = true)

include h hg

section

variable {scope : Scope} {d : BitVec 24} (hc : s.canRun [b, c] []) (hea : ea = arg (s.vals [b, c]) 0 + d.signExtend 64)

include hc hea

theorem execHinit_near {n : Nat} (hv : n = (arg (s.vals [b, c]) 1).toNat) (hr : s.me.rep.count = 0) (hn : Stmt.near s ea 16 pa)
    (hi : inPaddock ea) :
    exec (.hinit gd scope b c d) s =
      if n = 0 || 2 ^ 32 ≤ n then (s.taken [b, c]).trap 0x285 ea
      else ((s.taken [b, c]).write pa (leBytes (Stmt.hurdleBits n 0 0 scope.code) 16)).done := by
  change execHinit gd scope b c d s = _
  have hrep : (s.taken [b, c]).me.rep.count = 0 := (congrArg (·.count) (s.taken_rep [b, c])).trans hr
  rw [execHinit, State.guarded_true _ _ _ hg, State.operands_run _ _ _ _ h hc]
  change State.hurdleAccess _ (arg (s.vals [b, c]) 0 + d.signExtend 64) _ = _
  rw [← hea, State.hurdleAccess_near (s.taken_near _ hn) hi]
  simp only [State.writable_near, State.votePoint_alone hrep, State.farThen_near, ← hv, ← hea, State.putHurdle_near, baseDisp, sextWord]
  rfl

theorem execHinit_misaligned (hal : ea.toNat % 16 ≠ 0) : exec (.hinit gd scope b c d) s = (s.taken [b, c]).trap 0x141 ea := by
  change execHinit gd scope b c d s = _
  rw [execHinit, State.guarded_true _ _ _ hg, State.operands_run _ _ _ _ h hc]
  change State.hurdleAccess _ (arg (s.vals [b, c]) 0 + d.signExtend 64) _ = _
  rw [← hea, State.hurdleAccess_misaligned hal]

end

section

variable {d : BitVec 24} (hc : s.canRun [b] []) (hea : ea = arg (s.vals [b]) 0 + d.signExtend 64)

include hc hea

theorem execHarr_near {x : Hurdle} (hx : hurdleOf (leNat (memRead s.mem pa 16)) = x) (hr : s.me.rep.count = 0)
    (hb : s.me.rep.buffer = []) (hn : Stmt.near s ea 16 pa) (hi : inPaddock ea) :
    exec (.harr gd a b d) s =
      if !x.ok then (s.taken [b]).trap 0x285 ea
      else ((s.taken [b]).write pa (leBytes x.arrive.1.word 16)).doneRegs [(a.val, x.arrive.2)] := by
  change execHarr gd a b d s = _
  have hrep : (s.taken [b]).me.rep = s.me.rep := s.taken_rep [b]
  rw [execHarr, State.guarded_true _ _ _ hg, State.operands_run _ _ _ _ h hc]
  change State.hurdleAccess _ (arg (s.vals [b]) 0 + d.signExtend 64) _ = _
  have near := s.taken_near [b] hn
  rw [← hea, State.hurdleAccess_near near hi]
  simp only [State.writable_near, State.votePoint_alone ((congrArg (·.count) hrep).trans hr), State.farThen_near, ← hea,
    State.putHurdle_near, baseDisp, sextWord]
  change State.readable _ ea [nearPiece pa 16 .ownPaddock] _ = _
  rw [State.readable_near (.inr rfl) near.2.2 ((congrArg (·.buffer) hrep).trans hb), State.taken_mem, hx]

theorem execHarr_misaligned (hal : ea.toNat % 16 ≠ 0) : exec (.harr gd a b d) s = (s.taken [b]).trap 0x141 ea := by
  change execHarr gd a b d s = _
  rw [execHarr, State.guarded_true _ _ _ hg, State.operands_run _ _ _ _ h hc]
  change State.hurdleAccess _ (arg (s.vals [b]) 0 + d.signExtend 64) _ = _
  rw [← hea, State.hurdleAccess_misaligned hal]

end

section

variable {d : BitVec 20} (hc : s.canRun [plain (.g a), b] []) (hea : ea = arg (s.vals [plain (.g a), b]) 1 + d.signExtend 64)

include hc hea

theorem execHwait_near {x : Hurdle} {q : Nat} (hx : hurdleOf (leNat (memRead s.mem pa 16)) = x)
    (hv : q = (s.me.reg a.val).toNat % 2 ^ 32) (hb : s.me.rep.buffer = []) (hn : Stmt.near s ea 16 pa) (hi : inPaddock ea) :
    exec (.hwait gd a b d) s =
      if !x.ok then (s.taken [plain (.g a), b]).trap 0x285 ea
      else if x.phase != q then (s.taken [plain (.g a), b]).done
      else ((s.taken [plain (.g a), b]).onMe Slot.unasked).park (.hurdle pa q) := by
  change execHwait gd a b d s = _
  rw [execHwait, State.guarded_true _ _ _ hg, State.operands_run _ _ _ _ h hc]
  change State.hurdleAccess _ (arg (s.vals [plain (.g a), b]) 1 + d.signExtend 64) _ = _
  have near := s.taken_near [plain (.g a), b] hn
  rw [← hea, State.hurdleAccess_near near hi]
  simp only [State.farThen_near, ← hea, baseDisp, sextWord]
  change State.readable _ ea [nearPiece pa 16 .ownPaddock] _ = _
  rw [State.readable_near (.inr rfl) near.2.2 ((congrArg (·.buffer) (s.taken_rep _)).trans hb), State.taken_mem, hx, hv]
  rfl

theorem execHwait_misaligned (hal : ea.toNat % 16 ≠ 0) :
    exec (.hwait gd a b d) s = (s.taken [plain (.g a), b]).trap 0x141 ea := by
  change execHwait gd a b d s = _
  rw [execHwait, State.guarded_true _ _ _ hg, State.operands_run _ _ _ _ h hc]
  change State.hurdleAccess _ (arg (s.vals [plain (.g a), b]) 1 + d.signExtend 64) _ = _
  rw [← hea, State.hurdleAccess_misaligned hal]

end

end

/-! ## An arrival (R261) -/

section

variable {e r p z : Nat} (hre : r < e) (he : e < 2 ^ 32) (hp : p < 2 ^ 32)

include hre he hp

theorem hurdleOf_ok_true (h1 : 1 ≤ z) (h4 : z ≤ 4) : (hurdleOf (Stmt.hurdleBits e r p z)).ok = true := by
  rw [hurdleOf_hurdleBits he (hre.trans he) hp (by omega)]
  simp [Hurdle.ok, hre, h1, h4]
  omega

theorem arrive_more (hz : z < 8) (h : r + 1 < e) : (hurdleOf (Stmt.hurdleBits e r p z)).arrive =
    ({ expect := e, arrived := r + 1, phase := p, scope := z, rest := 0 }, BitVec.ofNat 64 p) := by
  rw [hurdleOf_hurdleBits he (hre.trans he) hp hz]
  simp [Hurdle.arrive, bit, h.ne]

theorem arrive_last (hz : z < 8) (h : r + 1 = e) : (hurdleOf (Stmt.hurdleBits e r p z)).arrive =
    ({ expect := e, arrived := 0, phase := (p + 1) % 2 ^ 32, scope := z, rest := 0 }, BitVec.ofNat 64 (p + 2 ^ 32)) := by
  rw [hurdleOf_hurdleBits he (hre.trans he) hp hz]
  simp [Hurdle.arrive, bit, h]

end

end Sys2Proof.Machine

open Sys2Proof Sys2Proof.Machine

/-- Settles O39: each instruction on a near hurdle is one case of what its word says. -/
theorem hurdlesCountArrivals : Obligations.HurdlesCountArrivals := by
  intro gd scope a b c d24 d20 pa s h hg hr hb
  refine ⟨fun hc => ?_, fun hc => ?_, fun hc => ?_⟩
  · have stands := State.Stands.taken h [b, c]
    refine ⟨fun hn hi h1 h2 => ?_, fun hn hi ho => ?_, fun hal => ?_⟩
    · rw [execHinit_near h hg hc rfl rfl hr hn hi, if_neg (by simp; omega)]
      exact taken_write_done h ..
    · rw [execHinit_near h hg hc rfl rfl hr hn hi, if_pos (by simpa using ho)]
      exact stands.takesTrap ..
    · rw [execHinit_misaligned h hg hc rfl hal]
      exact stands.takesTrap ..
  · have stands := State.Stands.taken h [b]
    refine ⟨fun e r p z hn hi hre he hp h1 h4 hw => ?_, fun hn hi ho => ?_, fun hal => ?_⟩
    · rw [execHarr_near h hg hc rfl (congrArg hurdleOf hw) hr hb hn hi, hurdleOf_ok_true hre he hp h1 h4]
      refine ⟨fun hm => ?_, fun hl => ?_⟩
      · rw [arrive_more hre he hp (by omega) hm]
        exact taken_write_doneRegs h ..
      · rw [arrive_last hre he hp (by omega) hl]
        exact taken_write_doneRegs h ..
    · rw [execHarr_near h hg hc rfl rfl hr hb hn hi, hurdleOf_ok_false ho]
      exact stands.takesTrap ..
    · rw [execHarr_misaligned h hg hc rfl hal]
      exact stands.takesTrap ..
  · have stands := State.Stands.taken h [plain (.g a), b]
    refine ⟨fun hn hi ho => ?_, fun hal => ?_, fun e r p z hn hi hre he hp h1 h4 hw => ⟨fun hq => ?_, fun hq => ?_⟩⟩
    · rw [execHwait_near h hg hc rfl rfl rfl hb hn hi, hurdleOf_ok_false ho]
      exact stands.takesTrap ..
    · rw [execHwait_misaligned h hg hc rfl hal]
      exact stands.takesTrap ..
    · rw [execHwait_near h hg hc rfl (congrArg hurdleOf hw) rfl hb hn hi, hurdleOf_ok_true hre he hp h1 h4,
        hurdleOf_hurdleBits he (hre.trans he) hp (by omega)]
      have hne : (p != (s.me.reg a.val).toNat % 2 ^ 32) = true := by simpa using hq
      simp only [Bool.not_true, Bool.false_eq_true, if_false, hne, if_true]
      exact State.done_alone _ stands.once
    · rw [execHwait_near h hg hc rfl (congrArg hurdleOf hw) rfl hb hn hi, hurdleOf_ok_true hre he hp h1 h4,
        hurdleOf_hurdleBits he (hre.trans he) hp (by omega)]
      simp only [← hq, bne_self_eq_false, Bool.not_true, Bool.false_eq_true, if_false]
      have asked : ((s.taken [plain (.g a), b]).onMe Slot.unasked).me.haltReq = s.me.haltReq := by
        rw [State.me_onMe]
        exact s.taken_haltReq _
      obtain ⟨t, run, hmem, hregs, hpark, hhalt⟩ := stands.unasked.parks asked (.hurdle pa p)
      exact ⟨t, run, hmem.trans (s.taken_mem _), hregs, hpark, fun hh _ => hhalt hh (by rw [State.me_onMe]; rfl)⟩

end

section
/-! O40 of APPROVED.json: what the hurdle instructions change (R258 to R261 of spec/16). -/

namespace Sys2Proof.Machine

open Sys2Proof

/-! ## A store over pieces -/

/-- A byte of one of the pieces. -/
def onPieces (ps : List Piece) (m : Nat) : Prop := ∃ p ∈ ps, p.pa ≤ m ∧ m < p.pa + p.len

theorem Slot.mild_touched (x : Slot) (pa n : Nat) : x.Mild (x.touched pa n) := .other

theorem Slot.mild_overtaken (x : Slot) (p : Piece) : x.Mild (x.overtaken p) := by
  unfold Slot.overtaken
  split
  · dsimp only
    split
    · exact .other
    · exact .refl x
  · exact .refl x

theorem State.mild_overtake (s : State) (p : Piece) : s.me.Mild (s.overtake p).me := by
  unfold State.overtake
  split
  · have at_ := s.slot_onAllSlots (f := Slot.overtaken p) rfl s.agent
    exact (show (s.onAllSlots (Slot.overtaken p)).me = _ from at_) ▸ Slot.mild_overtaken ..
  · exact .refl _

/-- The parts of a state that a store leaves alone, as the frame needs them. -/
def State.unstored (s : State) : (Nat × Word × List Nat) × Freeze × Table Port := (s.frame, s.freeze, s.ports)

theorem State.unstored_overtake (s : State) (p : Piece) : (s.overtake p).unstored = s.unstored := by
  unfold State.overtake
  split <;> rfl

theorem State.unstored_write (s : State) (pa : Nat) (bs : List Byte) (a : Attr) : (s.write pa bs a).unstored = s.unstored :=
  (congrArg State.unstored (s.write_noStores pa bs a) :)

/-- A store over pieces changes memory, monitors and what has been overtaken. -/
theorem State.storePieces_mild (s : State) (ps : List Piece) (bs : List Byte) :
    s.me.Mild (s.storePieces ps bs).me ∧ (s.storePieces ps bs).unstored = s.unstored := by
  induction ps generalizing s bs with
  | nil => exact ⟨.refl _, rfl⟩
  | cons p ps ih =>
    obtain ⟨hm, hu⟩ := ih ((s.overtake p).write p.pa (bs.take p.len) p.attr) (bs.drop p.len)
    refine ⟨((s.mild_overtake p).trans ?_).trans hm, (hu.trans (State.unstored_write ..)).trans (s.unstored_overtake p)⟩
    rw [State.write_me]
    exact Slot.mild_touched ..

/-! ## Registers, and memory but for some bytes -/

/-- `t` is a state that an instruction of the issuing slot of `s` leads to, which may have written register `r` and the bytes of
`H`. -/
def State.KeptBut (H : Nat → Prop) (r : Nat) (s t : State) : Prop := s.sameRegs t r ∧ s.keptMemBut t H

section

variable {F : Nat → Prop} {H : Nat → Prop} {r : Nat} {s t u : State}

theorem State.Calm.keptBut (h : State.Calm F r s t) : s.KeptBut H r t := by
  obtain ⟨same, clear⟩ := h.keptMem
  exact ⟨h.sameRegs, fun b _ hb => hb.elim (fun e => congrArg (memByte · b) (same e)) (clear b)⟩

theorem State.Calm.rank_le (h : State.Calm F r s t) : s.freeze.rank ≤ t.freeze.rank := by
  rcases h.mem with ⟨e, -⟩ | lt
  · rw [e]
  · exact lt.le

/-- What an instruction leads to after a store over pieces within `H`. -/
theorem State.Calm.stored (h : State.Calm F r s u) {ps : List Piece} (hH : ∀ m, onPieces ps m → H m) (bs : List Byte) {o : State → Out}
    (ho : ∀ s' v, s'.me = s.me → State.Calm F r s' v → Leads (State.Calm F r s') (o v)) :
    Leads (s.KeptBut H r) (o (u.storePieces ps bs)) := by
  obtain ⟨hm, hun⟩ := u.storePieces_mild ps bs
  obtain ⟨hframe, hfreeze, hports⟩ : (u.storePieces ps bs).frame = u.frame ∧ (u.storePieces ps bs).freeze = u.freeze ∧
    (u.storePieces ps bs).ports = u.ports := ⟨congrArg (·.1) hun, congrArg (·.2.1) hun, congrArg (·.2.2) hun⟩
  have other : ∀ b, ¬H b → memByte (u.storePieces ps bs).mem b = memByte u.mem b := fun b hb =>
    u.storePieces_other ps bs b fun p hp => by
      by_contra hc
      exact hb (hH b ⟨p, hp, by omega⟩)
  generalize u.storePieces ps bs = v at hm hframe hfreeze hports other ⊢
  let s' : State := { s with mem := v.mem, ports := v.ports, freeze := v.freeze }
  have start : State.Calm F r s' v :=
    { frame := hframe.trans h.frame, me := h.me.mild hm, mem := .inl ⟨rfl, rfl⟩, bytes := fun b hb => ⟨hb, rfl⟩ }
  refine (ho s' v rfl start).mono fun t ht => ⟨ht.sameRegs, fun b hb hk => ?_⟩
  have le : u.freeze.rank ≤ t.freeze.rank := by
    rw [← hfreeze]
    exact ht.rank_le
  have back : memByte u.mem b = memByte s.mem b ∧ memByte t.mem b = memByte v.mem b := by
    rcases hk with hz | hc
    · refine ⟨?_, ?_⟩
      · rcases h.mem with ⟨-, e⟩ | lt
        · rw [e]
        · rw [hz] at le
          exact absurd lt (Nat.not_lt.2 le)
      · rcases ht.mem with ⟨-, e⟩ | lt
        · rw [e]
        · have := h.rank_le
          rw [show s'.freeze = u.freeze from hfreeze, hz] at lt
          exact absurd lt (Nat.not_lt.2 this)
    · obtain ⟨hc', hb'⟩ := h.bytes b hc
      refine ⟨hb', (ht.bytes b ?_).2⟩
      intro e he
      exact hc' e (hports ▸ he)
  exact back.2.trans ((other b hb).trans back.1)

/-! ## The shared operations, up to a store -/

theorem State.Calm.taken (h : s.atStart) (srcs : List Src) : State.Calm (fun _ => True) r s (s.taken srcs) :=
  ((State.Calm.start h.1).takeAll fun _ _ _ _ => trivial).onMe fun hc => ⟨hc.words, hc.reg, hc.full, fun _ _ _ _ _ _ _ => trivial⟩

end

/-- The guard and the operand step at the start of an instruction without register destinations. -/
theorem leads_start {H : Nat → Prop} {r : Nat} {s : State} (h : s.atStart) (gd : Guard) (srcs : List Src)
    {k : List Word → State → Out} (hk : Leads (s.KeptBut H r) (k (s.vals srcs) (s.taken srcs))) :
    Leads (s.KeptBut H r) (s.guarded gd fun s => s.operands srcs [] k) := by
  have start : State.Calm (fun _ => True) r s s := .start h.1
  have kept : ∀ t, State.Calm (fun _ => True) r s t → s.KeptBut H r t := fun _ => State.Calm.keptBut
  unfold State.guarded
  refine leads_ite (fun _ => ?_) fun _ => start.done.mono kept
  unfold State.operands
  refine leads_ite (fun _ => (start.trap ..).mono kept) fun _ => ?_
  rw [h.1]
  exact leads_ite (fun _ => hk) fun _ => (start.park _).mono kept

section

variable {F : Nat → Prop} {H : Nat → Prop} {r : Nat} {s t : State} (h : State.Calm F r s t)

include h

theorem State.Calm.hurdleAccess_kept (ea : Word) {k : List Piece → Out}
    (hk : ∀ ps, t.access t.agent ea 16 (t.need true true) = .ok ps → Leads (s.KeptBut H r) (k ps)) :
    Leads (s.KeptBut H r) (t.hurdleAccess ea k) := by
  have kept : ∀ t, State.Calm F r s t → s.KeptBut H r t := fun _ => State.Calm.keptBut
  unfold State.hurdleAccess State.checked
  refine leads_ite (fun _ => (h.trap ..).mono kept) fun _ => ?_
  unfold State.withAccess
  split
  · exact (h.trap ..).mono kept
  · exact ((h.slotMiss _).park _).mono kept
  · next ps hps =>
    exact leads_ite (fun _ => (h.trap ..).mono kept) fun _ => leads_ite (fun _ => (h.trap ..).mono kept) fun _ => hk ps hps

theorem State.Calm.writable_kept (ps : List Piece) {k : State → Out} (hk : Leads (s.KeptBut H r) (k t)) :
    Leads (s.KeptBut H r) (t.writable ps k) :=
  leads_ite (fun _ => (h.trap ..).mono fun _ => State.Calm.keptBut) fun _ => hk

theorem State.Calm.farThen_kept (ea : Word) (ps : List Piece) {k : State → Out} (hk : Leads (s.KeptBut H r) (k t)) :
    Leads (s.KeptBut H r) (t.farThen ea ps k) :=
  leads_ite (fun _ => (h.send ..).mono fun _ => State.Calm.keptBut) fun _ => hk

theorem State.Calm.votePoint_kept (kind : VoteKind) (once : Bool) (record : List Byte) {k : State → Out}
    (hk : ∀ u, State.Calm F r s u → Leads (s.KeptBut H r) (k u)) : Leads (s.KeptBut H r) (t.votePoint kind once record k) := by
  have kept : ∀ t, State.Calm F r s t → s.KeptBut H r t := fun _ => State.Calm.keptBut
  unfold State.votePoint
  refine leads_ite (fun _ => hk t h) fun _ => leads_ite (fun _ => ?_) fun _ =>
    leads_ite (fun _ => (h.castVote ..).mono kept) fun _ => (h.castVote ..).mono kept
  split
  · exact ((h.mildMe .other).trap ..).mono kept
  · exact leads_ite (fun _ => (h.park _).mono kept) fun _ => hk _ (h.mildMe .other)

theorem State.Calm.readable_kept (ea : Word) (ps : List Piece) {k : List Byte → State → Out}
    (hk : ∀ bs u, State.Calm F r s u → Leads (s.KeptBut H r) (k bs u)) : Leads (s.KeptBut H r) (t.readable ea ps k) := by
  have settled := h.readable ea ps (k := fun _ u => .next u) fun _ _ hu => leads_next hu
  unfold State.readable at settled ⊢
  split
  · exact (h.trap ..).mono fun _ => State.Calm.keptBut
  · next hbad =>
    rw [hbad] at settled
    exact hk _ _ (settled.state _ rfl)

end

/-! ## The three instructions -/

section

variable {s : State} (h : s.atStart) (gd : Guard) (a : Fin 32) (b c : Src)

/-- The bytes of the hurdle at `ea` that the issuing slot reaches. -/
def State.hurdleBytes (s : State) (ea : Word) (m : Nat) : Prop :=
  ∃ ps, s.access s.agent ea 16 (s.need true true) = .ok ps ∧ ∃ p ∈ ps, p.pa ≤ m ∧ m < p.pa + p.len

include h

theorem execHinit_kept (scope : Scope) (d : BitVec 24) :
    Leads (s.KeptBut (s.hurdleBytes (arg (s.vals [b, c]) 0 + d.signExtend 64)) 32) (exec (.hinit gd scope b c d) s) := by
  change Leads _ (execHinit gd scope b c d s)
  have start : State.Calm (fun _ => True) 32 s (s.taken [b, c]) := State.Calm.taken h _
  refine leads_start h gd [b, c] (start.hurdleAccess_kept _ fun ps hps => start.writable_kept ps ?_)
  rw [State.taken_access] at hps
  refine leads_ite (fun _ => (start.trap ..).mono fun _ => State.Calm.keptBut) fun _ =>
    start.votePoint_kept _ _ _ fun u hu => hu.farThen_kept _ _ ?_
  exact hu.stored (fun m hm => ⟨ps, hps, hm⟩) _ fun _ _ _ hv => hv.done

theorem execHarr_kept (d : BitVec 24) :
    Leads (s.KeptBut (s.hurdleBytes (arg (s.vals [b]) 0 + d.signExtend 64)) a.val) (exec (.harr gd a b d) s) := by
  change Leads _ (execHarr gd a b d s)
  have start : State.Calm (fun _ => True) a.val s (s.taken [b]) := State.Calm.taken h _
  refine leads_start h gd [b] (start.hurdleAccess_kept _ fun ps hps => start.writable_kept ps ?_)
  rw [State.taken_access] at hps
  refine start.votePoint_kept _ _ _ fun u hu => hu.farThen_kept _ _ (hu.readable_kept _ _ fun bs v hv => ?_)
  refine leads_ite (fun _ => (hv.trap ..).mono fun _ => State.Calm.keptBut) fun _ => ?_
  exact hv.stored (fun m hm => ⟨ps, hps, hm⟩) _ fun _ _ _ hw => hw.doneReg trivial _

theorem execHwait_calm (d : BitVec 20) : Leads (State.Calm (fun _ => True) 32 s) (exec (.hwait gd a b d) s) := by
  change Leads _ (execHwait gd a b d s)
  have start : State.Calm (fun _ => True) 32 s s := .start h.1
  refine start.guarded gd (start.operands (fun _ _ _ _ => trivial) _ fun vs t ht => ?_)
  refine ht.checked _ _ _ _ _ fun ps => leads_ite (fun _ => ht.trap ..) fun _ => ht.farThen _ _ (ht.readable _ _ fun bs u hu => ?_)
  exact leads_ite (fun _ => hu.trap ..) fun _ => leads_ite (fun _ => hu.done) fun _ => (hu.mildMe .other).park _

end

end Sys2Proof.Machine

open Sys2Proof Sys2Proof.Machine

/-- Settles O40: every step of the three is calm, but for the store of HINIT and HARR. -/
theorem hurdleFrame : Obligations.HurdleFrame := by
  intro gd scope a b c d24 d20 s t h
  refine ⟨fun e => ?_, fun e => ?_, fun e => ?_⟩
  · exact (execHinit_kept h gd b c scope d24).state _ e
  · exact (execHarr_kept h gd a b d24).state _ e
  · have calm := (execHwait_calm h gd a b d20).state _ e
    exact ⟨calm.sameRegs, calm.keptMem⟩

end

section
/-! O44 of APPROVED.json: FOPEN opens and closes filter windows (R282, R283 of spec/18). -/

namespace Sys2Proof.Machine

open Sys2Proof

/-! ## Opening and closing a window -/

section

variable (s : State) (w : Nat) (win : Option Window)

theorem State.setWin_winSlot_same : (s.setWin w win).winSlot w = (s.winSlot w).closed win := val_put_same ..

theorem State.setWin_winSlot_other {v : Nat} (h : v ≠ w) : (s.setWin w win).winSlot v = s.winSlot v := val_put_other _ _ _ _ _ h

end

/-- `t` is `s` once window `w` has become `win`, its instruction complete. -/
structure State.WinSet (w : Nat) (win : Option Window) (s t : State) : Prop where
  same : t.winSlot w = (s.winSlot w).closed win
  other : ∀ v, v ≠ w → t.winSlot v = s.winSlot v
  pc : t.me.pc = s.me.complete.pc
  mem : t.mem = s.mem
  regs : s.sameRegs t 32

section

variable {s : State} (h : s.atStart) (srcs : List Src) (w : Nat)

theorem taken_foreignWin : (s.taken srcs).foreignWin w = s.foreignWin w := by
  unfold State.foreignWin
  rw [State.taken_winSlot, State.taken_asidOf]

include h

theorem taken_setWin_done (win : Option Window) : ∃ t, ((s.taken srcs).setWin w win).done = .next t ∧ s.WinSet w win t := by
  have ho : ((s.taken srcs).setWin w win).me.park.once = false := s.taken_once srcs h.2.2
  have calm : State.Calm (fun _ => True) 32 s ((s.taken srcs).setWin w win) := State.Calm.other (State.Stands.taken h srcs).calm
  refine ⟨_, State.done_alone _ ho, ?_, fun v hv => ?_, ?_, s.taken_mem srcs, ?_⟩
  · exact (State.setWin_winSlot_same ..).trans (congrArg (·.closed win) (s.taken_winSlot srcs w))
  · exact (State.setWin_winSlot_other _ _ _ hv).trans (s.taken_winSlot srcs v)
  · rw [State.me_onMe]
    exact s.taken_complete_pc srcs
  · exact (calm.mildMe (Slot.mild_complete _)).sameRegs

variable (hr : s.me.rep.count = 0)

include hr

/-- A window of the context, or of none, closes. -/
theorem taken_closeWindow (hf : s.foreignWin w = false) (vs : List Word) :
    ∃ t, closeWindow w vs (s.taken srcs) = .next t ∧ s.WinSet w none t := by
  rw [closeWindow, State.votePoint_alone ((congrArg (·.count) (s.taken_rep srcs)).trans hr), taken_foreignWin, hf]
  exact taken_setWin_done h srcs w none

/-- Another context's does not. -/
theorem taken_closeWindow_foreign (hf : s.foreignWin w = true) (vs : List Word) :
    Stmt.takesTrap s (closeWindow w vs (s.taken srcs)) 0x382 (windowWord w) := by
  rw [closeWindow, State.votePoint_alone ((congrArg (·.count) (s.taken_rep srcs)).trans hr), taken_foreignWin, hf]
  exact (State.Stands.taken h srcs).takesTrap ..

end

/-! ## The record of a window -/

/-- Pages of a region that all have a leaf wait for no walk. -/
theorem State.regionWait_none (s : State) (n k va : Nat) {ps : List Nat} (h : s.regionPages n k va = some ps) :
    s.regionWait n k va = none := by
  have mapped : ∀ i, i < k → (findLeaf s.tlb (s.slot n).sup.asid.toNat (va + 65536 * i)).isNone = false := by
    induction k generalizing va ps with
    | zero => exact fun i hi => absurd hi (Nat.not_lt_zero i)
    | succ k ih =>
      unfold State.regionPages at h
      split at h
      · cases h
      · split at h
        · cases h
        · next l hl =>
          split at h
          · cases h
          · obtain ⟨qs, hqs, -⟩ := Option.map_eq_some_iff.1 h
            intro i hi
            cases i with
            | zero => exact congrArg Option.isNone hl
            | succ i =>
              have := ih (va + 65536) hqs i (Nat.lt_of_succ_lt_succ hi)
              rwa [show va + 65536 + 65536 * i = va + 65536 * (i + 1) by omega] at this
  unfold State.regionWait
  refine List.find?_eq_none.2 fun a ha => ?_
  obtain ⟨i, hi, rfl⟩ := List.mem_map.1 ha
  simp [mapped i (List.mem_range.1 hi)]

/-- A record that is accepted opens its window at once. -/
theorem State.openWindow_accepted {s : State} {w v : Nat} {x : Window} (h : s.acceptWindow w v = some x) (ea : Word) :
    s.openWindow w ea v = (s.setWin w (some x)).done := by
  have waits : (if recordReserved v || !(windowOf v (s.asidOf s.agent) s.myCoreNum).fieldsOk then none
      else s.regionWait s.agent (windowOf v (s.asidOf s.agent) s.myCoreNum).pages
        ((windowOf v (s.asidOf s.agent) s.myCoreNum).laddr / 65536 * 65536)) = none := by
    unfold State.acceptWindow at h
    dsimp only at h
    split at h
    · cases h
    · next hok =>
      rw [if_neg hok]
      split at h
      · cases h
      · next ps hps => exact s.regionWait_none _ _ _ hps
  rw [State.openWindow, waits, h]

theorem taken_regionPages (s : State) (srcs : List Src) (k va : Nat) :
    (s.taken srcs).regionPages s.agent k va = s.regionPages s.agent k va := by
  have sup : ((s.taken srcs).slot s.agent).sup = (s.slot s.agent).sup := by
    rw [← State.taken_agent s srcs]
    exact (s.taken_sup srcs).trans (congrArg (fun n => (s.slot n).sup) (s.taken_agent srcs).symm)
  induction k generalizing va with
  | zero => rfl
  | succ k ih => rw [State.regionPages, State.regionPages, ih, sup, State.taken_tlb]

theorem taken_acceptWindow (s : State) (srcs : List Src) (w v : Nat) :
    (s.taken srcs).acceptWindow w v = s.acceptWindow w v := by
  have windows : (s.taken srcs).windows = s.windows := congrArg (·.windows) (s.taken_shell srcs)
  have meets : ∀ x, (s.taken srcs).overlaps w x = s.overlaps w x := fun x => by rw [State.overlaps, State.overlaps, windows]
  unfold State.acceptWindow
  rw [State.taken_asidOf, State.myCoreNum, State.taken_agent]
  simp only [meets, taken_regionPages]
  rfl

/-! ## FOPEN -/

theorem canRun_g0 (s : State) (sync : Bool) : s.canRun [⟨.g 0, sync⟩] [] := by
  refine ⟨?_, by simp [State.mailboxDst], fun m hm => absurd hm List.not_mem_nil⟩
  simp [State.operandsReady, Slot.isFull]

section

variable {s : State} {gd : Guard} {w : Fin 256} {b : Src} {pa : Nat} (h : s.atStart) (hg : s.me.guardOk gd = true)
  (hr : s.me.rep.count = 0)

include h hg

theorem execFopenClose_eq (sync : Bool) :
    exec (.fopenClose gd w sync) s = closeWindow w.val (s.vals [⟨.g 0, sync⟩]) (s.taken [⟨.g 0, sync⟩]) := by
  change execFopenClose gd w sync s = _
  rw [execFopenClose, State.guarded_true _ _ _ hg, State.operands_run _ _ _ _ h (canRun_g0 s sync)]

variable (hc : s.canRun [b] [])

include hc

theorem execFopen_zero (hz : arg (s.vals [b]) 0 = 0) : exec (.fopen gd w b) s = closeWindow w.val (s.vals [b]) (s.taken [b]) := by
  change execFopen gd w b s = _
  rw [execFopen, State.guarded_true _ _ _ hg, State.operands_run _ _ _ _ h hc]
  exact if_pos hz

include hr

theorem execFopen_near (hz : arg (s.vals [b]) 0 ≠ 0) (hb : s.me.rep.buffer = []) (hn : Stmt.near s (arg (s.vals [b]) 0) 64 pa) :
    exec (.fopen gd w b) s =
      if s.foreignWin w.val then (s.taken [b]).trap 0x382 (windowWord w.val)
      else (s.taken [b]).openWindow w.val (arg (s.vals [b]) 0) (leNat (memRead s.mem pa 64)) := by
  change execFopen gd w b s = _
  have near := s.taken_near [b] hn
  have hrep := s.taken_rep [b]
  obtain ⟨home, hh, run⟩ := State.checked_near near
  rw [execFopen, State.guarded_true _ _ _ hg, State.operands_run _ _ _ _ h hc]
  dsimp only
  have far : ∀ k, (s.taken [b]).farThen (arg (s.vals [b]) 0) [nearPiece pa 64 home] k = k (s.taken [b]) := fun k => by
    rcases hh with rfl | rfl <;> rfl
  rw [if_neg hz, run, State.votePoint_alone ((congrArg (·.count) hrep).trans hr), taken_foreignWin, far,
    State.readable_near hh near.2.2 ((congrArg (·.buffer) hrep).trans hb), State.taken_mem]

end

end Sys2Proof.Machine

open Sys2Proof Sys2Proof.Machine

/-- Settles O44: FOPEN closes, opens an accepted window, or traps on another context's. -/
theorem filterWindowsOpenAndClose : Obligations.FilterWindowsOpenAndClose := by
  intro gd w b sync pa s h hg hr hb
  dsimp only
  refine ⟨fun hf => ⟨fun hc hz => ?_, ?_, fun hc hz hn x hx => ?_⟩, fun hf => ⟨?_, fun hc hor => ?_⟩⟩
  · obtain ⟨t, run, ht⟩ := taken_closeWindow h [b] w.val hr hf (s.vals [b])
    refine ⟨t, (execFopen_zero h hg hc hz).trans run, ?_, ht.pc, ht.mem, ht.regs⟩
    rw [ht.same]
    exact ⟨rfl, rfl⟩
  · obtain ⟨t, run, ht⟩ := taken_closeWindow h [⟨.g 0, sync⟩] w.val hr hf (s.vals [⟨.g 0, sync⟩])
    refine ⟨t, (execFopenClose_eq h hg sync).trans run, ?_, ht.pc, ht.mem, ht.regs⟩
    rw [ht.same]
    exact ⟨rfl, rfl⟩
  · rw [← taken_acceptWindow s [b]] at hx
    obtain ⟨t, run, ht⟩ := taken_setWin_done h [b] w.val (some x)
    refine ⟨t, ?_, ?_, ?_, ht.other, ht.pc, ht.mem, ht.regs⟩
    · rw [execFopen_near h hg hr hc hz hb hn, hf]
      exact (State.openWindow_accepted hx _).trans run
    · rw [ht.same]
      rfl
    · rw [ht.same]
      rfl
  · rw [execFopenClose_eq h hg sync]
    exact taken_closeWindow_foreign h _ _ hr hf _
  · by_cases hz : arg (s.vals [b]) 0 = 0
    · rw [execFopen_zero h hg hc hz]
      exact taken_closeWindow_foreign h _ _ hr hf _
    · rw [execFopen_near h hg hr hc hz hb (hor.resolve_left hz), hf]
      exact (State.Stands.taken h [b]).takesTrap ..

end

section
/-! O47 of APPROVED.json: PTSYNC, QWAIT, QWAIT.NOW and the end of a page walk (R321, R327 and R328 of spec/21). -/

namespace Sys2Proof.Machine

open Sys2Proof

/-! ## QDONE (R323) -/

/-- The epochs that a slot holds. -/
def Slot.epochs (x : Slot) : List Nat :=
  (match x.park.epoch with | some w => [w.toNat] | none => []) ++
    (x.rep.buffer ++ x.rep.owned).filterMap fun h => h.epoch.map (·.toNat)

/-- The epochs of the writes that a port holds back or has not seen acknowledged. -/
def Port.epochs (p : Port) : List Nat :=
  (p.waiting.filterMap fun o => match o with
    | .write _ _ _ w _ => w.map (·.toNat)
    | .request _ _ | .result _ _ | .message _ _ _ _ | .reply _ _ _ => none) ++
    (p.writes.filter (!·.done)).filterMap fun w => w.epoch.map (·.toNat)

theorem State.qdone_eq (s : State) : s.qdone =
    BitVec.ofNat 64 ((s.allSlots.flatMap (·.2.epochs) ++ s.ports.flatMap (·.2.epochs)).foldl Nat.min s.qepoch.toNat - 1) := rfl

theorem le_foldl_min {n a : Nat} {l : List Nat} : n ≤ l.foldl Nat.min a ↔ n ≤ a ∧ ∀ x ∈ l, n ≤ x := by
  induction l generalizing a with
  | nil => simp
  | cons b l ih =>
    rw [List.foldl_cons, ih, show Nat.min a b = min a b from rfl, Nat.le_min, List.forall_mem_cons, and_assoc]

/-- The least of some numbers depends on which there are alone. -/
theorem foldl_min_congr {a : Nat} {l m : List Nat} (h : ∀ x, x ∈ l ↔ x ∈ m) : l.foldl Nat.min a = m.foldl Nat.min a := by
  have same : ∀ n, n ≤ l.foldl Nat.min a ↔ n ≤ m.foldl Nat.min a := fun n => by
    simp only [le_foldl_min, h]
  exact Nat.le_antisymm ((same _).1 le_rfl) ((same _).2 le_rfl)

/-- What the entries of a table hold stays, where the new value of a key holds what its old one did. -/
theorem mem_flatMap_put {α β : Type} {f : α → List β} {d v : α} {k : Nat} {t : Table α} (hd : f d = [])
    (hv : f v = f (Table.val d k t)) (x : β) : x ∈ (Table.put k v t).flatMap (f ·.2) ↔ x ∈ t.flatMap (f ·.2) := by
  induction t with
  | nil =>
    rw [Table.val, hd] at hv
    simp [Table.put, hv]
  | cons e t ih =>
    obtain ⟨j, w⟩ := e
    unfold Table.put
    split
    · have sub : x ∈ f v → x ∈ ((j, w) :: t).flatMap (f ·.2) := by
        rw [hv]
        clear hv ih
        generalize (j, w) :: t = l
        induction l with
        | nil => simp [Table.val, hd]
        | cons e l ih =>
          unfold Table.val
          split
          · exact fun h => List.mem_flatMap.2 ⟨e, List.mem_cons_self, h⟩
          · intro h
            rw [List.flatMap_cons]
            exact List.mem_append_right _ (ih h)
      rw [List.flatMap_cons, List.mem_append]
      exact ⟨fun h => h.elim sub id, .inr⟩
    · split
      · next hj =>
        rw [Table.val, if_pos hj] at hv
        rw [List.flatMap_cons, List.flatMap_cons, hv]
      · next hj =>
        rw [Table.val, if_neg hj] at hv
        rw [List.flatMap_cons, List.flatMap_cons, List.mem_append, List.mem_append, ih hv]

theorem State.qdone_onMe (s : State) {f : Slot → Slot} (hf : (f s.me).epochs = s.me.epochs) : (s.onMe f).qdone = s.qdone := by
  rw [State.qdone_eq, State.qdone_eq]
  refine congrArg (fun n => BitVec.ofNat 64 (n - 1)) (foldl_min_congr fun x => ?_)
  have put := mem_flatMap_put (f := Slot.epochs) (d := {}) (k := s.agent) (v := f s.me) (t := s.slots) rfl hf x
  simp only [State.allSlots, List.flatMap_append, List.mem_append]
  exact or_congr (or_congr (or_congr put Iff.rfl) Iff.rfl) Iff.rfl

theorem State.takeOne_qdone (s : State) (a : Src) : (s.takeOne a).2.qdone = s.qdone := by
  unfold State.takeOne
  split
  · dsimp only
    split
    · exact s.qdone_onMe (by unfold Slot.clearFull; split <;> rfl)
    · rfl
  · rfl
  · rfl

theorem State.takeAll_qdone (srcs : List Src) (s : State) : (s.takeAll srcs).2.qdone = s.qdone := by
  induction srcs generalizing s with
  | nil => rfl
  | cons q qs ih => exact (ih _).trans (s.takeOne_qdone q)

theorem State.taken_qdone (s : State) (srcs : List Src) : (s.taken srcs).qdone = s.qdone :=
  ((s.takeAll srcs).2.qdone_onMe (by rfl)).trans (s.takeAll_qdone srcs)

/-- With nothing outstanding QDONE is the epoch before the current one. -/
theorem State.qdone_nothing {s : State} (hs : ∀ e ∈ s.allSlots, e.2.epochs = []) (hp : ∀ e ∈ s.ports, e.2.epochs = []) :
    s.qdone = BitVec.ofNat 64 (s.qepoch.toNat - 1) := by
  rw [State.qdone_eq, List.flatMap_eq_nil_iff.2 hs, List.flatMap_eq_nil_iff.2 hp]
  rfl

theorem Port.epochs_nil {p : Port} (hw : ∀ w ∈ p.writes, w.done = false → w.epoch = none)
    (ho : ∀ tids va r w z, Outgoing.write tids va r w z ∈ p.waiting → w = none) : p.epochs = [] := by
  refine List.append_eq_nil_iff.2 ⟨List.filterMap_eq_nil_iff.2 fun o hm => ?_, List.filterMap_eq_nil_iff.2 fun w hm => ?_⟩
  · cases o with
    | write tids va r w z =>
      rw [ho tids va r w z hm]
      rfl
    | _ => rfl
  · obtain ⟨hm, hd⟩ := List.mem_filter.1 hm
    rw [hw w hm (by simpa using hd)]
    rfl

/-! ## PTSYNC (R327) -/

/-- What is left of the translations. -/
theorem State.sync_tlb (s : State) (k : SyncKind) (v : Word) : (s.sync k v).tlb = s.tlb.filter fun l => !l.synced k v := rfl

theorem taken_sync {s : State} (h : s.atStart) (srcs : List Src) (k : SyncKind) (v : Word) :
    s.SameSlot ((s.taken srcs).sync k v) ∧ ((s.taken srcs).sync k v).mem = s.mem ∧
      ((s.taken srcs).sync k v).qepoch = s.qepoch + 1 ∧
      ((s.taken srcs).sync k v).tlb = s.tlb.filter fun l => !l.synced k v := by
  refine ⟨(State.SameSlot.taken h srcs).of_me rfl, s.taken_mem srcs, ?_, ?_⟩
  · exact (congrArg (fun t : State => t.qepoch + 1) (s.taken_shell srcs) :)
  · rw [State.sync_tlb, State.taken_tlb]

section

variable {s : State} {gd : Guard} {a : Fin 32} {b : Src} (h : s.atStart) (hg : s.me.guardOk gd = true)

include h hg

theorem execPtsync_sup (k : SyncKind) (hc : s.canRun [b] []) (hs : s.me.sup.sinh = true) :
    exec (.ptsync gd k a b) s = ((s.taken [b]).sync k (arg (s.vals [b]) 0)).doneRegs [(a.val, s.qepoch)] := by
  change execPtsync gd k a b s = _
  rw [execPtsync, State.guarded_true _ _ _ hg, hs, State.operands_run _ _ _ _ h hc]
  have epoch : (s.taken [b]).qepoch = s.qepoch := (congrArg (·.qepoch) (s.taken_shell [b]) :)
  rw [epoch]
  rfl

/-! ## QWAIT (R328) -/

theorem execQwait_eq (hc : s.canRun [b] []) : exec (.qwait gd a b) s =
    if arg (s.vals [b]) 0 ≤ s.qdone then (s.taken [b]).doneRegs [(a.val, s.qdone)]
    else (s.taken [b]).park (.quiet (arg (s.vals [b]) 0)) := by
  change execQwait gd a b s = _
  rw [execQwait, State.guarded_true _ _ _ hg, State.operands_run _ _ _ _ h hc, State.taken_qdone]

omit h in
/-- QWAIT.NOW at its first issue, with nothing outstanding. -/
theorem execQwaitNow_quiet (ht : s.me.park.tries = 0) (hs : ∀ e ∈ s.allSlots, e.2.epochs = [])
    (hp : ∀ e ∈ s.ports, e.2.epochs = []) (hq : s.qepoch.toNat + 1 < 2 ^ 64) :
    exec (.qwaitNow gd a) s = (({ s with qepoch := s.qepoch + 1 } : State).onMe fun x =>
      { x with park := { x.park with tries := s.qepoch.toNat } }).doneRegs [(a.val, s.qepoch)] := by
  have quiet : (({ s with qepoch := s.qepoch + 1 } : State).onMe fun x =>
      { x with park := { x.park with tries := s.qepoch.toNat } }).qdone = s.qepoch := by
    rw [State.qdone_onMe ({ s with qepoch := s.qepoch + 1 } : State) (by rfl), State.qdone_nothing (s := { s with qepoch := s.qepoch + 1 }) hs hp]
    refine BitVec.eq_of_toNat_eq ?_
    have lt := s.qepoch.isLt
    have next : (s.qepoch + 1).toNat = s.qepoch.toNat + 1 := by
      rw [BitVec.toNat_add]
      exact Nat.mod_eq_of_lt hq
    rw [next, Nat.add_sub_cancel, BitVec.toNat_ofNat, Nat.mod_eq_of_lt lt]
  change execQwaitNow gd a s = _
  rw [execQwaitNow, State.guarded_true _ _ _ hg]
  simp only [ht, if_true, quiet, BitVec.le_refl]

end

/-! ## The end of a walk (R321) -/

section

variable {s : State} {w : Walk} (hw : (s.walks.filter (·.die == w.die)).head? = some w)

include hw

/-- The first walk of its die is the one that ends. -/
theorem walking_first : ((s.walking w.die).find? fun v => v.asid == w.asid && v.vpage == w.vpage) = some w := by
  obtain ⟨ws, hws⟩ := List.head?_eq_some_iff.1 hw
  rw [State.walking, hws]
  simp

theorem execPageWalkCompletes_ok {l : Leaf} (hl : s.walkRoot w.root w.asid (w.vpage * 65536) = .ok l) :
    exec (.pageWalkCompletes w.die w.asid w.vpage) s = .next { s with walks := s.walks.erase w, tlb := l :: s.tlb } := by
  change execPageWalkCompletes w.die w.asid w.vpage s = _
  simp only [execPageWalkCompletes, walking_first hw, hl]

theorem execPageWalkCompletes_error {c : Nat} (hc : s.walkRoot w.root w.asid (w.vpage * 65536) = .error c) :
    exec (.pageWalkCompletes w.die w.asid w.vpage) s = .next ((s.walkWaiters w).foldl (fun t e => t.trapAt e.1 c e.2)
      (({ s with walks := s.walks.erase w } : State).walkFaults w c)) := by
  change execPageWalkCompletes w.die w.asid w.vpage s = _
  simp only [execPageWalkCompletes, walking_first hw, hc]

end

/-- No slot that is not parked waits for a walk. -/
theorem State.walkWaiters_nil {s : State} (h : (s.slots.all fun e => e.2.status != .parked) = true) (w : Walk) :
    s.walkWaiters w = [] := by
  refine List.filterMap_eq_nil_iff.2 fun e he => ?_
  have not := List.all_eq_true.1 h e he
  cases hs : e.2.status <;> simp_all

theorem State.known_walkFaults (s : State) (w : Walk) (code : Nat) {who : Asker} (hw : who ∈ w.askers) :
    (w.vpage, code) ∈ (s.walkFaults w code).known who w.asid := by
  refine List.mem_append_left _ (List.mem_map.2 ⟨⟨who, w.asid, w.vpage, code⟩, List.mem_filter.2 ⟨?_, by simp⟩, rfl⟩)
  exact List.mem_append_right _ (List.mem_map.2 ⟨who, hw, rfl⟩)

end Sys2Proof.Machine

open Sys2Proof Sys2Proof.Machine

/-- Settles O47: what PTSYNC and QWAIT do once their operand is taken, and what the first walk of its die does at its end. -/
theorem translationsEndAndQuiesce : Obligations.TranslationsEndAndQuiesce := by
  refine ⟨fun gd k a b s h hg => ⟨fun hc => ⟨fun hs => ?_, fun hv => ?_, fun hv => ?_⟩, ?_⟩, fun w s hw => ⟨fun l hl => ?_, ?_⟩⟩
  · rw [execPtsync_sup h hg k hc hs]
    obtain ⟨slot, mem, epoch, tlb⟩ := taken_sync h [b] k (arg (s.vals [b]) 0)
    generalize (s.taken [b]).sync k (arg (s.vals [b]) 0) = u at slot mem epoch tlb
    obtain ⟨run, hpc, hregs, hreg⟩ := slot.endsReg a.val s.qepoch
    refine ⟨_, run, hpc, epoch, hreg, mem, hregs, fun hk => ?_, fun hk => ?_, fun hk l => ?_⟩
    · subst hk
      exact tlb.trans (by simp [Leaf.synced])
    · subst hk
      exact tlb.trans (by simp [Leaf.synced, bitsAt, bne])
    · subst hk
      rw [show ((u.onMe _).onMe Slot.complete).tlb = u.tlb from rfl, tlb, List.mem_filter]
      simp [Leaf.synced, bitsAt]
  · rw [execQwait_eq h hg hc, if_pos hv, State.doneRegs_one _ _ _ (s.taken_once [b] h.2.2), State.onMe_onMe]
  · rw [execQwait_eq h hg hc, if_neg hv]
    obtain ⟨t, run, hmem, hregs, hpark, hhalt⟩ := (State.Stands.taken h [b]).parks (s.taken_haltReq [b]) (.quiet (arg (s.vals [b]) 0))
    have left : (s.taken [b]).me.park.left = s.me.park.left :=
      State.taken_me (P := fun x => x.park.left = s.me.park.left) (fun x n hx => by simpa using hx) (fun _ _ _ hx => hx) s [b] rfl
    exact ⟨t, run, hmem.trans (s.taken_mem [b]), hregs, hpark, fun hh hl => hhalt hh (left.trans hl)⟩
  · intro hs he hb ho hp hq _
    have none_ : ∀ x : Slot, x.park.epoch = none → x.rep.buffer = [] → x.rep.owned = [] → x.epochs = [] := fun x h1 h2 h3 => by
      simp [Slot.epochs, h1, h2, h3]
    have slot : s.SameSlot (({ s with qepoch := s.qepoch + 1 } : State).onMe fun x =>
        { x with park := { x.park with tries := s.qepoch.toNat } }) := by
      refine ⟨⟨s.me.full, s.me.mon, { s.me.park with tries := s.qepoch.toNat }, ?_⟩, ?_⟩
      · rw [State.me_onMe]
        rfl
      · rw [State.me_onMe]
        exact h.2.2
    obtain ⟨run, hpc, hregs, hreg⟩ := slot.endsReg a.val s.qepoch
    refine ⟨_, (execQwaitNow_quiet hg h.2.1 (fun e hm => ?_) (fun e hm => ?_) hq).trans run, rfl, hpc, hreg, hregs, rfl⟩
    · obtain ⟨h1, h2, h3⟩ := hs e hm
      exact none_ _ h1 h2 h3
    · exact Port.epochs_nil (hp e hm).1 (hp e hm).2
  · exact execPageWalkCompletes_ok hw hl
  · intro code hcode hpark
    rw [execPageWalkCompletes_error hw hcode, State.walkWaiters_nil hpark]
    exact ⟨_, rfl, rfl, rfl, rfl, fun who hwho => State.known_walkFaults _ w code hwho⟩

end

section
/-! O55 and O57 of APPROVED.json: a queue that carries out a GRAPH (R311 and R315 of spec/20). -/

namespace Sys2Proof.Machine

open Sys2Proof

/-- A queue that carries out an earlier record is not to read its next one, so a read of its ring cannot fail. -/
theorem State.ringFails_carrying {s : State} {q : Nat} (h : (s.queue q).carry.isSome = true) (cause : Nat) :
    s.ringFails q cause = s := by
  have none_ : s.reads q = false := by
    unfold State.reads
    cases hc : (s.queue q).carry with
    | none =>
      rw [hc] at h
      cases h
    | some k => simp [hc]
  rw [State.ringFails, none_]
  rfl

/-- Queue 3 of context 3 carries out a GRAPH that waits for a page walk, and its ring holds a later record. -/
def carriesGraph : State :=
  { State.reset with
    ctxs := [(3, some {})]
    queues := [(3, { state := .active, asid := 3, qsize := 4, qrp := 1, qwp := 2, carry := some ⟨1, 6, 3, 0⟩ })] }

/-- The queue goes on with the GRAPH that it carries out, whatever the journal record says: here the phase is gone, and the command
fails. -/
theorem carriesGraph_ends : (match exec (.graph 3 1 6) carriesGraph with
    | .next t => (t.queue 3).carry.isSome
    | .fault _ | .refused _ => true) = false := by decide +kernel

end Sys2Proof.Machine

open Sys2Proof Sys2Proof.Machine

/-- Refutes O55: the statement has every Active queue with a record go to Error where its ring cannot be read, but one that still carries
out a GRAPH reads none (R311), and stays Active. -/
theorem not_queuesTakeRecords : ¬ Obligations.QueuesTakeRecords := by
  unfold Obligations.QueuesTakeRecords
  intro h
  obtain ⟨-, -, reading⟩ := h 3 0 carriesGraph (by decide)
  obtain ⟨fails, -⟩ := reading (.inl rfl) (by decide) (.inr rfl)
  have stays : execEnv (.ringReadFails 3) carriesGraph = .next carriesGraph :=
    congrArg Host.Outcome.next (State.ringFails_carrying rfl 0x10C)
  rw [stays] at fails
  have state := congrArg (fun o : Out => match o with | .next t => (t.queue 3).state | _ => .unbound) fails
  exact absurd state (by decide)

/-- Refutes O57: the statement has a GRAPH event whose record is not pending do nothing, but the queue that carries out this GRAPH goes on
with it also then, and ends it. -/
theorem not_workCommands : ¬ Obligations.WorkCommands := by
  unfold Obligations.WorkCommands
  intro h
  obtain ⟨nothing, -⟩ := h 3 1 3 6 {} carriesGraph
  have stays := nothing (by decide +kernel) (.graph 3 1 6) (by simp)
  have ends_ := carriesGraph_ends
  rw [stays] at ends_
  exact absurd ends_ (by decide)

end

section
/-! O58 and O60 of APPROVED.json: a read of HBM beside every node table (R328 of spec/22, R351 of spec/23, log 60). `Space.nodeByte`
reads the record of any node that the space holds, also of one whose index lies past the table, and neither statement rules such a
state out. -/

namespace Sys2Proof.Machine

open Sys2Proof

/-- A space of 1024 nodes at address 0 with one node more, at index 1024. -/
def strayNode : Space :=
  { cap := 1024, nvar := 1, order := [], nodes := [(1024, { var := 5, low := 0, high := 0, ref := 0 })], queue := [], susp := none
    mode := .busy, wasSuspended := false, fault := 0, tbase := 0, savea := 0 }

/-- Context 3 holds that space. -/
def besideTable : State := { State.reset with ctxs := [(3, some { spaces := [(0, some strayNode)] })] }

/-- The table ends where the stray node's record would begin. -/
theorem besideTable_noTable (n : Nat) : Stmt.noTable besideTable 0x4000 n := by
  intro x hx
  obtain rfl : x = strayNode := List.mem_singleton.1 hx
  exact .inl (by decide)

/-- A read there gives the record and not the byte of memory. -/
theorem besideTable_supBytes {n : Nat} (h : 0 < n) : besideTable.supBytes 0x4000 n ≠ memRead besideTable.mem 0x4000 n := by
  intro e
  obtain ⟨m, rfl⟩ : ∃ m, n = m + 1 := ⟨n - 1, by omega⟩
  have first := congrArg List.head? e
  rw [State.supBytes, List.range_succ_eq_map] at first
  change some (besideTable.supByte 0x4000) = some (memByte besideTable.mem 0x4000) at first
  exact absurd (Option.some.inj first) (by decide)

end Sys2Proof.Machine

open Sys2Proof Sys2Proof.Machine

/-- Refutes O58: with `besideTable` the aperture reads a stray node's record where no table lies, and memory holds 0 there. -/
theorem not_hostLinkActs : ¬ Obligations.HostLinkActs := by
  unfold Obligations.HostLinkActs
  intro h
  obtain ⟨-, running⟩ := h.1 0 0x4000 8 0 0 besideTable
  obtain ⟨-, -, -, -, -, -, -, -, -, aperture⟩ := running rfl
  obtain ⟨-, -, memory⟩ := aperture 0x4000 (by decide) (by decide) (by decide) (by decide) (by decide)
  exact besideTable_supBytes (by decide) (memory (besideTable_noTable 8))

/-- Refutes O60: so does RDST, with the package frozen. -/
theorem not_freezeAndTestPort : ¬ Obligations.FreezeAndTestPort := by
  unfold Obligations.FreezeAndTestPort
  intro h
  obtain ⟨-, frozen, -⟩ := h false 0 { besideTable with
    freeze := .on true 1, tap := { besideTable.tap with sel := BitVec.ofNat 64 (2 ^ 60 + 0x4000) } }
  obtain ⟨-, -, -, hbm⟩ := frozen true 1 rfl
  obtain ⟨inside, -⟩ := hbm 0x4000 rfl (by decide) (by decide) rfl
  obtain ⟨t, -, -, memory⟩ := inside (by decide)
  exact besideTable_supBytes (by decide) (memory (besideTable_noTable 8))

end

section
/-! O42 of APPROVED.json: a release at system scope by a slot whose number stands twice in the table of slots (R339 of spec/22). -/

namespace Sys2Proof.Machine

open Sys2Proof

/-- Slot 0 stands twice in the table: Free first, which is what a read of it gives, and then running, which is where its thread is
found. A remote write of the thread has been on its way for 2^20 cycles by a port that is in Retrain, the only one. -/
def slotTwice : State :=
  { State.reset with
    clock := 2 ^ 20
    slots := [(0, { tid := 1 }), (0, { tid := 1, status := .running })]
    ports := [(0, { state := .retrain, writes := [{ tids := [1], va := 0, pa := Config.remoteBase 5, old := [], new := [] }] })] }

/-- The release marks the lost write at the thread that runs, and the slot that issues it goes on. -/
theorem slotTwice_releases : (match exec (.rrel Guard.always .sys) slotTwice with
    | .next t => t.me.sup.sinh
    | .fault _ | .refused _ => true) = false := by decide +kernel

end Sys2Proof.Machine

open Sys2Proof Sys2Proof.Machine

/-- Refutes O42: the statement has a release whose write is lost trap where the issuing slot is the place of its thread, and with
`slotTwice` that thread stands behind a Free entry of the same number, which issues the release and takes no trap. -/
theorem not_replicaInstructions : ¬ Obligations.ReplicaInstructions := by
  unfold Obligations.ReplicaInstructions
  intro h
  obtain ⟨-, -, -, release, -⟩ := h Guard.always .sys 0 ⟨.g 0, false⟩ slotTwice ⟨rfl, rfl, rfl⟩ rfl
  obtain ⟨-, lost⟩ := release rfl (by decide)
  obtain ⟨va, t, run, -, -, user, -⟩ := lost
    ⟨_, List.mem_cons_self, rfl, _, List.mem_cons_self, List.mem_cons_self, by decide⟩ rfl
  obtain ⟨-, -, toSupervisor⟩ := user rfl
  obtain ⟨-, -, sup⟩ := toSupervisor (fun ⟨_, _, tvec, _⟩ => tvec rfl)
  have goesOn := slotTwice_releases
  rw [run] at goesOn
  have user : t.me.sup.sinh = false := goesOn
  rw [sup] at user
  cases user

end

section
/-! SUPPORT. Journal records and the assignment of Idle contexts: what they leave alone (R307 of spec/19, R312 of spec/20). -/

namespace Sys2Proof.Machine

open Sys2Proof

/-! ## Bytes and tables -/

theorem leNat_leBytes (v n : Nat) : leNat (leBytes v n) = v % 256 ^ n := by
  induction n generalizing v with
  | zero => rw [leBytes, leNat, Nat.pow_zero, Nat.mod_one]
  | succ n ih =>
    rw [leBytes, leNat, ih, BitVec.toNat_ofNat]
    change v % 256 + 256 * (v / 256 % 256 ^ n) = _
    rw [← Nat.mod_mul, Nat.pow_succ']

/-- Reading a table whose values have been mapped, each with its key. -/
theorem val_mapAt {α β : Type} (F : Nat × α → β) {d : α} {d' : β} {k : Nat} (hd : F (k, d) = d') (t : Table α) :
    Table.val d' k (t.map fun e => (e.1, F e)) = F (k, Table.val d k t) := by
  induction t with
  | nil => exact hd.symm
  | cons e t ih =>
    obtain ⟨j, x⟩ := e
    rw [List.map_cons, Table.val, Table.val]
    split
    · next h =>
      obtain rfl : j = k := h
      rfl
    · exact ih

/-! ## Journal records -/

section

variable (s : State) (base n st cause : Nat) (result : Option Nat)

theorem State.journalTo_ctxs : (s.journalTo base n st cause result).ctxs = s.ctxs := by
  cases result <;> simp [State.journalTo, State.recheckQueues]

theorem State.journalTo_ports : (s.journalTo base n st cause result).ports = s.ports := by
  cases result <;> simp [State.journalTo, State.recheckQueues]

theorem State.journalTo_journalDue : (s.journalTo base n st cause result).journalDue = s.journalDue := by
  cases result <;> simp [State.journalTo, State.recheckQueues]

theorem State.journalTo_ctx (a : Nat) : (s.journalTo base n st cause result).ctx a = s.ctx a := by
  rw [State.ctx, State.journalTo_ctxs, State.ctx]

/-- A queue that waits for no journal slot stays as it is. -/
theorem State.journalTo_queue {q : Nat} (h : (s.queue q).state ≠ .waiting) :
    (s.journalTo base n st cause result).queue q = s.queue q := by
  have kept : ∀ t : State, t.queues = s.queues → (t.recheckQueues base).queue q = s.queue q := fun t ht => by
    have same : t.queue q = s.queue q := by rw [State.queue, ht, State.queue]
    have mapped := val_mapAt (fun e : Nat × HQueue => if e.2.state == .waiting && t.journalOf e.1 == base &&
      !(t.recordBusy (t.journalOf e.1) ((t.jheadOf e.1).toNat + 1)) then { e.2 with state := .active } else e.2)
      (d := {}) (d' := {}) (k := q) rfl t.queues
    rw [State.recheckQueues, State.queue, mapped]
    change (if (t.queue q).state == .waiting && _ && _ then _ else t.queue q) = _
    rw [same, if_neg (by simp [h])]
  refine kept _ ?_
  cases result <;> simp

/-- The record holds the state and the cause that were written. -/
theorem State.journaled_journalTo (hst : st < 8) (hc : cause < 2 ^ 32) :
    Stmt.journaled (s.journalTo base n st cause result) base n st cause := by
  set a := recordAt base n
  set w := leNat (memRead s.mem a 8) / 8 * 8 % 2 ^ 32 + st + cause * 2 ^ 32
  have read : memRead (s.journalTo base n st cause result).mem a 8 = leBytes w 8 := by
    have word : memRead (memWrite s.mem a (leBytes w 8)) a 8 = leBytes w 8 := by
      have := memRead_memWrite_same s.mem a (leBytes w 8)
      rwa [leBytes_length] at this
    cases result with
    | none =>
      simp only [State.journalTo, State.recheckQueues, State.store_mem]
      rw [memRead_memWrite_other _ _ _ _ _ (by omega)]
      exact word
    | some r =>
      simp only [State.journalTo, State.recheckQueues, State.store_mem]
      rw [memRead_memWrite_other _ _ _ _ _ (by omega), memRead_memWrite_other _ _ _ _ _ (by omega)]
      exact word
  have lt : w < 256 ^ 8 := by omega
  rw [Stmt.journaled, read, leNat_leBytes, Nat.mod_eq_of_lt lt]
  omega

end

theorem State.cmdFail_ends (s : State) (q n : Nat) :
    ∃ t, s.cmdFail q n 0x3CA = .next t ∧ Stmt.journaled t (s.journalOf q) n 4 0x3CA :=
  ⟨_, rfl, s.journaled_journalTo _ _ _ _ _ (by decide) (by decide)⟩

/-! ## The assignment of Idle contexts -/

/-- A context stays, or it was Idle and is being swapped in. -/
def State.AssignedAt (s t : State) (a : Nat) : Prop :=
  t.ctx a = s.ctx a ∨ ∃ c, s.ctx a = some c ∧ c.state = .idle ∧ t.ctx a = some { c with state := .swappingIn }

theorem State.AssignedAt.trans {s t u : State} {a : Nat} (h : s.AssignedAt t a) (h' : t.AssignedAt u a) : s.AssignedAt u a := by
  rcases h with h | ⟨c, hc, hi, h⟩
  · rcases h' with h' | ⟨d, hd, hi, h'⟩
    · exact .inl (h'.trans h)
    · exact .inr ⟨d, h ▸ hd, hi, h'⟩
  · rcases h' with h' | ⟨d, hd, hi', -⟩
    · exact .inr ⟨c, hc, hi, h'.trans h⟩
    · rw [h] at hd
      cases hd
      cases hi'

theorem State.assign_at (s : State) (b a : Nat) : s.AssignedAt (s.assign b) a := by
  unfold State.AssignedAt State.assign
  rw [State.ctx_onCtx_eq]
  split
  · next hb =>
    subst hb
    cases hc : s.ctx a with
    | none => exact .inl rfl
    | some c =>
      rw [Option.map_some]
      split
      · next hi => exact .inr ⟨c, rfl, hi, rfl⟩
      · exact .inl rfl
  · exact .inl rfl

theorem State.assign_idle {s : State} {a : Nat} {c : Ctx} (h : s.ctx a = some c) (hi : c.state = .idle) :
    (s.assign a).ctx a = some { c with state := .swappingIn } := by
  rw [State.assign, State.ctx_onCtx_eq, if_pos rfl, h, Option.map_some, if_pos hi]

theorem State.assign_rest (s : State) (b : Nat) : { s.assign b with ctxs := [] } = { s with ctxs := [] } := by
  unfold State.assign State.onCtx
  split <;> rfl

/-- One step of the assignment. -/
def State.assignStep (s : State) (e : Nat × Ctx) : State :=
  match s.ctx e.1 with
  | some c =>
    if c.state != .idle then s
    else if c.record.slice = 0 then (if c.stopped then s else s.assign e.1)
    else if (s.groupOf c).any (·.2.active) then s
    else s.assign e.1
  | none => s

theorem State.assignStep_cases (s : State) (e : Nat × Ctx) : s.assignStep e = s ∨ s.assignStep e = s.assign e.1 := by
  unfold State.assignStep
  split
  · split
    · exact .inl rfl
    · split
      · split
        · exact .inl rfl
        · exact .inr rfl
      · split
        · exact .inl rfl
        · exact .inr rfl
  · exact .inl rfl

theorem State.assignIdle_eq (s : State) (last : Nat) :
    s.assignIdle last = (s.liveCtxs.filter (last < ·.1) ++ s.liveCtxs.filter (·.1 ≤ last)).foldl State.assignStep s := rfl

theorem State.assignIdle_at (s : State) (last a : Nat) : s.AssignedAt (s.assignIdle last) a := by
  rw [State.assignIdle_eq]
  generalize s.liveCtxs.filter (last < ·.1) ++ s.liveCtxs.filter (·.1 ≤ last) = l
  induction l generalizing s with
  | nil => exact .inl rfl
  | cons e l ih =>
    refine State.AssignedAt.trans ?_ (ih (s.assignStep e))
    rcases s.assignStep_cases e with h | h
    · rw [h]
      exact .inl rfl
    · rw [h]
      exact s.assign_at e.1 a

theorem State.assignIdle_rest (s : State) (last : Nat) : { s.assignIdle last with ctxs := [] } = { s with ctxs := [] } := by
  rw [State.assignIdle_eq]
  refine foldl_same (fun s => { s with ctxs := [] }) _ (fun s e => ?_) _ _
  rcases s.assignStep_cases e with h | h
  · rw [h]
  · rw [h, State.assign_rest]

/-! ## The end of torn-down contexts -/

theorem State.freeTorn_ctx (s : State) (a : Nat) :
    s.freeTorn.ctx a = (s.ctx a).filter fun c => c.state != .tearingDown || s.journalDue.any (·.asid == a) :=
  val_mapAt (d := none) (d' := none) (k := a) (fun e : Nat × Option Ctx =>
    e.2.filter fun c : Ctx => c.state != .tearingDown || s.journalDue.any (·.asid == e.1)) rfl s.ctxs

end Sys2Proof.Machine

end

section
/-! O56 of APPROVED.json: NOP, CREATE, DESTROY and BIND (R297 to R299 and R307 of spec/19, R309 and R312 of spec/20). -/

namespace Sys2Proof.Machine

open Sys2Proof

/-! ## The commands -/

section

variable {s : State} {q n : Nat} {cmd : BitVec 512}

/-- A command whose record is not pending does nothing. -/
theorem State.command_none (h : s.pending q n cmd = false) (k : Out) : s.command q n cmd k = .next s :=
  if_neg (by rw [h]; exact Bool.false_ne_true)

theorem State.command_pending (h : s.pending q n cmd = true) (k : Out) : s.command q n cmd k = k := if_pos h

/-- A command of queue 0 fails on any other queue. -/
theorem State.onQueue0_other (h : s.pending q n cmd = true) (hq : q ≠ 0) (k : Out) : s.onQueue0 q n cmd k = s.cmdFail q n 0x3CA := by
  rw [State.onQueue0, State.command_pending h, if_pos (by simp [hq])]

theorem State.onQueue0_zero (h : s.pending 0 n cmd = true) (hr : cmdReserved cmd = false) (k : Out) : s.onQueue0 0 n cmd k = k := by
  rw [State.onQueue0, State.command_pending h, if_neg (by simp [hr])]

end

/-- A command without a unit ends completed, with the contexts and queues it has made. -/
theorem State.cmdDone_ends (s : State) (base n : Nat) (result : Option Nat) : ∃ t, s.cmdDone base n result = .next t ∧
    Stmt.journaled t base n 2 0 ∧ (∀ a, t.ctx a = s.ctx a) ∧ ∀ q, (s.queue q).state ≠ .waiting → t.queue q = s.queue q :=
  ⟨_, rfl, s.journaled_journalTo _ _ _ _ _ (by decide) (by decide), s.journalTo_ctx _ _ _ _ _, fun _ h => s.journalTo_queue _ _ _ _ _ h⟩

/-! ## CREATE -/

theorem execCreate_makes {s : State} {n : Nat} {cmd : BitVec 512} {v : Nat} {ds : List Nat} (hp : s.pending 0 n cmd = true)
    (hr : cmdReserved cmd = false) (ha : cmdAddr cmd % 64 = 0) (hv : s.supRead (cmdAddr cmd) 64 = .ok v)
    (hd : s.readSpaces (ctxRecOf v) = .ok ds) (hb : s.createBad (bitsAt v 84 12) v (ctxRecOf v) ds = false) :
    ∃ (c : Ctx) (u : State), c.record = ctxRecOf v ∧ c.state = .idle ∧ u = s.setCtx (bitsAt v 84 12) (some c) ∧
      exec (.create 0 n cmd) s = u.assignIdle.cmdDone u.assignIdle.q0journal n (some (bitsAt v 84 12)) := by
  refine ⟨{ record := ctxRecOf v, spaces := (ds.zipIdx.map fun e => (e.2, spaceOf e.1)).filter (·.2.isSome) }, _, rfl, rfl, rfl, ?_⟩
  change execCreate 0 n cmd s = _
  rw [execCreate, State.onQueue0_zero hp hr, if_neg (by simp [ha]), hv]
  simp only [hd, hb, Bool.false_eq_true, if_false]
  rfl

/-! ## DESTROY -/

/-- A remote write that a port holds back. -/
def Outgoing.isWrite : Outgoing → Bool
  | .write _ _ _ _ _ => true
  | .request _ _ | .result _ _ | .message _ _ _ _ | .reply _ _ _ => false

theorem State.writesHeld_eq (s : State) : s.writesHeld = (s.ports.map (·.2.waiting)).any (·.any Outgoing.isWrite) := by
  rw [List.any_map]
  rfl

/-- What a port holds back, and the contexts: neither changes where units are cancelled with their context. -/
def State.backlog (s : State) : Table (Option Ctx) × List (List Outgoing) := (s.ctxs, s.ports.map (·.2.waiting))

theorem State.journalEnd_backlog (s : State) (asid h : Nat) (u : WorkUnit) (cancelled : Bool) :
    (s.journalEnd asid h u cancelled).backlog = s.backlog := by
  unfold State.journalEnd
  generalize (if cancelled then 3 else 2) = st
  dsimp only
  split
  · rfl
  · split
    · rfl
    · rw [State.backlog, State.journalTo_ctxs, State.journalTo_ports]
      simp only [State.backlog, State.settleAll, List.map_map]
      rfl

theorem State.cancelAll_backlog (s : State) (a : Nat) (c : Ctx) : (s.cancelAll a c).backlog = s.backlog :=
  foldl_same State.backlog _ (fun s e => by
    split
    · rfl
    · exact s.journalEnd_backlog ..) _ _

/-- Paying the journal records leaves a context that has been torn down, or frees its id; with no write held back and no unit left it
does. -/
theorem State.payJournals_torn {s : State} {a : Nat} {c : Ctx} (h : s.ctx a = some c) (ht : c.state = .tearingDown) :
    (s.payJournals.ctx a = none ∨ s.payJournals.ctx a = some c) ∧
      (c.units = [] → s.writesHeld = false → s.payJournals.ctx a = none) := by
  have freed : ∀ t : State, t.ctx a = some c → (t.freeTorn.ctx a = none ∨ t.freeTorn.ctx a = some c) ∧
      (t.journalDue.any (·.asid == a) = false → t.freeTorn.ctx a = none) := fun t hc => by
    rw [State.freeTorn_ctx, hc, Option.filter_some, ht]
    cases t.journalDue.any (·.asid == a) <;> simp
  unfold State.payJournals
  split
  · next hk =>
    refine ⟨(freed s h).1, fun _ hw => (freed s h).2 ?_⟩
    rw [hw, Bool.or_false, List.isEmpty_iff] at hk
    rw [hk]
    rfl
  · dsimp only
    set p := s.journalDue.partition fun e => s.copyRuns e.asid e.unit with hp
    set t := p.2.foldl (fun s e => s.journalTo e.base e.seq e.st 0 none) { s.settleAll with journalDue := p.1 } with ht'
    have same : (t.ctxs, t.journalDue) = (s.ctxs, p.1) :=
      foldl_same (fun s : State => (s.ctxs, s.journalDue)) _
        (fun s e => by rw [State.journalTo_ctxs, State.journalTo_journalDue]) _ _
    obtain ⟨hctxs, hdue⟩ := Prod.mk.injEq .. ▸ same
    have hc : t.ctx a = some c := by
      rw [State.ctx, hctxs]
      exact h
    refine ⟨(freed t hc).1, fun hu _ => (freed t hc).2 ?_⟩
    rw [hdue, hp, List.partition_eq_filter_filter, List.any_filter]
    refine List.any_eq_false.2 fun e _ => ?_
    have gone : ∀ k, s.unit a k = none := fun k => by
      rw [State.unit, h]
      simp [Ctx.unit, hu]
    rw [Bool.and_eq_true, not_and, beq_iff_eq]
    rintro hr rfl
    have still : s.copyRuns e.asid e.unit = false := by
      unfold State.copyRuns
      simp [gone]
    rw [still] at hr
    cases hr

/-- What a teardown leaves of its context, before journal records are paid and others are assigned. -/
theorem State.torn_ends {s v : State} {a : Nat} {c : Ctx} (h : v.ctx a = some c)
    (hw : v.ports.map (·.2.waiting) = s.ports.map (·.2.waiting)) :
    let t := ((v.onCtx a fun c => { record := c.record, state := .tearingDown }).payJournals).assignIdle a
    (∀ x, t.ctx a = some x → x.state = .tearingDown) ∧ (s.writesHeld = false → t.ctx a = none) := by
  set u := v.onCtx a fun c => { record := c.record, state := .tearingDown }
  have torn : u.ctx a = some { record := c.record, state := .tearingDown } := by
    rw [State.ctx_onCtx_eq, if_pos rfl, h, Option.map_some]
  have ports : u.ports = v.ports := by
    change (v.onCtx a _).ports = _
    rw [State.onCtx, h]
    rfl
  have held : u.writesHeld = s.writesHeld := by rw [State.writesHeld_eq, State.writesHeld_eq, ports, hw]
  obtain ⟨paid, free⟩ := State.payJournals_torn torn rfl
  have none_ : u.payJournals.ctx a = none → (u.payJournals.assignIdle a).ctx a = none := fun hn => by
    rcases u.payJournals.assignIdle_at a a with e | ⟨d, hd, -, -⟩
    · exact e.trans hn
    · rw [hn] at hd
      cases hd
  refine ⟨fun x hx => ?_, fun hs => none_ (free rfl (held.trans hs))⟩
  rcases paid with hn | hc
  · rw [none_ hn] at hx
    cases hx
  · rcases u.payJournals.assignIdle_at a a with e | ⟨d, hd, hi, -⟩
    · rw [e, hc] at hx
      cases hx
      rfl
    · rw [hc] at hd
      cases hd
      cases hi

/-- A context that is torn down is free at once, or waits for its journal records. -/
theorem State.teardown_ctx {s : State} {a : Nat} {c : Ctx} (h : s.ctx a = some c) :
    (∀ x, (s.teardown a).ctx a = some x → x.state = .tearingDown) ∧ (s.writesHeld = false → (s.teardown a).ctx a = none) := by
  unfold State.teardown
  rw [h]
  dsimp only
  set u := ((s.onCtx a fun c => { c with state := .tearingDown }).cancelAll a c).sync .asid (BitVec.ofNat 64 a)
  set v := c.record.owned.foldl (fun s t => if (s.tile t).owner = some a || (s.tile t).lastOwner = some a then s.clearTile t else s) u
  have cleared : v.backlog = (s.onCtx a fun c => { c with state := .tearingDown }).backlog :=
    (foldl_same State.backlog _ (fun s t => by split <;> rfl) _ _).trans (State.cancelAll_backlog ..)
  have ctx : v.ctx a = some { c with state := .tearingDown } := by
    have same := congrArg (fun b => Table.val none a b.1) cleared
    exact same.trans ((s.ctx_onCtx_eq a a _).trans (by rw [if_pos rfl, h, Option.map_some]))
  refine State.torn_ends ctx ((congrArg (·.2) cleared).trans ?_)
  rw [State.onCtx, h]
  rfl

/-! ## BIND -/

theorem HQueue.bound_unbound {x : HQueue} (h : x.state = .unbound) (a args : Nat) :
    x.bound a args = { x with state := .active, qwp := x.qrp, asid := a, qbase := bitsAt args 64 64
                              qsize := 2 ^ bitsAt args 32 5, evbase := bitsAt args 128 64, evsize := 2 ^ bitsAt args 40 5 } := by
  unfold HQueue.bound
  rw [h]

theorem execBind_binds {s : State} {n : Nat} {cmd : BitVec 512} (hp : s.pending 0 n cmd = true) (hr : cmdReserved cmd = false)
    (hb : bindBad (cmdArgs cmd) = false) (hc : (s.liveCtx (bitsAt (cmdArgs cmd) 16 12)).isSome = true) :
    exec (.bind 0 n cmd) s = (s.onQueue (bitsAt (cmdArgs cmd) 0 10) fun q =>
      q.bound (bitsAt (cmdArgs cmd) 16 12) (cmdArgs cmd)).cmdDone s.q0journal n none := by
  change execBind 0 n cmd s = _
  have live : (s.liveCtx (bitsAt (cmdArgs cmd) 16 12)).isNone = false := by
    rw [Option.isNone_eq_false_iff]
    exact hc
  rw [execBind, State.onQueue0_zero hp hr, if_neg (by simp [hb, live])]
  rfl

end Sys2Proof.Machine

open Sys2Proof Sys2Proof.Machine

/-- Settles O56: each command that runs ends with its journal record, and the context or queue it has made is still there then. -/
theorem contextCommands : Obligations.ContextCommands := by
  intro q n cmd s hr
  refine ⟨fun hp i hi => ?_, fun hp => ⟨?_, fun hq => ⟨?_, ?_⟩, ?_, ?_, ?_⟩⟩
  · simp only [List.mem_cons, List.not_mem_nil, or_false] at hi
    rcases hi with rfl | rfl | rfl | rfl
    · exact State.command_none hp _
    · exact State.command_none hp _
    · exact State.command_none hp _
    · exact State.command_none hp _
  · obtain ⟨t, run, hj, -⟩ := s.cmdDone_ends (s.journalOf q) n none
    refine ⟨t, ?_, hj⟩
    change execQueueNop q n cmd s = _
    rw [execQueueNop, State.command_pending hp, hr]
    exact run
  · rw [show exec (.create q n cmd) s = s.cmdFail q n 0x3CA from State.onQueue0_other hp hq _]
    exact s.cmdFail_ends q n
  · rw [show exec (.destroy q n cmd) s = s.cmdFail q n 0x3CA from State.onQueue0_other hp hq _]
    exact s.cmdFail_ends q n
  · rintro rfl v ds ha hv hd hb
    obtain ⟨c, u, hrec, hidle, rfl, run⟩ := execCreate_makes hp hr ha hv hd hb
    set u := s.setCtx (bitsAt v 84 12) (some c)
    obtain ⟨t, done, hj, hctx, -⟩ := u.assignIdle.cmdDone_ends u.assignIdle.q0journal n (some (bitsAt v 84 12))
    have base : u.assignIdle.q0journal = s.q0journal := (congrArg (·.q0journal) (u.assignIdle_rest 4096) :)
    rw [base] at hj
    have made : u.ctx (bitsAt v 84 12) = some c := State.ctx_setCtx ..
    rcases u.assignIdle_at 4096 (bitsAt v 84 12) with e | ⟨d, hd, -, e⟩
    · exact ⟨t, c, run.trans done, (hctx _).trans (e.trans made), hrec, .inl hidle, hj⟩
    · obtain rfl : c = d := Option.some.inj (made.symm.trans hd)
      exact ⟨t, _, run.trans done, (hctx _).trans e, hrec, .inr rfl, hj⟩
  · rintro rfl c hc
    have run : exec (.destroy 0 n cmd) s =
        (s.destroyCtx (bitsAt (cmdArgs cmd) 0 12) c).cmdDone s.q0journal n none := by
      change execDestroy 0 n cmd s = _
      rw [execDestroy, State.onQueue0_zero hp hr, hc]
      rfl
    obtain ⟨t, done, hj, hctx, -⟩ := (s.destroyCtx (bitsAt (cmdArgs cmd) 0 12) c).cmdDone_ends s.q0journal n none
    refine ⟨fun hi => ⟨t, run.trans done, hj, ?_⟩, fun ht => ⟨t, run.trans done, hj, c, ?_, ht⟩⟩
    · rw [hctx, State.destroyCtx, hi]
      obtain ⟨torn, free⟩ := State.teardown_ctx hc
      exact ⟨free, torn⟩
    · rw [hctx, State.destroyCtx, ht]
      exact hc
  · rintro rfl hb hc hu
    set b := bitsAt (cmdArgs cmd) 0 10
    obtain ⟨t, done, hj, -, hqueue⟩ := (s.onQueue b fun q =>
      q.bound (bitsAt (cmdArgs cmd) 16 12) (cmdArgs cmd)).cmdDone_ends s.q0journal n none
    have bound : (s.onQueue b fun q => q.bound (bitsAt (cmdArgs cmd) 16 12) (cmdArgs cmd)).queue b = _ :=
      (val_put_same ..).trans (HQueue.bound_unbound hu ..)
    refine ⟨t, (execBind_binds hp hr hb hc).trans done, ?_, hj⟩
    rw [hqueue b (by rw [bound]; exact nofun), bound]
    exact ⟨rfl, rfl, rfl, rfl, rfl, rfl, rfl⟩

end

section
/-! SUPPORT. What placement, the crook and a halt leave alone: memory, contexts, queues, and who holds a tile (R142 of spec/09, R248 to
R255 of spec/15). -/

namespace Sys2Proof.Machine

open Sys2Proof

/-- A state without slots, cores, tiles, groups, sets and the counters that placement draws on. -/
def State.unplaced (s : State) : State :=
  { s with freeCtr := 0, nextTid := 0, slots := [], cores := [], tiles := [], groups := [], nextGroup := 0, sets := [] }

/-- Who holds a tile, and held it last. -/
def Tile.held (x : Tile) : Option Nat × Option Nat := (x.owner, x.lastOwner)

/-- `t` differs from `s` in what placement, the crook and a halt may change, and every tile is held as before. -/
structure State.Places (s t : State) : Prop where
  rest : t.unplaced = s.unplaced
  held : ∀ k, (t.tile k).held = (s.tile k).held

section

variable {o s t : State}

theorem State.Places.refl (s : State) : s.Places s := ⟨rfl, fun _ => rfl⟩

theorem State.Places.ctxs (h : s.Places t) : t.ctxs = s.ctxs := congrArg (·.ctxs) h.rest

theorem State.Places.ctx (h : s.Places t) (a : Nat) : t.ctx a = s.ctx a := congrArg (·.ctx a) h.rest

theorem State.Places.mem (h : s.Places t) : t.mem = s.mem := congrArg (·.mem) h.rest

theorem State.Places.owner (h : s.Places t) (k : Nat) : (t.tile k).owner = (s.tile k).owner := congrArg (·.1) (h.held k)

theorem State.tile_onTile_eq (s : State) (n k : Nat) (f : Tile → Tile) :
    (s.onTile n f).tile k = if k = n then f (s.tile n) else s.tile k := by
  split
  · next hk =>
    rw [hk]
    exact val_put_same ..
  · next hk => exact val_put_other _ _ _ _ _ hk

variable (h : o.Places s)

include h

/-- An update of other parts than the tiles. -/
theorem State.Places.off (hr : t.unplaced = s.unplaced := by rfl) (ht : t.tiles = s.tiles := by rfl) : o.Places t :=
  ⟨hr.trans h.rest, fun k => by
    rw [State.tile, ht]
    exact h.held k⟩

theorem State.Places.onTile (n : Nat) {f : Tile → Tile} (hf : ∀ x, (f x).held = x.held) : o.Places (s.onTile n f) :=
  ⟨h.rest, fun k => by
    rw [State.tile_onTile_eq]
    split
    · next hk =>
      rw [hk, hf]
      exact h.held n
    · exact h.held k⟩

theorem State.Places.onCrook (n : Nat) (f : Crook → Crook) : o.Places (s.onCrook n f) := h.onTile n fun _ => rfl

theorem State.Places.onSlot (n : Nat) (f : Slot → Slot) : o.Places (s.onSlot n f) := h.off

theorem State.Places.onGroup (g : Nat) (f : Group → Group) : o.Places (s.onGroup g f) := by
  unfold State.onGroup
  split
  · exact h
  · exact h.off

omit h in
theorem State.Places.ite {c : Prop} [Decidable c] {u : State} (ht : o.Places t) (hu : o.Places u) :
    o.Places (if c then t else u) := by
  split
  · exact ht
  · exact hu

theorem State.Places.foldl {α : Type} {f : State → α → State} (hf : ∀ s, o.Places s → ∀ a, o.Places (f s a)) (l : List α) :
    o.Places (l.foldl f s) := by
  induction l generalizing s with
  | nil => exact h
  | cons a l ih => exact ih (hf s h a)

/-! ## The crook and halts -/

theorem State.Places.grant (n : Nat) : o.Places (s.grant n) := by
  unfold State.grant
  dsimp only
  split
  · exact h
  · split
    · exact h
    · exact ((h.onCrook ..).onSlot ..).ite (h.onCrook ..)

theorem State.Places.passCrook (n : Nat) : o.Places (s.passCrook n) := by
  unfold State.passCrook
  dsimp only
  split
  · exact h.grant n
  · exact ((h.onCrook ..).grant n).ite h

theorem State.Places.haltLease (n : Nat) : o.Places (s.haltLease n) :=
  (h.onSlot ..).ite (((h.onCrook ..).onSlot ..).passCrook _)

theorem State.Places.haltSlots (ns : List Nat) : o.Places (s.haltSlots ns) :=
  (h.foldl (fun _ hu _ => hu.onSlot ..) _).foldl (fun _ hu n => hu.haltLease n) _

/-! ## Placement -/

theorem State.Places.pick (n : Nat) : o.Places (s.pick n).2 := by
  unfold State.pick
  split
  · exact h
  · exact h.off

omit h in
theorem State.Places.choose {s : State} (h : o.Places s) (k : Nat) (l : List Nat) : o.Places (s.choose k l).2 := by
  induction k generalizing s l with
  | zero => exact h
  | succ k ih =>
    unfold State.choose
    split
    · exact h
    · exact ih (h.pick _) _

theorem State.Places.startCore (g : Nat) (x : Group) (pos : Nat) (slots : List Nat) : o.Places (s.startCore g x pos slots) :=
  h.foldl (fun _ hu _ => hu.off) _

theorem State.Places.resumeCore (x : Group) (pos core : Nat) (slots : List Nat) : o.Places (s.resumeCore x pos core slots) := by
  have resumed := h.foldl (f := fun (s : State) (e : Nat × Slot) => s.resumeIn e.1 e.2) (fun _ hu _ => hu.off)
    (slots.zip ((x.saved.filter (·.1 == pos)).map (·.2)))
  unfold State.resumeCore
  dsimp only
  split
  · exact State.Places.onTile (State.Places.off resumed) _ fun _ => rfl
  · exact resumed

/-- A tile without what its crook keeps for some threads. -/
def Tile.droppingKept (tids : List Nat) (x : Tile) : Tile :=
  { x with crook := { x.crook with
      kept := x.crook.kept.filter fun w => !tids.contains w.tid
      mstat := x.crook.mstat.filter fun m => !tids.contains m.tid
      err := x.crook.err.filter fun m => !tids.contains m.1 } }

theorem State.Places.droppingKept (tids : List Nat) :
    o.Places { s with tiles := s.tiles.map fun e => (e.1, e.2.droppingKept tids) } :=
  ⟨h.rest, fun k => (congrArg Tile.held (val_map (d := ({} : Tile)) (g := (·.droppingKept tids)) rfl k s.tiles)).trans (h.held k)⟩

theorem State.Places.moveKept (n : Nat) (tids : List Nat) : o.Places (s.moveKept n tids) :=
  h.ite (((h.droppingKept tids).onCrook n _).grant n)

theorem State.Places.takeSlot (n : Nat) : o.Places (s.takeSlot n) := by
  unfold State.takeSlot
  exact h.onTile _ fun _ => rfl

theorem State.Places.resumeIn (n : Nat) (y : Slot) : o.Places (s.resumeIn n y) := h.off

theorem State.Places.placeKid (g : Nat) (x : Group) (e : Nat × Slot) : o.Places (s.placeKid g x e) := by
  unfold State.placeKid
  dsimp only
  split
  · exact (((h.choose ..).takeSlot _).resumeIn ..).moveKept ..
  · exact h.off

theorem State.Places.placeOn (g : Nat) (x : Group) (n : Nat) : o.Places (s.placeOn g x n) := by
  unfold State.placeOn
  extract_lets k fresh cs s1 s2 s3 s4
  have hcs : o.Places cs.2 := by
    unfold cs
    split
    · exact h
    · exact h.choose ..
  have h1 : o.Places s1 := hcs.foldl (fun _ hu _ => ((hu.choose ..).startCore ..).ite ((hu.choose ..).resumeCore ..)) _
  have h2 : o.Places s2 := h1.onGroup ..
  have h3 : o.Places s3 := by
    unfold s3
    split
    · exact h2.onTile n fun _ => rfl
    · exact h2
  have h4 : o.Places s4 := (h3.moveKept ..).off
  exact (h4.off).ite (h4.foldl (fun _ hu e => hu.placeKid g x e) _)

theorem State.Places.reserveFor (g : Nat) (x : Group) : o.Places (s.reserveFor g x) := by
  unfold State.reserveFor
  refine h.ite ?_
  dsimp only
  split
  · exact h
  · next k _ =>
    refine State.Places.onGroup ?_ ..
    exact h.onTile k fun _ => rfl

theorem State.Places.passOnce (die : Nat) : o.Places (s.passOnce die) := by
  unfold State.passOnce
  refine State.Places.foldl (h.foldl (fun u hu e => ?_) _) (fun u hu e => ?_) _
  · split
    · exact hu
    · split
      · exact (hu.placeOn ..).ite hu
      · exact hu.ite ((hu.pick _).placeOn ..)
  · split
    · exact hu.reserveFor ..
    · exact hu

omit h in
theorem State.Places.passes {s : State} (h : o.Places s) (die n : Nat) : o.Places (s.passes die n) := by
  induction n generalizing s with
  | zero => exact h
  | succ n ih => exact (h.passOnce die).ite (ih (h.passOnce die))

theorem State.Places.placePass (die : Nat) : o.Places (s.placePass die) :=
  State.Places.foldl (h.passes die _) (fun _ hu d => (hu.passes d _).ite hu) _

end

end Sys2Proof.Machine

end

section
/-! PROOF. O54: slices, halts and swaps of contexts (R300, R305 and R307 of spec/19). -/

namespace Sys2Proof.Machine

open Sys2Proof

variable {s t : State} {a : Nat} {c : Ctx}

/-! ## What stays but the contexts, and who holds a tile -/

theorem State.onCtx_rest (s : State) (a : Nat) (f : Ctx → Ctx) : { s.onCtx a f with ctxs := [] } = { s with ctxs := [] } := by
  unfold State.onCtx
  split <;> rfl

theorem State.onCtx_tile (s : State) (a k : Nat) (f : Ctx → Ctx) : (s.onCtx a f).tile k = s.tile k :=
  congrArg (·.tile k) (s.onCtx_rest a f)

theorem State.ctx_onCtx_some (hc : s.ctx a = some c) (f : Ctx → Ctx) : (s.onCtx a f).ctx a = some (f c) := by
  rw [State.ctx_onCtx_eq, if_pos rfl, hc, Option.map_some]

/-- The contexts, and who holds each tile. -/
def State.holders (s : State) : Table (Option Ctx) × (Nat → Option Nat × Option Nat) := (s.ctxs, fun k => (s.tile k).held)

theorem State.Places.holders (h : s.Places t) : t.holders = s.holders := Prod.ext h.ctxs (funext h.held)

theorem State.holders_ctx (h : t.holders = s.holders) (a : Nat) : t.ctx a = s.ctx a := by
  have same : t.ctxs = s.ctxs := congrArg Prod.fst h
  rw [State.ctx, same, State.ctx]

theorem State.holders_owner (h : t.holders = s.holders) (k : Nat) : (t.tile k).owner = (s.tile k).owner := congrArg (·.2 k |>.1) h

theorem State.onTile_holders (s : State) (n : Nat) {f : Tile → Tile} (hf : ∀ x, (f x).held = x.held) :
    (s.onTile n f).holders = s.holders := ((State.Places.refl s).onTile n hf).holders

theorem CtxRec.mem_owned {r : CtxRec} {k : Nat} : k ∈ r.owned ↔ k < 96 ∧ r.tiles.getLsbD k = true := by
  unfold CtxRec.owned
  rw [List.mem_filter, List.mem_range]
  exact Iff.rfl

theorem CtxRec.owned_nodup (r : CtxRec) : r.owned.Nodup := List.nodup_range.filter _

/-! ## A halt -/

/-- A halted context: its spaces stand between two operations. -/
def Ctx.halted (c : Ctx) : Ctx := { c.onSpaces Space.halt with state := .halting }

theorem State.haltCtx_at (hc : s.ctx a = some c) : (s.haltCtx a).ctx a = some c.halted ∧ (s.haltCtx a).mem = s.mem := by
  have placed := State.Places.haltSlots (State.Places.refl ((s.dropAsks a).onCtx a Ctx.halted)) (c.record.owned.flatMap tileSlots)
  have here : (s.dropAsks a).ctx a = some c := hc
  rw [State.haltCtx, hc]
  exact ⟨(placed.ctx a).trans (State.ctx_onCtx_some here _), placed.mem.trans (State.onCtx_mem ..)⟩

/-! ## A tile that is saved -/

theorem State.saveTile_ctx (hc : s.ctx a = some c) (t : Nat) : ∃ i : Image, i.tile = s.tile t ∧
    (s.saveTile a t).ctxs = Table.put a (some { c with images := Table.put t i c.images }) s.ctxs := by
  refine ⟨{ s.imageOf t with cores := (s.imageOf t).cores.map fun e => (e.1, e.2.suspendLanes) }, rfl, ?_⟩
  simp only [State.saveTile, State.onCtx, hc]
  rfl

theorem State.saveTile_tile (s : State) (a t k : Nat) :
    (s.saveTile a t).tile k = if k = t then { lastOwner := some a } else s.tile k := by
  have cleared : ∀ u : State, (u.clearTile t).tile k = if k = t then {} else u.tile k := fun u => by
    split
    · next hk =>
      subst hk
      exact val_put_same ..
    · next hk => exact val_put_other _ _ _ _ _ hk
  unfold State.saveTile
  rw [State.tile_onTile_eq]
  split
  · next hk =>
    subst hk
    rw [cleared, if_pos rfl]
  · next hk => rw [cleared, if_neg hk, State.onCtx_tile]

/-- `u` is `s` with the tiles `ts` of context `a` in its image. -/
structure State.Saved (s u : State) (a : Nat) (c : Ctx) (ts : List Nat) (images : Table Image) : Prop where
  ctx : u.ctx a = some { c with images }
  ctxs : ∀ v, Table.put a v u.ctxs = Table.put a v s.ctxs
  tile : ∀ k, u.tile k = if k ∈ ts then { lastOwner := some a } else s.tile k
  image : ∀ k ∈ ts, ∃ i, Table.val none k (images.map fun e => (e.1, some e.2)) = some i ∧ i.tile = s.tile k
  other : ∀ k, k ∉ ts →
    Table.val none k (images.map fun e => (e.1, some e.2)) = Table.val none k (c.images.map fun e => (e.1, some e.2))

theorem put_mapSome {α : Type} (k : Nat) (v : α) (l : Table α) :
    (Table.put k v l).map (fun e => (e.1, some e.2)) = Table.put k (some v) (l.map fun e => (e.1, some e.2)) := by
  induction l with
  | nil => rfl
  | cons e l ih =>
    obtain ⟨j, x⟩ := e
    simp only [List.map_cons, Table.put]
    split
    · rfl
    · split
      · rfl
      · rw [List.map_cons, ih]

theorem State.saved_foldl {ts : List Nat} (hn : ts.Nodup) (hc : s.ctx a = some c) :
    ∃ images, s.Saved (ts.foldl (fun s t => s.saveTile a t) s) a c ts images := by
  induction ts generalizing s c with
  | nil => exact ⟨c.images, hc, fun _ => rfl, fun k => by simp, fun k hk => by simp at hk, fun _ _ => rfl⟩
  | cons n ts ih =>
    obtain ⟨hnot, hn⟩ := List.nodup_cons.1 hn
    obtain ⟨i, hi, hput⟩ := State.saveTile_ctx hc n
    have here : (s.saveTile a n).ctx a = some { c with images := Table.put n i c.images } := by
      rw [State.ctx, hput]
      exact val_put_same ..
    obtain ⟨images, saved⟩ := ih hn here
    refine ⟨images, saved.ctx, fun v => ?_, fun k => ?_, fun k hk => ?_, fun k hk => ?_⟩
    · rw [List.foldl_cons, saved.ctxs, hput, put_put]
    · rw [List.foldl_cons, saved.tile, State.saveTile_tile]
      by_cases hk : k = n
      · simp [hk]
      · simp [hk]
    · rcases List.mem_cons.1 hk with hk | hk
      · subst hk
        refine ⟨i, ?_, hi⟩
        rw [saved.other k hnot, put_mapSome]
        exact val_put_same ..
      · obtain ⟨j, hj, ht⟩ := saved.image k hk
        refine ⟨j, hj, ht.trans ?_⟩
        rw [State.saveTile_tile, if_neg (ne_of_mem_of_not_mem hk hnot)]
    · rw [List.mem_cons, not_or] at hk
      rw [saved.other k hk.2, put_mapSome]
      exact val_put_other _ _ _ _ _ hk.1

/-- With no pre-emption under way no group is saved before its tile. -/
theorem State.savePreempted_none (h : ∀ e ∈ s.groups, ∀ g, e.2 = some g → g.preempt = false) (g : Nat) : s.savePreempted g = s := by
  unfold State.savePreempted
  split
  · rfl
  · next x hx =>
    have calm : x.preempt = false := by
      rcases val_mem none g s.groups with hv | hv
      · exact absurd (hx.symm.trans hv) (by simp)
      · exact h _ hv x hx
    dsimp only
    rw [if_pos (by rw [calm]; rfl)]

theorem foldl_id {α : Type} {f : State → α → State} {s : State} (h : ∀ a, f s a = s) (l : List α) : l.foldl f s = s := by
  induction l with
  | nil => rfl
  | cons a l ih => rw [List.foldl_cons, h, ih]

/-! ## The tile group of a context that is being swapped out -/

/-- In a rising table a key that stands is replaced in its place. -/
theorem put_eq_map {α : Type} {k : Nat} {v : α} {l : Table α} (h : l.Pairwise (·.1 < ·.1)) (hk : ∃ e ∈ l, e.1 = k) :
    Table.put k v l = l.map fun e => if e.1 = k then (k, v) else e := by
  induction l with
  | nil => simp at hk
  | cons e l ih =>
    obtain ⟨j, x⟩ := e
    obtain ⟨hj, hl⟩ := List.pairwise_cons.1 h
    by_cases e : j = k
    · subst e
      have later : l.map (fun e => if e.1 = j then (j, v) else e) = l :=
        (List.map_congr_left fun e he => if_neg (hj e he).ne').trans (List.map_id l)
      simp [Table.put, later]
    · obtain ⟨e', he', rfl⟩ : ∃ e' ∈ l, e'.1 = k := by
        obtain ⟨e', he', h'⟩ := hk
        rcases List.mem_cons.1 he' with rfl | he'
        · exact absurd h' e
        · exact ⟨e', he', h'⟩
      have := hj e' he'
      simp only at this
      rw [Table.put, if_neg (by omega), if_neg e, ih hl ⟨e', he', rfl⟩, List.map_cons, if_neg e]

theorem val_of_mem_rising {α : Type} {k : Nat} {v : α} (d : α) {l : Table α} (h : l.Pairwise (·.1 < ·.1)) (hm : (k, v) ∈ l) :
    Table.val d k l = v := by
  induction l with
  | nil => simp at hm
  | cons e l ih =>
    obtain ⟨hj, hl⟩ := List.pairwise_cons.1 h
    rcases List.mem_cons.1 hm with rfl | hm
    · exact if_pos rfl
    · exact (if_neg (hj _ hm).ne).trans (ih hl hm)

/-- The context with number `a` is now `c`. -/
def changed (a : Nat) (c : Ctx) (e : Nat × Ctx) : Nat × Ctx := if e.1 = a then (a, c) else e

theorem State.liveCtxs_changed {c' : Ctx} (hs : s.ctxs.Pairwise fun x y => x.1 < y.1) (hc : s.ctx a = some c)
    (ht : t.ctxs = Table.put a (some c') s.ctxs) (hl : c.state ≠ .tearingDown) (hl' : c'.state ≠ .tearingDown) :
    t.liveCtxs = s.liveCtxs.map (changed a c') := by
  have stands : ∃ e ∈ s.ctxs, e.1 = a := by
    rcases val_mem none a s.ctxs with hv | hv
    · exact absurd (hc.symm.trans hv) (by simp)
    · exact ⟨_, hv, rfl⟩
  rw [State.liveCtxs, ht, put_eq_map hs stands, State.liveCtxs, List.filterMap_map, List.map_filterMap]
  refine List.filterMap_congr fun e he => ?_
  obtain ⟨j, x⟩ := e
  by_cases hj : j = a
  · subst hj
    obtain rfl : some c = x := hc.symm.trans (val_of_mem_rising none hs he)
    simp [changed, hl, hl', Option.filter]
  · cases x with
    | none => simp [hj]
    | some d =>
      by_cases hd : d.state = .tearingDown <;> simp [changed, hj, hd, Option.filter]

theorem tileGroup_changed {c' : Ctx} (cs : List (Nat × Ctx)) (hr : ∀ e ∈ cs, e.1 = a → e.2.record = c'.record) (n : Nat)
    (ts : BitVec 96) : tileGroup (cs.map (changed a c')) n ts = (tileGroup cs n ts).map (changed a c') := by
  have same : ∀ e ∈ cs, (changed a c' e).2.record = e.2.record := fun e he => by
    unfold changed
    split
    · next h => exact (hr e he h).symm
    · rfl
  have near : ∀ ts : BitVec 96, (cs.map (changed a c')).filter (fun e => e.2.record.slice != 0 && e.2.record.tiles &&& ts != 0) =
      (cs.filter fun e => e.2.record.slice != 0 && e.2.record.tiles &&& ts != 0).map (changed a c') := fun ts => by
    rw [List.filter_map]
    refine congrArg _ (List.filter_congr fun e he => ?_)
    rw [Function.comp_apply, same e he]
  induction n generalizing ts with
  | zero => exact near ts
  | succ n ih =>
    rw [tileGroup, tileGroup, near, ih, List.foldl_map]
    exact congrArg _ (congrArg _ (List.foldl_ext _ _ _ fun t e he => by rw [same e (List.mem_filter.1 he).1]))

/-- With every other member of the tile group inactive, and `a` on its way out, none is active. -/
theorem State.groupOf_calm {c' d : Ctx} (hs : s.ctxs.Pairwise fun x y => x.1 < y.1) (hc : s.ctx a = some c)
    (ht : t.ctxs = Table.put a (some c') s.ctxs) (hl : c.state ≠ .tearingDown) (hr : c'.record = c.record)
    (ho : c'.state = .swappingOut) (hg : ∀ e ∈ s.groupOf d, e.1 ≠ a → e.2.active = false) :
    (t.groupOf d).any (·.2.active) = false := by
  have live := State.liveCtxs_changed hs hc ht hl (by rw [ho]; decide)
  have record : ∀ e ∈ s.liveCtxs, e.1 = a → e.2.record = c'.record := by
    rintro ⟨j, x⟩ he rfl
    obtain ⟨⟨k, y⟩, hm, hy⟩ := List.mem_filterMap.1 he
    obtain ⟨z, hz, hzx⟩ := Option.map_eq_some_iff.1 hy
    cases hzx
    obtain rfl : y = some x := (Option.filter_eq_some_iff.1 hz).1
    have := hc.symm.trans (val_of_mem_rising none hs hm)
    cases this
    exact hr.symm
  rw [State.groupOf, live, List.length_map, tileGroup_changed _ record, List.any_eq_false]
  intro e he
  obtain ⟨f, hf, rfl⟩ := List.mem_map.1 he
  unfold changed
  split
  · simp [Ctx.active, ho]
  · next h => simp [hg f hf h]

/-! ## A slice that ends, and a halt that is complete -/

theorem exec_sliceExpires (hc : s.ctx a = some c) (hr : c.state = .resident) (hs : c.record.slice ≠ 0)
    (hg : c.record.slice * 1800 ≤ c.sliceUsed + (s.clock.toNat - c.sliceFrom.toNat)) :
    ∃ t c', exec (.sliceExpires a) s = .next t ∧ t.ctx a = some c' ∧ c'.state = .halting ∧ c'.sliceUsed = 0 ∧
      c'.record = c.record ∧ t.mem = s.mem := by
  have past : usCycles c.record.slice ≤ s.sliceGone c := hg
  have due : s.sliceDue c = true := by simp [State.sliceDue, hr, hs, past]
  obtain ⟨halted, mem⟩ := State.haltCtx_at (State.ctx_onCtx_some hc fun d => { d with
    sliceUsed := if usCycles d.record.slice ≤ s.sliceGone c then 0 else s.sliceGone c })
  refine ⟨_, _, ?_, halted, rfl, if_pos past, rfl, mem.trans (State.onCtx_mem ..)⟩
  refine congrArg Host.Outcome.next ?_
  split
  · next h => cases hc.symm.trans h
  · next h =>
    cases hc.symm.trans h
    have goes : ¬(!s.sliceDue c) = true := by simp [due]
    exact if_neg goes

/-- The context is on its way out, its tiles saved. -/
def State.staged (s : State) (a : Nat) (c : Ctx) : State :=
  (c.record.owned.foldl (fun s t => s.saveTile a t) s).onCtx a fun c => { c with state := .swappingOut }

/-- What follows: the next of the tile group is assigned, where no other member holds its tiles. -/
def State.giveTurn (s : State) (c : Ctx) (next : List Nat) : State :=
  if c.record.slice = 0 || (s.groupOf c).any (·.2.active) then s else next.head?.elim s s.assign

theorem State.giveTurn_at (s : State) (c : Ctx) (next : List Nat) (a : Nat) : s.AssignedAt (s.giveTurn c next) a := by
  unfold State.giveTurn
  split
  · exact .inl rfl
  · cases next with
    | nil => exact .inl rfl
    | cons b l => exact s.assign_at b a

theorem State.giveTurn_rest (s : State) (c : Ctx) (next : List Nat) :
    { s.giveTurn c next with ctxs := [] } = { s with ctxs := [] } := by
  unfold State.giveTurn
  split
  · rfl
  · cases next with
    | nil => rfl
    | cons b l => exact s.assign_rest b

theorem State.giveTurn_first (hs : c.record.slice ≠ 0) (hg : (s.groupOf c).any (·.2.active) = false) (b : Nat) (l : List Nat) :
    s.giveTurn c (b :: l) = s.assign b := if_neg (by simp [hs, hg])

theorem exec_haltComplete_eq (hc : s.ctx a = some c) (hh : c.state = .halting) (ha : s.allHalted c = true)
    (hp : ∀ e ∈ s.groups, ∀ g, e.2 = some g → g.preempt = false) :
    exec (.haltComplete a) s = .next ((s.staged a c).giveTurn c (s.outOfTurn c ++ turnOrder a (s.groupOf c))) := by
  have unsaved : (s.groups.map (·.1)).foldl (fun s g => s.savePreempted g) s = s := foldl_id (State.savePreempted_none hp) _
  refine congrArg Host.Outcome.next ?_
  split
  · next h => cases hc.symm.trans h
  · next h =>
    cases hc.symm.trans h
    rw [if_neg (by simp [hh, ha]), unsaved]
    dsimp only
    cases s.outOfTurn c ++ turnOrder a (s.groupOf c) with
    | nil => rfl
    | cons b l => rfl

/-- The context whose halt is complete is on its way out, and its tiles stand in its image. -/
theorem exec_haltComplete (hc : s.ctx a = some c) (hh : c.state = .halting) (ha : s.allHalted c = true)
    (hp : ∀ e ∈ s.groups, ∀ g, e.2 = some g → g.preempt = false) :
    ∃ t c', exec (.haltComplete a) s = .next t ∧ t.ctx a = some c' ∧ c'.state = .swappingOut ∧
      (c.record.slice ≠ 0 → s.ctxs.Pairwise (fun x y => x.1 < y.1) → (∀ e ∈ s.groupOf c, e.1 ≠ a → e.2.active = false) →
        ∀ b l d, s.outOfTurn c ++ turnOrder a (s.groupOf c) = b :: l → s.ctx b = some d → d.state = .idle →
          ∃ d', t.ctx b = some d' ∧ d'.state = .swappingIn) ∧ ∀ k, k < 96 → c.record.tiles.getLsbD k = true →
        (t.tile k).owner = none ∧ (t.tile k).lastOwner = some a ∧
          ∃ i, Table.val none k (c'.images.map fun e => (e.1, some e.2)) = some i ∧ i.tile = s.tile k := by
  obtain ⟨images, saved⟩ := State.saved_foldl c.record.owned_nodup hc
  have ctxs : (s.staged a c).ctxs = Table.put a (some { c with images, state := .swappingOut }) s.ctxs := by
    rw [← saved.ctxs, State.staged, State.onCtx, saved.ctx]
    rfl
  have here : (s.staged a c).ctx a = some { c with images, state := .swappingOut } := State.ctx_onCtx_some saved.ctx _
  have out (next : List Nat) : ((s.staged a c).giveTurn c next).ctx a = some { c with images, state := .swappingOut } := by
    rcases (s.staged a c).giveTurn_at c next a with h | ⟨d, hd, hi, -⟩
    · exact h.trans here
    · cases here.symm.trans hd
      cases hi
  refine ⟨_, _, exec_haltComplete_eq hc hh ha hp, out _, rfl, fun hs hr hg b l d hn hb hd => ?_, fun k hk hr => ?_⟩
  · have calm := State.groupOf_calm (d := c) hr hc ctxs (by rw [hh]; decide) rfl rfl hg
    have other : b ≠ a := by
      rintro rfl
      cases hc.symm.trans hb
      cases hh.symm.trans hd
    have still : (s.staged a c).ctx b = some d := by
      rw [State.ctx, ctxs, val_put_other _ _ _ _ _ other]
      exact hb
    rw [hn, State.giveTurn_first hs calm]
    exact ⟨_, State.assign_idle still hd, rfl⟩
  · have mine := CtxRec.mem_owned.2 ⟨hk, hr⟩
    have tile (next : List Nat) : ((s.staged a c).giveTurn c next).tile k = { lastOwner := some a } := by
      have same : ((s.staged a c).giveTurn c next).tile k = (s.staged a c).tile k :=
        congrArg (·.tile k) ((s.staged a c).giveTurn_rest c next)
      rw [same, State.staged, State.onCtx_tile, saved.tile, if_pos mine]
    rw [tile]
    exact ⟨rfl, rfl, saved.image k mine⟩

/-! ## A swap-in -/

theorem State.restoreTile_ctxs (s : State) (a n : Nat) (i : Image) : (s.restoreTile a n i).ctxs = s.ctxs := rfl

theorem State.restoreTile_owner (s : State) (a n k : Nat) (i : Image) :
    ((s.restoreTile a n i).tile k).owner = if k = n then some a else (s.tile k).owner := by
  unfold State.restoreTile
  rw [State.tile_onTile_eq]
  split
  · rfl
  · rfl

theorem State.assignTile_ctxs (s : State) (a n : Nat) (r : CtxRec) : (s.assignTile a r n).ctxs = s.ctxs := by
  unfold State.assignTile
  extract_lets s1 s2 s3
  have h1 : s1.ctxs = s.ctxs := by
    unfold s1
    split <;> rfl
  have h3 : s3.ctxs = s.ctxs := by
    refine (foldl_same State.ctxs _ ?_ _ _).trans h1
    exact fun _ _ => rfl
  refine (foldl_same State.ctxs _ ?_ _ _).trans h3
  exact fun _ _ => rfl

theorem State.assignTile_owner (s : State) (a n k : Nat) (r : CtxRec) :
    ((s.assignTile a r n).tile k).owner = if k = n then some a else (s.tile k).owner := by
  unfold State.assignTile
  extract_lets s1 s2 s3
  have h1 : k ≠ n → s1.tile k = s.tile k := fun hk => by
    unfold s1
    split
    · rfl
    · exact val_put_other _ _ _ _ _ hk
  have h2 : (s2.tile k).owner = if k = n then some a else (s.tile k).owner := by
    rw [State.tile_onTile_eq]
    split
    · rfl
    · next hk => rw [h1 hk]
  have h3 : s3.tiles = s2.tiles := by
    refine foldl_same State.tiles _ ?_ _ _
    exact fun _ _ => rfl
  have h4 : (((List.range 8).map (· + 8 * n)).foldl (fun s c => s.onCore c fun x => { x with restart := some s.clock }) s3).tiles =
      s2.tiles := by
    refine (foldl_same State.tiles _ ?_ _ _).trans h3
    exact fun _ _ => rfl
  rw [State.tile, h4]
  exact h2

/-- One tile lands. -/
def State.landTile (s : State) (a : Nat) (c : Ctx) (t : Nat) : State :=
  if c.assigned then s.restoreTile a t (Table.val { slots := [], cores := [], tile := {}, mem := [], feEmpty := [] } t c.images)
  else s.assignTile a c.record t

theorem State.landTile_ctxs (s : State) (a n : Nat) (c : Ctx) : (s.landTile a c n).ctxs = s.ctxs := by
  unfold State.landTile
  split
  · exact s.restoreTile_ctxs ..
  · exact s.assignTile_ctxs ..

theorem State.landTile_owner (s : State) (a n k : Nat) (c : Ctx) :
    ((s.landTile a c n).tile k).owner = if k = n then some a else (s.tile k).owner := by
  unfold State.landTile
  split
  · exact s.restoreTile_owner ..
  · exact s.assignTile_owner ..

theorem State.landTiles_ctxs (s : State) (a : Nat) (c : Ctx) : (s.landTiles a c).ctxs = s.ctxs :=
  foldl_same State.ctxs _ (fun s n => s.landTile_ctxs a n c) _ s

theorem State.landTiles_owner (s : State) (a : Nat) (c : Ctx) {k : Nat} (hk : k ∈ c.record.owned) :
    ((s.landTiles a c).tile k).owner = some a := by
  have lands : ∀ (ts : List Nat) (s : State), k ∈ ts ∨ (s.tile k).owner = some a →
      ((ts.foldl (fun s t => s.landTile a c t) s).tile k).owner = some a := fun ts => by
    induction ts with
    | nil => exact fun s h => h.resolve_left nofun
    | cons n ts ih =>
      refine fun s h => ih _ ?_
      rw [State.landTile_owner]
      by_cases hn : k = n
      · exact .inr (if_pos hn)
      · rw [if_neg hn]
        exact h.imp_left fun h => (List.mem_cons.1 h).resolve_left hn
  exact lands _ s (.inl hk)

theorem State.haveRead_holders (s : State) (ps : List Piece) : (s.haveRead ps).holders = s.holders := by
  refine (foldl_same State.holders (fun (s : State) (p : Piece) => s.ask (.read p.pa p.len)) (fun s p => ?_) _ _).trans ?_
  · unfold State.ask
    dsimp only
    split
    · rfl
    · rfl
  · unfold State.settle
    split
    · rfl
    · rfl

theorem State.fillPage_holders {u : State} {who : Asker} {n tag : Nat} (h : s.fillPage who n tag = .ok u) : u.holders = s.holders := by
  unfold State.fillPage at h
  extract_lets core va asid at h
  split at h
  · cases h
  · dsimp only at h
    split at h
    · cases h
      refine (State.onTile_holders _ _ ?_).trans (s.haveRead_holders _)
      exact fun _ => rfl
    · cases h
      refine (State.onTile_holders _ _ ?_).trans (((State.Places.refl _).pick _).holders.trans (s.haveRead_holders _))
      exact fun _ => rfl

theorem State.refill_holders (s : State) (n : Nat) (p : LoftPage) : (s.refill n p).holders = s.holders := by
  unfold State.refill
  split
  · rfl
  · next h =>
    refine (State.onTile_holders _ _ ?_).trans (State.fillPage_holders h)
    exact fun _ => rfl

theorem State.refillAll_holders (s : State) (c : Ctx) : (s.refillAll c).holders = s.holders := by
  refine foldl_same State.holders _ (fun s i => ?_) _ s
  exact foldl_same State.holders _ (fun s p => s.refill_holders i.1 p) _ s

/-- The context is Resident, its images gone. -/
def Ctx.landed (c : Ctx) (now : Word) : Ctx :=
  { c.onSpaces Space.restore with state := .resident, assigned := true, images := [], sliceFrom := now }

/-- The tiles stand, their lofts are filled again, and the crooks have gone on. -/
def State.stood (s : State) (a : Nat) (c : Ctx) : State :=
  if c.assigned then c.record.owned.foldl (fun s t => s.grant t) ((s.landTiles a c).refillAll c) else s.landTiles a c

/-- The context is Resident and holds its tiles; placement or a marked halt comes after. -/
def State.landed (s : State) (a : Nat) (c : Ctx) : State :=
  ((s.stood a c).onCtx a fun d => d.landed (s.stood a c).clock).forgetLofts c.record.owned

theorem State.swapIn_eq (s : State) (a : Nat) (h : c.doomed = false) : s.swapIn a c =
    if c.haltAfter then ((s.landed a c).onCtx a fun d => { d with haltAfter := false }).haltCtx a
    else (List.range Config.dies).foldl (fun s d => s.placePass d) (s.landed a c) := by
  rw [State.swapIn, h]
  exact if_neg Bool.false_ne_true

theorem State.stood_holders (s : State) (a : Nat) (c : Ctx) : (s.stood a c).holders = (s.landTiles a c).holders := by
  unfold State.stood
  split
  · have granted := State.Places.foldl (State.Places.refl ((s.landTiles a c).refillAll c)) (f := fun s t => s.grant t)
      (fun _ hu n => hu.grant n) c.record.owned
    exact granted.holders.trans (State.refillAll_holders ..)
  · rfl

theorem State.landed_ctx (hc : s.ctx a = some c) : (s.landed a c).ctx a = some (c.landed (s.stood a c).clock) := by
  have stood : (s.stood a c).ctx a = some c := by
    rw [State.holders_ctx (s.stood_holders a c), State.ctx, State.landTiles_ctxs]
    exact hc
  exact State.ctx_onCtx_some stood _

theorem State.landed_owner (s : State) (a : Nat) {k : Nat} (hk : k ∈ c.record.owned) : ((s.landed a c).tile k).owner = some a := by
  have stood := (State.holders_owner (s.stood_holders a c) k).trans (s.landTiles_owner a c hk)
  exact (congrArg Tile.owner (State.onCtx_tile ..)).trans stood

/-- A swap-in whose tiles are free, and whose lofts await nothing, takes place. -/
theorem exec_swapComplete_in (hc : s.ctx a = some c) (hs : c.state = .swappingIn) (hd : c.doomed = false)
    (hw : (s.landTiles a c).refillWaits c = [])
    (hf : ∀ k, k < 96 → c.record.tiles.getLsbD k = true → (s.tile k).owner = none) :
    exec (.swapComplete a) s = .next (s.swapIn a c) := by
  have free : c.record.owned.any (fun t => (s.tile t).owner.isSome) = false := by
    rw [List.any_eq_false]
    intro k hk
    obtain ⟨hk, hr⟩ := CtxRec.mem_owned.1 hk
    simp [hf k hk hr]
  have run : exec (.swapComplete a) s = execSwapComplete a s := rfl
  rw [run]
  simp only [execSwapComplete, hc, hs, free, hd, hw, Bool.false_eq_true, if_false]

theorem exec_swapComplete_resident (hc : s.ctx a = some c) (hs : c.state = .swappingIn) (hd : c.doomed = false)
    (hh : c.haltAfter = false) (hw : (s.landTiles a c).refillWaits c = [])
    (hf : ∀ k, k < 96 → c.record.tiles.getLsbD k = true → (s.tile k).owner = none) :
    ∃ t c', exec (.swapComplete a) s = .next t ∧ t.ctx a = some c' ∧ c'.state = .resident ∧ c'.images = [] ∧
      c'.assigned = true ∧ ∀ k, k < 96 → c.record.tiles.getLsbD k = true → (t.tile k).owner = some a := by
  have placed := State.Places.foldl (State.Places.refl (s.landed a c)) (f := fun s d => s.placePass d)
    (fun _ hu d => hu.placePass d) (List.range Config.dies)
  refine ⟨_, c.landed (s.stood a c).clock, (exec_swapComplete_in hc hs hd hw hf).trans (congrArg _ ?_),
    (placed.ctx a).trans (State.landed_ctx hc), rfl, rfl, rfl,
    fun k hk hr => (placed.owner k).trans (s.landed_owner a (CtxRec.mem_owned.2 ⟨hk, hr⟩))⟩
  rw [State.swapIn_eq s a hd, hh]
  exact if_neg Bool.false_ne_true

theorem exec_swapComplete_halts (hc : s.ctx a = some c) (hs : c.state = .swappingIn) (hd : c.doomed = false)
    (hh : c.haltAfter = true) (hw : (s.landTiles a c).refillWaits c = [])
    (hf : ∀ k, k < 96 → c.record.tiles.getLsbD k = true → (s.tile k).owner = none) :
    ∃ t c', exec (.swapComplete a) s = .next t ∧ t.ctx a = some c' ∧ c'.state = .halting := by
  obtain ⟨halted, -⟩ := State.haltCtx_at (State.ctx_onCtx_some (State.landed_ctx hc) fun d => { d with haltAfter := false })
  refine ⟨_, _, (exec_swapComplete_in hc hs hd hw hf).trans (congrArg _ ?_), halted, rfl⟩
  rw [State.swapIn_eq s a hd, hh]
  exact if_pos rfl

/-! ## The end of a swap-out, and the supervisor's halt request -/

theorem exec_swapComplete_out (hc : s.ctx a = some c) (hs : c.state = .swappingOut) (hd : c.doomed = false) :
    ∃ t c', exec (.swapComplete a) s = .next t ∧ t.ctx a = some c' ∧ (c'.state = .idle ∨ c'.state = .swappingIn) ∧
      t.mem = s.mem := by
  set u := s.onCtx a fun c => { c with state := .idle }
  have idle : u.ctx a = some { c with state := .idle } := State.ctx_onCtx_some hc _
  have run : exec (.swapComplete a) s = .next (u.assignIdle a) := by
    have step : exec (.swapComplete a) s = execSwapComplete a s := rfl
    rw [step]
    simp only [execSwapComplete, hc, hs, hd, Bool.false_eq_true, if_false]
    rfl
  have mem : (u.assignIdle a).mem = s.mem := (congrArg State.mem (u.assignIdle_rest a)).trans (State.onCtx_mem ..)
  rcases u.assignIdle_at a a with h | ⟨d, -, -, h⟩
  · exact ⟨_, _, run, h.trans idle, .inl rfl, mem⟩
  · exact ⟨_, _, run, h, .inr rfl, mem⟩

theorem execEnv_haltContext_resident (hc : s.ctx a = some c) (hs : c.state = .resident) :
    ∃ t c', execEnv (.haltContext a) s = .next t ∧ t.ctx a = some c' ∧ c'.state = .halting ∧ t.mem = s.mem := by
  obtain ⟨halted, mem⟩ := State.haltCtx_at (State.ctx_onCtx_some hc fun c => { c with stopped := c.record.slice == 0 })
  refine ⟨_, _, congrArg Host.Outcome.next ?_, halted, rfl, mem.trans (State.onCtx_mem ..)⟩
  simp only [State.haltRequest, hc, hs]

theorem execEnv_haltContext_swappingIn (hc : s.ctx a = some c) (hs : c.state = .swappingIn) :
    ∃ t c', execEnv (.haltContext a) s = .next t ∧ t.ctx a = some c' ∧ c'.state = .swappingIn ∧ c'.haltAfter = true := by
  have marked := State.ctx_onCtx_some hc fun c => { c with stopped := c.record.slice == 0, haltAfter := true }
  refine ⟨_, _, congrArg Host.Outcome.next ?_, marked, hs, rfl⟩
  simp only [State.haltRequest, hc, hs]

end Sys2Proof.Machine

open Sys2Proof Sys2Proof.Machine

/-- Settles O54: each step of a swap writes the contexts and their tiles in its own way; placement, the crooks and the order of turns
leave both as they are. -/
theorem contextsAreSliced : Obligations.ContextsAreSliced := fun _ _ _ hc =>
  ⟨exec_sliceExpires hc, exec_haltComplete hc, exec_swapComplete_resident hc, exec_swapComplete_halts hc,
    execEnv_haltContext_resident hc, execEnv_haltContext_swappingIn hc, exec_swapComplete_out hc⟩

end

section
/-! SUPPORT. What a trap of one slot leaves to the others, a voter's mismatch and an agreement (R272, R273 and R276 of spec/17, R343 of
spec/23). -/

namespace Sys2Proof.Machine

open Sys2Proof

variable {s t : State} {n : Nat} {x : Slot}

/-! ## Finding a thread's slot after another slot was written -/

/-- A value that does not match takes the place of one that does not: the search finds what it found. -/
theorem find?_put {α : Type} {p : α → Bool} {d v : α} {k : Nat} (l : Table α) (hold : p (Table.val d k l) = false)
    (hnew : p v = false) :
    ((Table.put k v l).find? fun e => p e.2) = l.find? fun e => p e.2 := by
  induction l with
  | nil => simp [Table.put, hnew]
  | cons e l ih =>
    obtain ⟨j, w⟩ := e
    rw [Table.put]
    split
    · rw [List.find?_cons, hnew]
    · split
      · next hj =>
        have hw : p w = false := by rwa [Table.val, if_pos hj] at hold
        simp only [List.find?_cons, hnew, hw]
      · next hj =>
        rw [Table.val, if_neg hj] at hold
        rw [List.find?_cons, List.find?_cons, ih hold]

/-- The slot stands for the thread. -/
def Slot.isThread (tid : Nat) (x : Slot) : Bool := x.tid = tid && x.status != .free

theorem Slot.isThread_other {tid : Nat} (h : x.tid ≠ tid) : x.isThread tid = false := by simp [Slot.isThread, h]

theorem Slot.isThread_iff {tid : Nat} {x : Slot} : x.isThread tid = true ↔ x.tid = tid ∧ x.status ≠ .free := by
  simp [Slot.isThread]

theorem State.slotOfTid_eq (s : State) (tid : Nat) : s.slotOfTid tid = (s.slots.find? fun e => e.2.isThread tid).map (·.1) := rfl

theorem State.slotOfTid_setSlot {tid : Nat} (hold : (s.slot n).tid ≠ tid) (hnew : x.tid ≠ tid) :
    (s.setSlot n x).slotOfTid tid = s.slotOfTid tid :=
  congrArg (Option.map Prod.fst) (find?_put s.slots (Slot.isThread_other hold) (Slot.isThread_other hnew))

/-- An update of a thread that keeps its number and stays on its slot. -/
theorem State.slotOfTid_onTid (s : State) (u tid : Nat) {f : Slot → Slot}
    (hf : ∀ x, (f x).tid = x.tid ∧ ((f x).status = .free ↔ x.status = .free)) : (s.onTid u f).slotOfTid tid = s.slotOfTid tid := by
  have same (e : Nat × Slot) : (if e.2.tid = u && e.2.status != .free then f e.2 else e.2).isThread tid = e.2.isThread tid := by
    split
    · rw [Slot.isThread, Slot.isThread, (hf e.2).1]
      congr 1
      rw [Bool.eq_iff_iff]
      simp [(hf e.2).2]
    · rfl
  rw [State.slotOfTid_eq, State.slotOfTid_eq, State.onTid, onTidIn, List.find?_map, Option.map_map]
  exact congrArg (fun p => (s.slots.find? p).map Prod.fst) (funext same)

/-! ## What a trap entry of one slot leaves to the others -/

/-- What a trap entry reads or keeps of its slot. -/
def Slot.atTrap (x : Slot) : Nat × SupTrap × CtxTrap × Replica := (x.tid, x.sup, x.trap, { x.rep with ckpt := none })

/-- `t` differs from `s` in slot `n` and in its core, and slot `n` has kept what a trap entry reads. -/
structure State.Yields (s t : State) (n : Nat) : Prop where
  mine : (t.slot n).atTrap = (s.slot n).atTrap
  other : ∀ k, k ≠ n → t.slot k = s.slot k
  found : ∀ tid, tid ≠ (s.slot n).tid → t.slotOfTid tid = s.slotOfTid tid
  mem : t.mem = s.mem

theorem State.Yields.refl (s : State) (n : Nat) : s.Yields s n := ⟨rfl, fun _ _ => rfl, fun _ _ => rfl, rfl⟩

theorem State.Yields.tid (h : s.Yields t n) : (t.slot n).tid = (s.slot n).tid := congrArg (·.1) h.mine

theorem State.Yields.onSlot (h : s.Yields t n) {f : Slot → Slot} (hf : ∀ x, (f x).atTrap = x.atTrap) :
    s.Yields (t.onSlot n f) n := by
  refine ⟨?_, fun k hk => ?_, fun tid ht => ?_, h.mem⟩
  · rw [State.slot_onSlot, hf, h.mine]
  · rw [State.slot_onSlot_other _ _ _ _ hk, h.other k hk]
  · have kept : (f (t.slot n)).tid = (t.slot n).tid := congrArg (·.1) (hf _)
    rw [State.onSlot, State.slotOfTid_setSlot (h.tid ▸ ht.symm) (kept ▸ h.tid ▸ ht.symm), h.found tid ht]

theorem State.Yields.onCore (h : s.Yields t n) (c : Nat) (f : Core → Core) : s.Yields (t.onCore c f) n :=
  ⟨h.mine, h.other, h.found, h.mem⟩

theorem State.Yields.giveOne (h : s.Yields t n) (e : Src × Word) : s.Yields (t.giveOne n e) n := by
  unfold State.giveOne
  split
  · split
    · exact h.onSlot fun _ => rfl
    · exact h
  · exact h.onCore _ _
  · exact h.onCore _ _

theorem State.Yields.giveBack (h : s.Yields t n) : s.Yields (t.giveBack n) n := by
  unfold State.giveBack
  dsimp only
  split
  · split
    · refine State.Yields.onSlot ?_ fun _ => rfl
      exact List.foldlRecOn (motive := fun u => s.Yields u n) _ _ h fun u hu e _ => hu.giveOne e
    · exact h
  · exact h

theorem Slot.atTrap_checkpointHere (x : Slot) : x.checkpointHere.atTrap = x.atTrap := by
  unfold Slot.checkpointHere
  split <;> rfl

theorem Slot.enter_keeps {y : Slot} {svec : Word} {code : Nat} {tpc taddr : Word} {async : Bool}
    (e : x.enter svec code tpc taddr async = some y) : y.tid = x.tid ∧ y.rep = x.rep.unvote := by
  have hk : (x.keep (async && x.park.voted)).tid = x.tid := by
    unfold Slot.keep
    split <;> rfl
  unfold Slot.enter at e
  split at e
  · cases e
  · dsimp only at e
    split at e <;> cases e <;> exact ⟨hk, rfl⟩

/-- Slot `n` has taken the trap in its context's handler; the other slots stand as they were. -/
structure State.Trapped (s t : State) (n code : Nat) (tpc taddr : Word) : Prop where
  pc : (t.slot n).pc = (s.slot n).trap.tvec
  trap : (t.slot n).trap = { (s.slot n).trap with
    tcause := BitVec.ofNat 10 code, tpc := tpc, taddr := taddr, async := false, inh := true }
  tid : (t.slot n).tid = (s.slot n).tid
  rep : { (t.slot n).rep with ckpt := none } = { (s.slot n).rep with ckpt := none }
  other : ∀ k, k ≠ n → t.slot k = s.slot k
  found : ∀ tid, tid ≠ (s.slot n).tid → t.slotOfTid tid = s.slotOfTid tid
  mem : t.mem = s.mem

theorem State.trapped_trapTo (hs : (s.slot n).sup.sinh = false) {code : Nat} (hc : Stmt.toContext (s.slot n) code)
    (hv : (s.slot n).rep.vote = none) (taddr : Word) : s.Trapped (s.trapTo n code taddr) n code (s.slot n).pc taddr := by
  set u := (s.giveBack n).onSlot n Slot.checkpointHere
  have yields : s.Yields u n := (State.Yields.refl s n).giveBack.onSlot Slot.atTrap_checkpointHere
  obtain ⟨hsup, htrap, hrep⟩ : (u.slot n).sup = (s.slot n).sup ∧ (u.slot n).trap = (s.slot n).trap ∧
      { (u.slot n).rep with ckpt := none } = { (s.slot n).rep with ckpt := none } :=
    ⟨congrArg (·.2.1) yields.mine, congrArg (·.2.2.1) yields.mine, congrArg (·.2.2.2) yields.mine⟩
  obtain ⟨y, e, hy, -⟩ := Slot.enter_user (hsup ▸ hs) u.svec code (s.slot n).pc taddr false
  obtain ⟨hpc, -, ht⟩ := hy (by rwa [Stmt.toContext, hsup, htrap])
  obtain ⟨htid, hunvote⟩ := Slot.enter_keeps e
  have same : (u.slot n).rep.unvote = (u.slot n).rep := by
    have none : (u.slot n).rep.vote = none := (congrArg (·.vote) hrep).trans hv
    simp only [Replica.unvote, none]
  have run : s.trapTo n code taddr = u.setSlot n y := by
    simp only [State.trapTo, State.trapSlot, u, e]
  rw [run]
  refine ⟨?_, ?_, ?_, ?_, fun k hk => ?_, fun tid hne => ?_, yields.mem⟩
  · rw [State.slot_setSlot, hpc, htrap]
  · rw [State.slot_setSlot, ht, htrap]
  · rw [State.slot_setSlot, htid, yields.tid]
  · rw [State.slot_setSlot, hunvote, same, hrep]
  · rw [State.slot_setSlot_other _ _ _ _ hk, yields.other k hk]
  · rw [State.slotOfTid_setSlot (yields.tid ▸ hne.symm) (htid ▸ yields.tid ▸ hne.symm), yields.found tid hne]

/-! ## A mismatch -/

/-- The voter in slot `n`, which stood there as `x`, has taken 0x2C1 with its earmark, and what it held is discarded. -/
structure State.Refused (s t : State) (n : Nat) (x : Slot) : Prop where
  pc : (t.slot n).pc = x.trap.tvec
  trap : (t.slot n).trap = { x.trap with tcause := 0x2C1, tpc := x.pc, taddr := x.rep.earmark, async := false, inh := true }
  tid : (t.slot n).tid = x.tid
  held : (t.slot n).rep.held = []
  earmark : (t.slot n).rep.earmark = 0
  vote : (t.slot n).rep.vote = none
  other : ∀ k, k ≠ n → (s.slot k).tid ≠ x.tid → t.slot k = s.slot k
  found : ∀ tid, tid ≠ x.tid → t.slotOfTid tid = s.slotOfTid tid
  mem : t.mem = s.mem

/-- A voter whose held stores are discarded. -/
def Slot.discarded (x : Slot) : Slot :=
  { x with rep := { x.rep with earmark := 0, held := [], spill := [], vote := none, waited := 0 } }

theorem State.refused_mismatch (hx : s.slot n = x) (hl : x.status ≠ .free) (hf : s.slotOfTid x.tid = some n)
    (hs : x.sup.sinh = false) (hc : Stmt.toContext x 0x2C1) : s.Refused (s.mismatch x) n x := by
  set u := s.onTid x.tid Slot.discarded
  have here : u.slot n = x.discarded := slot_onTid_self hx hl _
  have found (tid : Nat) : u.slotOfTid tid = s.slotOfTid tid := s.slotOfTid_onTid _ _ fun _ => ⟨rfl, Iff.rfl⟩
  have run : s.mismatch x = u.trapTo n 0x2C1 x.rep.earmark := by
    change u.trapTid x.tid 0x2C1 x.rep.earmark = _
    simp only [State.trapTid, found, hf]
  have trapped : u.Trapped (u.trapTo n 0x2C1 x.rep.earmark) n 0x2C1 (u.slot n).pc x.rep.earmark :=
    State.trapped_trapTo (by rw [here]; exact hs) (by rw [here]; exact hc) (by rw [here]; rfl) _
  rw [run]
  obtain ⟨pc, trap, tid, rep, other, kept, mem⟩ := trapped
  rw [here] at pc trap tid rep kept
  refine ⟨pc, trap, tid, congrArg (·.held) rep, congrArg (·.earmark) rep, congrArg (·.vote) rep, fun k hk hne => ?_,
    fun tid hne => (kept tid hne).trans (found tid), mem⟩
  rw [other k hk, State.slot_onTid, if_neg (by simp [hne])]

/-! ## An agreement -/

theorem Slot.drain_none (h : x.rep.spill = []) : x.drain = x := by
  rw [Slot.drain, h]
  change ({ x with rep := { x.rep with spill := [] } } : Slot) = x
  rw [← h]

theorem State.commitAll_nil (s : State) (tids : List Nat) (supplies : Bool) : s.commitAll tids [] supplies = s := rfl

theorem State.commitOwn_none (ho : ∀ v, x.rep.vote = some v → v.own = []) (s : State) (tids : List Nat) (supplies : Bool) :
    s.commitOwn tids x supplies = s := by
  unfold State.commitOwn
  split
  · next v _ hv _ =>
    split
    · rfl
    · rw [ho v hv, State.commitAll_nil]
  · rfl

theorem Slot.releasesSys_none (ho : ∀ v, x.rep.vote = some v → v.own = []) : x.releasesSys = false := by
  unfold Slot.releasesSys
  cases h : x.rep.vote with
  | none => rfl
  | some v => simp [ho v h]

/-- Two voters that hold nothing: an agreement performs nothing, and each goes on. -/
theorem State.agreement_two {x y : Slot} (bell : Nat) (hx : x.rep.held = []) (hy : y.rep.held = [])
    (hox : ∀ v, x.rep.vote = some v → v.own = []) (hoy : ∀ v, y.rep.vote = some v → v.own = []) (s : State) :
    ∃ b, s.agreement bell [x, y] = (s.onTid x.tid (·.agreed b)).onTid y.tid (·.agreed b) := by
  refine ⟨if [x, y].any (·.rep.index == bell) then bell else (minBy id ([x, y].map (·.rep.index))).getD 0, ?_⟩
  have calm : [x, y].any Slot.releasesSys = false := by simp [Slot.releasesSys_none hox, Slot.releasesSys_none hoy]
  simp only [State.agreement, calm, Bool.false_eq_true, if_false, List.foldl_cons, List.foldl_nil, hx, hy, State.commitAll_nil,
    State.commitOwn_none hox, State.commitOwn_none hoy]

theorem Slot.hold_tid (x : Slot) (hs : List Held) : (x.hold hs).tid = x.tid := by
  unfold Slot.hold
  split <;> rfl

theorem Slot.drain_tid (x : Slot) : x.drain.tid = x.tid := by
  have held (hs : List (List Held)) (y : Slot) : (hs.foldl Slot.hold y).tid = y.tid := by
    induction hs generalizing y with
    | nil => rfl
    | cons h hs ih => rw [List.foldl_cons, ih, Slot.hold_tid]
  exact held _ _

theorem Slot.agreed_tid (x : Slot) (b : Nat) : (x.agreed b).tid = x.tid := by
  unfold Slot.agreed
  split
  · exact Slot.drain_tid _
  · rfl

/-- An agreed voter: its vote is counted, and it has a new earmark. -/
structure Slot.Counted (x y : Slot) : Prop where
  votes : y.rep.votes = x.rep.votes + 1
  last : y.rep.last = x.rep.earmark
  earmark : y.rep.earmark = 0
  vote : y.rep.vote = none

theorem Slot.agreed_explicit {v : VoteAt} (hv : x.rep.vote = some v) (hk : v.kind ≠ .buffer) (b : Nat) :
    x.Counted (x.agreed b) ∧ (x.agreed b).park.voted = true := by
  have agreed : x.agreed b = x.agreedOn b := by simp [Slot.agreed, hv, hk]
  rw [agreed]
  exact ⟨⟨rfl, rfl, rfl, rfl⟩, rfl⟩

theorem Slot.agreed_implicit {v : VoteAt} (hv : x.rep.vote = some v) (hk : v.kind = .buffer) (hs : x.rep.spill = []) (b : Nat) :
    x.Counted (x.agreed b) ∧ (x.status = .parked → (x.agreed b).status = .running) := by
  have agreed : x.agreed b = x.madeRoom := by simp [Slot.agreed, hv, hk]
  rw [agreed, Slot.madeRoom, Slot.drain_none (by exact hs)]
  exact ⟨⟨rfl, rfl, rfl, rfl⟩, fun h => by simp [h]⟩

end Sys2Proof.Machine

end

section
/-! PROOF. O43: a vote of two replicas that agree or differ, its timeout, and a third replica that is shorn (R273, R276 and R277 of
spec/17). -/

namespace Sys2Proof.Machine

open Sys2Proof

/-! ## The events -/

section

variable {asid launch index : Nat} {r : RepSet} {s : State} {xs : List Slot}

theorem exec_vote (hr : s.findSet asid launch index = some r) (ht : s.setThreads r = [xs]) (hv : s.votesIn r xs = true) :
    exec (.vote asid launch index) s = .next (s.decideVote r xs xs) := by
  have run : exec (.vote asid launch index) s = execVote asid launch index s := rfl
  have first : [xs].find? (s.votesIn r) = some xs := by simp [hv]
  rw [run]
  simp only [execVote, hr, ht, first]

theorem exec_voteTimeout (hr : s.findSet asid launch index = some r) (ht : s.setThreads r = [xs]) (hv : s.votesLate r xs = true) :
    exec (.voteTimeout asid launch index) s = .next (s.decideVote r xs (xs.filter (·.rep.vote.isSome))) := by
  have run : exec (.voteTimeout asid launch index) s = execVoteTimeout asid launch index s := rfl
  have first : [xs].find? (s.votesLate r) = some xs := by simp [hv]
  rw [run]
  simp only [execVoteTimeout, hr, ht, first]

theorem State.votesIn_all (hl : xs.length = r.liveCount) (hv : ∀ x ∈ xs, x.rep.vote.isSome = true)
    (hs : ∀ x ∈ xs, x.releasesSys = false) : s.votesIn r xs = true := by
  have calm : xs.any Slot.releasesSys = false := List.any_eq_false.2 fun x hx => by simp [hs x hx]
  have voted : xs.all (·.rep.vote.isSome) = true := List.all_eq_true.2 hv
  simp [State.votesIn, State.voteWaits, hl, voted, calm]

end

/-- An update of two threads' slots. -/
theorem State.slot_onTid_pair (s : State) {n m a b : Nat} {f : Slot → Slot} (hf : ∀ x, (f x).tid = x.tid) (hab : a ≠ b)
    (hn : (s.slot n).isThread a = true) (hm : (s.slot m).isThread b = true) :
    ((s.onTid a f).onTid b f).slot n = f (s.slot n) ∧ ((s.onTid a f).onTid b f).slot m = f (s.slot m) := by
  have tid_n := (Slot.isThread_iff.1 hn).1
  have tid_m := (Slot.isThread_iff.1 hm).1
  have one : (s.onTid a f).slot n = f (s.slot n) := (s.slot_onTid a f n).trans (if_pos hn)
  have still : (s.onTid a f).slot m = s.slot m := by
    rw [State.slot_onTid, if_neg (by simp [tid_m, hab.symm])]
  constructor
  · rw [State.slot_onTid, if_neg (by simp [one, hf, tid_n, hab]), one]
  · refine (State.slot_onTid ..).trans ((if_pos ?_).trans (congrArg f still))
    rw [still]
    exact hm

/-- A parked voter goes on as its kind of vote has it. -/
theorem Slot.agreed_goesOn {x : Slot} (hp : x.status = .parked) (hv : x.rep.vote.isSome = true)
    (hs : ∀ v, x.rep.vote = some v → v.kind = .buffer → x.rep.spill = []) (b : Nat) :
    x.Counted (x.agreed b) ∧ ∀ v, x.rep.vote = some v →
      (v.kind ≠ .buffer → (x.agreed b).park.voted = true) ∧ (v.kind = .buffer → (x.agreed b).status = .running) := by
  obtain ⟨v, hv⟩ := Option.isSome_iff_exists.1 hv
  by_cases hk : v.kind = .buffer
  · obtain ⟨counted, runs⟩ := Slot.agreed_implicit hv hk (hs v hv hk) b
    refine ⟨counted, fun w hw => ?_⟩
    cases hv.symm.trans hw
    exact ⟨fun h => absurd hk h, fun _ => runs hp⟩
  · obtain ⟨counted, voted⟩ := Slot.agreed_explicit hv hk b
    refine ⟨counted, fun w hw => ?_⟩
    cases hv.symm.trans hw
    exact ⟨fun _ => voted, fun h => absurd h hk⟩

/-! ## A dual set -/

section

variable {asid launch index n m : Nat} {r : RepSet} {x y : Slot} {s : State}

/-- Two replicas of one thread, at a vote in slots `n` and `m`. -/
structure State.Duo (s : State) (r : RepSet) (x y : Slot) (n m : Nat) : Prop where
  live : r.live = [true, true]
  first : x.rep.index = 0
  second : y.rep.index = 1
  x_slot : s.slot n = x
  y_slot : s.slot m = y
  x_tid : s.slotOfTid x.tid = some n
  y_tid : s.slotOfTid y.tid = some m
  differ : x.tid ≠ y.tid
  x_parked : x.status = .parked
  y_parked : y.status = .parked

variable (h : s.Duo r x y n m)

include h

theorem State.Duo.x_live : x.status ≠ .free := by rw [h.x_parked]; decide
theorem State.Duo.y_live : y.status ≠ .free := by rw [h.y_parked]; decide

theorem State.Duo.x_thread : (s.slot n).isThread x.tid = true := by simp [h.x_slot, Slot.isThread, h.x_live]
theorem State.Duo.y_thread : (s.slot m).isThread y.tid = true := by simp [h.y_slot, Slot.isThread, h.y_live]

theorem State.Duo.apart : n ≠ m := by
  rintro rfl
  exact h.differ (congrArg Slot.tid (h.x_slot.symm.trans h.y_slot))

theorem State.Duo.liveCount : r.liveCount = 2 := by rw [RepSet.liveCount, h.live]; rfl

/-- Both have voted: the vote is decided between them. -/
theorem State.Duo.decide_both : s.decideVote r [x, y] [x, y] =
    if x.agrees y then s.agreement r.bell [x, y] else (s.mismatch x).mismatch y := by
  simp [State.decideVote, h.live, h.first, h.second]

/-- Only the first has voted: it has lost the other. -/
theorem State.Duo.decide_first : s.decideVote r [x, y] [x] =
    (s.mismatch x).onTid y.tid fun z => { z with rep := { z.rep with mismatch := true } } := by
  simp [State.decideVote, h.live, h.first, h.differ]

theorem State.Duo.differing (hr : s.findSet asid launch index = some r) (ht : s.setThreads r = [[x, y]])
    (hvy : y.rep.vote.isSome = true) (hvx : x.rep.vote.isSome = true) (ha : x.agrees y = false)
    (hs : (x.releasesSys || y.releasesSys) = false) (hsx : x.sup.sinh = false) (hsy : y.sup.sinh = false)
    (hcx : Stmt.toContext x 0x2C1) (hcy : Stmt.toContext y 0x2C1) :
    ∃ t, exec (.vote asid launch index) s = .next t ∧ t.mem = s.mem ∧ ∀ z k, (z, k) ∈ [(x, n), (y, m)] →
      (t.slot k).pc = z.trap.tvec ∧ (t.slot k).rep.held = [] ∧ (t.slot k).rep.earmark = 0 ∧ (t.slot k).rep.vote = none ∧
      (t.slot k).trap = { z.trap with tcause := 0x2C1, tpc := z.pc, taddr := z.rep.earmark, async := false, inh := true } := by
  obtain ⟨hrx, hry⟩ := Bool.or_eq_false_iff.1 hs
  have votes : s.votesIn r [x, y] = true := State.votesIn_all h.liveCount.symm (by simp [hvx, hvy]) (by simp [hrx, hry])
  have one := State.refused_mismatch h.x_slot h.x_live h.x_tid hsx hcx
  have here : (s.mismatch x).slot m = y := by
    rw [one.other m h.apart.symm (h.y_slot ▸ h.differ.symm), h.y_slot]
  have two := State.refused_mismatch here h.y_live ((one.found _ h.differ.symm).trans h.y_tid) hsy hcy
  have kept : ((s.mismatch x).mismatch y).slot n = (s.mismatch x).slot n := two.other n h.apart (one.tid ▸ h.differ)
  refine ⟨_, exec_vote hr ht votes, ?_, fun z k hz => ?_⟩
  · rw [h.decide_both, if_neg (by simp [ha]), two.mem, one.mem]
  · rw [h.decide_both, if_neg (by simp [ha])]
    rcases List.mem_cons.1 hz with hz | hz
    · cases hz
      rw [kept]
      exact ⟨one.pc, one.held, one.earmark, one.vote, one.trap⟩
    · cases List.mem_singleton.1 hz
      exact ⟨two.pc, two.held, two.earmark, two.vote, two.trap⟩

theorem State.Duo.agreeing (hr : s.findSet asid launch index = some r) (ht : s.setThreads r = [[x, y]])
    (hbx : x.rep.buffer = []) (hby : y.rep.buffer = []) (hvx : x.rep.vote.isSome = true) (hvy : y.rep.vote.isSome = true)
    (ho : ∀ v, x.rep.vote = some v ∨ y.rep.vote = some v →
      v.own = [] ∧ (v.kind = .buffer → x.rep.spill = [] ∧ y.rep.spill = []))
    (ha : x.agrees y = true) :
    ∃ t, exec (.vote asid launch index) s = .next t ∧ t.mem = s.mem ∧
      ∀ z k, (z, k) ∈ [(x, n), (y, m)] → (t.slot k).rep.votes = z.rep.votes + 1 ∧ (t.slot k).rep.last = z.rep.earmark ∧
        (t.slot k).rep.earmark = 0 ∧ (t.slot k).rep.vote = none ∧
        (∀ v, z.rep.vote = some v → (v.kind ≠ .buffer → (t.slot k).park.voted = true) ∧
          (v.kind = .buffer → (t.slot k).status = .running)) := by
  have hox : ∀ v, x.rep.vote = some v → v.own = [] := fun v hv => (ho v (.inl hv)).1
  have hoy : ∀ v, y.rep.vote = some v → v.own = [] := fun v hv => (ho v (.inr hv)).1
  have votes : s.votesIn r [x, y] = true := State.votesIn_all h.liveCount.symm (by simp [hvx, hvy])
    (by simp [Slot.releasesSys_none hox, Slot.releasesSys_none hoy])
  obtain ⟨b, agreed⟩ := State.agreement_two r.bell (List.append_eq_nil_iff.1 hbx).1 (List.append_eq_nil_iff.1 hby).1 hox hoy s
  obtain ⟨at_n, at_m⟩ := s.slot_onTid_pair (f := (·.agreed b)) (fun z => z.agreed_tid b) h.differ h.x_thread h.y_thread
  rw [h.x_slot] at at_n
  rw [h.y_slot] at at_m
  refine ⟨_, exec_vote hr ht votes, ?_, fun z k hz => ?_⟩
  · rw [h.decide_both, if_pos ha, agreed]
    rfl
  · rw [h.decide_both, if_pos ha, agreed]
    rcases List.mem_cons.1 hz with hz | hz
    · cases hz
      obtain ⟨⟨votes, last, earmark, vote⟩, on⟩ := Slot.agreed_goesOn h.x_parked hvx (fun v hv hk => ((ho v (.inl hv)).2 hk).1) b
      rw [at_n]
      exact ⟨votes, last, earmark, vote, on⟩
    · cases List.mem_singleton.1 hz
      obtain ⟨⟨votes, last, earmark, vote⟩, on⟩ := Slot.agreed_goesOn h.y_parked hvy (fun v hv hk => ((ho v (.inr hv)).2 hk).2) b
      rw [at_m]
      exact ⟨votes, last, earmark, vote, on⟩

theorem State.Duo.timeout (hr : s.findSet asid launch index = some r) (ht : s.setThreads r = [[x, y]])
    (ho : ∀ v, x.rep.vote = some v → v.own = []) (hvy : y.rep.vote = none) (hvx : ∃ v, x.rep.vote = some v ∧ 2 ^ 24 ≤ v.waited)
    (hs : x.sup.sinh = false) (hc : Stmt.toContext x 0x2C1) :
    ∃ t, exec (.voteTimeout asid launch index) s = .next t ∧ (t.slot m).rep.mismatch = true ∧ (t.slot n).pc = x.trap.tvec ∧
      (t.slot n).trap = { x.trap with tcause := 0x2C1, tpc := x.pc, taddr := x.rep.earmark, async := false, inh := true } := by
  obtain ⟨v, hv, hw⟩ := hvx
  have here : [x, y].filter (·.rep.vote.isSome) = [x] := by simp [hv, hvy]
  have late : s.votesLate r [x, y] = true := by
    have reached : voteLimit ≤ v.waited := hw
    simp [State.votesLate, State.voteWaits, here, hv, reached, Slot.releasesSys_none ho]
  have one := State.refused_mismatch h.x_slot h.x_live h.x_tid hs hc
  have still : (s.mismatch x).slot m = y := by
    rw [one.other m h.apart.symm (h.y_slot ▸ h.differ.symm), h.y_slot]
  refine ⟨_, exec_voteTimeout hr ht late, ?_, ?_⟩
  · rw [here, h.decide_first, slot_onTid_self still h.y_live]
  · rw [here, h.decide_first, State.slot_onTid, if_neg (by simp [one.tid, h.differ])]
    exact ⟨one.pc, one.trap⟩

end

/-! ## What a shearing leaves alone -/

/-- A state without queued groups. -/
def State.unqueued (s : State) : Prop := ∀ e ∈ s.groups, ∀ w, e.2 = some w → w.state ≠ .queued

/-- What a vote reads of a slot. -/
def Slot.voter (x : Slot) : Nat × Replica × Bool := (x.tid, x.rep, x.status == .free)

/-- `t` has the sets and the voters of `s`, and queues no group. -/
structure State.Still (s t : State) : Prop where
  sets : t.sets = s.sets
  voter : ∀ k, (t.slot k).voter = (s.slot k).voter
  unqueued : s.unqueued → t.unqueued

section

variable {o s t u : State}

theorem State.Still.refl (s : State) : s.Still s := ⟨rfl, fun _ => rfl, id⟩

theorem State.Still.trans (h : s.Still t) (h' : t.Still u) : s.Still u :=
  ⟨h'.sets.trans h.sets, fun k => (h'.voter k).trans (h.voter k), fun hq => h'.unqueued (h.unqueued hq)⟩

/-- Leases and crooks are no concern of a vote. -/
theorem State.Regranted.still (h : s.Regranted t) : s.Still t :=
  ⟨congrArg (·.sets) h.afar, fun k => by
    have same : (t.slot k).unleased.voter = (s.slot k).unleased.voter := congrArg Slot.voter (h.slot k)
    exact same, fun hq => (congrArg (·.unqueued) h.afar).mpr hq⟩

/-- An update of other parts than slots, groups and sets. -/
theorem State.Still.other (h : o.Still s) (hs : t.sets = s.sets := by rfl) (hl : t.slots = s.slots := by rfl)
    (hg : t.groups = s.groups := by rfl) : o.Still t :=
  h.trans ⟨hs, fun k => by rw [State.slot, hl, State.slot], fun hq => by rwa [State.unqueued, hg]⟩

theorem State.unqueued_onTid (hq : s.unqueued) (tid : Nat) (f : Slot → Slot) : (s.onTid tid f).unqueued := by
  intro e he w hw
  obtain ⟨⟨g, x⟩, hx, rfl⟩ := List.mem_map.1 he
  obtain ⟨y, hy, rfl⟩ := Option.map_eq_some_iff.1 hw
  exact hq _ hx y hy

theorem State.Still.onTid (h : o.Still s) (tid : Nat) {f : Slot → Slot} (hf : ∀ x, (f x).voter = x.voter) : o.Still (s.onTid tid f) :=
  h.trans ⟨rfl, fun k => by
    rw [State.slot_onTid]
    split
    · exact hf _
    · rfl, fun hq => State.unqueued_onTid hq tid f⟩

theorem State.Still.foldl {α : Type} {f : State → α → State} (h : o.Still s) (hf : ∀ s, o.Still s → ∀ a, o.Still (f s a))
    (l : List α) : o.Still (l.foldl f s) := List.foldlRecOn (motive := fun u => o.Still u) l f h fun u hu a _ => hf u hu a

theorem State.Still.leaveCrook (h : o.Still s) (n : Nat) (l : Lease) : o.Still (s.leaveCrook n l) :=
  h.trans (s.regranted_leaveCrook n l).still

theorem State.Still.passCrook (h : o.Still s) (n : Nat) : o.Still (s.passCrook n) := h.trans (s.regranted_passCrook n).still

theorem State.Still.endGroup (h : o.Still s) (g : Nat) (x : Group) : o.Still (s.endGroup g x .discarded) := by
  have ended : s.Still (s.onGroup g fun x => { x with
      state := .discarded, reserve := none, saved := [], kids := [], preempt := false, doomed := false }) := by
    unfold State.onGroup
    split
    · exact .refl s
    · refine ⟨rfl, fun _ => rfl, fun hq e he w hw => ?_⟩
      rcases mem_put he with rfl | he
      · cases hw
        exact nofun
      · exact hq e he w hw
  unfold State.endGroup
  dsimp only
  split
  · exact (h.trans ended).other
  · exact h.trans ended

/-- A store touches the monitors of the slots alone. -/
theorem State.Still.store (h : o.Still s) (pa : Nat) (bs : List Byte) : o.Still (s.store pa bs) := by
  have slots : (s.store pa bs).slots = s.slots.map fun e => (e.1, e.2.touched pa bs.length) := congrArg (·.slots)
    (State.dirtied_noLines ((({ s with mem := memWrite s.mem pa bs } : State).observe pa bs.length).touch pa bs.length) pa bs.length {})
  refine h.trans ⟨congrArg (·.sets) (s.store_noStores pa bs {}), fun k => ?_,
    fun hq => (congrArg (·.unqueued) (s.store_noStores pa bs {})).mpr hq⟩
  have touched : (s.store pa bs).slot k = (s.slot k).touched pa bs.length := by
    rw [State.slot, slots]
    exact val_map (d := ({} : Slot)) (g := Slot.touched pa bs.length) rfl k s.slots
  rw [touched]
  rfl

theorem State.Still.postEvent (h : o.Still s) (asid kind handle data : Nat) : o.Still (s.postEvent asid kind handle data) := by
  unfold State.postEvent
  extract_lets q x a w u regs
  split
  · exact h.other
  · have posted : o.Still u := (h.store a (leBytes w 64)).other
    split
    · exact posted.other
    · exact posted.other

theorem State.Still.takeOver (h : o.Still s) (a b : Slot) : o.Still (s.takeOver a b) :=
  State.Still.onTid h.other _ fun _ => rfl

theorem State.Still.promote (h : o.Still s) (r : RepSet) (old : List Slot) : o.Still (s.promote r old) := by
  refine h.foldl (fun u hu x => ?_) _
  split
  · split
    · exact hu.takeOver ..
    · refine hu.onTid _ fun y => ?_
      cases hy : y.status <;> simp [Slot.voter, hy]
  · exact hu

/-- With no group queued a placement pass does nothing. -/
theorem State.queuedOn_nil (hq : s.unqueued) (die : Nat) : s.queuedOn die = [] := by
  unfold State.queuedOn
  extract_lets qs ins
  have none : qs = [] := by
    refine List.filterMap_eq_nil_iff.2 fun e he => ?_
    obtain ⟨g, w⟩ := e
    cases w with
    | none => rfl
    | some x => simp [hq _ he x rfl]
  rw [none, List.foldl_nil]

theorem State.passes_unqueued (hq : s.unqueued) (die n : Nat) : s.passes die n = s := by
  have once : s.passOnce die = s := by
    simp only [State.passOnce, State.queuedOn_nil hq, List.foldl_nil]
  cases n with
  | zero => rfl
  | succ n => simp only [State.passes, once, beq_self_eq_true, if_true]

theorem State.placePass_unqueued (hq : s.unqueued) (die : Nat) : s.placePass die = s := by
  have lone (d : Nat) : s.loneFits d = false := by simp only [State.loneFits, State.queuedOn_nil hq, List.any_nil]
  have die : s.diePass die = s := State.passes_unqueued hq ..
  rw [State.placePass, die]
  exact foldl_id (fun d => by simp [lone]) _

/-! ## A shearing -/

/-- Thread `a` has been freed, and `t` is else as `s` to a vote. -/
structure State.Frees (s t : State) (a : Nat) : Prop where
  sets : t.sets = s.sets
  others : ∀ k, (s.slot k).isThread a = false → (t.slot k).voter = (s.slot k).voter
  gone : ∀ k, (s.slot k).isThread a = true → (t.slot k).status = .free
  unqueued : s.unqueued → t.unqueued

theorem Slot.isThread_of_voter {x y : Slot} (h : x.voter = y.voter) (a : Nat) : x.isThread a = y.isThread a := by
  have hf : (x.status == .free) = (y.status == .free) := congrArg (·.2.2) h
  rw [Slot.isThread, Slot.isThread, show x.tid = y.tid from congrArg (·.1) h, bne, hf, bne]

theorem Slot.free_of_voter {x y : Slot} (h : x.voter = y.voter) (hy : y.status = .free) : x.status = .free := by
  have hf : (x.status == .free) = (y.status == .free) := congrArg (·.2.2) h
  rw [hy] at hf
  exact beq_iff_eq.1 hf

theorem State.Still.frees {a : Nat} (h : s.Still t) (hf : t.Frees u a) : s.Frees u a := by
  refine ⟨hf.sets.trans h.sets, fun k hk => ?_, fun k hk => hf.gone k ?_, fun hq => hf.unqueued (h.unqueued hq)⟩
  · exact (hf.others k (by rw [Slot.isThread_of_voter (h.voter k), hk])).trans (h.voter k)
  · rw [Slot.isThread_of_voter (h.voter k), hk]

theorem State.Frees.still {a : Nat} (hf : s.Frees t a) (h : t.Still u) : s.Frees u a :=
  ⟨h.sets.trans hf.sets, fun k hk => (h.voter k).trans (hf.others k hk), fun k hk => Slot.free_of_voter (h.voter k) (hf.gone k hk),
    fun hq => h.unqueued (hf.unqueued hq)⟩

/-- To free thread `a` more than once is to free it once. -/
theorem State.frees_foldl {a : Nat} {ts : List Nat} (ht : ∀ t ∈ ts, t = a) (ha : a ∈ ts) (s : State) :
    s.Frees (ts.foldl (fun s t => s.onTid t Slot.freed) s) a := by
  have kept : ∀ (ts : List Nat), (∀ t ∈ ts, t = a) → ∀ (s : State) (k : Nat), (s.slot k).isThread a = false →
      (ts.foldl (fun s t => s.onTid t Slot.freed) s).slot k = s.slot k := fun ts => by
    induction ts with
    | nil => exact fun _ _ _ _ => rfl
    | cons t ts ih =>
      intro ht s k hk
      obtain ⟨rfl, ht⟩ := List.forall_mem_cons.1 ht
      have one : (s.onTid t Slot.freed).slot k = s.slot k :=
        (s.slot_onTid t Slot.freed k).trans (if_neg (by simpa [Slot.isThread] using hk))
      rw [List.foldl_cons, ih ht _ k (by rw [one, hk]), one]
  have sets := foldl_same State.sets (fun (s : State) (t : Nat) => s.onTid t Slot.freed) (fun _ _ => rfl) ts s
  refine ⟨sets, fun k hk => congrArg Slot.voter (kept ts ht s k hk), fun k hk => ?_,
    fun hq => List.foldlRecOn (motive := State.unqueued) ts _ hq fun u hu t _ => State.unqueued_onTid hu t Slot.freed⟩
  cases ts with
  | nil => cases ha
  | cons t ts =>
    obtain ⟨rfl, ht⟩ := List.forall_mem_cons.1 ht
    have one : (s.onTid t Slot.freed).slot k = (s.slot k).freed := (s.slot_onTid t Slot.freed k).trans (if_pos hk)
    rw [List.foldl_cons, kept ts ht _ k (by rw [one]; simp [Slot.isThread, Slot.freed]), one]
    rfl

/-- The live threads of a group. -/
def State.groupTids (s : State) (g : Nat) : List Nat :=
  ((s.allSlots.map (·.2)).filter fun x => x.id.group == some g && x.status != .free).map (·.tid)

theorem State.frees_freeGroup {a g : Nat} (ht : ∀ t ∈ s.groupTids g, t = a) (ha : a ∈ s.groupTids g) : s.Frees (s.freeGroup g) a := by
  unfold State.freeGroup
  extract_lets ns tids s1 s2 mine s3 s4
  have left : s.Still s1 := State.Still.foldl (.refl s) (fun _ hu n => hu.leaveCrook n .none) ns
  have freed : s.Frees s2 a := left.frees (State.frees_foldl ht ha s1)
  have dropped : s2.Still s4 := by
    exact State.Still.other (.refl s2) rfl rfl rfl
  have passed : s4.Still ((s4.tiles.map (·.1)).foldl (fun s t => s.passCrook t) s4) :=
    State.Still.foldl (.refl s4) (fun _ hu n => hu.passCrook n) _
  exact freed.still (dropped.trans passed)

/-- A replica of one thread, `a`, is shorn. -/
theorem State.shear_frees {r : RepSet} {a i : Nat} (hr : r ∈ s.sets) (hq : s.unqueued)
    (ht : ∀ t ∈ s.groupTids (r.members.getD i 0), t = a) (ha : a ∈ s.groupTids (r.members.getD i 0)) (n : Nat) (marks : List Word) :
    (∃ q ∈ (s.shear r i n marks).sets, q.members = r.members ∧ q.live = r.live.set i false) ∧
      (∀ k, (s.slot k).isThread a = false → ((s.shear r i n marks).slot k).voter = (s.slot k).voter) ∧
      ∀ k, (s.slot k).isThread a = true → ((s.shear r i n marks).slot k).status = .free := by
  unfold State.shear
  extract_lets g die live bell r' old s1 s2 s3
  have freed : s.Frees (s.freeGroup g) a := State.frees_freeGroup ht ha
  have shorn : r' ∈ s1.sets := List.mem_map.2 ⟨r, freed.sets ▸ hr, if_pos (beq_self_eq_true _)⟩
  have ended : s1.Still s2 := by
    unfold s2
    split
    · exact State.Still.endGroup (.refl s1) _ _
    · exact .refl s1
  have promoted : s1.Still (s3.promote r' old) := (ended.postEvent ..).promote r' old
  have calm : s1.unqueued := freed.unqueued hq
  have passed : (s3.promote r' old).placePass die = s3.promote r' old := State.placePass_unqueued (promoted.unqueued calm) die
  rw [passed]
  have stands : r' ∈ (s3.promote r' old).sets := by
    rw [promoted.sets]
    exact shorn
  refine ⟨⟨r', stands, rfl, rfl⟩, ?_, ?_⟩
  · intro k hk
    exact (promoted.voter k).trans (freed.others k hk)
  · intro k hk
    exact Slot.free_of_voter (promoted.voter k) (freed.gone k hk)

end

/-! ## A triple set -/

theorem Slot.agrees_iff {x y : Slot} : x.agrees y = true ↔ x.rep.earmark = y.rep.earmark ∧ x.rep.votes = y.rep.votes ∧
    (x.rep.vote.map fun v => (v.kind, v.once)) = y.rep.vote.map fun v => (v.kind, v.once) := by
  simp [Slot.agrees, and_assoc]

/-- Who differs from one of two that agree differs from the other. -/
theorem Slot.differs_of_agrees {x y z : Slot} (hy : x.agrees y = true) (hz : x.agrees z = false) : y.agrees z = false := by
  rw [Bool.eq_false_iff] at hz ⊢
  intro h
  obtain ⟨e, n, k⟩ := Slot.agrees_iff.1 hy
  obtain ⟨e', n', k'⟩ := Slot.agrees_iff.1 h
  exact hz (Slot.agrees_iff.2 ⟨e.trans e', n.trans n', k.trans k'⟩)

section

variable {asid launch index n m l g : Nat} {r : RepSet} {x y z : Slot} {s : State}

/-- Every live slot of the set's live replicas is among its threads. -/
theorem State.mem_setThreads {xs : List Slot} (ht : s.setThreads r = [xs]) {w : Slot} (hw : w ∈ s.allSlots.map (·.2))
    (hm : r.liveMember w = true) (hl : w.status ≠ .free) : w ∈ xs := by
  unfold State.setThreads at ht
  extract_lets all keys at ht
  have mine : w ∈ all := List.mem_filter.2 ⟨hw, by simp [hm, hl]⟩
  have key : (w.id.gshape.toNat, w.id.logical) ∈ keys := List.mem_eraseDups.2 (List.mem_map.2 ⟨w, mine, rfl⟩)
  have thread := List.mem_map_of_mem (f := fun k => all.filter fun x => x.id.gshape.toNat == k.1 && x.id.logical == k.2) key
  rw [ht] at thread
  rw [← List.mem_singleton.1 thread]
  exact List.mem_filter.2 ⟨mine, by simp⟩

theorem RepSet.liveMember_third {w : Slot} (hl : r.live = [true, true, true]) (hg : r.members[2]? = some g) (hw : w.id.group = some g) :
    r.liveMember w = true := by
  have stands : (g, true) ∈ r.members.zip r.live :=
    List.mem_iff_getElem?.2 ⟨2, List.getElem?_zip_eq_some.2 ⟨hg, by rw [hl]; rfl⟩⟩
  unfold RepSet.liveMember
  rw [hw]
  exact List.any_eq_true.2 ⟨_, stands, by simp⟩

theorem State.slot_mem_allSlots (hs : s.slot l = z) (hf : z.status ≠ .free) : z ∈ s.allSlots.map (·.2) := by
  rcases val_mem ({} : Slot) l s.slots with hv | hv
  · exact absurd (congrArg Slot.status (hs.symm.trans hv)) hf
  · exact List.mem_map.2 ⟨_, List.mem_append_left _ (List.mem_append_left _ hv), hs⟩

/-- The third replica of the set, which stands in slot `l`, is all there is of its group. -/
theorem State.groupTids_third (ht : s.setThreads r = [[x, y, z]]) (hl : r.live = [true, true, true]) (hg : r.members[2]? = some g)
    (hz : z.id.group = some g) (hx : x.id.group ≠ some g) (hy : y.id.group ≠ some g) (hs : s.slot l = z) (hf : z.status ≠ .free) :
    (∀ t ∈ s.groupTids g, t = z.tid) ∧ z.tid ∈ s.groupTids g := by
  constructor
  · intro t hm
    obtain ⟨w, hw, rfl⟩ := List.mem_map.1 hm
    obtain ⟨hw, hp⟩ := List.mem_filter.1 hw
    obtain ⟨hgw, hfw⟩ : w.id.group = some g ∧ w.status ≠ .free := by simpa using hp
    have thread := State.mem_setThreads ht hw (RepSet.liveMember_third hl hg hgw) hfw
    simp only [List.mem_cons, List.not_mem_nil, or_false] at thread
    rcases thread with rfl | rfl | rfl
    · exact absurd hgw hx
    · exact absurd hgw hy
    · rfl
  · exact List.mem_map.2 ⟨z, List.mem_filter.2 ⟨State.slot_mem_allSlots hs hf, by simp [hz, hf]⟩, rfl⟩

/-- Three replicas of one thread, in slots `n`, `m` and `l`: the first two agree, and the third, of group `g`, differs. -/
structure State.Trio (s : State) (r : RepSet) (x y z : Slot) (n m l g : Nat) : Prop where
  threads : s.setThreads r = [[x, y, z]]
  live : r.live = [true, true, true]
  first : x.rep.index = 0
  second : y.rep.index = 1
  third : z.rep.index = 2
  x_slot : s.slot n = x
  y_slot : s.slot m = y
  z_slot : s.slot l = z
  x_live : x.status ≠ .free
  y_live : y.status ≠ .free
  z_live : z.status ≠ .free
  x_group : x.id.group ≠ some g
  y_group : y.id.group ≠ some g
  z_group : z.id.group = some g
  member : r.members[2]? = some g
  xy : x.tid ≠ y.tid
  xz : x.tid ≠ z.tid
  yz : y.tid ≠ z.tid
  agree : x.agrees y = true
  differ : x.agrees z = false

/-- The third is shorn, and the others go on. -/
theorem State.Trio.decide (h : s.Trio r x y z n m l g) : ∃ marks k, s.decideVote r [x, y, z] [x, y, z] =
    (s.shear r 2 k marks).agreement r.bell [x, y] := by
  refine ⟨marksOf [x, y, z], x.rep.votes + 1, ?_⟩
  simp [State.decideVote, h.live, h.first, h.second, h.third, h.agree, Slot.differs_of_agrees h.agree h.differ]

theorem State.Trio.shears (h : s.Trio r x y z n m l g) (hr : s.findSet asid launch index = some r) (hq : s.unqueued)
    (hw : ∀ w ∈ [x, y, z], w.rep.buffer = [] ∧ ∃ v, w.rep.vote = some v ∧ v.own = [] ∧ v.kind ≠ .buffer) :
    ∃ t, exec (.vote asid launch index) s = .next t ∧ (t.slot l).status = .free ∧
      (∃ q ∈ t.sets, q.members = r.members ∧ q.live = [true, true, false]) ∧
      ∀ w k, (w, k) ∈ [(x, n), (y, m)] → (t.slot k).rep.votes = w.rep.votes + 1 ∧ (t.slot k).rep.last = w.rep.earmark ∧
        (t.slot k).rep.earmark = 0 ∧ (t.slot k).rep.vote = none ∧ (t.slot k).park.voted = true := by
  have own : ∀ w ∈ [x, y, z], ∀ v, w.rep.vote = some v → v.own = [] := fun w hm v hv => by
    obtain ⟨-, u, hu, ho, -⟩ := hw w hm
    cases hu.symm.trans hv
    exact ho
  have held : ∀ w ∈ [x, y, z], w.rep.held = [] := fun w hm => (List.append_eq_nil_iff.1 (hw w hm).1).1
  have votes : s.votesIn r [x, y, z] = true := by
    refine State.votesIn_all (by rw [RepSet.liveCount, h.live]; rfl) (fun w hm => ?_) fun w hm => Slot.releasesSys_none (own w hm)
    obtain ⟨-, v, hv, -⟩ := hw w hm
    rw [hv]
    rfl
  have group : r.members.getD 2 0 = g := by rw [List.getD_eq_getElem?_getD, h.member]; rfl
  obtain ⟨only, all⟩ := State.groupTids_third h.threads h.live h.member h.z_group h.x_group h.y_group h.z_slot h.z_live
  obtain ⟨marks, k, decided⟩ := h.decide
  obtain ⟨⟨q, hq, members, live⟩, others, gone⟩ :=
    State.shear_frees (List.mem_of_find?_eq_some hr) hq (group ▸ only) (group ▸ all) k marks
  set u := s.shear r 2 k marks
  obtain ⟨b, agreed⟩ := State.agreement_two r.bell (held x (by simp)) (held y (by simp)) (own x (by simp)) (own y (by simp)) u
  have x_voter : (u.slot n).voter = x.voter := (others n (by simp [h.x_slot, Slot.isThread, h.xz])).trans (congrArg _ h.x_slot)
  have y_voter : (u.slot m).voter = y.voter := (others m (by simp [h.y_slot, Slot.isThread, h.yz])).trans (congrArg _ h.y_slot)
  have freed : (u.slot l).status = .free := gone l (by simp [h.z_slot, Slot.isThread, h.z_live])
  obtain ⟨at_n, at_m⟩ := u.slot_onTid_pair (f := (·.agreed b)) (fun z => z.agreed_tid b) h.xy
    (by rw [Slot.isThread_of_voter x_voter]; simp [Slot.isThread, h.x_live])
    (by rw [Slot.isThread_of_voter y_voter]; simp [Slot.isThread, h.y_live])
  refine ⟨_, exec_vote hr h.threads votes, ?_⟩
  rw [decided, agreed]
  refine ⟨?_, ⟨q, hq, members, live.trans (by rw [h.live]; rfl)⟩, fun w k hm => ?_⟩
  · have still : (u.onTid x.tid (·.agreed b)).slot l = u.slot l := (u.slot_onTid ..).trans (if_neg (by simp [freed]))
    rw [State.slot_onTid, if_neg (by simp [still, freed]), still, freed]
  · have goes : ∀ w ∈ [x, y, z], ∀ y : Slot, y.voter = w.voter → w.Counted (y.agreed b) ∧ (y.agreed b).park.voted = true :=
      fun w hm y hy => by
        obtain ⟨-, v, hv, -, hk⟩ := hw w hm
        have same : y.rep = w.rep := congrArg (·.2.1) hy
        obtain ⟨⟨votes, last, earmark, vote⟩, voted⟩ := Slot.agreed_explicit (x := y) (same ▸ hv) hk b
        exact ⟨⟨same ▸ votes, same ▸ last, earmark, vote⟩, voted⟩
    rcases List.mem_cons.1 hm with hm | hm
    · cases hm
      obtain ⟨⟨votes, last, earmark, vote⟩, voted⟩ := goes x (by simp) _ x_voter
      rw [at_n]
      exact ⟨votes, last, earmark, vote, voted⟩
    · cases List.mem_singleton.1 hm
      obtain ⟨⟨votes, last, earmark, vote⟩, voted⟩ := goes y (by simp) _ y_voter
      rw [at_m]
      exact ⟨votes, last, earmark, vote, voted⟩

end

end Sys2Proof.Machine

open Sys2Proof Sys2Proof.Machine

/-- Settles O43: a vote acts on its threads one after the other, each where it stands; what a shearing frees, grants and posts leaves the
voters that are left alone. -/
theorem votesAgreeOrTimeOut : Obligations.VotesAgreeOrTimeOut := by
  refine ⟨fun asid launch index n m r x y s hr ht hl hx hy hn hm htx hty hne hpx hpy => ?_,
    fun asid launch index n m l g r x y z s hr ht hl hx hy hz hn hm hlz htx hty htz hg hgz hgx hgy hne hpx hpy hpz hnl
      hml hw hq _ ha hd => ?_⟩
  · have duo : s.Duo r x y n m := ⟨hl, hx, hy, hn, hm, htx, hty, hne, hpx, hpy⟩
    exact ⟨fun hvy hvx ha hs hsx hsy hcx hcy => duo.differing hr ht hvy hvx ha hs hsx hsy hcx hcy, fun hbx hby hvx ho =>
      ⟨fun hvy ha => duo.agreeing hr ht hbx hby hvx hvy ho ha,
        fun hvy hw hs hc => duo.timeout hr ht (fun v hv => (ho v (.inl hv)).1) hvy hw hs hc⟩⟩
  · have parked : ∀ w : Slot, w.status = .parked → w.status ≠ .free := fun w h => by rw [h]; decide
    have xz : x.tid ≠ z.tid := fun e => hnl (Option.some.inj (htx.symm.trans (e ▸ htz)))
    have yz : y.tid ≠ z.tid := fun e => hml (Option.some.inj (hty.symm.trans (e ▸ htz)))
    have trio : s.Trio r x y z n m l g := ⟨ht, hl, hx, hy, hz, hn, hm, hlz, parked x hpx, parked y hpy, parked z hpz, hgx, hgy, hgz, hg,
      hne, xz, yz, ha, hd⟩
    refine trio.shears hr hq fun w hm => ?_
    obtain ⟨hb, -, hv⟩ := hw w hm
    exact ⟨hb, hv⟩

end
